-- ==== Sys2Proof/Word.lean ====
section
/-! DEFINITION. Sys2Proof/Word.lean: the word types of the part (R6, R77) and the plainest sparse tables that the state
is built from. -/

namespace Sys2Proof

/-- The 64-bit value of a cell or of a scratch word. -/
abbrev Word := BitVec 64

/-- A byte of memory. -/
abbrev Byte := BitVec 8

/-- A table by number, sorted by ascending key with no key twice; a key that is not listed has the default that the
reader names. -/
abbrev Sparse (α : Type) := List (Nat × α)

/-- The entry of a key, or the default. -/
def Sparse.get {α : Type} (d : α) : Sparse α → Nat → α
  | [], _ => d
  | (k, v) :: t, n => if n = k then v else if n < k then d else Sparse.get d t n

/-- The table with the entry of one key replaced. -/
def Sparse.put {α : Type} : Sparse α → Nat → α → Sparse α
  | [], n, x => [(n, x)]
  | (k, v) :: t, n, x =>
    if n = k then (n, x) :: t
    else if n < k then (n, x) :: (k, v) :: t
    else (k, v) :: Sparse.put t n x

/-- The table without the entry of one key. -/
def Sparse.del {α : Type} : Sparse α → Nat → Sparse α
  | [], _ => []
  | (k, v) :: t, n => if n = k then t else if n < k then (k, v) :: t else (k, v) :: Sparse.del t n

/-- Whether a key is listed. -/
def Sparse.has {α : Type} : Sparse α → Nat → Bool
  | [], _ => false
  | (k, _) :: t, n => if n = k then true else if n < k then false else Sparse.has t n

end Sys2Proof
end

