-- ==== Sys2Proof/Syntax.lean ====
section
/-! DEFINITION. Sys2Proof/Syntax.lean: the instructions and events of the part, one constructor for each row of the
table of operations and events (spec/opcode_table.json). The first 248 are 32-bit words (R203 to R209); the other 92
are the part's own steps and events, which have no encoding (spec/95_what_each_step_holds.md). Fields keep the letters
of the table; n of mig and imm of format S are the joined fields. An event takes its arguments (which operation, which
core, the host's data) from State.ev, so that it is a constructor without fields: the compiler represents at most 245
constructors that have fields. For the same reason the words without fields stand after those with fields. -/

namespace Sys2Proof

/-- A name: the 7-bit value of a cell field (R9, R205). -/
abbrev Name := BitVec 7

/-- An instruction word or an event of the part. -/
inductive Instr where
  /-- R220. Writes the 64-bit sum of two cells, wrapping modulo 2^64. -/
  | add (d : Name) (a : Name) (b : Name)
  /-- R220. Writes the difference of two cells, wrapping modulo 2^64. -/
  | sub (d : Name) (a : Name) (b : Name)
  /-- R220. Writes the bitwise AND of two cells. -/
  | and (d : Name) (a : Name) (b : Name)
  /-- R220. Writes the bitwise OR of two cells. -/
  | or (d : Name) (a : Name) (b : Name)
  /-- R220. Writes the bitwise XOR of two cells. -/
  | xor (d : Name) (a : Name) (b : Name)
  /-- R220. Shifts a cell left by the low six bits of the second cell. -/
  | sll (d : Name) (a : Name) (b : Name)
  /-- R220. Shifts a cell right logically by the low six bits of the second cell. -/
  | srl (d : Name) (a : Name) (b : Name)
  /-- R220. Shifts a cell right arithmetically by the low six bits of the second cell. -/
  | sra (d : Name) (a : Name) (b : Name)
  /-- R220. Writes 1 if the first cell is signed-less than the second, else 0. -/
  | slt (d : Name) (a : Name) (b : Name)
  /-- R220. Writes 1 if the first cell is unsigned-less than the second, else 0. -/
  | sltu (d : Name) (a : Name) (b : Name)
  /-- R220. Writes the signed minimum of two cells. -/
  | min (d : Name) (a : Name) (b : Name)
  /-- R220. Writes the signed maximum of two cells. -/
  | max (d : Name) (a : Name) (b : Name)
  /-- R220. Writes the unsigned minimum of two cells. -/
  | minu (d : Name) (a : Name) (b : Name)
  /-- R220. Writes the unsigned maximum of two cells. -/
  | maxu (d : Name) (a : Name) (b : Name)
  /-- R220. Writes the low 64 bits of the product of two cells. -/
  | mul (d : Name) (a : Name) (b : Name)
  /-- R220. Writes the high 64 bits of the signed 128-bit product. -/
  | mulh (d : Name) (a : Name) (b : Name)
  /-- R220. Writes the high 64 bits of the unsigned 128-bit product. -/
  | mulhu (d : Name) (a : Name) (b : Name)
  /-- R221. Writes the signed quotient truncated toward zero, with fixed edge cases and FPX on zero divisor when EN.DZ is set. -/
  | div (d : Name) (a : Name) (b : Name)
  /-- R221. Writes the unsigned quotient, all ones on a zero divisor or FPX when EN.DZ is set. -/
  | divu (d : Name) (a : Name) (b : Name)
  /-- R221. Writes the signed remainder with the dividend's sign, with fixed edge cases. -/
  | rem (d : Name) (a : Name) (b : Name)
  /-- R221. Writes the unsigned remainder, the dividend on a zero divisor or FPX when EN.DZ is set. -/
  | remu (d : Name) (a : Name) (b : Name)
  /-- R222. Writes the count of leading zero bits of a cell. -/
  | clz (d : Name) (a : Name)
  /-- R222. Writes the count of trailing zero bits of a cell. -/
  | ctz (d : Name) (a : Name)
  /-- R222. Writes the number of set bits of a cell. -/
  | popc (d : Name) (a : Name)
  /-- R222. Writes the count of set bits of x below position min(y, 64). -/
  | rank (d : Name) (a : Name) (b : Name)
  /-- R222. Writes the position of set bit number y of x, or 64. -/
  | nth (d : Name) (a : Name) (b : Name)
  /-- R222. Packs the bits of x at the mask's set positions into the low bits. -/
  | bext (d : Name) (a : Name) (b : Name)
  /-- R222. Spreads the low bits of x into the mask's set positions. -/
  | bdep (d : Name) (a : Name) (b : Name)
  /-- R222. Writes a cell with its bytes reversed. -/
  | rev8 (d : Name) (a : Name)
  /-- R222. Sign-extends the low 8 bits of a cell. -/
  | sext8 (d : Name) (a : Name)
  /-- R222. Sign-extends the low 16 bits of a cell. -/
  | sext16 (d : Name) (a : Name)
  /-- R222. Sign-extends the low 32 bits of a cell. -/
  | sext32 (d : Name) (a : Name)
  /-- R222. Zero-extends the low 8 bits of a cell. -/
  | zext8 (d : Name) (a : Name)
  /-- R222. Zero-extends the low 16 bits of a cell. -/
  | zext16 (d : Name) (a : Name)
  /-- R222. Zero-extends the low 32 bits of a cell. -/
  | zext32 (d : Name) (a : Name)
  /-- R223. Adds a sign-extended 12-bit immediate to a cell. -/
  | addi (d : Name) (a : Name) (i : BitVec 12)
  /-- R223. ANDs a cell with a sign-extended immediate. -/
  | andi (d : Name) (a : Name) (i : BitVec 12)
  /-- R223. ORs a cell with a sign-extended immediate. -/
  | ori (d : Name) (a : Name) (i : BitVec 12)
  /-- R223. XORs a cell with a sign-extended immediate. -/
  | xori (d : Name) (a : Name) (i : BitVec 12)
  /-- R223. Writes 1 if the cell is signed-less than the immediate. -/
  | slti (d : Name) (a : Name) (i : BitVec 12)
  /-- R223. Writes 1 if the cell is unsigned-less than the sign-extended immediate. -/
  | sltiu (d : Name) (a : Name) (i : BitVec 12)
  /-- R224. Shifts a cell left by an immediate count. -/
  | slli (d : Name) (a : Name) (c : BitVec 6)
  /-- R224. Shifts a cell right logically by an immediate count. -/
  | srli (d : Name) (a : Name) (c : BitVec 6)
  /-- R224. Shifts a cell right arithmetically by an immediate count. -/
  | srai (d : Name) (a : Name) (c : BitVec 6)
  /-- R225. Writes the sign-extended upper immediate shifted left by 12. -/
  | lui (d : Name) (i : BitVec 19)
  /-- R225. Writes the instruction address plus the upper immediate. -/
  | adpc (d : Name) (i : BitVec 19)
  /-- R226. Writes a guarded predicate with the equality of two cells. -/
  | pcmpEq (p : BitVec 3) (g : BitVec 3) (n : BitVec 1) (a : Name) (b : Name)
  /-- R226. Writes a guarded predicate with the inequality of two cells. -/
  | pcmpNe (p : BitVec 3) (g : BitVec 3) (n : BitVec 1) (a : Name) (b : Name)
  /-- R226. Writes a guarded predicate with a signed less-than compare. -/
  | pcmpLt (p : BitVec 3) (g : BitVec 3) (n : BitVec 1) (a : Name) (b : Name)
  /-- R226. Writes a guarded predicate with a signed greater-or-equal compare. -/
  | pcmpGe (p : BitVec 3) (g : BitVec 3) (n : BitVec 1) (a : Name) (b : Name)
  /-- R226. Writes a guarded predicate with an unsigned less-than compare. -/
  | pcmpLtu (p : BitVec 3) (g : BitVec 3) (n : BitVec 1) (a : Name) (b : Name)
  /-- R226. Writes a guarded predicate with an unsigned greater-or-equal compare. -/
  | pcmpGeu (p : BitVec 3) (g : BitVec 3) (n : BitVec 1) (a : Name) (b : Name)
  /-- R226. Writes a guarded predicate with a quiet FP32 equality compare. -/
  | pcmpFEq (p : BitVec 3) (g : BitVec 3) (n : BitVec 1) (a : Name) (b : Name)
  /-- R226. Writes a guarded predicate with a signalling FP32 less-than compare. -/
  | pcmpFLt (p : BitVec 3) (g : BitVec 3) (n : BitVec 1) (a : Name) (b : Name)
  /-- R226. Writes a guarded predicate with a signalling FP32 less-or-equal compare. -/
  | pcmpFLe (p : BitVec 3) (g : BitVec 3) (n : BitVec 1) (a : Name) (b : Name)
  /-- R226. Writes a guarded predicate true when either FP32 operand is a NaN. -/
  | pcmpFUn (p : BitVec 3) (g : BitVec 3) (n : BitVec 1) (a : Name) (b : Name)
  /-- R226. Writes a guarded predicate with a quiet VF equality compare. -/
  | pcmpVfEq (p : BitVec 3) (g : BitVec 3) (n : BitVec 1) (a : Name) (b : Name)
  /-- R226. Writes a guarded predicate with a signalling VF less-than compare. -/
  | pcmpVfLt (p : BitVec 3) (g : BitVec 3) (n : BitVec 1) (a : Name) (b : Name)
  /-- R226. Writes a guarded predicate with a signalling VF less-or-equal compare. -/
  | pcmpVfLe (p : BitVec 3) (g : BitVec 3) (n : BitVec 1) (a : Name) (b : Name)
  /-- R226. Writes a guarded predicate with one selected bit of a cell. -/
  | pcmpBit (p : BitVec 3) (g : BitVec 3) (n : BitVec 1) (a : Name) (b : Name)
  /-- R227. Writes a guarded predicate with the AND of two predicates. -/
  | pand (p : BitVec 3) (g : BitVec 3) (n : BitVec 1) (a : BitVec 3) (b : BitVec 3)
  /-- R227. Writes a guarded predicate with the OR of two predicates. -/
  | por (p : BitVec 3) (g : BitVec 3) (n : BitVec 1) (a : BitVec 3) (b : BitVec 3)
  /-- R227. Writes a guarded predicate with the XOR of two predicates. -/
  | pxor (p : BitVec 3) (g : BitVec 3) (n : BitVec 1) (a : BitVec 3) (b : BitVec 3)
  /-- R227. Writes a guarded predicate with pa AND NOT pb. -/
  | pandn (p : BitVec 3) (g : BitVec 3) (n : BitVec 1) (a : BitVec 3) (b : BitVec 3)
  /-- R227. Copies a predicate under a guard. -/
  | pmov (p : BitVec 3) (g : BitVec 3) (n : BitVec 1) (a : BitVec 3)
  /-- R227. Writes the complement of a predicate under a guard. -/
  | pnot (p : BitVec 3) (g : BitVec 3) (n : BitVec 1) (a : BitVec 3)
  /-- R227. Sets a predicate to a constant under a guard. -/
  | pset (p : BitVec 3) (g : BitVec 3) (n : BitVec 1) (v : BitVec 1)
  /-- R228. Branches by a 22-bit word offset when the predicate XOR sense holds. -/
  | bp (n : BitVec 1) (p : BitVec 3) (o : BitVec 22)
  /-- R228. Branches unconditionally by a 26-bit word offset. -/
  | br (o : BitVec 26)
  /-- R228. Writes the return address to x8 and branches by a 26-bit word offset. -/
  | bl (o : BitVec 26)
  /-- R228. Jumps to the address in a cell after tag and alignment checks. -/
  | jr (a : Name)
  /-- R228. Jumps to the address in a cell and writes the return address. -/
  | jlr (d : Name) (a : Name)
  /-- R230. Skips the next n words, unfetched, when the predicate XOR sense holds. -/
  | pskip (n : BitVec 1) (p : BitVec 3) (c : BitVec 4)
  /-- R231. Issues a sign-extending byte load, checked at issue and written later. -/
  | ldB (d : Name) (a : Name) (i : BitVec 12)
  /-- R231. Issues a zero-extending byte load. -/
  | ldBu (d : Name) (a : Name) (i : BitVec 12)
  /-- R231. Issues a sign-extending halfword load. -/
  | ldH (d : Name) (a : Name) (i : BitVec 12)
  /-- R231. Issues a zero-extending halfword load. -/
  | ldHu (d : Name) (a : Name) (i : BitVec 12)
  /-- R231. Issues a sign-extending word load. -/
  | ldW (d : Name) (a : Name) (i : BitVec 12)
  /-- R231. Issues a zero-extending word load. -/
  | ldWu (d : Name) (a : Name) (i : BitVec 12)
  /-- R231. Issues an 8-byte load. -/
  | ldD (d : Name) (a : Name) (i : BitVec 12)
  /-- R232. Issues a byte store, checked at issue and performed later. -/
  | stB (i : BitVec 12) (a : Name) (b : Name)
  /-- R232. Issues a halfword store. -/
  | stH (i : BitVec 12) (a : Name) (b : Name)
  /-- R232. Issues a word store. -/
  | stW (i : BitVec 12) (a : Name) (b : Name)
  /-- R232. Issues an 8-byte store. -/
  | stD (i : BitVec 12) (a : Name) (b : Name)
  /-- R233. Loads 64 aligned bytes into a vector group of eight cells. -/
  | ldV (d : Name) (a : Name)
  /-- R233. Stores a vector group of eight cells to 64 aligned bytes. -/
  | stV (a : Name) (b : Name)
  /-- R234. Blocks until the scratch word is full, reads it and empties it. -/
  | ldFe (d : Name) (a : Name)
  /-- R234. Blocks until the scratch word is full and reads it, leaving it full. -/
  | ldFx (d : Name) (a : Name)
  /-- R234. Blocks until the scratch word is empty, writes it and fills it. -/
  | stEf (a : Name) (b : Name)
  /-- R234. Writes the scratch word and sets it full. -/
  | stFs (a : Name) (b : Name)
  /-- R234. Writes the scratch word and sets it empty. -/
  | stFc (a : Name) (b : Name)
  /-- R235. Stores one nibble of a byte with a single nibble enable. -/
  | stN (h : BitVec 1) (a : Name) (b : Name)
  /-- R235. Loads one nibble of a byte, zero-extended. -/
  | ldN (d : Name) (a : Name) (h : BitVec 1)
  /-- R236. Marks a word of the core's own scratch as watched by the slot. -/
  | watch (a : Name)
  /-- R236. Removes the slot's watch on a word. -/
  | unwatch (a : Name)
  /-- R237. Loads 16 lanes from base plus per-lane offsets. -/
  | vGather (d : Name) (a : Name) (b : Name)
  /-- R237. Stores 16 lanes to base plus per-lane offsets in ascending lane order. -/
  | vScatter (d : Name) (a : Name) (b : Name)
  /-- R239. Atomically adds to a word and returns the old value. -/
  | amoAdd (d : Name) (a : Name) (b : Name)
  /-- R239. Atomically ANDs a word and returns the old value. -/
  | amoAnd (d : Name) (a : Name) (b : Name)
  /-- R239. Atomically ORs a word and returns the old value. -/
  | amoOr (d : Name) (a : Name) (b : Name)
  /-- R239. Atomically XORs a word and returns the old value. -/
  | amoXor (d : Name) (a : Name) (b : Name)
  /-- R239. Atomically takes the signed minimum and returns the old value. -/
  | amoMin (d : Name) (a : Name) (b : Name)
  /-- R239. Atomically takes the signed maximum and returns the old value. -/
  | amoMax (d : Name) (a : Name) (b : Name)
  /-- R239. Atomically exchanges a word and returns the old value. -/
  | amoXchg (d : Name) (a : Name) (b : Name)
  /-- R239. Atomically compares and swaps a word, returning the old value in d. -/
  | amoCas (d : Name) (a : Name) (b : Name)
  /-- R240. Issues an atomic add reduction that returns nothing. -/
  | redAdd (a : Name) (b : Name)
  /-- R240. Issues an atomic OR reduction that returns nothing. -/
  | redOr (a : Name) (b : Name)
  /-- R240. Issues an atomic signed-maximum reduction that returns nothing. -/
  | redMax (a : Name) (b : Name)
  /-- R240. Converts an FP32 value into an EW64 window at issue and adds it atomically. -/
  | redEw (d : Name) (a : Name) (b : Name)
  /-- R266. Waits for loads and stores, then acts as release and acquire fence of a scope. -/
  | fence (s : BitVec 3)
  /-- R266. Waits for loads, then acts as an acquire fence of a scope. -/
  | acq (s : BitVec 3)
  /-- R266. Waits for stores, then acts as a release fence of a scope. -/
  | rel (s : BitVec 3)
  /-- R268. Declares, flips or retires a shadow entry from a descriptor after a full wait. -/
  | publish (a : Name)
  /-- R270. Moves the thread, with its first n window cells, to the core owning an address. -/
  | mig (a : Name) (n : BitVec 8)
  /-- R272. Blocks until each outstanding-operation counter is at or below its limit. -/
  | wait (l : BitVec 4) (s : BitVec 4) (c : BitVec 4) (t : BitVec 4)
  /-- R273. Initialises a barrier object with scope, expected threads and bytes. -/
  | barInit (d : Name) (a : Name) (b : Name)
  /-- R273. Raises a barrier's expected count and records a membership. -/
  | barJoin (a : Name)
  /-- R273. Counts the slot into the barrier's current phase and returns a token. -/
  | barArrive (d : Name) (a : Name)
  /-- R273. Arrives and drops the slot from later phases, freeing its membership. -/
  | barDrop (d : Name) (a : Name)
  /-- R273. Adds a signed count to a barrier's expected bytes. -/
  | barExpect (a : Name) (b : Name)
  /-- R274. Blocks until the barrier's phase differs from the token's. -/
  | barWait (a : Name) (b : Name)
  /-- R274. Writes the barrier's report code for a token. -/
  | barTest (d : Name) (a : Name) (b : Name)
  /-- R274. Waits up to L cycles for a token's phase to pass, then writes the code. -/
  | barTwait (d : Name) (a : Name) (b : Name)
  /-- R273. Marks a barrier object invalid. -/
  | barInval (a : Name)
  /-- R275. Sends a 64-bit payload to a core slot, the host or the management endpoint. -/
  | smsg (a : Name) (b : Name)
  /-- R275. Takes the oldest message for the slot, or writes zeros. -/
  | rmsg (d : Name)
  /-- R275. Blocks until a message is held for the slot, then takes it. -/
  | wmsg (d : Name)
  /-- R275. Writes the slot's held message count, free entries and drop count. -/
  | mq (d : Name)
  /-- R277. Reads and checks a task record and adds the task to the local deque or starts a gang. -/
  | spawn (a : Name)
  /-- R277. Reads and checks a task record and sends the task toward its hinted core. -/
  | spawnh (a : Name)
  /-- R279. Sets a counter node's count and clears ERR. -/
  | cntInit (a : Name) (b : Name)
  /-- R279. Adds a signed count to a counter node. -/
  | cntAdd (a : Name) (b : Name)
  /-- R281. Reads a special register into a cell. -/
  | mfs (d : Name) (i : BitVec 12)
  /-- R281. Writes a cell to a special register that has no row of its own, with its value checks. -/
  | mts (a : Name) (i : BitVec 12)
  /-- R238. Reads the window cell at a computed index, trapping WBND out of range. -/
  | rdx (d : Name) (a : Name) (i : BitVec 12)
  /-- R238. Writes the window cell at a computed index, trapping WBND out of range. -/
  | wrx (i : BitVec 12) (a : Name) (b : Name)
  /-- R244. Adds two FP32 values with one rounding. -/
  | fAdd (d : Name) (a : Name) (b : Name)
  /-- R244. Subtracts two FP32 values with one rounding. -/
  | fSub (d : Name) (a : Name) (b : Name)
  /-- R244. Multiplies two FP32 values with one rounding. -/
  | fMul (d : Name) (a : Name) (b : Name)
  /-- R244. Divides two FP32 values with one rounding. -/
  | fDiv (d : Name) (a : Name) (b : Name)
  /-- R244. Takes the FP32 square root with one rounding. -/
  | fSqrt (d : Name) (a : Name)
  /-- R244. Writes the lesser of two FP32 values under the NaN and zero rules. -/
  | fMin (d : Name) (a : Name) (b : Name)
  /-- R244. Writes the greater of two FP32 values under the NaN and zero rules. -/
  | fMax (d : Name) (a : Name) (b : Name)
  /-- R244. Computes x·y plus the destination with one FP32 rounding. -/
  | fFma (d : Name) (a : Name) (b : Name)
  /-- R244. Clears the FP32 sign bit. -/
  | fAbs (d : Name) (a : Name)
  /-- R244. Complements the FP32 sign bit. -/
  | fNeg (d : Name) (a : Name)
  /-- R246. Converts an int64 to FP32. -/
  | fCvtFi (d : Name) (a : Name)
  /-- R246. Converts FP32 to int64 in the FCTL mode, saturating. -/
  | fCvtIf (d : Name) (a : Name)
  /-- R246. Converts FP32 to int64 toward zero, saturating. -/
  | fCvtIft (d : Name) (a : Name)
  /-- R246. Converts FP32 to BF16. -/
  | fCvtBf (d : Name) (a : Name)
  /-- R246. Converts BF16 to FP32 exactly. -/
  | fCvtFb (d : Name) (a : Name)
  /-- R246. Converts FP32 to F8 with saturation. -/
  | fCvt8f (d : Name) (a : Name)
  /-- R246. Converts F8 to FP32 exactly. -/
  | fCvtF8 (d : Name) (a : Name)
  /-- R247. Writes a one-hot mask of the FP32 value's class. -/
  | fClass (d : Name) (a : Name)
  /-- R250. Adds two VF values with one rounding to PREC.P bits. -/
  | vfAdd (d : Name) (a : Name) (b : Name)
  /-- R250. Subtracts two VF values with one rounding. -/
  | vfSub (d : Name) (a : Name) (b : Name)
  /-- R250. Multiplies two VF values with one rounding. -/
  | vfMul (d : Name) (a : Name) (b : Name)
  /-- R250. Divides two VF values with one rounding. -/
  | vfDiv (d : Name) (a : Name) (b : Name)
  /-- R250. Takes a VF square root with one rounding. -/
  | vfSqrt (d : Name) (a : Name)
  /-- R250. Computes X·Y + Z of VF values with one rounding. -/
  | vfFma (d : Name) (a : Name) (b : Name)
  /-- R250. Negates a VF value, rounded to the current precision. -/
  | vfNeg (d : Name) (a : Name)
  /-- R250. Takes the magnitude of a VF value, rounded to the current precision. -/
  | vfAbs (d : Name) (a : Name)
  /-- R250. Rounds a VF value to an integer of at most p bits in one step. -/
  | vfRnd (d : Name) (a : Name)
  /-- R250. Converts an FP32 cell to VF. -/
  | vfFromF (d : Name) (a : Name)
  /-- R250. Converts an int64 cell to VF. -/
  | vfFromI (d : Name) (a : Name)
  /-- R250. Converts a VF value to FP32 in the VCTL mode. -/
  | vfToF (d : Name) (a : Name)
  /-- R250. Converts a VF value to a saturated int64. -/
  | vfToI (d : Name) (a : Name)
  /-- R250. Copies a VF value rounded to the current precision. -/
  | vfMov (d : Name) (a : Name)
  /-- R254. Loads a VF memory image of any alignment into cells, rounded to p. -/
  | vfLd (d : Name) (a : Name) (i : BitVec 12)
  /-- R255. Rounds a VF value to p and stores its memory image. -/
  | vfSt (i : BitVec 12) (a : Name) (b : Name)
  /-- R259. Adds i32 lanes modulo 2^32. -/
  | vAddI32 (d : Name) (a : Name) (b : Name)
  /-- R259. Subtracts i32 lanes modulo 2^32. -/
  | vSubI32 (d : Name) (a : Name) (b : Name)
  /-- R259. Multiplies i32 lanes, keeping the low 32 bits. -/
  | vMulI32 (d : Name) (a : Name) (b : Name)
  /-- R259. Takes the signed minimum of i32 lanes. -/
  | vMinI32 (d : Name) (a : Name) (b : Name)
  /-- R259. Takes the signed maximum of i32 lanes. -/
  | vMaxI32 (d : Name) (a : Name) (b : Name)
  /-- R259. ANDs lanes. -/
  | vAnd (d : Name) (a : Name) (b : Name)
  /-- R259. ORs lanes. -/
  | vOr (d : Name) (a : Name) (b : Name)
  /-- R259. XORs lanes. -/
  | vXor (d : Name) (a : Name) (b : Name)
  /-- R259. Shifts lanes left by per-lane counts. -/
  | vShl (d : Name) (a : Name) (b : Name)
  /-- R259. Shifts lanes right logically. -/
  | vShr (d : Name) (a : Name) (b : Name)
  /-- R259. Shifts lanes right arithmetically. -/
  | vSra (d : Name) (a : Name) (b : Name)
  /-- R260. Writes per-lane exact dot products of four signed byte pairs. -/
  | vDot8 (d : Name) (a : Name) (b : Name)
  /-- R260. Sums 16 i32 lanes by the fixed tree into one cell. -/
  | vSumI32 (d : Name) (a : Name)
  /-- R259. Copies the low 32 bits of a cell into every lane. -/
  | vBcast (d : Name) (a : Name)
  /-- R259. Permutes lanes by per-lane indices. -/
  | vPerm (d : Name) (a : Name) (b : Name)
  /-- R259. Selects lanes of a into d where the mask lane is nonzero. -/
  | vSel (d : Name) (a : Name) (b : Name)
  /-- R259. Writes all-ones mask lanes where i32 lanes are equal. -/
  | vCmpeqI32 (d : Name) (a : Name) (b : Name)
  /-- R259. Writes all-ones mask lanes where a is signed-less than b. -/
  | vCmpltI32 (d : Name) (a : Name) (b : Name)
  /-- R260. Extracts one lane into a cell, zero-extended. -/
  | vExt (d : Name) (a : Name) (b : Name)
  /-- R260. Inserts the low 32 bits of a cell into one lane. -/
  | vIns (d : Name) (a : Name) (b : Name)
  /-- R261. Adds FP32 lanes, trapping FPX over all lanes. -/
  | vAddF32 (d : Name) (a : Name) (b : Name)
  /-- R261. Subtracts FP32 lanes. -/
  | vSubF32 (d : Name) (a : Name) (b : Name)
  /-- R261. Multiplies FP32 lanes. -/
  | vMulF32 (d : Name) (a : Name) (b : Name)
  /-- R261. Computes A·B + D per FP32 lane with one rounding. -/
  | vFmaF32 (d : Name) (a : Name) (b : Name)
  /-- R261. Takes the lesser FP32 lane as f.min. -/
  | vMinF32 (d : Name) (a : Name) (b : Name)
  /-- R261. Takes the greater FP32 lane as f.max. -/
  | vMaxF32 (d : Name) (a : Name) (b : Name)
  /-- R261. Sums 16 FP32 lanes by the fixed tree of R96 into one cell. -/
  | vSumF32 (d : Name) (a : Name)
  /-- R261. Writes the rounded reciprocal of each FP32 lane. -/
  | vRcpF32 (d : Name) (a : Name)
  /-- R261. Converts signed 32-bit lanes to FP32. -/
  | vCvtFi (d : Name) (a : Name)
  /-- R261. Converts FP32 lanes to saturated int32. -/
  | vCvtIf (d : Name) (a : Name)
  /-- R261. Converts FP32 lanes to BF16. -/
  | vCvtBf (d : Name) (a : Name)
  /-- R261. Converts BF16 lanes to FP32. -/
  | vCvtFb (d : Name) (a : Name)
  /-- R261. Writes all-ones mask lanes where A < B as FP32, signalling. -/
  | vCmpltF32 (d : Name) (a : Name) (b : Name)
  /-- R261. Writes each FP32 lane if positive, else +0, with NaN canonicalised. -/
  | vMax0 (d : Name) (a : Name)
  /-- R258. Writes a sign-extended 19-bit immediate into every lane and clears tags. -/
  | vLi (d : Name) (i : BitVec 19)
  /-- R290. Checks and hands an I8 panel multiply into the accumulator store to the matrix engine. -/
  | mmaI8 (t : Name) (a : Name) (b : Name) (m : BitVec 2) (c : BitVec 1) (x : BitVec 1)
  /-- R290. Checks and hands an F8 panel multiply to the matrix engine. -/
  | mmaF8 (t : Name) (a : Name) (b : Name) (m : BitVec 2) (c : BitVec 1) (x : BitVec 1)
  /-- R290. Checks and hands a B16 panel multiply to the matrix engine. -/
  | mmaB16 (t : Name) (a : Name) (b : Name) (m : BitVec 2) (c : BitVec 1) (x : BitVec 1)
  /-- R290. Checks and hands a Q4 panel multiply, B transposed, to the matrix engine. -/
  | mmaQ4 (t : Name) (a : Name) (b : Name) (m : BitVec 2) (c : BitVec 1) (x : BitVec 1)
  /-- R294. Queues the clearing of an accumulator rectangle. -/
  | accClr (d : Name)
  /-- R294. Queues a scaled read of an accumulator rectangle into FP32 or int32 memory. -/
  | accRd (d : Name) (a : Name) (b : Name)
  /-- R294. Queues a write of an accumulator rectangle from memory. -/
  | accWr (d : Name) (a : Name)
  /-- R296. Queues programming of one row group of a tile's inactive bank. -/
  | xprg (d : Name) (a : Name)
  /-- R296. Queues a swap making a calibrated inactive bank active. -/
  | xswp (d : Name)
  /-- R297. Queues an analogue matrix-vector product on a tile's active bank. -/
  | xmv (d : Name) (a : Name) (b : Name)
  /-- R297. Queues a transposed analogue product on a tile's active bank. -/
  | xmvt (d : Name) (a : Name) (b : Name)
  /-- R296. Queues calibration of a named bank with column scales and swt. -/
  | xcal (d : Name) (a : Name) (b : Name)
  /-- R298. Copies a value with its bound tag cleared and sets the partition's approximate-accepted status. -/
  | xacc (d : Name) (a : Name)
  /-- R298. Writes the bank states and activity of all four tiles. -/
  | xstat (d : Name)
  /-- R301. Queues a relational lookup writing one message table entry. -/
  | jlk (d : Name) (a : Name) (b : Name)
  /-- R305. Queues grouping of tuple gradients into exact-window rows, or the finishing conversion. -/
  | jgs (d : Name) (a : Name) (b : Name)
  /-- R302. Queues forming of an up table or shard elements in one of three modes. -/
  | jmul (d : Name) (a : Name) (b : Name)
  /-- R303. Queues a down table, contexts or gradients by mode. -/
  | jexp (d : Name) (a : Name)
  /-- R304. Queues enumeration of join tuples into a tuple tile. -/
  | jenum (d : Name) (a : Name)
  /-- R306. Queues application of a delta table up the path to the root. -/
  | jdelta (d : Name) (a : Name) (b : Name)
  /-- R307. Queues division of a node's key groups into shards. -/
  | cleave (d : Name) (a : Name) (b : Name)
  /-- R308. Queues a multiway intersection of key lists or bitmaps. -/
  | isect (d : Name) (a : Name)
  /-- R309. Queues a read-and-clear of the slot's relational status bits. -/
  | jstat (d : Name)
  /-- R311. Posts a 16-value gradient contribution to a parameter record. -/
  | pct (d : Name) (a : Name) (b : Name)
  /-- R312. Requests 16 weights of a named generation and a status code from a record. -/
  | prd (d : Name) (a : Name) (b : Name)
  /-- R313. Reads and checks a descriptor and sends a record initialisation to its mason unit. -/
  | parm (a : Name)
  /-- R314. Reads and checks a descriptor and loads a rule slot of the local mason unit. -/
  | povl (a : Name)
  /-- R315. Requests the status, flags, arrived count and generation of a record. -/
  | pstat (d : Name) (a : Name)
  /-- R317. Writes whether a transfer id is in flight for this or another slot. -/
  | cpQ (d : Name) (a : Name)
  /-- R318. Stops the slot's named copy at its first unwritten element, recording the residue. -/
  | cpKill (a : Name)
  /-- R282. Raises TRAPI with the code, returning after the instruction. -/
  | trap (c : BitVec 14)
  /-- R282. Raises BRK with the code, returning to the instruction itself. -/
  | brk (c : BitVec 14)
  /-- R284. Waits for stores and invalidates all or matching translation buffer entries of the core. -/
  | tlbinv (a : Name)
  /-- R287. Stops a named slot of the core, abandoning its blocked instruction. -/
  | pstop (a : Name)
  /-- R175. Clears the slot's ready bit, blocking until it is set. -/
  | waita
  /-- R267. Waits for stores and discards the core's instruction cache. -/
  | ifence
  /-- R269. Makes the slot ineligible until other eligible slots have had a turn or 64 cycles pass. -/
  | yield
  /-- R173. Blocks a gang member until every member has issued as many syncs or exited. -/
  | sync
  /-- R278. Waits, drops memberships, decrements the task's counter node and vacates the slot. -/
  | exit
  /-- R283. Returns from the trap handler to TEPC at the saved level. -/
  | eret
  /-- R285. Freezes the core, drains its engines and writes the save area. -/
  | csave
  /-- R286. Checks the save area and restores the core from it, ending the freeze. -/
  | crest
  /-- R288. Waits and stops the issuing slot, or ends a mason overlay. -/
  | halt
  /-- R136. A read of CGO checks the copy controls and launches the copy, returning its transfer id. -/
  | cgoLaunch
  /-- R149. A read of XBND returns the peak reference deviation and clears it. -/
  | xbndRead
  /-- R342. Writing SMPL.DUMP = 1 starts a dump of the observation counters. -/
  | dumpStart
  /-- R341. A dump finishes writing the observation area and DUMP reads 0. -/
  | dumpComplete
  /-- R343. The sample counter reaches PERIOD: a sample is recorded in SPC and trace and issue freezes one cycle. -/
  | sample
  /-- R39. The dispatcher binds the newest task of a deque level to the lowest vacant slot with a window. -/
  | taskBind
  /-- R277. A spawned task is placed at the newest end of its deque level once R265 allows. -/
  | spawnEnqueue
  /-- R41. A core with a vacant slot and empty deque asks the next victim for a task. -/
  | stealRequest
  /-- R42. A victim hands over its oldest fitting task or refuses a steal request. -/
  | stealServe
  /-- R41. The thief receives a hand-over and binds the task, or a refusal and moves on. -/
  | stealReply
  /-- R41. 256 cycles after the last refusal the thief begins a new sweep. -/
  | stealRetryTimeout
  /-- R43. A hinted task reaches a core on its route and binds there, passes on, or joins the target's deque. -/
  | hintedTaskHop
  /-- R46. A gang request reaches the partition's pkg barrier node and is admitted in arrival order. -/
  | gangAdmit
  /-- R46. A gang with no overlapping earlier reserving gang becomes reserving and picks slot s. -/
  | gangReserve
  /-- R46. A member core reserves slot s and a window once both are free. -/
  | gangCoreReserve
  /-- R46. When every member core holds its reservation, all members bind in slot s. -/
  | gangBind
  /-- R173. The gang node releases members once every member has issued as many syncs or exited. -/
  | gangSyncRelease
  /-- R51. A migrating thread binds at the target core once a slot and window are free. -/
  | migArrival
  /-- R279. The serving unit applies an exit decrement, cnt.init or cnt.add to a counter node. -/
  | counterNodeOperation
  /-- R48. A held continuation is placed in the deque when its level has room, then the parent is decremented. -/
  | continuationPlace
  /-- R168. A barrier unit checks and applies an operation or byte post to an object. -/
  | barrierOperationApply
  /-- R419. A unit's answer reaches the issuing core, releasing the slot with token, code or BAR trap. -/
  | barrierAnswer
  /-- R274. A phase completion notice reaches a waiting slot and releases bar.wait or bar.twait. -/
  | barrierRelease
  /-- R274. A bar.twait's limit runs out and it writes code 3. -/
  | barTwaitTimeout
  /-- R174. A full/empty operation reaches the owning word and is applied or queued, and queued heads apply. -/
  | fullEmptyApply
  /-- R231. A load's value arrives and is written to its destination, lowering the loads counter. -/
  | loadComplete
  /-- R232. Memory applies a store's enabled nibbles and the stores counter falls. -/
  | storeApply
  /-- R239. The owning unit applies an atomic to its word as one event and returns the old value. -/
  | atomicApply
  /-- R240. The owning unit applies a reduction to its word and the stores counter falls. -/
  | reductionApply
  /-- R71. A queued translation walk runs and returns a translation or an XLT or PERM fault. -/
  | pageWalk
  /-- R177. A message reaches a mailbox and takes an entry, waits in the mesh, or is discarded. -/
  | mailboxArrival
  /-- R334. A message to the host endpoint writes its HMSG entry and raises its vector. -/
  | hostMessageDeliver
  /-- R179. A port word reaches the neighbour slot's queue or is discarded. -/
  | portWordArrival
  /-- R139. A copy writes its last element, then its flag word and byte post, and frees its id. -/
  | copyComplete
  /-- R141. A copy stops at a failing element, records its residue and frees its id. -/
  | copyFault
  /-- R144. The matrix engine finishes or faults an mma and the tiles counter falls. -/
  | mmaComplete
  /-- R294. The matrix engine zeroes an accumulator rectangle. -/
  | accClrComplete
  /-- R294. The matrix engine writes a scaled accumulator rectangle to scratch. -/
  | accRdComplete
  /-- R294. The matrix engine loads an accumulator rectangle from scratch, or faults. -/
  | accWrComplete
  /-- R296. A tile writes a row group of its inactive bank or faults. -/
  | xprgComplete
  /-- R296. A tile makes its calibrated inactive bank active or faults XBANK. -/
  | xswpApply
  /-- R296. A tile sets a bank's scales and checks its references, moving it to CAL or DRIFT. -/
  | xcalComplete
  /-- R297. A tile finishes an xmv or xmvt product, writing all tagged outputs or faulting. -/
  | xmvProductComplete
  /-- R301. The relational unit writes a lookup entry or faults. -/
  | jlkComplete
  /-- R305. The relational unit finishes grouping or the finishing conversion, or faults. -/
  | jgsComplete
  /-- R302. The relational unit finishes an up table or shard operation, or faults. -/
  | jmulComplete
  /-- R303. The relational unit finishes a down table, contexts or gradients, or faults. -/
  | jexpComplete
  /-- R304. The relational unit writes tuples, TUPLES and NEXT, or faults. -/
  | jenumComplete
  /-- R306. The relational unit finishes applying a delta up the path, or faults with a level residue. -/
  | jdeltaComplete
  /-- R307. The relational unit writes the shard list, SHARDS and CLEAVED, or faults. -/
  | cleaveComplete
  /-- R308. The relational unit writes intersection records, or faults. -/
  | isectComplete
  /-- R309. The relational unit writes and clears the slot's status bits. -/
  | jstatComplete
  /-- R154. A contribution reaches its record's channel and is applied, held or refused. -/
  | contributionArrival
  /-- R312. A prd reads weights and status indivisibly at the record and writes its group, or faults. -/
  | prdComplete
  /-- R315. A pstat reads the record's first 64 bytes and writes its status cell, or faults. -/
  | pstatComplete
  /-- R153. The mason unit initialises a record from the carried weights, after any running update. -/
  | parmApply
  /-- R162. The mason unit loads a rule slot between updates, or the operation faults. -/
  | povlApply
  /-- R156. The mason unit takes the oldest QUEUED record, converts its accumulator and starts the overlay. -/
  | masonUpdateStart
  /-- R158. An overlay runs 2^24 mason cycles without halt and the record becomes FAULTED. -/
  | masonCycleLimit
  /-- R329. A host write through the partition's HDM range reaches scratch or channel memory. -/
  | hostMemoryWrite
  /-- R329. A host read through the HDM range returns data or poison. -/
  | hostMemoryRead
  /-- R395. A host write of PARTCTL.RESET halts if needed, clears partition state and restarts it. -/
  | partitionReset
  /-- R328. A host write of 1 to PARTSTAT.APPROX clears the approximate-accepted status. -/
  | approxClear
  /-- R328. A host write selects the virtual function that receives the partition's vectors. -/
  | partctlNvfWrite
  /-- R352. The key store creates a tenant key for a partition leaving reset, or refuses while debug is open. -/
  | tenantKeyCreate
  /-- R354. Package reset zeroes measurements, the boot ROM measures firmware and fuses, and the nonce is renewed. -/
  | packageReset
  /-- R392. An uncorrectable error in core state halts the partition with CAUSE 2. -/
  | unrecoverableError
  /-- R394. A die's progress monitor reaches 2^36 cycles and the partition halts with CAUSE 3. -/
  | hangTimeout
  /-- R337. A fabric link fails and its in-flight accesses become SOFT faults. -/
  | fabricLinkFailure
  /-- R350. A write of LCS advances the lifecycle state by one by blowing a fuse. -/
  | lifecycleAdvance
  /-- R351. A write of FUSED in RAW or MANUF ORs bits into the selected fuse word. -/
  | fuseProgram
  /-- R351. A fuse finishes programming and the blocked Vrelell slot is released. -/
  | fuseProgramDone
  /-- R353. A KWIPE with OP 0 resets, erases keys of and optionally scrubs the named partitions. -/
  | keyWipe
  /-- R352. A wipe finishes, BUSY falls and SWEPT is set for a full scrubbed wipe. -/
  | keyWipeDone
  /-- R360. A KWIPE with OP 1 checks a seal descriptor, hashes its table, locks it and extends MEAS3. -/
  | sealInstall
  /-- R360. A KWIPE with OP 2 removes a seal and unlocks its table. -/
  | sealRemove
  /-- R354. A MEXT write with OP 0 extends a measurement with a 64-byte event. -/
  | measurementExtend
  /-- R354. A MEXT write with OP 1 copies all eight measurements to scratch. -/
  | measurementCopy
  /-- R358. The measurement unit finishes an operation, setting EXTD if SWEPT, and BUSY falls. -/
  | measurementDone
  /-- R357. A SIGGO write with OP 0 starts an Ed448 verify with optional binding check. -/
  | signatureVerify
  /-- R357. A SIGGO write with OP 1 starts an Ed448 sign of an attestation report. -/
  | signatureSign
  /-- R357. The signature engine ends, setting VALID, BOUND, UNLOCK or ERR, renewing the nonce on a failed bind. -/
  | signatureDone
  /-- R357. A SHKGO write of 1 starts SHAKE256 of the input into the output. -/
  | shakeHash
  /-- R358. The hash engine finishes writing its output and BUSY falls. -/
  | shakeDone
  /-- R364. A DBGP write of OPEN = 1 is checked at the key store and opens the port or raises PERM. -/
  | debugPortOpen
  /-- R364. A DBGP write of OPEN = 0 closes the debug port. -/
  | debugPortClose
  /-- R364. A test access port probe issues a management-level access or pstop through the Vrelell core. -/
  | debugProbeAccess
  /-- R288. The management firmware binds a vacant Vrelell slot again after it halted. -/
  | vrelellSlotBind
  /-- R327. The management firmware assigns dies to a partition while the partitions concerned are held in reset. -/
  | partitionDieAssignment
  /-- R327. A virtual function is bound to or unbound from a partition, making NVF read 0 when its function is unbound. -/
  | virtualFunctionBinding
  /-- R336. The management firmware assigns package ids and joins partitions of different packages into join groups. -/
  | fabricJoinConfiguration
  /-- R353. IDE_KM over SPDM, answered by the Vrelell core, sets new stream keys for a partition after a wipe tore its streams down. -/
  | ideKmKeySetting
deriving DecidableEq, Repr

/-- Whether an instruction is a word of R208 (the other constructors are events and have no encoding). -/
def Instr.isWord : Instr → Bool
  | .cgoLaunch | .xbndRead | .dumpStart | .dumpComplete | .sample | .taskBind | .spawnEnqueue | .stealRequest | .stealServe | .stealReply | .stealRetryTimeout | .hintedTaskHop | .gangAdmit | .gangReserve | .gangCoreReserve | .gangBind | .gangSyncRelease | .migArrival | .counterNodeOperation | .continuationPlace | .barrierOperationApply | .barrierAnswer | .barrierRelease | .barTwaitTimeout | .fullEmptyApply | .loadComplete | .storeApply | .atomicApply | .reductionApply | .pageWalk | .mailboxArrival | .hostMessageDeliver | .portWordArrival | .copyComplete | .copyFault | .mmaComplete | .accClrComplete | .accRdComplete | .accWrComplete | .xprgComplete => false
  | .xswpApply | .xcalComplete | .xmvProductComplete | .jlkComplete | .jgsComplete | .jmulComplete | .jexpComplete | .jenumComplete | .jdeltaComplete | .cleaveComplete | .isectComplete | .jstatComplete | .contributionArrival | .prdComplete | .pstatComplete | .parmApply | .povlApply | .masonUpdateStart | .masonCycleLimit | .hostMemoryWrite | .hostMemoryRead | .partitionReset | .approxClear | .partctlNvfWrite | .tenantKeyCreate | .packageReset | .unrecoverableError | .hangTimeout | .fabricLinkFailure | .lifecycleAdvance | .fuseProgram | .fuseProgramDone | .keyWipe | .keyWipeDone | .sealInstall | .sealRemove | .measurementExtend | .measurementCopy | .measurementDone | .signatureVerify | .signatureSign | .signatureDone | .shakeHash | .shakeDone | .debugPortOpen | .debugPortClose | .debugProbeAccess | .vrelellSlotBind | .partitionDieAssignment | .virtualFunctionBinding | .fabricJoinConfiguration | .ideKmKeySetting => false
  | _ => true

end Sys2Proof
end

