-- ==== Sys2Proof/WellFormed.lean ====
section
/-! DEFINITION. Sys2Proof/WellFormed.lean: how each instruction uses its cell fields (R205, R206, R209), and which words
are instructions at all as far as step 3 of R207 goes: every name obeys its rule, msel is not 3, a scope code is below
5, pskip skips at least one word, mig carries at most 128 cells. That unused and reserved fields are 0 is a matter of
the word, and Decode.lean checks it. -/

namespace Sys2Proof

/-- How an instruction uses one cell field (R205, R206, R209). -/
inductive Role where
  /-- The field is not used, or is not a name. -/
  | none
  /-- One cell, read; a port name reads the port. -/
  | src
  /-- One cell, written at issue; a port name sends the word. -/
  | dst
  /-- One cell, written later than issue: a port name raises ILL (R219, R264, R289). -/
  | late
  /-- One cell, read and written: no port name (R205). -/
  | inOut
  /-- One cell, read at issue and written later (amo.cas). -/
  | lateInOut
  /-- A tile coordinate or a control cell of an engine instruction: no port name (R205). -/
  | ctl
  /-- A vector group of 8 cells, read. -/
  | vecSrc
  /-- A vector group of 8 cells, written. -/
  | vecDst
  /-- The nine cells of prd, written later than issue (R312). -/
  | nineDst
  /-- A vector group of 8 cells, read and written. -/
  | vecInOut
  /-- A VF group, read at its own length (R90). -/
  | vfSrc
  /-- A VF group of k(PREC.P) cells, written (R91). -/
  | vfDst
  /-- A VF group, read at its own length and written at k(PREC.P) cells. -/
  | vfInOut
  /-- A pair of cells, written (rmsg, wmsg). -/
  | pairDst
deriving DecidableEq, Repr

/-- The cell fields of an instruction with their roles, in the order in which the fields are read: a, then b, then d
(R205; d stands for t in format M). -/
structure Roles where
  a : Name := 0
  ra : Role := .none
  b : Name := 0
  rb : Role := .none
  d : Name := 0
  rd : Role := .none
deriving DecidableEq, Repr

/-- R209: the cell fields of every instruction. -/
def Instr.roles : Instr → Roles
  | .add d a b => { a := a, ra := .src, b := b, rb := .src, d := d, rd := .dst }
  | .sub d a b => { a := a, ra := .src, b := b, rb := .src, d := d, rd := .dst }
  | .and d a b => { a := a, ra := .src, b := b, rb := .src, d := d, rd := .dst }
  | .or d a b => { a := a, ra := .src, b := b, rb := .src, d := d, rd := .dst }
  | .xor d a b => { a := a, ra := .src, b := b, rb := .src, d := d, rd := .dst }
  | .sll d a b => { a := a, ra := .src, b := b, rb := .src, d := d, rd := .dst }
  | .srl d a b => { a := a, ra := .src, b := b, rb := .src, d := d, rd := .dst }
  | .sra d a b => { a := a, ra := .src, b := b, rb := .src, d := d, rd := .dst }
  | .slt d a b => { a := a, ra := .src, b := b, rb := .src, d := d, rd := .dst }
  | .sltu d a b => { a := a, ra := .src, b := b, rb := .src, d := d, rd := .dst }
  | .min d a b => { a := a, ra := .src, b := b, rb := .src, d := d, rd := .dst }
  | .max d a b => { a := a, ra := .src, b := b, rb := .src, d := d, rd := .dst }
  | .minu d a b => { a := a, ra := .src, b := b, rb := .src, d := d, rd := .dst }
  | .maxu d a b => { a := a, ra := .src, b := b, rb := .src, d := d, rd := .dst }
  | .mul d a b => { a := a, ra := .src, b := b, rb := .src, d := d, rd := .dst }
  | .mulh d a b => { a := a, ra := .src, b := b, rb := .src, d := d, rd := .dst }
  | .mulhu d a b => { a := a, ra := .src, b := b, rb := .src, d := d, rd := .dst }
  | .div d a b => { a := a, ra := .src, b := b, rb := .src, d := d, rd := .dst }
  | .divu d a b => { a := a, ra := .src, b := b, rb := .src, d := d, rd := .dst }
  | .rem d a b => { a := a, ra := .src, b := b, rb := .src, d := d, rd := .dst }
  | .remu d a b => { a := a, ra := .src, b := b, rb := .src, d := d, rd := .dst }
  | .clz d a => { a := a, ra := .src, d := d, rd := .dst }
  | .ctz d a => { a := a, ra := .src, d := d, rd := .dst }
  | .popc d a => { a := a, ra := .src, d := d, rd := .dst }
  | .rank d a b => { a := a, ra := .src, b := b, rb := .src, d := d, rd := .dst }
  | .nth d a b => { a := a, ra := .src, b := b, rb := .src, d := d, rd := .dst }
  | .bext d a b => { a := a, ra := .src, b := b, rb := .src, d := d, rd := .dst }
  | .bdep d a b => { a := a, ra := .src, b := b, rb := .src, d := d, rd := .dst }
  | .rev8 d a => { a := a, ra := .src, d := d, rd := .dst }
  | .sext8 d a => { a := a, ra := .src, d := d, rd := .dst }
  | .sext16 d a => { a := a, ra := .src, d := d, rd := .dst }
  | .sext32 d a => { a := a, ra := .src, d := d, rd := .dst }
  | .zext8 d a => { a := a, ra := .src, d := d, rd := .dst }
  | .zext16 d a => { a := a, ra := .src, d := d, rd := .dst }
  | .zext32 d a => { a := a, ra := .src, d := d, rd := .dst }
  | .addi d a _ => { a := a, ra := .src, d := d, rd := .dst }
  | .andi d a _ => { a := a, ra := .src, d := d, rd := .dst }
  | .ori d a _ => { a := a, ra := .src, d := d, rd := .dst }
  | .xori d a _ => { a := a, ra := .src, d := d, rd := .dst }
  | .slti d a _ => { a := a, ra := .src, d := d, rd := .dst }
  | .sltiu d a _ => { a := a, ra := .src, d := d, rd := .dst }
  | .slli d a _ => { a := a, ra := .src, d := d, rd := .dst }
  | .srli d a _ => { a := a, ra := .src, d := d, rd := .dst }
  | .srai d a _ => { a := a, ra := .src, d := d, rd := .dst }
  | .lui d _ => { d := d, rd := .dst }
  | .adpc d _ => { d := d, rd := .dst }
  | .pcmpEq _ _ _ a b => { a := a, ra := .src, b := b, rb := .src }
  | .pcmpNe _ _ _ a b => { a := a, ra := .src, b := b, rb := .src }
  | .pcmpLt _ _ _ a b => { a := a, ra := .src, b := b, rb := .src }
  | .pcmpGe _ _ _ a b => { a := a, ra := .src, b := b, rb := .src }
  | .pcmpLtu _ _ _ a b => { a := a, ra := .src, b := b, rb := .src }
  | .pcmpGeu _ _ _ a b => { a := a, ra := .src, b := b, rb := .src }
  | .pcmpFEq _ _ _ a b => { a := a, ra := .src, b := b, rb := .src }
  | .pcmpFLt _ _ _ a b => { a := a, ra := .src, b := b, rb := .src }
  | .pcmpFLe _ _ _ a b => { a := a, ra := .src, b := b, rb := .src }
  | .pcmpFUn _ _ _ a b => { a := a, ra := .src, b := b, rb := .src }
  | .pcmpVfEq _ _ _ a b => { a := a, ra := .vfSrc, b := b, rb := .vfSrc }
  | .pcmpVfLt _ _ _ a b => { a := a, ra := .vfSrc, b := b, rb := .vfSrc }
  | .pcmpVfLe _ _ _ a b => { a := a, ra := .vfSrc, b := b, rb := .vfSrc }
  | .pcmpBit _ _ _ a b => { a := a, ra := .src, b := b, rb := .src }
  | .pand _ _ _ _ _ => {}
  | .por _ _ _ _ _ => {}
  | .pxor _ _ _ _ _ => {}
  | .pandn _ _ _ _ _ => {}
  | .pmov _ _ _ _ => {}
  | .pnot _ _ _ _ => {}
  | .pset _ _ _ _ => {}
  | .bp _ _ _ => {}
  | .br _ => {}
  | .bl _ => { d := 8, rd := .dst }
  | .jr a => { a := a, ra := .src }
  | .jlr d a => { a := a, ra := .src, d := d, rd := .dst }
  | .pskip _ _ _ => {}
  | .ldB d a _ => { a := a, ra := .src, d := d, rd := .late }
  | .ldBu d a _ => { a := a, ra := .src, d := d, rd := .late }
  | .ldH d a _ => { a := a, ra := .src, d := d, rd := .late }
  | .ldHu d a _ => { a := a, ra := .src, d := d, rd := .late }
  | .ldW d a _ => { a := a, ra := .src, d := d, rd := .late }
  | .ldWu d a _ => { a := a, ra := .src, d := d, rd := .late }
  | .ldD d a _ => { a := a, ra := .src, d := d, rd := .late }
  | .stB _ a b => { a := a, ra := .src, b := b, rb := .src }
  | .stH _ a b => { a := a, ra := .src, b := b, rb := .src }
  | .stW _ a b => { a := a, ra := .src, b := b, rb := .src }
  | .stD _ a b => { a := a, ra := .src, b := b, rb := .src }
  | .ldV d a => { a := a, ra := .src, d := d, rd := .vecDst }
  | .stV a b => { a := a, ra := .src, b := b, rb := .vecSrc }
  | .ldFe d a => { a := a, ra := .src, d := d, rd := .late }
  | .ldFx d a => { a := a, ra := .src, d := d, rd := .late }
  | .stEf a b => { a := a, ra := .src, b := b, rb := .src }
  | .stFs a b => { a := a, ra := .src, b := b, rb := .src }
  | .stFc a b => { a := a, ra := .src, b := b, rb := .src }
  | .stN _ a b => { a := a, ra := .src, b := b, rb := .src }
  | .ldN d a _ => { a := a, ra := .src, d := d, rd := .late }
  | .watch a => { a := a, ra := .src }
  | .unwatch a => { a := a, ra := .src }
  | .vGather d a b => { a := a, ra := .src, b := b, rb := .vecSrc, d := d, rd := .vecDst }
  | .vScatter d a b => { a := a, ra := .src, b := b, rb := .vecSrc, d := d, rd := .vecInOut }
  | .amoAdd d a b => { a := a, ra := .src, b := b, rb := .src, d := d, rd := .late }
  | .amoAnd d a b => { a := a, ra := .src, b := b, rb := .src, d := d, rd := .late }
  | .amoOr d a b => { a := a, ra := .src, b := b, rb := .src, d := d, rd := .late }
  | .amoXor d a b => { a := a, ra := .src, b := b, rb := .src, d := d, rd := .late }
  | .amoMin d a b => { a := a, ra := .src, b := b, rb := .src, d := d, rd := .late }
  | .amoMax d a b => { a := a, ra := .src, b := b, rb := .src, d := d, rd := .late }
  | .amoXchg d a b => { a := a, ra := .src, b := b, rb := .src, d := d, rd := .late }
  | .amoCas d a b => { a := a, ra := .src, b := b, rb := .src, d := d, rd := .lateInOut }
  | .redAdd a b => { a := a, ra := .src, b := b, rb := .src }
  | .redOr a b => { a := a, ra := .src, b := b, rb := .src }
  | .redMax a b => { a := a, ra := .src, b := b, rb := .src }
  | .redEw d a b => { a := a, ra := .src, b := b, rb := .src, d := d, rd := .src }
  | .fence _ => {}
  | .acq _ => {}
  | .rel _ => {}
  | .publish a => { a := a, ra := .src }
  | .mig a _ => { a := a, ra := .src }
  | .wait _ _ _ _ => {}
  | .barInit d a b => { a := a, ra := .src, b := b, rb := .src, d := d, rd := .src }
  | .barJoin a => { a := a, ra := .src }
  | .barArrive d a => { a := a, ra := .src, d := d, rd := .late }
  | .barDrop d a => { a := a, ra := .src, d := d, rd := .late }
  | .barExpect a b => { a := a, ra := .src, b := b, rb := .src }
  | .barWait a b => { a := a, ra := .src, b := b, rb := .src }
  | .barTest d a b => { a := a, ra := .src, b := b, rb := .src, d := d, rd := .late }
  | .barTwait d a b => { a := a, ra := .src, b := b, rb := .src, d := d, rd := .late }
  | .barInval a => { a := a, ra := .src }
  | .smsg a b => { a := a, ra := .src, b := b, rb := .src }
  | .rmsg d => { d := d, rd := .pairDst }
  | .wmsg d => { d := d, rd := .pairDst }
  | .mq d => { d := d, rd := .late }
  | .spawn a => { a := a, ra := .src }
  | .spawnh a => { a := a, ra := .src }
  | .cntInit a b => { a := a, ra := .src, b := b, rb := .src }
  | .cntAdd a b => { a := a, ra := .src, b := b, rb := .src }
  | .mfs d _ => { d := d, rd := .dst }
  | .mts a _ => { a := a, ra := .src }
  | .rdx d a _ => { a := a, ra := .src, d := d, rd := .dst }
  | .wrx _ a b => { a := a, ra := .src, b := b, rb := .src }
  | .fAdd d a b => { a := a, ra := .src, b := b, rb := .src, d := d, rd := .dst }
  | .fSub d a b => { a := a, ra := .src, b := b, rb := .src, d := d, rd := .dst }
  | .fMul d a b => { a := a, ra := .src, b := b, rb := .src, d := d, rd := .dst }
  | .fDiv d a b => { a := a, ra := .src, b := b, rb := .src, d := d, rd := .dst }
  | .fSqrt d a => { a := a, ra := .src, d := d, rd := .dst }
  | .fMin d a b => { a := a, ra := .src, b := b, rb := .src, d := d, rd := .dst }
  | .fMax d a b => { a := a, ra := .src, b := b, rb := .src, d := d, rd := .dst }
  | .fFma d a b => { a := a, ra := .src, b := b, rb := .src, d := d, rd := .inOut }
  | .fAbs d a => { a := a, ra := .src, d := d, rd := .dst }
  | .fNeg d a => { a := a, ra := .src, d := d, rd := .dst }
  | .fCvtFi d a => { a := a, ra := .src, d := d, rd := .dst }
  | .fCvtIf d a => { a := a, ra := .src, d := d, rd := .dst }
  | .fCvtIft d a => { a := a, ra := .src, d := d, rd := .dst }
  | .fCvtBf d a => { a := a, ra := .src, d := d, rd := .dst }
  | .fCvtFb d a => { a := a, ra := .src, d := d, rd := .dst }
  | .fCvt8f d a => { a := a, ra := .src, d := d, rd := .dst }
  | .fCvtF8 d a => { a := a, ra := .src, d := d, rd := .dst }
  | .fClass d a => { a := a, ra := .src, d := d, rd := .dst }
  | .vfAdd d a b => { a := a, ra := .vfSrc, b := b, rb := .vfSrc, d := d, rd := .vfDst }
  | .vfSub d a b => { a := a, ra := .vfSrc, b := b, rb := .vfSrc, d := d, rd := .vfDst }
  | .vfMul d a b => { a := a, ra := .vfSrc, b := b, rb := .vfSrc, d := d, rd := .vfDst }
  | .vfDiv d a b => { a := a, ra := .vfSrc, b := b, rb := .vfSrc, d := d, rd := .vfDst }
  | .vfSqrt d a => { a := a, ra := .vfSrc, d := d, rd := .vfDst }
  | .vfFma d a b => { a := a, ra := .vfSrc, b := b, rb := .vfSrc, d := d, rd := .vfInOut }
  | .vfNeg d a => { a := a, ra := .vfSrc, d := d, rd := .vfDst }
  | .vfAbs d a => { a := a, ra := .vfSrc, d := d, rd := .vfDst }
  | .vfRnd d a => { a := a, ra := .vfSrc, d := d, rd := .vfDst }
  | .vfFromF d a => { a := a, ra := .src, d := d, rd := .vfDst }
  | .vfFromI d a => { a := a, ra := .src, d := d, rd := .vfDst }
  | .vfToF d a => { a := a, ra := .vfSrc, d := d, rd := .dst }
  | .vfToI d a => { a := a, ra := .vfSrc, d := d, rd := .dst }
  | .vfMov d a => { a := a, ra := .vfSrc, d := d, rd := .vfDst }
  | .vfLd d a _ => { a := a, ra := .src, d := d, rd := .vfDst }
  | .vfSt _ a b => { a := a, ra := .src, b := b, rb := .vfSrc }
  | .vAddI32 d a b => { a := a, ra := .vecSrc, b := b, rb := .vecSrc, d := d, rd := .vecDst }
  | .vSubI32 d a b => { a := a, ra := .vecSrc, b := b, rb := .vecSrc, d := d, rd := .vecDst }
  | .vMulI32 d a b => { a := a, ra := .vecSrc, b := b, rb := .vecSrc, d := d, rd := .vecDst }
  | .vMinI32 d a b => { a := a, ra := .vecSrc, b := b, rb := .vecSrc, d := d, rd := .vecDst }
  | .vMaxI32 d a b => { a := a, ra := .vecSrc, b := b, rb := .vecSrc, d := d, rd := .vecDst }
  | .vAnd d a b => { a := a, ra := .vecSrc, b := b, rb := .vecSrc, d := d, rd := .vecDst }
  | .vOr d a b => { a := a, ra := .vecSrc, b := b, rb := .vecSrc, d := d, rd := .vecDst }
  | .vXor d a b => { a := a, ra := .vecSrc, b := b, rb := .vecSrc, d := d, rd := .vecDst }
  | .vShl d a b => { a := a, ra := .vecSrc, b := b, rb := .vecSrc, d := d, rd := .vecDst }
  | .vShr d a b => { a := a, ra := .vecSrc, b := b, rb := .vecSrc, d := d, rd := .vecDst }
  | .vSra d a b => { a := a, ra := .vecSrc, b := b, rb := .vecSrc, d := d, rd := .vecDst }
  | .vDot8 d a b => { a := a, ra := .vecSrc, b := b, rb := .vecSrc, d := d, rd := .vecDst }
  | .vSumI32 d a => { a := a, ra := .vecSrc, d := d, rd := .dst }
  | .vBcast d a => { a := a, ra := .src, d := d, rd := .vecDst }
  | .vPerm d a b => { a := a, ra := .vecSrc, b := b, rb := .vecSrc, d := d, rd := .vecDst }
  | .vSel d a b => { a := a, ra := .vecSrc, b := b, rb := .vecSrc, d := d, rd := .vecInOut }
  | .vCmpeqI32 d a b => { a := a, ra := .vecSrc, b := b, rb := .vecSrc, d := d, rd := .vecDst }
  | .vCmpltI32 d a b => { a := a, ra := .vecSrc, b := b, rb := .vecSrc, d := d, rd := .vecDst }
  | .vExt d a b => { a := a, ra := .vecSrc, b := b, rb := .src, d := d, rd := .dst }
  | .vIns d a b => { a := a, ra := .src, b := b, rb := .src, d := d, rd := .vecInOut }
  | .vAddF32 d a b => { a := a, ra := .vecSrc, b := b, rb := .vecSrc, d := d, rd := .vecDst }
  | .vSubF32 d a b => { a := a, ra := .vecSrc, b := b, rb := .vecSrc, d := d, rd := .vecDst }
  | .vMulF32 d a b => { a := a, ra := .vecSrc, b := b, rb := .vecSrc, d := d, rd := .vecDst }
  | .vFmaF32 d a b => { a := a, ra := .vecSrc, b := b, rb := .vecSrc, d := d, rd := .vecInOut }
  | .vMinF32 d a b => { a := a, ra := .vecSrc, b := b, rb := .vecSrc, d := d, rd := .vecDst }
  | .vMaxF32 d a b => { a := a, ra := .vecSrc, b := b, rb := .vecSrc, d := d, rd := .vecDst }
  | .vSumF32 d a => { a := a, ra := .vecSrc, d := d, rd := .dst }
  | .vRcpF32 d a => { a := a, ra := .vecSrc, d := d, rd := .vecDst }
  | .vCvtFi d a => { a := a, ra := .vecSrc, d := d, rd := .vecDst }
  | .vCvtIf d a => { a := a, ra := .vecSrc, d := d, rd := .vecDst }
  | .vCvtBf d a => { a := a, ra := .vecSrc, d := d, rd := .vecDst }
  | .vCvtFb d a => { a := a, ra := .vecSrc, d := d, rd := .vecDst }
  | .vCmpltF32 d a b => { a := a, ra := .vecSrc, b := b, rb := .vecSrc, d := d, rd := .vecDst }
  | .vMax0 d a => { a := a, ra := .vecSrc, d := d, rd := .vecDst }
  | .vLi d _ => { d := d, rd := .vecDst }
  | .mmaI8 t a b _ _ _ => { a := a, ra := .src, b := b, rb := .src, d := t, rd := .ctl }
  | .mmaF8 t a b _ _ _ => { a := a, ra := .src, b := b, rb := .src, d := t, rd := .ctl }
  | .mmaB16 t a b _ _ _ => { a := a, ra := .src, b := b, rb := .src, d := t, rd := .ctl }
  | .mmaQ4 t a b _ _ _ => { a := a, ra := .src, b := b, rb := .src, d := t, rd := .ctl }
  | .accClr d => { d := d, rd := .ctl }
  | .accRd d a b => { a := a, ra := .src, b := b, rb := .src, d := d, rd := .ctl }
  | .accWr d a => { a := a, ra := .src, d := d, rd := .ctl }
  | .xprg d a => { a := a, ra := .src, d := d, rd := .ctl }
  | .xswp d => { d := d, rd := .ctl }
  | .xmv d a b => { a := a, ra := .src, b := b, rb := .src, d := d, rd := .ctl }
  | .xmvt d a b => { a := a, ra := .src, b := b, rb := .src, d := d, rd := .ctl }
  | .xcal d a b => { a := a, ra := .src, b := b, rb := .src, d := d, rd := .ctl }
  | .xacc d a => { a := a, ra := .src, d := d, rd := .dst }
  | .xstat d => { d := d, rd := .dst }
  | .jlk d a b => { a := a, ra := .src, b := b, rb := .src, d := d, rd := .src }
  | .jgs d a b => { a := a, ra := .src, b := b, rb := .src, d := d, rd := .ctl }
  | .jmul d a b => { a := a, ra := .src, b := b, rb := .src, d := d, rd := .ctl }
  | .jexp d a => { a := a, ra := .src, d := d, rd := .ctl }
  | .jenum d a => { a := a, ra := .src, d := d, rd := .src }
  | .jdelta d a b => { a := a, ra := .src, b := b, rb := .src, d := d, rd := .ctl }
  | .cleave d a b => { a := a, ra := .src, b := b, rb := .src, d := d, rd := .ctl }
  | .isect d a => { a := a, ra := .src, d := d, rd := .src }
  | .jstat d => { d := d, rd := .late }
  | .pct d a b => { a := a, ra := .src, b := b, rb := .vecSrc, d := d, rd := .src }
  | .prd d a b => { a := a, ra := .src, b := b, rb := .src, d := d, rd := .nineDst }
  | .parm a => { a := a, ra := .src }
  | .povl a => { a := a, ra := .src }
  | .pstat d a => { a := a, ra := .src, d := d, rd := .late }
  | .cpQ d a => { a := a, ra := .src, d := d, rd := .dst }
  | .cpKill a => { a := a, ra := .src }
  | .trap _ => {}
  | .brk _ => {}
  | .tlbinv a => { a := a, ra := .src }
  | .pstop a => { a := a, ra := .src }
  | .waita => {}
  | .ifence => {}
  | .yield => {}
  | .sync => {}
  | .exit => {}
  | .eret => {}
  | .csave => {}
  | .crest => {}
  | .halt => {}
  | .cgoLaunch => {}
  | .xbndRead => {}
  | .dumpStart => {}
  | .dumpComplete => {}
  | .sample => {}
  | .taskBind => {}
  | .spawnEnqueue => {}
  | .stealRequest => {}
  | .stealServe => {}
  | .stealReply => {}
  | .stealRetryTimeout => {}
  | .hintedTaskHop => {}
  | .gangAdmit => {}
  | .gangReserve => {}
  | .gangCoreReserve => {}
  | .gangBind => {}
  | .gangSyncRelease => {}
  | .migArrival => {}
  | .counterNodeOperation => {}
  | .continuationPlace => {}
  | .barrierOperationApply => {}
  | .barrierAnswer => {}
  | .barrierRelease => {}
  | .barTwaitTimeout => {}
  | .fullEmptyApply => {}
  | .loadComplete => {}
  | .storeApply => {}
  | .atomicApply => {}
  | .reductionApply => {}
  | .pageWalk => {}
  | .mailboxArrival => {}
  | .hostMessageDeliver => {}
  | .portWordArrival => {}
  | .copyComplete => {}
  | .copyFault => {}
  | .mmaComplete => {}
  | .accClrComplete => {}
  | .accRdComplete => {}
  | .accWrComplete => {}
  | .xprgComplete => {}
  | .xswpApply => {}
  | .xcalComplete => {}
  | .xmvProductComplete => {}
  | .jlkComplete => {}
  | .jgsComplete => {}
  | .jmulComplete => {}
  | .jexpComplete => {}
  | .jenumComplete => {}
  | .jdeltaComplete => {}
  | .cleaveComplete => {}
  | .isectComplete => {}
  | .jstatComplete => {}
  | .contributionArrival => {}
  | .prdComplete => {}
  | .pstatComplete => {}
  | .parmApply => {}
  | .povlApply => {}
  | .masonUpdateStart => {}
  | .masonCycleLimit => {}
  | .hostMemoryWrite => {}
  | .hostMemoryRead => {}
  | .partitionReset => {}
  | .approxClear => {}
  | .partctlNvfWrite => {}
  | .tenantKeyCreate => {}
  | .packageReset => {}
  | .unrecoverableError => {}
  | .hangTimeout => {}
  | .fabricLinkFailure => {}
  | .lifecycleAdvance => {}
  | .fuseProgram => {}
  | .fuseProgramDone => {}
  | .keyWipe => {}
  | .keyWipeDone => {}
  | .sealInstall => {}
  | .sealRemove => {}
  | .measurementExtend => {}
  | .measurementCopy => {}
  | .measurementDone => {}
  | .signatureVerify => {}
  | .signatureSign => {}
  | .signatureDone => {}
  | .shakeHash => {}
  | .shakeDone => {}
  | .debugPortOpen => {}
  | .debugPortClose => {}
  | .debugProbeAccess => {}
  | .vrelellSlotBind => {}
  | .partitionDieAssignment => {}
  | .virtualFunctionBinding => {}
  | .fabricJoinConfiguration => {}
  | .ideKmKeySetting => {}

/-- Whether a name is a neighbour port (R12, R205). -/
def Name.isPort (n : Name) : Bool := 1 ≤ n.toNat && n.toNat ≤ 4

/-- R205, R206: whether a name may stand in a field of the given role, as far as step 3 of R207 goes. A port name in a
field written later than issue is refused at step 6 instead (R219). -/
def Role.allows (r : Role) (n : Name) : Bool :=
  match r with
  | .none => true
  | .src | .dst | .late => n.toNat ≤ 4 || 8 ≤ n.toNat
  | .inOut | .lateInOut | .ctl => n = 0 || 8 ≤ n.toNat
  | .vecSrc | .vecDst | .nineDst | .vecInOut => n = 0 || (8 ≤ n.toNat && n.toNat ≤ 120 && n.toNat % 8 = 0)
  | .vfSrc | .vfDst | .vfInOut | .pairDst => n = 0 || 8 ≤ n.toNat

/-- The names of an instruction obey R205 and R206. -/
def Instr.namesOk (i : Instr) : Bool :=
  let r := i.roles
  r.ra.allows r.a && r.rb.allows r.b && r.rd.allows r.d

/-- The checks of step 3 of R207 that are not about names: msel, scope codes, the n of pskip and of mig. -/
def Instr.fieldsOk : Instr → Bool
  | .mmaI8 _ _ _ m _ _ | .mmaF8 _ _ _ m _ _ | .mmaB16 _ _ _ m _ _ | .mmaQ4 _ _ _ m _ _ => m ≠ 3
  | .fence s | .acq s | .rel s => s.toNat < 5
  | .pskip _ _ c => c ≠ 0
  | .mig _ n => n.toNat ≤ 128
  | _ => true

/-- An instruction word that step 3 of R207 passes. -/
def Instr.wf (i : Instr) : Bool := i.isWord && i.namesOk && i.fieldsOk

end Sys2Proof
end

