-- ==== Sys2Proof/Decode.lean ====
section
/-! DEFINITION. Sys2Proof/Decode.lean: from a 32-bit word to an instruction or none (R202 to R209, steps 1 to 3 of R207),
and the encoder. A word is first read by its major and fn into the one instruction that R208 gives it; it is that
instruction exactly when encoding the instruction gives the word back, which says that every unused and reserved field is
0 and every fixed subfield has its value, and when the instruction is well formed. -/

namespace Sys2Proof

/-- Format A (R203). -/
def encA (op fn : Nat) (d a b : Name) : BitVec 32 :=
  BitVec.ofNat 6 op ++ d ++ a ++ b ++ BitVec.ofNat 5 fn

/-- Format I (R203). -/
def encI (op : Nat) (d a : Name) (imm : BitVec 12) : BitVec 32 :=
  BitVec.ofNat 6 op ++ d ++ a ++ imm

/-- Format S (R203): imm[11:5] stands above, imm[4:0] below. -/
def encS (op : Nat) (imm : BitVec 12) (a b : Name) : BitVec 32 :=
  BitVec.ofNat 6 op ++ imm.extractLsb' 5 7 ++ a ++ b ++ imm.extractLsb' 0 5

/-- Format U (R203). -/
def encU (op : Nat) (d : Name) (imm : BitVec 19) : BitVec 32 :=
  BitVec.ofNat 6 op ++ d ++ imm

/-- Format J (R203). -/
def encJ (op : Nat) (off : BitVec 26) : BitVec 32 := BitVec.ofNat 6 op ++ off

/-- Format P (R203). -/
def encP (op : Nat) (ng : BitVec 1) (p : BitVec 3) (off : BitVec 22) : BitVec 32 :=
  BitVec.ofNat 6 op ++ ng ++ p ++ off

/-- Format C (R203). -/
def encC (op fn : Nat) (pd pg : BitVec 3) (ng : BitVec 1) (a b : BitVec 7) : BitVec 32 :=
  BitVec.ofNat 6 op ++ pd ++ pg ++ ng ++ a ++ b ++ BitVec.ofNat 5 fn

/-- Format W (R203). -/
def encW (op : Nat) (l s c t : BitVec 4) : BitVec 32 :=
  BitVec.ofNat 6 op ++ l ++ s ++ c ++ t ++ (0 : BitVec 10)

/-- Format M (R203). -/
def encM (op : Nat) (t a b : Name) (msel : BitVec 2) (acc bt : BitVec 1) : BitVec 32 :=
  BitVec.ofNat 6 op ++ t ++ a ++ b ++ msel ++ acc ++ bt ++ (0 : BitVec 1)

/-- The word of an instruction (R203, R204, R208, R209). An event has none; it gives 0, which is no instruction. -/
def encode : Instr → BitVec 32
  | .add d a b => encA 0x01 0 d a b
  | .sub d a b => encA 0x01 1 d a b
  | .and d a b => encA 0x01 2 d a b
  | .or d a b => encA 0x01 3 d a b
  | .xor d a b => encA 0x01 4 d a b
  | .sll d a b => encA 0x01 5 d a b
  | .srl d a b => encA 0x01 6 d a b
  | .sra d a b => encA 0x01 7 d a b
  | .slt d a b => encA 0x01 8 d a b
  | .sltu d a b => encA 0x01 9 d a b
  | .min d a b => encA 0x01 10 d a b
  | .max d a b => encA 0x01 11 d a b
  | .minu d a b => encA 0x01 12 d a b
  | .maxu d a b => encA 0x01 13 d a b
  | .mul d a b => encA 0x01 14 d a b
  | .mulh d a b => encA 0x01 15 d a b
  | .mulhu d a b => encA 0x01 16 d a b
  | .div d a b => encA 0x01 17 d a b
  | .divu d a b => encA 0x01 18 d a b
  | .rem d a b => encA 0x01 19 d a b
  | .remu d a b => encA 0x01 20 d a b
  | .clz d a => encA 0x02 0 d a 0
  | .ctz d a => encA 0x02 1 d a 0
  | .popc d a => encA 0x02 2 d a 0
  | .rank d a b => encA 0x02 3 d a b
  | .nth d a b => encA 0x02 4 d a b
  | .bext d a b => encA 0x02 5 d a b
  | .bdep d a b => encA 0x02 6 d a b
  | .rev8 d a => encA 0x02 7 d a 0
  | .sext8 d a => encA 0x02 8 d a 0
  | .sext16 d a => encA 0x02 9 d a 0
  | .sext32 d a => encA 0x02 10 d a 0
  | .zext8 d a => encA 0x02 11 d a 0
  | .zext16 d a => encA 0x02 12 d a 0
  | .zext32 d a => encA 0x02 13 d a 0
  | .addi d a i => encI 0x03 d a i
  | .andi d a i => encI 0x04 d a i
  | .ori d a i => encI 0x05 d a i
  | .xori d a i => encI 0x06 d a i
  | .slti d a i => encI 0x07 d a i
  | .sltiu d a i => encI 0x08 d a i
  | .slli d a c => encI 0x09 d a ((0 : BitVec 4) ++ (0 : BitVec 2) ++ c)
  | .srli d a c => encI 0x09 d a ((0 : BitVec 4) ++ (1 : BitVec 2) ++ c)
  | .srai d a c => encI 0x09 d a ((0 : BitVec 4) ++ (2 : BitVec 2) ++ c)
  | .lui d i => encU 0x0A d i
  | .adpc d i => encU 0x0B d i
  | .pcmpEq p g n a b => encC 0x0C 0 p g n a b
  | .pcmpNe p g n a b => encC 0x0C 1 p g n a b
  | .pcmpLt p g n a b => encC 0x0C 2 p g n a b
  | .pcmpGe p g n a b => encC 0x0C 3 p g n a b
  | .pcmpLtu p g n a b => encC 0x0C 4 p g n a b
  | .pcmpGeu p g n a b => encC 0x0C 5 p g n a b
  | .pcmpFEq p g n a b => encC 0x0C 6 p g n a b
  | .pcmpFLt p g n a b => encC 0x0C 7 p g n a b
  | .pcmpFLe p g n a b => encC 0x0C 8 p g n a b
  | .pcmpFUn p g n a b => encC 0x0C 9 p g n a b
  | .pcmpVfEq p g n a b => encC 0x0C 10 p g n a b
  | .pcmpVfLt p g n a b => encC 0x0C 11 p g n a b
  | .pcmpVfLe p g n a b => encC 0x0C 12 p g n a b
  | .pcmpBit p g n a b => encC 0x0C 13 p g n a b
  | .pand p g n a b => encC 0x0D 0 p g n ((0 : BitVec 4) ++ a) ((0 : BitVec 4) ++ b)
  | .por p g n a b => encC 0x0D 1 p g n ((0 : BitVec 4) ++ a) ((0 : BitVec 4) ++ b)
  | .pxor p g n a b => encC 0x0D 2 p g n ((0 : BitVec 4) ++ a) ((0 : BitVec 4) ++ b)
  | .pandn p g n a b => encC 0x0D 3 p g n ((0 : BitVec 4) ++ a) ((0 : BitVec 4) ++ b)
  | .pmov p g n a => encC 0x0D 4 p g n ((0 : BitVec 4) ++ a) 0
  | .pnot p g n a => encC 0x0D 5 p g n ((0 : BitVec 4) ++ a) 0
  | .pset p g n v => encC 0x0D 6 p g n ((0 : BitVec 6) ++ v) 0
  | .bp n p o => encP 0x0E n p o
  | .br o => encJ 0x0F o
  | .bl o => encJ 0x10 o
  | .jr a => encA 0x11 0 0 a 0
  | .jlr d a => encA 0x11 1 d a 0
  | .pskip n p c => encP 0x3B n p ((0 : BitVec 18) ++ c)
  | .ldB d a i => encI 0x12 d a i
  | .ldBu d a i => encI 0x13 d a i
  | .ldH d a i => encI 0x14 d a i
  | .ldHu d a i => encI 0x15 d a i
  | .ldW d a i => encI 0x16 d a i
  | .ldWu d a i => encI 0x17 d a i
  | .ldD d a i => encI 0x18 d a i
  | .stB i a b => encS 0x19 i a b
  | .stH i a b => encS 0x1A i a b
  | .stW i a b => encS 0x1B i a b
  | .stD i a b => encS 0x1C i a b
  | .ldV d a => encA 0x1D 0 d a 0
  | .stV a b => encA 0x1D 1 0 a b
  | .ldFe d a => encA 0x1D 2 d a 0
  | .ldFx d a => encA 0x1D 3 d a 0
  | .stEf a b => encA 0x1D 4 0 a b
  | .stFs a b => encA 0x1D 5 0 a b
  | .stFc a b => encA 0x1D 6 0 a b
  | .stN h a b => encA 0x1D 7 ((0 : BitVec 6) ++ h) a b
  | .ldN d a h => encA 0x1D 8 d a ((0 : BitVec 6) ++ h)
  | .watch a => encA 0x1D 9 0 a 0
  | .unwatch a => encA 0x1D 10 0 a 0
  | .vGather d a b => encA 0x1D 12 d a b
  | .vScatter d a b => encA 0x1D 13 d a b
  | .amoAdd d a b => encA 0x1E 0 d a b
  | .amoAnd d a b => encA 0x1E 1 d a b
  | .amoOr d a b => encA 0x1E 2 d a b
  | .amoXor d a b => encA 0x1E 3 d a b
  | .amoMin d a b => encA 0x1E 4 d a b
  | .amoMax d a b => encA 0x1E 5 d a b
  | .amoXchg d a b => encA 0x1E 6 d a b
  | .amoCas d a b => encA 0x1E 7 d a b
  | .redAdd a b => encA 0x1E 8 0 a b
  | .redOr a b => encA 0x1E 9 0 a b
  | .redMax a b => encA 0x1E 10 0 a b
  | .redEw d a b => encA 0x1E 11 d a b
  | .fence s => encA 0x1F 0 ((0 : BitVec 4) ++ s) 0 0
  | .acq s => encA 0x1F 1 ((0 : BitVec 4) ++ s) 0 0
  | .rel s => encA 0x1F 2 ((0 : BitVec 4) ++ s) 0 0
  | .publish a => encA 0x1F 4 0 a 0
  | .mig a n => encA 0x1F 6 ((0 : BitVec 6) ++ n.extractLsb' 7 1) a (n.extractLsb' 0 7)
  | .wait l s c t => encW 0x20 l s c t
  | .barInit d a b => encA 0x21 0 d a b
  | .barJoin a => encA 0x21 1 0 a 0
  | .barArrive d a => encA 0x21 2 d a 0
  | .barDrop d a => encA 0x21 3 d a 0
  | .barExpect a b => encA 0x21 4 0 a b
  | .barWait a b => encA 0x21 5 0 a b
  | .barTest d a b => encA 0x21 6 d a b
  | .barTwait d a b => encA 0x21 7 d a b
  | .barInval a => encA 0x21 8 0 a 0
  | .smsg a b => encA 0x22 0 0 a b
  | .rmsg d => encA 0x22 1 d 0 0
  | .wmsg d => encA 0x22 2 d 0 0
  | .mq d => encA 0x22 3 d 0 0
  | .spawn a => encA 0x23 0 0 a 0
  | .spawnh a => encA 0x23 1 0 a 0
  | .cntInit a b => encA 0x23 3 0 a b
  | .cntAdd a b => encA 0x23 4 0 a b
  | .mfs d i => encI 0x24 d 0 i
  | .mts a i => encI 0x25 0 a i
  | .rdx d a i => encI 0x26 d a i
  | .wrx i a b => encS 0x27 i a b
  | .fAdd d a b => encA 0x28 0 d a b
  | .fSub d a b => encA 0x28 1 d a b
  | .fMul d a b => encA 0x28 2 d a b
  | .fDiv d a b => encA 0x28 3 d a b
  | .fSqrt d a => encA 0x28 4 d a 0
  | .fMin d a b => encA 0x28 5 d a b
  | .fMax d a b => encA 0x28 6 d a b
  | .fFma d a b => encA 0x28 7 d a b
  | .fAbs d a => encA 0x28 8 d a 0
  | .fNeg d a => encA 0x28 9 d a 0
  | .fCvtFi d a => encA 0x28 10 d a 0
  | .fCvtIf d a => encA 0x28 11 d a 0
  | .fCvtIft d a => encA 0x28 12 d a 0
  | .fCvtBf d a => encA 0x28 13 d a 0
  | .fCvtFb d a => encA 0x28 14 d a 0
  | .fCvt8f d a => encA 0x28 15 d a 0
  | .fCvtF8 d a => encA 0x28 16 d a 0
  | .fClass d a => encA 0x28 17 d a 0
  | .vfAdd d a b => encA 0x29 0 d a b
  | .vfSub d a b => encA 0x29 1 d a b
  | .vfMul d a b => encA 0x29 2 d a b
  | .vfDiv d a b => encA 0x29 3 d a b
  | .vfSqrt d a => encA 0x29 4 d a 0
  | .vfFma d a b => encA 0x29 5 d a b
  | .vfNeg d a => encA 0x29 6 d a 0
  | .vfAbs d a => encA 0x29 7 d a 0
  | .vfRnd d a => encA 0x29 8 d a 0
  | .vfFromF d a => encA 0x29 9 d a 0
  | .vfFromI d a => encA 0x29 10 d a 0
  | .vfToF d a => encA 0x29 11 d a 0
  | .vfToI d a => encA 0x29 12 d a 0
  | .vfMov d a => encA 0x29 13 d a 0
  | .vfLd d a i => encI 0x2A d a i
  | .vfSt i a b => encS 0x2B i a b
  | .vAddI32 d a b => encA 0x2C 0 d a b
  | .vSubI32 d a b => encA 0x2C 1 d a b
  | .vMulI32 d a b => encA 0x2C 2 d a b
  | .vMinI32 d a b => encA 0x2C 3 d a b
  | .vMaxI32 d a b => encA 0x2C 4 d a b
  | .vAnd d a b => encA 0x2C 5 d a b
  | .vOr d a b => encA 0x2C 6 d a b
  | .vXor d a b => encA 0x2C 7 d a b
  | .vShl d a b => encA 0x2C 8 d a b
  | .vShr d a b => encA 0x2C 9 d a b
  | .vSra d a b => encA 0x2C 10 d a b
  | .vDot8 d a b => encA 0x2C 11 d a b
  | .vSumI32 d a => encA 0x2C 12 d a 0
  | .vBcast d a => encA 0x2C 13 d a 0
  | .vPerm d a b => encA 0x2C 14 d a b
  | .vSel d a b => encA 0x2C 15 d a b
  | .vCmpeqI32 d a b => encA 0x2C 16 d a b
  | .vCmpltI32 d a b => encA 0x2C 17 d a b
  | .vExt d a b => encA 0x2C 18 d a b
  | .vIns d a b => encA 0x2C 19 d a b
  | .vAddF32 d a b => encA 0x2D 0 d a b
  | .vSubF32 d a b => encA 0x2D 1 d a b
  | .vMulF32 d a b => encA 0x2D 2 d a b
  | .vFmaF32 d a b => encA 0x2D 3 d a b
  | .vMinF32 d a b => encA 0x2D 4 d a b
  | .vMaxF32 d a b => encA 0x2D 5 d a b
  | .vSumF32 d a => encA 0x2D 6 d a 0
  | .vRcpF32 d a => encA 0x2D 7 d a 0
  | .vCvtFi d a => encA 0x2D 8 d a 0
  | .vCvtIf d a => encA 0x2D 9 d a 0
  | .vCvtBf d a => encA 0x2D 10 d a 0
  | .vCvtFb d a => encA 0x2D 11 d a 0
  | .vCmpltF32 d a b => encA 0x2D 12 d a b
  | .vMax0 d a => encA 0x2D 13 d a 0
  | .vLi d i => encU 0x2E d i
  | .mmaI8 t a b m c x => encM 0x30 t a b m c x
  | .mmaF8 t a b m c x => encM 0x31 t a b m c x
  | .mmaB16 t a b m c x => encM 0x32 t a b m c x
  | .mmaQ4 t a b m c x => encM 0x33 t a b m c x
  | .accClr d => encA 0x34 0 d 0 0
  | .accRd d a b => encA 0x34 1 d a b
  | .accWr d a => encA 0x34 2 d a 0
  | .xprg d a => encA 0x35 0 d a 0
  | .xswp d => encA 0x35 1 d 0 0
  | .xmv d a b => encA 0x35 2 d a b
  | .xmvt d a b => encA 0x35 3 d a b
  | .xcal d a b => encA 0x35 4 d a b
  | .xacc d a => encA 0x35 5 d a 0
  | .xstat d => encA 0x35 6 d 0 0
  | .jlk d a b => encA 0x36 0 d a b
  | .jgs d a b => encA 0x36 1 d a b
  | .jmul d a b => encA 0x36 2 d a b
  | .jexp d a => encA 0x36 3 d a 0
  | .jenum d a => encA 0x36 4 d a 0
  | .jdelta d a b => encA 0x36 5 d a b
  | .cleave d a b => encA 0x36 6 d a b
  | .isect d a => encA 0x36 7 d a 0
  | .jstat d => encA 0x36 8 d 0 0
  | .pct d a b => encA 0x37 0 d a b
  | .prd d a b => encA 0x37 1 d a b
  | .parm a => encA 0x37 2 0 a 0
  | .povl a => encA 0x37 3 0 a 0
  | .pstat d a => encA 0x37 4 d a 0
  | .cpQ d a => encA 0x38 0 d a 0
  | .cpKill a => encA 0x38 1 0 a 0
  | .trap c => encA 0x39 0 0 (c.extractLsb' 7 7) (c.extractLsb' 0 7)
  | .brk c => encA 0x39 2 0 (c.extractLsb' 7 7) (c.extractLsb' 0 7)
  | .tlbinv a => encA 0x39 3 0 a 0
  | .pstop a => encA 0x39 7 0 a 0
  | .waita => encA 0x1D 11 0 0 0
  | .ifence => encA 0x1F 3 0 0 0
  | .yield => encA 0x1F 5 0 0 0
  | .sync => encA 0x21 9 0 0 0
  | .exit => encA 0x23 2 0 0 0
  | .eret => encA 0x39 1 0 0 0
  | .csave => encA 0x39 4 0 0 0
  | .crest => encA 0x39 5 0 0 0
  | .halt => encA 0x39 6 0 0 0
  | .cgoLaunch => 0
  | .xbndRead => 0
  | .dumpStart => 0
  | .dumpComplete => 0
  | .sample => 0
  | .taskBind => 0
  | .spawnEnqueue => 0
  | .stealRequest => 0
  | .stealServe => 0
  | .stealReply => 0
  | .stealRetryTimeout => 0
  | .hintedTaskHop => 0
  | .gangAdmit => 0
  | .gangReserve => 0
  | .gangCoreReserve => 0
  | .gangBind => 0
  | .gangSyncRelease => 0
  | .migArrival => 0
  | .counterNodeOperation => 0
  | .continuationPlace => 0
  | .barrierOperationApply => 0
  | .barrierAnswer => 0
  | .barrierRelease => 0
  | .barTwaitTimeout => 0
  | .fullEmptyApply => 0
  | .loadComplete => 0
  | .storeApply => 0
  | .atomicApply => 0
  | .reductionApply => 0
  | .pageWalk => 0
  | .mailboxArrival => 0
  | .hostMessageDeliver => 0
  | .portWordArrival => 0
  | .copyComplete => 0
  | .copyFault => 0
  | .mmaComplete => 0
  | .accClrComplete => 0
  | .accRdComplete => 0
  | .accWrComplete => 0
  | .xprgComplete => 0
  | .xswpApply => 0
  | .xcalComplete => 0
  | .xmvProductComplete => 0
  | .jlkComplete => 0
  | .jgsComplete => 0
  | .jmulComplete => 0
  | .jexpComplete => 0
  | .jenumComplete => 0
  | .jdeltaComplete => 0
  | .cleaveComplete => 0
  | .isectComplete => 0
  | .jstatComplete => 0
  | .contributionArrival => 0
  | .prdComplete => 0
  | .pstatComplete => 0
  | .parmApply => 0
  | .povlApply => 0
  | .masonUpdateStart => 0
  | .masonCycleLimit => 0
  | .hostMemoryWrite => 0
  | .hostMemoryRead => 0
  | .partitionReset => 0
  | .approxClear => 0
  | .partctlNvfWrite => 0
  | .tenantKeyCreate => 0
  | .packageReset => 0
  | .unrecoverableError => 0
  | .hangTimeout => 0
  | .fabricLinkFailure => 0
  | .lifecycleAdvance => 0
  | .fuseProgram => 0
  | .fuseProgramDone => 0
  | .keyWipe => 0
  | .keyWipeDone => 0
  | .sealInstall => 0
  | .sealRemove => 0
  | .measurementExtend => 0
  | .measurementCopy => 0
  | .measurementDone => 0
  | .signatureVerify => 0
  | .signatureSign => 0
  | .signatureDone => 0
  | .shakeHash => 0
  | .shakeDone => 0
  | .debugPortOpen => 0
  | .debugPortClose => 0
  | .debugProbeAccess => 0
  | .vrelellSlotBind => 0
  | .partitionDieAssignment => 0
  | .virtualFunctionBinding => 0
  | .fabricJoinConfiguration => 0
  | .ideKmKeySetting => 0

/-- The fields of a word, by their places in R203. -/
structure Fields where
  d : Name
  a : Name
  b : Name
  fn : Nat
deriving DecidableEq, Repr

/-- The places of the fields of format A. -/
def fieldsOf (w : BitVec 32) : Fields :=
  { d := w.extractLsb' 19 7, a := w.extractLsb' 12 7, b := w.extractLsb' 5 7, fn := (w.extractLsb' 0 5).toNat }

/-- The immediate of format S. -/
def immS (w : BitVec 32) : BitVec 12 := w.extractLsb' 19 7 ++ w.extractLsb' 0 5

/-- R208, major 0x01: the instruction of each fn. -/
def pick01 (f : Fields) : Option Instr :=
  match f.fn with
  | 0 => some (.add f.d f.a f.b)
  | 1 => some (.sub f.d f.a f.b)
  | 2 => some (.and f.d f.a f.b)
  | 3 => some (.or f.d f.a f.b)
  | 4 => some (.xor f.d f.a f.b)
  | 5 => some (.sll f.d f.a f.b)
  | 6 => some (.srl f.d f.a f.b)
  | 7 => some (.sra f.d f.a f.b)
  | 8 => some (.slt f.d f.a f.b)
  | 9 => some (.sltu f.d f.a f.b)
  | 10 => some (.min f.d f.a f.b)
  | 11 => some (.max f.d f.a f.b)
  | 12 => some (.minu f.d f.a f.b)
  | 13 => some (.maxu f.d f.a f.b)
  | 14 => some (.mul f.d f.a f.b)
  | 15 => some (.mulh f.d f.a f.b)
  | 16 => some (.mulhu f.d f.a f.b)
  | 17 => some (.div f.d f.a f.b)
  | 18 => some (.divu f.d f.a f.b)
  | 19 => some (.rem f.d f.a f.b)
  | 20 => some (.remu f.d f.a f.b)
  | _ => none

/-- R208, major 0x02: the instruction of each fn. -/
def pick02 (f : Fields) : Option Instr :=
  match f.fn with
  | 0 => some (.clz f.d f.a)
  | 1 => some (.ctz f.d f.a)
  | 2 => some (.popc f.d f.a)
  | 3 => some (.rank f.d f.a f.b)
  | 4 => some (.nth f.d f.a f.b)
  | 5 => some (.bext f.d f.a f.b)
  | 6 => some (.bdep f.d f.a f.b)
  | 7 => some (.rev8 f.d f.a)
  | 8 => some (.sext8 f.d f.a)
  | 9 => some (.sext16 f.d f.a)
  | 10 => some (.sext32 f.d f.a)
  | 11 => some (.zext8 f.d f.a)
  | 12 => some (.zext16 f.d f.a)
  | 13 => some (.zext32 f.d f.a)
  | _ => none

/-- R208, major 0x0C: the instruction of each fn. -/
def pick0C (w : BitVec 32) (f : Fields) : Option Instr :=
  match f.fn with
  | 0 => some (.pcmpEq (w.extractLsb' 23 3) (w.extractLsb' 20 3) (w.extractLsb' 19 1) f.a f.b)
  | 1 => some (.pcmpNe (w.extractLsb' 23 3) (w.extractLsb' 20 3) (w.extractLsb' 19 1) f.a f.b)
  | 2 => some (.pcmpLt (w.extractLsb' 23 3) (w.extractLsb' 20 3) (w.extractLsb' 19 1) f.a f.b)
  | 3 => some (.pcmpGe (w.extractLsb' 23 3) (w.extractLsb' 20 3) (w.extractLsb' 19 1) f.a f.b)
  | 4 => some (.pcmpLtu (w.extractLsb' 23 3) (w.extractLsb' 20 3) (w.extractLsb' 19 1) f.a f.b)
  | 5 => some (.pcmpGeu (w.extractLsb' 23 3) (w.extractLsb' 20 3) (w.extractLsb' 19 1) f.a f.b)
  | 6 => some (.pcmpFEq (w.extractLsb' 23 3) (w.extractLsb' 20 3) (w.extractLsb' 19 1) f.a f.b)
  | 7 => some (.pcmpFLt (w.extractLsb' 23 3) (w.extractLsb' 20 3) (w.extractLsb' 19 1) f.a f.b)
  | 8 => some (.pcmpFLe (w.extractLsb' 23 3) (w.extractLsb' 20 3) (w.extractLsb' 19 1) f.a f.b)
  | 9 => some (.pcmpFUn (w.extractLsb' 23 3) (w.extractLsb' 20 3) (w.extractLsb' 19 1) f.a f.b)
  | 10 => some (.pcmpVfEq (w.extractLsb' 23 3) (w.extractLsb' 20 3) (w.extractLsb' 19 1) f.a f.b)
  | 11 => some (.pcmpVfLt (w.extractLsb' 23 3) (w.extractLsb' 20 3) (w.extractLsb' 19 1) f.a f.b)
  | 12 => some (.pcmpVfLe (w.extractLsb' 23 3) (w.extractLsb' 20 3) (w.extractLsb' 19 1) f.a f.b)
  | 13 => some (.pcmpBit (w.extractLsb' 23 3) (w.extractLsb' 20 3) (w.extractLsb' 19 1) f.a f.b)
  | _ => none

/-- R208, major 0x0D: the instruction of each fn. -/
def pick0D (w : BitVec 32) (f : Fields) : Option Instr :=
  match f.fn with
  | 0 => some (.pand (w.extractLsb' 23 3) (w.extractLsb' 20 3) (w.extractLsb' 19 1) (w.extractLsb' 12 3) (w.extractLsb' 5 3))
  | 1 => some (.por (w.extractLsb' 23 3) (w.extractLsb' 20 3) (w.extractLsb' 19 1) (w.extractLsb' 12 3) (w.extractLsb' 5 3))
  | 2 => some (.pxor (w.extractLsb' 23 3) (w.extractLsb' 20 3) (w.extractLsb' 19 1) (w.extractLsb' 12 3) (w.extractLsb' 5 3))
  | 3 => some (.pandn (w.extractLsb' 23 3) (w.extractLsb' 20 3) (w.extractLsb' 19 1) (w.extractLsb' 12 3) (w.extractLsb' 5 3))
  | 4 => some (.pmov (w.extractLsb' 23 3) (w.extractLsb' 20 3) (w.extractLsb' 19 1) (w.extractLsb' 12 3))
  | 5 => some (.pnot (w.extractLsb' 23 3) (w.extractLsb' 20 3) (w.extractLsb' 19 1) (w.extractLsb' 12 3))
  | 6 => some (.pset (w.extractLsb' 23 3) (w.extractLsb' 20 3) (w.extractLsb' 19 1) (w.extractLsb' 12 1))
  | _ => none

/-- R208, major 0x11: the instruction of each fn. -/
def pick11 (f : Fields) : Option Instr :=
  match f.fn with
  | 0 => some (.jr f.a)
  | 1 => some (.jlr f.d f.a)
  | _ => none

/-- R208, major 0x1D: the instruction of each fn. -/
def pick1D (w : BitVec 32) (f : Fields) : Option Instr :=
  match f.fn with
  | 0 => some (.ldV f.d f.a)
  | 1 => some (.stV f.a f.b)
  | 2 => some (.ldFe f.d f.a)
  | 3 => some (.ldFx f.d f.a)
  | 4 => some (.stEf f.a f.b)
  | 5 => some (.stFs f.a f.b)
  | 6 => some (.stFc f.a f.b)
  | 7 => some (.stN (w.extractLsb' 19 1) f.a f.b)
  | 8 => some (.ldN f.d f.a (w.extractLsb' 5 1))
  | 9 => some (.watch f.a)
  | 10 => some (.unwatch f.a)
  | 11 => some (.waita)
  | 12 => some (.vGather f.d f.a f.b)
  | 13 => some (.vScatter f.d f.a f.b)
  | _ => none

/-- R208, major 0x1E: the instruction of each fn. -/
def pick1E (f : Fields) : Option Instr :=
  match f.fn with
  | 0 => some (.amoAdd f.d f.a f.b)
  | 1 => some (.amoAnd f.d f.a f.b)
  | 2 => some (.amoOr f.d f.a f.b)
  | 3 => some (.amoXor f.d f.a f.b)
  | 4 => some (.amoMin f.d f.a f.b)
  | 5 => some (.amoMax f.d f.a f.b)
  | 6 => some (.amoXchg f.d f.a f.b)
  | 7 => some (.amoCas f.d f.a f.b)
  | 8 => some (.redAdd f.a f.b)
  | 9 => some (.redOr f.a f.b)
  | 10 => some (.redMax f.a f.b)
  | 11 => some (.redEw f.d f.a f.b)
  | _ => none

/-- R208, major 0x1F: the instruction of each fn. -/
def pick1F (w : BitVec 32) (f : Fields) : Option Instr :=
  match f.fn with
  | 0 => some (.fence (w.extractLsb' 19 3))
  | 1 => some (.acq (w.extractLsb' 19 3))
  | 2 => some (.rel (w.extractLsb' 19 3))
  | 3 => some (.ifence)
  | 4 => some (.publish f.a)
  | 5 => some (.yield)
  | 6 => some (.mig f.a (w.extractLsb' 19 1 ++ f.b))
  | _ => none

/-- R208, major 0x21: the instruction of each fn. -/
def pick21 (f : Fields) : Option Instr :=
  match f.fn with
  | 0 => some (.barInit f.d f.a f.b)
  | 1 => some (.barJoin f.a)
  | 2 => some (.barArrive f.d f.a)
  | 3 => some (.barDrop f.d f.a)
  | 4 => some (.barExpect f.a f.b)
  | 5 => some (.barWait f.a f.b)
  | 6 => some (.barTest f.d f.a f.b)
  | 7 => some (.barTwait f.d f.a f.b)
  | 8 => some (.barInval f.a)
  | 9 => some (.sync)
  | _ => none

/-- R208, major 0x22: the instruction of each fn. -/
def pick22 (f : Fields) : Option Instr :=
  match f.fn with
  | 0 => some (.smsg f.a f.b)
  | 1 => some (.rmsg f.d)
  | 2 => some (.wmsg f.d)
  | 3 => some (.mq f.d)
  | _ => none

/-- R208, major 0x23: the instruction of each fn. -/
def pick23 (f : Fields) : Option Instr :=
  match f.fn with
  | 0 => some (.spawn f.a)
  | 1 => some (.spawnh f.a)
  | 2 => some (.exit)
  | 3 => some (.cntInit f.a f.b)
  | 4 => some (.cntAdd f.a f.b)
  | _ => none

/-- R208, major 0x28: the instruction of each fn. -/
def pick28 (f : Fields) : Option Instr :=
  match f.fn with
  | 0 => some (.fAdd f.d f.a f.b)
  | 1 => some (.fSub f.d f.a f.b)
  | 2 => some (.fMul f.d f.a f.b)
  | 3 => some (.fDiv f.d f.a f.b)
  | 4 => some (.fSqrt f.d f.a)
  | 5 => some (.fMin f.d f.a f.b)
  | 6 => some (.fMax f.d f.a f.b)
  | 7 => some (.fFma f.d f.a f.b)
  | 8 => some (.fAbs f.d f.a)
  | 9 => some (.fNeg f.d f.a)
  | 10 => some (.fCvtFi f.d f.a)
  | 11 => some (.fCvtIf f.d f.a)
  | 12 => some (.fCvtIft f.d f.a)
  | 13 => some (.fCvtBf f.d f.a)
  | 14 => some (.fCvtFb f.d f.a)
  | 15 => some (.fCvt8f f.d f.a)
  | 16 => some (.fCvtF8 f.d f.a)
  | 17 => some (.fClass f.d f.a)
  | _ => none

/-- R208, major 0x29: the instruction of each fn. -/
def pick29 (f : Fields) : Option Instr :=
  match f.fn with
  | 0 => some (.vfAdd f.d f.a f.b)
  | 1 => some (.vfSub f.d f.a f.b)
  | 2 => some (.vfMul f.d f.a f.b)
  | 3 => some (.vfDiv f.d f.a f.b)
  | 4 => some (.vfSqrt f.d f.a)
  | 5 => some (.vfFma f.d f.a f.b)
  | 6 => some (.vfNeg f.d f.a)
  | 7 => some (.vfAbs f.d f.a)
  | 8 => some (.vfRnd f.d f.a)
  | 9 => some (.vfFromF f.d f.a)
  | 10 => some (.vfFromI f.d f.a)
  | 11 => some (.vfToF f.d f.a)
  | 12 => some (.vfToI f.d f.a)
  | 13 => some (.vfMov f.d f.a)
  | _ => none

/-- R208, major 0x2C: the instruction of each fn. -/
def pick2C (f : Fields) : Option Instr :=
  match f.fn with
  | 0 => some (.vAddI32 f.d f.a f.b)
  | 1 => some (.vSubI32 f.d f.a f.b)
  | 2 => some (.vMulI32 f.d f.a f.b)
  | 3 => some (.vMinI32 f.d f.a f.b)
  | 4 => some (.vMaxI32 f.d f.a f.b)
  | 5 => some (.vAnd f.d f.a f.b)
  | 6 => some (.vOr f.d f.a f.b)
  | 7 => some (.vXor f.d f.a f.b)
  | 8 => some (.vShl f.d f.a f.b)
  | 9 => some (.vShr f.d f.a f.b)
  | 10 => some (.vSra f.d f.a f.b)
  | 11 => some (.vDot8 f.d f.a f.b)
  | 12 => some (.vSumI32 f.d f.a)
  | 13 => some (.vBcast f.d f.a)
  | 14 => some (.vPerm f.d f.a f.b)
  | 15 => some (.vSel f.d f.a f.b)
  | 16 => some (.vCmpeqI32 f.d f.a f.b)
  | 17 => some (.vCmpltI32 f.d f.a f.b)
  | 18 => some (.vExt f.d f.a f.b)
  | 19 => some (.vIns f.d f.a f.b)
  | _ => none

/-- R208, major 0x2D: the instruction of each fn. -/
def pick2D (f : Fields) : Option Instr :=
  match f.fn with
  | 0 => some (.vAddF32 f.d f.a f.b)
  | 1 => some (.vSubF32 f.d f.a f.b)
  | 2 => some (.vMulF32 f.d f.a f.b)
  | 3 => some (.vFmaF32 f.d f.a f.b)
  | 4 => some (.vMinF32 f.d f.a f.b)
  | 5 => some (.vMaxF32 f.d f.a f.b)
  | 6 => some (.vSumF32 f.d f.a)
  | 7 => some (.vRcpF32 f.d f.a)
  | 8 => some (.vCvtFi f.d f.a)
  | 9 => some (.vCvtIf f.d f.a)
  | 10 => some (.vCvtBf f.d f.a)
  | 11 => some (.vCvtFb f.d f.a)
  | 12 => some (.vCmpltF32 f.d f.a f.b)
  | 13 => some (.vMax0 f.d f.a)
  | _ => none

/-- R208, major 0x34: the instruction of each fn. -/
def pick34 (f : Fields) : Option Instr :=
  match f.fn with
  | 0 => some (.accClr f.d)
  | 1 => some (.accRd f.d f.a f.b)
  | 2 => some (.accWr f.d f.a)
  | _ => none

/-- R208, major 0x35: the instruction of each fn. -/
def pick35 (f : Fields) : Option Instr :=
  match f.fn with
  | 0 => some (.xprg f.d f.a)
  | 1 => some (.xswp f.d)
  | 2 => some (.xmv f.d f.a f.b)
  | 3 => some (.xmvt f.d f.a f.b)
  | 4 => some (.xcal f.d f.a f.b)
  | 5 => some (.xacc f.d f.a)
  | 6 => some (.xstat f.d)
  | _ => none

/-- R208, major 0x36: the instruction of each fn. -/
def pick36 (f : Fields) : Option Instr :=
  match f.fn with
  | 0 => some (.jlk f.d f.a f.b)
  | 1 => some (.jgs f.d f.a f.b)
  | 2 => some (.jmul f.d f.a f.b)
  | 3 => some (.jexp f.d f.a)
  | 4 => some (.jenum f.d f.a)
  | 5 => some (.jdelta f.d f.a f.b)
  | 6 => some (.cleave f.d f.a f.b)
  | 7 => some (.isect f.d f.a)
  | 8 => some (.jstat f.d)
  | _ => none

/-- R208, major 0x37: the instruction of each fn. -/
def pick37 (f : Fields) : Option Instr :=
  match f.fn with
  | 0 => some (.pct f.d f.a f.b)
  | 1 => some (.prd f.d f.a f.b)
  | 2 => some (.parm f.a)
  | 3 => some (.povl f.a)
  | 4 => some (.pstat f.d f.a)
  | _ => none

/-- R208, major 0x38: the instruction of each fn. -/
def pick38 (f : Fields) : Option Instr :=
  match f.fn with
  | 0 => some (.cpQ f.d f.a)
  | 1 => some (.cpKill f.a)
  | _ => none

/-- R208, major 0x39: the instruction of each fn. -/
def pick39 (w : BitVec 32) (f : Fields) : Option Instr :=
  match f.fn with
  | 0 => some (.trap (w.extractLsb' 5 14))
  | 1 => some (.eret)
  | 2 => some (.brk (w.extractLsb' 5 14))
  | 3 => some (.tlbinv f.a)
  | 4 => some (.csave)
  | 5 => some (.crest)
  | 6 => some (.halt)
  | 7 => some (.pstop f.a)
  | _ => none

/-- R204, major 0x09: imm[7:6] selects the shift. -/
def pick09 (w : BitVec 32) (f : Fields) : Option Instr :=
  match (w.extractLsb' 6 2).toNat with
  | 0 => some (.slli f.d f.a (w.extractLsb' 0 6))
  | 1 => some (.srli f.d f.a (w.extractLsb' 0 6))
  | 2 => some (.srai f.d f.a (w.extractLsb' 0 6))
  | _ => none

/-- R208: the instruction that a major and the fn of a word select, its fields read by R203 and R204. -/
def pickMajor (m : Nat) (w : BitVec 32) (f : Fields) : Option Instr :=
  match m with
  | 0x01 => pick01 f
  | 0x02 => pick02 f
  | 0x03 => some (.addi f.d f.a (w.extractLsb' 0 12))
  | 0x04 => some (.andi f.d f.a (w.extractLsb' 0 12))
  | 0x05 => some (.ori f.d f.a (w.extractLsb' 0 12))
  | 0x06 => some (.xori f.d f.a (w.extractLsb' 0 12))
  | 0x07 => some (.slti f.d f.a (w.extractLsb' 0 12))
  | 0x08 => some (.sltiu f.d f.a (w.extractLsb' 0 12))
  | 0x09 => pick09 w f
  | 0x0A => some (.lui f.d (w.extractLsb' 0 19))
  | 0x0B => some (.adpc f.d (w.extractLsb' 0 19))
  | 0x0C => pick0C w f
  | 0x0D => pick0D w f
  | 0x0E => some (.bp (w.extractLsb' 25 1) (w.extractLsb' 22 3) (w.extractLsb' 0 22))
  | 0x0F => some (.br (w.extractLsb' 0 26))
  | 0x10 => some (.bl (w.extractLsb' 0 26))
  | 0x11 => pick11 f
  | 0x12 => some (.ldB f.d f.a (w.extractLsb' 0 12))
  | 0x13 => some (.ldBu f.d f.a (w.extractLsb' 0 12))
  | 0x14 => some (.ldH f.d f.a (w.extractLsb' 0 12))
  | 0x15 => some (.ldHu f.d f.a (w.extractLsb' 0 12))
  | 0x16 => some (.ldW f.d f.a (w.extractLsb' 0 12))
  | 0x17 => some (.ldWu f.d f.a (w.extractLsb' 0 12))
  | 0x18 => some (.ldD f.d f.a (w.extractLsb' 0 12))
  | 0x19 => some (.stB (immS w) f.a f.b)
  | 0x1A => some (.stH (immS w) f.a f.b)
  | 0x1B => some (.stW (immS w) f.a f.b)
  | 0x1C => some (.stD (immS w) f.a f.b)
  | 0x1D => pick1D w f
  | 0x1E => pick1E f
  | 0x1F => pick1F w f
  | 0x20 => some (.wait (w.extractLsb' 22 4) (w.extractLsb' 18 4) (w.extractLsb' 14 4) (w.extractLsb' 10 4))
  | 0x21 => pick21 f
  | 0x22 => pick22 f
  | 0x23 => pick23 f
  | 0x24 => some (.mfs f.d (w.extractLsb' 0 12))
  | 0x25 => some (.mts f.a (w.extractLsb' 0 12))
  | 0x26 => some (.rdx f.d f.a (w.extractLsb' 0 12))
  | 0x27 => some (.wrx (immS w) f.a f.b)
  | 0x28 => pick28 f
  | 0x29 => pick29 f
  | 0x2A => some (.vfLd f.d f.a (w.extractLsb' 0 12))
  | 0x2B => some (.vfSt (immS w) f.a f.b)
  | 0x2C => pick2C f
  | 0x2D => pick2D f
  | 0x2E => some (.vLi f.d (w.extractLsb' 0 19))
  | 0x30 => some (.mmaI8 f.d f.a f.b (w.extractLsb' 3 2) (w.extractLsb' 2 1) (w.extractLsb' 1 1))
  | 0x31 => some (.mmaF8 f.d f.a f.b (w.extractLsb' 3 2) (w.extractLsb' 2 1) (w.extractLsb' 1 1))
  | 0x32 => some (.mmaB16 f.d f.a f.b (w.extractLsb' 3 2) (w.extractLsb' 2 1) (w.extractLsb' 1 1))
  | 0x33 => some (.mmaQ4 f.d f.a f.b (w.extractLsb' 3 2) (w.extractLsb' 2 1) (w.extractLsb' 1 1))
  | 0x34 => pick34 f
  | 0x35 => pick35 f
  | 0x36 => pick36 f
  | 0x37 => pick37 f
  | 0x38 => pick38 f
  | 0x39 => pick39 w f
  | 0x3B => some (.pskip (w.extractLsb' 25 1) (w.extractLsb' 22 3) (w.extractLsb' 0 4))
  | _ => none

/-- R208: the instruction that a word's major and fn select. -/
def pick (w : BitVec 32) : Option Instr := pickMajor (w.extractLsb' 26 6).toNat w (fieldsOf w)

/-- R207, steps 1 to 3: the instruction a word is, or none. -/
def decode (w : BitVec 32) : Option Instr :=
  match pick w with
  | some i => if encode i = w ∧ i.wf = true then some i else none
  | none => none

/-- R202: the little-endian 32-bit value of four bytes. -/
def wordOfBytes (b0 b1 b2 b3 : BitVec 8) : BitVec 32 := b3 ++ b2 ++ b1 ++ b0

/-- Decoding from a run of bytes: the instruction and the bytes after it (R202), or none when the bytes are too few or
are not an instruction. -/
def decodeBytes : List (BitVec 8) → Option (Instr × List (BitVec 8))
  | b0 :: b1 :: b2 :: b3 :: rest => (decode (wordOfBytes b0 b1 b2 b3)).map (fun i => (i, rest))
  | _ => none

/-- The bytes of a word as memory holds them, lowest address first (R202). -/
def bytesOfWord (w : BitVec 32) : List (BitVec 8) :=
  [w.extractLsb' 0 8, w.extractLsb' 8 8, w.extractLsb' 16 8, w.extractLsb' 24 8]

/-- The instruction the decoder reads from an instruction whose bits are w, as the table numbers them. Every word of the
part has 32 bits; the bits above nbits are 0. A row without an encoding has no bits and decodes to nothing. -/
def decodeTableWord (nbits w : Nat) : Option Instr :=
  if nbits = 32 then (decodeBytes (bytesOfWord (BitVec.ofNat 32 w))).map (·.1) else none

end Sys2Proof
end

