-- ==== Sys2Proof/Config.lean ====
section
/-! DEFINITION. Sys2Proof/Config.lean: the values that the spec leaves open. None has a body, so nothing can be proved of
a value of one of them; a free value is one of these functions applied to a counter that the state holds (log 5), and a
statement about it holds whatever it is. -/

namespace Sys2Proof.Config

/-- Draw number n of a 64-bit value that the spec leaves open (log 5). -/
opaque freeWord : Nat → BitVec 64

/-- Draw number n of a 32-bit value that the spec leaves open: a crossbar output before its bound is applied (R97), log 11. -/
opaque freeOutput : Nat → BitVec 32

/-- Draw number n of a reference deviation, in units of 2^-8 of sx times sw (R147, R149), log 12. -/
opaque freeDeviation : Nat → Nat

/-- Draw number n of the random source's 48-bit nonces (R363), log 13. -/
opaque freeNonce : Nat → BitVec 48

/-- Draw number n of the key store's random source (R352), log 13. -/
opaque freeKey : Nat → BitVec 256

/-- The byte at an address of a save area that was written by save number n: ciphertext that the spec does not give
(R74), log 10. -/
opaque cipherByte : Nat → Nat → BitVec 8

/-- The number of entries of a function's MSI-X table (R334), log 16. -/
opaque msixTableSize : Nat → Nat

/-- SHAKE256 of the firmware image, 64 bytes, by which the boot ROM extends MEAS0 (R354), log 18. -/
opaque firmwareDigest : BitVec 512

end Sys2Proof.Config
end

