-- ==== Sys2Proof/Machine/State.lean ====
section
/-! DEFINITION. Sys2Proof/Machine/State.lean: everything the spec gives the machine, as plain data, and the machine right
after reset. Cores are numbered 64 y + x (R2); number 4,096 is the Vrelell core (R21), which is held as a core with 512
cells, 4 slots and 64 mailbox entries. -/

namespace Sys2Proof.Machine

/-- Why the machine stops with a fault. No instruction of the spec ends in one: every failure the spec describes is a
trap, a deferred fault, a FAULTED record or a halted partition, all of them next states. -/
inductive Fault where
  /-- The agenda names a turn of an agent that the part does not have (a core number above 4,096 or a mason unit above
  4,095). Raised by step. Safe: the hardware has no such turn. -/
  | noSuchAgent (g : Nat)
  /-- The agenda names an instruction word as an event: words are run from memory only. Raised by step. Safe: the hardware
  has no such event. -/
  | notAnEvent (i : Instr)
deriving DecidableEq, Repr

/-- Why an instruction is refused. -/
inductive Refusal where
  /-- The instruction has no meaning in the model yet. Raised by an arm of exec. Safe: nothing is claimed of it. -/
  | notModelled (mnemonic : String)
deriving DecidableEq, Repr

/-- Privilege levels (R213), ascending. -/
inductive Level where
  | user
  | sup
  | mgmt
deriving DecidableEq, Repr

/-- A 64-bit value with its bound tag (R9, R98). -/
structure Tagged where
  v : Word := 0
  t : Bool := false
deriving DecidableEq, Repr

/-- Who executes a word: a slot of a core, or the mason unit of a core's channel (R20). -/
inductive Agent where
  | slot (g k : Nat)
  | mason (g : Nat)
deriving DecidableEq, Repr

/-- The counters of outstanding operations, by class (R180, TSTAT.CLASS of R369). -/
inductive CClass where
  | loads
  | stores
  | copies
  | tiles
deriving DecidableEq, Repr

/-- A deferred fault of a slot that is not yet reported (R374). -/
structure Pending where
  /-- The operation's number, which gives the issue order (R376). -/
  order : Nat
  /-- The cause code (R370). -/
  code : Nat
  /-- The residue. -/
  val : Word
  cls : CClass
  seq : Nat
  sub : Nat
  major : Nat
  fn : Nat
deriving DecidableEq, Repr

/-- The access kinds of R71. -/
inductive Access where
  | load
  | store
  | atomic
  | fetch
  | copyRead
  | copyWrite
deriving DecidableEq, Repr

/-- What a blocked slot waits for (R264). A slot blocked on an answer is released by the event that answers; in every
other case the instruction is issued again once what it waits for has come about. -/
inductive Block where
  /-- The counters at or below four limits (R272). -/
  | wait (l s c t : Nat)
  /-- The answer or the application of operation id (R264, R419). -/
  | answer (id : Nat)
  /-- The page walk of operation id (R73). -/
  | walk (id : Nat)
  /-- A word in the input queue of direction dir, 1 to 4 (R178). -/
  | portRead (dir : Nat)
  /-- Room in the queue that a write to direction dir goes to (R178). -/
  | portWrite (dir : Nat)
  /-- A message held for the slot (R275). -/
  | mail
  /-- The watch ready bit (R175). -/
  | ready
  /-- The gang's members having issued as many syncs (R173). -/
  | sync
  /-- The drops of an exit to be possible: no object on a frozen core, no unit that applies other operations first (R169,
  R285). -/
  | drops
  /-- The engine operations of the slot's core (R285). -/
  | engines
  /-- The slot's own operations to complete before the task kill ends (R377); stopped says that a pstop has named the slot
  since (R346), and byExit that the kill is an exit in the handler. -/
  | dying (stopped byExit : Bool)
  /-- The last step of a task kill before the vacancy: node operation id, which sets ERR and decrements, to be applied (R377);
  stopped and byExit as in dying. -/
  | killNode (id : Nat) (stopped byExit : Bool)
  /-- The slot's own operations to complete, in halt or in a pstop of the own slot (R287, R288). -/
  | halting
  /-- The copy that a cp.kill names to be over: all its rows stand and what is left of it cannot be done yet (R318). -/
  | copyEnd (id : Nat)
  /-- The intersections of the partition that have begun to be over, in a publish (R68). -/
  | begun
  /-- The slot's own engine operations to complete before the stop ends (R287); abandoned says that a blocked instruction
  was given up. -/
  | stopping (abandoned : Bool)
  /-- The stop of slot k of the same core, by a pstop (R287). -/
  | stopOf (k : Nat)
  /-- A Vrelell engine to become free: 0 signature, 1 hash, 2 key store, 3 measurement, 4 fuses; since is the cycle in which
  the slot began to wait (R358). -/
  | vrEngine (e since : Nat)
deriving DecidableEq, Repr

/-- A task record of 64 bytes as the part carries it (R33, R35), and where the keystone flag of R52 stands. -/
structure TaskRec where
  image : Word := 0
  ctl : Word := 0
  node : Word := 0
  a0 : Word := 0
  a1 : Word := 0
  a2 : Word := 0
  a3 : Word := 0
  hint : Word := 0
deriving DecidableEq, Repr

/-- One slot of a core. -/
structure Slot where
  bound : Bool := false
  /-- The next instruction's address. A jump may leave an address of 2^49 or more, which the fetch then refuses (R228). -/
  pc : Word := 0
  level : Level := .user
  inHandler : Bool := false
  ovf : Bool := false
  wbase : BitVec 11 := 0
  wlim : BitVec 8 := 0
  /-- The dispatcher's own record of the slot's window: first unit and number of units (R32). -/
  allocBase : Nat := 0
  allocUnits : Nat := 0
  pred : BitVec 8 := 1
  prec : BitVec 10 := 64
  vctl : Word := 0
  fctl : Word := 0
  tshp : Word := 0
  csrc : Word := 0
  cdst : Word := 0
  cstr1 : Word := 0
  cstr2 : Word := 0
  cdstr1 : Word := 0
  cdstr2 : Word := 0
  cdim : Word := 0
  cbnd : Word := 0
  ccvt : Word := 0
  cdone : Word := 0
  cval : Word := 0
  cres : Word := 0
  /-- The sticky flags NV, OF, UF, NX of CSTAT[19:16]. -/
  cflags : BitVec 4 := 0
  bmem0 : Word := 0
  bmem1 : Word := 0
  bmem2 : Word := 0
  bmem3 : Word := 0
  task : Word := 0
  tcause : Word := 0
  tval : Word := 0
  tepc : Word := 0
  tstat : Word := 0
  ks0 : Word := 0
  ks1 : Word := 0
  ks2 : Word := 0
  ks3 : Word := 0
  ks4 : Word := 0
  ks5 : Word := 0
  ks6 : Word := 0
  ks7 : Word := 0
  loads : Nat := 0
  stores : Nat := 0
  copies : Nat := 0
  tiles : Nat := 0
  /-- The next sequence number (R374). -/
  seq : BitVec 16 := 0
  /-- Pending faults in issue order (R375). -/
  pend : List Pending := []
  /-- Watched scratch words of the slot's own core, by word index (R175). -/
  watches : List Nat := []
  ready : Bool := false
  /-- The relational status bits (R309). -/
  relBits : BitVec 4 := 0
  drop : Nat := 0
  /-- Input queues of pn, pe, ps, pw, oldest first (R178). -/
  qn : List Tagged := []
  qe : List Tagged := []
  qs : List Tagged := []
  qw : List Tagged := []
  blocked : Option Block := none
  /-- The gang the thread belongs to and its index there, and the syncs it has issued (R173). -/
  gang : Option (Nat × Nat) := none
  syncs : Nat := 0
  /-- The cycle of the slot's last issue (R27). -/
  lastIssue : Option Nat := none
  /-- After yield: the cycle in which the exclusion ends and the slots that must have had a turn first (R269). -/
  yieldTo : Option Nat := none
  yieldFor : List Nat := []
  /-- The image whose header the task's first instruction has yet to be checked against (R36, R217). -/
  header : Option Word := none
  /-- Memberships that migrated with the thread, BMEM0 to BMEM3 being 0: the barrier objects' physical addresses (R51). -/
  moved : List Nat := []
  /-- The port write that the slot was blocked on is discarded when it is issued again (R179). -/
  discard : Bool := false
  /-- The cycle in which the slot began to wait for the Vrelell engine that its mts is now to start (R358). -/
  since : Option Nat := none
  /-- The port words that the instruction has taken, with their directions: a trap that it takes while it waits gives them
  back (R264). -/
  taken : List (Nat × Tagged) := []
  /-- The word fetched for the instruction that the slot will issue again (R217, R347). -/
  fetched : Option (BitVec 32) := none
  /-- The result of the slot's last port read, while it is still to be written: its first physical cell, how many, and the cycle
  from which they may be named (R27, R28). -/
  portDst : Option (Nat × Nat × Nat) := none
deriving DecidableEq, Repr

/-- An entry of the translation buffer (R73): a leaf of any size. -/
structure TlbEntry where
  asid : BitVec 16
  /-- The page's first virtual address and its size as a power of two. -/
  va : Nat
  shift : Nat
  pa : Nat
  /-- Bits [7:0] of the leaf. -/
  flags : BitVec 8
deriving DecidableEq, Repr

/-- A mailbox entry with the slot it is held for (R177). -/
structure Mail where
  slot : Nat
  payload : Word
  header : Word
deriving DecidableEq, Repr

/-- A declared shadow entry (R66): view base and size in bytes, and the half now in view. -/
structure Shadow where
  vbase : Nat
  size : Nat
  cur : Bool := false
deriving DecidableEq, Repr

/-- Bank states of R145. -/
inductive BankState where
  | unprog
  | prog
  | cal
  | drift
deriving DecidableEq, Repr

/-- A crossbar weight bank (R145, R146). -/
structure Bank where
  st : BankState := .unprog
  /-- Codes by row group: 4,096 signed bytes, row-major; a group that is not listed holds code 0. -/
  codes : Sparse (List Byte) := []
  /-- The 256 column scales, FP32. -/
  scales : List (BitVec 32) := []
  swt : BitVec 32 := 0
  /-- The core's CYC at the last successful xcal. -/
  date : Nat := 0
deriving DecidableEq, Repr

/-- A crossbar tile. -/
structure Tile where
  bank0 : Bank := {}
  bank1 : Bank := {}
  active : Bool := false
deriving DecidableEq, Repr

/-- A continuation that the serving unit holds for want of room (R48), and the parent node, by
physical address, that it then decrements. -/
structure HeldCont where
  task : TaskRec
  parent : Option Nat
  err : Bool
deriving DecidableEq, Repr

/-- The steal state of a core (R41). -/
structure Steal where
  /-- Position of the next victim in the sweep. -/
  next : Nat := 0
  /-- A request is out. -/
  asked : Bool := false
  /-- The request that is out belongs to a sweep that has been abandoned. -/
  stale : Bool := false
  /-- The cycle in which a new sweep may begin, after every victim refused. -/
  retryAt : Option Nat := none
deriving DecidableEq, Repr

/-- A dump in progress: the values of the cycle it began in (R341). -/
structure Dump where
  cyc : Nat
  cls : Sparse Word
  hist : Sparse Word
deriving DecidableEq, Repr

/-- A sample that has come due: the slot it names with the address of its instruction, or none for NONE, and the cycle
(R343). -/
structure SampleDue where
  named : Option (Nat × Word)
  cyc : Nat
  /-- What the cycle counts after the count that reached PERIOD. -/
  rest : Nat := 0
  /-- EVENT of SMPL in that cycle. -/
  event : Nat := 0
deriving DecidableEq, Repr

/-- One core. -/
structure Core where
  rf : Sparse Tagged := []
  slots : Sparse Slot := []
  ptr : Nat := 63
  cyc : Nat := 0
  tvec : Word := 0
  ptroot : Word := 0
  asid : Word := 0
  xcals : Word := 0x0100
  xbnd : Word := 0
  /-- The reference deviation that PEAK, TILE and BANK of XBND tell of, unsaturated, when one has been noted since the last
  read (R149). -/
  peak : Option Nat := none
  smpl : Word := 0
  spc : Word := 0
  pstop : Word := 0
  icache : Sparse (BitVec 32) := []
  tlb : List TlbEntry := []
  /-- Deque levels, oldest task first (R38). -/
  dqHigh : List TaskRec := []
  dqNorm : List TaskRec := []
  conts : List HeldCont := []
  mailbox : List Mail := []
  shadow : Sparse Shadow := []
  acc : Sparse Word := []
  tiles : Sparse Tile := []
  cls : Sparse Word := []
  hist : Sparse Word := []
  dump : Option Dump := none
  sampleCount : Nat := 0
  /-- The cycle of the last mts of SMPL, which counts under what SMPL held before it (R214, R343). -/
  smplAt : Option Nat := none
  /-- The sample that is due (R343). -/
  sampleDue : Option SampleDue := none
  freezeNext : Bool := false
  steal : Steal := {}
  /-- Frozen by the csave of this slot (R285). -/
  frozen : Option Nat := none
  saveSeq : Nat := 0
  /-- One binding by the dispatcher or a hinted task has been made in this cycle (R39, R43). -/
  boundThisCycle : Bool := false
  /-- Runs of units freed in this cycle, which may be allocated in the next (R40). -/
  freed : List (Nat × Nat) := []
  /-- The trace records of this cycle: the slot and the two words (R345). -/
  recs : List (Nat × Word × Word) := []
deriving DecidableEq, Repr

/-- A rule slot of a mason unit (R162). -/
structure RuleSlot where
  image : List (BitVec 32) := []
  e : BitVec 32 := 0
  hp : List (BitVec 32) := []
deriving DecidableEq, Repr

/-- A contribution to a parameter record (R154): its record, element offset and 16 values. -/
structure Contribution where
  /-- The physical address of the record. -/
  pa : Nat
  off : Word
  g : List (BitVec 32)
  /-- The operation that carries it. -/
  op : Nat
deriving DecidableEq, Repr

/-- One word that a store writes: the aligned physical address, the 16 nibble enables (R69) and the data's tag. -/
structure WordWrite where
  pa : Nat
  data : Word
  en : BitVec 16
  tag : Bool
deriving DecidableEq, Repr

/-- What the latest update of a record has overwritten, which a copy may still read while the prd that returned the new
generation orders nothing before it (R186, R414): the record, the slot of that prd once there is one, and each word changed, by
physical address, as it was and as it has become. -/
structure Stale where
  record : Nat
  reader : Option (Nat × Nat) := none
  words : List (Nat × Word × Word)
deriving DecidableEq, Repr

/-- The mason unit of one channel (R20, R156, R157). -/
structure Mason where
  regs : Sparse Word := []
  pred : BitVec 8 := 1
  fctl : Word := 0
  pc : Nat := 0
  /-- The record being updated and the rule slot of the run. -/
  run : Option Nat := none
  image : List (BitVec 32) := []
  cycles : Nat := 0
  queue : List Nat := []
  held : List Contribution := []
  rules : Sparse RuleSlot := []
  /-- Overlay stores of the run that have not reached memory, oldest first (R160; log 100). -/
  buf : List WordWrite := []
  /-- What the unit's last update has overwritten (R186, R414; log 101). -/
  stale : Option Stale := none
deriving DecidableEq, Repr

/-- How the bytes that a load reads become cells (R231, R233, R235, R237). -/
inductive LoadShape where
  /-- n bytes, sign-extended or not, into one cell. -/
  | scalar (n : Nat) (signed : Bool)
  /-- One nibble of a byte: its number. -/
  | nibble (h : Bool)
  /-- 64 bytes into a vector group; whether they are read in one event, or word by word. -/
  | vec (whole : Bool)
  /-- 16 words of 4 bytes, one per lane. -/
  | gather
  /-- A VF image at a virtual address: its parts are the four bytes of its head; whether it is read in one event. -/
  | vf (va : Word) (whole : Bool)
deriving DecidableEq, Repr

/-- amo.* (R239). -/
inductive Amo where
  | add | and | or | xor | min | max | xchg | cas
deriving DecidableEq, Repr

/-- red.* (R240): red.ew adds a converted integer, as red.add does. -/
inductive Red where
  | add | or | max
deriving DecidableEq, Repr

/-- Full and empty instructions (R174, R234). -/
inductive FullEmpty where
  | ldFe | ldFx | stEf | stFs | stFc
deriving DecidableEq, Repr

/-- Barrier operations (R168, R273, R274). -/
inductive BarOp where
  | init (ctl bexp : Word)
  | join
  | arrive
  | drop
  | expect (n : Word)
  | wait (token : BitVec 16)
  | test (token : BitVec 16)
  | twait (token : BitVec 16) (limit : Nat)
  | inval
deriving DecidableEq, Repr

/-- Counter-node operations (R279); a decrement may also set ERR (R377). -/
inductive NodeOp where
  | init (v : Word)
  | add (v : Word)
  | dec (err : Bool)
deriving DecidableEq, Repr

/-- The formats of mma (R95). -/
inductive MmaFmt where
  | i8 | f8 | b16 | q4
deriving DecidableEq, Repr

/-- The operations of the matrix engine, the crossbar tiles and the relational unit, and the reads of parameter records. -/
inductive Eng where
  | mma (f : MmaFmt) (msel : Nat) (acc bt : Bool)
  | accClr | accRd | accWr
  | xprg | xswp | xcal | xmv | xmvt
  | jlk | jgs | jmul | jexp | jenum | jdelta | cleave | isect | jstat
  | prd | pstat
deriving DecidableEq, Repr

/-- The controls of a copy as they stood at its launch (R135, R136). -/
structure CopyCtl where
  csrc : Word
  cdst : Word
  cstr1 : Word
  cstr2 : Word
  cdstr1 : Word
  cdstr2 : Word
  cdim : Word
  cbnd : Word
  ccvt : Word
  cdone : Word
  cval : Word
deriving DecidableEq, Repr

/-- A thread that migrates (R51): what it carries. -/
structure Migrant where
  target : Nat
  pc : Word
  level : Level
  pred : BitVec 8
  fctl : Word
  prec : BitVec 10
  vctl : Word
  wlim : BitVec 8
  cells : List Tagged
  task : Word
  /-- The barrier objects of its memberships, by physical address. -/
  members : List Nat
  gang : Option (Nat × Nat)
  syncs : Nat
deriving DecidableEq, Repr

/-- What the answer to a barrier or node operation carries back (R419). -/
inductive Answer where
  /-- Applied; a token or code to write, if the form writes one. -/
  | applied (v : Option Word)
  /-- A bar.test was applied at the object; its code. It still takes the refusal of a bar.init or bar.inval (R274). -/
  | tested (pa : Nat) (code : Word)
  /-- Refused with a BAR subcode, the object's address in TVAL. -/
  | refused (sub : Nat)
  /-- The unit met an uncorrectable error: the cause and subcode of the trap that the slot takes, and the address of the word
  (R61, R392). -/
  | soft (code sub : Nat) (va : Word)
  /-- A bar.twait refused; the refusal counts up to the cycle that its limit names (R274). -/
  | refusedBy (sub deadline : Nat)
deriving DecidableEq, Repr

/-- What an operation in flight is. -/
inductive OpKind where
  /-- A load: its shape, the physical addresses of its parts, each with whether it goes through a class-B page, and the
  physical cell it writes (none for name zero). -/
  | load (sh : LoadShape) (parts : List (Nat × Bool)) (dst : Option Nat)
  /-- A store: the words it writes, in order. -/
  | store (ws : List WordWrite)
  | atomic (f : Amo) (pa : Nat) (y : Tagged) (cmp : Word) (classB : Bool) (dst : Option Nat)
  | red (f : Red) (pa : Nat) (y : Tagged) (classB : Bool)
  /-- A full or empty operation at a physical address; va is the address that the slot named. -/
  | fullEmpty (f : FullEmpty) (pa : Nat) (va : Word) (y : Tagged) (dst : Option Nat)
  /-- A page walk for a slot's access. -/
  | walk (va : Nat) (kind : Access)
  /-- A message on its way to a slot of a core (R177). -/
  | msg (tg tk : Nat) (payload header : Word)
  /-- A message to the host endpoint, or a host notice without an entry (R334). -/
  | hostMsg (vec : Nat) (entry : Option (Word × Word))
  /-- A message to a slot of a core of another package of the join group (R176). -/
  | fabricMsg (pkg tg tk : Nat) (payload header : Word)
  /-- A word sent to a neighbour's input queue, 1 to 4 in the neighbour's own naming (R178). -/
  | portWord (tg tk dir : Nat) (w : Tagged)
  /-- A counter-node operation at a physical address; va is the address that the slot named; it ends the slot's exit when
  ofExit is set. -/
  | node (pa : Nat) (va : Word) (op : NodeOp) (ofExit : Bool)
  /-- The answer of a node operation, on its way back. -/
  | nodeAnswer
  /-- The answer of a node operation that met an uncorrectable error: the cause and subcode of the trap that the slot takes,
  and the address of the word (R61, R392). -/
  | nodeSoft (code sub : Nat) (va : Word)
  /-- A barrier operation at a physical address; va is the address the instruction named. -/
  | bar (pa : Nat) (va : Word) (op : BarOp) (dst : Option Nat)
  /-- A wait applied at distance 0, pending at the object; deadline in cycles of the issuing core for bar.twait. -/
  | barPending (pa : Nat) (va : Word) (token : BitVec 16) (deadline : Option Nat) (dst : Option Nat)
  /-- The answer of a barrier operation on its way back. -/
  | barAnswer (va : Word) (ans : Answer) (dst : Option Nat)
  /-- The completion notice of a phase on its way to a waiting slot. -/
  | barNotice (va : Word) (code : Nat) (deadline : Option Nat) (dst : Option Nat)
  /-- A spawned task that will join the deque of its core (R38). -/
  | spawn (task : TaskRec)
  /-- A steal request from a core to a victim, with the thief's longest free run in units (R41). -/
  | stealReq (victim run : Nat)
  /-- The answer to a steal request. -/
  | stealAns (task : Option TaskRec) (high : Bool)
  /-- A hinted task: where it is on its route, and its target core (R43). -/
  | hinted (task : TaskRec) (pos target : Nat) (first : Bool)
  /-- A gang request on its way to the pkg node: its cores in member order (R45). -/
  | gangReq (task : TaskRec) (cores : List Nat)
  | migrant (m : Migrant)
  /-- A copy with its transfer id (R136). -/
  | copy (c : CopyCtl) (tid : Nat)
  /-- An engine operation: the cells d, a, b and the special register that it depends on (TSHP of mma, XCALS of xmv and
  xmvt) as read at issue (R214), and the cell it writes. -/
  | eng (f : Eng) (d a b tshp : Word) (dst : Option Nat)
  | contrib (va : Word) (off : Word) (g : List (BitVec 32))
  /-- parm: the fields of its descriptor (R153). -/
  | parm (record src : Word) (expect : BitVec 32) (rule h : Nat)
  /-- povl: the fields of its descriptor (R162). -/
  | povl (img : Word) (words : Nat) (e : BitVec 32) (hp : List (BitVec 32)) (slot : Nat)
  /-- A fuse being programmed (R350, R351). -/
  | fuse
  /-- A wipe that has acted and has not ended (R352, R353). -/
  | wipe (mask : Nat) (scrub : Bool)
  /-- An extend of measurement n by the event at a scratch offset, or the copy of all of them to it (R354). -/
  | measure (n addr : Nat) (copy : Bool)
  /-- A verify: BIND, SIGMSG, SIGKEY and SIGSIG as read at issue (R214, R357). -/
  | verify (bind : Bool) (msg key sig : Word)
  /-- A sign: SIGMSG and SIGSIG as read at issue (R357). -/
  | sign (msg sig : Word)
  /-- A hash: SHKIN, SHKLEN and SHKOUT as read at issue (R357). -/
  | shake (inp len out : Word)
deriving DecidableEq, Repr

/-- An operation in flight. -/
structure Op where
  id : Nat
  g : Nat
  k : Nat
  /-- The thread that issued it is still the one in its slot (R287). -/
  live : Bool
  /-- The counter it holds raised. -/
  cls : Option CClass
  seq : Nat
  major : Nat
  fn : Nat
  /-- PTROOT, ASID and the level at issue, for an engine's translations (R214). -/
  ptroot : Word
  asid : Word := 0
  level : Level
  kind : OpKind
  /-- Words, by address, that an engine has read ahead for the operation, the latest first: the bitmap words of an isect, by
virtual address (R115, R325), and words of a copy's source, by physical address (R414). -/
  early : List (Word × Word) := []
  /-- The words, by virtual address, that an isect has taken its records from, each read once (R308, R325). -/
  found : List (Word × Word) := []
  /-- The aligned words, by physical address, that a load of several has read ahead, with their tags (R182, R233, R237, R256). -/
  got : List (Nat × Tagged) := []
  /-- Parts of the operation that have been performed before its end, by number: the output words of an isect (R325), the
  lanes of an acc.rd (R414), and part 0 of a copy, its rows (R186). -/
  parts : List Nat := []
  /-- The order of arrival of an operation that waits at its unit, its word or its mailbox (R48, R174, R177). -/
  arr : Option Nat := none
deriving DecidableEq, Repr

/-- What a csave wrote to a core's save area (R75, R76, R381). The bytes themselves are ciphertext (log 10). -/
structure SaveImage where
  core : Core
  /-- Scratch bytes and tags of the core, by byte offset and by word index. -/
  scratch : List Host.Cell
  stags : Sparse (BitVec 3)
  /-- SEQ after the save (R75). -/
  seq : Nat
  /-- The CORE value saved in the header. -/
  coreValue : Word
  /-- The barrier unit's pending waits (R75). -/
  barPend : List Op
  /-- The draw from which the ciphertext is taken. -/
  seed : Nat
  /-- The tenant key it was written under. -/
  key : Option (BitVec 256)
  /-- Addresses written since; a written area fails the integrity check of R286. -/
  written : List Nat
  /-- The number that the next operation had at the save. -/
  nextId : Nat
deriving DecidableEq, Repr

/-- Where a gang stands (R46). -/
inductive GangState where
  | admitted
  | reserving
  | bound
deriving DecidableEq, Repr

/-- A gang (R45, R46, R173). -/
structure Gang where
  id : Nat
  task : TaskRec
  cores : List Nat
  st : GangState := .admitted
  slot : Nat := 0
  /-- Cores that hold their reservation, with the first unit of the window reserved. -/
  held : Sparse Nat := []
  part : Nat := 0
  /-- For each member, by its index: the syncs it has issued, none once it has exited. -/
  counts : List (Option Nat) := []
deriving DecidableEq, Repr

/-- STATE of PARTSTAT (R328). -/
inductive PartState where
  | reset
  | running
  | startFailed
  | halted
deriving DecidableEq, Repr

/-- A partition (R327, R328). -/
structure Partition where
  dies : BitVec 16 := 0
  st : PartState := .reset
  cause : BitVec 4 := 0
  kcheck : BitVec 8 := 0
  approx : Bool := false
  /-- An xacc has been applied since the last fence record (R332). -/
  approxFence : Bool := false
  ndrop : BitVec 16 := 0
  resets : BitVec 32 := 0
  nvf : BitVec 7 := 0
  key : Option (BitVec 256) := none
  ideTorn : Bool := false
  /-- A reset step has ended, and the start waits for the key store (R352, R353). -/
  starting : Bool := false
  /-- The cycle of the Vrelell core in which that start reached the key store (R352). -/
  reached : Nat := 0
  /-- Packages of the join group, this one included; 0 when the partition is in no group (R336). -/
  group : BitVec 16 := 0
deriving DecidableEq, Repr

/-- An installed seal (R359). -/
structure Seal where
  part : Nat
  slot : Nat
  base : Nat
  pages : Nat
  table : Nat
deriving DecidableEq, Repr

/-- The registers and engines that only the Vrelell core has (R211, R350 to R364). -/
structure Vrelell where
  lcs : BitVec 3 := 0
  fuses : Sparse Word := []
  fusea : BitVec 6 := 0
  sigmsg : Word := 0
  sigkey : Word := 0
  sigsig : Word := 0
  /-- DONE, VALID, BOUND, UNLOCK in bits 1 to 4 and ERR in bits 7 to 5, as SIGRES places them; BUSY is read from the
  operations in flight. -/
  sigres : BitVec 8 := 0
  shkin : Word := 0
  shklen : Word := 0
  shkout : Word := 0
  kwipe : Word := 0
  swept : Bool := false
  extd : Bool := false
  kerr : BitVec 3 := 0
  dbgOpen : Bool := false
  nonce : BitVec 48 := 0
  meas : Sparse (BitVec 512) := []
  mext : Word := 0
deriving DecidableEq, Repr

/-- What a probe on the open debug port asks of the Vrelell core (R364). -/
inductive Probe where
  /-- A management-level read of the 8-byte word at a Vrelell address (R349). -/
  | readMem (addr : Word)
  /-- A management-level write of the 8-byte word at a Vrelell address. -/
  | writeMem (addr v : Word)
  /-- A read of a special register as Vrelell slot k reads it. -/
  | readReg (k : Nat) (number : BitVec 12)
  /-- A write of a special register as Vrelell slot k writes it. -/
  | writeReg (k : Nat) (number : BitVec 12) (v : Word)
  /-- pstop of slot k of core g (R287, R364). -/
  | stop (g k : Nat)
deriving DecidableEq, Repr

/-- The arguments of an event: which operation, core, slot or partition it is about, and the data that come from outside
the machine. Each event's meaning says which of them it reads. -/
structure EvArg where
  id : Nat := 0
  g : Nat := 0
  k : Nat := 0
  p : Nat := 0
  off : Nat := 0
  v : Word := 0
  en : BitVec 16 := 0
  d : Name := 0
  opt : Option Nat := none
  probe : Probe := .readMem 0
  args : List Word := []
deriving DecidableEq, Repr

/-- A turn of the machine: an event with its arguments, a cycle of a core (the Vrelell core included), or a cycle of a
mason unit. -/
inductive Turn where
  | event (i : Instr) (a : EvArg)
  | core (g : Nat)
  | mason (g : Nat)
deriving DecidableEq, Repr

/-- What a host read answers (R329, R353). -/
inductive HostData where
  | word (w : Word)
  /-- The word cannot be delivered: poison (R329). -/
  | poison
  /-- The partition is torn down: an unsupported request (R353). -/
  | unsupported
deriving DecidableEq, Repr

/-- What the last instruction turn came to (R27, R338). -/
inductive TurnResult where
  | idle
  | issued
  | forfeited
  | blocked
deriving DecidableEq, Repr

/-- The machine. -/
structure State where
  /-- Bytes by physical address (R56); Vrelell scratch stands at 2^48 and up (R349). -/
  mem : List Host.Cell := []
  /-- Tags of scratch words by address div 8: bit 0 full, bit 1 watch, bit 2 bound (R60, R75). -/
  tags : Sparse (BitVec 3) := []
  /-- Words, by address div 8, that hold an uncorrectable error (R392). -/
  bad : List Nat := []
  cores : Sparse Core := []
  masons : Sparse Mason := []
  ops : List Op := []
  nextId : Nat := 0
  gangs : List Gang := []
  parts : Sparse Partition := []
  monitor : Sparse Nat := []
  vfs : Sparse Nat := []
  masked : List Nat := []
  pkgId : BitVec 4 := 0
  irqs : List (Nat × Nat) := []
  msixMasked : List (Nat × Nat) := []
  /-- Results of host reads, newest first (R329, R353). -/
  hostReads : List HostData := []
  probeReads : List (Option Word) := []
  /-- Messages that left for a joined package: package and core, and what was sent. -/
  fabricOut : List ((Nat × Nat) × Mail) := []
  seals : List Seal := []
  saves : Sparse SaveImage := []
  vr : Vrelell := {}
  /-- The MODEL'S OWN counter of draws of free values (log 5). -/
  free : Nat := 0
  /-- The MODEL'S OWN list of turns to take (log 1). -/
  agenda : List Turn := []
  rr : Nat := 0
  cur : Agent := .slot 0 0
  turn : TurnResult := .idle
  ev : EvArg := {}
deriving DecidableEq, Repr

/-- The machine right after reset: every register at its reset value, no die assigned, nothing bound, memory with nothing
listed; the first turn is the package reset, in which the random source and the boot ROM act (R354, R363; log 1, 18). -/
def State.reset : State := { agenda := [.event .packageReset {}] }

end Sys2Proof.Machine
end

