-- ==== Sys2Proof/Machine/Ops.lean ====
section
/-! DEFINITION. Sys2Proof/Machine/Ops.lean: the named operations that every meaning is built from: coordinates and the
physical map, cores and slots, memory with its tags, translation and the access checks, operations in flight, the
outcome of an instruction, barrier objects, and taking an exception and returning from one. -/

namespace Sys2Proof.Machine

/-! ### Coordinates and the physical map (R2, R12, R19, R56) -/

/-- The number under which the Vrelell core is held (R21). -/
def vrNum : Nat := 4096

/-- x of core g. -/
def coreX (g : Nat) : Nat := g % 64

/-- y of core g. -/
def coreY (g : Nat) : Nat := g / 64

/-- R2: the die of a core. -/
def dieOf (g : Nat) : Nat := 4 * (coreY g / 16) + coreX g / 16

/-- R2: the local index of a core within its die. -/
def localOf (g : Nat) : Nat := 16 * (coreY g % 16) + coreX g % 16

/-- The core at a die and a local index (R2, R12). -/
def coreAt (die loc : Nat) : Nat := 64 * (16 * (die / 4) + loc / 16) + (16 * (die % 4) + loc % 16)

/-- R19: the first physical address of a core's channel. -/
def chanBase (g : Nat) : Nat := dieOf g * 2 ^ 37 + localOf g * 2 ^ 29

/-- R56: the first physical address of a core's scratch window; the Vrelell core's scratch stands at 2^48 (R349). -/
def scrBase (g : Nat) : Nat :=
  if g = vrNum then 2 ^ 48 else 2 ^ 44 + dieOf g * 2 ^ 28 + localOf g * 2 ^ 20

/-- Bytes of scratch of a core (R58) and of the Vrelell core (R21). -/
def scrSize (g : Nat) : Nat := if g = vrNum then 2 ^ 18 else 2 ^ 20

/-- Mesh distance of two cores (R41, R43). -/
def meshDist (g h : Nat) : Nat :=
  (coreX g - coreX h) + (coreX h - coreX g) + ((coreY g - coreY h) + (coreY h - coreY g))

/-- Where a physical address lies (R56). -/
inductive Region where
  | chan (g off : Nat)
  | scratch (g off : Nat)
  | host
  | fabric (pkg : Nat) (scr : Bool)
  | hole
deriving DecidableEq, Repr

/-- R56: the region of a physical address. -/
def region (pa : Nat) : Region :=
  if 2 ^ 48 ≤ pa then (if pa < 2 ^ 48 + 2 ^ 18 then .scratch vrNum (pa - 2 ^ 48) else .hole)
  else if 2 ^ 47 ≤ pa then
    (if pa / 2 ^ 42 % 2 = 0 then
      (if pa / 2 ^ 41 % 2 = 0 then .fabric (pa / 2 ^ 43 % 16) false else .hole)
    else (if pa / 2 ^ 32 % 2 ^ 10 = 0 then .fabric (pa / 2 ^ 43 % 16) true else .hole))
  else if 2 ^ 46 ≤ pa then .host
  else if pa < 2 ^ 41 then .chan (coreAt (pa / 2 ^ 37) (pa / 2 ^ 29 % 256)) (pa % 2 ^ 29)
  else if 2 ^ 44 ≤ pa ∧ pa < 2 ^ 44 + 2 ^ 32 then
    .scratch (coreAt (pa / 2 ^ 28 % 16) (pa / 2 ^ 20 % 256)) (pa % 2 ^ 20)
  else .hole

/-- Whether a region is scratch storage with tags (R60). -/
def Region.tagged : Region → Bool
  | .scratch _ _ => true
  | _ => false

/-- R74: the first offset of a channel's save area. -/
def saveOff : Nat := 0x1FE00000

/-- R340: the first offset of a channel's observation area. -/
def obsOff : Nat := 0x1FDFC000

/-- R330: the first offset of the host block in the first core's channel. -/
def hostOff : Nat := 0x1FDF0000

/-! ### Cores, slots, partitions -/

/-- Core g. -/
def State.core (s : State) (g : Nat) : Core := Sparse.get {} s.cores g

/-- The state with core g replaced. -/
def State.setCore (s : State) (g : Nat) (c : Core) : State := { s with cores := Sparse.put s.cores g c }

/-- Slot k of core g. -/
def State.slot (s : State) (g k : Nat) : Slot := Sparse.get {} (s.core g).slots k

/-- The state with slot k of core g replaced. -/
def State.setSlot (s : State) (g k : Nat) (x : Slot) : State :=
  s.setCore g { s.core g with slots := Sparse.put (s.core g).slots k x }

/-- The mason unit of core g's channel. -/
def State.mason (s : State) (g : Nat) : Mason := Sparse.get {} s.masons g

/-- The state with the mason unit of core g's channel replaced. -/
def State.setMason (s : State) (g : Nat) (m : Mason) : State := { s with masons := Sparse.put s.masons g m }

/-- Partition p. -/
def State.part (s : State) (p : Nat) : Partition := Sparse.get {} s.parts p

/-- The state with partition p replaced. -/
def State.setPart (s : State) (p : Nat) (x : Partition) : State := { s with parts := Sparse.put s.parts p x }

/-- R327: the partition that a core's die belongs to. -/
def State.partOf (s : State) (g : Nat) : Option Nat :=
  if 4096 ≤ g then none else (s.parts.find? (fun e => e.2.dies.getLsbD (dieOf g))).map (·.1)

/-- Slots of a core (R15, R21). -/
def numSlots (g : Nat) : Nat := if g = vrNum then 4 else 64

/-- Cells of a core's register file (R15, R21). -/
def numCells (g : Nat) : Nat := if g = vrNum then 512 else 2048

/-- Whether a core is masked (R25). -/
def State.isMasked (s : State) (g : Nat) : Bool := s.masked.contains g

/-- R329: the unmasked cores of a partition by ascending die and then ascending local index. -/
def State.partCores (s : State) (p : Nat) : List Nat :=
  (List.range 16).flatMap (fun d =>
    if (s.part p).dies.getLsbD d then
      ((List.range 256).map (coreAt d)).filter (fun g => !s.isMasked g)
    else [])

/-- R52: the first core of a partition. -/
def State.firstCore (s : State) (p : Nat) : Option Nat :=
  (List.range 16).findSome? (fun d =>
    if (s.part p).dies.getLsbD d then
      ((List.range 256).map (coreAt d)).find? (fun g => !s.isMasked g)
    else none)

/-- R52: whether a slot is slot 63 of its partition's first core. -/
def State.isKeystone (s : State) (g k : Nat) : Bool :=
  k = 63 && (match s.partOf g with | some p => s.firstCore p = some g | none => false)

/-- R18: the CORE value of a core; the Vrelell core reads that of core (0, 0) (R211). -/
def State.coreValue (s : State) (g : Nat) : Word :=
  let h := if g = vrNum then 0 else g
  BitVec.ofNat 64 (localOf h + dieOf h * 2 ^ 8 + coreX h * 2 ^ 16 + coreY h * 2 ^ 24 + s.pkgId.toNat * 2 ^ 32)

/-! ### Memory (R6, R56, R60, R66, R67, R69) -/

/-- What memory holds at an address; an unlisted address reads as 0 (R61; log 3). -/
def Memory.get (m : List Host.Cell) (a : Nat) : Byte := Sparse.get 0 m a

/-- Memory with one byte written: an entry that would be 0 is not listed. -/
def Memory.put (m : List Host.Cell) (a : Nat) (v : Byte) : List Host.Cell :=
  if v = 0 then Sparse.del m a else Sparse.put m a v

/-- The canonical form of memory: addresses strictly rising, and no entry that an unlisted address would read as. -/
def Memory.wf : List Host.Cell → Bool
  | [] => true
  | [(_, v)] => v ≠ 0
  | (a, v) :: (b, w) :: t => v ≠ 0 && a < b && Memory.wf ((b, w) :: t)

/-- The shadow entry of a core whose view holds a scratch offset (R66). -/
def Core.viewOf (c : Core) (off : Nat) : Option Shadow :=
  (c.shadow.find? (fun e => e.2.vbase ≤ off && off < e.2.vbase + e.2.size)).map (·.2)

/-- R66, R67: the address at which an access to a physical address is stored: in a shadow view, the half now in view, or
the hidden half for an engine's write. -/
def State.storage (s : State) (pa : Nat) (hidden : Bool) : Nat :=
  match region pa with
  | .scratch g off =>
    match (s.core g).viewOf off with
    | some e => if (e.cur ^^ hidden) then pa + e.size else pa
    | none => pa
  | _ => pa

/-- The byte stored at an address; a save area that csave has written holds ciphertext (R74; log 10). -/
def State.rawByte (s : State) (pa : Nat) : Byte :=
  match region pa with
  | .chan g off =>
    if off < saveOff then Memory.get s.mem pa
    else match s.saves.find? (fun e => e.1 = g) with
      | some (_, im) => if im.written.contains pa then Memory.get s.mem pa else Config.cipherByte im.seed pa
      | none => Memory.get s.mem pa
  | _ => Memory.get s.mem pa

/-- The byte that a slot's or an engine's read of a physical address gives. -/
def State.byte (s : State) (pa : Nat) : Byte := s.rawByte (s.storage pa false)

/-- The little-endian value of n bytes from an address. -/
def State.readN (s : State) (pa : Nat) : Nat → Nat
  | 0 => 0
  | n + 1 => (s.byte pa).toNat + 256 * s.readN (pa + 1) n

/-- mem64 (R7). -/
def State.read64 (s : State) (pa : Nat) : Word := BitVec.ofNat 64 (s.readN pa 8)

/-- mem32 (R7). -/
def State.read32 (s : State) (pa : Nat) : BitVec 32 := BitVec.ofNat 32 (s.readN pa 4)

/-- The tags of the scratch word at an address, as an access sees them. -/
def State.tagOf (s : State) (pa : Nat) : BitVec 3 := Sparse.get 0 s.tags (s.storage pa false / 8)

/-- The OR of the bound tags of the scratch words that n bytes from an address touch (R60). -/
def State.boundTag (s : State) (pa n : Nat) : Bool :=
  (region pa).tagged &&
    (List.range ((pa + n + 7) / 8 - pa / 8)).any (fun j => (s.tagOf (8 * (pa / 8 + j))).getLsbD 2)

/-- The first word among those that n bytes from an address touch that holds an uncorrectable error (R392). -/
def State.badWord (s : State) (pa n : Nat) : Option Nat :=
  if s.bad.isEmpty then none
  else ((List.range ((pa + n + 7) / 8 - pa / 8)).map (fun j => 8 * (pa / 8 + j))).find?
    (fun a => s.bad.contains (s.storage a false / 8))

/-- The cause and subcode of an uncorrectable error by where the word lies (R392); a host window read that errs or returns
poison is an XLT (R326). -/
def softCause (pa : Nat) : Nat × Nat :=
  match region pa with
  | .scratch _ _ | .fabric _ true => (0x12, 1)
  | .host => (0x05, 0)
  | _ => (0x12, 3)

/-- The write of one byte with two nibble enables (R69). -/
def State.putByte (s : State) (pa : Nat) (v : Byte) (lo hi : Bool) : State :=
  if lo || hi then
    let old := s.rawByte pa
    let l : BitVec 4 := if lo then v.extractLsb' 0 4 else old.extractLsb' 0 4
    let h : BitVec 4 := if hi then v.extractLsb' 4 4 else old.extractLsb' 4 4
    let s' := { s with mem := Memory.put s.mem pa (h ++ l) }
    match region pa with
    | .chan g off =>
      if off < saveOff then s'
      else { s' with saves := s'.saves.map (fun e =>
              if e.1 = g then (e.1, { e.2 with written := pa :: e.2.written }) else e) }
    | _ => s'
  else s

/-- The bytes of an aligned word written from byte j on, n of them. -/
def State.putBytes (s : State) (pa : Nat) (data : Word) (en : BitVec 16) : Nat → State
  | 0 => s
  | n + 1 =>
    let j := 7 - n
    (s.putByte (pa + j) (data.extractLsb' (8 * j) 8) (en.getLsbD (2 * j)) (en.getLsbD (2 * j + 1))).putBytes pa data en n

/-- R60: the bound tag of a scratch word after a store: the data's tag for a whole word, the OR for a part. -/
def storeTag (old : BitVec 3) (en : BitVec 16) (t : Bool) : BitVec 3 :=
  let b := if en = 0xFFFF then t else (old.getLsbD 2 || t)
  BitVec.ofBool b ++ old.extractLsb' 0 2

/-- The write of one aligned word: enabled nibbles (R69), the bound tag (R60), and fresh check bits when the whole word
is replaced (R392). Hidden says that an engine writes (R67). -/
def State.putWord (s : State) (w : WordWrite) (hidden : Bool) : State :=
  let a := s.storage w.pa hidden
  let s1 := s.putBytes a w.data w.en 8
  let s2 := if (region w.pa).tagged then
      { s1 with tags := Sparse.put s1.tags (a / 8) (storeTag (Sparse.get 0 s1.tags (a / 8)) w.en w.tag) } else s1
  if w.en = 0xFFFF then { s2 with bad := s2.bad.filter (fun x => x ≠ a / 8) } else s2

/-- R175: a write to a watched word sets the ready bit of every slot watching it, but for the writing slot's own write. In a
shadow view the word is found by its offset in the view, whichever half is written: R67 does not say whether an engine's
write of the hidden half wakes the watch of the view's word, and in the model it does (log 80). -/
def State.wake (s : State) (pa : Nat) (by' : Option (Nat × Nat)) : State :=
  match region pa with
  | .scratch g off =>
    let c := s.core g
    if c.slots.any (fun e => e.2.watches.contains (off / 8)) then
      s.setCore g { c with slots := c.slots.map (fun e =>
        if e.2.watches.contains (off / 8) && by' ≠ some (g, e.1) then (e.1, { e.2 with ready := true }) else e) }
    else s
  | _ => s

/-- A write of an aligned word by a slot, an engine or the host, with the watches it wakes. -/
def State.write (s : State) (by' : Option (Nat × Nat)) (w : WordWrite) (hidden : Bool := false) : State :=
  (s.putWord w hidden).wake w.pa by'

/-- The enables of n bytes from byte offset o of a word. -/
def byteEn (o n : Nat) : BitVec 16 := BitVec.ofNat 16 ((2 ^ (2 * n) - 1) * 2 ^ (2 * o))

/-- A write of n bytes, 1, 2, 4 or 8, that lies in one aligned word. -/
def wordWrite (pa n : Nat) (v : Word) (t : Bool) : WordWrite :=
  { pa := 8 * (pa / 8), data := v <<< (8 * (pa % 8)), en := byteEn (pa % 8) n, tag := t }

/-- A plain write of a whole aligned word by a unit, with a clear tag. -/
def State.write64 (s : State) (pa : Nat) (v : Word) (hidden : Bool := false) : State :=
  s.write none { pa := pa, data := v, en := 0xFFFF, tag := false } hidden

/-- A plain write of an aligned 4-byte value by a unit, with a clear tag. -/
def State.write32 (s : State) (pa : Nat) (v : BitVec 32) (hidden : Bool := false) : State :=
  s.write none (wordWrite pa 4 (v.setWidth 64) false) hidden

/-- A plain write of a byte by a unit, with a clear tag. -/
def State.write8 (s : State) (pa : Nat) (v : Byte) (hidden : Bool := false) : State :=
  s.write none (wordWrite pa 1 (v.setWidth 64) false) hidden

/-- Sets one tag of a scratch word. -/
def State.setTagBit (s : State) (pa j : Nat) (v : Bool) : State :=
  let a := s.storage pa false / 8
  let t := Sparse.get 0 s.tags a
  let t' : BitVec 3 := if v then t ||| (1 <<< j) else t &&& ~~~((1 : BitVec 3) <<< j)
  { s with tags := Sparse.put s.tags a t' }

/-! ### Cause codes (R370) -/

def cILL : Nat := 0x01
def cPRIV : Nat := 0x02
def cWBND : Nat := 0x03
def cALN : Nat := 0x04
def cXLT : Nat := 0x05
def cPERM : Nat := 0x06
def cCLS : Nat := 0x07
def cFPX : Nat := 0x08
def cPXH : Nat := 0x09
def cBND : Nat := 0x0A
def cXDRIFT : Nat := 0x0B
def cXBANK : Nat := 0x0C
def cCPF : Nat := 0x0D
def cRUF : Nat := 0x0E
def cPRF : Nat := 0x0F
def cBAR : Nat := 0x10
def cMIG : Nat := 0x11
def cSOFT : Nat := 0x12
def cTRAPI : Nat := 0x14
def cBRK : Nat := 0x15
def cMSGF : Nat := 0x18

/-! ### Translation and access checks (R54, R55, R57, R63, R65, R71, R74, R349) -/

/-- A failed check: its cause, the value for TVAL and the subcode. -/
structure AccErr where
  code : Nat
  val : Word
  sub : Nat := 0
deriving DecidableEq, Repr

/-- For whom an access is checked: the core and slot, the level, and the translation roots read at issue (R214). -/
structure Ctx where
  g : Nat
  k : Nat
  level : Level
  ptroot : Word
  asid : Word
  /-- Words that a copy has read ahead (R414). -/
  early : List (Word × Word) := []
deriving DecidableEq, Repr

/-- The context of a slot's own accesses. -/
def State.ctx (s : State) (g k : Nat) : Ctx :=
  { g := g, k := k, level := (s.slot g k).level, ptroot := (s.core g).ptroot, asid := (s.core g).asid }

/-- The context of an operation in flight. -/
def State.opCtx (s : State) (op : Op) : Ctx :=
  { g := op.g, k := op.k, level := op.level, ptroot := op.ptroot, asid := op.asid, early := op.early }

/-- A leaf as a walk or the translation buffer gives it (R70, R73). -/
structure Leaf where
  pa : Nat
  shift : Nat
  flags : BitVec 8
deriving DecidableEq, Repr

/-- partition_channel of R71. -/
def State.partChan (s : State) (g pa : Nat) : Bool :=
  match region pa with
  | .chan h _ => (s.partOf g).isSome && s.partOf h = s.partOf g && !s.isMasked h
  | _ => false

/-- The levels of R71: number, shift and index width. -/
def walkLevels : List (Nat × Nat × Nat) := [(3, 33, 16), (2, 21, 12), (1, 12, 9)]

/-- R71: the walk from a table down the levels that are left; a failed walk gives XLT, or SOFT 0x03 for an entry that
cannot be read (R392). -/
def State.walkFrom (s : State) (g va : Nat) : List (Nat × Nat × Nat) → Nat → Except AccErr Leaf
  | [], _ => .error ⟨cXLT, BitVec.ofNat 64 va, 0⟩
  | (lvl, shift, width) :: rest, tbl =>
    let ea := tbl + 8 * (va / 2 ^ shift % 2 ^ width)
    let xlt : Except AccErr Leaf := .error ⟨cXLT, BitVec.ofNat 64 va, 0⟩
    if (s.badWord ea 8).isSome then .error ⟨cSOFT, BitVec.ofNat 64 va, 3⟩
    else
      let e := s.read64 ea
      let pa := (e.extractLsb' 12 36).toNat * 2 ^ 12
      if e.getLsbD 0 = false then xlt
      else if e.getLsbD 1 then
        if lvl = 1 || !s.partChan g pa then xlt
        else if lvl = 3 && pa % 2 ^ 15 ≠ 0 then xlt
        else s.walkFrom g va rest pa
      else if pa % 2 ^ shift ≠ 0 then xlt
      else if e.getLsbD 7 && !s.partChan g pa then xlt
      else .ok { pa := pa, shift := shift, flags := e.extractLsb' 0 8 }

/-- R71, R72: the walk of a virtual address from PTROOT. -/
def State.walk (s : State) (g : Nat) (ptroot : Word) (va : Nat) : Except AccErr Leaf :=
  let tbl := (ptroot.extractLsb' 19 29).toNat * 2 ^ 19
  if ptroot.getLsbD 0 = false || !s.partChan g tbl then .error ⟨cXLT, BitVec.ofNat 64 va, 0⟩
  else s.walkFrom g va walkLevels tbl

/-- What an access is made for, where that changes its checks: the full and empty instructions reach scratch only (R174),
barrier objects stand in scratch (R273), counter nodes in scratch or class-E channel pages (R279), the relational unit and
a copy's flag word reach scratch of the partition under codes of their own (R420, R141). -/
inductive Purpose where
  | plain
  | fullEmpty
  | barrier
  | node
  | relUnit
  | flag
deriving DecidableEq, Repr

/-- A checked address and the class it was reached through: 0 E, 1 B, 2 P, 3 S. -/
structure Target where
  pa : Nat
  cls : Nat
deriving DecidableEq, Repr

/-- R71: which kinds read. -/
def Access.reads : Access → Bool
  | .load | .atomic | .copyRead => true
  | _ => false

/-- R71: which kinds write. -/
def Access.writes : Access → Bool
  | .store | .atomic | .copyWrite => true
  | _ => false

/-- R63: whether a class forbids an access kind. -/
def classDenies (cls : Nat) (kind : Access) : Bool :=
  match cls, kind with
  | 0, _ => false
  | 1, .fetch => true
  | 1, _ => false
  | 2, .load => false
  | 2, .copyRead => false
  | 2, _ => true
  | _, .copyRead => false
  | _, .fetch => false
  | _, _ => true

/-- R57: whether a physical run of n bytes lies in memory that the issuing partition may reach. A fabric address that names the
package's own id is not reachable, which R57 leaves open (log 79). -/
def State.reachable (s : State) (g pa n : Nat) : Bool :=
  match region pa with
  | .chan h off => (s.partOf g).isSome && s.partOf h = s.partOf g && !s.isMasked h && off + n ≤ 2 ^ 29
  | .scratch h off => h ≠ vrNum && (s.partOf g).isSome && s.partOf h = s.partOf g && !s.isMasked h && off + n ≤ 2 ^ 20
  | .host => true
  | .fabric p _ =>
    (match s.partOf g with | some q => (s.part q).group.getLsbD p | none => false) && p ≠ s.pkgId.toNat
  | .hole => false

/-- Whether a physical address lies in scratch of a core of the issuing partition. -/
def State.inPartScratch (s : State) (g pa n : Nat) : Bool :=
  match region pa with
  | .scratch _ _ => s.reachable g pa n
  | _ => false

/-- R67: whether a run of n bytes touches a declared reserve. -/
def State.hitsReserve (s : State) (pa n : Nat) : Bool :=
  match region pa with
  | .scratch g off =>
    (s.core g).shadow.any (fun e => e.2.vbase + e.2.size < off + n && off < e.2.vbase + 2 * e.2.size)
  | _ => false

/-- R360: whether a run of n bytes touches a locked leaf table. -/
def State.inSealTable (s : State) (pa n : Nat) : Bool :=
  s.seals.any (fun e => e.table < pa + n && pa < e.table + 32 * e.pages)

/-- The checks that follow a physical address and class: CLS of R63, R67, R174, R279 and R360, then BND (R63, R65). -/
def State.checkClass (s : State) (va : Word) (pa n cls : Nat) (kind : Access) (use : Purpose) (tagged : Bool) :
    Except AccErr Target :=
  let r := region pa
  if classDenies cls kind then .error ⟨cCLS, va, 0⟩
  else if s.hitsReserve pa n then .error ⟨cCLS, va, 0⟩
  else if use = .fullEmpty && !r.tagged then .error ⟨cCLS, va, 0⟩
  else if use = .node && (match r with | .chan _ _ => cls ≠ 0 | _ => false) then .error ⟨cCLS, va, 0⟩
  else if r = .host && kind = .atomic && use ≠ .flag then .error ⟨cCLS, va, 0⟩
  else if kind.writes && s.inSealTable pa n then .error ⟨cCLS, va, 0⟩
  else if tagged && kind.writes && cls = 0 && !r.tagged then .error ⟨cBND, va, 0⟩
  else .ok { pa := pa, cls := cls }

/-- R71: the permission checks of a leaf. -/
def permFails (f : BitVec 8) (kind : Access) (level : Level) : Bool :=
  (level = .user && !f.getLsbD 5) || (kind.reads && !f.getLsbD 2) || (kind.writes && !f.getLsbD 3)
    || (kind = .fetch && !f.getLsbD 4)

/-- R74: whether a user-level access touches a save area, of this package or of a joined one. -/
def saveAreaDenied (pa n : Nat) (level : Level) : Bool :=
  level = .user && (match region pa with
    | .chan _ off => saveOff ≤ off + n - 1
    | .fabric _ false => saveOff ≤ pa % 2 ^ 29 + n - 1
    | _ => false)

/-- The checks of a translated access in the order of R65: the region (R57), the permissions (R71, R74), the class (R63).
The relational unit finds the region last (R420); a copy's flag word outside scratch, in the host window too, is CPF 0x01 once its
other checks have passed (R141; log 30). -/
def State.checkLeaf (s : State) (c : Ctx) (va n : Nat) (kind : Access) (use : Purpose) (tagged : Bool) (l : Leaf) :
    Except AccErr Target :=
  let v := BitVec.ofNat 64 va
  let pa := l.pa + va % 2 ^ l.shift
  let cls := (l.flags.extractLsb' 6 2).toNat
  let regionOk := match use with
    | .barrier => s.inPartScratch c.g pa n
    | .node => s.inPartScratch c.g pa n || (match region pa with | .chan _ _ => s.reachable c.g pa n | _ => false)
    | .relUnit => true
    | _ => s.reachable c.g pa n
  if !regionOk then .error ⟨cXLT, v, 0⟩
  else if permFails l.flags kind c.level || saveAreaDenied pa n c.level then .error ⟨cPERM, v, 0⟩
  else if use = .relUnit && !classDenies cls kind && !s.inPartScratch c.g pa n then .error ⟨cRUF, v, 9⟩
  else match s.checkClass v pa n cls kind use tagged with
    | .error e => .error e
    | .ok t => if use = .flag && !s.inPartScratch c.g pa n then .error ⟨cCPF, v, 1⟩ else .ok t

/-- R55: an access to the local range. -/
def State.checkLocal (s : State) (c : Ctx) (va n : Nat) (kind : Access) (use : Purpose) (tagged : Bool) :
    Except AccErr Target :=
  let v := BitVec.ofNat 64 va
  if kind = .fetch then .error ⟨cPERM, v, 0⟩
  else if 2 ^ 20 < va + n then .error ⟨cXLT, v, 0⟩
  else s.checkClass v (scrBase c.g + va) n 0 kind use tagged

/-- R349: an access of the Vrelell core. -/
def State.checkVrelell (s : State) (va n : Nat) (kind : Access) (use : Purpose) : Except AccErr Target :=
  let v := BitVec.ofNat 64 va
  let xlt : Except AccErr Target := .error ⟨cXLT, v, 0⟩
  if va < 2 ^ 18 then
    if 2 ^ 18 < va + n || use = .node then xlt else .ok { pa := 2 ^ 48 + va, cls := 0 }
  else if va < 2 ^ 20 || 2 ^ 48 ≤ va then xlt
  else match region va with
    | .chan h off =>
      if s.isMasked h || 2 ^ 29 < off + n || (use = .node && (s.partOf h).isNone) then xlt
      else if use = .fullEmpty then .error ⟨cCLS, v, 0⟩
      else if kind.writes && s.inSealTable va n then .error ⟨cCLS, v, 0⟩
      else .ok { pa := va, cls := 0 }
    | .scratch h off =>
      if s.isMasked h || 2 ^ 20 < off + n || (use = .node && (s.partOf h).isNone) then xlt
      else if s.hitsReserve va n then .error ⟨cCLS, v, 0⟩
      else .ok { pa := va, cls := 0 }
    | .host => if kind = .atomic || use = .fullEmpty then .error ⟨cCLS, v, 0⟩ else .ok { pa := va, cls := 0 }
    | _ => xlt

/-- R20, R157, R360: an access of a mason unit, by physical address in its own channel. -/
def State.checkMason (s : State) (g va n : Nat) (kind : Access) : Except AccErr Target :=
  match region va with
  | .chan h off =>
    if h ≠ g || 2 ^ 29 < off + n then .error ⟨cXLT, BitVec.ofNat 64 va, 0⟩
    else if kind.writes && s.inSealTable va n then .error ⟨cCLS, BitVec.ofNat 64 va, 0⟩
    else .ok { pa := va, cls := 0 }
  | _ => .error ⟨cXLT, BitVec.ofNat 64 va, 0⟩

/-- An engine's access (R55, R65, R71): it walks afresh. Alignment, where it matters, is checked by the caller. -/
def State.engAccess (s : State) (c : Ctx) (va : Word) (n : Nat) (kind : Access) (use : Purpose := .plain)
    (tagged : Bool := false) : Except AccErr Target :=
  if 2 ^ 49 ≤ va.toNat then .error ⟨cXLT, va, 0⟩
  else if c.g = vrNum then s.checkVrelell va.toNat n kind use
  else if va.toNat < 2 ^ 20 then s.checkLocal c va.toNat n kind use tagged
  else match s.walk c.g c.ptroot va.toNat with
    | .ok l => s.checkLeaf c va.toNat n kind use tagged l
    | .error e => .error e

/-- R72, R73: the translation buffer entry of a core that holds an address under the current ASID. With PTROOT.V = 0 there
is none, and the walk then raises XLT. -/
def State.tlbFind (s : State) (g va : Nat) : Option Leaf :=
  let c := s.core g
  if c.ptroot.getLsbD 0 = false then none
  else (c.tlb.find? (fun e => e.asid = c.asid.setWidth 16 && e.va / 2 ^ e.shift = va / 2 ^ e.shift)).map
    (fun e => { pa := e.pa, shift := e.shift, flags := e.flags })

/-- R73: a leaf enters the translation buffer of 256 entries under the ASID that its walk read at issue (R214); the oldest
entry leaves a full buffer (log 8). -/
def State.tlbFill (s : State) (g : Nat) (asid : Word) (va : Nat) (l : Leaf) : State :=
  let c := s.core g
  let t := if 256 ≤ c.tlb.length then c.tlb.drop 1 else c.tlb
  s.setCore g { c with tlb := t ++ [{ asid := asid.setWidth 16, va := va / 2 ^ l.shift * 2 ^ l.shift, shift := l.shift,
                                      pa := l.pa, flags := l.flags }] }

/-! ### Operations in flight (R16, R180, R374) -/

/-- The counter of a class. -/
def Slot.count (x : Slot) : CClass → Nat
  | .loads => x.loads
  | .stores => x.stores
  | .copies => x.copies
  | .tiles => x.tiles

/-- The slot with the counter of a class replaced. -/
def Slot.setCount (x : Slot) (c : CClass) (n : Nat) : Slot :=
  match c with
  | .loads => { x with loads := n }
  | .stores => { x with stores := n }
  | .copies => { x with copies := n }
  | .tiles => { x with tiles := n }

/-- TSTAT's code of a class (R369). -/
def CClass.code : CClass → Nat
  | .loads => 0
  | .stores => 1
  | .copies => 2
  | .tiles => 3

/-- The operation with a number, if it is in flight. -/
def State.op? (s : State) (id : Nat) : Option Op := s.ops.find? (fun o => o.id = id)

/-- The state without an operation. -/
def State.dropOp (s : State) (id : Nat) : State := { s with ops := s.ops.filter (fun o => o.id ≠ id) }

/-- The state with an operation changed. -/
def State.mapOp (s : State) (id : Nat) (f : Op → Op) : State :=
  { s with ops := s.ops.map (fun o => if o.id = id then f o else o) }

/-- Whether parts of an engine operation in flight have been performed (R68, R186, R325). -/
def Op.begun (o : Op) : Bool := !o.early.isEmpty || !o.found.isEmpty || !o.parts.isEmpty

/-- R68: whether an engine operation of a core's partition has begun and not ended. -/
def State.anyBegun (s : State) (g : Nat) : Bool := s.ops.any (fun o => s.partOf o.g = s.partOf g && o.begun)

/-- R68: whether a publish in a core's partition waits for operations that have begun, and holds new ones. -/
def State.publishWaits (s : State) (g : Nat) : Bool :=
  s.cores.any (fun e => s.partOf e.1 = s.partOf g && e.2.slots.any (fun x => x.2.blocked = some .begun))

/-- The state with an operation's kind replaced. -/
def State.setKind (s : State) (id : Nat) (kind : OpKind) : State :=
  { s with ops := s.ops.map (fun o => if o.id = id then { o with kind := kind } else o) }

/-- R27, R369: the fields MAJOR and FN of a word: FN is word[4:0] for formats A and C. -/
def fnOf (w : BitVec 32) : Nat :=
  let m := (w.extractLsb' 26 6).toNat
  if [0x01, 0x02, 0x0C, 0x0D, 0x11, 0x1D, 0x1E, 0x1F, 0x21, 0x22, 0x23, 0x28, 0x29, 0x2C, 0x2D, 0x34, 0x35, 0x36, 0x37,
      0x38, 0x39].contains m then (w.extractLsb' 0 5).toNat else 0

/-- MAJOR of a word. -/
def majorOf (w : BitVec 32) : Nat := (w.extractLsb' 26 6).toNat

/-- An operation enters flight with the next number. -/
def State.addOp (s : State) (g k : Nat) (cls : Option CClass) (seq : Nat) (w : BitVec 32) (kind : OpKind) : State :=
  { s with
    ops := s.ops ++ [{ id := s.nextId, g := g, k := k, live := true, cls := cls, seq := seq, major := majorOf w,
                       fn := fnOf w, ptroot := (s.core g).ptroot, asid := (s.core g).asid, level := (s.slot g k).level,
                       kind := kind }]
    nextId := s.nextId + 1 }

/-- A unit's own operation, which belongs to no thread. -/
def State.addFree (s : State) (g k : Nat) (kind : OpKind) : State :=
  { s with
    ops := s.ops ++ [{ id := s.nextId, g := g, k := k, live := false, cls := none, seq := 0, major := 0, fn := 0,
                       ptroot := (s.core g).ptroot, asid := (s.core g).asid, level := .sup, kind := kind }]
    nextId := s.nextId + 1 }

/-- R180: an operation ends: the counter it holds falls, and it leaves flight. -/
def State.endOp (s : State) (o : Op) : State :=
  let s1 := s.dropOp o.id
  match o.cls, o.live with
  | some c, true =>
    let x := s1.slot o.g o.k
    s1.setSlot o.g o.k (x.setCount c (x.count c - 1))
  | _, _ => s1

/-- R375, R376: pending faults stay in issue order. -/
def insertPending (p : Pending) : List Pending → List Pending
  | [] => [p]
  | q :: t => if p.order < q.order then p :: q :: t else q :: insertPending p t

/-- R374, R375: a fault joins the slot's pending faults; a ninth is discarded and sets ovf. -/
def Slot.addPending (x : Slot) (p : Pending) : Slot :=
  if 8 ≤ x.pend.length then { x with ovf := true } else { x with pend := insertPending p x.pend }

/-- R374: an operation faults: its counter falls and its fault joins the pending faults of the thread that issued it. -/
def State.failOp (s : State) (o : Op) (code : Nat) (val : Word) (sub : Nat) : State :=
  let s1 := s.endOp o
  if o.live then
    let p : Pending := { order := o.id, code := code, val := val, cls := o.cls.getD .tiles, seq := o.seq, sub := sub,
                         major := o.major, fn := o.fn }
    s1.setSlot o.g o.k ((s1.slot o.g o.k).addPending p)
  else s1

/-- k(P): the cells of a VF result of P bits (R91). -/
def vfCells (p : Nat) : Nat := if p ≤ 40 then 1 else 1 + (p - 40 + 63) / 64

/-- The first cell that an operation will write, and how many cells; of vf.ld, the fewest. -/
def OpKind.dst? : OpKind → Option (Nat × Nat)
  | .load (.vec _) _ (some c) | .load .gather _ (some c) => some (c, 8)
  | .load _ _ (some c) => some (c, 1)
  | .atomic _ _ _ _ _ (some c) => some (c, 1)
  | .fullEmpty _ _ _ _ (some c) => some (c, 1)
  | .eng .prd _ _ _ _ (some c) => some (c, 9)
  | .eng _ _ _ _ _ (some c) => some (c, 1)
  | _ => none

/-- The run of cells that an operation will write: vf.ld writes k(P) of them (R91, R254), at the PREC of the slot, which
waits in it. -/
def State.dstOf (s : State) (o : Op) : Option (Nat × Nat) :=
  match o.kind with
  | .load (.vf _ _) _ (some c) => some (c, vfCells (s.slot o.g o.k).prec.toNat)
  | k => k.dst?

/-- Whether a physical cell of a core lies in a run of n cells from cell c, which goes on at cell 0 past the last (log 14). -/
def inRun (g c n cell : Nat) : Bool := (cell + (numCells g - c % numCells g)) % numCells g < n

/-- R27, R28: whether a physical cell awaits the result of an operation of a core. -/
def State.awaits (s : State) (g cell : Nat) : Bool :=
  s.ops.any (fun o => o.live && o.g = g && (match s.dstOf o with
    | some (c, n) => inRun g c n cell
    | none => false))

/-- R27, R28: whether a physical cell awaits the result of a port read of a core. When it is written is a free value (log 98). -/
def State.awaitsPort (s : State) (g cell : Nat) : Bool :=
  (s.core g).slots.any (fun e => match e.2.portDst with
    | some (c, n, t) => (s.core g).cyc < t && inRun g c n cell
    | none => false)

/-- R265: whether an operation is one of the accesses that a release of the same thread must follow. -/
def OpKind.isAccess : OpKind → Bool
  | .load _ _ _ | .store _ | .atomic _ _ _ _ _ _ | .fullEmpty _ _ _ _ _ => true
  | .eng .prd _ _ _ _ _ | .eng .pstat _ _ _ _ _ => true
  | _ => false

/-- Bytes that each part of a load reads. -/
def LoadShape.bytes : LoadShape → Nat
  | .scalar n _ => n
  | .nibble _ => 1
  | .vec _ => 64
  | .gather => 4
  | .vf _ _ => 1

/-- Whether an operation of a slot reads or writes some of n bytes at an address; what a prd or pstat reads is not looked at,
and they count as if they did. -/
def OpKind.touches (pa n : Nat) : OpKind → Bool
  | .load sh parts _ => parts.any (fun e => pa < e.1 + sh.bytes && e.1 < pa + n)
  | .store ws => ws.any (fun w => pa < w.pa + 8 && w.pa < pa + n)
  | .atomic _ q _ _ _ _ => pa < q + 8 && q < pa + n
  | .red _ q _ _ => pa < q + 8 && q < pa + n
  | .fullEmpty _ q _ _ _ => pa < q + 8 && q < pa + n
  | .eng .prd _ _ _ _ _ | .eng .pstat _ _ _ _ _ => true
  | _ => false

/-- R187: whether a slot has accesses in flight to n bytes at an address that it issued before a number: what it does there
next comes after them, and after a prd, whose acquire orders all that follows it (R184). -/
def State.touchedBefore (s : State) (g k id pa n : Nat) : Bool :=
  s.ops.any (fun o => o.g = g && o.k = k && o.id < id && o.kind.touches pa n)

/-- R184, R186: whether a slot has a prd in flight that it issued before a number. What it acquires happens before all that
follows it in program order, and so before the accesses of the slot's later engine operations (log 7). -/
def State.prdAhead (s : State) (g k id : Nat) : Bool :=
  s.ops.any (fun o => o.g = g && o.k = k && o.id < id && (match o.kind with | .eng .prd _ _ _ _ _ => true | _ => false))

/-- R265: whether a barrier operation waits for its thread's earlier accesses; the three reading operations do not. -/
def BarOp.isRelease : BarOp → Bool
  | .wait _ | .test _ | .twait _ _ => false
  | _ => true

/-- R265: whether the accesses that a thread issued before a number have all been performed. -/
def State.performedBefore (s : State) (g k id : Nat) : Bool :=
  !s.ops.any (fun o => o.g = g && o.k = k && o.id < id && o.kind.isAccess)

/-- The next draw of the free values (log 5). -/
def State.draw (s : State) : Nat × State := (s.free, { s with free := s.free + 1 })

/-! ### Trace records and notices (R334, R345) -/

/-- R345: the two words of a trace record. -/
def traceWords (cyc kind k pc detail : Nat) : Word × Word :=
  (BitVec.ofNat 64 (cyc % 2 ^ 48 + kind * 2 ^ 48 + k * 2 ^ 52), BitVec.ofNat 64 (pc % 2 ^ 49 + detail * 2 ^ 49))

/-- R345: an event of kind 1 to 7 is recorded while SMPL.TRACE is set; the record is written when the cycle ends. -/
def State.trace (s : State) (g kind k pc detail : Nat) : State :=
  let c := s.core g
  if g = vrNum || !c.smpl.getLsbD 4 then s
  else s.setCore g { c with recs := c.recs ++ [(k, traceWords c.cyc kind k pc detail)] }

/-- R345: a trace record enters the ring, and TCOUNT counts it. -/
def State.writeRec (s : State) (g : Nat) (w : Word × Word) : State :=
  let base := chanBase g + obsOff
  let n := (s.read64 (base + 0x18)).toNat
  let a := base + 0x2000 + 16 * (n % 512)
  ((s.write64 a w.1).write64 (a + 8) w.2).write64 (base + 0x18) (BitVec.ofNat 64 (n + 1))

/-- R345: the records of a cycle are written in ascending slot order. -/
def State.flushRecs (s : State) (g : Nat) : State :=
  let recs := (s.core g).recs
  let s1 := (List.range (numSlots g)).foldl (fun s k =>
    (recs.filter (fun e => e.1 = k)).foldl (fun s e => s.writeRec g e.2) s) s
  s1.setCore g { s1.core g with recs := [] }

/-- R328: the function that receives a partition's vectors: NVF, or the lowest-numbered function bound to it. -/
def State.notifyFn (s : State) (p : Nat) : Option Nat :=
  let n := (s.part p).nvf.toNat
  if n ≠ 0 then some n else (s.vfs.find? (fun e => e.2 = p)).map (·.1)

/-- R334: raises an MSI-X vector of a partition, or counts the notice as dropped. -/
def State.raiseVector (s : State) (p vec : Nat) : State :=
  let drop := s.setPart p { s.part p with
    ndrop := if (s.part p).ndrop = 0xFFFF then 0xFFFF else (s.part p).ndrop + 1 }
  match s.notifyFn p with
  | some f =>
    if Config.msixTableSize f ≤ vec || s.msixMasked.contains (f, vec) then drop
    else { s with irqs := s.irqs ++ [(f, vec)] }
  | none => drop

/-! ### Barrier objects (R4, R166 to R170) -/

/-- A barrier object as its 32 bytes hold it (R166). -/
structure BarObj where
  phase : BitVec 16
  flags : BitVec 16
  expect : BitVec 16
  arrived : BitVec 16
  drops : BitVec 16
  /-- Bytes 0x0A to 0x0F, reserved. -/
  rest : BitVec 48
  bexp : Word
  barr : Word
deriving DecidableEq, Repr

/-- The object at a physical address. -/
def State.readBar (s : State) (pa : Nat) : BarObj :=
  let w0 := s.read64 pa
  let w1 := s.read64 (pa + 8)
  { phase := w0.extractLsb' 0 16, flags := w0.extractLsb' 16 16, expect := w0.extractLsb' 32 16,
    arrived := w0.extractLsb' 48 16, drops := w1.extractLsb' 0 16, rest := w1.extractLsb' 16 48,
    bexp := s.read64 (pa + 16), barr := s.read64 (pa + 24) }

/-- The object written back: four whole words with clear tags. -/
def State.writeBar (s : State) (pa : Nat) (o : BarObj) : State :=
  (((s.write64 pa (o.arrived ++ o.expect ++ o.flags ++ o.phase)).write64 (pa + 8) (o.rest ++ o.drops)).write64
    (pa + 16) o.bexp).write64 (pa + 24) o.barr

/-- R4: whether the instance of a scope that contains the owner covers core g. -/
def State.covers (s : State) (scope g owner : Nat) : Bool :=
  if g = vrNum || owner = vrNum || s.isMasked g then false
  else match scope with
    | 0 => g = owner
    | 1 => coreX g / 2 = coreX owner / 2 && coreY g / 2 = coreY owner / 2
    | 2 => dieOf g = dieOf owner
    | _ => (s.partOf g).isSome && s.partOf g = s.partOf owner

/-- R168: the phase completes when arrivals and bytes meet their expected values. -/
def BarObj.test (o : BarObj) : BarObj × Bool :=
  if o.arrived = o.expect && o.barr = o.bexp then
    ({ o with phase := o.phase + 1, expect := o.expect - o.drops, arrived := 0, drops := 0, barr := 0 }, true)
  else (o, false)

/-- R167: the checks every operation undergoes, in the order of the table: INVAL, SCOPE and reserved fields, the issuing
core. The answer is the subcode of the first that fails. -/
def State.barCheck (s : State) (o : BarObj) (g owner : Nat) : Option Nat :=
  if o.flags.getLsbD 3 then some 0x01
  else if 5 ≤ (o.flags.extractLsb' 0 3).toNat || o.flags.extractLsb' 4 12 ≠ 0 || o.rest ≠ 0 then some 0x04
  else if !s.covers (o.flags.extractLsb' 0 3).toNat g owner then some 0x02
  else none

/-- The core whose scratch holds a physical address. -/
def ownerOf (pa : Nat) : Nat :=
  match region pa with
  | .scratch g _ => g
  | .chan g _ => g
  | _ => vrNum

/-- R170: the report code of a token: 0 at distance 0, 1 at distance 1, 2 beyond. -/
def barCode (phase token : BitVec 16) : Nat :=
  let d := (phase - token).toNat
  if d = 0 then 0 else if d = 1 then 1 else 2

/-- The waits pending at an object whose phase has changed or that bar.init or bar.inval reached: each is sent its notice,
or its refusal (R170, R274). A bar.twait past its limit is refused no more, and a bar.test not yet answered is refused. -/
def State.barNotify (s : State) (pa : Nat) (phase : BitVec 16) (broken : Bool) : State :=
  { s with ops := s.ops.map (fun o =>
      match o.kind with
      | .barPending q va token dl dst =>
        if q = pa then
          if broken then
            match dl with
            | none => { o with kind := .barAnswer va (.refused 0x06) dst }
            | some t => if (s.core o.g).cyc ≤ t then { o with kind := .barAnswer va (.refusedBy 0x06 t) dst } else o
          else if barCode phase token = 0 then o
          else { o with kind := .barNotice va (barCode phase token) dl dst }
        else o
      | .barAnswer va (.tested q _) dst =>
        if q = pa && broken then { o with kind := .barAnswer va (.refused 0x06) dst } else o
      | _ => o) }

/-- The object after an operation, written back, and its waiters told when a phase has completed (R168, R171). -/
def State.barFinish (s : State) (pa : Nat) (o : BarObj) : State :=
  let t := o.test
  let s1 := s.writeBar pa t.1
  if t.2 then s1.barNotify pa t.1.phase false else s1

/-- BMEM0 to BMEM3 of a slot. -/
def Slot.bmems (x : Slot) : List Word := [x.bmem0, x.bmem1, x.bmem2, x.bmem3]

/-- The slot with one membership register replaced. -/
def Slot.setBmem (x : Slot) (i : Nat) (v : Word) : Slot :=
  match i with
  | 0 => { x with bmem0 := v }
  | 1 => { x with bmem1 := v }
  | 2 => { x with bmem2 := v }
  | _ => { x with bmem3 := v }

/-- R172: the physical address of the object that a membership register names, when it holds one that can be reached. -/
def State.bmemPa (s : State) (g k : Nat) (b : Word) : Option Nat :=
  if !b.getLsbD 63 then none
  else match s.engAccess { s.ctx g k with level := .sup } ((b.extractLsb' 0 49).setWidth 64) 32 .atomic .barrier with
    | .ok t => some t.pa
    | .error _ => none

/-- R172: the membership registers of a slot that name the object at a physical address. -/
def State.heldBy (s : State) (g k pa : Nat) : List Nat :=
  let bs := (s.slot g k).bmems
  (List.range 4).filter (fun i => s.bmemPa g k (bs.getD i 0) = some pa)

/-- R51, R172: how often a slot's memberships name the object at a physical address; those that migrated count. -/
def State.timesHeld (s : State) (g k pa : Nat) : Nat :=
  (s.heldBy g k pa).length + ((s.slot g k).moved.filter (fun q => q = pa)).length

/-- The objects of a slot's memberships, in ascending BMEM order, those that migrated with the thread after them. -/
def State.memberPas (s : State) (g k : Nat) : List Nat :=
  (s.slot g k).bmems.filterMap (s.bmemPa g k) ++ (s.slot g k).moved

/-- R168: the implicit drop of a membership; skipped, without a trap, when a check of R167 fails or the object cannot be read
(R61; log 81). -/
def State.implicitDrop (s : State) (g k pa : Nat) : State :=
  let o := s.readBar pa
  if pa % 32 ≠ 0 || (s.badWord pa 32).isSome then s
  else match s.barCheck o g (ownerOf pa) with
    | some _ => s
    | none =>
      if o.arrived = o.expect || 1 < s.timesHeld g k pa then s
      else s.barFinish pa { o with arrived := o.arrived + 1, drops := o.drops + 1 }

/-- The drops of every membership of a slot, in ascending BMEM order; the slot then holds none (R172, R278). -/
def State.dropAll (s : State) (g k : Nat) : State :=
  if s.memberPas g k = [] then s
  else
    let s1 := (s.memberPas g k).foldl (fun s pa => s.implicitDrop g k pa) s
    s1.setSlot g k { s1.slot g k with bmem0 := 0, bmem1 := 0, bmem2 := 0, bmem3 := 0, moved := [] }

/-! ### Which operations wait on their way (R47, R48, R169, R174, R177, R285, R416; log 7, 69) -/

/-- The core whose scratch holds a physical address. -/
def scratchOwner (pa : Nat) : List Nat :=
  match region pa with
  | .scratch g _ => [g]
  | _ => []

/-- The cores whose scratch, barrier unit, mailbox or port queues an operation reaches; a counter node in a channel is served
by the unit of the core above it (R47). -/
def OpKind.reaches : OpKind → List Nat
  | .load _ parts _ => parts.flatMap (fun e => scratchOwner e.1)
  | .store ws => ws.flatMap (fun w => scratchOwner w.pa)
  | .atomic _ pa _ _ _ _ => scratchOwner pa
  | .red _ pa _ _ => scratchOwner pa
  | .fullEmpty _ pa _ _ _ => scratchOwner pa
  | .node pa _ _ _ => [ownerOf pa]
  | .bar pa _ _ _ => scratchOwner pa
  | .barPending pa _ _ _ _ => scratchOwner pa
  | .msg tg _ _ _ => [tg]
  | .portWord tg _ _ _ => [tg]
  | _ => []

/-- R285: whether an operation waits in the mesh because a core is frozen: one that another core's slot sends to the
frozen core, or one of the frozen core's own slots but the slot that saved it (R383; log 7). -/
def State.frozenOut (s : State) (o : Op) : Bool :=
  (match (s.core o.g).frozen with | some k => o.k ≠ k | none => false)
    || o.kind.reaches.any (fun h => h ≠ o.g && (s.core h).frozen.isSome)

/-- R285: whether a read by core g of a physical address waits in the mesh, because the address lies in the scratch of
another core that is frozen. -/
def State.meshHeld (s : State) (g pa : Nat) : Bool :=
  (scratchOwner pa).any (fun h => h ≠ g && (s.core h).frozen.isSome)

/-- R416: the place of an operation among those that reach a unit in one cycle: ascending (core, slot). No rule gives a core a
single number there; cores are taken in the order of 64 y + x (R2; log 69), and the Vrelell core, 4,096, comes last. -/
def Op.rank (o : Op) : Nat := 64 * o.g + o.k

/-- R416: whether an operation goes before another of the same cycle; two of one slot go in the order of their issue. -/
def Op.outranks (p o : Op) : Bool := p.rank < o.rank || (p.rank = o.rank && p.id < o.id)

/-- R48, R174, R177: whether an operation goes before another at their unit: those that have arrived and wait go in the order
of their arrival, and before those that arrive now. -/
def Op.before (p o : Op) : Bool :=
  match p.arr, o.arr with
  | some a, some b => a < b
  | some _, none => true
  | none, some _ => false
  | none, none => p.outranks o

/-- An operation that must wait where it has arrived takes its place in the order of arrival. -/
def State.arrived (s : State) (o : Op) : State :=
  { s.mapOp o.id (fun p => { p with arr := some s.nextId }) with nextId := s.nextId + 1 }

/-- R48: whether the unit of a core holds 16 continuations and lets no counter-node operation in. -/
def State.unitFull (s : State) (g : Nat) : Bool := 16 ≤ (s.core g).conts.length

/-- The unit that a barrier or counter-node operation is for, when the operation has reached it: no core is frozen on its
way, what R265 puts before it has been performed, and so have its slot's own accesses to the object (R187). -/
def State.atUnit (s : State) (o : Op) : Option Nat :=
  let here (pa : Nat) (release : Bool) : Option Nat :=
    if s.frozenOut o || (o.live && (s.touchedBefore o.g o.k o.id pa 32
      || (release && !s.performedBefore o.g o.k o.id))) then none else some (ownerOf pa)
  match o.kind with
  | .node pa _ _ _ => here pa true
  | .bar pa _ op _ => here pa op.isRelease
  | _ => none

/-- Whether an operation is one on a counter node. -/
def OpKind.isNode : OpKind → Bool
  | .node _ _ _ _ => true
  | _ => false

/-- The operations that have reached the barrier unit of a core and that it lets in: no counter-node operation while the unit
is full (R48). -/
def State.letIn (s : State) (u : Nat) : List Op :=
  s.ops.filter (fun p => s.atUnit p = some u && !(p.kind.isNode && s.unitFull u))

/-- R186: whether a copy that its thread launched before has rows to perform, which go before this copy's releases. -/
def State.copyOlder (s : State) (o : Op) : Bool :=
  s.ops.any (fun p => p.g = o.g && p.k = o.k && p.id < o.id && (p.live || !o.live) && p.parts.isEmpty && (match p.kind with
    | .copy _ _ => true
    | _ => false))

/-- Whether an engine's access of n bytes at an address passes its checks and meets no frozen core (R285); the answer is the
physical address. -/
def State.engPa (s : State) (c : Ctx) (va : Word) (n : Nat) (use : Purpose) : Option Nat :=
  match s.engAccess c va n .atomic use with
  | .ok t => if s.meshHeld c.g t.pa then none else some t.pa
  | .error _ => none

/-- R139, R169: the barrier unit that the byte post of a copy has reached: the copy's rows are written, as are those of the
older copies of its thread, and its flag word can be. -/
def State.postAt (s : State) (o : Op) : Option Nat :=
  match o.kind with
  | .copy c _ =>
    if o.parts.isEmpty || c.cbnd = 0 || s.copyOlder o
        || (c.cdone ≠ 0 && (s.engPa (s.opCtx o) c.cdone 8 .flag).isNone) then none
    else (s.engPa (s.opCtx o) c.cbnd 32 .barrier).map ownerOf
  | _ => none

/-- R287, R377: whether a slot still has accepted operations that a kill waits for (every operation), or that a stop waits
for (engine operations only). -/
def State.busySlot (s : State) (g k : Nat) (enginesOnly : Bool) : Bool :=
  s.ops.any (fun o => o.live && o.g = g && o.k = k &&
    (match o.kind with
    | .copy _ _ => true
    | .eng f _ _ _ _ _ => !enginesOnly || !(f = .prd || f = .pstat)
    | .load _ _ _ | .store _ | .atomic _ _ _ _ _ _ | .red _ _ _ _ | .contrib _ _ _ | .parm _ _ _ _ _ | .povl _ _ _ _ _
    | .msg _ _ _ _ | .hostMsg _ _
    | .fabricMsg _ _ _ _ _ =>
      !enginesOnly
    | _ => false))

/-- R168, R169: whether the drops of a task that ends have reached the barrier unit of a core: the exit or the kill has come to
them, and no core is frozen on their way (R285). -/
def State.dropAt (s : State) (g k u : Nat) : Bool :=
  (match (s.slot g k).blocked with
    | some .drops => true
    | some (.dying _ _) => !s.busySlot g k false
    | _ => false)
  && (s.core g).frozen.isNone && !(s.memberPas g k).any (s.meshHeld g)
  && (s.memberPas g k).any (fun pa => ownerOf pa = u)

/-- The slots, as 64 times the core and the slot, whose drops have reached the barrier unit of a core. -/
def State.dropsAt (s : State) (u : Nat) : List Nat :=
  s.cores.flatMap (fun e => ((e.2.slots.map (·.1)).filter (fun k => s.dropAt e.1 k u)).map (64 * e.1 + ·))

/-- R47, R169: whether another operation that has reached the same barrier unit is applied first: a barrier or counter-node
operation, or, before one that arrives now, the byte post of a copy or the drop of a task that ends, of a lower (core, slot). -/
def State.unitBehind (s : State) (o : Op) : Bool :=
  match s.atUnit o with
  | some u => (s.letIn u).any (·.before o)
    || (o.arr.isNone && (s.ops.any (fun p => s.postAt p = some u && p.outranks o) || (s.dropsAt u).any (· < o.rank)))
  | none => false

/-- R169: whether the byte post of a copy is applied after another operation that has reached its barrier unit. -/
def State.postBehind (s : State) (o : Op) (u : Nat) : Bool :=
  (s.letIn u).any (fun p => p.arr.isSome || p.outranks o) || s.ops.any (fun p => s.postAt p = some u && p.outranks o)
    || (s.dropsAt u).any (· < o.rank)

/-- R169: whether the drops of a task that ends are applied at a barrier unit after another operation that has reached it. -/
def State.dropBehind (s : State) (g k u : Nat) : Bool :=
  (s.letIn u).any (fun p => p.arr.isSome || p.rank ≤ 64 * g + k)
    || s.ops.any (fun p => s.postAt p = some u && p.rank ≤ 64 * g + k) || (s.dropsAt u).any (· < 64 * g + k)

/-- R169, R285: whether an object that the end of a slot's task must drop lies on another core that is frozen, or on a unit
that applies other operations first. -/
def State.dropsHeld (s : State) (g k : Nat) : Bool :=
  (s.memberPas g k).any (fun pa => s.meshHeld g pa || s.dropBehind g k (ownerOf pa))

/-- R184, R186: whether an operation on a parameter record, or of a mason unit, waits for a prd that its thread issued before
it. -/
def State.prdBehind (s : State) (o : Op) : Bool :=
  match o.kind with
  | .contrib _ _ _ | .parm _ _ _ _ _ | .povl _ _ _ _ _ => s.prdAhead o.g o.k o.id
  | _ => false

/-- Whether an operation waits on its way: in the mesh before a frozen core (R285), at its unit behind others (R47, R169;
log 69), or behind a prd of its thread (R186; log 7). -/
def State.heldBack (s : State) (o : Op) : Bool := s.frozenOut o || s.unitBehind o || s.prdBehind o

/-! ### Vacating a slot, the task kill, trap entry and return (R40, R287, R371, R372, R377) -/

/-- R173: a gang member exits: it no longer holds back the others. -/
def Gang.leave (a : Gang) (i : Nat) : Gang := { a with counts := a.counts.set i none }

/-- What a slot keeps when it falls vacant and when a task binds: the trap registers and KS0 to KS7 (R369, R377), and the
cycle of its last issue, from which R27 counts. -/
def Slot.kept (x : Slot) : Slot :=
  { lastIssue := x.lastIssue, tcause := x.tcause, tval := x.tval, tepc := x.tepc, tstat := x.tstat, ks0 := x.ks0, ks1 := x.ks1, ks2 := x.ks2,
    ks3 := x.ks3, ks4 := x.ks4, ks5 := x.ks5, ks6 := x.ks6, ks7 := x.ks7 }

/-- R60, R175: clears the watch tags of the words that no slot of a core watches any more. In a shadow view the tag is set and
cleared in the half in view at that moment: the rules do not say which half carries it, and one set before a flip stays on the
other half (log 94). -/
def State.unwatchWords (s : State) (g : Nat) (ws : List Nat) : State :=
  ws.foldl (fun s w =>
    if (s.core g).slots.any (fun e => e.2.watches.contains w) then s
    else s.setTagBit (scrBase g + 8 * w) 1 false) s

/-- R12: the core that a neighbour port of core g leads to: 1 north, 2 east, 3 south, 4 west. -/
def portTarget (g dir : Nat) : Option Nat :=
  match dir with
  | 1 => if coreY g = 0 then none else some (g - 64)
  | 2 => if coreX g = 63 then none else some (g + 1)
  | 3 => if coreY g = 63 then none else some (g + 64)
  | 4 => if coreX g = 0 then none else some (g - 1)
  | _ => none

/-- The direction in which a neighbour sees a word sent in a direction (R178): north and south, east and west. -/
def oppositeDir (dir : Nat) : Nat :=
  match dir with
  | 1 => 3
  | 2 => 4
  | 3 => 1
  | _ => 2

/-- R179: a writer that is blocked on a queue of the slot is released, and its word is discarded. -/
def State.freeWriters (s : State) (g k : Nat) : State :=
  [1, 2, 3, 4].foldl (fun s d =>
    match portTarget g d with
    | some h =>
      if (s.slot h k).blocked = some (.portWrite (oppositeDir d)) then s.setSlot h k { s.slot h k with discard := true } else s
    | none => s) s

/-- R40: a slot falls vacant: its units are free from the next cycle on, its watches removed, its messages and port queues
discarded; what it still has in flight no longer touches it (R287). -/
def State.vacate (s : State) (g k : Nat) : State :=
  let x := s.slot g k
  let s1 := s.setSlot g k x.kept
  let s2 := s1.setCore g { s1.core g with
    mailbox := (s1.core g).mailbox.filter (fun m => m.slot ≠ k)
    freed := (s1.core g).freed ++ [(x.allocBase, x.allocUnits)] }
  let s3 : State := { s2 with
    ops := s2.ops.map (fun (o : Op) => if o.g = g && o.k = k then { o with live := false } else o) }
  (s3.unwatchWords g x.watches).freeWriters g k

/-- R173: the thread of a slot exits from its gang. -/
def State.leaveGang (s : State) (g k : Nat) : State :=
  match (s.slot g k).gang with
  | some (n, i) => { s with gangs := s.gangs.map (fun (a : Gang) => if a.id = n then a.leave i else a) }
  | none => s

/-- R40, R173: a slot falls vacant because its task has ended, by exit or by a task kill (log 67). -/
def State.depart (s : State) (g k : Nat) : State := (s.leaveGang g k).vacate g k

/-- R264: the instruction that waited for an answer completes. -/
def State.release (s : State) (g k : Nat) : State :=
  s.setSlot g k { s.slot g k with blocked := none, pc := (s.slot g k).pc + 4 }

/-- R346: PSTOP. -/
def pstopWord (pc : Word) (k : Nat) (blocked handler : Bool) : Word :=
  BitVec.ofNat 64 (pc.toNat % 2 ^ 49 + k % 64 * 2 ^ 49 + blocked.toNat * 2 ^ 55 + handler.toNat * 2 ^ 56 + 2 ^ 63)

/-- R287: slots of a core that wait for the stop of slot k go on. -/
def State.releaseStops (s : State) (g k : Nat) : State :=
  ((s.core g).slots.map (·.1)).foldl (fun s j =>
    if (s.slot g j).blocked = some (.stopOf k) then s.release g j else s) s

/-- R346: the record of a stop for a debugger; the Vrelell core has no PSTOP. -/
def State.recordStop (s : State) (g k : Nat) (pc : Word) (blocked handler : Bool) : State :=
  if g = vrNum then s else s.setCore g { s.core g with pstop := pstopWord pc k blocked handler }

/-- R377, step 4, R345, R346: a task kill ends, and the slot falls vacant; if a pstop has named the slot, the stop is traced and
recorded. -/
def State.killDone (s : State) (g k : Nat) (stopped : Bool) : State :=
  let x := s.slot g k
  let s1 := (if stopped then s.trace g 5 k x.pc.toNat 0 else s).depart g k
  (if stopped then s1.recordStop g k x.pc false x.inHandler else s1).releaseStops g k

/-- R377, steps 2 to 4: the drops, the node operation with ERR, whose application the kill waits for, and the vacancy. -/
def State.killEnd (s : State) (g k : Nat) (stopped byExit : Bool) : State :=
  let x := s.slot g k
  let s1 := s.dropAll g k
  if x.task = 0 || x.task.toNat % 32 ≠ 0 then s1.killDone g k stopped
  else match s1.engAccess { s1.ctx g k with level := x.level } x.task 32 .atomic .node with
    | .ok t => (s1.addFree g k (.node t.pa x.task (.dec true) false)).setSlot g k
        { s1.slot g k with blocked := some (.killNode s1.nextId stopped byExit) }
    | .error _ => s1.killDone g k stopped

/-- R377: a task kill: its drops are made at once when the slot has nothing in flight, and otherwise when its operations have
completed and the drops can be made (R169, R285). A withdrawn sync, wait or queued operation has no effect (R287). byExit says
that the kill is an exit in the handler. -/
def State.kill (s : State) (g k : Nat) (byExit : Bool := false) : State :=
  if s.busySlot g k false || s.dropsHeld g k then s.setSlot g k { s.slot g k with blocked := some (.dying false byExit) }
  else s.killEnd g k false byExit

/-- The higher of a level and supervisor (R371). -/
def Level.atLeastSup : Level → Level
  | .user => .sup
  | l => l

/-- PLEV's code of a level (R369). -/
def Level.code : Level → Nat
  | .user => 0
  | .sup => 1
  | .mgmt => 2

/-- TSTAT of a fault (R369). -/
def tstatOf (sub cls major fn seq : Nat) : Word :=
  BitVec.ofNat 64 (sub % 2 ^ 8 + cls * 2 ^ 8 + major * 2 ^ 16 + fn * 2 ^ 22 + seq % 2 ^ 16 * 2 ^ 32)

/-- TCAUSE of a fault (R369). -/
def tcauseOf (code : Nat) (def' : Bool) (level : Level) (ovf : Bool) : Word :=
  BitVec.ofNat 64 (code + def'.toNat * 2 ^ 8 + level.code * 2 ^ 9 + ovf.toNat * 2 ^ 11)

/-- R371: TAKING AN EXCEPTION. The cause with the level and ovf, the value, the status and the return address are saved;
the slot enters its handler at TVEC with at least supervisor level. A trap in the handler, or with no handler installed,
kills the task (R377). Everything else stays. -/
def State.takeTrap (s : State) (g k code : Nat) (def' : Bool) (val tstat : Word) (epc : Word) : State :=
  let x := s.slot g k
  if x.inHandler || !(s.core g).tvec.getLsbD 0 then
    ((s.trace g 3 k epc.toNat code).setSlot g k { x with blocked := none }).kill g k
  else
    (s.trace g 3 k epc.toNat code).setSlot g k
      { x with tcause := tcauseOf code def' x.level x.ovf, ovf := false, tval := val, tstat := tstat,
               tepc := (epc.extractLsb' 0 49).setWidth 64, inHandler := true, level := x.level.atLeastSup, blocked := none,
               fetched := none, discard := false,
               pc := ((s.core g).tvec.extractLsb' 2 47 ++ (0 : BitVec 2)).setWidth 64 }

/-- The level that PLEV holds. -/
def levelOf (c : Word) : Level :=
  match (c.extractLsb' 9 2).toNat with
  | 0 => .user
  | 1 => .sup
  | _ => .mgmt

/-- R372: RETURNING FROM AN EXCEPTION. -/
def State.trapReturn (s : State) (g k : Nat) : State :=
  let x := s.slot g k
  (s.trace g 4 k (x.tepc.extractLsb' 0 49).toNat 0).setSlot g k
    { x with pc := (x.tepc.extractLsb' 0 49).setWidth 64, level := levelOf x.tcause, inHandler := false }

end Sys2Proof.Machine
end

