-- ==== Sys2Proof/Machine/Operands.lean ====
section
/-! DEFINITION. Sys2Proof/Machine/Operands.lean: how an instruction is issued (the checks of R207, blocking before issue,
what becomes of the slot afterwards), and every operand form: single cells, ports, vector, VF and pair groups, addresses,
and the slot's own memory accesses. -/

namespace Sys2Proof.Machine

/-! ### The outcome of an instruction -/

/-- Why an instruction does not complete at this turn. Whatever it had changed by then is taken back. -/
inductive Exc where
  /-- A precise trap with TEPC at the instruction: cause, TVAL, subcode. -/
  | trap (code : Nat) (val : Word) (sub : Nat)
  /-- A precise trap with TEPC after the instruction (TRAPI, R282). -/
  | trapNext (code : Nat) (val : Word)
  /-- The covered deferred fault that surfaces (R376). -/
  | deferred (p : Pending)
  /-- FPX: the flags raised go to FCTL and to TVAL (R79). -/
  | fpx (flags : BitVec 5)
  /-- The slot forfeits its turn (R16, R27). -/
  | forfeit
  /-- The slot is blocked and changes nothing (R178, R264). -/
  | block (b : Block)
  /-- The access waits for a page walk (R73). -/
  | walk (va : Nat) (kind : Access)
  /-- A mason unit's run fails with a subcode (R158). -/
  | mason (sub : Nat)
deriving DecidableEq, Repr

/-- Where the slot goes after an instruction that did not trap. -/
inductive Ctl where
  /-- The next instruction, at A + 4. -/
  | next
  /-- A target. -/
  | jump (t : Word)
  /-- The slot is blocked with what it has changed so far, and issues the instruction again. -/
  | hold
  /-- The program counter stays as the meaning left it: a slot that waits for an answer, or that fell vacant. -/
  | stay
deriving DecidableEq, Repr

/-- The computation of an instruction's effect. -/
abbrev M (α : Type) : Type := StateT State (Except Exc) α

/-- Takes a precise trap. -/
def trap {α : Type} (code : Nat) (val : Word) (sub : Nat := 0) : M α := fun _ => .error (.trap code val sub)

/-- Ends the instruction's turn in another way. -/
def halt' {α : Type} (e : Exc) : M α := fun _ => .error e

/-- A check's failure is a precise trap. -/
def orTrap {α : Type} (r : Except AccErr α) : M α := fun s =>
  match r with
  | .ok x => .ok (x, s)
  | .error e => .error (.trap e.code e.val e.sub)

/-- The executing slot's core and number; a mason unit counts as slot 0 of its core. -/
def State.gk (s : State) : Nat × Nat :=
  match s.cur with
  | .slot g k => (g, k)
  | .mason g => (g, 0)

/-- The executing slot. -/
def State.me (s : State) : Slot := s.slot s.gk.1 s.gk.2

/-- The state with the executing slot replaced. -/
def State.setMe (s : State) (x : Slot) : State := s.setSlot s.gk.1 s.gk.2 x

/-- Whether the executing agent is a mason unit. -/
def State.onMason (s : State) : Bool := match s.cur with | .mason _ => true | .slot _ _ => false

/-- The address A of the instruction being executed (R202); a byte offset into the overlay on a mason unit (R157). -/
def State.here (s : State) : Nat :=
  match s.cur with
  | .slot g k => (s.slot g k).pc.toNat
  | .mason g => (s.mason g).pc

/-- The state with the executing agent's program counter set. -/
def State.goto (s : State) (t : Nat) : State :=
  match s.cur with
  | .slot g k => s.setSlot g k { s.slot g k with pc := BitVec.ofNat 64 t }
  | .mason g => s.setMason g { s.mason g with pc := t }

/-- R160: the stores of a run reach memory, in their order and in one event at its end, which is the model's choice (log 100); one
to a table that a seal has locked since does not (R360). -/
def State.flushBuf (s : State) (g : Nat) : State :=
  let s1 := s.setMason g { s.mason g with buf := [] }
  ((s.mason g).buf.filter (fun w => !s.inSealTable w.pa 8)).foldl (fun s w => s.write none w) s1

/-- R158: a run of a mason unit fails: the record becomes FAULTED with the subcode, and the writes made stay. The
contributions held for it are refused when the unit's turn ends (R154). A record that a seal has locked keeps its STATUS (R360;
log 86). -/
def State.masonFail (s : State) (g sub : Nat) : State :=
  match (s.mason g).run with
  | none => s
  | some rec =>
    let s0 := s.flushBuf g
    let s1 := if s.inSealTable rec 64 then s0 else s0.write8 (rec + 0x11) (BitVec.ofNat 8 (3 + 16 * sub))
    s1.setMason g { s1.mason g with run := none, cycles := 0 }

/-- R158: the subcode of a check that fails on a mason unit. -/
def masonSub (code : Nat) : Nat :=
  if code = cSOFT then 7 else if code = cALN || code = cXLT || code = cPERM || code = cCLS then 2 else 1

/-- R27, R79, R207, R371, R376: what becomes of the state when the instruction word w ends at state s with the given
result. -/
def State.finish (s : State) (w : BitVec 32) (r : Except Exc (Ctl × State)) : State :=
  let done (t : State) : State := { t with turn := .issued }
  match s.cur, r with
  | _, .ok (.next, t) => done (t.goto (s.here + 4))
  | _, .ok (.jump a, t) => done (t.goto a.toNat)
  | _, .ok (.stay, t) => done t
  | _, .ok (.hold, t) => { t with turn := .blocked }
  | .mason g, .error (.trap code _ _) => done (s.masonFail g (masonSub code))
  | .mason g, .error (.mason sub) => done (s.masonFail g sub)
  | .mason g, .error _ => done (s.masonFail g 1)
  | .slot g k, .error (.trap code val sub) =>
    done (s.takeTrap g k code false val (tstatOf sub 0 (majorOf w) (fnOf w) 0) (s.slot g k).pc)
  | .slot g k, .error (.trapNext code val) =>
    done (s.takeTrap g k code false val (tstatOf 0 0 (majorOf w) (fnOf w) 0) ((s.slot g k).pc + 4))
  | .slot g k, .error (.deferred p) =>
    let s1 := s.setSlot g k { s.slot g k with pend := (s.slot g k).pend.filter (fun q => q.order ≠ p.order) }
    done (s1.takeTrap g k p.code true p.val (tstatOf p.sub p.cls.code p.major p.fn p.seq) (s.slot g k).pc)
  | .slot g k, .error (.fpx fl) =>
    let x := s.slot g k
    let s1 := s.setSlot g k { x with fctl := x.fctl ||| (fl.setWidth 64 <<< 8) }
    done (s1.takeTrap g k cFPX false (fl.setWidth 64) (tstatOf 0 0 (majorOf w) (fnOf w) 0) x.pc)
  | .slot _ _, .error .forfeit => { s with turn := .forfeited }
  | .slot g k, .error (.block b) => { s.setSlot g k { s.slot g k with blocked := some b } with turn := .blocked }
  | .slot g k, .error (.walk va kind) =>
    let s1 := s.addOp g k none 0 w (.walk va kind)
    { s1.setSlot g k { s1.slot g k with blocked := some (.walk s.nextId) } with turn := .blocked }
  | .slot _ _, .error (.mason _) => done s

/-! ### Single cells and ports (R30, R178, R205) -/

/-- The physical cell of a name from 8 up in a slot's window (R30, R32). -/
def State.physCell (s : State) (g k n : Nat) : Nat := ((s.slot g k).wbase.toNat + (n - 8)) % numCells g

/-- A physical cell of a core. -/
def State.cell (s : State) (g c : Nat) : Tagged := Sparse.get {} (s.core g).rf c

/-- The state with a physical cell of a core written. -/
def State.setCell (s : State) (g c : Nat) (x : Tagged) : State :=
  s.setCore g { s.core g with rf := Sparse.put (s.core g).rf c x }

/-- R26: the neighbour that a connected port leads to. A Vrelell slot has none: the table of R22 has no row for ports, and the
Vrelell core no place in the mesh (R12), so that a port name in its instructions raises MSGF, as an unconnected port does
(log 89). -/
def State.portTo (s : State) (g dir : Nat) : Option Nat :=
  if 4096 ≤ g then none
  else match portTarget g dir with
    | some h => if s.isMasked h || (s.partOf g).isNone || s.partOf h ≠ s.partOf g then none else some h
    | none => none

/-- The input queue of a direction. -/
def Slot.queue (x : Slot) (dir : Nat) : List Tagged :=
  match dir with
  | 1 => x.qn
  | 2 => x.qe
  | 3 => x.qs
  | _ => x.qw

/-- The slot with an input queue replaced. -/
def Slot.setQueue (x : Slot) (dir : Nat) (q : List Tagged) : Slot :=
  match dir with
  | 1 => { x with qn := q }
  | 2 => { x with qe := q }
  | 3 => { x with qs := q }
  | _ => { x with qw := q }

/-- R178, R264: the words that an input queue holds; one that a blocked instruction has taken keeps its place, for a trap gives
it back. -/
def Slot.portHeld (x : Slot) (dir : Nat) : Nat :=
  (x.queue dir).length + (if x.blocked.isSome then (x.taken.filter (fun e => e.1 = dir)).length else 0)

/-- R178, R179: whether a write in a direction would find its target queue full: words held and words on their way. A
vacant target takes any word. -/
def State.portFull (s : State) (g k dir : Nat) : Bool :=
  match s.portTo g dir with
  | some h =>
    (s.slot h k).bound &&
      4 ≤ (s.slot h k).portHeld (oppositeDir dir) +
        (s.ops.filter (fun o => match o.kind with
          | .portWord tg tk d _ => tg = h && tk = k && d = oppositeDir dir
          | _ => false)).length
  | none => false

/-- Reads the cell of a name: zero, a port's oldest word, or a window cell. -/
def readName (n : Name) : M Tagged := fun s =>
  match s.cur with
  | .mason g => .ok ({ v := Sparse.get 0 (s.mason g).regs n.toNat, t := false }, s)
  | .slot g k =>
    if n = 0 then .ok ({}, s)
    else if n.isPort then
      match (s.slot g k).queue n.toNat with
      | [] => .error (.block (.portRead n.toNat))
      | x :: q =>
        let y := (s.slot g k).setQueue n.toNat q
        .ok (x, s.setSlot g k { y with taken := y.taken ++ [(n.toNat, x)] })
    else .ok (s.cell g (s.physCell g k n.toNat), s)

/-- The state after a write of a name at issue; the word of a port name is sent (R178), and applied under R265. The word of
a writer that the vacancy of its target released is discarded (R179). -/
def State.writeName (s : State) (n : Name) (x : Tagged) : State :=
  match s.cur with
  | .mason g => if n = 0 then s else s.setMason g { s.mason g with regs := Sparse.put (s.mason g).regs n.toNat x.v }
  | .slot g k =>
    if n = 0 then s
    else if n.isPort then
      if (s.slot g k).discard then s.setSlot g k { s.slot g k with discard := false }
      else match s.portTo g n.toNat with
      | some h => s.addOp g k none 0 0 (.portWord h k (oppositeDir n.toNat) x)
      | none => s
    else s.setCell g (s.physCell g k n.toNat) x

/-- Writes a name at issue. -/
def writeName (n : Name) (x : Tagged) : M Unit := fun s => .ok ((), s.writeName n x)

/-- The value of an operand whose tag traps (R98): an address, index, target, control, count or payload. -/
def ctlOperand (n : Name) : M Word := do
  let x ← readName n
  if x.t then trap cBND 0
  return x.v

/-- The physical cell that an operation will write later, none for name zero. -/
def State.lateDst (s : State) (n : Name) : Option Nat :=
  if n = 0 then none else some (s.physCell s.gk.1 s.gk.2 n.toNat)

/-! ### Groups (R90, R205, R206) -/

/-- A run of cells from a name; a group of zeros for name zero. -/
def State.group (s : State) (n : Name) (len : Nat) : List Tagged :=
  if n = 0 then List.replicate len {}
  else (List.range len).map (fun j => s.cell s.gk.1 (s.physCell s.gk.1 s.gk.2 (n.toNat + j)))

/-- The state with a run of cells written from a name; name zero discards the write. -/
def State.setGroup (s : State) (n : Name) : List Tagged → State
  | xs => if n = 0 then s
    else ((List.range xs.length).zip xs).foldl
      (fun s e => s.setCell s.gk.1 (s.physCell s.gk.1 s.gk.2 (n.toNat + e.1)) e.2) s

/-- The 16 lanes of 8 cells (R206): lane i in cell i div 2, the even lane in the low half. -/
def lanesOf (cs : List Tagged) : List (BitVec 32) :=
  cs.flatMap (fun c => [c.v.extractLsb' 0 32, c.v.extractLsb' 32 32])

/-- The cells of 16 lanes, each with the tag given. -/
def cellsOf (tag : List Bool) : List (BitVec 32) → List Tagged
  | lo :: hi :: t => { v := hi ++ lo, t := tag.headD false } :: cellsOf tag.tail t
  | _ => []

/-- The lanes of a vector operand and the tags of its cells. -/
def readVec (n : Name) : M (List (BitVec 32) × List Bool) := fun s =>
  let cs := s.group n 8
  .ok ((lanesOf cs, cs.map (·.t)), s)

/-- Writes a vector destination with the tags of its cells. -/
def writeVec (n : Name) (ls : List (BitVec 32)) (tags : List Bool) : M Unit := fun s =>
  .ok ((), s.setGroup n (cellsOf tags ls))

/-- MORE of a VF operand's first cell (R90). -/
def moreOf (c : Word) : Nat := (c.extractLsb' 40 7).toNat

/-! ### The checks before issue (R205, R206, R207, R213, R219) -/

/-- R157: the words that a mason unit executes. -/
def masonAllows (w : BitVec 32) : Bool :=
  let m := majorOf w
  let fn := (w.extractLsb' 0 5).toNat
  m = 0x01 || (0x03 ≤ m && m ≤ 0x0A) || (m = 0x0C && (fn ≤ 9 || fn = 13)) || (0x0D ≤ m && m ≤ 0x11)
    || (0x12 ≤ m && m ≤ 0x1C) || m = 0x28 || (m = 0x39 && fn = 6)

/-- R21, R22: the words that a Vrelell slot executes: its majors without publish, spawn, spawnh, tlbinv, csave and crest. -/
def vrelellAllows (w : BitVec 32) : Bool :=
  let m := majorOf w
  let fn := (w.extractLsb' 0 5).toNat
  ((0x01 ≤ m && m ≤ 0x28) || (0x39 ≤ m && m ≤ 0x3B)) && !(m = 0x1F && fn = 4) && !(m = 0x23 && fn ≤ 1)
    && !(m = 0x39 && 3 ≤ fn && fn ≤ 5)

/-- The access that R211 gives a special register: the level of mfs, the level of mts, and whether the Vrelell core has
it. None in a place stands for ILL. -/
structure SregInfo where
  rd : Option Level
  wr : Option Level
  onCore : Bool
  onVrelell : Bool
deriving DecidableEq, Repr

/-- R211: the special registers. -/
def sregInfo (n : Nat) : Option SregInfo :=
  let mk (r w : Option Level) (v : Bool) : Option SregInfo := some { rd := r, wr := w, onCore := true, onVrelell := v }
  let u := some Level.user
  let sv := some Level.sup
  if n ≤ 0x003 then mk u none true
  else if n = 0x004 || n = 0x005 || n = 0x007 then mk u u false
  else if n = 0x006 || n = 0x008 then mk u u true
  else if 0x010 ≤ n && n ≤ 0x01A then mk u u false
  else if n = 0x01F then mk u none false
  else if n = 0x020 || n = 0x021 then mk u u false
  else if 0x030 ≤ n && n ≤ 0x033 then mk u none true
  else if n = 0x040 then mk u u false
  else if 0x100 ≤ n && n ≤ 0x106 then mk sv sv true
  else if 0x108 ≤ n && n ≤ 0x10F then mk sv sv true
  else if 0x110 ≤ n && n ≤ 0x114 then mk sv sv false
  else if n = 0x115 then mk sv none false
  else if n = 0x116 then mk sv sv false
  else if (0x200 ≤ n && n ≤ 0x20E) || n = 0x218 then
    some { rd := some .mgmt, wr := some .mgmt, onCore := false, onVrelell := true }
  else if 0x210 ≤ n && n ≤ 0x217 then some { rd := some .mgmt, wr := none, onCore := false, onVrelell := true }
  else none

/-- R212, R281: the level a register access needs on a core, or none where it raises ILL. -/
def sregLevel (g n : Nat) (write : Bool) : Option Level :=
  match sregInfo n with
  | some i => if (if g = vrNum then i.onVrelell else i.onCore) then (if write then i.wr else i.rd) else none
  | none => none

/-- R213: the level an instruction needs on a core; none where a register access raises ILL. -/
def needLevel (g : Nat) : Instr → Option Level
  | .eret | .tlbinv _ | .csave | .crest | .halt | .pstop _ => some .sup
  | .mfs _ n => sregLevel g n.toNat false
  | .mts _ n => sregLevel g n.toNat true
  | _ => some .user

/-- Whether a level meets a need. -/
def Level.meets (l need : Level) : Bool := need.code ≤ l.code

/-- The cells that a field of an instruction names, as window indices: first and number (R30, R90, R91, R206). -/
def State.fieldCells (s : State) (n : Name) (r : Role) : Option (Nat × Nat) :=
  if n.toNat < 8 then none
  else
    let i := n.toNat - 8
    let first := s.cell s.gk.1 (s.physCell s.gk.1 s.gk.2 n.toNat)
    match r with
    | .none => none
    | .src | .dst | .late | .inOut | .lateInOut | .ctl => some (i, 1)
    | .vecSrc | .vecDst | .vecInOut => some (i, 8)
    | .nineDst => some (i, 9)
    | .vfSrc => some (i, 1 + moreOf first.v)
    | .vfDst => some (i, vfCells s.me.prec.toNat)
    | .vfInOut => some (i, Nat.max (1 + moreOf first.v) (vfCells s.me.prec.toNat))
    | .pairDst => some (i, 2)

/-- R207, step 5: whether every cell of a field lies within the window. -/
def State.inWindow (s : State) (n : Name) (r : Role) : Bool :=
  match s.fieldCells n r with
  | some (i, len) => i + len ≤ s.me.wlim.toNat
  | none => true

/-- Whether a role reads a port that the name may be. -/
def readsPort : Role → Bool
  | .src => true
  | _ => false

/-- The bound tag of the word that a single-cell source field names: of a port, its word at place n. -/
def State.fieldTag (s : State) (n : Name) (at' : Nat := 0) : Bool :=
  if n = 0 then false
  else if n.isPort then ((s.me.queue n.toNat).getD at' {}).t
  else (s.cell s.gk.1 (s.physCell s.gk.1 s.gk.2 n.toNat)).t

/-- R98: whether the tag of field a, of field b and of field d traps at an instruction: addresses, indices, targets, control
cells, counts and payloads do, and the sources of a predicate; stored data, the sources of a result cell, the index of v.ext
and v.ins (R257) and the source of xacc (R99) do not. -/
def trapFields (w : BitVec 32) : Bool × Bool × Bool :=
  let m := majorOf w
  let fn := (w.extractLsb' 0 5).toNat
  (m = 0x0C || (0x11 ≤ m && m ≤ 0x27) || m = 0x2A || m = 0x2B || (0x30 ≤ m && m ≤ 0x39 && !(m = 0x35 && fn = 5)),
   m = 0x0C || (m = 0x1D && 12 ≤ fn) || (m = 0x1E && fn = 11) || (0x21 ≤ m && m ≤ 0x23) || (0x30 ≤ m && m ≤ 0x34)
     || (m = 0x35 && fn = 4) || m = 0x36 || m = 0x37,
   (m = 0x1E && (fn = 7 || fn = 11)) || m = 0x21 || (0x30 ≤ m && m ≤ 0x37))

/-- R98, R207, step 6: whether some operand cell of an instruction is tagged and so traps BND before any other check of that
step. -/
def State.tagTraps (s : State) (w : BitVec 32) (r : Roles) : Bool :=
  let f := trapFields w
  (f.1 && r.ra = .src && s.fieldTag r.a)
    || (f.2.1 && r.rb = .src && s.fieldTag r.b (if r.ra = .src && r.a = r.b then 1 else 0))
    || (f.2.1 && r.rb = .vecSrc && (s.group r.b 8).any (·.t))
    || (f.2.2 && (r.rd = .src || r.rd = .ctl || r.rd = .lateInOut) && s.fieldTag r.d)

/-- R26, R178: an instruction that names a port waits for its words before it issues; an unconnected port raises MSGF. R26
gives MSGF no place in step 6 of R207: it comes after BND of the operand cells and before every other check of that step,
and before the wait for a word of another port. A destination that is written later than the issue is not looked at here:
where it names a port that is not connected, the ILL of R219 is raised and not the MSGF of R26, between which no rule gives
an order (log 68). -/
def State.portCheck (s : State) (w : BitVec 32) (r : Roles) : Except Exc Unit :=
  let g := s.gk.1
  let k := s.gk.2
  let ports := [(r.a, r.ra), (r.b, r.rb), (r.d, r.rd)].filter
    (fun e => e.1.isPort && e.2 ≠ .none && e.2 ≠ .late && e.2 ≠ .lateInOut)
  if ports.isEmpty then .ok ()
  else if ports.any (fun e => (s.portTo g e.1.toNat).isNone) then
    if s.tagTraps w r then .error (.trap cBND 0 0) else .error (.trap cMSGF (w.setWidth 64) 0)
  else
    let reads := (ports.filter (fun e => readsPort e.2)).map (fun e => e.1.toNat)
    match reads.find? (fun d => ((s.me.queue d).length < reads.count d)) with
    | some d => .error (.block (.portRead d))
    | none =>
      if r.rd = .dst && r.d.isPort && s.portFull g k r.d.toNat && !s.me.discard then
        .error (.block (.portWrite r.d.toNat))
      else .ok ()

/-- R207, step 6, R219, R264: a destination written later than issue must not name a port; BND of an operand cell comes
first. -/
def State.lateCheck (s : State) (w : BitVec 32) (r : Roles) : Except Exc Unit :=
  if !((r.rd = .late || r.rd = .lateInOut) && r.d.isPort) then .ok ()
  else if s.tagTraps w r then .error (.trap cBND 0 0)
  else .error (.trap cILL (w.setWidth 64) 0)

/-- R207: the checks of an instruction before its own entry's: the unit (R21, R157), the word, the level, the window, and
the ports. -/
def preCheck (i : Instr) : M Unit := fun s =>
  let w := encode i
  let v := w.setWidth 64
  let r := i.roles
  match s.cur with
  | .mason _ =>
    if !i.wf || !masonAllows w then .error (.mason 1)
    else if [(r.a, r.ra), (r.b, r.rb), (r.d, r.rd)].any (fun e => e.2 ≠ .none && (e.1.isPort || 39 < e.1.toNat)) then
      .error (.mason 3)
    else .ok ((), s)
  | .slot g _ =>
    if !i.wf || (g = vrNum && !vrelellAllows w) then .error (.trap cILL v 0)
    else match needLevel g i with
      | none => .error (.trap cILL v 0)
      | some l =>
        if !s.me.level.meets l then .error (.trap cPRIV v 0)
        else if !(s.inWindow r.a r.ra && s.inWindow r.b r.rb && s.inWindow r.d r.rd) then .error (.trap cWBND v 0)
        else match s.portCheck w r with
          | .error e => .error e
          | .ok _ => match s.lateCheck w r with
            | .error e => .error e
            | .ok _ => .ok ((), s)

/-- Issues an instruction: the checks, then its own effect, then what becomes of the slot. -/
def issue (i : Instr) (body : M Ctl) (s : State) : Host.Outcome State Fault Refusal :=
  .next (s.finish (encode i) ((do preCheck i; body : M Ctl) s))

/-! ### Counters and operations issued (R180, R374) -/

/-- R374: the next sequence number. -/
def nextSeq : M Nat := fun s => .ok (s.me.seq.toNat, s.setMe { s.me with seq := s.me.seq + 1 })

/-- R180: raises a counter; a counter at 255 makes the instruction forfeit. -/
def raise (c : CClass) : M Unit := fun s =>
  if 255 ≤ s.me.count c then .error .forfeit
  else .ok ((), s.setMe (s.me.setCount c (s.me.count c + 1)))

/-- Issues an operation of a class: its counter rises and it takes a sequence number. The answer is its number. -/
def emit (i : Instr) (c : CClass) (kind : OpKind) : M Nat := do
  raise c
  let q ← nextSeq
  fun s => .ok (s.nextId, s.addOp s.gk.1 s.gk.2 (some c) q (encode i) kind)

/-- Issues an operation that raises no counter. -/
def emitFree (i : Instr) (kind : OpKind) : M Nat := fun s =>
  .ok (s.nextId, s.addOp s.gk.1 s.gk.2 none 0 (encode i) kind)

/-- The slot waits for the answer of an operation: its program counter moves when the answer comes. -/
def awaitAnswer (id : Nat) : M Ctl := fun s => .ok (.stay, s.setMe { s.me with blocked := some (.answer id) })

/-- R264: the port words that an instruction has taken are the oldest of their queues again. -/
def State.putBack (s : State) (g k : Nat) : State :=
  let x := s.slot g k
  if x.taken = [] then s
  else
    let y := x.taken.foldr (fun e y => y.setQueue e.1 (e.2 :: y.queue e.1)) x
    s.setSlot g k { y with taken := [] }

/-- R264: the instruction that waited for an answer takes a trap, TEPC at the instruction, and leaves the slot's state as it
was before the instruction. -/
def State.releaseTrap (s : State) (o : Op) (code : Nat) (val : Word) (sub : Nat) : State :=
  (s.putBack o.g o.k).takeTrap o.g o.k code false val (tstatOf sub 0 o.major o.fn 0) (s.slot o.g o.k).pc

/-! ### The covering wait (R180, R272, R373, R376) -/

/-- Whether a slot has an xswp that no tile has applied (R289, R374). -/
def State.xswpPending (s : State) (g k : Nat) : Bool :=
  s.ops.any (fun o => o.live && o.g = g && o.k = k && (match o.kind with
    | .eng .xswp _ _ _ _ _ => true
    | _ => false))

/-- R272: whether a counter is at or below its limit; 15 constrains nothing. -/
def underLimit (n l : Nat) : Bool := l = 15 || n ≤ l

/-- R272: whether the counters of a slot meet four limits. -/
def State.waitMet (s : State) (g k l st c t : Nat) : Bool :=
  let x := s.slot g k
  underLimit x.loads l && underLimit x.stores st && underLimit x.copies c && underLimit x.tiles t
    && !(t = 0 && s.xswpPending g k)

/-- Whether a limit covers a class: only a limit of 0 does (R272). -/
def covers0 (l st c t : Nat) : CClass → Bool
  | .loads => l = 0
  | .stores => st = 0
  | .copies => c = 0
  | .tiles => t = 0

/-- The effect of wait l, s, c, t: it blocks until the counters meet the limits, and then the earliest covered fault
surfaces, but not in a trap handler (R373, R376). -/
def waitFor (l st c t : Nat) (b : Block := .wait l st c t) : M Unit := fun s =>
  if !s.waitMet s.gk.1 s.gk.2 l st c t then .error (.block b)
  else if s.me.inHandler then .ok ((), s)
  else match s.me.pend.find? (fun p => covers0 l st c t p.cls) with
    | some p => .error (.deferred p)
    | none => .ok ((), s)

/-! ### A slot's memory accesses (R54, R55, R65, R73, R218) -/

/-- rd and wr of R218, checks only: the checked address of a slot's access of n bytes, aligned to al bytes. An address
whose translation is not in the buffer waits for a walk (R73). -/
def access (va : Word) (n al : Nat) (kind : Access) (use : Purpose := .plain) (tagged : Bool := false) : M Target :=
  fun s =>
    let a := va.toNat
    if a % al ≠ 0 then .error (.trap cALN va 0)
    else match s.cur with
      | .mason g =>
        match s.checkMason g a n kind with
        | .ok t => .ok (t, s)
        | .error e => .error (.trap e.code e.val e.sub)
      | .slot g k =>
        if 2 ^ 49 ≤ a then .error (.trap cXLT va 0)
        else
          let res := if g = vrNum then some (s.checkVrelell a n kind use)
            else if a < 2 ^ 20 then some (s.checkLocal (s.ctx g k) a n kind use tagged)
            else (s.tlbFind g a).map (s.checkLeaf (s.ctx g k) a n kind use tagged)
          match res with
          | some (.ok t) => .ok (t, s)
          | some (.error e) => .error (.trap e.code e.val e.sub)
          | none => .error (.walk a kind)

/-- The bound tag that a load gives each cell (R22, R60, R63): set through a class-B page, and from scratch as the words
read are tagged; a Vrelell slot's cells are always clear. -/
def State.loadTag (s : State) (g pa n : Nat) (classB : Bool) : Bool := g ≠ vrNum && (classB || s.boundTag pa n)

/-- What the executing agent reads: a mason unit sees the stores of its run that have not reached memory (R160). -/
def State.seen (s : State) : State :=
  match s.cur with
  | .mason g => s.flushBuf g
  | .slot _ _ => s

/-- R61, R326, R392: an access that meets an uncorrectable error traps at the access. -/
def softCheck (pa n : Nat) (va : Word) : M Unit := fun s =>
  match s.seen.badWord pa n with
  | some a => .error (.trap (softCause pa).1 (va + BitVec.ofNat 64 (a - pa)) (softCause pa).2)
  | none => .ok ((), s)

end Sys2Proof.Machine
end

