-- ==== Sys2Proof/Machine/Flags.lean ====
section
/-! DEFINITION. Sys2Proof/Machine/Flags.lean: rounding and the flags that it raises. One exact number, one rounding to a
grid in the five modes of R81, and from it every target format: binary32, BF16, binary64, F8, variable precision, integers
and exact windows. Flags are the bits NV, DZ, OF, UF, NX from bit 0 (R79). -/

namespace Sys2Proof.Machine

/-- Flags in the order of FCTL: NV, DZ, OF, UF, NX from bit 0 (R79). -/
abbrev Fl := BitVec 5

def flNV : Fl := 1
def flDZ : Fl := 2
def flOF : Fl := 4
def flUF : Fl := 8
def flNX : Fl := 16

/-- A number as arithmetic sees it: a NaN, an infinity, or (-1)^neg times m times 2^e exactly. -/
inductive FNum where
  | nan
  | inf (neg : Bool)
  | fin (neg : Bool) (m : Nat) (e : Int)
deriving DecidableEq, Repr

/-- The exact result of an operation before its rounding: a number, and whether its magnitude is a little more than m says
(a quotient or root that does not terminate). -/
structure Exact where
  x : FNum
  sticky : Bool := false
deriving DecidableEq, Repr

/-- The number of bits of m. -/
def bitLen (m : Nat) : Nat := if m = 0 then 0 else Nat.log2 m + 1

/-- The multiple of 2^q that m times 2^e rounds to in a mode, as a count of 2^q, and whether it is inexact (R81). Sticky
says that the true magnitude lies strictly between m and m + 1 units of 2^e; it is used only with e below q. -/
def quantize (mode : Nat) (neg : Bool) (m : Nat) (e : Int) (sticky : Bool) (q : Int) : Nat × Bool :=
  if q ≤ e then (m * 2 ^ (e - q).toNat, sticky)
  else
    let sh := (q - e).toNat
    let lo := m / 2 ^ sh
    let r := m % 2 ^ sh
    let half := 2 ^ (sh - 1)
    let inexact := r ≠ 0 || sticky
    let above := half < r || (r = half && sticky)
    let tie := r = half && !sticky
    let up := match mode with
      | 0 => above || (tie && lo % 2 = 1)
      | 1 => false
      | 2 => inexact && !neg
      | 3 => inexact && neg
      | _ => inexact && lo % 2 = 0
    (if up then lo + 1 else lo, inexact)

/-- A binary format: significand bits, and the exponents of its smallest and largest normal numbers. -/
structure Fmt where
  p : Nat
  emin : Int
  emax : Int
  /-- Bits of the exponent field. -/
  w : Nat
deriving DecidableEq, Repr

/-- binary32 (R78), BF16 (R80), binary64. -/
def fmt32 : Fmt := { p := 24, emin := -126, emax := 127, w := 8 }
def fmtBF16 : Fmt := { p := 8, emin := -126, emax := 127, w := 8 }
def fmt64 : Fmt := { p := 53, emin := -1022, emax := 1023, w := 11 }

/-- Whether overflow in a mode gives the largest finite number instead of an infinity (R81, R93). -/
def overflowToMax (mode : Nat) (neg : Bool) : Bool :=
  match mode with
  | 0 => false
  | 1 => true
  | 2 => neg
  | 3 => !neg
  | _ => true

/-- The bits of an infinity of a format, below the sign. -/
def Fmt.infBits (f : Fmt) : Nat := (2 ^ f.w - 1) * 2 ^ (f.p - 1)

/-- The bits of the canonical quiet NaN: sign 0, only the top fraction bit set (R78, R80, R95). -/
def Fmt.nanBits (f : Fmt) : Nat := f.infBits + 2 ^ (f.p - 2)

/-- The sign bit of a format. -/
def Fmt.signBits (f : Fmt) (neg : Bool) : Nat := if neg then 2 ^ (f.p - 1 + f.w) else 0

/-- R78, R81: an exact result rounded once to a format: its bits and the flags OF, UF, NX. Tininess is decided after
rounding to p bits with an unbounded exponent. -/
def Fmt.round (f : Fmt) (mode : Nat) (r : Exact) : Nat × Fl :=
  match r.x with
  | .nan => (f.nanBits, 0)
  | .inf neg => (f.signBits neg + f.infBits, 0)
  | .fin neg m e =>
    if m = 0 then (f.signBits neg, 0)
    else
      let top : Int := e + Int.ofNat (bitLen m) - 1
      let qn := top - Int.ofNat f.p + 1
      let qs := f.emin - Int.ofNat f.p + 1
      let un := quantize mode neg m e r.sticky qn
      let topN : Int := qn + Int.ofNat (bitLen un.1) - 1
      let q := if qn < qs then qs else qn
      let c := quantize mode neg m e r.sticky q
      let tiny := topN < f.emin
      let fl : Fl := (if c.2 then flNX else 0) ||| (if tiny && c.2 then flUF else 0)
      let topC : Int := q + Int.ofNat (bitLen c.1) - 1
      if f.emax < topC then
        (f.signBits neg + (if overflowToMax mode neg then f.infBits - 1 else f.infBits), flOF ||| flNX)
      else
        let c' := if c.1 = 2 ^ f.p then 2 ^ (f.p - 1) else c.1
        if c' < 2 ^ (f.p - 1) then (f.signBits neg + c', fl)
        else (f.signBits neg + ((topC - f.emin + 1).toNat * 2 ^ (f.p - 1) + (c' - 2 ^ (f.p - 1))), fl)

/-- The number that the bits of a format hold. -/
def Fmt.num (f : Fmt) (bits : Nat) : FNum :=
  let neg := bits / 2 ^ (f.p - 1 + f.w) % 2 = 1
  let ex := bits / 2 ^ (f.p - 1) % 2 ^ f.w
  let fr := bits % 2 ^ (f.p - 1)
  if ex = 2 ^ f.w - 1 then (if fr = 0 then .inf neg else .nan)
  else if ex = 0 then .fin neg fr (f.emin - Int.ofNat f.p + 1)
  else .fin neg (2 ^ (f.p - 1) + fr) (Int.ofNat ex - 1 + f.emin - Int.ofNat f.p + 1)

/-- Whether the bits are a signalling NaN. -/
def Fmt.signals (f : Fmt) (bits : Nat) : Bool :=
  let ex := bits / 2 ^ (f.p - 1) % 2 ^ f.w
  let fr := bits % 2 ^ (f.p - 1)
  ex = 2 ^ f.w - 1 && fr ≠ 0 && fr < 2 ^ (f.p - 2)

/-! ### Exact arithmetic on numbers -/

/-- The signed integer that a finite number is of 2^e, for e at or below its own exponent. -/
def intAt (neg : Bool) (m : Nat) (e q : Int) : Int :=
  let v : Int := Int.ofNat (m * 2 ^ (e - q).toNat)
  if neg then -v else v

/-- The sum, with NV for infinities of opposite sign; an exact zero of opposite signs is -0 in mode down (R81, R245). -/
def FNum.add (mode : Nat) : FNum → FNum → FNum × Bool
  | .nan, _ => (.nan, false)
  | _, .nan => (.nan, false)
  | .inf a, .inf b => if a = b then (.inf a, false) else (.nan, true)
  | .inf a, _ => (.inf a, false)
  | _, .inf b => (.inf b, false)
  | .fin a m e, .fin b n f =>
    if m = 0 && n = 0 then (.fin (if a = b then a else mode = 3) 0 0, false)
    else if m = 0 then (.fin b n f, false)
    else if n = 0 then (.fin a m e, false)
    else
      let q := if e < f then e else f
      let s := intAt a m e q + intAt b n f q
      if s = 0 then (.fin (mode = 3) 0 0, false) else (.fin (s < 0) s.natAbs q, false)

/-- The number with its sign complemented. -/
def FNum.neg : FNum → FNum
  | .nan => .nan
  | .inf a => .inf (!a)
  | .fin a m e => .fin (!a) m e

/-- The product, with NV for zero times infinity. -/
def FNum.mul : FNum → FNum → FNum × Bool
  | .nan, _ => (.nan, false)
  | _, .nan => (.nan, false)
  | .inf a, .inf b => (.inf (a ^^ b), false)
  | .inf a, .fin b n _ => if n = 0 then (.nan, true) else (.inf (a ^^ b), false)
  | .fin a m _, .inf b => if m = 0 then (.nan, true) else (.inf (a ^^ b), false)
  | .fin a m e, .fin b n f => (.fin (a ^^ b) (m * n) (e + f), false)

/-- x times y plus z, exactly: zero times infinity is invalid whatever z is (R245, R251). -/
def FNum.fma (mode : Nat) (x y z : FNum) : FNum × Bool :=
  let p := x.mul y
  if p.2 then (.nan, true) else p.1.add mode z

/-- The quotient, to at least p + 3 bits: its number, sticky, NV and DZ. -/
def FNum.div (p : Nat) : FNum → FNum → Exact × Fl
  | .nan, _ => ({ x := .nan }, 0)
  | _, .nan => ({ x := .nan }, 0)
  | .inf _, .inf _ => ({ x := .nan }, flNV)
  | .inf a, .fin b _ _ => ({ x := .inf (a ^^ b) }, 0)
  | .fin a _ _, .inf b => ({ x := .fin (a ^^ b) 0 0 }, 0)
  | .fin a m e, .fin b n f =>
    if n = 0 then (if m = 0 then ({ x := .nan }, flNV) else ({ x := .inf (a ^^ b) }, flDZ))
    else if m = 0 then ({ x := .fin (a ^^ b) 0 0 }, 0)
    else
      let k := p + 3 + bitLen n
      let t := m * 2 ^ k
      ({ x := .fin (a ^^ b) (t / n) (e - f - Int.ofNat k), sticky := t % n ≠ 0 }, 0)

/-- The integer square root, bit by bit from bit i down. -/
def isqrtFrom (n : Nat) : Nat → Nat → Nat
  | 0, r => r
  | i + 1, r => let t := r + 2 ^ i; isqrtFrom n i (if t * t ≤ n then t else r)

/-- The square root, to at least p + 3 bits: its number, sticky and NV. -/
def FNum.sqrt (p : Nat) : FNum → Exact × Bool
  | .nan => ({ x := .nan }, false)
  | .inf neg => if neg then ({ x := .nan }, true) else ({ x := .inf false }, false)
  | .fin neg m e =>
    if m = 0 then ({ x := .fin neg 0 0 }, false)
    else if neg then ({ x := .nan }, true)
    else
      let odd := e % 2 ≠ 0
      let m1 := if odd then 2 * m else m
      let e1 := if odd then e - 1 else e
      let n := m1 * 2 ^ (2 * (p + 3))
      let r := isqrtFrom n ((bitLen n + 1) / 2) 0
      ({ x := .fin false r (e1 / 2 - Int.ofNat (p + 3)), sticky := r * r ≠ n }, false)

/-- Whether a number is a NaN. -/
def FNum.isNan : FNum → Bool
  | .nan => true
  | _ => false

/-- The order of two numbers that are not NaNs: below, equal, above as 0, 1, 2; zeros of either sign are equal. -/
def FNum.cmp : FNum → FNum → Nat
  | .inf a, .inf b => if a = b then 1 else if a then 0 else 2
  | .inf a, _ => if a then 0 else 2
  | _, .inf b => if b then 2 else 0
  | .fin a m e, .fin b n f =>
    let q := if e < f then e else f
    let x := intAt a m e q
    let y := intAt b n f q
    if x < y then 0 else if x = y then 1 else 2
  | _, _ => 1

/-! ### binary32 instructions (R78, R244 to R247) -/

/-- The number of a binary32 value. -/
def num32 (x : BitVec 32) : FNum := fmt32.num x.toNat

/-- NV of an operand that is a signalling NaN (R78). -/
def snan32 (x : BitVec 32) : Fl := if fmt32.signals x.toNat then flNV else 0

/-- rnd32 of R242. -/
def rnd32 (mode : Nat) (r : Exact) : BitVec 32 × Fl :=
  let t := fmt32.round mode r
  (BitVec.ofNat 32 t.1, t.2)

/-- A binary32 result with flags of its own beside those of the rounding. -/
def rnd32With (mode : Nat) (r : Exact) (fl : Fl) : BitVec 32 × Fl :=
  let t := rnd32 mode r
  (t.1, t.2 ||| fl)

def nvIf (b : Bool) : Fl := if b then flNV else 0

def fAdd (mode : Nat) (x y : BitVec 32) : BitVec 32 × Fl :=
  let t := (num32 x).add mode (num32 y)
  rnd32With mode { x := t.1 } (nvIf t.2 ||| snan32 x ||| snan32 y)

def fSub (mode : Nat) (x y : BitVec 32) : BitVec 32 × Fl :=
  let t := (num32 x).add mode (num32 y).neg
  rnd32With mode { x := t.1 } (nvIf t.2 ||| snan32 x ||| snan32 y)

def fMul (mode : Nat) (x y : BitVec 32) : BitVec 32 × Fl :=
  let t := (num32 x).mul (num32 y)
  rnd32With mode { x := t.1 } (nvIf t.2 ||| snan32 x ||| snan32 y)

def fDiv (mode : Nat) (x y : BitVec 32) : BitVec 32 × Fl :=
  let t := FNum.div 24 (num32 x) (num32 y)
  rnd32With mode t.1 (t.2 ||| snan32 x ||| snan32 y)

def fSqrt (mode : Nat) (x : BitVec 32) : BitVec 32 × Fl :=
  let t := FNum.sqrt 24 (num32 x)
  rnd32With mode t.1 (nvIf t.2 ||| snan32 x)

def fFma (mode : Nat) (x y z : BitVec 32) : BitVec 32 × Fl :=
  let t := FNum.fma mode (num32 x) (num32 y) (num32 z)
  rnd32With mode { x := t.1 } (nvIf t.2 ||| snan32 x ||| snan32 y ||| snan32 z)

/-- The canonical quiet NaN (R78). -/
def nan32 : BitVec 32 := 0x7FC00000

/-- R245: the lesser (max false) or the greater (max true). -/
def fMinMax (max : Bool) (x y : BitVec 32) : BitVec 32 × Fl :=
  let fl := snan32 x ||| snan32 y
  let nx := (num32 x).isNan
  let ny := (num32 y).isNan
  if nx && ny then (nan32, fl)
  else if nx then (y, fl)
  else if ny then (x, fl)
  else match (num32 x).cmp (num32 y) with
    | 0 => (if max then y else x, fl)
    | 2 => (if max then x else y, fl)
    | _ => (if max then x &&& y else x ||| y, fl)

/-- R244, R245. -/
def fAbs (x : BitVec 32) : BitVec 32 := if (num32 x).isNan then nan32 else x &&& 0x7FFFFFFF

/-- R244, R245. -/
def fNeg (x : BitVec 32) : BitVec 32 := if (num32 x).isNan then nan32 else x ^^^ 0x80000000

/-- An integer as a number. -/
def numOfInt (v : Int) : FNum := .fin (v < 0) v.natAbs 0

/-- R84, R246: a signed integer to FP32. -/
def fOfInt (mode : Nat) (v : Int) : BitVec 32 × Fl := rnd32 mode { x := numOfInt v }

/-- R84, R246, R251: a number to a signed integer of w bits: saturated with NV out of range and for an infinity, 0 with NV
for a NaN, NX when inexact. -/
def numToInt (mode w : Nat) (r : Exact) : Int × Fl :=
  let hi : Int := 2 ^ (w - 1) - 1
  let lo : Int := -(2 ^ (w - 1))
  match r.x with
  | .nan => (0, flNV)
  | .inf neg => (if neg then lo else hi, flNV)
  | .fin neg m e =>
    let c := quantize mode neg m e r.sticky 0
    let v : Int := if neg then -(Int.ofNat c.1) else Int.ofNat c.1
    if v < lo then (lo, flNV) else if hi < v then (hi, flNV) else (v, if c.2 then flNX else 0)

/-- R80: FP32 to BF16. -/
def bf16Of (mode : Nat) (x : BitVec 32) : BitVec 16 × Fl :=
  let t := fmtBF16.round mode { x := num32 x }
  (BitVec.ofNat 16 t.1, t.2 ||| snan32 x)

/-- R80: BF16 to FP32; NV for a signalling NaN where the entry says so. -/
def f32OfBf16 (x : BitVec 16) : BitVec 32 × Fl :=
  let y : BitVec 32 := x ++ (0 : BitVec 16)
  if (num32 y).isNan then (nan32, snan32 y) else (y, 0)

/-- R83: the number of an F8 value. -/
def num8 (x : BitVec 8) : FNum :=
  let neg := x.getLsbD 7
  let e := (x.extractLsb' 3 4).toNat
  let f := (x.extractLsb' 0 3).toNat
  if e = 15 && f = 7 then .nan
  else if e = 0 then .fin neg f (-9)
  else .fin neg (8 + f) (Int.ofNat e - 10)

/-- R84, R415: a number to F8: 4 significand bits, subnormals below 2^-6, saturating at 448 after rounding. The NaN keeps
its sign. -/
def f8Of (mode : Nat) (nanNeg : Bool) (r : Exact) : BitVec 8 × Fl :=
  let sgn (neg : Bool) : Nat := if neg then 128 else 0
  match r.x with
  | .nan => (if nanNeg then 0xFF else 0x7F, 0)
  | .inf neg => (BitVec.ofNat 8 (sgn neg + 0x7E), 0)
  | .fin neg m e =>
    if m = 0 then (BitVec.ofNat 8 (sgn neg), 0)
    else
      let top : Int := e + Int.ofNat (bitLen m) - 1
      let qn := top - 3
      let un := quantize mode neg m e r.sticky qn
      let topN : Int := qn + Int.ofNat (bitLen un.1) - 1
      let q := if qn < -9 then -9 else qn
      let c := quantize mode neg m e r.sticky q
      let big := 448 * 2 ^ 9 < c.1 * 2 ^ (q + 9).toNat
      if big then (BitVec.ofNat 8 (sgn neg + 0x7E), flOF ||| flNX)
      else
        let fl : Fl := (if c.2 then flNX else 0) ||| (if topN < -6 && c.2 then flUF else 0)
        let c' := if c.1 = 16 then 8 else c.1
        let q' := if c.1 = 16 then q + 1 else q
        if c' < 8 then (BitVec.ofNat 8 (sgn neg + c'), fl)
        else (BitVec.ofNat 8 (sgn neg + ((q' + 10).toNat * 8 + (c' - 8))), fl)

/-- R84: FP32 to F8. -/
def f8Of32 (mode : Nat) (x : BitVec 32) : BitVec 8 × Fl :=
  let t := f8Of mode (x.getLsbD 31) { x := num32 x }
  (t.1, t.2 ||| snan32 x)

/-- R84: F8 to FP32, exact. -/
def f32Of8 (x : BitVec 8) : BitVec 32 := (rnd32 0 { x := num8 x }).1

/-- R247: the class mask. -/
def fClass (x : BitVec 32) : Word :=
  let bit := match num32 x with
    | .nan => if fmt32.signals x.toNat then 8 else 9
    | .inf neg => if neg then 0 else 7
    | .fin neg m _ =>
      if m = 0 then (if neg then 3 else 4)
      else if (x.extractLsb' 23 8) = 0 then (if neg then 2 else 5)
      else (if neg then 1 else 6)
  BitVec.ofNat 64 (2 ^ bit)

/-! ### Exact windows (R86 to R89) -/

/-- R87: a number into a window of w bits with resolution 2^res: N, and whether it saturated, was inexact, was a NaN. -/
def windowOf (w : Nat) (res : Int) (x : FNum) : Int × Fl :=
  let hi : Int := 2 ^ (w - 1) - 1
  let lo : Int := -(2 ^ (w - 1))
  match x with
  | .nan => (0, flNV)
  | .inf neg => (if neg then lo else hi, flOF)
  | .fin neg m e =>
    let c := quantize 0 neg m e false res
    let v : Int := if neg then -(Int.ofNat c.1) else Int.ofNat c.1
    if v < lo then (lo, flOF ||| flNX) else if hi < v then (hi, flOF ||| flNX) else (v, if c.2 then flNX else 0)

/-- R86: whether an exponent lies in the range of a window. -/
def windowExpOk (e : Int) : Bool := -1100 ≤ e && e ≤ 1000

/-- R89: an EW64 value out of its window, rounded once to FP32. -/
def windowOut (mode : Nat) (n : Int) (res : Int) : BitVec 32 × Fl :=
  rnd32 mode { x := .fin (n < 0) n.natAbs res }

/-! ### binary64 in the engines (R95, R110) -/

/-- The number of a binary64 value. -/
def num64 (x : Word) : FNum := fmt64.num x.toNat

/-- An exact result rounded to binary64; every NaN is 0x7FF8_0000_0000_0000 (R95). -/
def rnd64 (mode : Nat) (r : Exact) : Word := BitVec.ofNat 64 (fmt64.round mode r).1

/-- Nearest-even binary64 addition. -/
def dAdd (x y : Word) : Word := rnd64 0 { x := ((num64 x).add 0 (num64 y)).1 }

/-- Nearest-even binary64 multiplication. -/
def dMul (x y : Word) : Word := rnd64 0 { x := ((num64 x).mul (num64 y)).1 }

/-- A binary32 value in binary64, exactly. -/
def dOf32 (x : BitVec 32) : Word := rnd64 0 { x := num32 x }

/-- A binary64 value rounded once to binary32, nearest-even; every NaN is 0x7FC0_0000 (R110). -/
def f32OfD (x : Word) : BitVec 32 := (rnd32 0 { x := num64 x }).1

/-- The pairwise tree of R95 and R110: each level pairs adjacent results in order; an odd last one passes up. -/
def pairUp (add : Word → Word → Word) : List Word → List Word
  | x :: y :: t => add x y :: pairUp add t
  | l => l

/-- The levels of a pairwise tree, by fuel. -/
def treeSum (add : Word → Word → Word) : Nat → List Word → Word
  | _, [] => 0
  | _, [x] => x
  | 0, x :: _ => x
  | n + 1, l => treeSum add n (pairUp add l)

/-! ### Variable precision (R90 to R94, R249 to R252) -/

/-- Flags of VCTL: NX, OF, UF, NV from bit 0 (R92). -/
abbrev Vl := BitVec 4

def vlNX : Vl := 1
def vlOF : Vl := 2
def vlUF : Vl := 4
def vlNV : Vl := 8

/-- R93: a result rounded to p bits: its number and flags. -/
def vfRound (p mode : Nat) (r : Exact) : FNum × Vl :=
  match r.x with
  | .nan => (.nan, 0)
  | .inf neg => (.inf neg, 0)
  | .fin neg m e =>
    if m = 0 then (.fin neg 0 0, 0)
    else
      let q : Int := e + Int.ofNat (bitLen m) - Int.ofNat p
      let c := quantize mode neg m e r.sticky q
      let top : Int := q + Int.ofNat (bitLen c.1) - 1
      if 32767 < top then
        (if overflowToMax mode neg then .fin neg (2 ^ p - 1) (32768 - Int.ofNat p) else .inf neg, vlOF ||| vlNX)
      else if top < -32766 then
        (let min : Bool := match mode with
           | 2 => !neg
           | 3 => neg
           | 4 => true
           | _ => false
         if min then .fin neg 1 (-32766) else .fin neg 0 0, vlUF ||| vlNX)
      else (.fin neg c.1 q, if c.2 then vlNX else 0)

/-- The significand bits of a finite number as a run of len bits with the leading 1 first, the rest 0, and its biased
exponent (R90); the number has at most len bits. -/
def vfSig (m : Nat) (e : Int) (len : Nat) : Nat × Nat :=
  let b := bitLen m
  (if b ≤ len then m * 2 ^ (len - b) else m / 2 ^ (b - len), (e + Int.ofNat b - 1 + 32767).toNat)

/-- R90: the cells of a VF value, k of them. -/
def vfImage (x : FNum) (k : Nat) : List Word :=
  let len := 40 + 64 * (k - 1)
  let head (neg : Bool) (exp sig : Nat) : Word :=
    BitVec.ofNat 64 ((if neg then 2 ^ 63 else 0) + exp * 2 ^ 47 + (k - 1) * 2 ^ 40 + sig / 2 ^ (64 * (k - 1)) % 2 ^ 40)
  let tail (sig : Nat) : List Word :=
    (List.range (k - 1)).map (fun j => BitVec.ofNat 64 (sig / 2 ^ (64 * (k - 2 - j))))
  match x with
  | .nan => head false 0xFFFF (2 ^ (len - 1)) :: tail 0
  | .inf neg => head neg 0xFFFF 0 :: tail 0
  | .fin neg m e =>
    if m = 0 then head neg 0 0 :: tail 0
    else
      let t := vfSig m e len
      head neg t.2 t.1 :: tail t.1

/-- R90: the value of the cells of a VF operand, and NV for a malformed one. -/
def vfValue (cs : List Word) : FNum × Vl :=
  match cs with
  | [] => (.fin false 0 0, 0)
  | c :: t =>
    let neg := c.getLsbD 63
    let exp := (c.extractLsb' 47 16).toNat
    let sig := t.foldl (fun a w => a * 2 ^ 64 + w.toNat) (c.extractLsb' 0 40).toNat
    let len := 40 + 64 * t.length
    if exp = 0xFFFF then (if sig = 0 then (.inf neg, 0) else (.nan, 0))
    else if exp = 0 then (if sig = 0 then (.fin neg 0 0, 0) else (.nan, vlNV))
    else if !c.getLsbD 39 then (.nan, vlNV)
    else (.fin neg sig (Int.ofNat exp - 32767 - Int.ofNat (len - 1)), 0)

/-- R250: vf.rnd: the nearest integer of at most p significand bits, in one step. -/
def vfRndInt (p mode : Nat) (x : FNum) : FNum × Vl :=
  match x with
  | .fin neg m e =>
    if m = 0 then (x, 0)
    else
      let q : Int := e + Int.ofNat (bitLen m) - Int.ofNat p
      if 0 < q then vfRound p mode { x := x }
      else
        let c := quantize mode neg m e false 0
        (.fin neg c.1 0, if c.2 then vlNX else 0)
  | _ => (x, 0)

/-- FCTL flags of a rounding as VCTL flags. -/
def vlOf (f : Fl) : Vl :=
  (if f &&& flNX ≠ 0 then vlNX else 0) ||| (if f &&& flOF ≠ 0 then vlOF else 0)
    ||| (if f &&& flUF ≠ 0 then vlUF else 0) ||| (if f &&& flNV ≠ 0 then vlNV else 0)

/-- R94: the memory image of a rounded value at p bits: the head and the significand bytes. -/
def vfMemImage (p : Nat) (x : FNum) : BitVec 32 × List Byte :=
  match x with
  | .nan => (BitVec.ofNat 32 (3 * 2 ^ 29), [])
  | .inf neg => (BitVec.ofNat 32 ((if neg then 2 ^ 31 else 0) + 2 * 2 ^ 29), [])
  | .fin neg m e =>
    let s := if neg then 2 ^ 31 else 0
    if m = 0 then (BitVec.ofNat 32 (s + 2 ^ 29), [])
    else
      let nb := (p + 7) / 8
      let t := vfSig m e (8 * nb)
      (BitVec.ofNat 32 (s + nb * 2 ^ 20 + t.2),
       (List.range nb).map (fun j => BitVec.ofNat 8 (t.1 / 2 ^ (8 * (nb - 1 - j)))))

/-- R94: how many significand bytes a head announces, or none for a malformed head. -/
def vfHeadBytes (h : BitVec 32) : Option Nat :=
  let cls := (h.extractLsb' 29 2).toNat
  let nb := (h.extractLsb' 20 9).toNat
  let ex := (h.extractLsb' 0 16).toNat
  if h.extractLsb' 16 4 ≠ 0 then none
  else if cls = 0 then (if nb = 0 || 125 < nb || ex = 0 || ex = 0xFFFF then none else some nb)
  else if nb ≠ 0 || ex ≠ 0 then none
  else some 0

/-- R94: the value of a head and its significand bytes, and NV when they are malformed. -/
def vfMemValue (h : BitVec 32) (bs : List Byte) : FNum × Vl :=
  let neg := h.getLsbD 31
  match (h.extractLsb' 29 2).toNat with
  | 0 =>
    let sig := bs.foldl (fun a b => a * 256 + b.toNat) 0
    if !(bs.headD 0).getLsbD 7 then (.nan, vlNV)
    else (.fin neg sig (Int.ofNat (h.extractLsb' 0 16).toNat - 32767 - Int.ofNat (8 * bs.length - 1)), 0)
  | 1 => (.fin neg 0 0, 0)
  | 2 => (.inf neg, 0)
  | _ => (.nan, 0)

/-! ### Ending a float instruction (R79, R243, R252) -/

/-- FCTL.RM of the executing agent. -/
def State.fctlNow (s : State) : Word :=
  match s.cur with
  | .slot g k => (s.slot g k).fctl
  | .mason g => (s.mason g).fctl

/-- The rounding mode in FCTL (R79). -/
def fctlMode : M Nat := fun s => .ok ((s.fctlNow.extractLsb' 0 3).toNat, s)

/-- The state with flags raised in the executing agent's FCTL. -/
def State.orFctl (s : State) (fl : Fl) : State :=
  match s.cur with
  | .slot g k => s.setSlot g k { s.slot g k with fctl := (s.slot g k).fctl ||| (fl.setWidth 64 <<< 8) }
  | .mason g => s.setMason g { s.mason g with fctl := (s.mason g).fctl ||| (fl.setWidth 64 <<< 8) }

/-- R243: raises flags in FCTL, or takes FPX when one of them is enabled. -/
def raiseFl (fl : Fl) : M Unit := fun s =>
  if fl &&& s.fctlNow.extractLsb' 16 5 ≠ 0 then .error (.fpx fl) else .ok ((), s.orFctl fl)

/-- R252: raises flags in VCTL, or takes PXH in exact mode when the result is inexact or out of range. -/
def raiseVl (fl : Vl) : M Unit := fun s =>
  if s.me.vctl.getLsbD 0 && fl &&& 7 ≠ 0 then .error (.trap cPXH (fl.setWidth 64) 0)
  else .ok ((), s.setMe { s.me with vctl := s.me.vctl ||| (fl.setWidth 64 <<< 8) })

/-- VCTL.RM (R92). -/
def State.vctlMode (s : State) : Nat := (s.me.vctl.extractLsb' 1 3).toNat

end Sys2Proof.Machine
end

