-- ==== Sys2Proof/Machine/Alu.lean ====
section
/-! DEFINITION. Sys2Proof/Machine/Alu.lean: majors 0x01 and 0x03 to 0x0B: integer arithmetic and logic, division,
immediates, shifts and upper immediates (R220, R221, R223 to R225). -/

namespace Sys2Proof.Machine

/-- A two-source cell operation that completes at issue: sources a then b, the result with the OR of their tags (R98). -/
def binOp (d a b : Name) (f : Word → Word → Word) : M Ctl := do
  let x ← readName a
  let y ← readName b
  writeName d { v := f x.v y.v, t := x.t || y.t }
  return .next

/-- A one-source cell operation that completes at issue, the result with the source's tag. -/
def unOp (d a : Name) (f : Word → Word) : M Ctl := do
  let x ← readName a
  writeName d { v := f x.v, t := x.t }
  return .next

/-- 1 or 0. -/
def boolWord (b : Bool) : Word := if b then 1 else 0

/-- R220: the high half of the signed product. -/
def mulHigh (x y : Word) : Word := BitVec.ofInt 64 (x.toInt * y.toInt / 2 ^ 64)

/-- R220: the high half of the unsigned product. -/
def mulHighU (x y : Word) : Word := BitVec.ofNat 64 (x.toNat * y.toNat / 2 ^ 64)

/-- R221: the quotient of div. -/
def divS (x y : Word) : Word := if y = 0 then BitVec.allOnes 64 else BitVec.ofInt 64 (x.toInt.tdiv y.toInt)

/-- R221: the quotient of divu. -/
def divU (x y : Word) : Word := if y = 0 then BitVec.allOnes 64 else BitVec.ofNat 64 (x.toNat / y.toNat)

/-- R221: the remainder of rem, with the dividend's sign. -/
def remS (x y : Word) : Word := if y = 0 then x else BitVec.ofInt 64 (x.toInt.tmod y.toInt)

/-- R221: the remainder of remu. -/
def remU (x y : Word) : Word := if y = 0 then x else BitVec.ofNat 64 (x.toNat % y.toNat)

/-- R221: a division: with a zero divisor it takes FPX while FCTL's enable of DZ is set, FCTL unchanged and TVAL 2. -/
def divOp (d a b : Name) (f : Word → Word → Word) : M Ctl := do
  let x ← readName a
  let y ← readName b
  let s ← get
  if y.v = 0 && s.fctlNow.getLsbD 17 then trap cFPX 2
  writeName d { v := f x.v y.v, t := x.t || y.t }
  return .next

/-- R204: the signed immediate of format I. -/
def immI (i : BitVec 12) : Word := i.signExtend 64

/-- R220: Writes the 64-bit sum of two cells, wrapping modulo 2^64. -/
def execAdd (d : Name) (a : Name) (b : Name) (s : State) : Host.Outcome State Fault Refusal :=
  issue (.add d a b) (binOp d a b (fun x y => x + y)) s

/-- R220: Writes the difference of two cells, wrapping modulo 2^64. -/
def execSub (d : Name) (a : Name) (b : Name) (s : State) : Host.Outcome State Fault Refusal :=
  issue (.sub d a b) (binOp d a b (fun x y => x - y)) s

/-- R220: Writes the bitwise AND of two cells. -/
def execAnd (d : Name) (a : Name) (b : Name) (s : State) : Host.Outcome State Fault Refusal :=
  issue (.and d a b) (binOp d a b (fun x y => x &&& y)) s

/-- R220: Writes the bitwise OR of two cells. -/
def execOr (d : Name) (a : Name) (b : Name) (s : State) : Host.Outcome State Fault Refusal :=
  issue (.or d a b) (binOp d a b (fun x y => x ||| y)) s

/-- R220: Writes the bitwise XOR of two cells. -/
def execXor (d : Name) (a : Name) (b : Name) (s : State) : Host.Outcome State Fault Refusal :=
  issue (.xor d a b) (binOp d a b (fun x y => x ^^^ y)) s

/-- R220: Shifts a cell left by the low six bits of the second cell. -/
def execSll (d : Name) (a : Name) (b : Name) (s : State) : Host.Outcome State Fault Refusal :=
  issue (.sll d a b) (binOp d a b (fun x y => x <<< (y.toNat % 64))) s

/-- R220: Shifts a cell right logically by the low six bits of the second cell. -/
def execSrl (d : Name) (a : Name) (b : Name) (s : State) : Host.Outcome State Fault Refusal :=
  issue (.srl d a b) (binOp d a b (fun x y => x >>> (y.toNat % 64))) s

/-- R220: Shifts a cell right arithmetically by the low six bits of the second cell. -/
def execSra (d : Name) (a : Name) (b : Name) (s : State) : Host.Outcome State Fault Refusal :=
  issue (.sra d a b) (binOp d a b (fun x y => x.sshiftRight (y.toNat % 64))) s

/-- R220: Writes 1 if the first cell is signed-less than the second, else 0. -/
def execSlt (d : Name) (a : Name) (b : Name) (s : State) : Host.Outcome State Fault Refusal :=
  issue (.slt d a b) (binOp d a b (fun x y => boolWord (x.slt y))) s

/-- R220: Writes 1 if the first cell is unsigned-less than the second, else 0. -/
def execSltu (d : Name) (a : Name) (b : Name) (s : State) : Host.Outcome State Fault Refusal :=
  issue (.sltu d a b) (binOp d a b (fun x y => boolWord (x.ult y))) s

/-- R220: Writes the signed minimum of two cells. -/
def execMin (d : Name) (a : Name) (b : Name) (s : State) : Host.Outcome State Fault Refusal :=
  issue (.min d a b) (binOp d a b (fun x y => if x.sle y then x else y)) s

/-- R220: Writes the signed maximum of two cells. -/
def execMax (d : Name) (a : Name) (b : Name) (s : State) : Host.Outcome State Fault Refusal :=
  issue (.max d a b) (binOp d a b (fun x y => if y.sle x then x else y)) s

/-- R220: Writes the unsigned minimum of two cells. -/
def execMinu (d : Name) (a : Name) (b : Name) (s : State) : Host.Outcome State Fault Refusal :=
  issue (.minu d a b) (binOp d a b (fun x y => if x.ule y then x else y)) s

/-- R220: Writes the unsigned maximum of two cells. -/
def execMaxu (d : Name) (a : Name) (b : Name) (s : State) : Host.Outcome State Fault Refusal :=
  issue (.maxu d a b) (binOp d a b (fun x y => if y.ule x then x else y)) s

/-- R220: Writes the low 64 bits of the product of two cells. -/
def execMul (d : Name) (a : Name) (b : Name) (s : State) : Host.Outcome State Fault Refusal :=
  issue (.mul d a b) (binOp d a b (fun x y => x * y)) s

/-- R220: Writes the high 64 bits of the signed 128-bit product. -/
def execMulh (d : Name) (a : Name) (b : Name) (s : State) : Host.Outcome State Fault Refusal :=
  issue (.mulh d a b) (binOp d a b (mulHigh)) s

/-- R220: Writes the high 64 bits of the unsigned 128-bit product. -/
def execMulhu (d : Name) (a : Name) (b : Name) (s : State) : Host.Outcome State Fault Refusal :=
  issue (.mulhu d a b) (binOp d a b (mulHighU)) s

/-- R221: Writes the signed quotient truncated toward zero, with fixed edge cases and FPX on zero divisor when EN.DZ is set. -/
def execDiv (d : Name) (a : Name) (b : Name) (s : State) : Host.Outcome State Fault Refusal :=
  issue (.div d a b) (divOp d a b divS) s

/-- R221: Writes the unsigned quotient, all ones on a zero divisor or FPX when EN.DZ is set. -/
def execDivu (d : Name) (a : Name) (b : Name) (s : State) : Host.Outcome State Fault Refusal :=
  issue (.divu d a b) (divOp d a b divU) s

/-- R221: Writes the signed remainder with the dividend's sign, with fixed edge cases. -/
def execRem (d : Name) (a : Name) (b : Name) (s : State) : Host.Outcome State Fault Refusal :=
  issue (.rem d a b) (divOp d a b remS) s

/-- R221: Writes the unsigned remainder, the dividend on a zero divisor or FPX when EN.DZ is set. -/
def execRemu (d : Name) (a : Name) (b : Name) (s : State) : Host.Outcome State Fault Refusal :=
  issue (.remu d a b) (divOp d a b remU) s

/-- R223: Adds a sign-extended 12-bit immediate to a cell. -/
def execAddi (d : Name) (a : Name) (i : BitVec 12) (s : State) : Host.Outcome State Fault Refusal :=
  issue (.addi d a i) (unOp d a (fun x => x + immI i)) s

/-- R223: ANDs a cell with a sign-extended immediate. -/
def execAndi (d : Name) (a : Name) (i : BitVec 12) (s : State) : Host.Outcome State Fault Refusal :=
  issue (.andi d a i) (unOp d a (fun x => x &&& immI i)) s

/-- R223: ORs a cell with a sign-extended immediate. -/
def execOri (d : Name) (a : Name) (i : BitVec 12) (s : State) : Host.Outcome State Fault Refusal :=
  issue (.ori d a i) (unOp d a (fun x => x ||| immI i)) s

/-- R223: XORs a cell with a sign-extended immediate. -/
def execXori (d : Name) (a : Name) (i : BitVec 12) (s : State) : Host.Outcome State Fault Refusal :=
  issue (.xori d a i) (unOp d a (fun x => x ^^^ immI i)) s

/-- R223: Writes 1 if the cell is signed-less than the immediate. -/
def execSlti (d : Name) (a : Name) (i : BitVec 12) (s : State) : Host.Outcome State Fault Refusal :=
  issue (.slti d a i) (unOp d a (fun x => boolWord (x.slt (immI i)))) s

/-- R223: Writes 1 if the cell is unsigned-less than the sign-extended immediate. -/
def execSltiu (d : Name) (a : Name) (i : BitVec 12) (s : State) : Host.Outcome State Fault Refusal :=
  issue (.sltiu d a i) (unOp d a (fun x => boolWord (x.ult (immI i)))) s

/-- R224: Shifts a cell left by an immediate count. -/
def execSlli (d : Name) (a : Name) (c : BitVec 6) (s : State) : Host.Outcome State Fault Refusal :=
  issue (.slli d a c) (unOp d a (fun x => x <<< c.toNat)) s

/-- R224: Shifts a cell right logically by an immediate count. -/
def execSrli (d : Name) (a : Name) (c : BitVec 6) (s : State) : Host.Outcome State Fault Refusal :=
  issue (.srli d a c) (unOp d a (fun x => x >>> c.toNat)) s

/-- R224: Shifts a cell right arithmetically by an immediate count. -/
def execSrai (d : Name) (a : Name) (c : BitVec 6) (s : State) : Host.Outcome State Fault Refusal :=
  issue (.srai d a c) (unOp d a (fun x => x.sshiftRight c.toNat)) s

/-- R204: the upper immediate: sext(imm19 << 12, 31). -/
def upperImm (i : BitVec 19) : Word := (i ++ (0 : BitVec 12)).signExtend 64

/-- A value written at issue with a clear tag. -/
def constOp (d : Name) (v : Word) : M Ctl := do
  writeName d { v := v, t := false }
  return .next

/-- R225: Writes the sign-extended upper immediate shifted left by 12. -/
def execLui (d : Name) (i : BitVec 19) (s : State) : Host.Outcome State Fault Refusal :=
  issue (.lui d i) (constOp d (upperImm i)) s

/-- R225: Writes the instruction address plus the upper immediate. -/
def execAdpc (d : Name) (i : BitVec 19) (s : State) : Host.Outcome State Fault Refusal :=
  issue (.adpc d i) (constOp d (BitVec.ofNat 64 s.here + upperImm i)) s

end Sys2Proof.Machine
end

