-- ==== Sys2Proof/Machine/Pred.lean ====
section
/-! DEFINITION. Sys2Proof/Machine/Pred.lean: majors 0x0C and 0x0D: compares into predicates and logic on predicates, with
their guards (R210, R216, R226, R227). -/

namespace Sys2Proof.Machine

/-- The predicates of the executing agent. -/
def State.preds (s : State) : BitVec 8 :=
  match s.cur with
  | .slot g k => (s.slot g k).pred
  | .mason g => (s.mason g).pred

/-- Predicate n; p0 reads true (R216). -/
def State.predBit (s : State) (n : BitVec 3) : Bool := n = 0 || s.preds.getLsbD n.toNat

/-- R210: guard(pg, ng). -/
def State.guard (s : State) (g : BitVec 3) (n : BitVec 1) : Bool := s.predBit g ^^ (n = 1)

/-- The state with predicate n set to v; a write to p0 is discarded. -/
def State.setPred (s : State) (n : BitVec 3) (v : Bool) : State :=
  if n = 0 then s
  else
    let q (p : BitVec 8) : BitVec 8 := if v then p ||| (1 <<< n.toNat) else p &&& ~~~((1 : BitVec 8) <<< n.toNat)
    match s.cur with
    | .slot g k => s.setSlot g k { s.slot g k with pred := q (s.slot g k).pred }
    | .mason g => s.setMason g { s.mason g with pred := q (s.mason g).pred }

/-- R210: the guarded write of a predicate; fl are the flags the instruction raises, raised only when the guard holds. -/
def predWrite (p g : BitVec 3) (n : BitVec 1) (v : Bool) (raise' : M Unit) : M Ctl := do
  let s ← get
  if s.guard g n then
    raise'
    modify (fun s => s.setPred p v)
  return .next

/-- R226: an integer compare of two cells. -/
def cmpOp (p g : BitVec 3) (n : BitVec 1) (a b : Name) (f : Word → Word → Bool) : M Ctl := do
  let x ← readName a
  let y ← readName b
  if x.t || y.t then trap cBND 0
  predWrite p g n (f x.v y.v) (pure ())

/-- R226: an FP32 compare: its value, and NV by the rule of its kind (signalling or quiet). -/
def cmpF (p g : BitVec 3) (n : BitVec 1) (a b : Name) (signalling : Bool) (f : BitVec 32 → BitVec 32 → Bool) : M Ctl := do
  let x ← readName a
  let y ← readName b
  if x.t || y.t then trap cBND 0
  let u := x.v.extractLsb' 0 32
  let v := y.v.extractLsb' 0 32
  let nan := (num32 u).isNan || (num32 v).isNan
  let fl := if signalling then nvIf nan else snan32 u ||| snan32 v
  predWrite p g n (f u v) (raiseFl fl)

/-- The cells of a VF source as they stand, by its own length (R90). -/
def State.vfCellsOf (s : State) (a : Name) : List Tagged :=
  if a = 0 then [{}]
  else s.group a (1 + moreOf ((s.group a 1).headD {}).v)

/-- R226: a VF compare; flags go to VCTL and never trap. -/
def cmpVf (p g : BitVec 3) (n : BitVec 1) (a b : Name) (signalling : Bool) (f : FNum → FNum → Bool) : M Ctl := do
  let s ← get
  let xs := s.vfCellsOf a
  let ys := s.vfCellsOf b
  if xs.any (·.t) || ys.any (·.t) then trap cBND 0
  let x := vfValue (xs.map (·.v))
  let y := vfValue (ys.map (·.v))
  let fl := x.2 ||| y.2 ||| (if signalling && (x.1.isNan || y.1.isNan) then vlNV else 0)
  predWrite p g n (f x.1 y.1) (modify (fun s => s.setMe { s.me with vctl := s.me.vctl ||| (fl.setWidth 64 <<< 8) }))

/-- Equality of two numbers: false for a NaN. -/
def numEq (x y : FNum) : Bool := !x.isNan && !y.isNan && x.cmp y = 1

/-- Below: false for a NaN. -/
def numLt (x y : FNum) : Bool := !x.isNan && !y.isNan && x.cmp y = 0

/-- At most: false for a NaN. -/
def numLe (x y : FNum) : Bool := !x.isNan && !y.isNan && x.cmp y ≠ 2

/-- R227: an operation on predicates. -/
def plogOp (p g : BitVec 3) (n : BitVec 1) (f : State → Bool) : M Ctl := do
  let s ← get
  predWrite p g n (f s) (pure ())

/-- R226: Writes a guarded predicate with the equality of two cells. -/
def execPcmpEq (p : BitVec 3) (g : BitVec 3) (n : BitVec 1) (a : Name) (b : Name) (s : State) : Host.Outcome State Fault Refusal :=
  issue (.pcmpEq p g n a b) (cmpOp p g n a b (fun x y => x = y)) s

/-- R226: Writes a guarded predicate with the inequality of two cells. -/
def execPcmpNe (p : BitVec 3) (g : BitVec 3) (n : BitVec 1) (a : Name) (b : Name) (s : State) : Host.Outcome State Fault Refusal :=
  issue (.pcmpNe p g n a b) (cmpOp p g n a b (fun x y => x ≠ y)) s

/-- R226: Writes a guarded predicate with a signed less-than compare. -/
def execPcmpLt (p : BitVec 3) (g : BitVec 3) (n : BitVec 1) (a : Name) (b : Name) (s : State) : Host.Outcome State Fault Refusal :=
  issue (.pcmpLt p g n a b) (cmpOp p g n a b (fun x y => x.slt y)) s

/-- R226: Writes a guarded predicate with a signed greater-or-equal compare. -/
def execPcmpGe (p : BitVec 3) (g : BitVec 3) (n : BitVec 1) (a : Name) (b : Name) (s : State) : Host.Outcome State Fault Refusal :=
  issue (.pcmpGe p g n a b) (cmpOp p g n a b (fun x y => !x.slt y)) s

/-- R226: Writes a guarded predicate with an unsigned less-than compare. -/
def execPcmpLtu (p : BitVec 3) (g : BitVec 3) (n : BitVec 1) (a : Name) (b : Name) (s : State) : Host.Outcome State Fault Refusal :=
  issue (.pcmpLtu p g n a b) (cmpOp p g n a b (fun x y => x.ult y)) s

/-- R226: Writes a guarded predicate with an unsigned greater-or-equal compare. -/
def execPcmpGeu (p : BitVec 3) (g : BitVec 3) (n : BitVec 1) (a : Name) (b : Name) (s : State) : Host.Outcome State Fault Refusal :=
  issue (.pcmpGeu p g n a b) (cmpOp p g n a b (fun x y => !x.ult y)) s

/-- R226: Writes a guarded predicate with a quiet FP32 equality compare. -/
def execPcmpFEq (p : BitVec 3) (g : BitVec 3) (n : BitVec 1) (a : Name) (b : Name) (s : State) : Host.Outcome State Fault Refusal :=
  issue (.pcmpFEq p g n a b) (cmpF p g n a b false (fun x y => numEq (num32 x) (num32 y))) s

/-- R226: Writes a guarded predicate with a signalling FP32 less-than compare. -/
def execPcmpFLt (p : BitVec 3) (g : BitVec 3) (n : BitVec 1) (a : Name) (b : Name) (s : State) : Host.Outcome State Fault Refusal :=
  issue (.pcmpFLt p g n a b) (cmpF p g n a b true (fun x y => numLt (num32 x) (num32 y))) s

/-- R226: Writes a guarded predicate with a signalling FP32 less-or-equal compare. -/
def execPcmpFLe (p : BitVec 3) (g : BitVec 3) (n : BitVec 1) (a : Name) (b : Name) (s : State) : Host.Outcome State Fault Refusal :=
  issue (.pcmpFLe p g n a b) (cmpF p g n a b true (fun x y => numLe (num32 x) (num32 y))) s

/-- R226: Writes a guarded predicate true when either FP32 operand is a NaN. -/
def execPcmpFUn (p : BitVec 3) (g : BitVec 3) (n : BitVec 1) (a : Name) (b : Name) (s : State) : Host.Outcome State Fault Refusal :=
  issue (.pcmpFUn p g n a b) (cmpF p g n a b false (fun x y => (num32 x).isNan || (num32 y).isNan)) s

/-- R226: Writes a guarded predicate with a quiet VF equality compare. -/
def execPcmpVfEq (p : BitVec 3) (g : BitVec 3) (n : BitVec 1) (a : Name) (b : Name) (s : State) : Host.Outcome State Fault Refusal :=
  issue (.pcmpVfEq p g n a b) (cmpVf p g n a b false numEq) s

/-- R226: Writes a guarded predicate with a signalling VF less-than compare. -/
def execPcmpVfLt (p : BitVec 3) (g : BitVec 3) (n : BitVec 1) (a : Name) (b : Name) (s : State) : Host.Outcome State Fault Refusal :=
  issue (.pcmpVfLt p g n a b) (cmpVf p g n a b true numLt) s

/-- R226: Writes a guarded predicate with a signalling VF less-or-equal compare. -/
def execPcmpVfLe (p : BitVec 3) (g : BitVec 3) (n : BitVec 1) (a : Name) (b : Name) (s : State) : Host.Outcome State Fault Refusal :=
  issue (.pcmpVfLe p g n a b) (cmpVf p g n a b true numLe) s

/-- R226: Writes a guarded predicate with one selected bit of a cell. -/
def execPcmpBit (p : BitVec 3) (g : BitVec 3) (n : BitVec 1) (a : Name) (b : Name) (s : State) : Host.Outcome State Fault Refusal :=
  issue (.pcmpBit p g n a b) (cmpOp p g n a b (fun x y => x.getLsbD (y.toNat % 64))) s

/-- R227: Writes a guarded predicate with the AND of two predicates. -/
def execPand (p : BitVec 3) (g : BitVec 3) (n : BitVec 1) (a : BitVec 3) (b : BitVec 3) (s : State) : Host.Outcome State Fault Refusal :=
  issue (.pand p g n a b) (plogOp p g n (fun t => t.predBit a && t.predBit b)) s

/-- R227: Writes a guarded predicate with the OR of two predicates. -/
def execPor (p : BitVec 3) (g : BitVec 3) (n : BitVec 1) (a : BitVec 3) (b : BitVec 3) (s : State) : Host.Outcome State Fault Refusal :=
  issue (.por p g n a b) (plogOp p g n (fun t => t.predBit a || t.predBit b)) s

/-- R227: Writes a guarded predicate with the XOR of two predicates. -/
def execPxor (p : BitVec 3) (g : BitVec 3) (n : BitVec 1) (a : BitVec 3) (b : BitVec 3) (s : State) : Host.Outcome State Fault Refusal :=
  issue (.pxor p g n a b) (plogOp p g n (fun t => t.predBit a ^^ t.predBit b)) s

/-- R227: Writes a guarded predicate with pa AND NOT pb. -/
def execPandn (p : BitVec 3) (g : BitVec 3) (n : BitVec 1) (a : BitVec 3) (b : BitVec 3) (s : State) : Host.Outcome State Fault Refusal :=
  issue (.pandn p g n a b) (plogOp p g n (fun t => t.predBit a && !t.predBit b)) s

/-- R227: Copies a predicate under a guard. -/
def execPmov (p : BitVec 3) (g : BitVec 3) (n : BitVec 1) (a : BitVec 3) (s : State) : Host.Outcome State Fault Refusal :=
  issue (.pmov p g n a) (plogOp p g n (fun t => t.predBit a)) s

/-- R227: Writes the complement of a predicate under a guard. -/
def execPnot (p : BitVec 3) (g : BitVec 3) (n : BitVec 1) (a : BitVec 3) (s : State) : Host.Outcome State Fault Refusal :=
  issue (.pnot p g n a) (plogOp p g n (fun t => !t.predBit a)) s

/-- R227: Sets a predicate to a constant under a guard. -/
def execPset (p : BitVec 3) (g : BitVec 3) (n : BitVec 1) (v : BitVec 1) (s : State) : Host.Outcome State Fault Refusal :=
  issue (.pset p g n v) (plogOp p g n (fun _ => v = 1)) s

end Sys2Proof.Machine
end

