-- ==== Sys2Proof/Machine/Mem.lean ====
section
/-! DEFINITION. Sys2Proof/Machine/Mem.lean: majors 0x12 to 0x1D, 0x2A and 0x2B, and the events that perform their
accesses: loads, stores, full and empty words, watches, variable-precision images, page walks (R231 to R237, R254, R255,
R71 to R73, R174, R175). -/

namespace Sys2Proof.Machine

/-! ### Which operations may be performed (R265; log 7) -/

/-- Whether an operation is a memory access of a slot, reductions and reads of parameter records included. -/
def OpKind.isMemory : OpKind → Bool
  | .load _ _ _ | .store _ | .atomic _ _ _ _ _ _ | .fullEmpty _ _ _ _ _ | .red _ _ _ _ => true
  | .eng .prd _ _ _ _ _ | .eng .pstat _ _ _ _ _ => true
  | _ => false

/-- The aligned words that a plain load reads, none for any other operation; the significand of a VF image is not known
yet. -/
def OpKind.loadWords : OpKind → Option (List Nat)
  | .load (.vf _ _) _ _ => none
  | .load sh parts _ => some (parts.flatMap (fun e => (List.range ((e.1 + sh.bytes + 7) / 8 - e.1 / 8)).map (e.1 / 8 + ·)))
  | _ => none

/-- R187: two loads of one slot that read no common word may be performed in either order. -/
def OpKind.apart (a b : OpKind) : Bool :=
  match a.loadWords, b.loadWords with
  | some ws, some vs => !ws.any vs.contains
  | _, _ => false

/-- R186, R187: whether a memory access may be performed: those of its slot before it have been, but for loads that read no
common word (log 7). -/
def State.isFirst (s : State) (o : Op) : Bool :=
  !s.heldBack o && !s.ops.any (fun p => p.g = o.g && p.k = o.k && p.id < o.id && p.kind.isMemory && !p.kind.apart o.kind)

/-- The operation of State.ev and what becomes of it; an operation that is not in flight changes nothing. -/
def State.onOp (s : State) (f : Op → State) : Host.Outcome State Fault Refusal :=
  .next (match s.op? s.ev.id with | some o => f o | none => s)

/-! ### Records that an instruction reads at its issue (R35, R313, R314) -/

/-- Whether a record cannot be read yet: accesses of the slot to it are in flight, which its reads must follow (R187), or a prd,
which acquires before them (R184), or it lies in the scratch of another core that is frozen (R285). -/
def State.recordHeld (s : State) (g k pa n : Nat) : Bool := s.meshHeld g pa || s.touchedBefore g k s.nextId pa n

/-- A record that cannot be read yet makes its instruction forfeit (log 83). -/
def recordReady (pa n : Nat) : M Unit := fun s =>
  if s.recordHeld s.gk.1 s.gk.2 pa n then .error .forfeit else .ok ((), s)

/-! ### Loads (R231, R233, R235, R237) -/

/-- A scalar load of n bytes. -/
def loadOp (i : Instr) (d a : Name) (off : BitVec 12) (n : Nat) (signed : Bool) : M Ctl := do
  let x ← ctlOperand a
  let va := x + off.signExtend 64
  let t ← access va n n .load
  softCheck t.pa n va
  let s ← get
  if s.onMason then
    let v := BitVec.ofNat 64 (s.seen.readN t.pa n)
    writeName d { v := if signed then (v <<< (64 - 8 * n)).sshiftRight (64 - 8 * n) else v, t := false }
  else
    let _ ← emit i .loads (.load (.scalar n signed) [(t.pa, t.cls = 1)] (s.lateDst d))
  return .next

/-- R58, R63, R160: whether 64 aligned bytes are read in one event: in scratch, and in a class-P page. -/
def Target.whole (t : Target) : Bool := t.cls = 2 || (match region t.pa with | .scratch _ _ => true | _ => false)

/-- R233: ld.v, one access of an aligned 64-byte unit. -/
def loadVecOp (i : Instr) (d a : Name) : M Ctl := do
  let va ← ctlOperand a
  let t ← access va 64 64 .load
  softCheck t.pa 64 va
  let s ← get
  let _ ← emit i .loads (.load (.vec t.whole) [(t.pa, t.cls = 1)] (s.lateDst d))
  return .next

/-- R235: ld.n. -/
def loadNibbleOp (i : Instr) (d a : Name) (h : Bool) : M Ctl := do
  let va ← ctlOperand a
  let t ← access va 1 1 .load
  softCheck t.pa 1 va
  let s ← get
  let _ ← emit i .loads (.load (.nibble h) [(t.pa, t.cls = 1)] (s.lateDst d))
  return .next

/-- R237: the address of each lane. -/
def laneAddrs (x : Word) (offs : List (BitVec 32)) : List Word := offs.map (fun o => x + o.signExtend 64)

/-- R237: v.gather. -/
def gatherOp (i : Instr) (d a b : Name) : M Ctl := do
  let x ← ctlOperand a
  let y ← readVec b
  if y.2.any id then trap cBND 0
  let ts ← (laneAddrs x y.1).mapM (fun va => do
    let t ← access va 4 4 .load
    softCheck t.pa 4 va
    pure (t.pa, decide (t.cls = 1)))
  let s ← get
  let _ ← emit i .loads (.load .gather ts (s.lateDst d))
  return .next

/-- The bytes of a value of n bytes, sign-extended or not. -/
def extendBytes (n : Nat) (signed : Bool) (v : Word) : Word :=
  if signed then (v <<< (64 - 8 * n)).sshiftRight (64 - 8 * n) else v

/-- n bytes at an address of a class as a tagged value. -/
def State.valueAt (s : State) (g n : Nat) (e : Nat × Bool) : Tagged :=
  { v := BitVec.ofNat 64 (s.readN e.1 n), t := s.loadTag g e.1 n e.2 }

/-- The word that a load of several words has read ahead at a physical address. -/
def Op.ahead (o : Op) (pa : Nat) : Option Tagged := o.got.lookup (8 * (pa / 8))

/-- n bytes in one word as a load reads them: now, or when it read the word ahead. -/
def State.partBytes (s : State) (o : Op) (pa n : Nat) : Nat :=
  match o.ahead pa with
  | some x => x.v.toNat / 256 ^ (pa % 8) % 256 ^ n
  | none => s.readN pa n

/-- The bound tag that a load gives n bytes in one word. -/
def State.partTag (s : State) (o : Op) (pa n : Nat) (classB : Bool) : Bool :=
  match o.ahead pa with
  | some x => o.g ≠ vrNum && (classB || x.t)
  | none => s.loadTag o.g pa n classB

/-- The uncorrectable error that a load finds in n bytes, of which it has not read ahead. -/
def State.partBad (s : State) (o : Op) (pa n : Nat) : Option Nat := if (o.ahead pa).isSome then none else s.badWord pa n

/-- R182: a load reads the aligned word at an address ahead of the others, each being an event of its own, and stays in flight.
A word with an error it leaves to its end. -/
def State.readAhead (s : State) (o : Op) (pa : Nat) : State :=
  let w := 8 * (pa / 8)
  if (o.ahead pa).isSome || (s.badWord w 8).isSome then s
  else s.mapOp o.id (fun p => { p with got := (w, { v := s.read64 w, t := s.boundTag w 8 }) :: p.got })

/-- One part of a load as a tagged value. -/
def State.partValue (s : State) (o : Op) (n : Nat) (e : Nat × Bool) : Tagged :=
  { v := BitVec.ofNat 64 (s.partBytes o e.1 n), t := s.partTag o e.1 n e.2 }

/-- The accesses of a load, each in one word: address and number of bytes. -/
def loadUnits (sh : LoadShape) (parts : List (Nat × Bool)) : List (Nat × Nat) :=
  match sh with
  | .vec _ => parts.flatMap (fun e => (List.range 8).map (fun j => (e.1 + 8 * j, 8)))
  | _ => parts.map (fun e => (e.1, sh.bytes))

/-- Pairs of lanes as cells, the tag of a cell the OR of its lanes' tags (R237). -/
def pairLanes : List Tagged → List Tagged
  | x :: y :: t => { v := y.v.extractLsb' 0 32 ++ x.v.extractLsb' 0 32, t := x.t || y.t } :: pairLanes t
  | _ => []

/-- The cells that a load writes when its value arrives. -/
def State.loadCells (s : State) (o : Op) (sh : LoadShape) (parts : List (Nat × Bool)) : List Tagged :=
  match sh, parts with
  | .scalar n signed, e :: _ => let x := s.partValue o n e; [{ x with v := extendBytes n signed x.v }]
  | .nibble h, e :: _ => let x := s.partValue o 1 e; [{ x with v := (x.v >>> (if h then 4 else 0)) &&& 15 }]
  | .vec _, e :: _ => (List.range 8).map (fun j => s.partValue o 8 (e.1 + 8 * j, e.2))
  | .gather, _ => pairLanes (parts.map (s.partValue o 4))
  | _, _ => []

/-- Writes a run of physical cells of a core. -/
def State.setCells (s : State) (g c : Nat) (xs : List Tagged) : State :=
  ((List.range xs.length).zip xs).foldl (fun s e => s.setCell g ((c + e.1) % numCells g) e.2) s

/-- The write of a load's or atomic's cells while its thread is still in its slot. -/
def State.arrive (s : State) (o : Op) (dst : Option Nat) (xs : List Tagged) : State :=
  match dst with
  | some c => if o.live then s.setCells o.g c xs else s
  | none => s

/-- R231, R376: a load's value arrives; a load that meets an uncorrectable error after its issue writes 0 (log 20). -/
def State.finishLoad (s : State) (o : Op) (sh : LoadShape) (parts : List (Nat × Bool)) (dst : Option Nat) : State :=
  match (loadUnits sh parts).findSome? (fun e => s.partBad o e.1 e.2) with
  | some a => (s.failOp o (softCause a).1 0 (softCause a).2).arrive o dst ((s.loadCells o sh parts).map (fun _ => {}))
  | none => (s.endOp o).arrive o dst (s.loadCells o sh parts)

/-- R233, R237: an access of an ld.v or v.gather is performed ahead of the others, the word of it being read once (log 58); 64 bytes
that are read in one event are not parted. -/
def State.loadAhead (s : State) (o : Op) (sh : LoadShape) (parts : List (Nat × Bool)) (n : Nat) : State :=
  let us := loadUnits sh parts
  match us[n]? with
  | some e => if us.length ≤ 1 || sh = .vec true then s else s.readAhead o e.1
  | none => s

/-! ### Variable-precision images (R254, R255) -/

/-- The runs of n bytes from an address that lie in one aligned word each. -/
def chunksFrom : Nat → Nat → Nat → List (Nat × Nat)
  | 0, _, _ => []
  | f + 1, a, n => if n = 0 then [] else
    let k := Nat.min n (8 - a % 8)
    (a, k) :: chunksFrom f (a + k) (n - k)

/-- The runs of n bytes from a virtual address. -/
def chunksOf (va : Word) (n : Nat) : List (Word × Nat) :=
  (chunksFrom n va.toNat n).map (fun e => (BitVec.ofNat 64 e.1, e.2))

/-- R254: the head of the image is checked when vf.ld issues. -/
def vfLoadOp (i : Instr) (d a : Name) (off : BitVec 12) : M Ctl := do
  let x ← ctlOperand a
  let va := x + off.signExtend 64
  let ps ← (chunksOf va 4).mapM (fun e => do
    let t ← access e.1 e.2 1 .load
    softCheck t.pa e.2 e.1
    pure ((List.range e.2).map (fun j => (t.pa + j, decide (t.cls = 1))), decide (t.cls = 2)))
  let s ← get
  let id ← emit i .loads (.load (.vf va (ps.any (·.2))) (ps.flatMap (·.1)) (s.lateDst d))
  awaitAnswer id

/-- The translation of a slot's access outside its issue: the buffer's entry, or a walk that fills it (R72, R73). -/
def State.slotAccess (s : State) (g k : Nat) (va : Word) (n : Nat) : Except AccErr Target × State :=
  let c := s.ctx g k
  if 2 ^ 49 ≤ va.toNat then (.error ⟨cXLT, va, 0⟩, s)
  else if va.toNat < 2 ^ 20 then (s.checkLocal c va.toNat n .load .plain false, s)
  else match s.tlbFind g va.toNat with
    | some l => (s.checkLeaf c va.toNat n .load .plain false l, s)
    | none => match s.walk g c.ptroot va.toNat with
      | .ok l => (s.checkLeaf c va.toNat n .load .plain false l, s.tlbFill g c.asid va.toNat l)
      | .error e => (.error e, s)

/-- R254: the significand bytes, word by word: their values and tag, or the first failing check. -/
def State.vfBytes (s : State) (o : Op) : List (Word × Nat) → Except AccErr (List Byte × Bool) × State
  | [] => (.ok ([], false), s)
  | (va, n) :: rest =>
    match s.slotAccess o.g o.k va n with
    | (.error e, s1) => (.error e, s1)
    | (.ok t, s1) =>
      if (s1.partBad o t.pa n).isSome then (.error ⟨(softCause t.pa).1, va, (softCause t.pa).2⟩, s1)
      else
        let here := (List.range n).map (fun j => BitVec.ofNat 8 (s1.partBytes o (t.pa + j) 1))
        let tag := s1.partTag o t.pa n (t.cls = 1)
        match s1.vfBytes o rest with
        | (.ok r, s2) => (.ok (here ++ r.1, tag || r.2), s2)
        | (.error e, s2) => (.error e, s2)

/-- The head of a VF image, whose bytes lie at some physical addresses. -/
def State.vfHead (s : State) (o : Op) (parts : List (Nat × Bool)) : BitVec 32 :=
  let hb := parts.map (fun e => BitVec.ofNat 8 (s.partBytes o e.1 1))
  hb.getD 3 0 ++ hb.getD 2 0 ++ hb.getD 1 0 ++ hb.getD 0 0

/-- R160, R182, R256: a vf.ld reads one word of its image ahead of the others, each word being an event of its own, but for those of
a record in a class-P page: word n of the head, or after them, with the head read, a word of the significand (log 58). -/
def State.vfAhead (s : State) (o : Op) (va : Word) (whole : Bool) (parts : List (Nat × Bool)) (n : Nat) : State :=
  let ws := (parts.map (fun e => 8 * (e.1 / 8))).eraseDups
  if whole then s
  else match ws[n]? with
  | some w => s.readAhead o w
  | none =>
    if !o.live || !parts.all (fun e => (o.ahead e.1).isSome) then s
    else match (chunksOf (va + 4) ((vfHeadBytes (s.vfHead o parts)).getD 0))[n - ws.length]? with
      | none => s
      | some e => match s.slotAccess o.g o.k e.1 e.2 with
        | (.ok t, s1) => if t.cls = 2 then s else s1.readAhead o t.pa
        | (.error _, _) => s

/-- R252, R254: vf.ld once its head is read: its cells and flags, or its trap. -/
def State.finishVfLoad (s : State) (o : Op) (va : Word) (parts : List (Nat × Bool)) (dst : Option Nat) : State :=
  if !o.live then s.endOp o
  else match parts.findIdx? (fun e => (s.partBad o e.1 1).isSome) with
  | some j =>
    let c := softCause (parts.getD j (0, false)).1
    (s.endOp o).releaseTrap o c.1 (va + BitVec.ofNat 64 j) c.2
  | none =>
    let h := s.vfHead o parts
    let ht := parts.any (fun e => s.partTag o e.1 1 e.2)
    let nb := (vfHeadBytes h).getD 0
    match s.vfBytes o (chunksOf (va + 4) nb) with
    | (.error e, s1) => (s1.endOp o).releaseTrap o e.code e.val e.sub
    | (.ok (bs, bt), s1) =>
      let x := s1.slot o.g o.k
      let p := x.prec.toNat
      let r : FNum × Vl := if (vfHeadBytes h).isNone then (.nan, vlNV) else vfMemValue h bs
      let q := vfRound p (x.vctl.extractLsb' 1 3).toNat { x := r.1 }
      let fl := r.2 ||| q.2
      if x.vctl.getLsbD 0 && fl &&& 7 ≠ 0 then (s1.endOp o).releaseTrap o cPXH (fl.setWidth 64) 0
      else
        let s2 := (s1.endOp o).arrive o dst ((vfImage q.1 (vfCells p)).map (fun v => { v := v, t := ht || bt }))
        let s3 := s2.setSlot o.g o.k { s2.slot o.g o.k with vctl := x.vctl ||| (fl.setWidth 64 <<< 8) }
        s3.release o.g o.k

/-- The nibble enables and the data of a run of bytes in one word. -/
def runWrite (pa : Nat) (bs : List Byte) (t : Bool) : WordWrite :=
  { pa := 8 * (pa / 8), en := byteEn (pa % 8) bs.length, tag := t,
    data := BitVec.ofNat 64 ((bs.foldr (fun b a => b.toNat + 256 * a) 0) * 2 ^ (8 * (pa % 8))) }

/-- R255: vf.st. -/
def vfStoreOp (i : Instr) (off : BitVec 12) (a b : Name) : M Ctl := do
  let base ← ctlOperand a
  let s ← get
  let va := base + off.signExtend 64
  let cs := s.vfCellsOf b
  let tag := cs.any (·.t)
  let x := vfValue (cs.map (·.v))
  let p := s.me.prec.toNat
  let q := vfRound p s.vctlMode { x := x.1 }
  raiseVl (x.2 ||| q.2)
  let im := vfMemImage p q.1
  let bs := (List.range 4).map (fun j => im.1.extractLsb' (8 * j) 8) ++ im.2
  let ws ← (chunksOf va bs.length).mapM (fun e => do
    let t ← access e.1 e.2 1 .store .plain tag
    pure (runWrite t.pa ((bs.drop (e.1 - va).toNat).take e.2) tag))
  let _ ← emit i .stores (.store ws)
  return .next

/-! ### Stores (R232, R233, R235, R237) -/

/-- R182, R233, R237, R255: one word of a store of several, each an event of its own, is applied ahead of the others, which stay in
flight; of those at one address only the first may be (log 1). -/
def State.storePart (s : State) (o : Op) (ws : List WordWrite) (n : Nat) : State :=
  match ws[n]? with
  | none => s
  | some w =>
    if ws.length ≤ 1 || (ws.take n).any (fun u => u.pa = w.pa) then s
    else (s.write (some (o.g, o.k)) w).setKind o.id (.store (ws.eraseIdx n))

/-- A scalar store of n bytes. -/
def storeOp (i : Instr) (off : BitVec 12) (a b : Name) (n : Nat) : M Ctl := do
  let x ← ctlOperand a
  let y ← readName b
  let va := x + off.signExtend 64
  let t ← access va n n .store .plain y.t
  let w := wordWrite t.pa n y.v y.t
  let s ← get
  if s.onMason then modify (fun s => s.setMason s.gk.1 { s.mason s.gk.1 with buf := (s.mason s.gk.1).buf ++ [w] })
  else
    let _ ← emit i .stores (.store [w])
  return .next

/-- R233: st.v; BND when any of the eight cells is tagged and the page is one that BND of R63 covers. -/
def storeVecOp (i : Instr) (a b : Name) : M Ctl := do
  let va ← ctlOperand a
  let s ← get
  let cs := s.group b 8
  let t ← access va 64 64 .store .plain (cs.any (·.t))
  let _ ← emit i .stores (.store (((List.range 8).zip cs).map (fun e => wordWrite (t.pa + 8 * e.1) 8 e.2.v e.2.t)))
  return .next

/-- R235: st.n. -/
def storeNibbleOp (i : Instr) (h : Bool) (a b : Name) : M Ctl := do
  let va ← ctlOperand a
  let y ← readName b
  let t ← access va 1 1 .store .plain y.t
  let j := 2 * (t.pa % 8) + h.toNat
  let _ ← emit i .stores (.store [{ pa := 8 * (t.pa / 8), data := (y.v &&& 15) <<< (4 * j), en := 1 <<< j, tag := y.t }])
  return .next

/-- R237: v.scatter. -/
def scatterOp (i : Instr) (d a b : Name) : M Ctl := do
  let x ← ctlOperand a
  let y ← readVec b
  if y.2.any id then trap cBND 0
  let z ← readVec d
  let ws ← ((List.range 16).zip (laneAddrs x y.1)).mapM (fun e => do
    let tg := z.2.getD (e.1 / 2) false
    let t ← access e.2 4 4 .store .plain tg
    pure (wordWrite t.pa 4 ((z.1.getD e.1 0).setWidth 64) tg))
  let _ ← emit i .stores (.store ws)
  return .next

/-! ### Full and empty words, watches (R174, R175, R234, R236) -/

/-- R234: the slot blocks until the owning core applies the instruction; ld.fe and ld.fx raise the loads counter (R219). -/
def fullEmptyOp (i : Instr) (f : FullEmpty) (a b d : Name) (reads : Bool) : M Ctl := do
  let va ← ctlOperand a
  let y ← if reads then pure {} else readName b
  let t ← access va 8 8 .atomic .fullEmpty
  if reads then softCheck t.pa 8 va
  let s ← get
  let kind : OpKind := .fullEmpty f t.pa va y (if reads then s.lateDst d else none)
  let id ← if reads then emit i .loads kind else emitFree i kind
  awaitAnswer id

/-- R234: whether an operation at a word with a full tag can apply. -/
def FullEmpty.canApply (f : FullEmpty) (full : Bool) : Bool :=
  match f with
  | .ldFe | .ldFx => full
  | .stEf => !full
  | .stFs | .stFc => true

/-- R234: whether an operation reads its word. -/
def FullEmpty.reads : FullEmpty → Bool
  | .ldFe | .ldFx => true
  | .stEf | .stFs | .stFc => false

/-- R174, R234: an operation at its word applies, and its slot goes on. ld.fe and ld.fx write the word's own bound tag,
whatever the class of the page (R234; that R63 would set it through a class-B page is not followed: log 70). One of them that
meets an uncorrectable error takes SOFT at the instruction that waits, and changes neither the word nor its tag (R61). -/
def State.applyFullEmpty (s : State) (o : Op) (f : FullEmpty) (pa : Nat) (va : Word) (y : Tagged) (dst : Option Nat) : State :=
  let full := (s.tagOf pa).getLsbD 0
  if !f.canApply full then s
  else if f.reads && (s.badWord pa 8).isSome then
    if o.live then (s.endOp o).releaseTrap o (softCause pa).1 va (softCause pa).2 else s.endOp o
  else
    let old : Tagged := { v := s.read64 pa, t := s.loadTag o.g pa 8 false }
    let s1 := s.endOp o
    let s2 := match f with
      | .ldFe => s1.setTagBit pa 0 false
      | .ldFx => s1
      | .stEf | .stFs =>
        (s1.write (some (o.g, o.k)) { pa := pa, data := y.v, en := 0xFFFF, tag := y.t }).setTagBit pa 0 true
      | .stFc => (s1.write (some (o.g, o.k)) { pa := pa, data := y.v, en := 0xFFFF, tag := y.t }).setTagBit pa 0 false
    let s3 := match f with
      | .ldFe | .ldFx => s2.arrive o dst [old]
      | _ => s2
    if o.live then s3.release o.g o.k else s3

/-- R174: the full and empty operations that have reached a word. -/
def State.atWord (s : State) (pa : Nat) : List Op :=
  s.ops.filter (fun o => (match o.kind with | .fullEmpty _ q _ _ _ => q = pa | _ => false) && s.isFirst o)

/-- R174: the operation at the head of the queue at a word, in order of arrival. -/
def State.queueHead (s : State) (pa : Nat) : Option Op :=
  ((s.atWord pa).filter (·.arr.isSome)).find? (fun o => !(s.atWord pa).any (·.before o))

/-- R174: when a word's tag has changed, the head of its queue applies as often as it can. -/
def State.runQueue (s : State) (pa : Nat) : Nat → State
  | 0 => s
  | n + 1 =>
    match s.queueHead pa with
    | some o => match o.kind with
      | .fullEmpty f q va y dst =>
        if f.canApply ((s.tagOf pa).getLsbD 0) then (s.applyFullEmpty o f q va y dst).runQueue pa n else s
      | _ => s
    | none => s

/-- R174: an operation at a word, and the queue after it when the word's tag has changed. -/
def State.fullEmptyStep (s : State) (o : Op) (f : FullEmpty) (pa : Nat) (va : Word) (y : Tagged) (dst : Option Nat) : State :=
  let t := s.applyFullEmpty o f pa va y dst
  if (t.tagOf pa).getLsbD 0 = (s.tagOf pa).getLsbD 0 then t else t.runQueue pa t.ops.length

/-- R174, R416: an operation reaches its word, after those of the same cycle that go before it. It applies if it can, st.ef,
ld.fe and ld.fx only at a word with no queue (log 39), and otherwise joins the queue; a queued one applies at the head. -/
def State.fullEmptyArrive (s : State) (o : Op) (f : FullEmpty) (pa : Nat) (va : Word) (y : Tagged) (dst : Option Nat) : State :=
  if o.arr.isSome then if s.queueHead pa = some o then s.fullEmptyStep o f pa va y dst else s
  else if (s.atWord pa).any (fun p => p.arr.isNone && p.outranks o) then s
  else if f.canApply ((s.tagOf pa).getLsbD 0) && ((f.canApply true && f.canApply false) || (s.queueHead pa).isNone) then
    s.fullEmptyStep o f pa va y dst
  else s.arrived o

/-- R175, R236: the word that watch and unwatch name: aligned, and in the issuing core's scratch. -/
def watchWord (a : Name) : M (Word × Nat) := do
  let va ← ctlOperand a
  let t ← access va 8 8 .load .fullEmpty
  let s ← get
  match region t.pa with
  | .scratch g off => if g = s.gk.1 then return (va, off / 8) else trap cCLS va
  | _ => trap cCLS va

/-- R236: watch. -/
def watchOp (a : Name) : M Ctl := do
  let w ← watchWord a
  let s ← get
  let x := s.me
  if !x.watches.contains w.2 then
    if 8 ≤ x.watches.length then trap cILL w.1
    set ((s.setMe { x with watches := x.watches ++ [w.2] }).setTagBit (scrBase s.gk.1 + 8 * w.2) 1 true)
  return .next

/-- R236: unwatch. -/
def unwatchOp (a : Name) : M Ctl := do
  let w ← watchWord a
  let s ← get
  let x := s.me
  if x.watches.contains w.2 then
    set ((s.setMe { x with watches := x.watches.filter (fun j => j ≠ w.2) }).unwatchWords s.gk.1 [w.2])
  return .next

/-- R175: waita. -/
def waitaOp : M Ctl := do
  let s ← get
  if !s.me.ready then halt' (.block .ready)
  set (s.setMe { s.me with ready := false })
  return .next

/-- R231: Issues a sign-extending byte load, checked at issue and written later. -/
def execLdB (d : Name) (a : Name) (i : BitVec 12) (s : State) : Host.Outcome State Fault Refusal :=
  issue (.ldB d a i) (loadOp (.ldB d a i) d a i 1 true) s

/-- R231: Issues a zero-extending byte load. -/
def execLdBu (d : Name) (a : Name) (i : BitVec 12) (s : State) : Host.Outcome State Fault Refusal :=
  issue (.ldBu d a i) (loadOp (.ldBu d a i) d a i 1 false) s

/-- R231: Issues a sign-extending halfword load. -/
def execLdH (d : Name) (a : Name) (i : BitVec 12) (s : State) : Host.Outcome State Fault Refusal :=
  issue (.ldH d a i) (loadOp (.ldH d a i) d a i 2 true) s

/-- R231: Issues a zero-extending halfword load. -/
def execLdHu (d : Name) (a : Name) (i : BitVec 12) (s : State) : Host.Outcome State Fault Refusal :=
  issue (.ldHu d a i) (loadOp (.ldHu d a i) d a i 2 false) s

/-- R231: Issues a sign-extending word load. -/
def execLdW (d : Name) (a : Name) (i : BitVec 12) (s : State) : Host.Outcome State Fault Refusal :=
  issue (.ldW d a i) (loadOp (.ldW d a i) d a i 4 true) s

/-- R231: Issues a zero-extending word load. -/
def execLdWu (d : Name) (a : Name) (i : BitVec 12) (s : State) : Host.Outcome State Fault Refusal :=
  issue (.ldWu d a i) (loadOp (.ldWu d a i) d a i 4 false) s

/-- R231: Issues an 8-byte load. -/
def execLdD (d : Name) (a : Name) (i : BitVec 12) (s : State) : Host.Outcome State Fault Refusal :=
  issue (.ldD d a i) (loadOp (.ldD d a i) d a i 8 false) s

/-- R232: Issues a byte store, checked at issue and performed later. -/
def execStB (i : BitVec 12) (a : Name) (b : Name) (s : State) : Host.Outcome State Fault Refusal :=
  issue (.stB i a b) (storeOp (.stB i a b) i a b 1) s

/-- R232: Issues a halfword store. -/
def execStH (i : BitVec 12) (a : Name) (b : Name) (s : State) : Host.Outcome State Fault Refusal :=
  issue (.stH i a b) (storeOp (.stH i a b) i a b 2) s

/-- R232: Issues a word store. -/
def execStW (i : BitVec 12) (a : Name) (b : Name) (s : State) : Host.Outcome State Fault Refusal :=
  issue (.stW i a b) (storeOp (.stW i a b) i a b 4) s

/-- R232: Issues an 8-byte store. -/
def execStD (i : BitVec 12) (a : Name) (b : Name) (s : State) : Host.Outcome State Fault Refusal :=
  issue (.stD i a b) (storeOp (.stD i a b) i a b 8) s

/-- R233: Loads 64 aligned bytes into a vector group of eight cells. -/
def execLdV (d : Name) (a : Name) (s : State) : Host.Outcome State Fault Refusal :=
  issue (.ldV d a) (loadVecOp (.ldV d a) d a) s

/-- R233: Stores a vector group of eight cells to 64 aligned bytes. -/
def execStV (a : Name) (b : Name) (s : State) : Host.Outcome State Fault Refusal :=
  issue (.stV a b) (storeVecOp (.stV a b) a b) s

/-- R234: Blocks until the scratch word is full, reads it and empties it. -/
def execLdFe (d : Name) (a : Name) (s : State) : Host.Outcome State Fault Refusal :=
  issue (.ldFe d a) (fullEmptyOp (.ldFe d a) .ldFe a 0 d true) s

/-- R234: Blocks until the scratch word is full and reads it, leaving it full. -/
def execLdFx (d : Name) (a : Name) (s : State) : Host.Outcome State Fault Refusal :=
  issue (.ldFx d a) (fullEmptyOp (.ldFx d a) .ldFx a 0 d true) s

/-- R234: Blocks until the scratch word is empty, writes it and fills it. -/
def execStEf (a : Name) (b : Name) (s : State) : Host.Outcome State Fault Refusal :=
  issue (.stEf a b) (fullEmptyOp (.stEf a b) .stEf a b 0 false) s

/-- R234: Writes the scratch word and sets it full. -/
def execStFs (a : Name) (b : Name) (s : State) : Host.Outcome State Fault Refusal :=
  issue (.stFs a b) (fullEmptyOp (.stFs a b) .stFs a b 0 false) s

/-- R234: Writes the scratch word and sets it empty. -/
def execStFc (a : Name) (b : Name) (s : State) : Host.Outcome State Fault Refusal :=
  issue (.stFc a b) (fullEmptyOp (.stFc a b) .stFc a b 0 false) s

/-- R235: Stores one nibble of a byte with a single nibble enable. -/
def execStN (h : BitVec 1) (a : Name) (b : Name) (s : State) : Host.Outcome State Fault Refusal :=
  issue (.stN h a b) (storeNibbleOp (.stN h a b) (h = 1) a b) s

/-- R235: Loads one nibble of a byte, zero-extended. -/
def execLdN (d : Name) (a : Name) (h : BitVec 1) (s : State) : Host.Outcome State Fault Refusal :=
  issue (.ldN d a h) (loadNibbleOp (.ldN d a h) d a (h = 1)) s

/-- R236: Marks a word of the core's own scratch as watched by the slot. -/
def execWatch (a : Name) (s : State) : Host.Outcome State Fault Refusal :=
  issue (.watch a) (watchOp a) s

/-- R236: Removes the slot's watch on a word. -/
def execUnwatch (a : Name) (s : State) : Host.Outcome State Fault Refusal :=
  issue (.unwatch a) (unwatchOp a) s

/-- R175: Clears the slot's ready bit, blocking until it is set. -/
def execWaita (s : State) : Host.Outcome State Fault Refusal :=
  issue .waita (waitaOp) s

/-- R237: Loads 16 lanes from base plus per-lane offsets. -/
def execVGather (d : Name) (a : Name) (b : Name) (s : State) : Host.Outcome State Fault Refusal :=
  issue (.vGather d a b) (gatherOp (.vGather d a b) d a b) s

/-- R237: Stores 16 lanes to base plus per-lane offsets in ascending lane order. -/
def execVScatter (d : Name) (a : Name) (b : Name) (s : State) : Host.Outcome State Fault Refusal :=
  issue (.vScatter d a b) (scatterOp (.vScatter d a b) d a b) s

/-- R254: Loads a VF memory image of any alignment into cells, rounded to p. -/
def execVfLd (d : Name) (a : Name) (i : BitVec 12) (s : State) : Host.Outcome State Fault Refusal :=
  issue (.vfLd d a i) (vfLoadOp (.vfLd d a i) d a i) s

/-- R255: Rounds a VF value to p and stores its memory image. -/
def execVfSt (i : BitVec 12) (a : Name) (b : Name) (s : State) : Host.Outcome State Fault Refusal :=
  issue (.vfSt i a b) (vfStoreOp (.vfSt i a b) i a b) s

/-- R231: A load's value arrives and is written to its destination, lowering the loads counter. A turn whose argument opt names a
word of a load of several reads that word alone (R233, R237, R256). -/
def execLoadComplete (s : State) : Host.Outcome State Fault Refusal :=
  s.onOp (fun o =>
    match o.kind with
    | .load sh parts dst =>
      if !s.isFirst o then s
      else match sh, s.ev.opt with
        | .vf va _, none => s.finishVfLoad o va parts dst
        | .vf va whole, some n => s.vfAhead o va whole parts n
        | _, none => s.finishLoad o sh parts dst
        | _, some n => s.loadAhead o sh parts n
    | _ => s)

/-- R232: Memory applies a store's enabled nibbles and the stores counter falls. A turn whose argument opt names a word of a store
of several applies that word alone (R233, R237, R255). -/
def execStoreApply (s : State) : Host.Outcome State Fault Refusal :=
  s.onOp (fun o =>
    match o.kind with
    | .store ws =>
      if !s.isFirst o then s
      else match s.ev.opt with
        | none => ws.foldl (fun s w => s.write (some (o.g, o.k)) w) (s.endOp o)
        | some n => s.storePart o ws n
    | _ => s)

/-- R174: A full/empty operation reaches the owning word and is applied or queued, and queued heads apply. -/
def execFullEmptyApply (s : State) : Host.Outcome State Fault Refusal :=
  s.onOp (fun o =>
    match o.kind with
    | .fullEmpty f pa va y dst =>
      if !s.isFirst o then s else s.fullEmptyArrive o f pa va y dst
    | _ => s)

/-- R71, R73: a walk's result: a translation enters the buffer and the access is issued again, or the access traps. -/
def State.finishWalk (s : State) (o : Op) (va : Nat) : State :=
  let s1 := s.endOp o
  if !o.live then s1
  else match s.walk o.g o.ptroot va with
    | .ok l =>
      let s2 := s1.tlbFill o.g o.asid va l
      s2.setSlot o.g o.k { s2.slot o.g o.k with blocked := none }
    | .error e => s1.releaseTrap o e.code e.val e.sub

/-- R71: A queued translation walk runs and returns a translation or an XLT or PERM fault. -/
def execPageWalk (s : State) : Host.Outcome State Fault Refusal :=
  s.onOp (fun o =>
    match o.kind with
    | .walk va _ => s.finishWalk o va
    | _ => s)

end Sys2Proof.Machine
end

