-- ==== Sys2Proof/Machine/Atomic.lean ====
section
/-! DEFINITION. Sys2Proof/Machine/Atomic.lean: major 0x1E: atomics and reductions (R239, R240). -/

namespace Sys2Proof.Machine

/-- R239: what an atomic writes: the new value and its tag, or none when amo.cas does not match. -/
def Amo.apply (f : Amo) (old y : Tagged) (cmp : Word) : Option Tagged :=
  let t := old.t || y.t
  match f with
  | .add => some { v := old.v + y.v, t := t }
  | .and => some { v := old.v &&& y.v, t := t }
  | .or => some { v := old.v ||| y.v, t := t }
  | .xor => some { v := old.v ^^^ y.v, t := t }
  | .min => some { v := if old.v.sle y.v then old.v else y.v, t := t }
  | .max => some { v := if y.v.sle old.v then old.v else y.v, t := t }
  | .xchg => some y
  | .cas => if old.v = cmp then some y else none

/-- R240: what a reduction leaves in its word. -/
def Red.apply (f : Red) (old y : Tagged) : Tagged :=
  let t := old.t || y.t
  match f with
  | .add => { v := old.v + y.v, t := t }
  | .or => { v := old.v ||| y.v, t := t }
  | .max => { v := if y.v.sle old.v then old.v else y.v, t := t }

/-- R239: an atomic; cas says that d is read as the compare value. -/
def amoOp (i : Instr) (f : Amo) (d a b : Name) (cas : Bool) : M Ctl := do
  let va ← ctlOperand a
  let y ← readName b
  let c ← if cas then ctlOperand d else pure 0
  let t ← access va 8 8 .atomic .plain y.t
  softCheck t.pa 8 va
  let s ← get
  let _ ← emit i .loads (.atomic f t.pa y c (t.cls = 1) (s.lateDst d))
  return .next

/-- R240: red.add, red.or, red.max. -/
def redOp (i : Instr) (f : Red) (a b : Name) : M Ctl := do
  let va ← ctlOperand a
  let y ← readName b
  let t ← access va 8 8 .atomic .plain y.t
  softCheck t.pa 8 va
  let _ ← emit i .stores (.red f t.pa y (t.cls = 1))
  return .next

/-- R240: red.ew. -/
def redEwOp (i : Instr) (d a b : Name) : M Ctl := do
  let va ← ctlOperand a
  let x ← ctlOperand b
  let z ← ctlOperand d
  let e := (z.extractLsb' 0 32).toInt
  if !windowExpOk e then trap cILL (BitVec.ofInt 64 e)
  let t ← access va 8 8 .atomic
  softCheck t.pa 8 va
  let r := windowOf 64 e (num32 (x.extractLsb' 0 32))
  raiseFl r.2
  let _ ← emit i .stores (.red .add t.pa { v := BitVec.ofInt 64 r.1, t := false } (t.cls = 1))
  return .next

/-- R239: Atomically adds to a word and returns the old value. -/
def execAmoAdd (d : Name) (a : Name) (b : Name) (s : State) : Host.Outcome State Fault Refusal :=
  issue (.amoAdd d a b) (amoOp (.amoAdd d a b) .add d a b false) s

/-- R239: Atomically ANDs a word and returns the old value. -/
def execAmoAnd (d : Name) (a : Name) (b : Name) (s : State) : Host.Outcome State Fault Refusal :=
  issue (.amoAnd d a b) (amoOp (.amoAnd d a b) .and d a b false) s

/-- R239: Atomically ORs a word and returns the old value. -/
def execAmoOr (d : Name) (a : Name) (b : Name) (s : State) : Host.Outcome State Fault Refusal :=
  issue (.amoOr d a b) (amoOp (.amoOr d a b) .or d a b false) s

/-- R239: Atomically XORs a word and returns the old value. -/
def execAmoXor (d : Name) (a : Name) (b : Name) (s : State) : Host.Outcome State Fault Refusal :=
  issue (.amoXor d a b) (amoOp (.amoXor d a b) .xor d a b false) s

/-- R239: Atomically takes the signed minimum and returns the old value. -/
def execAmoMin (d : Name) (a : Name) (b : Name) (s : State) : Host.Outcome State Fault Refusal :=
  issue (.amoMin d a b) (amoOp (.amoMin d a b) .min d a b false) s

/-- R239: Atomically takes the signed maximum and returns the old value. -/
def execAmoMax (d : Name) (a : Name) (b : Name) (s : State) : Host.Outcome State Fault Refusal :=
  issue (.amoMax d a b) (amoOp (.amoMax d a b) .max d a b false) s

/-- R239: Atomically exchanges a word and returns the old value. -/
def execAmoXchg (d : Name) (a : Name) (b : Name) (s : State) : Host.Outcome State Fault Refusal :=
  issue (.amoXchg d a b) (amoOp (.amoXchg d a b) .xchg d a b false) s

/-- R239: Atomically compares and swaps a word, returning the old value in d. -/
def execAmoCas (d : Name) (a : Name) (b : Name) (s : State) : Host.Outcome State Fault Refusal :=
  issue (.amoCas d a b) (amoOp (.amoCas d a b) .cas d a b true) s

/-- R240: Issues an atomic add reduction that returns nothing. -/
def execRedAdd (a : Name) (b : Name) (s : State) : Host.Outcome State Fault Refusal :=
  issue (.redAdd a b) (redOp (.redAdd a b) .add a b) s

/-- R240: Issues an atomic OR reduction that returns nothing. -/
def execRedOr (a : Name) (b : Name) (s : State) : Host.Outcome State Fault Refusal :=
  issue (.redOr a b) (redOp (.redOr a b) .or a b) s

/-- R240: Issues an atomic signed-maximum reduction that returns nothing. -/
def execRedMax (a : Name) (b : Name) (s : State) : Host.Outcome State Fault Refusal :=
  issue (.redMax a b) (redOp (.redMax a b) .max a b) s

/-- R240: Converts an FP32 value into an EW64 window at issue and adds it atomically. -/
def execRedEw (d : Name) (a : Name) (b : Name) (s : State) : Host.Outcome State Fault Refusal :=
  issue (.redEw d a b) (redEwOp (.redEw d a b) d a b) s

/-- R239: The owning unit applies an atomic to its word as one event and returns the old value. -/
def execAtomicApply (s : State) : Host.Outcome State Fault Refusal :=
  s.onOp (fun o =>
    match o.kind with
    | .atomic f pa y cmp classB dst =>
      if !s.isFirst o then s
      else match s.badWord pa 8 with
        | some a => (s.failOp o (softCause a).1 0 (softCause a).2).arrive o dst [{}]
        | none =>
          let old := s.valueAt o.g 8 (pa, classB)
          let s1 := s.endOp o
          let s2 := match f.apply old y cmp with
            | some n => s1.write (some (o.g, o.k)) { pa := pa, data := n.v, en := 0xFFFF, tag := n.t }
            | none => s1
          s2.arrive o dst [old]
    | _ => s)

/-- R240: The owning unit applies a reduction to its word and the stores counter falls. -/
def execReductionApply (s : State) : Host.Outcome State Fault Refusal :=
  s.onOp (fun o =>
    match o.kind with
    | .red f pa y classB =>
      if !s.isFirst o then s
      else match s.badWord pa 8 with
        | some a => s.failOp o (softCause a).1 0 (softCause a).2
        | none =>
          let n := f.apply (s.valueAt o.g 8 (pa, classB)) y
          (s.endOp o).write (some (o.g, o.k)) { pa := pa, data := n.v, en := 0xFFFF, tag := n.t }
    | _ => s)

end Sys2Proof.Machine
end

