-- ==== Sys2Proof/Machine/Barrier.lean ====
section
/-! DEFINITION. Sys2Proof/Machine/Barrier.lean: major 0x21 and the barrier events: the operations of barrier objects,
tokens and waits, answers, and the gang sync (R166 to R173, R264, R273, R274, R419). -/

namespace Sys2Proof.Machine

/-- R273: the checks of a barrier instruction at issue: alignment, then the object's place; every one raises BAR 0x02 on
the Vrelell core (R22). The answer is the object's physical address. -/
def barPlace (va : Word) : M Nat := do
  if va.toNat % 32 ≠ 0 then trap cALN va
  let s ← get
  if s.gk.1 = vrNum then trap cBAR va 2
  let t ← access va 32 32 .atomic .barrier
  return t.pa

/-- R264, R419: the operation travels to its unit and the slot waits for the answer. -/
def barSend (i : Instr) (pa : Nat) (va : Word) (op : BarOp) (d : Name) (loads : Bool) : M Ctl := do
  let s ← get
  let kind : OpKind := .bar pa va op (s.lateDst d)
  let id ← if loads then emit i .loads kind else emitFree i kind
  awaitAnswer id

/-- A barrier instruction of one address. -/
def barOp1 (i : Instr) (a d : Name) (op : BarOp) (loads : Bool) : M Ctl := do
  let va ← ctlOperand a
  let pa ← barPlace va
  barSend i pa va op d loads

/-- A barrier instruction of an address and a value. -/
def barOp2 (i : Instr) (a b d : Name) (op : State → Word → BarOp) : M Ctl := do
  let va ← ctlOperand a
  let y ← ctlOperand b
  let pa ← barPlace va
  let s ← get
  barSend i pa va (op s y) d false

/-- R273: bar.init. -/
def barInitOp (i : Instr) (d a b : Name) : M Ctl := do
  let va ← ctlOperand a
  let bexp ← ctlOperand b
  let c ← ctlOperand d
  let pa ← barPlace va
  if 5 ≤ (c.extractLsb' 16 3).toNat || c.extractLsb' 19 45 ≠ 0 then trap cILL c
  barSend i pa va (.init c bexp) 0 false

/-- R274: bar.twait: its limit as the last cycle at which a notice counts; L = 0 acts as bar.test. -/
def twaitOp (s : State) (y : Word) : BarOp :=
  let l := (y.extractLsb' 32 32).toNat
  if l = 0 then .test (y.extractLsb' 0 16) else .twait (y.extractLsb' 0 16) ((s.core s.gk.1).cyc + l)

/-- R168: the lowest free membership register. -/
def Slot.freeBmem (x : Slot) : Option Nat := (List.range 4).find? (fun i => !(x.bmems.getD i 0).getLsbD 63)

/-- R168: bar.join and bar.drop change the slot's memberships at the moment the operation is applied. -/
def State.joinBmem (s : State) (g k : Nat) (va : Word) : State :=
  match (s.slot g k).freeBmem with
  | some i => s.setSlot g k ((s.slot g k).setBmem i ((va.extractLsb' 0 49).setWidth 64 ||| (1 <<< 63)))
  | none => s

/-- R168: any membership that holds the object is freed. -/
def State.dropBmem (s : State) (g k pa : Nat) : State :=
  let x := (s.heldBy g k pa).foldl (fun x i => x.setBmem i 0) (s.slot g k)
  s.setSlot g k { x with moved := x.moved.filter (fun q => q ≠ pa) }

/-- A barrier operation's answer leaves its unit. -/
def State.barReply (s : State) (o : Op) (va : Word) (dst : Option Nat) (a : Answer) : State :=
  s.setKind o.id (.barAnswer va a dst)

/-- R168: an operation on an object that passed the checks of R167 common to all: its own checks, its effect, its
answer. -/
def State.barEffect (s : State) (o : Op) (pa : Nat) (va : Word) (op : BarOp) (dst : Option Nat) (b : BarObj) : State :=
  let done (s : State) (v : Option Word) : State := s.barReply o va dst (.applied v)
  let refuse (sub : Nat) : State := s.barReply o va dst (.refused sub)
  let token : Word := b.phase.setWidth 64
  -- the reading operations read the phase that they are applied to; whether it is complete is tested after them too
  let after (s : State) : State := if b.test.2 then s.barFinish pa b else s
  let c := match op with
    | .wait t | .test t | .twait t _ => barCode b.phase t
    | _ => 0
  match op with
  | .init _ _ => s
  | .join =>
    if b.expect = 0xFFFF then refuse 7
    else if s.timesHeld o.g o.k pa ≠ 0 || 4 ≤ (s.memberPas o.g o.k).length || (s.slot o.g o.k).freeBmem = none then refuse 5
    else done ((s.joinBmem o.g o.k va).barFinish pa { b with expect := b.expect + 1 }) none
  | .arrive =>
    if b.arrived = b.expect then refuse 3
    else done (s.barFinish pa { b with arrived := b.arrived + 1 }) (some token)
  | .drop =>
    if b.arrived = b.expect then refuse 3
    else if 1 < s.timesHeld o.g o.k pa then refuse 5
    else done ((s.dropBmem o.g o.k pa).barFinish pa { b with arrived := b.arrived + 1, drops := b.drops + 1 })
      (some token)
  | .expect n => done (s.barFinish pa { b with bexp := b.bexp + n }) none
  | .inval => done ((s.writeBar pa { b with flags := b.flags ||| 8 }).barNotify pa b.phase true) none
  | .wait t =>
    after (if c = 0 then s.setKind o.id (.barPending pa va t none dst) else done s none)
  | .test _ => after (s.barReply o va dst (.tested pa (BitVec.ofNat 64 c)))
  | .twait t l =>
    after (s.setKind o.id (if c = 0 then .barPending pa va t (some l) dst else .barNotice va c (some l) dst))

/-- R167 to R169: a barrier unit applies one operation. All but bar.init, which writes the object whole, read it, and take SOFT
for an uncorrectable error there (R61, R392; log 81). -/
def State.applyBar (s : State) (o : Op) (pa : Nat) (va : Word) (op : BarOp) (dst : Option Nat) : State :=
  let b := s.readBar pa
  match op with
  | .init c bexp =>
    if !s.covers (c.extractLsb' 16 3).toNat o.g (ownerOf pa) then s.barReply o va dst (.refused 2)
    else
      let n : BarObj := { phase := 0, flags := (c.extractLsb' 16 3).setWidth 16, expect := c.extractLsb' 0 16,
                          arrived := 0, drops := 0, rest := 0, bexp := bexp, barr := 0 }
      ((s.writeBar pa n).barNotify pa 0 true).barReply o va dst (.applied none)
  | _ =>
    match s.badWord pa 32 with
    | some a => s.barReply o va dst (.soft (softCause a).1 (softCause a).2 (va + BitVec.ofNat 64 (a - pa)))
    | none => match s.barCheck b o.g (ownerOf pa) with
    | some sub => s.barReply o va dst (match op with
      | .twait _ l => .refusedBy sub l
      | _ => .refused sub)
    | none => s.barEffect o pa va op dst b

/-- The slot that waited is released, with a value for its destination cell. -/
def State.barDone (s : State) (o : Op) (dst : Option Nat) (v : Option Word) : State :=
  let s1 := s.endOp o
  let s2 := match v with
    | some w => s1.arrive o dst [{ v := w, t := false }]
    | none => s1
  if o.live then s2.release o.g o.k else s2

/-- R173: sync: a gang member's count rises and it blocks; in a task that is no gang it completes at once. -/
def syncOp : M Ctl := do
  let s ← get
  match s.me.gang with
  | none => return .next
  | some (n, i) =>
    let c := s.me.syncs + 1
    let s1 := s.setMe { s.me with syncs := c, blocked := some .sync }
    set { s1 with gangs := s1.gangs.map (fun (a : Gang) =>
            if a.id = n then { a with counts := a.counts.set i (some c) } else a) }
    return .stay

/-- The slots whose threads belong to a gang. -/
def State.gangSlots (s : State) (n : Nat) : List (Nat × Nat) :=
  s.cores.flatMap (fun e => (e.2.slots.filter (fun x => match x.2.gang with
    | some (m, _) => m = n
    | none => false)).map (fun x => (e.1, x.1)))

/-- R173: the lowest count of the members that have not exited. -/
def Gang.low (a : Gang) : Nat :=
  (a.counts.filterMap (fun c => c)).foldl (fun m c => match m with | some x => some (Nat.min x c) | none => some c) none |>.getD 0

/-- R173, R265: the node releases the members whose count every member has reached, once the accesses of every waiting
member have been performed. -/
def State.gangRelease (s : State) (n : Nat) : State :=
  match s.gangs.find? (fun a => a.id = n) with
  | none => s
  | some a =>
    let waiting := (s.gangSlots n).filter (fun e => (s.slot e.1 e.2).blocked = some .sync)
    if waiting.any (fun e => !s.performedBefore e.1 e.2 s.nextId) then s
    else (waiting.filter (fun e => (s.slot e.1 e.2).syncs ≤ a.low)).foldl (fun s e => s.release e.1 e.2) s

/-! ### The instructions and events -/

/-- R273: Initialises a barrier object with scope, expected threads and bytes. -/
def execBarInit (d : Name) (a : Name) (b : Name) (s : State) : Host.Outcome State Fault Refusal :=
  issue (.barInit d a b) (barInitOp (.barInit d a b) d a b) s

/-- R273: Raises a barrier's expected count and records a membership. -/
def execBarJoin (a : Name) (s : State) : Host.Outcome State Fault Refusal :=
  issue (.barJoin a) (barOp1 (.barJoin a) a 0 .join false) s

/-- R273: Counts the slot into the barrier's current phase and returns a token. -/
def execBarArrive (d : Name) (a : Name) (s : State) : Host.Outcome State Fault Refusal :=
  issue (.barArrive d a) (barOp1 (.barArrive d a) a d .arrive true) s

/-- R273: Arrives and drops the slot from later phases, freeing its membership. -/
def execBarDrop (d : Name) (a : Name) (s : State) : Host.Outcome State Fault Refusal :=
  issue (.barDrop d a) (barOp1 (.barDrop d a) a d .drop true) s

/-- R273: Adds a signed count to a barrier's expected bytes. -/
def execBarExpect (a : Name) (b : Name) (s : State) : Host.Outcome State Fault Refusal :=
  issue (.barExpect a b) (barOp2 (.barExpect a b) a b 0 (fun _ y => .expect y)) s

/-- R274: Blocks until the barrier's phase differs from the token's. -/
def execBarWait (a : Name) (b : Name) (s : State) : Host.Outcome State Fault Refusal :=
  issue (.barWait a b) (barOp2 (.barWait a b) a b 0 (fun _ y => .wait (y.extractLsb' 0 16))) s

/-- R274: Writes the barrier's report code for a token. -/
def execBarTest (d : Name) (a : Name) (b : Name) (s : State) : Host.Outcome State Fault Refusal :=
  issue (.barTest d a b) (barOp2 (.barTest d a b) a b d (fun _ y => .test (y.extractLsb' 0 16))) s

/-- R274: Waits up to L cycles for a token's phase to pass, then writes the code. -/
def execBarTwait (d : Name) (a : Name) (b : Name) (s : State) : Host.Outcome State Fault Refusal :=
  issue (.barTwait d a b) (barOp2 (.barTwait d a b) a b d twaitOp) s

/-- R273: Marks a barrier object invalid. -/
def execBarInval (a : Name) (s : State) : Host.Outcome State Fault Refusal :=
  issue (.barInval a) (barOp1 (.barInval a) a 0 .inval false) s

/-- R173: Blocks a gang member until every member has issued as many syncs or exited. -/
def execSync (s : State) : Host.Outcome State Fault Refusal :=
  issue .sync (syncOp) s

/-- R168: A barrier unit checks and applies an operation or byte post to an object, once it has reached the unit (R187, R265) and
the operations that go before it have been applied (R169). -/
def execBarrierOperationApply (s : State) : Host.Outcome State Fault Refusal :=
  s.onOp (fun o =>
    match o.kind with
    | .bar pa va op dst =>
      if (s.atUnit o).isNone || s.heldBack o || (op.isRelease && !s.performedBefore o.g o.k o.id) then s
      else s.applyBar o pa va op dst
    | _ => s)

/-- R419: A unit's answer reaches the issuing core, releasing the slot with token, code or BAR trap. -/
def execBarrierAnswer (s : State) : Host.Outcome State Fault Refusal :=
  s.onOp (fun o =>
    match o.kind with
    | .barAnswer _ (.applied v) dst => s.barDone o dst v
    | .barAnswer _ (.tested _ v) dst => s.barDone o dst (some v)
    | .barAnswer va (.refused sub) _ => if o.live then (s.endOp o).releaseTrap o cBAR va sub else s.endOp o
    | .barAnswer va (.refusedBy sub t) _ =>
      if o.live && t < (s.core o.g).cyc then s
      else if o.live then (s.endOp o).releaseTrap o cBAR va sub else s.endOp o
    | .barAnswer _ (.soft code sub va) _ | .nodeSoft code sub va =>
      if o.live then (s.endOp o).releaseTrap o code va sub else s.endOp o
    | .nodeAnswer => s.barDone o none none
    | _ => s)

/-- R274: A phase completion notice reaches a waiting slot and releases bar.wait or bar.twait. -/
def execBarrierRelease (s : State) : Host.Outcome State Fault Refusal :=
  s.onOp (fun o =>
    match o.kind with
    | .barNotice _ code dl dst =>
      if (dl.any (fun t => t < (s.core o.g).cyc)) then s
      else s.barDone o dst (dl.map (fun _ => BitVec.ofNat 64 code))
    | _ => s)

/-- R274: A bar.twait's limit runs out and it writes code 3. -/
def execBarTwaitTimeout (s : State) : Host.Outcome State Fault Refusal :=
  s.onOp (fun o =>
    match o.kind with
    | .bar _ _ (.twait _ t) dst => if (s.core o.g).cyc < t then s else s.barDone o dst (some 3)
    | .barPending _ _ _ (some t) dst => if (s.core o.g).cyc < t then s else s.barDone o dst (some 3)
    | .barAnswer _ (.refusedBy _ t) dst => if (s.core o.g).cyc ≤ t then s else s.barDone o dst (some 3)
    | .barNotice _ _ (some t) dst => if (s.core o.g).cyc ≤ t then s else s.barDone o dst (some 3)
    | _ => s)

/-- R173: The gang node releases members once every member has issued as many syncs or exited. -/
def execGangSyncRelease (s : State) : Host.Outcome State Fault Refusal :=
  .next (s.gangRelease s.ev.id)

end Sys2Proof.Machine
end

