-- ==== Sys2Proof/Machine/Bits.lean ====
section
/-! DEFINITION. Sys2Proof/Machine/Bits.lean: major 0x02: counts, ranks and bit fields (R222). -/

namespace Sys2Proof.Machine

/-- R222: the zero bits above the highest set bit. -/
def clz (x : Word) : Nat := 64 - bitLen x.toNat

/-- R222: the zero bits below the lowest set bit, looking at n bits. -/
def ctzFrom (x : Nat) : Nat → Nat
  | 0 => 0
  | n + 1 => if x % 2 = 1 then 0 else 1 + ctzFrom (x / 2) n

/-- R222: the set bits among the lowest n bits. -/
def popFrom (x : Nat) : Nat → Nat
  | 0 => 0
  | n + 1 => x % 2 + popFrom (x / 2) n

/-- The number of set bits of a word. -/
def popCount (x : Word) : Nat := popFrom x.toNat 64

/-- R222: the position of set bit number k, looking at n bits; n beyond the last when there is none. -/
def nthFrom (x : Nat) : Nat → Nat → Nat
  | 0, _ => 0
  | n + 1, k => if x % 2 = 1 then (if k = 0 then 0 else 1 + nthFrom (x / 2) n (k - 1)) else 1 + nthFrom (x / 2) n k

/-- R222, bext: the bits of x at the set positions of y, packed. -/
def extractFrom (x y : Nat) : Nat → Nat
  | 0 => 0
  | n + 1 => if y % 2 = 1 then x % 2 + 2 * extractFrom (x / 2) (y / 2) n else extractFrom (x / 2) (y / 2) n

/-- R222, bdep: the low bits of x spread into the set positions of y. -/
def depositFrom (x y : Nat) : Nat → Nat
  | 0 => 0
  | n + 1 => if y % 2 = 1 then x % 2 + 2 * depositFrom (x / 2) (y / 2) n else 2 * depositFrom x (y / 2) n

/-- R222, rank: the set bits of x below position min(y, 64). -/
def rankBits (x y : Word) : Nat := popFrom x.toNat (Nat.min y.toNat 64)

/-- R222: the bytes in reverse order. -/
def revBytes (x : Word) : Word :=
  x.extractLsb' 0 8 ++ x.extractLsb' 8 8 ++ x.extractLsb' 16 8 ++ x.extractLsb' 24 8 ++ x.extractLsb' 32 8
    ++ x.extractLsb' 40 8 ++ x.extractLsb' 48 8 ++ x.extractLsb' 56 8

/-- R222: Writes the count of leading zero bits of a cell. -/
def execClz (d : Name) (a : Name) (s : State) : Host.Outcome State Fault Refusal :=
  issue (.clz d a) (unOp d a (fun x => BitVec.ofNat 64 (clz x))) s

/-- R222: Writes the count of trailing zero bits of a cell. -/
def execCtz (d : Name) (a : Name) (s : State) : Host.Outcome State Fault Refusal :=
  issue (.ctz d a) (unOp d a (fun x => BitVec.ofNat 64 (ctzFrom x.toNat 64))) s

/-- R222: Writes the number of set bits of a cell. -/
def execPopc (d : Name) (a : Name) (s : State) : Host.Outcome State Fault Refusal :=
  issue (.popc d a) (unOp d a (fun x => BitVec.ofNat 64 (popCount x))) s

/-- R222: Writes a cell with its bytes reversed. -/
def execRev8 (d : Name) (a : Name) (s : State) : Host.Outcome State Fault Refusal :=
  issue (.rev8 d a) (unOp d a (revBytes)) s

/-- R222: Sign-extends the low 8 bits of a cell. -/
def execSext8 (d : Name) (a : Name) (s : State) : Host.Outcome State Fault Refusal :=
  issue (.sext8 d a) (unOp d a (fun x => (x.extractLsb' 0 8).signExtend 64)) s

/-- R222: Sign-extends the low 16 bits of a cell. -/
def execSext16 (d : Name) (a : Name) (s : State) : Host.Outcome State Fault Refusal :=
  issue (.sext16 d a) (unOp d a (fun x => (x.extractLsb' 0 16).signExtend 64)) s

/-- R222: Sign-extends the low 32 bits of a cell. -/
def execSext32 (d : Name) (a : Name) (s : State) : Host.Outcome State Fault Refusal :=
  issue (.sext32 d a) (unOp d a (fun x => (x.extractLsb' 0 32).signExtend 64)) s

/-- R222: Zero-extends the low 8 bits of a cell. -/
def execZext8 (d : Name) (a : Name) (s : State) : Host.Outcome State Fault Refusal :=
  issue (.zext8 d a) (unOp d a (fun x => (x.extractLsb' 0 8).setWidth 64)) s

/-- R222: Zero-extends the low 16 bits of a cell. -/
def execZext16 (d : Name) (a : Name) (s : State) : Host.Outcome State Fault Refusal :=
  issue (.zext16 d a) (unOp d a (fun x => (x.extractLsb' 0 16).setWidth 64)) s

/-- R222: Zero-extends the low 32 bits of a cell. -/
def execZext32 (d : Name) (a : Name) (s : State) : Host.Outcome State Fault Refusal :=
  issue (.zext32 d a) (unOp d a (fun x => (x.extractLsb' 0 32).setWidth 64)) s

/-- R222: Writes the count of set bits of x below position min(y, 64). -/
def execRank (d : Name) (a : Name) (b : Name) (s : State) : Host.Outcome State Fault Refusal :=
  issue (.rank d a b) (binOp d a b (fun x y => BitVec.ofNat 64 (rankBits x y))) s

/-- R222: Writes the position of set bit number y of x, or 64. -/
def execNth (d : Name) (a : Name) (b : Name) (s : State) : Host.Outcome State Fault Refusal :=
  issue (.nth d a b) (binOp d a b (fun x y => BitVec.ofNat 64 (nthFrom x.toNat 64 y.toNat))) s

/-- R222: Packs the bits of x at the mask's set positions into the low bits. -/
def execBext (d : Name) (a : Name) (b : Name) (s : State) : Host.Outcome State Fault Refusal :=
  issue (.bext d a b) (binOp d a b (fun x y => BitVec.ofNat 64 (extractFrom x.toNat y.toNat 64))) s

/-- R222: Spreads the low bits of x into the mask's set positions. -/
def execBdep (d : Name) (a : Name) (b : Name) (s : State) : Host.Outcome State Fault Refusal :=
  issue (.bdep d a b) (binOp d a b (fun x y => BitVec.ofNat 64 (depositFrom x.toNat y.toNat 64))) s

end Sys2Proof.Machine
end

