-- ==== Sys2Proof/Machine/Branch.lean ====
section
/-! DEFINITION. Sys2Proof/Machine/Branch.lean: majors 0x0E to 0x11 and 0x3B: branches, jumps and pskip (R228 to R230). -/

namespace Sys2Proof.Machine

/-- R228: a jump to a byte address: on a slot a misaligned target raises ALN at the jump with TVAL the target; on a mason
unit a target outside the 4 KiB image or misaligned fails the run with subcode 6 (R157, R158). -/
def jumpTo (t : Word) : M Ctl := do
  let s ← get
  if s.onMason then
    if 4096 ≤ t.toNat || t.toNat % 4 ≠ 0 then halt' (.mason 6)
    return .jump t
  else
    if t.toNat % 4 ≠ 0 then trap cALN t
    return .jump t

/-- A + 4 times an offset in words (R204). -/
def relTarget (A : Nat) (off : Word) : Word := BitVec.ofNat 64 A + 4 * off

/-- The link value A + 4. -/
def linkOf (s : State) : Word := BitVec.ofNat 64 (s.here + 4)

/-- R228: a jump to the target in a cell. -/
def jrOp (a : Name) : M Ctl := do
  let t ← ctlOperand a
  jumpTo t

/-- R228: Branches by a 22-bit word offset when the predicate XOR sense holds. -/
def execBp (n : BitVec 1) (p : BitVec 3) (o : BitVec 22) (s : State) : Host.Outcome State Fault Refusal :=
  issue (.bp n p o) (if s.guard p n then jumpTo (relTarget s.here (o.signExtend 64)) else pure .next) s

/-- R228: Branches unconditionally by a 26-bit word offset. -/
def execBr (o : BitVec 26) (s : State) : Host.Outcome State Fault Refusal :=
  issue (.br o) (jumpTo (relTarget s.here (o.signExtend 64))) s

/-- R228: Writes the return address to x8 and branches by a 26-bit word offset. -/
def execBl (o : BitVec 26) (s : State) : Host.Outcome State Fault Refusal :=
  issue (.bl o) (do writeName 8 { v := linkOf s, t := false }; jumpTo (relTarget s.here (o.signExtend 64))) s

/-- R228: Jumps to the address in a cell after tag and alignment checks. -/
def execJr (a : Name) (s : State) : Host.Outcome State Fault Refusal :=
  issue (.jr a) (jrOp a) s

/-- R228: Jumps to the address in a cell and writes the return address. -/
def execJlr (d : Name) (a : Name) (s : State) : Host.Outcome State Fault Refusal :=
  issue (.jlr d a) (do let c ← jrOp a; writeName d { v := linkOf s, t := false }; return c) s

/-- R230: Skips the next n words, unfetched, when the predicate XOR sense holds. -/
def execPskip (n : BitVec 1) (p : BitVec 3) (c : BitVec 4) (s : State) : Host.Outcome State Fault Refusal :=
  issue (.pskip n p c) (if s.guard p n then pure (.jump (relTarget s.here (c.setWidth 64 + 1))) else pure .next) s

end Sys2Proof.Machine
end

