-- ==== Sys2Proof/Machine/Crypto.lean ====
section
/-! DEFINITION. Sys2Proof/Machine/Crypto.lean: SHAKE256 (FIPS 202) and Ed448 in pure mode with an empty context
(RFC 8032), which R354, R357, R359 and R361 name (log 21). -/

namespace Sys2Proof.Machine

/-! ### SHAKE256 -/

/-- Lane (x, y) of the state, which lists the lanes plane by plane; coordinates are taken modulo 5. -/
def keccakLane (a : List Word) (x y : Nat) : Word := a.getD (5 * (y % 5) + x % 5) 0

/-- The state whose lane (x, y) is f x y. -/
def byLane (f : Nat → Nat → Word) : List Word := (List.range 25).map (fun i => f (i % 5) (i / 5))

/-- The step theta: each lane takes in the parities of a column on either side. -/
def stepTheta (a : List Word) : List Word :=
  let parity := (List.range 5).map (fun x => (List.range 5).foldl (fun w y => w ^^^ keccakLane a x y) 0)
  byLane (fun x y => keccakLane a x y ^^^ keccakLane parity (x + 4) 0 ^^^ (keccakLane parity (x + 1) 0).rotateLeft 1)

/-- The walk of the steps rho and pi over n lanes from the t-th, (x, y), on: from where a lane comes, to where it goes, and by
how much it turns, the triangular number of its place in the walk. -/
def laneWalk : Nat → Nat → Nat → Nat → List (Nat × Nat × Nat)
  | 0, _, _, _ => []
  | n + 1, t, x, y =>
    let y' := (2 * x + 3 * y) % 5
    (5 * y + x, 5 * y' + y, (t + 1) * (t + 2) / 2 % 64) :: laneWalk n (t + 1) y y'

/-- The steps rho and pi: 24 lanes turn and move along the walk that begins at (1, 0); lane (0, 0) stays. -/
def stepMove (a : List Word) : List Word :=
  (laneWalk 24 0 1 0).foldl (fun b m => b.set m.2.1 ((a.getD m.1 0).rotateLeft m.2.2)) a

/-- The step chi: each lane takes in the two after it in its plane. -/
def stepChi (a : List Word) : List Word :=
  byLane (fun x y => keccakLane a x y ^^^ (keccakLane a (x + 2) y &&& ~~~keccakLane a (x + 1) y))

/-- The bits that the step iota draws from the shift register of x^8 + x^6 + x^5 + x^4 + 1, n of them from a content on. -/
def iotaBits : Nat → Nat → List Bool
  | 0, _ => []
  | n + 1, r => (r % 2 = 1) :: iotaBits n (if 128 ≤ r then Nat.xor (2 * r - 256) 0x71 else 2 * r)

/-- The constant of the step iota from seven bits of the register: bit j stands at 2^j - 1. -/
def iotaWord (bs : List Bool) : Word :=
  BitVec.ofNat 64 (((List.range 7).map (fun j => if bs.getD j false then 2 ^ (2 ^ j - 1) else 0)).foldl (· + ·) 0)

/-- One round, its constant given by the register's bits. -/
def keccakRound (a : List Word) (bs : List Bool) : List Word :=
  let b := stepChi (stepMove (stepTheta a))
  b.set 0 (keccakLane b 0 0 ^^^ iotaWord bs)

/-- The permutation Keccak-f[1600]: 24 rounds, each with the next seven bits of the register. -/
def keccakF (a : List Word) : List Word :=
  let bits := iotaBits 168 1
  (List.range 24).foldl (fun s i => keccakRound s ((bits.drop (7 * i)).take 7)) a

/-- The little-endian word of up to 8 bytes. -/
def wordOfLE (bs : List Byte) : Word := BitVec.ofNat 64 (bs.foldr (fun b a => b.toNat + 256 * a) 0)

/-- The 8 bytes of a word, little-endian. -/
def leBytes (w : Word) : List Byte := (List.range 8).map (fun j => w.extractLsb' (8 * j) 8)

/-- The lanes of a block of 136 bytes. -/
def blockLanes : Nat → List Byte → List Word
  | 0, _ => []
  | n + 1, bs => wordOfLE (bs.take 8) :: blockLanes n (bs.drop 8)

/-- Absorbs n blocks. -/
def absorb : Nat → List Byte → List Word → List Word
  | 0, _, a => a
  | n + 1, bs, a =>
    let lanes := blockLanes 17 (bs.take 136) ++ List.replicate 8 0
    absorb n (bs.drop 136) (keccakF ((a.zip lanes).map (fun e => e.1 ^^^ e.2)))

/-- Squeezes n blocks. -/
def squeeze : Nat → List Word → List Byte
  | 0, _ => []
  | n + 1, a => (a.take 17).flatMap leBytes ++ squeeze n (keccakF a)

/-- The message padded to whole blocks: 0x1F, zeros, 0x80. -/
def shakePad (m : List Byte) : List Byte :=
  let z := 135 - m.length % 136
  if z = 0 then m ++ [0x9F] else m ++ [0x1F] ++ List.replicate (z - 1) 0 ++ [0x80]

/-- SHAKE256 of a message, n bytes. -/
def shake256 (m : List Byte) (n : Nat) : List Byte :=
  let p := shakePad m
  (squeeze ((n + 135) / 136) (absorb (p.length / 136) p (List.replicate 25 0))).take n

/-! ### Ed448 -/

/-- The field prime. -/
def edP : Nat := 2 ^ 448 - 2 ^ 224 - 1
/-- The order of the base point. -/
def edL : Nat := 2 ^ 446 - 13818066809895115352007386748515426880336692474882178609894547503885
/-- The curve constant d = -39081. -/
def edD : Nat := edP - 39081

/-- Powers modulo the field prime, n bits of exponent. -/
def edPow (x : Nat) : Nat → Nat → Nat
  | 0, _ => 1
  | n + 1, e => let r := edPow (x * x % edP) n (e / 2); if e % 2 = 1 then r * x % edP else r

/-- A projective point. -/
structure EdPoint where
  x : Nat
  y : Nat
  z : Nat
deriving DecidableEq, Repr

/-- The neutral point. -/
def edZero : EdPoint := { x := 0, y := 1, z := 1 }

/-- The base point. -/
def edBase : EdPoint :=
  { x := 224580040295924300187604334099896036246789641632564134246125461686950415467406032909029192869357953282578032075146446173674602635247710,
    y := 298819210078481492676017930443930673437544040154080242095928241372331506189835876003536878655418784733982303233503462500531545062832660,
    z := 1 }

/-- A difference in the field. -/
def edSub (a b : Nat) : Nat := (a + edP - b % edP) % edP

/-- The sum of two points. -/
def edAdd (p q : EdPoint) : EdPoint :=
  let a := p.z * q.z % edP
  let b := a * a % edP
  let c := p.x * q.x % edP
  let d := p.y * q.y % edP
  let e := edD * (c * d % edP) % edP
  let f := edSub b e
  let g := (b + e) % edP
  let h := (p.x + p.y) * (q.x + q.y) % edP
  { x := a * f % edP * edSub (edSub h c) d % edP, y := a * g % edP * edSub d c % edP, z := f * g % edP }

/-- A scalar multiple, n bits of scalar. -/
def edMul (p : EdPoint) : Nat → Nat → EdPoint
  | 0, _ => edZero
  | n + 1, s => let r := edMul (edAdd p p) n (s / 2); if s % 2 = 1 then edAdd r p else r

/-- Whether two points are equal. -/
def edEq (p q : EdPoint) : Bool := p.x * q.z % edP = q.x * p.z % edP && p.y * q.z % edP = q.y * p.z % edP

/-- The little-endian number of bytes. -/
def natOfLE (bs : List Byte) : Nat := bs.foldr (fun b a => b.toNat + 256 * a) 0

/-- n bytes of a number, little-endian. -/
def natBytes (n v : Nat) : List Byte := (List.range n).map (fun j => BitVec.ofNat 8 (v / 256 ^ j))

/-- The 57 bytes of a point. -/
def edEncode (p : EdPoint) : List Byte :=
  let zi := edPow p.z 448 (edP - 2)
  let x := p.x * zi % edP
  let y := p.y * zi % edP
  natBytes 57 (y + (x % 2) * 2 ^ 455)

/-- The point of 57 bytes, none when they are malformed. -/
def edDecode (bs : List Byte) : Option EdPoint :=
  let v := natOfLE bs
  let sign := v / 2 ^ 455 % 2
  let y := v % 2 ^ 455
  if edP ≤ y then none
  else
    let y2 := y * y % edP
    let u := edSub y2 1
    let w := edSub (edD * y2 % edP) 1
    let u3v := u * u % edP * u % edP * w % edP
    let x := u3v * edPow (u3v * (u * u % edP) % edP * (w * w % edP) % edP) 448 ((edP - 3) / 4) % edP
    if w * (x * x % edP) % edP ≠ u % edP then none
    else if x = 0 && sign = 1 then none
    else some { x := if x % 2 = sign then x else edP - x, y := y, z := 1 }

/-- dom4(0, ""). -/
def edDom : List Byte := [0x53, 0x69, 0x67, 0x45, 0x64, 0x34, 0x34, 0x38, 0, 0]

/-- The scalar and the prefix of a private key of 57 bytes. -/
def edSecret (sk : List Byte) : Nat × List Byte :=
  let h := shake256 sk 114
  let v := natOfLE (h.take 57)
  (v % 2 ^ 447 / 4 * 4 + 2 ^ 447, h.drop 57)

/-- The signature, 114 bytes, of a message under a private key. -/
def edSign (sk m : List Byte) : List Byte :=
  let k := edSecret sk
  let a := edEncode (edMul edBase 448 k.1)
  let r := natOfLE (shake256 (edDom ++ k.2 ++ m) 114) % edL
  let rb := edEncode (edMul edBase 448 r)
  let c := natOfLE (shake256 (edDom ++ rb ++ a ++ m) 114) % edL
  rb ++ natBytes 57 ((r + c * k.1) % edL)

/-- The result of a verification: 0 holds, 1 does not hold, 2 malformed key, 3 malformed signature. -/
def edVerify (key m sig : List Byte) : Nat :=
  match edDecode key with
  | none => 2
  | some a =>
    let s := natOfLE (sig.drop 57)
    match edDecode (sig.take 57) with
    | none => 3
    | some r =>
      if edL ≤ s then 3
      else
        let c := natOfLE (shake256 (edDom ++ sig.take 57 ++ key ++ m) 114) % edL
        let l := edMul (edMul edBase 448 s) 3 4
        let q := edMul (edAdd r (edMul a 448 c)) 3 4
        if edEq l q then 0 else 1

end Sys2Proof.Machine
end

