-- ==== Sys2Proof/Machine/Copy.lean ====
section
/-! DEFINITION. Sys2Proof/Machine/Copy.lean: the copy engine: the checks and the launch of CGO, what a copy does, its
completion and its faults, cp.q and cp.kill (R135 to R141, R317, R318), and the seal check of class-S pages (R361). -/

namespace Sys2Proof.Machine

/-! ### Seals (R359, R361) -/

/-- The n bytes stored from an address on. -/
def State.bytesAt (s : State) (pa : Nat) (n : Nat) : List Byte := (List.range n).map (fun j => s.byte (pa + j))

/-- R361: whether the 4 KiB page of a physical address lies in a seal and hashes to its leaf. -/
def State.sealHolds (s : State) (pa : Nat) : Bool :=
  let page := pa / 4096 * 4096
  match s.seals.find? (fun e => e.base ≤ page && page < e.base + 4096 * e.pages) with
  | some e => s.bytesAt (e.table + 32 * ((page - e.base) / 4096)) 32 = shake256 (s.bytesAt page 4096) 32
  | none => false

/-! ### The controls (R135, R136, R137) -/

/-- The copy controls of a slot. -/
def Slot.copyCtl (x : Slot) : CopyCtl :=
  { csrc := x.csrc, cdst := x.cdst, cstr1 := x.cstr1, cstr2 := x.cstr2, cdstr1 := x.cdstr1, cdstr2 := x.cdstr2,
    cdim := x.cdim, cbnd := x.cbnd, ccvt := x.ccvt, cdone := x.cdone, cval := x.cval }

/-- Elements per row. -/
def CopyCtl.n0 (c : CopyCtl) : Nat := (c.cdim.extractLsb' 0 24).toNat
/-- Rows per plane. -/
def CopyCtl.n1 (c : CopyCtl) : Nat := (c.cdim.extractLsb' 24 16).toNat + 1
/-- Planes. -/
def CopyCtl.n2 (c : CopyCtl) : Nat := (c.cdim.extractLsb' 40 16).toNat + 1
/-- Valid source elements per row. -/
def CopyCtl.v0 (c : CopyCtl) : Nat := let v := (c.cval.extractLsb' 0 24).toNat; if v = 0 then c.n0 else v
/-- Valid source rows per plane. -/
def CopyCtl.v1 (c : CopyCtl) : Nat := let v := (c.cval.extractLsb' 24 16).toNat; if v = 0 then c.n1 else v
/-- Valid source planes. -/
def CopyCtl.v2 (c : CopyCtl) : Nat := let v := (c.cval.extractLsb' 40 16).toNat; if v = 0 then c.n2 else v
/-- Source format. -/
def CopyCtl.sf (c : CopyCtl) : Nat := (c.ccvt.extractLsb' 0 4).toNat
/-- Destination format. -/
def CopyCtl.df (c : CopyCtl) : Nat := (c.ccvt.extractLsb' 4 4).toNat
/-- Rounding mode. -/
def CopyCtl.rm (c : CopyCtl) : Nat := (c.ccvt.extractLsb' 8 3).toNat

/-- R137: the bytes of an element of a format. -/
def fmtSize (f : Nat) : Nat := if f = 3 then 2 else if f = 5 then 4 else 1

/-- R137: the pairs of different formats that the copy engine converts. -/
def copyPairs : List (Nat × Nat) := [(5, 3), (3, 5), (5, 2), (2, 5), (3, 2), (2, 3), (5, 1), (1, 5)]

/-- R136: the first failing check of a launch: its cause and TVAL. -/
def CopyCtl.bad (c : CopyCtl) : Option (Nat × Word) :=
  let ss : Int := fmtSize c.sf
  let ds : Int := fmtSize c.df
  let off (w : Word) (n : Int) : Bool := w.toInt % n ≠ 0
  if c.n0 = 0 then some (cILL, 0x016)
  else if 6 ≤ c.sf || 6 ≤ c.df || !(c.sf = c.df || copyPairs.contains (c.sf, c.df)) || 5 ≤ c.rm then some (cILL, 0x018)
  else if c.n0 < c.v0 || c.n1 < c.v1 || c.n2 < c.v2 then some (cILL, 0x01A)
  else if off c.csrc ss then some (cALN, c.csrc)
  else if off c.cdst ds then some (cALN, c.cdst)
  else if c.n1 ≠ 1 && off c.cstr1 ss then some (cALN, c.cstr1)
  else if c.n2 ≠ 1 && off c.cstr2 ss then some (cALN, c.cstr2)
  else if c.n1 ≠ 1 && off c.cdstr1 ds then some (cALN, c.cdstr1)
  else if c.n2 ≠ 1 && off c.cdstr2 ds then some (cALN, c.cdstr2)
  else if off c.cbnd 32 then some (cALN, c.cbnd)
  else if off c.cdone 8 then some (cALN, c.cdone)
  else none

/-- The transfer id of a copy in flight. -/
def OpKind.tid? : OpKind → Option Nat
  | .copy _ tid => some tid
  | _ => none

/-- The copy of a core that holds a transfer id. -/
def State.transfer (s : State) (g tid : Nat) : Option Op := s.ops.find? (fun o => o.g = g && o.kind.tid? = some tid)

/-- R135: CSTAT.INFLIGHT of a slot. -/
def State.inflight (s : State) (g k : Nat) : Nat :=
  ((List.range 16).filter (fun t => match s.transfer g t with
    | some o => o.live && o.k = k
    | none => false)).foldl (fun a t => a + 2 ^ t) 0

/-- R136: a read of CGO checks the controls and launches the copy; it answers the transfer id. -/
def cgoLaunch (i : Instr) : M Nat := do
  let s ← get
  let c := s.me.copyCtl
  match c.bad with
  | some e => trap e.1 e.2
  | none =>
    match (List.range 16).find? (fun t => (s.transfer s.gk.1 t).isNone) with
    | none => halt' .forfeit
    | some t =>
      let _ ← emit i .copies (.copy c t)
      return t

/-! ### Elements (R137, R138, R141) -/

/-- R137: FP32 to I8 in a mode, with the copy's own flags. -/
def copyInt8 (rm : Nat) (x : BitVec 32) : Nat × Fl :=
  let out (v : Int) : Nat := (BitVec.ofInt 8 v).toNat
  match num32 x with
  | .nan => (0, flNV)
  | .inf neg => (out (if neg then -128 else 127), flNV)
  | .fin neg m e =>
    let q := quantize rm neg m e false 0
    let v : Int := if neg then -(Int.ofNat q.1) else Int.ofNat q.1
    if v < -128 then (out (-128), flOF)
    else if 127 < v then (out 127, flOF)
    else (out v, if q.2 then flNX else 0)

/-- R137: the conversion of one element: its bits and the flags it raises. -/
def copyConvert (sf df rm v : Nat) : Nat × Fl :=
  match sf, df with
  | 5, 3 => let r := bf16Of rm (BitVec.ofNat 32 v); (r.1.toNat, r.2)
  | 3, 5 => let r := f32OfBf16 (BitVec.ofNat 16 v); (r.1.toNat, r.2)
  | 5, 2 => let r := f8Of32 rm (BitVec.ofNat 32 v); (r.1.toNat, r.2)
  | 2, 5 => ((f32Of8 (BitVec.ofNat 8 v)).toNat, 0)
  | 3, 2 =>
    let w := f32OfBf16 (BitVec.ofNat 16 v)
    let r := f8Of32 rm w.1
    (r.1.toNat, w.2 ||| r.2)
  | 2, 3 => ((f32Of8 (BitVec.ofNat 8 v)).toNat / 2 ^ 16, 0)
  | 5, 1 => copyInt8 rm (BitVec.ofNat 32 v)
  | 1, 5 => let r := fOfInt rm (BitVec.ofNat 8 v).toInt; (r.1.toNat, r.2)
  | _, _ => (v, 0)

/-- Flags as CSTAT[19:16] holds them: NV, OF, UF, NX (R135). -/
def cstatOf (f : Fl) : BitVec 4 :=
  BitVec.ofBool (f.getLsbD 4) ++ BitVec.ofBool (f.getLsbD 3) ++ BitVec.ofBool (f.getLsbD 2) ++ BitVec.ofBool (f.getLsbD 0)

/-- An engine's failed access: its cause and subcode; cause 0 says that a frozen core holds the request in the mesh and the
operation waits (R285). -/
abbrev EngErr := Nat × Nat

/-- An engine's access with the hold of R285. -/
def State.engReach (s : State) (c : Ctx) (va : Word) (n : Nat) (kind : Access) (use : Purpose := .plain)
    (tagged : Bool := false) : Except EngErr Target :=
  match s.engAccess c va n kind use tagged with
  | .error e => .error (e.code, e.sub)
  | .ok t => if s.meshHeld c.g t.pa then .error (0, 0) else .ok t

/-- The n bytes of one word at a physical address as a copy reads them: now, or as they were when it read the word ahead (R414). -/
def State.copyBytes (s : State) (c : Ctx) (pa n : Nat) : Nat :=
  match c.early.lookup (BitVec.ofNat 64 (8 * (pa / 8))) with
  | some w => w.toNat / 256 ^ (pa % 8) % 256 ^ n
  | none => s.readN pa n

/-- R137, R138, R141, R361: one element of n bytes read: its bits and its bound tag. A page whose seal has been checked
since the row began is not hashed again; the answer names the page. -/
def State.copyElem (s : State) (c : Ctx) (va : Word) (n : Nat) (page : Option Nat) :
    Except EngErr (Nat × Bool × Option Nat) :=
  match s.engReach c va n .copyRead with
  | .error e => .error e
  | .ok t =>
    if t.cls = 3 && page ≠ some (t.pa / 4096) && !s.sealHolds t.pa then .error (cCPF, 3)
    else match s.badWord t.pa n with
      | some a => .error (softCause a)
      | none => .ok (s.copyBytes c t.pa n, s.loadTag c.g t.pa n (t.cls = 1), if t.cls = 3 then some (t.pa / 4096) else page)

/-- Elements of a row read in order up to the first that fails. -/
def State.copyElems (s : State) (c : Ctx) (n : Nat) :
    Nat → Word → Option Nat → List (Nat × Bool) × Option EngErr
  | 0, _, _ => ([], none)
  | k + 1, va, page =>
    match s.copyElem c va n page with
    | .error e => ([], some e)
    | .ok (v, t, pg) =>
      let r := s.copyElems c n k (va + BitVec.ofNat 64 n) pg
      ((v, t) :: r.1, r.2)

/-- The addresses of the elements that a row writes, up to the first that fails its checks. -/
def State.copyTargets (s : State) (c : Ctx) (n : Nat) :
    Word → List (Nat × Bool) → List (Nat × Nat × Bool) × Option EngErr
  | _, [] => ([], none)
  | va, (v, t) :: rest =>
    match s.engReach c va n .copyWrite .plain t with
    | .error e => ([], some e)
    | .ok u =>
      let r := s.copyTargets c n (va + BitVec.ofNat 64 n) rest
      ((u.pa, v, t) :: r.1, r.2)

/-- R60, R138: elements of n bytes gathered into the aligned words they make up, in order. -/
def gatherWords (n : Nat) : List (Nat × Nat × Bool) → List WordWrite
  | [] => []
  | (pa, v, t) :: rest =>
    let w := wordWrite pa n (BitVec.ofNat 64 v) t
    match gatherWords n rest with
    | [] => [w]
    | u :: us =>
      if u.pa = w.pa && w.en &&& u.en = 0 then
        { pa := w.pa, data := w.data ||| u.data, en := w.en ||| u.en, tag := w.tag || u.tag } :: us
      else w :: u :: us

/-- Engine writes of words, in order (R67). -/
def State.engWrites (s : State) (ws : List WordWrite) : State := ws.foldl (fun s w => s.write none w true) s

/-- What a run of a copy came to: the state, where and why it stopped, if it did, and the elements that it has written:
address, bits and tag. -/
structure CopyRun where
  st : State
  stop : Option (Nat × Nat × Nat × EngErr) := none
  out : List (Nat × Nat × Bool) := []

/-- R60, R392: the words that written elements of n bytes cover: the nibbles covered and those whose data is tagged. -/
def coverOf (n : Nat) (out : List (Nat × Nat × Bool)) : Sparse (BitVec 16 × BitVec 16) :=
  out.foldl (fun (m : Sparse (BitVec 16 × BitVec 16)) (e : Nat × Nat × Bool) =>
    let en := byteEn (e.1 % 8) n
    let old := Sparse.get ((0, 0) : BitVec 16 × BitVec 16) m (e.1 / 8)
    Sparse.put m (e.1 / 8) (old.1 ||| en, (old.2 &&& ~~~en) ||| (if e.2.2 then en else 0))) []

/-- R60, R392: a word that a copy covers whole, be it by several rows, has the tag of the copy's data and fresh check
bits. -/
def State.settleWords (s : State) (n : Nat) (out : List (Nat × Nat × Bool)) : State :=
  (coverOf n out).foldl (fun (s : State) (e : Nat × BitVec 16 × BitVec 16) =>
    if e.2.1 ≠ 0xFFFF then s
    else
      let a := s.storage (8 * e.1) true / 8
      let s1 : State := { s with bad := s.bad.filter (fun x => x ≠ a) }
      if (region (8 * e.1)).tagged then
        { s1 with tags := Sparse.put s1.tags a (storeTag (Sparse.get 0 s1.tags a) 0xFFFF (decide (e.2.2 ≠ 0))) }
      else s1) s

/-- R138: the first n elements of a row: every source element is read before any destination element is written. A row
that stops short of its end says where, with cause 0 when only n was reached. -/
def State.copyRowTo (s : State) (o : Op) (c : CopyCtl) (p r lim : Nat) : CopyRun :=
  let x := s.opCtx o
  let ss := fmtSize c.sf
  let ds := fmtSize c.df
  let sva := c.csrc + BitVec.ofNat 64 p * c.cstr2 + BitVec.ofNat 64 r * c.cstr1
  let dva := c.cdst + BitVec.ofNat 64 p * c.cdstr2 + BitVec.ofNat 64 r * c.cdstr1
  let nv := if p < c.v2 && r < c.v1 then c.v0 else 0
  let rd := s.copyElems x ss nv sva none
  let cv := rd.1.map (fun e => (copyConvert c.sf c.df c.rm e.1, e.2))
  let fill := if rd.2.isNone then List.replicate (c.n0 - nv) (((0, 0), false) : (Nat × Fl) × Bool) else []
  let out := ((cv ++ fill).map (fun (e : (Nat × Fl) × Bool) => (e.1.1, e.2))).take lim
  let wr := s.copyTargets x ds dva out
  let n := wr.1.length
  let fl := (cv.take n).foldl (fun f e => f ||| cstatOf e.1.2) 0
  let s1 := s.engWrites (gatherWords ds wr.1)
  let s2 := if o.live then s1.setSlot o.g o.k { s1.slot o.g o.k with cflags := (s1.slot o.g o.k).cflags ||| fl } else s1
  match wr.2, rd.2 with
  | some e, _ => { st := s2, stop := some (p, r, n, e), out := wr.1 }
  | none, some e => { st := s2, stop := some (p, r, n, if n < lim then e else (0, 0)), out := wr.1 }
  | none, none =>
    if n < c.n0 then { st := s2, stop := some (p, r, n, (0, 0)), out := wr.1 } else { st := s2, out := wr.1 }

/-- R138: one row. -/
def State.copyRow (s : State) (o : Op) (c : CopyCtl) (p r : Nat) : CopyRun := s.copyRowTo o c p r c.n0

/-- The rows of a copy from number q on, in transfer order. -/
def State.copyRows (s : State) (o : Op) (c : CopyCtl) : Nat → Nat → CopyRun
  | 0, _ => { st := s }
  | n + 1, q =>
    let a := s.copyRow o c (q / c.n1) (q % c.n1)
    match a.stop with
    | some _ => a
    | none => let b := a.st.copyRows o c n (q + 1); { b with out := a.out ++ b.out }

/-- R318: the first m elements of a copy, from row number q on, n rows left. -/
def State.copyUpTo (s : State) (o : Op) (c : CopyCtl) : Nat → Nat → Nat → CopyRun
  | 0, _, _ => { st := s }
  | n + 1, q, m =>
    let a := s.copyRowTo o c (q / c.n1) (q % c.n1) (Nat.min m c.n0)
    match a.stop with
    | some _ => a
    | none => let b := a.st.copyUpTo o c n (q + 1) (m - c.n0); { b with out := a.out ++ b.out }

/-- A run with the words that it covers settled. -/
def CopyRun.settled (a : CopyRun) (c : CopyCtl) : CopyRun := { a with st := a.st.settleWords (fmtSize c.df) a.out }

/-- R139: the bytes that a copy writes, fill included. -/
def CopyCtl.count (c : CopyCtl) : Word := BitVec.ofNat 64 (c.n0 * c.n1 * c.n2 * fmtSize c.df)

/-- R139, step 1: the flag word is written as st.fs would, which needs RD and WR (R71), and the queue at it runs (R174). -/
def State.copyFlag (s : State) (o : Op) (c : CopyCtl) : Except EngErr State :=
  if c.cdone = 0 then .ok s
  else match s.engReach (s.opCtx o) c.cdone 8 .atomic .flag with
    | .error e => .error e
    | .ok t =>
      let full := (s.tagOf t.pa).getLsbD 0
      let s1 := (s.write none { pa := t.pa, data := c.count, en := 0xFFFF, tag := false }).setTagBit t.pa 0 true
      .ok (if full then s1 else s1.runQueue t.pa s1.ops.length)

/-- R139, step 2, R141, R167: the byte post; it waits for the operations that the unit applies first (R169). -/
def State.copyPost (s : State) (o : Op) (c : CopyCtl) : Except EngErr State :=
  if c.cbnd = 0 then .ok s
  else match s.engReach (s.opCtx o) c.cbnd 32 .atomic .barrier with
    | .error e => .error e
    | .ok t =>
      let b := s.readBar t.pa
      if s.postBehind o (ownerOf t.pa) then .error (0, 0)
      else if (s.badWord t.pa 32).isSome then .error (softCause t.pa)
      else match s.barCheck b o.g (ownerOf t.pa) with
      | some _ => .error (cCPF, 2)
      | none => .ok (s.barFinish t.pa { b with barr := b.barr + c.count })

/-- R138: the rows of a copy, all of them unless they have been performed (R186). -/
def State.copyPayload (s : State) (o : Op) (c : CopyCtl) : CopyRun :=
  if o.parts.isEmpty then (s.copyRows o c (c.n1 * c.n2) 0).settled c else { st := s }

/-- R139, R141: the end of a copy whose rows are written: its flag word, and its byte post. -/
def State.copyEnd (s : State) (o : Op) (c : CopyCtl) : CopyRun :=
  match s.copyFlag o c with
  | .error e => { st := s, stop := some (c.n2, 0, 0, e) }
  | .ok s1 => match s1.copyPost o c with
    | .error e => { st := s1, stop := some (c.n2, 0, 0, e) }
    | .ok s2 => { st := s2 }

/-- R135, R141: a residue in the layout of CRES, with VALID set; PLANE has 16 bits. -/
def cresWord (p r i tid : Nat) : Word := BitVec.ofNat 64 (i + r * 2 ^ 24 + p % 2 ^ 16 * 2 ^ 40 + tid * 2 ^ 56 + 2 ^ 63)

/-- R138: the addresses of the elements that a copy reads. -/
def CopyCtl.sources (c : CopyCtl) : List Word :=
  (List.range c.v2).flatMap (fun p => (List.range c.v1).flatMap (fun r => (List.range c.v0).map (fun i =>
    c.csrc + BitVec.ofNat 64 p * c.cstr2 + BitVec.ofNat 64 r * c.cstr1 + BitVec.ofNat 64 (i * fmtSize c.sf))))

/-- R138: the addresses of the elements that a copy writes. -/
def CopyCtl.targets (c : CopyCtl) : List Word :=
  (List.range c.n2).flatMap (fun p => (List.range c.n1).flatMap (fun r => (List.range c.n0).map (fun i =>
    c.cdst + BitVec.ofNat 64 p * c.cdstr2 + BitVec.ofNat 64 r * c.cdstr1 + BitVec.ofNat 64 (i * fmtSize c.df))))

/-- Where the accesses of a copy to some addresses are stored: address and number of bytes. -/
def State.copyRuns (s : State) (o : Op) (n : Nat) (kind : Access) (vas : List Word) : List (Nat × Nat) :=
  vas.filterMap (fun va => match s.engAccess (s.opCtx o) va n kind with
    | .ok t => some (s.storage t.pa kind.writes, n)
    | .error _ => none)

/-- What a copy reads. -/
def State.copyReads (s : State) (o : Op) (c : CopyCtl) : List (Nat × Nat) :=
  s.copyRuns o (fmtSize c.sf) .copyRead c.sources

/-- What a copy writes, its flag word and its barrier object included. -/
def State.copyWrites (s : State) (o : Op) (c : CopyCtl) : List (Nat × Nat) :=
  s.copyRuns o (fmtSize c.df) .copyWrite c.targets ++ s.copyRuns o 8 .load (if c.cdone = 0 then [] else [c.cdone])
    ++ s.copyRuns o 32 .load (if c.cbnd = 0 then [] else [c.cbnd])

/-- Whether two lists of runs of bytes have a byte in common. -/
def runsMeet (xs ys : List (Nat × Nat)) : Bool := xs.any (fun x => ys.any (fun y => x.1 < y.1 + y.2 && y.1 < x.1 + x.2))

/-- R139, R186: whether a copy waits for one that its thread launched before it: one that writes what it reads, or reads what
it writes; or for a prd of its thread (log 7). The writes of two copies are in no order. -/
def State.copyBehind (s : State) (o : Op) (c : CopyCtl) : Bool :=
  o.parts.isEmpty && (s.prdAhead o.g o.k o.id || s.ops.any (fun p => p.g = o.g && p.k = o.k && p.id < o.id && (p.live || !o.live) && (match p.kind with
    | .copy d _ => runsMeet (s.copyWrites p d) (s.copyReads o c) || runsMeet (s.copyReads p d) (s.copyWrites o c)
    | _ => false)))

/-- CRES of the slot that launched a copy, while its thread is there. -/
def State.setCres (s : State) (o : Op) (v : Word) : State :=
  if o.live then s.setSlot o.g o.k { s.slot o.g o.k with cres := v } else s

/-- R186: the rows of a copy are performed, and its end is still to come. -/
def State.copyPaid (s : State) (o : Op) : State := s.mapOp o.id (fun p => { p with parts := [0] })

/-- R139, R186: a copy that meets no fault runs to its end; while its end must wait, for the rows of an older copy, for a
frozen core (R285) or for the barrier unit (R169), its rows alone are performed. -/
def State.copyComplete (s : State) (o : Op) (c : CopyCtl) : State :=
  let a := s.copyPayload o c
  if s.copyBehind o c then s
  else match a.stop with
  | some _ => s
  | none =>
    let b := a.st.copyEnd o c
    match b.stop with
    | none => if s.copyOlder o then a.st.copyPaid o else b.st.endOp o
    | some (_, _, _, code, _) => if code = 0 then a.st.copyPaid o else s

/-- R186, R414: a copy whose thread has had the prd that returned a generation, and nothing since that orders it, may read a word as
it stood before the update that made the generation: the word at pa is read ahead (log 101). -/
def State.copyAhead (s : State) (o : Op) (pa : Nat) : State :=
  match (s.mason (ownerOf pa)).stale with
  | some x =>
    match x.words.lookup pa with
    | some (old, new) =>
      if o.live && o.parts.isEmpty && x.reader = some (o.g, o.k) && s.read64 pa = new then
        s.mapOp o.id (fun p => { p with early := (BitVec.ofNat 64 pa, old) :: p.early })
      else s
    | none => s
  | none => s

/-- The fault of a copy, with its residue (R141, R374). -/
def State.copyFails (s : State) (o : Op) (tid : Nat) (at' : Nat × Nat × Nat) (e : EngErr) : State :=
  let v := cresWord at'.1 at'.2.1 at'.2.2 tid
  (s.setCres o v).failOp o e.1 v e.2

/-- R141: a copy that meets a fault stops at the failing element, or at its end. -/
def State.copyFault (s : State) (o : Op) (c : CopyCtl) (tid : Nat) : State :=
  let a := s.copyPayload o c
  if s.copyBehind o c then s
  else match a.stop with
  | some (p, r, i, e) => if e.1 = 0 then s else a.st.copyFails o tid (p, r, i) e
  | none =>
    let b := a.st.copyEnd o c
    match b.stop with
    | some (p, r, i, e) => if e.1 = 0 || s.copyOlder o then s else b.st.copyFails o tid (p, r, i) e
    | none => s

/-! ### cp.q and cp.kill (R317, R318) -/

/-- R317: the transfer id of a cell. -/
def tidOperand (a : Name) : M Nat := do
  let x ← ctlOperand a
  if x.extractLsb' 4 60 ≠ 0 then trap cILL x
  return x.toNat

/-- R317: cp.q. -/
def cpqOp (d a : Name) : M Ctl := do
  let t ← tidOperand a
  let s ← get
  let code : Word := match s.transfer s.gk.1 t with
    | none => 0
    | some o => if o.live && o.k = s.gk.2 then 1 else 2
  writeName d { v := code, t := false }
  return .next

/-- R139, R141: a copy whose rows are all written goes on to its end, by completion, by fault, or later. -/
def State.copyLast (s : State) (o : Op) (c : CopyCtl) (tid : Nat) : State :=
  match (s.copyEnd o c).stop with
  | some (_, _, _, e) => if e.1 = 0 then s else s.copyFault o c tid
  | none => s.copyComplete o c

/-- R318: a copy is killed when its first m elements are written: m below their number stops it there, or at the element
before that fails; with all of them written it completes under R139. -/
def State.killCopy (s : State) (o : Op) (c : CopyCtl) (tid m : Nat) : State :=
  if o.parts ≠ [] then s.copyLast o c tid
  else
    let a := (s.copyUpTo o c (c.n1 * c.n2) 0 (if s.copyBehind o c then 0 else m)).settled c
    match a.stop with
    | some (p, r, i, _) => (a.st.setCres o (cresWord p r i tid)).endOp o
    | none => (a.st.copyPaid o).copyLast { o with parts := [0] } c tid

/-- R318: cp.kill: how many elements the copy has written is a free value (log 29). A copy with all its elements written that
cannot complete yet keeps the slot blocked until it has; the instruction then issues again, with the port word that names the
id back in its queue. -/
def cpKillOp (a : Name) : M Ctl := do
  let t ← tidOperand a
  let s ← get
  match s.transfer s.gk.1 t with
  | none => return .next
  | some o =>
    if o.live && o.k = s.gk.2 then
      match o.kind with
      | .copy c _ =>
        let (n, s1) := s.draw
        let s2 := s1.killCopy o c t ((Config.freeWord n).toNat % (c.n0 * c.n1 * c.n2 + 1))
        if (s2.op? o.id).isSome then
          set ((s2.setMe { s2.me with blocked := some (.copyEnd o.id) }).putBack s2.gk.1 s2.gk.2)
          return .hold
        else
          set s2
          return .next
      | _ => return .next
    else return .next

/-! ### The instructions and events -/

/-- R317: Writes whether a transfer id is in flight for this or another slot. -/
def execCpQ (d : Name) (a : Name) (s : State) : Host.Outcome State Fault Refusal :=
  issue (.cpQ d a) (cpqOp d a) s

/-- R318: Stops the slot's named copy at its first unwritten element, recording the residue. -/
def execCpKill (a : Name) (s : State) : Host.Outcome State Fault Refusal :=
  issue (.cpKill a) (cpKillOp a) s

/-- R139: A copy writes its last element, then its flag word and byte post, and frees its id. A turn whose argument opt names a word
reads that word ahead (R414). -/
def execCopyComplete (s : State) : Host.Outcome State Fault Refusal :=
  s.onOp (fun o =>
    match o.kind with
    | .copy c _ => match s.ev.opt with
      | none => s.copyComplete o c
      | some pa => s.copyAhead o pa
    | _ => s)

/-- R141: A copy stops at a failing element, records its residue and frees its id. -/
def execCopyFault (s : State) : Host.Outcome State Fault Refusal :=
  s.onOp (fun o =>
    match o.kind with
    | .copy c tid => s.copyFault o c tid
    | _ => s)

end Sys2Proof.Machine
end

