-- ==== Sys2Proof/Machine/F32.lean ====
section
/-! DEFINITION. Sys2Proof/Machine/F32.lean: major 0x28: scalar float (R243 to R247). -/

namespace Sys2Proof.Machine

/-- The low half of a cell (R206). -/
def low32 (x : Word) : BitVec 32 := x.extractLsb' 0 32

/-- R243, R244: an FP32 operation of two sources: put32 of the result after its flags are raised. -/
def f2Op (d a b : Name) (f : Nat → BitVec 32 → BitVec 32 → BitVec 32 × Fl) : M Ctl := do
  let x ← readName a
  let y ← readName b
  let m ← fctlMode
  let r := f m (low32 x.v) (low32 y.v)
  raiseFl r.2
  writeName d { v := r.1.setWidth 64, t := x.t || y.t }
  return .next

/-- R243, R246: an operation of one cell whose result is a word, with flags. -/
def f1Op (d a : Name) (f : Nat → Word → Word × Fl) : M Ctl := do
  let x ← readName a
  let m ← fctlMode
  let r := f m x.v
  raiseFl r.2
  writeName d { v := r.1, t := x.t }
  return .next

/-- A binary32 result in a cell. -/
def zext32 (r : BitVec 32 × Fl) : Word × Fl := (r.1.setWidth 64, r.2)

/-- R244, f.fma: sources a, b, then the addend d. -/
def fmaOp (d a b : Name) : M Ctl := do
  let x ← readName a
  let y ← readName b
  let z ← readName d
  let m ← fctlMode
  let r := fFma m (low32 x.v) (low32 y.v) (low32 z.v)
  raiseFl r.2
  writeName d { v := r.1.setWidth 64, t := x.t || y.t || z.t }
  return .next

/-- A signed integer result with flags in a cell. -/
def intWord (r : Int × Fl) : Word × Fl := (BitVec.ofInt 64 r.1, r.2)

/-- R244: Adds two FP32 values with one rounding. -/
def execFAdd (d : Name) (a : Name) (b : Name) (s : State) : Host.Outcome State Fault Refusal :=
  issue (.fAdd d a b) (f2Op d a b (fAdd)) s

/-- R244: Subtracts two FP32 values with one rounding. -/
def execFSub (d : Name) (a : Name) (b : Name) (s : State) : Host.Outcome State Fault Refusal :=
  issue (.fSub d a b) (f2Op d a b (fSub)) s

/-- R244: Multiplies two FP32 values with one rounding. -/
def execFMul (d : Name) (a : Name) (b : Name) (s : State) : Host.Outcome State Fault Refusal :=
  issue (.fMul d a b) (f2Op d a b (fMul)) s

/-- R244: Divides two FP32 values with one rounding. -/
def execFDiv (d : Name) (a : Name) (b : Name) (s : State) : Host.Outcome State Fault Refusal :=
  issue (.fDiv d a b) (f2Op d a b (fDiv)) s

/-- R244: Writes the lesser of two FP32 values under the NaN and zero rules. -/
def execFMin (d : Name) (a : Name) (b : Name) (s : State) : Host.Outcome State Fault Refusal :=
  issue (.fMin d a b) (f2Op d a b (fun _ => fMinMax false)) s

/-- R244: Writes the greater of two FP32 values under the NaN and zero rules. -/
def execFMax (d : Name) (a : Name) (b : Name) (s : State) : Host.Outcome State Fault Refusal :=
  issue (.fMax d a b) (f2Op d a b (fun _ => fMinMax true)) s

/-- R244: Computes x·y plus the destination with one FP32 rounding. -/
def execFFma (d : Name) (a : Name) (b : Name) (s : State) : Host.Outcome State Fault Refusal :=
  issue (.fFma d a b) (fmaOp d a b) s

/-- R244: Takes the FP32 square root with one rounding. -/
def execFSqrt (d : Name) (a : Name) (s : State) : Host.Outcome State Fault Refusal :=
  issue (.fSqrt d a) (f1Op d a (fun m x => zext32 (fSqrt m (low32 x)))) s

/-- R244: Clears the FP32 sign bit. -/
def execFAbs (d : Name) (a : Name) (s : State) : Host.Outcome State Fault Refusal :=
  issue (.fAbs d a) (f1Op d a (fun _ x => ((fAbs (low32 x)).setWidth 64, 0))) s

/-- R244: Complements the FP32 sign bit. -/
def execFNeg (d : Name) (a : Name) (s : State) : Host.Outcome State Fault Refusal :=
  issue (.fNeg d a) (f1Op d a (fun _ x => ((fNeg (low32 x)).setWidth 64, 0))) s

/-- R246: Converts an int64 to FP32. -/
def execFCvtFi (d : Name) (a : Name) (s : State) : Host.Outcome State Fault Refusal :=
  issue (.fCvtFi d a) (f1Op d a (fun m x => zext32 (fOfInt m x.toInt))) s

/-- R246: Converts FP32 to int64 in the FCTL mode, saturating. -/
def execFCvtIf (d : Name) (a : Name) (s : State) : Host.Outcome State Fault Refusal :=
  issue (.fCvtIf d a) (f1Op d a (fun m x => intWord (numToInt m 64 { x := num32 (low32 x) }))) s

/-- R246: Converts FP32 to int64 toward zero, saturating. -/
def execFCvtIft (d : Name) (a : Name) (s : State) : Host.Outcome State Fault Refusal :=
  issue (.fCvtIft d a) (f1Op d a (fun _ x => intWord (numToInt 1 64 { x := num32 (low32 x) }))) s

/-- R246: Converts FP32 to BF16. -/
def execFCvtBf (d : Name) (a : Name) (s : State) : Host.Outcome State Fault Refusal :=
  issue (.fCvtBf d a) (f1Op d a (fun m x => ((bf16Of m (low32 x)).1.setWidth 64, (bf16Of m (low32 x)).2))) s

/-- R246: Converts BF16 to FP32 exactly. -/
def execFCvtFb (d : Name) (a : Name) (s : State) : Host.Outcome State Fault Refusal :=
  issue (.fCvtFb d a) (f1Op d a (fun _ x => zext32 (f32OfBf16 (x.extractLsb' 0 16)))) s

/-- R246: Converts FP32 to F8 with saturation. -/
def execFCvt8f (d : Name) (a : Name) (s : State) : Host.Outcome State Fault Refusal :=
  issue (.fCvt8f d a) (f1Op d a (fun m x => ((f8Of32 m (low32 x)).1.setWidth 64, (f8Of32 m (low32 x)).2))) s

/-- R246: Converts F8 to FP32 exactly. -/
def execFCvtF8 (d : Name) (a : Name) (s : State) : Host.Outcome State Fault Refusal :=
  issue (.fCvtF8 d a) (f1Op d a (fun _ x => ((f32Of8 (x.extractLsb' 0 8)).setWidth 64, 0))) s

/-- R247: Writes a one-hot mask of the FP32 value's class. -/
def execFClass (d : Name) (a : Name) (s : State) : Host.Outcome State Fault Refusal :=
  issue (.fClass d a) (f1Op d a (fun _ x => (fClass (low32 x), 0))) s

end Sys2Proof.Machine
end

