-- ==== Sys2Proof/Machine/Matrix.lean ====
section
/-! DEFINITION. Sys2Proof/Machine/Matrix.lean: majors 0x30 to 0x34 and what the matrix engine does: mma, acc.clr, acc.rd
and acc.wr (R95, R142 to R144, R289 to R294). -/

namespace Sys2Proof.Machine

/-! ### The engine's queue, its scratch and its entries (R16, R62, R144) -/

/-- Whether an operation belongs to the matrix engine. -/
def OpKind.isMatrix : OpKind → Bool
  | .eng (.mma _ _ _ _) _ _ _ _ _ | .eng .accClr _ _ _ _ _ | .eng .accRd _ _ _ _ _ | .eng .accWr _ _ _ _ _ => true
  | _ => false

/-- R16: an engine with a queue of n operations accepts another, or the slot forfeits its turn. -/
def accept (mine : OpKind → Bool) (n : Nat) : M Unit := fun s =>
  if n ≤ (s.ops.filter (fun o => o.g = s.gk.1 && mine o.kind)).length then .error .forfeit else .ok ((), s)

/-- Whether an operation is the oldest of its core's engine (R115, R144, R148), and no prd of its thread goes before its accesses
(R186; log 7). -/
def State.oldestOf (s : State) (o : Op) (mine : OpKind → Bool) : Bool :=
  !s.ops.any (fun p => p.g = o.g && p.id < o.id && mine p.kind) && !s.prdAhead o.g o.k o.id

/-- R144, R294: the first fault of a run of n bytes of local scratch that an engine reads: an uncorrectable error (R61), or a
tagged word (R98). -/
def State.runFault (s : State) (g off n : Nat) : Option EngErr :=
  let pa := scrBase g + off
  let words := (List.range ((pa + n + 7) / 8 - pa / 8)).map (fun j => 8 * (pa / 8 + j))
  words.findSome? (fun a =>
    if (s.badWord a 8).isSome then some (cSOFT, 1) else if s.boundTag a 8 then some (cBND, 0) else none)

/-- An accumulator entry (R62). -/
def Core.entry (c : Core) (row col : Nat) : Word := Sparse.get 0 c.acc (1024 * row + col)

/-- The state with an accumulator entry written; an entry of zero is not listed. -/
def State.setEntry (s : State) (g row col : Nat) (v : Word) : State :=
  let c := s.core g
  let j := 1024 * row + col
  s.setCore g { c with acc := if v = 0 then Sparse.del c.acc j else Sparse.put c.acc j v }

/-- The rectangle of r rows and c columns, row-major. -/
def rectangle (r c : Nat) : List (Nat × Nat) := (List.range r).flatMap (fun m => (List.range c).map (fun n => (m, n)))

/-! ### mma (R95, R143, R290, R291) -/

/-- The shape of an mma. -/
structure MmaShape where
  f : MmaFmt
  rows : Nat
  cols : Nat
  steps : Nat
  row0 : Nat
  col0 : Nat
  a : Nat
  b : Nat
  bt : Bool
deriving DecidableEq, Repr

/-- R143: elements of one step. -/
def MmaFmt.k : MmaFmt → Nat
  | .i8 | .f8 => 64
  | .b16 => 32
  | .q4 => 256

/-- R143: bytes of one row of one step: K elements, or one Q4 group. -/
def MmaFmt.seg : MmaFmt → Nat
  | .i8 | .f8 => 64
  | .b16 => 64
  | .q4 => 136

/-- Bytes of an element. -/
def MmaFmt.size : MmaFmt → Nat
  | .b16 => 2
  | _ => 1

/-- R142, R143: the shape that the operands and TSHP give. -/
def mmaShape (f : MmaFmt) (msel : Nat) (bt : Bool) (t a b tshp : Word) : MmaShape :=
  { f := f, rows := 16 * 2 ^ msel, cols := 16 * (tshp.extractLsb' 0 6).toNat, steps := (tshp.extractLsb' 8 8).toNat,
    row0 := (t.extractLsb' 16 6).toNat, col0 := (t.extractLsb' 0 10).toNat, a := a.toNat, b := b.toNat, bt := bt }

/-- Bytes of a panel row. -/
def MmaShape.len (h : MmaShape) : Nat := h.f.seg * h.steps

/-- R143: the runs of panel bytes that step q reads, from the start of local scratch: A row by row, then B. -/
def MmaShape.runs (h : MmaShape) (q : Nat) : List (Nat × Nat) :=
  (List.range h.rows).map (fun m => (h.a + m * h.len + q * h.f.seg, h.f.seg)) ++
    (if h.bt then (List.range h.cols).map (fun n => (h.b + n * h.len + q * h.f.seg, h.f.seg))
    else [(h.b + q * h.f.k * h.cols * h.f.size, h.f.k * h.cols * h.f.size)])

/-- The bytes of row m of A in step q. -/
def MmaShape.aBytes (h : MmaShape) (s : State) (g q m : Nat) : List Byte :=
  s.bytesAt (scrBase g + h.a + m * h.len + q * h.f.seg) h.f.seg

/-- The bytes of column n of B in step q. -/
def MmaShape.bBytes (h : MmaShape) (s : State) (g q n : Nat) : List Byte :=
  if h.bt then s.bytesAt (scrBase g + h.b + n * h.len + q * h.f.seg) h.f.seg
  else (List.range h.f.k).flatMap (fun k =>
    s.bytesAt (scrBase g + h.b + ((q * h.f.k + k) * h.cols + n) * h.f.size) h.f.size)

/-- R83, R80: the binary64 elements of a run of F8 bytes. -/
def f8Elems (bs : List Byte) : List Word := bs.map (fun b => rnd64 0 { x := num8 b })

/-- The binary64 elements of a run of BF16 bytes. -/
def b16Elems : List Byte → List Word
  | lo :: hi :: t => dOf32 ((hi ++ lo : BitVec 16) ++ (0 : BitVec 16)) :: b16Elems t
  | _ => []

/-- R85: the codebook. -/
def q4Code (c : Nat) : Int :=
  [-64, -46, -35, -26, -19, -13, -8, -3, 0, 4, 9, 15, 22, 31, 44, 64].getD c 0

/-- R85: the code values of a group. -/
def q4Codes (bs : List Byte) : List Int :=
  (bs.take 128).flatMap (fun b => [q4Code (b.toNat % 16), q4Code (b.toNat / 16)])

/-- R85: the super-scale of a group. -/
def q4Super (bs : List Byte) : FNum := num32 (BitVec.ofNat 32 (wordOfLE ((bs.drop 132).take 4)).toNat)

/-- The exact sum of products of two runs of integers. -/
def intDot (x y : List Int) : Int := ((x.zip y).map (fun e => e.1 * e.2)).foldl (· + ·) 0

/-- R95: the Q4 term of block b. -/
def q4Term (x y : List Byte) (b : Nat) : Word :=
  let i := intDot ((q4Codes x).drop (64 * b) |>.take 64) ((q4Codes y).drop (64 * b) |>.take 64)
  let sc : Nat := (1 + (x.getD (128 + b) 0).toNat) * (1 + (y.getD (128 + b) 0).toNat)
  let sg := num64 (rnd64 4 { x := (((q4Super x).mul (q4Super y)).1.mul (.fin false sc (-28))).1 })
  if i = 0 then
    match sg with
    | .fin _ _ _ => 0
    | _ => 0x7FF8000000000000
  else rnd64 0 { x := ((numOfInt i).mul sg).1 }

/-- R95, R290: an entry after one step, from the bytes of a row and a column. -/
def MmaFmt.stepEntry (f : MmaFmt) (e : Word) (x y : List Byte) : Word :=
  match f with
  | .i8 => e + BitVec.ofInt 64 (intDot (x.map (fun b => b.toInt)) (y.map (fun b => b.toInt)))
  | .f8 => dAdd e (treeSum dAdd 8 (((f8Elems x).zip (f8Elems y)).map (fun p => dMul p.1 p.2)))
  | .b16 => dAdd e (treeSum dAdd 8 (((b16Elems x).zip (b16Elems y)).map (fun p => dMul p.1 p.2)))
  | .q4 => dAdd e (dAdd (dAdd (q4Term x y 0) (q4Term x y 1)) (dAdd (q4Term x y 2) (q4Term x y 3)))

/-- R290: one step over the whole rectangle. -/
def MmaShape.step (h : MmaShape) (s : State) (g q : Nat) : State :=
  let xs := (List.range h.rows).map (h.aBytes s g q)
  let ys := (List.range h.cols).map (h.bBytes s g q)
  (rectangle h.rows h.cols).foldl (fun t e =>
    t.setEntry g (h.row0 + e.1) (h.col0 + e.2)
      (h.f.stepEntry ((t.core g).entry (h.row0 + e.1) (h.col0 + e.2)) (xs.getD e.1 []) (ys.getD e.2 []))) s

/-- R144, R290: n steps from step q on, or up to the first that reads a bad word. -/
def MmaShape.steps' (h : MmaShape) (g : Nat) : Nat → Nat → State → State × Option (Nat × EngErr)
  | 0, _, s => (s, none)
  | n + 1, q, s =>
    match (h.runs q).findSome? (fun r => s.runFault g r.1 r.2) with
    | some e => (s, some (q, e))
    | none => h.steps' g n (q + 1) (h.step s g q)

/-- Zeroes a rectangle of entries. -/
def State.clearEntries (s : State) (g row0 col0 r c : Nat) : State :=
  (rectangle r c).foldl (fun t e => t.setEntry g (row0 + e.1) (col0 + e.2) 0) s

/-- R144, R290: the matrix engine runs an mma. -/
def State.runMma (s : State) (o : Op) (h : MmaShape) (acc : Bool) : State :=
  let s1 := if acc then s else s.clearEntries o.g h.row0 h.col0 h.rows h.cols
  match h.steps' o.g h.steps 0 s1 with
  | (s2, none) => s2.endOp o
  | (s2, some (q, e)) => s2.failOp o e.1 (BitVec.ofNat 64 q) e.2

/-- R143, R293: a run of local scratch that an engine instruction names must lie in 0 to 0xF_FFFF. -/
def localRun (va : Word) (n : Nat) : M Unit := if 2 ^ 20 < va.toNat + n then trap cXLT va else pure ()

/-- R67, R291, R294: a run of local scratch that the matrix engine is to access must not touch a declared reserve. It takes no
deferred CLS, so that the check stands at issue alone: an operation accepted before a publish of another slot declares a reserve over
its block still runs (log 33). -/
def notReserve (va : Word) (n : Nat) : M Unit := do
  let s ← get
  if s.hitsReserve (scrBase s.gk.1 + va.toNat) n then trap cCLS va

/-- R143: the checks of mma at issue, and its acceptance. -/
def mmaOp (i : Instr) (f : MmaFmt) (t a b : Name) (msel : BitVec 2) (acc bt : BitVec 1) : M Ctl := do
  let x ← ctlOperand a
  let y ← ctlOperand b
  let c ← ctlOperand t
  if f = .q4 && bt = 0 then trap cILL ((encode i).setWidth 64)
  let s ← get
  let z := s.me.tshp
  let h := mmaShape f msel.toNat (bt = 1) c x y z
  if h.cols = 0 || h.steps = 0 then trap cILL z
  if 64 < h.row0 + h.rows || 1024 < h.col0 + h.cols then trap cILL c
  if x.toNat % 64 ≠ 0 then trap cALN x
  if y.toNat % 64 ≠ 0 then trap cALN y
  localRun x (h.rows * h.len)
  localRun y (h.cols * h.len)
  notReserve x (h.rows * h.len)
  notReserve y (h.cols * h.len)
  accept OpKind.isMatrix 8
  let _ ← emit i .tiles (.eng (.mma f msel.toNat (acc = 1) (bt = 1)) c x y z none)
  return .next

/-! ### acc.clr, acc.rd, acc.wr (R293, R294) -/

/-- R293: the rectangle of a coordinate cell. -/
structure AccRect where
  col0 : Nat
  row0 : Nat
  r : Nat
  nw : Nat
  int : Bool
deriving DecidableEq, Repr

/-- R293: the fields of a coordinate cell. -/
def accRect (c : Word) : AccRect :=
  { col0 := (c.extractLsb' 0 10).toNat, row0 := (c.extractLsb' 16 6).toNat, r := (c.extractLsb' 24 6).toNat + 1,
    nw := (c.extractLsb' 32 6).toNat, int := c.getLsbD 40 }

/-- Columns. -/
def AccRect.c (t : AccRect) : Nat := 16 * t.nw

/-- R293: whether a coordinate cell raises ILL. -/
def accBad (c : Word) : Bool :=
  let t := accRect c
  c &&& ~~~0x13F3F3F03FF#64 ≠ 0 || t.nw = 0 || 64 < t.row0 + t.r || 1024 < t.col0 + t.c

/-- R293: the checks of acc.clr, acc.rd and acc.wr, and their acceptance; mem says that the form names a block of memory. -/
def accOp (i : Instr) (f : Eng) (d a b : Name) (mem scale : Bool) : M Ctl := do
  let x ← if mem then ctlOperand a else pure 0
  let y ← if scale then ctlOperand b else pure 0
  let c ← ctlOperand d
  if accBad c then trap cILL c
  if mem then
    if x.toNat % 64 ≠ 0 then trap cALN x
    localRun x (4 * (accRect c).r * (accRect c).c)
    notReserve x (4 * (accRect c).r * (accRect c).c)
  accept OpKind.isMatrix 8
  let _ ← emit i .tiles (.eng f c x y 0 none)
  return .next

/-- R82, R294: the FP32 value that acc.rd writes for an entry. -/
def accValue (int : Bool) (e : Word) (scale : BitVec 32) : BitVec 32 :=
  let x := if int then numOfInt e.toInt else num64 e
  (rnd32 0 { x := num64 (rnd64 4 { x := (x.mul (num32 scale)).1 }) }).1

/-- R293, R294: the FP32 values of an acc.rd, row-major. -/
def State.accValues (s : State) (g : Nat) (c b : Word) : List (BitVec 32) :=
  let t := accRect c
  (rectangle t.r t.c).map (fun e =>
    accValue t.int ((s.core g).entry (t.row0 + e.1) (t.col0 + e.2)) (b.extractLsb' 0 32))

/-- The words of an acc.rd of some lanes that the lanes written ahead leave: whole words with clear tags, and the other lane of a
word of which one has been written, with which the word has been written whole. -/
def State.accWords (s : State) (pa : Nat) (vs : List (BitVec 32)) (ahead : List Nat) (j : Nat) : State :=
  let two : List (Nat × Nat × Bool) := [(pa + 8 * j, 0, false), (pa + 8 * j + 4, 0, false)]
  match ahead.contains (2 * j), ahead.contains (2 * j + 1) with
  | false, false => s.write64 (pa + 8 * j) (vs.getD (2 * j + 1) 0 ++ vs.getD (2 * j) 0) true
  | true, false => (s.write32 (pa + 8 * j + 4) (vs.getD (2 * j + 1) 0) true).settleWords 4 two
  | false, true => (s.write32 (pa + 8 * j) (vs.getD (2 * j) 0) true).settleWords 4 two
  | true, true => s.settleWords 4 two

/-- R294: acc.rd. Its writes are engine writes of whole words with clear tags; lanes that were written ahead are not written
again. -/
def State.runAccRd (s : State) (o : Op) (c a b : Word) : State :=
  let vs := s.accValues o.g c b
  ((List.range (vs.length / 2)).foldl (fun s j => s.accWords (scrBase o.g + a.toNat) vs o.parts j) s).endOp o

/-- R186, R414: an acc.rd under way, which no wait of its slot covers: lane n of its output is written before the others, and
the operation stays in flight. While a publish waits, none begins (R68). -/
def State.accRdPart (s : State) (o : Op) (c a b : Word) (n : Nat) : State :=
  let vs := s.accValues o.g c b
  if (!o.begun && s.publishWaits o.g) || vs.length ≤ n || o.parts.contains n then s
  else (s.write32 (scrBase o.g + a.toNat + 4 * n) (vs.getD n 0) true).mapOp o.id (fun p => { p with parts := n :: p.parts })

/-- R294: acc.wr. -/
def State.runAccWr (s : State) (o : Op) (c a : Word) : State :=
  let t := accRect c
  let pa := scrBase o.g + a.toNat
  match s.runFault o.g a.toNat (4 * t.r * t.c) with
  | some e => s.failOp o e.1 0 e.2
  | none =>
    ((rectangle t.r t.c).foldl (fun u e =>
      let w := s.read32 (pa + 4 * (t.c * e.1 + e.2))
      u.setEntry o.g (t.row0 + e.1) (t.col0 + e.2) (if t.int then w.signExtend 64 else dOf32 w)) s).endOp o

/-! ### The instructions and events -/

/-- R290: Checks and hands an I8 panel multiply into the accumulator store to the matrix engine. -/
def execMmaI8 (t : Name) (a : Name) (b : Name) (m : BitVec 2) (c : BitVec 1) (x : BitVec 1) (s : State) : Host.Outcome State Fault Refusal :=
  issue (.mmaI8 t a b m c x) (mmaOp (.mmaI8 t a b m c x) .i8 t a b m c x) s

/-- R290: Checks and hands an F8 panel multiply to the matrix engine. -/
def execMmaF8 (t : Name) (a : Name) (b : Name) (m : BitVec 2) (c : BitVec 1) (x : BitVec 1) (s : State) : Host.Outcome State Fault Refusal :=
  issue (.mmaF8 t a b m c x) (mmaOp (.mmaF8 t a b m c x) .f8 t a b m c x) s

/-- R290: Checks and hands a B16 panel multiply to the matrix engine. -/
def execMmaB16 (t : Name) (a : Name) (b : Name) (m : BitVec 2) (c : BitVec 1) (x : BitVec 1) (s : State) : Host.Outcome State Fault Refusal :=
  issue (.mmaB16 t a b m c x) (mmaOp (.mmaB16 t a b m c x) .b16 t a b m c x) s

/-- R290: Checks and hands a Q4 panel multiply, B transposed, to the matrix engine. -/
def execMmaQ4 (t : Name) (a : Name) (b : Name) (m : BitVec 2) (c : BitVec 1) (x : BitVec 1) (s : State) : Host.Outcome State Fault Refusal :=
  issue (.mmaQ4 t a b m c x) (mmaOp (.mmaQ4 t a b m c x) .q4 t a b m c x) s

/-- R294: Queues the clearing of an accumulator rectangle. -/
def execAccClr (d : Name) (s : State) : Host.Outcome State Fault Refusal :=
  issue (.accClr d) (accOp (.accClr d) .accClr d 0 0 false false) s

/-- R294: Queues a scaled read of an accumulator rectangle into FP32 or int32 memory. -/
def execAccRd (d : Name) (a : Name) (b : Name) (s : State) : Host.Outcome State Fault Refusal :=
  issue (.accRd d a b) (accOp (.accRd d a b) .accRd d a b true true) s

/-- R294: Queues a write of an accumulator rectangle from memory. -/
def execAccWr (d : Name) (a : Name) (s : State) : Host.Outcome State Fault Refusal :=
  issue (.accWr d a) (accOp (.accWr d a) .accWr d a 0 true false) s

/-- R144: The matrix engine finishes or faults an mma and the tiles counter falls. -/
def execMmaComplete (s : State) : Host.Outcome State Fault Refusal :=
  s.onOp (fun o =>
    match o.kind with
    | .eng (.mma f msel acc bt) t a b tshp _ =>
      if !s.oldestOf o OpKind.isMatrix then s else s.runMma o (mmaShape f msel bt t a b tshp) acc
    | _ => s)

/-- R294: The matrix engine zeroes an accumulator rectangle. -/
def execAccClrComplete (s : State) : Host.Outcome State Fault Refusal :=
  s.onOp (fun o =>
    match o.kind with
    | .eng .accClr c _ _ _ _ =>
      if !s.oldestOf o OpKind.isMatrix then s
      else (s.clearEntries o.g (accRect c).row0 (accRect c).col0 (accRect c).r (accRect c).c).endOp o
    | _ => s)

/-- R294: The matrix engine writes a scaled accumulator rectangle to scratch. A turn whose argument opt names a lane of the
output writes that lane alone (R186, R414). -/
def execAccRdComplete (s : State) : Host.Outcome State Fault Refusal :=
  s.onOp (fun o =>
    match o.kind with
    | .eng .accRd c a b _ _ =>
      if !s.oldestOf o OpKind.isMatrix then s
      else match s.ev.opt with
      | none => s.runAccRd o c a b
      | some n => s.accRdPart o c a b n
    | _ => s)

/-- R294: The matrix engine loads an accumulator rectangle from scratch, or faults. -/
def execAccWrComplete (s : State) : Host.Outcome State Fault Refusal :=
  s.onOp (fun o =>
    match o.kind with
    | .eng .accWr c a _ _ _ => if !s.oldestOf o OpKind.isMatrix then s else s.runAccWr o c a
    | _ => s)

end Sys2Proof.Machine
end

