-- ==== Sys2Proof/Machine/Rel.lean ====
section
/-! DEFINITION. Sys2Proof/Machine/Rel.lean: the relational unit's structures and arithmetic: engine accesses, relation
tiles, join trees, message tables, lookups, the rings, and the tables it writes (R100 to R116, R378, R420). -/

namespace Sys2Proof.Machine

/-! ### An operation of the unit (R115, R299, R378) -/

/-- An operation under way: the state it has reached, for whom it accesses memory, its residue so far, the count field
that receives the residue when it faults, whether it is that of a tuple tile, the slots of its output (the address of the
first, the bytes of each and their number), and the status bits it has raised. -/
structure RelSt where
  st : State
  c : Ctx
  res : Nat := 0
  cnt : Option Word := none
  tuples : Bool := false
  slots : Word × Nat × Nat := (0, 0, 0)
  fl : BitVec 4 := 0
  /-- Words that have been read ahead, by address (R325). -/
  early : List (Word × Word) := []
  /-- The words that an isect has taken its records from (R325). -/
  found : List (Word × Word) := []
  /-- Parts that have been written ahead, by number (R325). -/
  parts : List Nat := []
deriving DecidableEq, Repr

/-- The computation of an operation; what it has written stands when it fails. -/
abbrev RM (α : Type) : Type := ExceptT EngErr (StateM RelSt) α

/-- Ends the operation with a RUF subcode. -/
def ruf {α : Type} (sub : Nat) : RM α := throw (cRUF, sub)

/-- Ends the operation with a RUF subcode when a condition fails. -/
def need (ok : Bool) (sub : Nat) : RM Unit := if ok then pure () else ruf sub

/-- R420: ends an operation that needs more places than its output has, which it finds before it writes any: it writes
nothing but its count field. -/
def needRoom (ok : Bool) (sub : Nat) : RM Unit :=
  if ok then pure () else do
    modify (fun r => { r with slots := (0, 0, 0) })
    ruf sub

/-- R115, R116, R420: reads n bytes, 1, 2, 4 or 8, as an engine read; a tagged word gives BND, an uncorrectable error
SOFT. -/
def rdN (va : Word) (n : Nat) : RM Nat := do
  let r ← get
  match r.st.engReach r.c va n .copyRead .relUnit with
  | .error e => throw e
  | .ok t =>
    match r.st.badWord t.pa n with
    | some a => throw (softCause a)
    | none => if r.st.loadTag r.c.g t.pa n (t.cls = 1) then throw (cBND, 0) else pure (r.st.readN t.pa n)

/-- Writes n bytes, 1, 2, 4 or 8, as an engine write with a clear tag. -/
def wrN (va : Word) (n : Nat) (v : Nat) : RM Unit := do
  let r ← get
  match r.st.engReach r.c va n .copyWrite .relUnit with
  | .error e => throw e
  | .ok t => set { r with st := r.st.write none (wordWrite t.pa n (BitVec.ofNat 64 v) false) true }

/-- Reads an 8-byte word at an offset: as it stands, or as it was when the unit read it ahead (R325). -/
def rd8 (va : Word) (off : Nat) : RM Word := do
  let v ← rdN (va + BitVec.ofNat 64 off) 8
  let r ← get
  return (r.early.lookup (va + BitVec.ofNat 64 off)).getD (BitVec.ofNat 64 v)

/-- Writes an 8-byte word at an offset. -/
def wr8 (va : Word) (off : Nat) (v : Word) : RM Unit := wrN (va + BitVec.ofNat 64 off) 8 v.toNat

/-- Reads n words from an address. -/
def rdWords (va : Word) (n : Nat) : RM (List Word) := (List.range n).mapM (fun j => rd8 va (8 * j))

/-- Checks that n words from an address can be written. -/
def mayWrite (va : Word) (n : Nat) : RM Unit := do
  let r ← get
  (List.range n).forM (fun j =>
    match r.st.engReach r.c (va + BitVec.ofNat 64 (8 * j)) 8 .copyWrite .relUnit with
    | .error e => throw e
    | .ok _ => pure ())

/-- Writes a run of words whole: every address is checked before any word is written. -/
def wrWords (va : Word) (ws : List Word) : RM Unit := do
  mayWrite va ws.length
  ((List.range ws.length).zip ws).forM (fun e => wr8 va (8 * e.1) e.2)

/-- The field of n bytes at an offset of a run of words. -/
def fieldAt (ws : List Word) (off n : Nat) : Nat := ((ws.getD (off / 8) 0).toNat / 256 ^ (off % 8)) % 256 ^ n

/-- Whether the n bytes at an offset of a run of words are all 0, over whole words. -/
def zeroWords (ws : List Word) (off n : Nat) : Bool := (List.range (n / 8)).all (fun j => ws.getD (off / 8 + j) 0 = 0)

/-- Every RUF 0x09 for a structure that is misaligned for its layout. -/
def aligned (va : Word) (n : Nat) : RM Unit := need (va.toNat % n = 0) 9

/-- What the unit would read at an address, 0 where it can read nothing. -/
def peekN (va : Word) (n : Nat) : RM Nat := do
  let r ← get
  match r.st.engReach r.c va n .copyRead .relUnit with
  | .error _ => pure 0
  | .ok t => pure (r.st.readN t.pa n)

/-- Names the header whose count field a fault fills, and its slots (R378): the offset of the capacity, that of the first
slot, and the bytes of each. -/
def counts (va : Word) (cap first size : Nat) : RM Unit := do
  let n ← peekN (va + BitVec.ofNat 64 cap) 4
  modify (fun r => { r with
    cnt := some va, slots := if va.toNat % 32 = 0 then (va + BitVec.ofNat 64 first, size, n) else (0, 0, 0) })

/-- Names the slots of an output that has no header. -/
def rowsAt (va : Word) (size n : Nat) : RM Unit := modify (fun r => { r with slots := (va, size, n) })

/-- One more entry, row, tuple, record or level has been written whole. -/
def written : RM Unit := modify (fun r => { r with res := r.res + 1 })

/-- Free values in n places of 4 bytes from an address on, where the unit can write (log 23). -/
def writeFree : Nat → Word → RM Unit
  | 0, _ => pure ()
  | n + 1, va => do
    let r ← get
    match r.st.engReach r.c va 4 .copyWrite .relUnit with
    | .error _ => pure ()
    | .ok t =>
      let (d, s) := r.st.draw
      set { r with st := s.write none (wordWrite t.pa 4 (Config.freeWord d) false) true }
    writeFree n (va + 4)

/-- R376, R378: what a fault leaves: the slots from the residue on undefined, and the residue in the count field, and NEXT
of a tuple tile, where they can be reached. -/
def countResidue : RM Unit := do
  let r ← get
  writeFree ((r.slots.2.2 - r.res) * r.slots.2.1 / 4) (r.slots.1 + BitVec.ofNat 64 (r.res * r.slots.2.1))
  match r.cnt with
  | none => pure ()
  | some va =>
    if va.toNat % 32 ≠ 0 then pure ()
    else
      wrN va 4 r.res
      if r.tuples then
        let cursor ← rd8 va 0x10
        wr8 va 0x18 (cursor + BitVec.ofNat 64 r.res)

/-- Where an operation of the unit starts: with what has been done of it ahead (R325). -/
def State.relStart (s : State) (o : Op) : RelSt := { st := s, c := s.opCtx o, early := o.early, found := o.found, parts := o.parts }

/-- R299, R376, R378: an operation of the unit from its start to its completion or its fault. -/
def State.runRel (s : State) (o : Op) (body : RM Unit) : State :=
  let done (r : RelSt) : State :=
    if o.live then r.st.setSlot o.g o.k { r.st.slot o.g o.k with relBits := (r.st.slot o.g o.k).relBits ||| r.fl } else r.st
  match body (s.relStart o) with
  | (.ok _, r) => (done r).endOp o
  | (.error e, r) =>
    if e.1 = 0 then s
    else (done (countResidue r).2).failOp o e.1 (BitVec.ofNat 64 r.res) e.2

/-! ### The rings (R108 to R110) -/

/-- A ring element: its count, and its sums and q in binary64. -/
structure Elem where
  c : Word
  s : List Word
  q : Word
deriving DecidableEq, Repr

/-- Twice a binary64 value. -/
def dTwice (x : Word) : Word := dMul 0x4000000000000000 x

/-- R110: the dot product, by the pairwise tree over the lanes. -/
def dDot (x y : List Word) : Word := treeSum dAdd 11 ((x.zip y).map (fun e => dMul e.1 e.2))

/-- R110: a count as a binary64 value. -/
def dCount (c : Word) : Word := rnd64 0 { x := numOfInt c.toInt }

/-- The zero of h lanes. -/
def Elem.zero (h : Nat) : Elem := { c := 0, s := List.replicate h 0, q := 0 }

/-- The unit of h lanes. -/
def Elem.unit (h : Nat) : Elem := { c := 1, s := List.replicate h 0, q := 0 }

/-- R108, R109: the element of a row with partial p; the sum ring (sq false) has no q. -/
def Elem.leaf (sq : Bool) (p : List Word) : Elem := { c := 1, s := p, q := if sq then dDot p p else 0 }

/-- R110: the sum of two elements. -/
def Elem.add (x y : Elem) : Elem :=
  { c := x.c + y.c, s := (x.s.zip y.s).map (fun e => dAdd e.1 e.2), q := dAdd x.q y.q }

/-- R108, R110: the product of two elements. -/
def Elem.mul (sq : Bool) (x y : Elem) : Elem :=
  let cx := dCount x.c
  let cy := dCount y.c
  { c := x.c * y.c, s := (x.s.zip y.s).map (fun e => dAdd (dMul cy e.1) (dMul cx e.2)),
    q := if sq then dAdd (dAdd (dMul cy x.q) (dMul cx y.q)) (dTwice (dDot x.s y.s)) else 0 }

/-- R127, step 2: an element rounded once to FP32. -/
def Elem.round32 (x : Elem) : Elem :=
  { x with s := x.s.map (fun v => dOf32 (f32OfD v)), q := dOf32 (f32OfD x.q) }

/-- Pairs of FP32 values as words, the even lane in the low half. -/
def pack32 : List (BitVec 32) → List Word
  | lo :: hi :: t => (hi ++ lo) :: pack32 t
  | _ => []

/-- The FP32 lanes of words. -/
def unpack32 (ws : List Word) : List (BitVec 32) := ws.flatMap (fun w => [w.extractLsb' 0 32, w.extractLsb' 32 32])

/-- R106, R110: the words of an entry. -/
def Elem.words (sq : Bool) (key : Word) (x : Elem) : List Word :=
  [key, x.c, (if sq then (f32OfD x.q).setWidth 64 else 0), 0] ++ pack32 (x.s.map f32OfD)

/-! ### Join trees (R103 to R105, R420) -/

/-- A node record (R104). -/
structure Node where
  rel : Word
  parent : Nat
  pkc : Nat
  ckc : Nat
  flags : Nat
  upt : Word
  dnt : Word
  ctxt : Word
  grad : Word
  cleave : Nat
  shards : Nat
deriving DecidableEq, Repr

/-- A checked join tree. -/
structure Tree where
  va : Word
  root : Nat
  h : Nat
  ring : Nat
  nodes : List Node
deriving DecidableEq, Repr

/-- A node of a tree. -/
def Tree.node (t : Tree) (n : Nat) : Node :=
  t.nodes.getD n { rel := 0, parent := 0, pkc := 0, ckc := 0, flags := 0, upt := 0, dnt := 0, ctxt := 0, grad := 0,
                   cleave := 0, shards := 0 }

/-- Whether the ring is the squared ring. -/
def Tree.sq (t : Tree) : Bool := t.ring = 0

/-- The children of a node, ascending (R105). -/
def Tree.children (t : Tree) (n : Nat) : List Nat :=
  (List.range t.nodes.length).filter (fun m => m ≠ t.root && (t.node m).parent = n)

/-- R104: CLEAVED. -/
def Node.cleaved (n : Node) : Bool := n.flags / 2 % 2 = 1

/-- R104, R114: BAG. -/
def Node.bag (n : Node) : Bool := n.flags % 2 = 1

/-- R105, R420: one node record, its fields checked in ascending subcode. -/
def readNode (va : Word) (nodes root h i : Nat) : RM Node := do
  let ws ← rdWords (va + BitVec.ofNat 64 (64 * (i + 1))) 8
  let p := fieldAt ws 8 2
  need (if i = root then p = 0xFFFF else p < nodes && p ≠ i) 3
  need (fieldAt ws 14 2 = h) 4
  let fl := fieldAt ws 12 2
  need (fl < 4 && fieldAt ws 56 8 = 0) 0x0A
  return { rel := ws.getD 0 0, parent := p, pkc := fieldAt ws 10 1, ckc := fieldAt ws 11 1, flags := fl,
           upt := ws.getD 2 0, dnt := ws.getD 3 0, ctxt := ws.getD 4 0, grad := ws.getD 5 0,
           cleave := fieldAt ws 48 4, shards := fieldAt ws 52 4 }

/-- R105: whether the parents lead from a node to the root in at most n steps. -/
def Tree.reaches (t : Tree) : Nat → Nat → Bool
  | 0, i => i = t.root
  | n + 1, i => i = t.root || t.reaches n (t.node i).parent

/-- R103, R420: the tree: its header, the check of the control cell's NODE with its subcode, its records, and then whether the
parents form one tree (log 36). -/
def readTree (va : Word) (nodeOk : Nat → Bool) (sub : Nat) : RM Tree := do
  aligned va 64
  let ws ← rdWords va 8
  let nodes := fieldAt ws 0 2
  let root := fieldAt ws 2 2
  let h := fieldAt ws 4 2
  let ring := fieldAt ws 6 1
  need (ring < 2) 1
  need (1 ≤ nodes && nodes ≤ 255 && root < nodes) 2
  need (h % 16 = 0 && 16 ≤ h && h ≤ 1024) 4
  need (fieldAt ws 7 1 = 0 && zeroWords ws 8 56) 0x0A
  need (nodeOk nodes) sub
  let ns ← (List.range nodes).mapM (readNode va nodes root h)
  let t : Tree := { va := va, root := root, h := h, ring := ring, nodes := ns }
  need ((List.range nodes).all (fun i => t.reaches (nodes - 1) i)) 3
  return t

/-! ### Relation tiles (R100 to R102, R420) -/

/-- A checked relation tile. -/
structure Relation where
  va : Word
  rows : Nat
  nk : Nat
  skc : Nat
  uniq : Bool
  koff : Nat
  poff : Nat
  h : Nat
deriving DecidableEq, Repr

/-- R101: the bytes of a feature row. -/
def featBytes (ffmt f : Nat) : Nat :=
  match ffmt with
  | 1 | 2 => f
  | 3 => 2 * f
  | 4 => f / 256 * 136
  | 5 => 4 * f
  | _ => 0

/-- R101, R420, step 1: whether a block, offset and length, is aligned and, when it is not empty, clear of the header. -/
def blockPlaced (e : Nat × Nat) : Bool := e.1 % 64 = 0 && (e.2 = 0 || 64 ≤ e.1)

/-- R101: whether nonempty blocks stay clear of one another. The feature block is taken to end with the STRIDE bytes of its last
row (log 36). -/
def blocksOk : List (Nat × Nat) → Bool
  | [] => true
  | (o, n) :: rest => (n = 0 || rest.all (fun e => e.2 = 0 || o + n ≤ e.1 || e.1 + e.2 ≤ o)) && blocksOk rest

/-- R100, R105, R116: the relation tile of a node, with the columns that the node and its children name. -/
def readTile (t : Tree) (n : Nat) : RM Relation := do
  let va := (t.node n).rel
  aligned va 64
  let ws ← rdWords va 8
  let rows := fieldAt ws 0 4
  let nk := fieldAt ws 4 1
  let ff := fieldAt ws 5 1
  let f := fieldAt ws 6 2
  let stride := fieldAt ws 8 4
  let koff := fieldAt ws 16 4
  let foff := fieldAt ws 20 4
  let poff := fieldAt ws 24 4
  let h := fieldAt ws 28 2
  let skc := fieldAt ws 30 1
  let fl := fieldAt ws 31 1
  let blocks := [(koff, 8 * nk * rows), (foff, if ff = 0 then 0 else stride * rows), (poff, 4 * h * rows)]
  need (blocks.all blockPlaced) 9
  need (h = t.h) 4
  need (1 ≤ nk && nk ≤ 4 && skc < nk && (n = t.root || ((t.node n).ckc < nk && (t.node n).ckc = skc))
    && (t.children n).all (fun m => (t.node m).pkc < nk)) 5
  need (blocksOk blocks) 9
  need (ff < 6 && (ff ≠ 0 || f = 0) && (ff ≠ 4 || f % 256 = 0) && stride % 64 = 0 && featBytes ff f ≤ stride
    && fieldAt ws 12 4 = 0 && fl < 2 && zeroWords ws 32 32) 0x0A
  return { va := va, rows := rows, nk := nk, skc := skc, uniq := fl = 1, koff := koff, poff := poff, h := h }

/-- The key of a row in a column. -/
def Relation.key (x : Relation) (r col : Nat) : RM Word := rd8 x.va (x.koff + 8 * (x.nk * r + col))

/-- R102: a row is read: its sort key must not be below that of the row before it. -/
def Relation.visit (x : Relation) (r : Nat) : RM Unit := do
  let k ← x.key r x.skc
  if 0 < r then
    let p ← x.key (r - 1) x.skc
    need (p.toNat ≤ k.toNat && !(x.uniq && p = k)) 6

/-- R101, R110: the partial of a row, in binary64. -/
def Relation.part (x : Relation) (r : Nat) : RM (List Word) := do
  let ws ← rdWords (x.va + BitVec.ofNat 64 (x.poff + 4 * x.h * r)) (x.h / 2)
  return (unpack32 ws).map dOf32

/-! ### Message tables (R106, R107, R420) -/

/-- A checked message table. -/
structure Table where
  va : Word
  entries : Nat
  h : Nat
  cap : Nat
deriving DecidableEq, Repr

/-- R106: ESIZE. -/
def Table.esize (t : Table) : Nat := 32 + 4 * t.h

/-- The address of an entry. -/
def Table.entry (t : Table) (i : Nat) : Word := t.va + BitVec.ofNat 64 (32 + t.esize * i)

/-- R106, R116, R130, R420: a table's header. The width and the flags it must have are given where they are checked. The
reserved fields are checked also in a header that the operation only writes (log 36). -/
def readTable (va : Word) (h : Option Nat) (kind1 delta : Option Bool) : RM Table := do
  aligned va 32
  let ws ← rdWords va 4
  let th := fieldAt ws 8 2
  let fl := fieldAt ws 10 2
  need (kind1.all (fun b => (fl % 2 == 1) == b)) 1
  need (h.all (fun x => x = th) && th % 16 = 0 && 16 ≤ th && th ≤ 1024 && fieldAt ws 4 4 = 32 + 4 * th) 4
  need (fl < 4 && zeroWords ws 16 16) 0x0A
  need (delta.all (fun b => (fl / 2 % 2 == 1) == b)) 0x0C
  return { va := va, entries := fieldAt ws 0 4, h := th, cap := fieldAt ws 12 4 }

/-- A table that an operation on a tree reads: an up, down or context table. -/
def Tree.table (t : Tree) (va : Word) (delta : Bool := false) : RM Table :=
  readTable va (some t.h) (some (t.ring = 1)) (some delta)

/-- A table that an operation on a tree writes. -/
def Tree.output (t : Tree) (va : Word) : RM Table := readTable va (some t.h) none none

/-- The key and the EMPTY flag of an entry, its reserved fields checked. -/
def Table.head (t : Table) (i : Nat) : RM (Word × Bool) := do
  let k ← rd8 (t.entry i) 0
  let q ← rd8 (t.entry i) 16
  let r ← rd8 (t.entry i) 24
  need (q.extractLsb' 33 31 = 0 && r = 0) 0x0A
  return (k, q.getLsbD 32)

/-- R107, R110: the element of an entry; EMPTY gives zero, and a sum ring ignores Q. -/
def Table.elem (t : Table) (sq : Bool) (i : Nat) : RM Elem := do
  let e ← t.head i
  if e.2 then return Elem.zero t.h
  let c ← rd8 (t.entry i) 8
  let q ← rd8 (t.entry i) 16
  let ss ← rdWords (t.entry i + 32) (t.h / 2)
  return { c := c, s := (unpack32 ss).map dOf32, q := if sq then dOf32 (q.extractLsb' 0 32) else 0 }

/-- R107: the first entry, from entry i on and of n left, whose key is k; keys must rise (0x07). The head of every entry that is
passed is read whole, and its reserved fields come before the order of its key (log 36). -/
def Table.find (t : Table) (k : Word) : Nat → Nat → Option Word → RM (Option Nat)
  | 0, _, _ => pure none
  | n + 1, i, last => do
    let e ← t.head i
    need (last.all (fun p => p.toNat < e.1.toNat)) 7
    if e.1 = k then return some i
    else if k.toNat < e.1.toNat then return none
    else t.find k n (i + 1) (some e.1)

/-- R107: a lookup. -/
def Table.lookup (t : Table) (sq : Bool) (k : Word) : RM Elem := do
  match ← t.find k t.entries 0 none with
  | some i => t.elem sq i
  | none => return Elem.zero t.h

/-- Every entry of a table with its EMPTY flag, in ascending key; equal keys are allowed where dup says so (R302). -/
def Table.all (t : Table) (sq dup : Bool) (n : Nat) : RM (List (Word × Bool × Elem)) := do
  let es ← (List.range n).mapM (fun i => do
    let e ← t.head i
    if 0 < i then
      let p ← rd8 (t.entry (i - 1)) 0
      need (p.toNat < e.1.toNat || (dup && p = e.1)) 7
    let x ← t.elem sq i
    pure (e.1, e.2, x))
  return es

/-- A table being built, by ascending key (R111). -/
abbrev Build := Sparse Elem

/-- R111: an element joins the entry of its key. -/
def Build.join (b : Build) (k : Word) (e : Elem) : Build :=
  if Sparse.has b k.toNat then Sparse.put b k.toNat ((Sparse.get e b k.toNat).add e) else Sparse.put b k.toNat e

/-- R111, R378, R420: writes a table: its capacity is checked first; then its flags, its entries whole, each
counted where the residue counts entries, and its count. -/
def Table.store (t : Table) (tr : Tree) (delta : Bool) (tally : RM Unit) (b : Build) : RM Unit := do
  needRoom (b.length ≤ t.cap) 8
  wrN (t.va + 10) 2 (tr.ring + 2 * delta.toNat)
  ((List.range b.length).zip b).forM (fun e => do
    wrWords (t.entry e.1) (e.2.2.words tr.sq (BitVec.ofNat 64 e.2.1))
    tally)
  wrN t.va 4 b.length

/-- R107, R111: an element times the lookups of a row under children, each with the column of the row's key and its table. -/
def mulLookups (sq : Bool) (x : Relation) (r : Nat) : List (Nat × Table) → Elem → RM Elem
  | [], e => pure e
  | (col, t) :: rest, e => do
    let k ← x.key r col
    let u ← t.lookup sq k
    mulLookups sq x r rest (e.mul sq u)

/-- The tables of a node's children, with the columns of the node's relation that hold their keys. -/
def Tree.childTables (t : Tree) (ms : List Nat) : RM (List (Nat × Table)) :=
  ms.mapM (fun m => do
    let u ← t.table (t.node m).upt
    pure ((t.node m).pkc, u))

end Sys2Proof.Machine
end

