-- ==== Sys2Proof/Machine/RelOps.lean ====
section
/-! DEFINITION. Sys2Proof/Machine/RelOps.lean: major 0x36 and what each operation of the relational unit does (R111 to
R130, R299 to R309, R378, R389). -/

namespace Sys2Proof.Machine

/-! ### The unit's queue (R16, R115) -/

/-- Whether an operation belongs to the relational unit. -/
def OpKind.isRel : OpKind → Bool
  | .eng f _ _ _ _ _ =>
    (match f with
    | .jlk | .jgs | .jmul | .jexp | .jenum | .jdelta | .cleave | .isect | .jstat => true
    | _ => false)
  | _ => false

/-! ### Up tables (R111, R127, R302) -/

/-- What an up element of a node is formed from. -/
structure UpSrc where
  tr : Tree
  n : Nat
  x : Relation
  kids : List (Nat × Table)
deriving DecidableEq, Repr

/-- R111: the element of a row. -/
def UpSrc.elem (u : UpSrc) (r : Nat) : RM Elem := do
  u.x.visit r
  let p ← u.x.part r
  mulLookups u.tr.sq u.x r u.kids (Elem.leaf u.tr.sq p)

/-- R111: the key of a row's entry: 0 at the root. -/
def UpSrc.key (u : UpSrc) (r : Nat) : RM Word :=
  if u.n = u.tr.root then pure 0 else u.x.key r (u.tr.node u.n).ckc

/-- R111: the entries of the rows from r on, n of them. -/
def UpSrc.build (u : UpSrc) : Nat → Nat → Build → RM Build
  | 0, _, b => pure b
  | n + 1, r, b => do
    let e ← u.elem r
    let k ← u.key r
    u.build n (r + 1) (b.join k e)

/-- R126, R127: a shard or a group: its key, its first row and its rows. -/
structure Shard where
  key : Word
  first : Nat
  count : Nat
deriving DecidableEq, Repr

/-- R126: the groups of a node's rows, from row r on, n of them: rows of one key are consecutive, and the root's rows form
one group. The rows are visited where the root flag does not make that needless. -/
def groupsFrom (x : Relation) (root : Bool) (ckc : Nat) : Nat → Nat → List Shard → RM (List Shard)
  | 0, _, gs => pure gs.reverse
  | n + 1, r, gs => do
    let k ← if root then pure 0 else do
      x.visit r
      x.key r ckc
    match gs with
    | g :: rest =>
      if g.key = k then groupsFrom x root ckc n (r + 1) ({ g with count := g.count + 1 } :: rest)
      else groupsFrom x root ckc n (r + 1) ({ key := k, first := r, count := 1 } :: gs)
    | [] => groupsFrom x root ckc n (r + 1) [{ key := k, first := r, count := 1 }]

/-- R126: a group divided into shards of t rows. -/
def Shard.split (t : Nat) (g : Shard) : List Shard :=
  (List.range ((g.count + t - 1) / t)).map (fun i =>
    { key := g.key, first := g.first + t * i, count := Nat.min t (g.count - t * i) })

/-- R127: the element of a shard, summed over its rows and rounded once. Its first row too is checked against the row before it
(R102, R116). -/
def UpSrc.shard (u : UpSrc) (s : Shard) : RM Elem := do
  let es ← (List.range s.count).mapM (fun i => u.elem (s.first + i))
  match es with
  | [] => return Elem.zero u.tr.h
  | e :: rest => return (rest.foldl Elem.add e).round32

/-- R127: shard elements combined in shard order, key by key. -/
def combine (ss : List (Word × Elem)) : Build := ss.foldl (fun b e => b.join e.1 e.2) []

/-- R111, R302: the relation of a node and the tables of its children, their headers checked in the order of the
pseudocode. -/
def upSrc (t : Tree) (n : Nat) : RM UpSrc := do
  let x ← readTile t n
  let ks ← t.childTables (t.children n)
  return { tr := t, n := n, x := x, kids := ks }

/-- R126, R130: the shards into which the relation and CLEAVE divide the groups of a node; their number must be SHARDS. CLEAVED with
CLEAVE = 0 agrees with no SHARDS, not even 0, which R130 leaves open (log 37). -/
def UpSrc.shards (u : UpSrc) : RM (List Shard) := do
  let nd := u.tr.node u.n
  need (nd.cleave ≠ 0) 0x0F
  let gs ← groupsFrom u.x (u.n = u.tr.root) nd.ckc u.x.rows 0 []
  let ss := gs.flatMap (Shard.split nd.cleave)
  need (ss.length = nd.shards) 0x0F
  return ss

/-- R302, mode 0: the whole up table. -/
def jmulWhole (t : Tree) (n : Nat) : RM Unit := do
  let nd := t.node n
  counts nd.upt 12 32 (32 + 4 * t.h)
  let u ← upSrc t n
  let out ← t.output nd.upt
  if nd.cleaved then
    let ss ← u.shards
    let es ← ss.mapM (fun s => do
      let e ← u.shard s
      pure (s.key, e))
    out.store t false written (combine es)
  else
    let b ← u.build u.x.rows 0 []
    out.store t false written b

/-- R302, R305, R306: a descriptor of 32 bytes; its reserved word is ignored (R8), for 0x0A of R116 names headers, nodes and
tables. -/
def relDesc (va : Word) : RM (List Word) := do
  aligned va 32
  rdWords va 4

/-- R126, R302: entry i of a shard list. -/
def readShard (list : Word) (i : Nat) : RM Shard := do
  let k ← rd8 list (16 + 16 * i)
  let w ← rd8 list (24 + 16 * i)
  return { key := k, first := (w.extractLsb' 0 32).toNat, count := (w.extractLsb' 32 32).toNat }

/-- R126: the header of a shard list: COUNT and CAP. -/
def readListHead (va : Word) : RM (Nat × Nat) := do
  aligned va 32
  let ws ← rdWords va 2
  need (ws.getD 1 0 = 0) 0x0A
  return (fieldAt ws 0 4, fieldAt ws 4 4)

/-- R302, mode 1: shard elements FIRST to FIRST + COUNT - 1 of the list; an entry of the list that names rows past ROWS is
0x0F. The 0x10 of a node without CLEAVED, or of shards past SHARDS, comes before the headers of the tile and the tables: R420
gives it no place (log 37). -/
def jmulShards (t : Tree) (n : Nat) (desc : Word) : RM Unit := do
  let nd := t.node n
  let ws ← relDesc desc
  let first := fieldAt ws 16 4
  let count := fieldAt ws 20 4
  need (nd.cleaved && first + count ≤ nd.shards) 0x10
  let u ← upSrc t n
  let _ ← readListHead (ws.getD 0 0)
  let set ← t.output (ws.getD 1 0)
  needRoom (nd.shards ≤ set.cap) 0x10
  let _ ← u.shards
  rowsAt (set.entry first) set.esize count
  (List.range count).forM (fun j => do
    let s ← readShard (ws.getD 0 0) (first + j)
    need (s.first + s.count ≤ u.x.rows) 0x0F
    let e ← u.shard s
    wrWords (set.entry (first + j)) (e.words t.sq s.key)
    written)

/-- R302, mode 2: the shard elements combined. The 0x10 of a node without CLEAVED comes before the headers, and that of the set's
CAP before the header of the up table: R420 gives neither a place. The set is a table read, in which DELTA is 0x0C (log 37). -/
def jmulCombine (t : Tree) (n : Nat) (desc : Word) : RM Unit := do
  let nd := t.node n
  counts nd.upt 12 32 (32 + 4 * t.h)
  let ws ← relDesc desc
  need nd.cleaved 0x10
  let x ← readTile t n
  let set ← t.table (ws.getD 1 0)
  needRoom (nd.shards ≤ set.cap) 0x10
  let out ← t.output nd.upt
  let _ ← (UpSrc.mk t n x []).shards
  let es ← set.all t.sq true nd.shards
  out.store t false written (combine (es.map (fun e => (e.1, e.2.2))))

/-- R299, R302: jmul. -/
def jmulBody (c tree desc : Word) : RM Unit := do
  let n := (c.extractLsb' 0 8).toNat
  let mode := (c.extractLsb' 8 2).toNat
  let t ← readTree tree (fun nodes => n < nodes && mode ≠ 3) 0x12
  if mode = 0 then jmulWhole t n
  else if mode = 1 then jmulShards t n desc
  else jmulCombine t n desc

/-! ### Down tables, contexts, gradients (R118 to R120, R303) -/

/-- R118: the rows of a parent from r on. -/
def downBuild (t : Tree) (x : Relation) (up : List (Nat × Table)) (pkc : Nat) : Nat → Nat → Build → RM Build
  | 0, _, b => pure b
  | n + 1, r, b => do
    x.visit r
    let p ← x.part r
    let e ← mulLookups t.sq x r up (Elem.leaf t.sq p)
    let k ← x.key r pkc
    downBuild t x up pkc n (r + 1) (b.join k e)

/-- R118, R303, mode 0. The 0x0B of the root (R130), to which R420 gives no place, is found after the node records and the check that
they form one tree, before the headers (log 36). -/
def jexpDown (t : Tree) (n : Nat) : RM Unit := do
  need (n ≠ t.root) 0x0B
  let nd := t.node n
  counts nd.dnt 12 32 (32 + 4 * t.h)
  let p := nd.parent
  let x ← readTile t p
  let own ← if p = t.root then pure [] else do
    let d ← t.table (t.node p).dnt
    pure [((t.node p).ckc, d)]
  let sibs ← t.childTables ((t.children p).filter (fun m => m ≠ n))
  let out ← t.output nd.dnt
  let b ← downBuild t x (own ++ sibs) nd.pkc x.rows 0 []
  out.store t false written b

/-- R119, R378: the context rows from row r on, each written when it is complete. -/
def contextRows (t : Tree) (x : Relation) (down : List (Nat × Table)) (kids : List (Nat × Table)) (out : Table) :
    Nat → Nat → RM Unit
  | 0, _ => pure ()
  | n + 1, r => do
    x.visit r
    let e0 ← match down with
      | (col, d) :: _ => do
        let k ← x.key r col
        d.lookup t.sq k
      | [] => pure (Elem.unit t.h)
    let e ← mulLookups t.sq x r kids e0
    wrWords (out.entry r) (e.words t.sq (BitVec.ofNat 64 r))
    written
    contextRows t x down kids out n (r + 1)

/-- R119, R303, mode 1. Headers are checked as the pseudocode names their structures: the table of the first lookup, which is
DNT(n) or, at the root, the up table of the first child, then n's tile, then the other up tables, and CTXT(n) last (log 36). -/
def jexpContext (t : Tree) (n : Nat) : RM Unit := do
  let nd := t.node n
  counts nd.ctxt 12 32 (32 + 4 * t.h)
  let down ← if n = t.root then pure [] else do
    let d ← t.table nd.dnt
    pure [(nd.ckc, d)]
  let early := if n = t.root then 1 else 0
  let kids1 ← t.childTables ((t.children n).take early)
  let x ← readTile t n
  let kids2 ← t.childTables ((t.children n).drop early)
  let kids := kids1 ++ kids2
  let out ← t.output nd.ctxt
  need (x.rows ≤ out.cap) 0x0B
  wrN (out.va + 10) 2 t.ring
  contextRows t x down kids out x.rows 0
  wrN out.va 4 x.rows

/-- R120: the gradient of a row: each lane of 2 (c p + s). -/
def gradient (c : Word) (p s : List Word) : List (BitVec 32) :=
  (p.zip s).map (fun e => f32OfD (dTwice (dAdd (dMul (dCount c) e.1) e.2)))

/-- R120, R378: the gradient rows from row r on. The context of row r is the entry of CTXT(n) with key r, and (0, 0, 0) where
there is none: R120 does not say what a context table counts for that lacks a row (log 95). -/
def gradientRows (t : Tree) (x : Relation) (ctx : Table) (out : Word) : Nat → Nat → RM Unit
  | 0, _ => pure ()
  | n + 1, r => do
    let e ← ctx.lookup t.sq (BitVec.ofNat 64 r)
    let p ← x.part r
    wrWords (out + BitVec.ofNat 64 (4 * t.h * r)) (pack32 (gradient e.c p e.s))
    written
    gradientRows t x ctx out n (r + 1)

/-- R120, R303, mode 2. The header of CTXT(n), which R120 names first, is checked before that of n's tile. In mode 3 the residue
starts again at 0, the count field of CTXT stands as the context part left it, and GRAD's alignment is looked at only here
(log 84). -/
def jexpGradient (t : Tree) (n : Nat) : RM Unit := do
  let nd := t.node n
  modify (fun r => { r with cnt := none, res := 0, slots := (0, 0, 0) })
  let ctx ← t.table nd.ctxt
  let x ← readTile t n
  need (x.rows ≤ ctx.cap) 0x0B
  aligned nd.grad 64
  rowsAt nd.grad (4 * t.h) x.rows
  gradientRows t x ctx nd.grad x.rows 0

/-- R299, R303: jexp. -/
def jexpBody (c tree : Word) : RM Unit := do
  let n := (c.extractLsb' 0 8).toNat
  let mode := (c.extractLsb' 8 2).toNat
  let t ← readTree tree (fun nodes => n < nodes) 0x12
  if mode = 0 then jexpDown t n
  else if mode = 1 then jexpContext t n
  else if mode = 2 then jexpGradient t n
  else do
    jexpContext t n
    jexpGradient t n

/-! ### Lookups (R301) -/

/-- R301: jlk. The 0x12 of a misaligned destination, to which R301 and R420 give no place, comes before the table's own faults
(log 36). -/
def jlkBody (dst table key : Word) : RM Unit := do
  need (dst.toNat % 32 = 0) 0x12
  let t ← readTable table none none none
  match ← t.find key t.entries 0 none with
  | some i =>
    let e ← t.head i
    if e.2 then wrWords dst ([key, 0, 0x100000000, 0] ++ List.replicate (t.h / 2) 0)
    else
      let ws ← rdWords (t.entry i) (t.esize / 8)
      wrWords dst ws
  | none => wrWords dst ([key, 0, 0x100000000, 0] ++ List.replicate (t.h / 2) 0)

/-! ### Tuples (R124, R125, R304, R305) -/

/-- A tuple tile's header (R124). -/
structure TupleTile where
  va : Word
  tuples : Nat
  cap : Nat
  cursor : Word
deriving DecidableEq, Repr

/-- R124, R130: the header of a tuple tile for a tree. -/
def readTuples (va : Word) (nodes : Nat) : RM TupleTile := do
  aligned va 32
  let ws ← rdWords va 4
  need (fieldAt ws 6 2 = 0 && fieldAt ws 12 4 = 0) 0x0A
  need (fieldAt ws 4 2 = nodes && fieldAt ws 8 4 ≠ 0) 0x0D
  return { va := va, tuples := fieldAt ws 0 4, cap := fieldAt ws 8 4, cursor := ws.getD 2 0 }

/-- R124: the preorder of a subtree, to a depth. -/
def Tree.preorder (t : Tree) : Nat → Nat → List Nat
  | 0, n => [n]
  | d + 1, n => n :: (t.children n).flatMap (t.preorder d)

/-- The keys of a relation's rows, each row visited in ascending order. -/
def Relation.keys (x : Relation) : RM (List (List Word)) :=
  (List.range x.rows).mapM (fun r => do
    x.visit r
    (List.range x.nk).mapM (fun c => x.key r c))

/-- R124: the rows of a node that extend a partial tuple: every row at the root, and otherwise the rows whose key in CKC
is the parent row's key in PKC. -/
def tupleRows (t : Tree) (keys : Sparse (List (List Word))) (n : Nat) (part : Sparse Nat) : List Nat :=
  let mine := Sparse.get [] keys n
  if n = t.root then List.range mine.length
  else
    let nd := t.node n
    let k := ((Sparse.get [] keys nd.parent).getD (Sparse.get 0 part nd.parent) []).getD nd.pkc 0
    (List.range mine.length).filter (fun r => (mine.getD r []).getD nd.ckc 0 = k)

/-- R124: the tuples of the join in order, node by node in preorder. -/
def allTuples (t : Tree) (keys : Sparse (List (List Word))) (order : List Nat) : List (Sparse Nat) :=
  order.foldl (fun ps n => ps.flatMap (fun p => (tupleRows t keys n p).map (Sparse.put p n))) [[]]

/-- R304: jenum. It has no pseudocode for R420 to take an order from: after the tree the header of the tuple tile is checked, then
those of the relation tiles in preorder. Each row index is a store of 4 bytes of its own, so that the other half of its word, and the
word's old tag, stay (log 37). -/
def jenumBody (tuples tree : Word) : RM Unit := do
  let m ← peekN (tuples + 4) 2
  counts tuples 8 0x20 (4 * m)
  modify (fun r => { r with tuples := true })
  let t ← readTree tree (fun _ => true) 0x12
  let d ← readTuples tuples t.nodes.length
  let order := t.preorder t.nodes.length t.root
  let xs ← order.mapM (fun n => do
    let x ← readTile t n
    pure (n, x))
  let ks ← xs.mapM (fun e => do
    let k ← e.2.keys
    pure (e.1, k))
  let keys : Sparse (List (List Word)) := ks.foldl (fun m e => Sparse.put m e.1 e.2) []
  let rest := (allTuples t keys order).drop d.cursor.toNat
  let out := rest.take d.cap
  let nodes := t.nodes.length
  ((List.range out.length).zip out).forM (fun e => do
    (List.range nodes).forM (fun i =>
      wrN (tuples + BitVec.ofNat 64 (0x20 + 4 * nodes * e.1 + 4 * i)) 4 (Sparse.get 0 e.2 i))
    written)
  wr8 tuples 0x18 (if out.isEmpty || rest.length = out.length then BitVec.allOnes 64
                   else d.cursor + BitVec.ofNat 64 out.length)
  wrN tuples 4 out.length

/-- The status bits of R309 for conversion flags: OF, NX, NV, UF. -/
def relFlags (f : Fl) : BitVec 4 :=
  BitVec.ofBool (f.getLsbD 3) ++ BitVec.ofBool (f.getLsbD 0) ++ BitVec.ofBool (f.getLsbD 4) ++ BitVec.ofBool (f.getLsbD 2)

/-- Raises status bits. -/
def raiseRel (f : Fl) : RM Unit := modify (fun r => { r with fl := r.fl ||| relFlags f })

/-- R125: one tuple added into the grouped row block: every lane is read and converted before any is written. -/
def jgsTuple (t : Tree) (rows n : Nat) (e : Int) (tt gb grp : Word) (i : Nat) : RM Unit := do
  let nodes := t.nodes.length
  let r ← rdN (tt + BitVec.ofNat 64 (0x20 + 4 * nodes * i + 4 * n)) 4
  need (r < rows) 0x0E
  let base := grp + BitVec.ofNat 64 (8 * t.h * r)
  let gs ← (List.range t.h).mapM (fun j => rdN (gb + BitVec.ofNat 64 (4 * t.h * i + 4 * j)) 4)
  let cs := gs.map (fun g => windowOf 64 e (num32 (BitVec.ofNat 32 g)))
  let old ← rdWords base t.h
  wrWords base ((old.zip cs).map (fun p => p.1 + BitVec.ofInt 64 p.2.1))
  cs.forM (fun c => raiseRel c.2)
  written

/-- R89, R305: one row of the finishing form. -/
def jgsRow (t : Tree) (e : Int) (grad grp : Word) (r : Nat) : RM Unit := do
  let ws ← rdWords (grp + BitVec.ofNat 64 (8 * t.h * r)) t.h
  let cs := ws.map (fun w => windowOut 0 w.toInt e)
  wrWords (grad + BitVec.ofNat 64 (4 * t.h * r)) (pack32 (cs.map (·.1)))
  cs.forM (fun c => raiseRel c.2)
  written

/-- R305: jgs. -/
def jgsBody (c tree desc : Word) : RM Unit := do
  let n := (c.extractLsb' 0 8).toNat
  let e := (c.extractLsb' 32 32).toInt
  let t ← readTree tree (fun nodes => n < nodes && windowExpOk e) 0x0E
  let ws ← relDesc desc
  let grp := ws.getD 2 0
  if c.getLsbD 10 then
    let x ← readTile t n
    aligned (t.node n).grad 64
    aligned grp 8
    rowsAt (t.node n).grad (4 * t.h) x.rows
    (List.range x.rows).forM (jgsRow t e (t.node n).grad grp)
  else
    let d ← readTuples (ws.getD 0 0) t.nodes.length
    aligned (ws.getD 1 0) 4
    aligned grp 8
    let x ← readTile t n
    (List.range d.tuples).forM (jgsTuple t x.rows n e (ws.getD 0 0) (ws.getD 1 0) grp)

/-! ### Deltas (R128, R306, R389) -/

/-- Whether two tables of a given extent overlap. -/
def tablesOverlap (x y : Table) : Bool :=
  x.va.toNat < y.va.toNat + 32 + y.esize * y.cap && y.va.toNat < x.va.toNat + 32 + x.esize * x.cap

/-- An entry of an up table that a delta is added to: its element, and, while no delta has changed it, the words that it holds,
which stand when an insertion moves it (R128). -/
abbrev UpEntry := Elem × Option (List Word)

/-- R128: an entry of the up table after a delta is added: an EMPTY entry counts as zero, and under an absent key the delta's own
element is inserted (log 38). -/
def addDelta (b : Sparse UpEntry) (k : Word) (e : Elem) (h : Nat) : Sparse UpEntry :=
  if Sparse.has b k.toNat then Sparse.put b k.toNat ((Sparse.get (Elem.zero h, none) b k.toNat).1.add e, none)
  else Sparse.put b k.toNat (e, none)

/-- R128: the words of an entry that no delta changes; of an EMPTY one the key and the flag, its element being zero. -/
def Table.kept (t : Table) (i : Nat) (key : Word) (empty : Bool) : RM (List Word) :=
  if empty then pure ([key, 0, 0x100000000, 0] ++ List.replicate (t.h / 2) 0) else rdWords (t.entry i) (t.esize / 8)

/-- R128, R389: the entries of an up table before the deltas of a level. -/
def Table.upEntries (t : Table) (sq : Bool) : RM (Sparse UpEntry) := do
  let us ← t.all sq false t.entries
  ((List.range us.length).zip us).mapM (fun e => do
    let ws ← t.kept e.1 e.2.1 e.2.2.1
    pure (e.2.1.toNat, (e.2.2.2, some ws)))

/-- R128, R389: the entries of an up table that a level writes: those that change, and every one from the first inserted
key on. All of them, and the count, are checked before any is written. -/
def storeUp (t : Tree) (up : Table) (old : List Nat) (b : Sparse UpEntry) : RM Unit := do
  let es := ((List.range b.length).zip b).filter (fun e => e.2.2.2.isNone || old[e.1]? ≠ some e.2.1)
  es.forM (fun e => mayWrite (up.entry e.1) (up.esize / 8))
  mayWrite up.va 1
  es.forM (fun e => wrWords (up.entry e.1) (e.2.2.2.getD (e.2.2.1.words t.sq (BitVec.ofNat 64 e.2.1))))
  wrN up.va 4 b.length

/-- R128: the delta of the parent's level, from row r on. -/
def deltaBuild (t : Tree) (x : Relation) (n : Nat) (d : Table) (pkc : Nat) (ds : Build) (kids : List (Nat × Nat × Table)) :
    Nat → Nat → Build → RM Build
  | 0, _, b => pure b
  | m + 1, r, b => do
    x.visit r
    let k ← x.key r pkc
    if !Sparse.has ds k.toNat then deltaBuild t x n d pkc ds kids m (r + 1) b
    else
      let p ← x.part r
      let e ← kids.foldlM (fun e m' => do
        if m'.1 = n then pure (e.mul t.sq (Sparse.get (Elem.zero t.h) ds k.toNat))
        else do
          let key ← x.key r m'.2.1
          let u ← m'.2.2.lookup t.sq key
          pure (e.mul t.sq u)) (Elem.leaf t.sq p)
      let parent := (t.node n).parent
      let k' ← if parent = t.root then pure 0 else x.key r (t.node parent).ckc
      deltaBuild t x n d pkc ds kids m (r + 1) (b.join k' e)

/-- R306: D, W0 and W1 are three disjoint tables (log 38). -/
def disjointTables (t : Tree) (d : Table) (w w' : Word) : RM Unit := do
  let x ← t.output w
  let y ← t.output w'
  need (!tablesOverlap d x && !tablesOverlap d y && !tablesOverlap x y) 9

/-- R128, R389: one level: every structure is read and checked, the delta passed upward is written, and then the up entries.
The answer is the parent level's node and its delta table, none at the root. The first level of a path, which names a work
table first, is given the other one too and checks that the three tables are disjoint (R306, R420). A table that is full (0x08)
keeps its ENTRIES, and the residue counts the levels: R420 speaks of a count field and a residue of 0, R376 and R389 of levels
and of tables that stay, and the model follows these (log 38). -/
def deltaLevel (t : Tree) (n : Nat) (d : Table) (work : Word) (other : Option Word) : RM (Option (Nat × Table)) := do
  let up ← t.table (t.node n).upt
  let next ← if n = t.root then pure none else do
    let p := (t.node n).parent
    let x ← readTile t p
    let kids ← (t.children p).mapM (fun m => do
      let u ← if m = n then pure up else t.table (t.node m).upt
      pure (m, (t.node m).pkc, u))
    match other with
    | some w' => disjointTables t d work w'
    | none => pure ()
    let w ← t.output work
    pure (some (p, x, kids, w))
  let ds ← d.all t.sq false d.entries
  let live : List (Word × Elem) := ds.filterMap (fun e => if e.2.1 then none else some (e.1, e.2.2))
  let b0 ← up.upEntries t.sq
  let old := b0.map (fun e => e.1)
  let b := live.foldl (fun b e => addDelta b e.1 e.2 t.h) b0
  needRoom (b.length ≤ up.cap) 8
  match next with
  | none =>
    storeUp t up old b
    written
    return none
  | some (p, x, kids, w) =>
    let dm : Build := live.map (fun e => (e.1.toNat, e.2))
    let nb ← deltaBuild t x n d (t.node n).pkc dm kids x.rows 0 []
    w.store t true (pure ()) nb
    storeUp t up old b
    written
    let w' ← t.table work true
    return some (p, w')

/-- R128, R306: the levels from a node to the root, the work tables taken in turn; first says that none has been done. -/
def deltaLevels (t : Tree) : Nat → Nat → Table → Word → Word → Bool → RM Unit
  | 0, _, _, _, _, _ => pure ()
  | f + 1, n, d, w, w', first => do
    match ← deltaLevel t n d w (if first then some w' else none) with
    | none => pure ()
    | some (p, d') => deltaLevels t f p d' w' w false

/-- R306: jdelta. The 0x0C of a bag node (R114, R130), to which R420 gives no place, is found after the node records and the check that
they form one tree, before the descriptor and any header is read (log 36). -/
def jdeltaBody (c tree desc : Word) : RM Unit := do
  let n := (c.extractLsb' 0 8).toNat
  let t ← readTree tree (fun nodes => n < nodes) 0x12
  need (!(t.node n).bag) 0x0C
  let ws ← relDesc desc
  let d ← t.table (ws.getD 0 0) true
  deltaLevels t (t.nodes.length + 1) n d (ws.getD 1 0) (ws.getD 2 0) true

/-! ### Cleaving and intersection (R126, R307, R308) -/

/-- R126, R307: cleave. -/
def cleaveBody (c tree list : Word) : RM Unit := do
  let n := (c.extractLsb' 0 8).toNat
  let t ← readTree tree (fun nodes => n < nodes) 0x12
  let nd := t.node n
  let rec' := t.va + BitVec.ofNat 64 (64 * (n + 1))
  let flags := nd.flags % 2
  if nd.cleave = 0 then
    wrN (rec' + 0x34) 4 0
    wrN (rec' + 0x0C) 2 flags
  else
    counts list 4 16 16
    let x ← readTile t n
    let l ← readListHead list
    let gs ← groupsFrom x (n = t.root) nd.ckc x.rows 0 []
    let ss := gs.flatMap (Shard.split nd.cleave)
    needRoom (ss.length ≤ l.2) 0x0F
    ((List.range ss.length).zip ss).forM (fun e => do
      wrWords (list + BitVec.ofNat 64 (16 + 16 * e.1))
        [e.2.key, BitVec.ofNat 64 (e.2.first % 2 ^ 32 + e.2.count % 2 ^ 32 * 2 ^ 32)]
      written)
    wrN list 4 ss.length
    wrN (rec' + 0x34) 4 ss.length
    wrN (rec' + 0x0C) 2 (flags + 2)

/-- R308: the words of a list, strictly rising where keys must. -/
def readList (va : Word) (len : Nat) (keys : Bool) : RM (List Word) := do
  aligned va 8
  let ws ← rdWords va len
  need (!keys || ((List.range (len - 1)).all (fun j => (ws.getD j 0).toNat < (ws.getD (j + 1) 0).toNat))) 7
  return ws

/-- The index of a word in a list. -/
def indexIn (k : Word) (ws : List Word) : Option Nat := ws.findIdx? (fun w => w = k)

/-- R308: a record: its first word, four values of 32 bits each, and the last word. -/
def isectRecord (a : Word) (ix : List Nat) (last : Nat) : List Word :=
  let lo (i : Nat) : Nat := ix.getD i 0 % 2 ^ 32
  [a, BitVec.ofNat 64 (lo 0 + 2 ^ 32 * lo 1), BitVec.ofNat 64 (lo 2 + 2 ^ 32 * lo 3), BitVec.ofNat 64 last]

/-- R308, mode 0: the records of the keys that every list holds. -/
def keyRecords (lists : List (List Word)) : List (List Word) :=
  (lists.headD []).filterMap (fun k =>
    let ix := lists.map (indexIn k)
    if ix.all Option.isSome then some (isectRecord k (ix.map (fun o => o.getD 0)) 0) else none)

/-- The number of ones of a word. -/
def onesOf (w : Word) : Nat := (List.range 64).countP (fun j => w.getLsbD j)

/-- R308, mode 1: the records of the words whose AND is not 0; the ones before them are counted in the words that sums holds. -/
def bitmapRecords (lists sums : List (List Word)) (len : Nat) : List (List Word) :=
  (List.range len).filterMap (fun w =>
    let a := lists.foldl (fun a l => a &&& l.getD w 0) (BitVec.allOnes 64)
    if a = 0 then none
    else some (isectRecord a (sums.map (fun l => ((l.take w).map onesOf).foldl (· + ·) 0)) w))

/-- Words at the addresses from va on. -/
def wordsFrom (va : Word) (ws : List Word) : List (Word × Word) :=
  ((List.range ws.length).zip ws).map (fun e => (va + BitVec.ofNat 64 (8 * e.1), e.2))

/-- A computation in which the words of a list are read as it has them. -/
def readingAs {α : Type} (ws : List (Word × Word)) (x : RM α) : RM α := do
  let r ← get
  set { r with early := ws }
  let a ← x
  modify (fun t => { t with early := r.early })
  return a

/-- R308: the checks of isect and the records that it finds, with the words from which it has them: descriptor, header, and the words
of the lists, each of which is read once for the records and, in mode 1, once more for the sums (R325). Reserved fields of its
descriptor are ignored (R8). -/
def isectFind (out desc : Word) : RM (List (List Word) × List (Word × Word)) := do
  counts out 4 32 32
  aligned desc 64
  let found := (← get).found
  let ws ← readingAs found (rdWords desc 8)
  let k := fieldAt ws 0 1
  let mode := fieldAt ws 1 1
  let addr (i : Nat) : Word := ws.getD (1 + i) 0
  let len (i : Nat) : Nat := fieldAt ws (0x28 + 4 * i) 4
  need (2 ≤ k && k ≤ 4 && mode < 2
    && (List.range 4).all (fun i => i < k || (addr i = 0 && len i = 0))
    && (mode = 0 || (List.range k).all (fun i => len i = len 0))) 0x11
  aligned out 32
  let hd ← readingAs found (rdWords out 4)
  need (zeroWords hd 8 24) 0x0A
  let cap := fieldAt hd 4 4
  let lists ← readingAs found ((List.range k).mapM (fun i => readList (addr i) (len i) (mode = 0)))
  let sums ← if mode = 0 then pure [] else (List.range k).mapM (fun i => readList (addr i) (len i) false)
  let rs := if mode = 0 then keyRecords lists else bitmapRecords lists sums (len 0)
  needRoom (rs.length ≤ cap) 8
  return (rs, wordsFrom desc ws ++ wordsFrom out hd ++ ((List.range k).zip lists).flatMap (fun e => wordsFrom (addr e.1) e.2))

/-- R308, R325: one word of the output of an isect, RECORDS (0) or word n - 1 of its records, unless it was written ahead. -/
def isectPut (out : Word) (n : Nat) (v : Word) : RM Unit := do
  let r ← get
  if r.parts.contains n then pure () else if n = 0 then wrN out 4 v.toNat else wr8 out (32 + 8 * (n - 1)) v

/-- R308: isect. -/
def isectBody (out desc : Word) : RM Unit := do
  let (rs, _) ← isectFind out desc
  ((List.range rs.length).zip rs).forM (fun e => do
    mayWrite (out + BitVec.ofNat 64 (32 + 32 * e.1)) 4
    ((List.range 4).zip e.2).forM (fun w => isectPut out (4 * e.1 + w.1 + 1) w.2)
    written)
  isectPut out 0 (BitVec.ofNat 64 rs.length)

/-- R325: part n of an isect, its word of the output; the answer is the words from which the records are, none where there is no
such word. -/
def isectWrite (out desc : Word) (n : Nat) : RM (Option (List (Word × Word))) := do
  let (rs, ws) ← isectFind out desc
  if 4 * rs.length < n then pure none
  else
    isectPut out n (if n = 0 then BitVec.ofNat 64 rs.length else rs.flatten.getD (n - 1) 0)
    pure (some ws)

/-! ### Issue and completion (R289, R299, R309) -/

/-- R299: whether a control cell has a nonzero bit in a part that is marked 0 for the form; mode and fin say what it reads. -/
def relCtlBad (c : Word) (mode fin : Bool) : Bool :=
  c.extractLsb' 11 21 ≠ 0 || (!fin && (c.getLsbD 10 || c.extractLsb' 32 32 ≠ 0)) || (!mode && c.extractLsb' 8 2 ≠ 0)

/-- The unit accepts an operation, which raises the tiles counter. -/
def relSend (i : Instr) (f : Eng) (d a b : Word) (dst : Option Nat) : M Ctl := do
  accept OpKind.isRel 8
  let _ ← emit i .tiles (.eng f d a b 0 dst)
  return .next

/-- R289, R299: jgs, jmul, jexp, jdelta and cleave at issue. -/
def relCtlOp (i : Instr) (f : Eng) (d a b : Name) (mode fin : Bool) : M Ctl := do
  let x ← ctlOperand a
  let y ← ctlOperand b
  let c ← ctlOperand d
  if relCtlBad c mode fin then trap cILL c
  relSend i f c x y none

/-- R301, R304, R308: jlk, jenum and isect at issue. -/
def relAddrOp (i : Instr) (f : Eng) (d a b : Name) : M Ctl := do
  let x ← ctlOperand a
  let y ← ctlOperand b
  let c ← ctlOperand d
  relSend i f c x y none

/-- R309: jstat at issue. -/
def jstatOp (i : Instr) (d : Name) : M Ctl := do
  let s ← get
  relSend i .jstat 0 0 0 (s.lateDst d)

/-- R309: jstat writes the status bits of its slot and clears them. -/
def State.runJstat (s : State) (o : Op) (dst : Option Nat) : State :=
  if !o.live then s.endOp o
  else
    let x := s.slot o.g o.k
    ((s.setSlot o.g o.k { x with relBits := 0 }).endOp o).arrive o dst [{ v := x.relBits.setWidth 64, t := false }]

/-- R115, R308, R325: an isect under way, which no wait of its slot covers: the unit reads the word at an address ahead for its sums
(0), which it may do again, or for its records (1), or part n - 2 of its writes is performed before the others. With the first
part the records stand, for the words that they are from have been read; the sums of a part are read when it is written. The
operation stays in flight. While a publish waits, no isect begins (R68). -/
def State.isectPart (s : State) (o : Op) (d a va : Word) (n : Nat) : State :=
  if !o.begun && s.publishWaits o.g then s
  else match n with
  | 0 =>
    match rd8 va 0 { s.relStart o with early := [] } with
    | (.ok v, _) => s.mapOp o.id (fun p => { p with early := (va, v) :: p.early })
    | (.error _, _) => s
  | 1 =>
    if (o.found.lookup va).isSome then s
    else match rd8 va 0 { s.relStart o with early := [] } with
    | (.ok v, _) => s.mapOp o.id (fun p => { p with found := (va, v) :: p.found })
    | (.error _, _) => s
  | m + 2 =>
    if o.parts.contains m then s
    else match isectWrite d a m (s.relStart o) with
    | (.ok (some ws), r) => r.st.mapOp o.id (fun p => { p with parts := m :: p.parts, found := ws })
    | _ => s

/-- An operation of the unit runs once it is the oldest. -/
def State.relTurn (s : State) (o : Op) (run : State) : State := if !s.oldestOf o OpKind.isRel then s else run

/-! ### The instructions and events -/

/-- R301: Queues a relational lookup writing one message table entry. -/
def execJlk (d : Name) (a : Name) (b : Name) (s : State) : Host.Outcome State Fault Refusal :=
  issue (.jlk d a b) (relAddrOp (.jlk d a b) .jlk d a b) s

/-- R305: Queues grouping of tuple gradients into exact-window rows, or the finishing conversion. -/
def execJgs (d : Name) (a : Name) (b : Name) (s : State) : Host.Outcome State Fault Refusal :=
  issue (.jgs d a b) (relCtlOp (.jgs d a b) .jgs d a b false true) s

/-- R302: Queues forming of an up table or shard elements in one of three modes. -/
def execJmul (d : Name) (a : Name) (b : Name) (s : State) : Host.Outcome State Fault Refusal :=
  issue (.jmul d a b) (relCtlOp (.jmul d a b) .jmul d a b true false) s

/-- R303: Queues a down table, contexts or gradients by mode. -/
def execJexp (d : Name) (a : Name) (s : State) : Host.Outcome State Fault Refusal :=
  issue (.jexp d a) (relCtlOp (.jexp d a) .jexp d a 0 true false) s

/-- R304: Queues enumeration of join tuples into a tuple tile. -/
def execJenum (d : Name) (a : Name) (s : State) : Host.Outcome State Fault Refusal :=
  issue (.jenum d a) (relAddrOp (.jenum d a) .jenum d a 0) s

/-- R306: Queues application of a delta table up the path to the root. -/
def execJdelta (d : Name) (a : Name) (b : Name) (s : State) : Host.Outcome State Fault Refusal :=
  issue (.jdelta d a b) (relCtlOp (.jdelta d a b) .jdelta d a b false false) s

/-- R307: Queues division of a node's key groups into shards. -/
def execCleave (d : Name) (a : Name) (b : Name) (s : State) : Host.Outcome State Fault Refusal :=
  issue (.cleave d a b) (relCtlOp (.cleave d a b) .cleave d a b false false) s

/-- R308: Queues a multiway intersection of key lists or bitmaps. -/
def execIsect (d : Name) (a : Name) (s : State) : Host.Outcome State Fault Refusal :=
  issue (.isect d a) (relAddrOp (.isect d a) .isect d a 0) s

/-- R309: Queues a read-and-clear of the slot's relational status bits. -/
def execJstat (d : Name) (s : State) : Host.Outcome State Fault Refusal :=
  issue (.jstat d) (jstatOp (.jstat d) d) s

/-- R301: The relational unit writes a lookup entry or faults. -/
def execJlkComplete (s : State) : Host.Outcome State Fault Refusal :=
  s.onOp (fun o =>
    match o.kind with
    | .eng .jlk d a b _ _ => s.relTurn o (s.runRel o (jlkBody d a b))
    | _ => s)

/-- R305: The relational unit finishes grouping or the finishing conversion, or faults. -/
def execJgsComplete (s : State) : Host.Outcome State Fault Refusal :=
  s.onOp (fun o =>
    match o.kind with
    | .eng .jgs d a b _ _ => s.relTurn o (s.runRel o (jgsBody d a b))
    | _ => s)

/-- R302: The relational unit finishes an up table or shard operation, or faults. -/
def execJmulComplete (s : State) : Host.Outcome State Fault Refusal :=
  s.onOp (fun o =>
    match o.kind with
    | .eng .jmul d a b _ _ => s.relTurn o (s.runRel o (jmulBody d a b))
    | _ => s)

/-- R303: The relational unit finishes a down table, contexts or gradients, or faults. -/
def execJexpComplete (s : State) : Host.Outcome State Fault Refusal :=
  s.onOp (fun o =>
    match o.kind with
    | .eng .jexp d a _ _ _ => s.relTurn o (s.runRel o (jexpBody d a))
    | _ => s)

/-- R304: The relational unit writes tuples, TUPLES and NEXT, or faults. -/
def execJenumComplete (s : State) : Host.Outcome State Fault Refusal :=
  s.onOp (fun o =>
    match o.kind with
    | .eng .jenum d a _ _ _ => s.relTurn o (s.runRel o (jenumBody d a))
    | _ => s)

/-- R306: The relational unit finishes applying a delta up the path, or faults with a level residue. -/
def execJdeltaComplete (s : State) : Host.Outcome State Fault Refusal :=
  s.onOp (fun o =>
    match o.kind with
    | .eng .jdelta d a b _ _ => s.relTurn o (s.runRel o (jdeltaBody d a b))
    | _ => s)

/-- R307: The relational unit writes the shard list, SHARDS and CLEAVED, or faults. -/
def execCleaveComplete (s : State) : Host.Outcome State Fault Refusal :=
  s.onOp (fun o =>
    match o.kind with
    | .eng .cleave d a b _ _ => s.relTurn o (s.runRel o (cleaveBody d a b))
    | _ => s)

/-- R308: The relational unit writes intersection records, or faults. A turn whose argument opt names a part of the operation
performs that part alone (R325). -/
def execIsectComplete (s : State) : Host.Outcome State Fault Refusal :=
  s.onOp (fun o =>
    match o.kind with
    | .eng .isect d a _ _ _ => s.relTurn o (match s.ev.opt with
      | none => s.runRel o (isectBody d a)
      | some n => s.isectPart o d a s.ev.v n)
    | _ => s)

/-- R309: The relational unit writes and clears the slot's status bits. -/
def execJstatComplete (s : State) : Host.Outcome State Fault Refusal :=
  s.onOp (fun o =>
    match o.kind with
    | .eng .jstat _ _ _ _ dst => s.relTurn o (s.runJstat o dst)
    | _ => s)

end Sys2Proof.Machine
end

