-- ==== Sys2Proof/Machine/Param.lean ====
section
/-! DEFINITION. Sys2Proof/Machine/Param.lean: major 0x37, parameter records, contributions and rule slots, and what a mason
unit does before and after the overlay of an update (R151 to R165, R311 to R316). The overlay's own instructions are those
of the other families. -/

namespace Sys2Proof.Machine

/-! ### Records (R151, R152) -/

/-- The header of a record. -/
structure Record where
  pa : Nat
  gen : Word
  expect : BitVec 32
  arrived : BitVec 32
  rule : Nat
  status : BitVec 8
  flags : BitVec 16
  h : Nat
  e : BitVec 32
deriving DecidableEq, Repr

/-- R151: the header at a physical address. -/
def State.record (s : State) (pa : Nat) : Record :=
  let w1 := s.read64 (pa + 8)
  let w2 := s.read64 (pa + 16)
  { pa := pa, gen := s.read64 pa, expect := w1.extractLsb' 0 32, arrived := w1.extractLsb' 32 32,
    rule := (w2.extractLsb' 0 8).toNat, status := w2.extractLsb' 8 8, flags := w2.extractLsb' 16 16,
    h := (w2.extractLsb' 32 16).toNat, e := s.read32 (pa + 0x18) }

/-- STATUS[3:0] of a record (R152). -/
def Record.st (r : Record) : Nat := (r.status.extractLsb' 0 4).toNat

/-- R151: the values that H may have. -/
def recHOk (h : Nat) : Bool := h % 16 = 0 && 16 ≤ h && h ≤ 1024

/-- R151: the address of element j of slot A or, when set, of slot B. -/
def Record.weight (r : Record) (b : Bool) (j : Nat) : Nat := r.pa + 0x40 + (if b then 4 * r.h else 0) + 4 * j

/-- R151: the address of accumulator word j. -/
def Record.acc (r : Record) (j : Nat) : Nat := r.pa + 0x40 + 16 * r.h + 8 * j

/-- R154, R311, R312, R313, R315: where an operation finds the record it names, and how many bytes are left from there in
its leaf page; pct and parm also need WR, and write no locked leaf table (R360). -/
def State.recAccess (s : State) (o : Op) (va : Word) (write : Bool) : Except EngErr (Nat × Nat) :=
  if va.toNat % 64 ≠ 0 then .error (cALN, 0)
  else if 2 ^ 49 ≤ va.toNat then .error (cXLT, 0)
  else if va.toNat < 2 ^ 20 then .error (cCLS, 0)
  else match s.walk o.g o.ptroot va.toNat with
  | .error e => .error (e.code, e.sub)
  | .ok l =>
    let pa := l.pa + va.toNat % 2 ^ l.shift
    if !s.reachable o.g pa 64 then .error (cXLT, 0)
    else if permFails l.flags .load o.level || (write && permFails l.flags .store o.level)
        || saveAreaDenied pa 64 o.level then .error (cPERM, 0)
    else if (l.flags.extractLsb' 6 2).toNat ≠ 2 || (write && s.inSealTable pa 64) then .error (cCLS, 0)
    else .ok (pa, 2 ^ l.shift - va.toNat % 2 ^ l.shift)

/-- R154, R312, R315, R392: the faults of a record's header, those of prd and pstat from STATUS 4 and those of pct from
STATUS 3 on; E matters to pct only. -/
def State.recFault (s : State) (pa : Nat) (pct : Bool) : Option EngErr :=
  let r := s.record pa
  if (s.badWord pa 64).isSome then some (cSOFT, 3)
  else if !recHOk r.h || (pct && !windowExpOk r.e.toInt) then some (cPRF, 3)
  else if (if pct then 3 else 4) ≤ r.st then some (cPRF, 2)
  else none

/-- Whole words written by a mason unit from an address on. -/
def State.putWords (s : State) (pa : Nat) (ws : List Word) : State :=
  ((List.range ws.length).zip ws).foldl (fun s e => s.write64 (pa + 8 * e.1) e.2) s

/-! ### Contributions (R154, R155, R161) -/

/-- R87, R152: the FLAGS bits of conversion flags. -/
def recFlags (f : Fl) : BitVec 16 :=
  (BitVec.ofBool (f.getLsbD 0) ++ BitVec.ofBool (f.getLsbD 4) ++ BitVec.ofBool (f.getLsbD 2)).setWidth 16 <<< 1

/-- R154: the indivisible change of an IDLE record. A record that reaches EXPECT joins the queue of its mason unit. -/
def State.applyContribution (s : State) (r : Record) (o : Nat) (g : List (BitVec 32)) : State :=
  let cs := g.map (fun x => windowOf 64 r.e.toInt (num32 x))
  let sums := ((List.range 16).zip cs).map (fun c => s.read64 (r.acc (o + c.1)) + BitVec.ofInt 64 c.2.1)
  let fl := (r.flags ||| recFlags (cs.foldl (fun f c => f ||| c.2) 0)) &&& 0x1F
  let n := r.arrived + 1
  let full := r.expect ≠ 0 && n = r.expect
  let s1 := ((s.putWords (r.acc o) sums).write32 (r.pa + 0x0C) n)
  let s2 := s1.write64 (r.pa + 0x10)
    (BitVec.ofNat 16 0 ++ BitVec.ofNat 16 r.h ++ fl ++ (if full then 1 else r.status) ++ BitVec.ofNat 8 r.rule)
  if full then
    let m := s2.mason (ownerOf r.pa)
    s2.setMason (ownerOf r.pa) { m with queue := m.queue ++ [r.pa] }
  else s2

/-- R154, R392: a contribution at a record that holds nothing back: it is applied or refused. -/
def State.contribute (s : State) (o : Op) (pa : Nat) (off : Word) (g : List (BitVec 32)) : State :=
  let r := s.record pa
  let faulted (s : State) : State := s.write8 (pa + 0x11) 0x73
  if s.inSealTable pa 64 then s.failOp o cCLS 0 0
  else match s.recFault pa true with
  | some e => let s1 := s.failOp o e.1 0 e.2; if e.1 = cSOFT then faulted s1 else s1
  | none =>
    if off.toNat % 16 ≠ 0 || r.h ≤ off.toNat then s.failOp o cPRF 0 1
    else if s.inSealTable (r.acc off.toNat) 128 then s.failOp o cCLS 0 0
    else if (s.badWord (r.acc off.toNat) 128).isSome then faulted (s.failOp o cSOFT 0 3)
    else (s.endOp o).applyContribution r off.toNat g

/-- The contributions that a channel holds for a record. -/
def State.heldFor (s : State) (pa : Nat) : List Contribution :=
  (s.mason (ownerOf pa)).held.filter (fun c => c.pa = pa)

/-- Whether a record is QUEUED or UPDATING. -/
def State.recBusy (s : State) (pa : Nat) : Bool := (s.record pa).st = 1 || (s.record pa).st = 2

/-- Whether a parm that has reached a record waits for its update to end (R153). -/
def State.parmWaits (s : State) (pa : Nat) : Bool :=
  s.ops.any (fun o => match o.kind with
    | .parm rec _ _ _ _ => !s.heldBack o && (match s.recAccess o rec true with
      | .ok t => t.1 = pa
      | .error _ => false)
    | _ => false)

/-- R155, R158: the held contributions of a record that is neither QUEUED nor UPDATING, in the order of their arrival, up
to one that makes it QUEUED again. Those of a record that a seal has locked meanwhile are refused (R360). -/
def State.releaseHeld (s : State) (pa : Nat) : List Contribution → State
  | [] => s
  | c :: rest =>
    if s.recBusy pa && !s.inSealTable pa 64 then s
    else
      let m := s.mason (ownerOf pa)
      let s1 := s.setMason (ownerOf pa) { m with held := m.held.filter (fun d => d.op ≠ c.op) }
      match s1.op? c.op with
      | some o => (s1.contribute o pa c.off c.g).releaseHeld pa rest
      | none => s1.releaseHeld pa rest

/-- The held contributions of a record are applied or refused, unless a parm is about to discard them (R153, R155). -/
def State.flushRecord (s : State) (pa : Nat) : State :=
  if s.parmWaits pa then s else s.releaseHeld pa (s.heldFor pa)

/-- The held contributions of every record are applied or refused where the record is neither QUEUED nor UPDATING: when a parm is
over, those that waited for it are held for no reason any more (R153, R155). -/
def State.flushHeld (s : State) : State :=
  (s.masons.flatMap (fun e => e.2.held.map (·.pa))).foldl State.flushRecord s

/-- The record for which a channel holds the contribution of an operation. -/
def State.heldAt (s : State) (id : Nat) : Option Nat :=
  ((s.masons.flatMap (fun e => e.2.held)).find? (fun c => c.op = id)).map (·.pa)

/-- R154, R155: a contribution reaches its channel. A channel holds 64; further ones wait in the mesh. Those held for a record that
is neither QUEUED nor UPDATING any more, whatever has changed it, are applied before any newer one. -/
def State.contribArrive (s : State) (o : Op) (va off : Word) (g : List (BitVec 32)) : State :=
  if s.heldBack o then s
  else match s.heldAt o.id with
  | some pa => s.flushRecord pa
  | none => match s.recAccess o va true with
  | .error e => s.failOp o e.1 0 e.2
  | .ok (pa, _) =>
    let m := s.mason (ownerOf pa)
    if s.recBusy pa && (s.badWord pa 64).isNone then
      if 64 ≤ m.held.length then s
      else s.setMason (ownerOf pa) { m with held := m.held ++ [{ pa := pa, off := off, g := g, op := o.id }] }
    else if !(s.heldFor pa).isEmpty then s.flushRecord pa
    else s.contribute o pa off g

/-- R311: pct. -/
def pctOp (i : Instr) (d a b : Name) : M Ctl := do
  let va ← ctlOperand a
  let y ← readVec b
  if y.2.any id then trap cBND 0
  let o ← ctlOperand d
  let _ ← emit i .stores (.contrib va o y.1)
  return .next

/-! ### prd and pstat (R159, R312, R315) -/

/-- R312: prd; the window of its nine cells has been checked with the others (R207). -/
def prdOp (i : Instr) (d a b : Name) : M Ctl := do
  let va ← ctlOperand a
  let y ← ctlOperand b
  let s ← get
  let _ ← emit i .loads (.eng .prd 0 va y 0 (s.lateDst d))
  return .next

/-- R312: the code of a generation that is asked for. -/
def prdCode (gen : Word) (want : BitVec 54) (st : Nat) : Nat :=
  let d := gen.extractLsb' 0 54 - want
  if d = 0 then 0
  else if d = 1 && gen ≠ 0 then (if st = 0 then 1 else 2)
  else if d.toNat < 2 ^ 53 && d ≠ 1 then 2
  else 3

/-- R186, R414: a prd of a slot has returned a generation of a record: of what the update that made it has overwritten the slot may
still read the old words; nobody may once another prd has returned it (log 101). -/
def State.noteReader (s : State) (g k pa : Nat) : State :=
  let m := s.mason (ownerOf pa)
  match m.stale with
  | some x =>
    if x.record ≠ pa then s
    else s.setMason (ownerOf pa) { m with stale := if x.reader.isNone then some { x with reader := some (g, k) } else none }
  | none => s

/-- R159, R312: prd at the record, one indivisible read in its place among the slot's accesses. -/
def State.prdArrive (s : State) (o : Op) (va y : Word) (dst : Option Nat) : State :=
  if !s.isFirst o then s
  else match s.recAccess o va false with
  | .error e => s.failOp o e.1 0 e.2
  | .ok (pa, _) =>
    let r := s.record pa
    let j := (y.extractLsb' 0 10).toNat
    match s.recFault pa false with
    | some e => s.failOp o e.1 0 e.2
    | none =>
      if j % 16 ≠ 0 || r.h ≤ j then s.failOp o cPRF 0 1
      else
        let code := prdCode r.gen (y.extractLsb' 10 54) r.st
        let w := r.weight (r.flags.getLsbD 0 ^^ (code = 1)) j
        if code < 2 && (s.badWord w 64).isSome then s.failOp o cSOFT 0 3
        else
          let ws := (List.range 8).map (fun i => if code < 2 then s.read64 (w + 8 * i) else 0)
          let last := r.gen <<< 10 ||| BitVec.ofNat 64 code
          let s1 := (s.endOp o).arrive o dst ((ws ++ [last]).map (fun v => { v := v }))
          if code < 2 then s1.noteReader o.g o.k pa else s1

/-- R315: pstat; it counts among the loads, as prd does (log 24). -/
def pstatOp (i : Instr) (d a : Name) : M Ctl := do
  let va ← ctlOperand a
  let s ← get
  let _ ← emit i .loads (.eng .pstat 0 va 0 0 (s.lateDst d))
  return .next

/-- R315: pstat at the record. -/
def State.pstatArrive (s : State) (o : Op) (va : Word) (dst : Option Nat) : State :=
  if !s.isFirst o then s
  else match s.recAccess o va false with
  | .error e => s.failOp o e.1 0 e.2
  | .ok (pa, _) =>
    match s.recFault pa false with
    | some e => s.failOp o e.1 0 e.2
    | none =>
      let r := s.record pa
      let v : Word := r.gen.extractLsb' 0 16 ++ r.arrived ++ (0 : BitVec 3) ++ r.flags.extractLsb' 0 5 ++ r.status
      (s.endOp o).arrive o dst [{ v := v }]

/-! ### parm (R153, R313) -/

/-- R313: parm reads and checks its descriptor. -/
def parmOp (i : Instr) (a : Name) : M Ctl := do
  let va ← ctlOperand a
  let t ← access va 32 32 .load
  recordReady t.pa 32
  softCheck t.pa 32 va
  let s ← get
  let rec' := s.read64 t.pa
  let src := s.read64 (t.pa + 8)
  let w := s.read64 (t.pa + 16)
  let rule := (w.extractLsb' 32 8).toNat
  let h := (w.extractLsb' 48 16).toNat
  if rec'.toNat % 64 ≠ 0 then trap cALN rec'
  if src.toNat % 4 ≠ 0 then trap cALN src
  if 15 < rule || !recHOk h || w.extractLsb' 40 8 ≠ 0 || s.read64 (t.pa + 24) ≠ 0 then trap cILL va
  let _ ← emit i .stores (.parm rec' src (w.extractLsb' 0 32) rule h)
  return .next

/-- R153, R313: the words at SRC, as copy reads in class E or B, none of them tagged. -/
def State.srcWords (s : State) (o : Op) (src : Word) : Nat → Except EngErr (List (BitVec 32))
  | 0 => .ok []
  | n + 1 =>
    match s.engReach (s.opCtx o) src 4 .copyRead with
    | .error e => .error e
    | .ok t =>
      if 2 ≤ t.cls then .error (cCLS, 0)
      else match s.badWord t.pa 4 with
      | some a => .error (softCause a)
      | none =>
        if s.loadTag o.g t.pa 4 (t.cls = 1) then .error (cBND, 0)
        else match s.srcWords o (src + 4) n with
          | .error e => .error e
          | .ok ws => .ok (s.read32 t.pa :: ws)

/-- R153: the initial record, as the words of its header, its two slots, its moments and its accumulator. -/
def initialRecord (expect : BitVec 32) (rule h : Nat) (e : BitVec 32) (ws : List (BitVec 32)) : List Word :=
  [0, expect.setWidth 64, BitVec.ofNat 64 (rule + h * 2 ^ 32), e.setWidth 64, 0, 0, 0, 0]
    ++ pack32 ws ++ pack32 ws ++ List.replicate (2 * h) 0

/-- R153: the contributions held for a record are discarded, and their counts released. -/
def State.discardHeld (s : State) (pa : Nat) : State :=
  let m := s.mason (ownerOf pa)
  let s1 := s.setMason (ownerOf pa) { m with held := m.held.filter (fun c => c.pa ≠ pa) }
  (s.heldFor pa).foldl (fun s c => match s.op? c.op with | some o => s.endOp o | none => s) s1

/-- R153, R313: the mason unit initialises a record, after an update that it is due or runs. However the parm ends, the
contributions that were held behind it go on (R155). -/
def State.parmApply (s : State) (o : Op) (rec' src : Word) (expect : BitVec 32) (rule h : Nat) : State :=
  let fails (e : EngErr) : State := (s.failOp o e.1 0 e.2).flushHeld
  if s.heldBack o then s
  else match s.recAccess o rec' true with
  | .error e => fails e
  | .ok (pa, room) =>
    let m := s.mason (ownerOf pa)
    if s.inSealTable pa (64 + 24 * h) then fails (cCLS, 0)
    else match s.srcWords o src h with
    | .error e => if e.1 = 0 then s else fails e
    | .ok ws =>
      if m.run = some pa || m.queue.contains pa then s
      else if !Sparse.has m.rules rule then fails (cPRF, 4)
      else if room < 64 + 24 * h then fails (cPRF, 5)
      else
        let e := (Sparse.get {} m.rules rule).e
        (((s.discardHeld pa).endOp o).putWords pa (initialRecord expect rule h e ws)).flushHeld

/-! ### povl (R162, R314) -/

/-- R314: povl reads and checks its descriptor. -/
def povlOp (i : Instr) (a : Name) : M Ctl := do
  let va ← ctlOperand a
  let t ← access va 64 64 .copyRead
  let s ← get
  if t.cls = 1 || t.cls = 2 || (t.cls = 3 && !s.sealHolds t.pa) then trap cCLS va
  recordReady t.pa 64
  softCheck t.pa 64 va
  let img := s.read64 t.pa
  let words := (s.read32 (t.pa + 8)).toNat
  let e := s.read32 (t.pa + 12)
  let hp := (List.range 8).map (fun j => s.read32 (t.pa + 16 + 4 * j))
  let w6 := s.read64 (t.pa + 0x30)
  let slot := (w6.extractLsb' 0 8).toNat
  if img.toNat % 64 ≠ 0 then trap cALN img
  if words < 1 || 1024 < words || 15 < slot || !windowExpOk e.toInt || w6.extractLsb' 8 56 ≠ 0
      || s.read64 (t.pa + 0x38) ≠ 0 then trap cILL va
  let _ ← emit i .stores (.povl img words e hp slot)
  return .next

/-- R314: the words of an overlay image, as copy reads in class E or S. -/
def State.imageWords (s : State) (o : Op) : Nat → Word → Option Nat → Except EngErr (List (BitVec 32))
  | 0, _, _ => .ok []
  | n + 1, va, page =>
    match s.engReach (s.opCtx o) va 4 .copyRead with
    | .error e => .error e
    | .ok t =>
      if t.cls = 1 || t.cls = 2 then .error (cCLS, 0)
      else if t.cls = 3 && page ≠ some (t.pa / 4096) && !s.sealHolds t.pa then .error (cCPF, 3)
      else match s.badWord t.pa 4 with
      | some a => .error (softCause a)
      | none => match s.imageWords o n (va + 4) (if t.cls = 3 then some (t.pa / 4096) else page) with
        | .error e => .error e
        | .ok ws => .ok (s.read32 t.pa :: ws)

/-- R162, R314: the mason unit beneath the issuing core loads a rule slot, between updates. -/
def State.povlApply (s : State) (o : Op) (img : Word) (words : Nat) (e : BitVec 32) (hp : List (BitVec 32)) (slot : Nat) :
    State :=
  if s.heldBack o then s
  else match s.imageWords o words img none with
  | .error x => if x.1 = 0 then s else s.failOp o x.1 0 x.2
  | .ok ws =>
    if (s.mason o.g).run.isSome then s
    else
      let s1 := s.endOp o
      let m := s1.mason o.g
      s1.setMason o.g { m with rules := Sparse.put m.rules slot { image := ws, e := e, hp := hp } }

/-! ### Updates (R156, R157, R158) -/

/-- R157: the entry state of an overlay. -/
def Record.entryRegs (r : Record) (hp : List (BitVec 32)) : Sparse Word :=
  [(8, BitVec.ofNat 64 r.pa), (9, BitVec.ofNat 64 r.h), (10, r.gen), (11, BitVec.ofNat 64 r.rule)]
    ++ ((List.range 8).zip hp).map (fun e => (12 + e.1, e.2.setWidth 64))

/-- R156, step 2: the accumulator as FP32 values. -/
def State.convertAcc (s : State) (r : Record) : State :=
  s.putWords (r.acc 0) ((List.range r.h).map (fun j =>
    (windowOut 0 (s.read64 (r.acc j)).toInt r.e.toInt).1.setWidth 64))

/-- R392: whether a word that the start of an update reads, of the header or of the accumulator, holds an uncorrectable
error. -/
def State.startBad (s : State) (r : Record) : Bool :=
  (s.badWord r.pa 8).isSome || (s.badWord (r.pa + 16) 16).isSome || (s.badWord (r.acc 0) (8 * r.h)).isSome

/-- R360: whether a seal has locked a table that what the unit itself writes in an update, the header or the accumulator of the
record, lies in. -/
def State.recLocked (s : State) (r : Record) : Bool := s.inSealTable r.pa 64 || s.inSealTable (r.acc 0) (8 * r.h)

/-- R156, R158: a mason unit takes the oldest QUEUED record, converts its accumulator and starts the overlay. A
record that a seal has locked fails as a store outside the channel does (R360; log 86). -/
def State.masonStart (s : State) (g : Nat) : State :=
  let m := s.mason g
  match m.run, m.queue with
  | none, pa :: rest =>
    let s1 := s.setMason g { m with queue := rest }
    let r := s.record pa
    if r.st ≠ 1 then s1.flushRecord pa
    else
      let s0 := s1.setMason g { s1.mason g with run := some pa }
      let s2 := s0.write8 (pa + 0x11) 2
      if s.recLocked r then (s0.masonFail g 2).flushRecord pa
      else if s.startBad r then (s2.masonFail g 7).flushRecord pa
      else
        let s3 := s2.convertAcc r
        if !Sparse.has m.rules r.rule then (s3.masonFail g 5).flushRecord pa
        else
          let x := Sparse.get {} m.rules r.rule
          s3.setMason g { s3.mason g with regs := r.entryRegs x.hp, pred := 1, fctl := 0, pc := 0, image := x.image,
                                          cycles := 0, buf := [] }
  | _, _ => s

/-- What the stores of a run have overwritten: each word, in the order of the first store to it, as it was before and as it is. -/
def staleWords (before after : State) (ws : List WordWrite) : List (Nat × Word × Word) :=
  ((ws.map (·.pa)).eraseDups).map (fun pa => (pa, before.read64 pa, after.read64 pa))

/-- R156, steps 4 to 6, R157: the end of an update at the overlay's halt: its stores reach memory with what the unit writes
itself (R160), and reserved fields are written as 0 (R8). A record or a store that a seal has locked meanwhile makes the run
fail (R360; log 86). -/
def State.masonEnd (s0 : State) (g : Nat) : State :=
  let s := s0.flushBuf g
  let m := s.mason g
  match m.run with
  | none => s0
  | some pa =>
    let r := s.record pa
    if s.recLocked r || (s0.mason g).buf.any (fun w => s.inSealTable w.pa 8) then s0.masonFail g 2
    else
    let s1 := (s.putWords (r.acc 0) (List.replicate r.h 0)).write32 (pa + 0x0C) 0
    let s2 := s1.write64 pa (r.gen + 1)
    let fl := ((r.flags ^^^ 1) ||| (if m.fctl.extractLsb' 8 5 ≠ 0 then 16 else 0)) &&& 0x1F
    let s3 := s2.write64 (pa + 0x10)
      ((0 : BitVec 16) ++ BitVec.ofNat 16 r.h ++ fl ++ (0 : BitVec 8) ++ BitVec.ofNat 8 r.rule)
    s3.setMason g { s3.mason g with
      run := none, cycles := 0, stale := some { record := pa, words := staleWords s0 s (s0.mason g).buf } }

/-- What follows a turn of a mason unit that ran an update of a record: once the run is over, the contributions held for
the record are applied or refused (R155, R158). -/
def State.afterRun (s : State) (g : Nat) (was : Option Nat) : State :=
  match was, (s.mason g).run with
  | some pa, none => s.flushRecord pa
  | _, _ => s

/-- R158: 2^24 mason cycles without halt. -/
def State.masonLimit (s : State) (g : Nat) : State :=
  if (s.mason g).run.isSome && 2 ^ 24 ≤ (s.mason g).cycles then (s.masonFail g 4).afterRun g (s.mason g).run else s

/-! ### The instructions and events -/

/-- R311: Posts a 16-value gradient contribution to a parameter record. -/
def execPct (d : Name) (a : Name) (b : Name) (s : State) : Host.Outcome State Fault Refusal :=
  issue (.pct d a b) (pctOp (.pct d a b) d a b) s

/-- R312: Requests 16 weights of a named generation and a status code from a record. -/
def execPrd (d : Name) (a : Name) (b : Name) (s : State) : Host.Outcome State Fault Refusal :=
  issue (.prd d a b) (prdOp (.prd d a b) d a b) s

/-- R313: Reads and checks a descriptor and sends a record initialisation to its mason unit. -/
def execParm (a : Name) (s : State) : Host.Outcome State Fault Refusal :=
  issue (.parm a) (parmOp (.parm a) a) s

/-- R314: Reads and checks a descriptor and loads a rule slot of the local mason unit. -/
def execPovl (a : Name) (s : State) : Host.Outcome State Fault Refusal :=
  issue (.povl a) (povlOp (.povl a) a) s

/-- R315: Requests the status, flags, arrived count and generation of a record. -/
def execPstat (d : Name) (a : Name) (s : State) : Host.Outcome State Fault Refusal :=
  issue (.pstat d a) (pstatOp (.pstat d a) d a) s

/-- R154: A contribution reaches its record's channel and is applied, held or refused. -/
def execContributionArrival (s : State) : Host.Outcome State Fault Refusal :=
  s.onOp (fun o =>
    match o.kind with
    | .contrib va off g => s.contribArrive o va off g
    | _ => s)

/-- R312: A prd reads weights and status indivisibly at the record and writes its group, or faults. -/
def execPrdComplete (s : State) : Host.Outcome State Fault Refusal :=
  s.onOp (fun o =>
    match o.kind with
    | .eng .prd _ va y _ dst => s.prdArrive o va y dst
    | _ => s)

/-- R315: A pstat reads the record's first 64 bytes and writes its status cell, or faults. -/
def execPstatComplete (s : State) : Host.Outcome State Fault Refusal :=
  s.onOp (fun o =>
    match o.kind with
    | .eng .pstat _ va _ _ dst => s.pstatArrive o va dst
    | _ => s)

/-- R153: The mason unit initialises a record from the carried weights, after any running update. -/
def execParmApply (s : State) : Host.Outcome State Fault Refusal :=
  s.onOp (fun o =>
    match o.kind with
    | .parm rec' src expect rule h => s.parmApply o rec' src expect rule h
    | _ => s)

/-- R162: The mason unit loads a rule slot between updates, or the operation faults. -/
def execPovlApply (s : State) : Host.Outcome State Fault Refusal :=
  s.onOp (fun o =>
    match o.kind with
    | .povl img words e hp slot => s.povlApply o img words e hp slot
    | _ => s)

/-- R156: The mason unit takes the oldest QUEUED record, converts its accumulator and starts the overlay. -/
def execMasonUpdateStart (s : State) : Host.Outcome State Fault Refusal :=
  .next (s.masonStart s.ev.g)

/-- R158: An overlay runs 2^24 mason cycles without halt and the record becomes FAULTED. -/
def execMasonCycleLimit (s : State) : Host.Outcome State Fault Refusal :=
  .next (s.masonLimit s.ev.g)

end Sys2Proof.Machine
end

