-- ==== Sys2Proof/Machine/Issue.lean ====
section
/-! DEFINITION. Sys2Proof/Machine/Issue.lean: which slot may have a turn (R27, R269, R285): blocking, the 8-cycle gap,
cells that still await a result, and the word that a slot would issue next. -/

namespace Sys2Proof.Machine

/-- R358: whether an engine of the Vrelell core is busy: 0 signature, 1 hash, 2 key store, 3 measurement, 4 fuses. -/
def State.vrBusy (s : State) (e : Nat) : Bool :=
  s.ops.any (fun o => match o.kind with
    | .verify _ _ _ _ | .sign _ _ => e = 0
    | .shake _ _ _ => e = 1
    | .wipe _ _ => e = 2
    | .measure _ _ _ => e = 3
    | .fuse => e = 4
    | _ => false)

/-- R358: whether a slot waits for an engine since before a cycle. -/
def State.vrAhead (s : State) (g e t : Nat) : Bool :=
  (s.core g).slots.any (fun x => match x.2.blocked with | some (.vrEngine f u) => f = e && u < t | _ => false)

/-- R352: whether a partition that leaves reset needs a tenant key first. -/
def State.needsKey (s : State) (p : Nat) : Bool := (s.vr.lcs = 2 || s.vr.lcs = 3) && (s.part p).key.isNone

/-- R352: whether the creation of a key has reached the key store, engine 2, by a cycle of the Vrelell core. -/
def State.keyAhead (s : State) (e t : Nat) : Bool :=
  e = 2 && s.parts.any (fun x => x.2.starting && s.needsKey x.1 && x.2.reached ≤ t)

/-- R352, R358: whether an engine of the Vrelell core serves another before a slot that began to wait for it in a cycle. -/
def State.vrHeld (s : State) (g e t : Nat) : Bool := s.vrBusy e || s.vrAhead g e t || s.keyAhead e t

/-- R358: whether every memory access, reductions included, that a slot issued before a number has been performed. -/
def State.accessesBefore (s : State) (g k id : Nat) : Bool :=
  !s.ops.any (fun o => o.g = g && o.k = k && o.id < id && o.kind.isMemory)

/-- R358: whether an operation of an engine can read its inputs when it starts: at the key store, engine 2, which reads them at
once, after every earlier access of its slot has been performed. -/
def State.inputsReady (s : State) (g k e : Nat) : Bool := e ≠ 2 || s.accessesBefore g k s.nextId

/-- Whether an operation is one of the engines of its core, which csave lets end (R285). -/
def OpKind.isEngine : OpKind → Bool
  | .copy _ _ => true
  | .eng f _ _ _ _ _ => !(f = .prd || f = .pstat)
  | _ => false

/-- R285, R382: whether a core still has an accepted engine operation, or an answer or notice on its way to a slot. -/
def State.enginesBusy (s : State) (g : Nat) : Bool :=
  s.ops.any (fun o => o.g = g && (o.kind.isEngine || (match o.kind with
    | .barAnswer _ _ _ | .barNotice _ _ _ _ | .nodeAnswer | .nodeSoft _ _ _ => true
    | _ => false)))

/-- R264: whether what a blocked slot waits for has come about, so that its instruction can be issued again. A slot that
waits for an answer is released by the event that brings it. -/
def State.blockOver (s : State) (g k : Nat) : Block → Bool
  | .wait l st c t => s.waitMet g k l st c t
  | .portRead d => ((s.slot g k).queue d).length ≠ 0
  | .portWrite d => (s.slot g k).discard || !s.portFull g k d
  | .mail => (s.core g).mailbox.any (fun m => m.slot = k)
  | .ready => (s.slot g k).ready
  | .engines => !s.enginesBusy g
  | .vrEngine e t => !s.vrHeld g e t && s.inputsReady g k e
  | .drops => !s.dropsHeld g k
  | .halting => s.waitMet g k 0 0 0 0
  | .copyEnd id => (s.op? id).isNone
  | .begun => !s.anyBegun g
  | _ => false

/-- The word that the instruction cache or memory holds at a physical address (R15, R267; log 9). -/
def State.wordAt (s : State) (g pa : Nat) : BitVec 32 :=
  if Sparse.has (s.core g).icache pa then Sparse.get 0 (s.core g).icache pa else s.read32 pa

/-- The word that a slot would issue next: the one it holds, or the one at its program counter when the translation is at
hand. -/
def State.peek (s : State) (g k : Nat) : Option (BitVec 32) :=
  let pc := (s.slot g k).pc.toNat
  if (s.slot g k).fetched.isSome then (s.slot g k).fetched
  else if g = vrNum then
    match s.checkVrelell pc 4 .fetch .plain with
    | .ok t => some (s.wordAt g t.pa)
    | .error _ => none
  else if pc < 2 ^ 20 || 2 ^ 49 ≤ pc then none
  else (s.tlbFind g pc).map (fun l => s.wordAt g (l.pa + pc % 2 ^ l.shift))

/-- R238: the physical cell that rdx or wrx reaches, when its index lies in the window; an index read from a port is the
oldest word of its queue. -/
def State.indexCell (s : State) (g k : Nat) (a : Name) (i : BitVec 12) : Option Nat :=
  let x := s.slot g k
  let c : Tagged := if a = 0 then {} else if a.isPort then (x.queue a.toNat).headD {} else s.cell g (s.physCell g k a.toNat)
  let v := c.v + i.signExtend 64
  if a.isPort && (x.queue a.toNat).isEmpty then none
  else if v.toNat < x.wlim.toNat then some ((x.wbase.toNat + v.toNat) % numCells g) else none

/-- The physical cells of a run that a field names. -/
def State.fieldRun (s : State) (g k : Nat) (n : Name) (r : Role) : List Nat :=
  match s.fieldCells n r with
  | some (i, len) => (List.range len).map (fun j => ((s.slot g k).wbase.toNat + i + j) % numCells g)
  | none => []

/-- R27: the physical cells that the next instruction of a slot names; for rdx and wrx with the cell that the index reaches. -/
def State.nextCells (s0 : State) (g k : Nat) : List Nat :=
  let s := { s0 with cur := .slot g k }
  match (s.peek g k).bind decode with
  | some i =>
    let r := i.roles
    s.fieldRun g k r.a r.ra ++ s.fieldRun g k r.b r.rb ++ s.fieldRun g k r.d r.rd ++
      (match i with
      | .rdx _ a c | .wrx c a _ => (s.indexCell g k a c).toList
      | _ => [])
  | none => []

/-- R27: whether a cell of the next instruction awaits the result of a load or an engine. -/
def State.nextAwaits (s : State) (g k : Nat) : Bool :=
  if s.ops.isEmpty then false else (s.nextCells g k).any (s.awaits g)

/-- R27: whether a cell of the next instruction awaits the result of a port read. -/
def State.nextAwaitsPort (s : State) (g k : Nat) : Bool :=
  if (s.core g).slots.all (fun e => e.2.portDst.isNone) then false else (s.nextCells g k).any (s.awaitsPort g)

/-- R269: whether a slot is still set aside by its yield. -/
def State.yielding (s : State) (g k : Nat) : Bool :=
  match (s.slot g k).yieldTo with
  | some t => (s.core g).cyc < t && !(s.slot g k).yieldFor.isEmpty
  | none => false

/-- R27: whether a slot is eligible. -/
def State.eligible (s : State) (g k : Nat) : Bool :=
  let x := s.slot g k
  x.bound
    && (match x.blocked with | none => true | some b => s.blockOver g k b)
    && (match x.lastIssue with | none => true | some t => t + 8 ≤ (s.core g).cyc)
    && !s.yielding g k
    && (match (s.core g).frozen with | none => true | some j => j = k)
    && !s.nextAwaits g k && !s.nextAwaitsPort g k

/-- The eligible slots of a core. -/
def State.eligibles (s : State) (g : Nat) : List Nat :=
  (((s.core g).slots.map (·.1)).filter (fun k => k < numSlots g)).filter (s.eligible g)

/-- R27: the slot that has the turn: the first eligible one after the pointer slot. -/
def State.turnSlot (s : State) (g : Nat) : Option Nat :=
  let es := s.eligibles g
  let n := numSlots g
  ((List.range n).map (fun j => ((s.core g).ptr + 1 + j) % n)).find? (fun k => es.contains k)

end Sys2Proof.Machine
end

