-- ==== Sys2Proof/Machine/Sched.lean ====
section
/-! DEFINITION. Sys2Proof/Machine/Sched.lean: windows and binding, task records, deques, stops, counter nodes, and the
instructions of majors 0x1F, 0x20, 0x23 and those of 0x39 that end a slot (R30 to R52, R266 to R272, R277 to R280, R287,
R288). -/

namespace Sys2Proof.Machine

/-! ### Task records (R33, R34) -/

/-- ENTRY of a record. -/
def TaskRec.entry (r : TaskRec) : Nat := (r.ctl.extractLsb' 0 32).toNat
/-- WCELLS of a record. -/
def TaskRec.wcells (r : TaskRec) : Nat := (r.ctl.extractLsb' 32 8).toNat
/-- Units of the window that a record asks for (R30). -/
def TaskRec.units (r : TaskRec) : Nat := (r.wcells + 7) / 8
/-- Whether a record asks for the high level. -/
def TaskRec.high (r : TaskRec) : Bool := r.ctl.extractLsb' 40 2 = 1
/-- GANG of a record. -/
def TaskRec.isGang (r : TaskRec) : Bool := r.ctl.getLsbD 42
/-- GSCOPE of a record. -/
def TaskRec.gscope (r : TaskRec) : Nat := (r.ctl.extractLsb' 43 3).toNat
/-- RADIUS of a record. -/
def TaskRec.radius (r : TaskRec) : Nat := (r.hint.extractLsb' 16 8).toNat

/-- R34: the checks of a record in their order; va is its address. -/
def TaskRec.check (r : TaskRec) (va : Word) : Except AccErr Unit :=
  if r.image.toNat % 64 ≠ 0 then .error ⟨cALN, r.image, 0⟩
  else if r.node.toNat % 32 ≠ 0 then .error ⟨cALN, r.node, 0⟩
  else if r.wcells % 8 ≠ 0 || r.wcells < 8 || 128 < r.wcells then .error ⟨cILL, va, 0⟩
  else if 2 ≤ (r.ctl.extractLsb' 40 2).toNat then .error ⟨cILL, va, 0⟩
  else if r.isGang && 4 ≤ r.gscope then .error ⟨cILL, va, 0⟩
  else if 63 < (r.hint.extractLsb' 0 8).toNat || 63 < (r.hint.extractLsb' 8 8).toNat then .error ⟨cILL, va, 0⟩
  else if r.ctl.extractLsb' 46 18 ≠ 0 || r.hint.extractLsb' 24 40 ≠ 0 then .error ⟨cILL, va, 0⟩
  else .ok ()

/-- R33: the record at a physical address. -/
def State.recAt (s : State) (pa : Nat) : TaskRec :=
  { image := s.read64 pa, ctl := s.read64 (pa + 8), node := s.read64 (pa + 16), a0 := s.read64 (pa + 24),
    a1 := s.read64 (pa + 32), a2 := s.read64 (pa + 40), a3 := s.read64 (pa + 48), hint := s.read64 (pa + 56) }

/-! ### Windows and binding (R30, R32, R36, R37, R46) -/

/-- R30: the units of a core's register file. -/
def numUnits (g : Nat) : Nat := numCells g / 8

/-- R32, R46: the runs of units that are allocated or reserved on a core: first unit and number. -/
def State.usedUnits (s : State) (g : Nat) : List (Nat × Nat) :=
  ((s.core g).slots.filter (fun e => e.2.bound)).map (fun e => (e.2.allocBase, e.2.allocUnits))
    ++ (s.gangs.filter (fun a => a.st = .reserving && Sparse.has a.held g)).map
      (fun a => (Sparse.get 0 a.held g, a.task.units))

/-- Whether a run of units is free; a window of no units, as that of a thread with a WLIM of 0, takes none. -/
def runFree (used : List (Nat × Nat)) (b n : Nat) : Bool := used.all (fun e => e.2 = 0 || b + n ≤ e.1 || e.1 + e.2 ≤ b)

/-- R30, R40: first fit: the lowest unit at which n free units begin; units freed in this cycle wait for the next. -/
def State.firstFit (s : State) (g n : Nat) : Option Nat :=
  let used := s.usedUnits g ++ (s.core g).freed
  (List.range (numUnits g + 1 - n)).find? (fun b => runFree used b n)

/-- R41: the longest free run of units of a core. -/
def State.longestRun (s : State) (g : Nat) : Nat :=
  let used := s.usedUnits g
  ((List.range (numUnits g)).foldl (fun (e : Nat × Nat) u =>
    let c := if runFree used u 1 then e.1 + 1 else 0
    (c, Nat.max e.2 c)) (0, 0)).2

/-- R46: whether a slot number is kept for a reserving gang on a core. -/
def State.gangReserved (s : State) (g k : Nat) : Bool :=
  s.gangs.any (fun a => a.st = .reserving && a.slot = k && a.cores.contains g)

/-- R39, R43, R51: the lowest vacant slot that a task or a migrating thread may take. -/
def State.freeSlot (s : State) (g : Nat) : Option Nat :=
  (List.range (numSlots g)).find? (fun k => !(s.slot g k).bound && !s.isKeystone g k && !s.gangReserved g k)

/-- Writes a run of cells of a window from physical cell c on. -/
def State.fillWindow (s : State) (g c n : Nat) (xs : List Tagged) : State :=
  s.setCells g c (xs.take n ++ List.replicate (n - xs.length) ({} : Tagged))

/-- R37: binds a task to a slot with a window of units from base on. The member is the gang, the index and the count. The header
of the image is checked at the task's first instruction (R36). -/
def State.bindTask (s : State) (g k : Nat) (r : TaskRec) (base : Nat) (level : Level)
    (member : Option (Nat × Nat × Nat)) : State :=
  let pc : Word := r.image + 64 + BitVec.ofNat 64 (4 * r.entry)
  let x := (s.slot g k).kept
  let s1 := s.setSlot g k { x with
    bound := true, pc := pc, level := level, wbase := BitVec.ofNat 11 (8 * base), wlim := BitVec.ofNat 8 r.wcells,
    allocBase := base, allocUnits := r.units, task := (r.node.extractLsb' 0 49).setWidth 64,
    gang := member.map (fun m => (m.1, m.2.1)), header := some r.image }
  let ix : List Tagged := match member with
    | some m => [{ v := BitVec.ofNat 64 m.2.1 }, { v := BitVec.ofNat 64 m.2.2 }]
    | none => []
  let s2 := s1.fillWindow g (8 * base) r.wcells
    ([({} : Tagged), { v := r.a0 }, { v := r.a1 }, { v := r.a2 }, { v := r.a3 }] ++ ix)
  s2.trace g 1 k pc.toNat 0

/-! ### Deques (R38, R48) -/

/-- A level of a core's deque, oldest task first. -/
def Core.level (c : Core) (high : Bool) : List TaskRec := if high then c.dqHigh else c.dqNorm

/-- The state with a level of a core's deque replaced. -/
def State.setLevel (s : State) (g : Nat) (high : Bool) (q : List TaskRec) : State :=
  if high then s.setCore g { s.core g with dqHigh := q } else s.setCore g { s.core g with dqNorm := q }

/-- A task joins the newest end of its level. -/
def State.pushTask (s : State) (g : Nat) (r : TaskRec) : State :=
  s.setLevel g r.high ((s.core g).level r.high ++ [r])

/-- R38: the places held in a level by spawns that have issued. -/
def State.places (s : State) (g : Nat) (high : Bool) : Nat :=
  (s.ops.filter (fun o => o.g = g && (match o.kind with | .spawn r => r.high = high | _ => false))).length

/-- R38: whether a level has room for one more task. -/
def State.levelRoom (s : State) (g : Nat) (high : Bool) : Bool :=
  ((s.core g).level high).length + s.places g high < 1024

/-- R38, R48: whether a level takes a spawned, hinted or handed-over task: it has room, and no continuation that the unit holds
for the level goes before. -/
def State.levelOpen (s : State) (g : Nat) (high : Bool) : Bool :=
  s.levelRoom g high && (s.core g).conts.all (fun c => c.task.high ≠ high)

/-- R45: the cores of the instance of a scope that holds a core, in member order. -/
def State.gangCores (s : State) (scope owner : Nat) : List Nat :=
  match s.partOf owner with
  | some p => (s.partCores p).filter (fun c => s.covers scope c owner)
  | none => []

/-! ### Stops (R287, R288, R346, R377) -/

/-- R173: a sync that is withdrawn or abandoned takes its count back. -/
def State.unsync (s : State) (g k : Nat) : State :=
  let x := s.slot g k
  let s1 := s.setSlot g k { x with syncs := x.syncs - 1 }
  match x.gang with
  | some (n, i) => { s1 with gangs := s1.gangs.map (fun (a : Gang) =>
      if a.id = n then { a with counts := a.counts.set i (some (x.syncs - 1)) } else a) }
  | none => s1

/-- What becomes of the instruction that a stopped slot is blocked in: nothing has been applied, so nothing is left of it
(R287). A member that is stopped has not exited from its gang, and it issues no more syncs (R173; log 67). -/
def State.abandon (s : State) (g k : Nat) : State :=
  match (s.slot g k).blocked with
  | some (.answer id) | some (.walk id) => s.dropOp id
  | some .sync => s.unsync g k
  | _ => s

/-- R287, R346: a stop ends: the record for a debugger, and the vacancy. -/
def State.stopEnd (s : State) (g k : Nat) (pc : Word) (blocked : Bool) : State :=
  let x := s.slot g k
  (((s.trace g 5 k pc.toNat 0).vacate g k).recordStop g k pc blocked x.inHandler).releaseStops g k

/-- R287: the stop of a bound slot by a pstop: its blocked instruction is abandoned, and the stop ends once its engine
operations have completed. A task kill in progress is let end and then recorded, and a stop in progress goes on (R346). -/
def State.stopSlot (s : State) (g k : Nat) : State :=
  let x := s.slot g k
  match x.blocked with
  | some (.dying _ e) => s.setSlot g k { x with blocked := some (.dying true e) }
  | some (.killNode id _ e) => s.setSlot g k { x with blocked := some (.killNode id true e) }
  | some (.stopping _) => s
  | _ =>
    let was := x.blocked.isSome
    let s1 := s.abandon g k
    let s2 := s1.setSlot g k { s1.slot g k with blocked := some (.stopping was) }
    if s2.busySlot g k true then s2 else s2.stopEnd g k x.pc was

/-- R285: whether a slot stands still because its core is frozen by another of its slots. -/
def State.frozenSlot (s : State) (g k : Nat) : Bool := match (s.core g).frozen with | some j => j ≠ k | none => false

/-- R287, R377: slots of a core whose kill or stop can go on: a kill makes its drops and sends its node operation once its
operations have completed, and ends once that has been applied. A kill on a frozen core stands still (R285). -/
def State.reap (s : State) (g : Nat) : State :=
  ((s.core g).slots.map (·.1)).foldl (fun s k =>
    match (s.slot g k).blocked with
    | some (.dying stopped e) =>
      if s.frozenSlot g k || s.busySlot g k false || s.dropsHeld g k then s else s.killEnd g k stopped e
    | some (.killNode id stopped _) => if s.frozenSlot g k || (s.op? id).isSome then s else s.killDone g k stopped
    | some (.stopping was) => if s.busySlot g k true then s else s.stopEnd g k (s.slot g k).pc was
    | _ => s) s

/-- R287, R288: halt and a pstop of the own slot. -/
def haltSlot : M Ctl := do
  waitFor 0 0 0 0 .halting
  let s ← get
  set (s.stopEnd s.gk.1 s.gk.2 (s.me.pc + 4) false)
  return .stay

/-- R287: pstop. -/
def pstopOp (a : Name) : M Ctl := do
  let c ← ctlOperand a
  if c.extractLsb' 6 58 ≠ 0 then trap cILL c
  let s ← get
  let k := c.toNat
  let g := s.gk.1
  if k = s.gk.2 then haltSlot
  else if !(s.slot g k).bound then return .next
  else
    let s1 := s.stopSlot g k
    if (s1.slot g k).bound then
      set (s1.setMe { s1.me with blocked := some (.stopOf k) })
      return .stay
    else
      set s1
      return .next

/-! ### Fences, waits, yield, publish (R66, R68, R266 to R269, R272) -/

/-- An instruction that waits as a wait would and has no further effect in the model, whose operations are performed one at
a time in one order (R266; log 1, 7). -/
def waitOp (l st c t : Nat) : M Ctl := do
  waitFor l st c t
  return .next

/-- R267: ifence. -/
def ifenceOp : M Ctl := do
  waitFor 15 0 15 15
  modify (fun s => s.setCore s.gk.1 { s.core s.gk.1 with icache := [] })
  return .next

/-- R269: yield: the slot stands back until every other slot that is eligible now has had a turn, or for 64 cycles. -/
def yieldOp : M Ctl := do
  modify (fun s =>
    let g := s.gk.1
    let others := (s.eligibles g).filter (fun k => k ≠ s.gk.2)
    s.setMe { s.me with yieldTo := some ((s.core g).cyc + 64), yieldFor := others })
  return .next

/-- A shadow descriptor (R66). -/
structure ShadowDesc where
  vbase : Nat
  size : Nat
  op : Nat
  entry : Nat
deriving DecidableEq, Repr

/-- R66: the descriptor at a physical address. -/
def State.shadowDesc (s : State) (pa : Nat) : ShadowDesc :=
  { vbase := s.readN pa 4, size := s.readN (pa + 4) 4, op := s.readN (pa + 8) 1, entry := s.readN (pa + 9) 1 }

/-- R66: whether publish raises ILL. -/
def Core.publishBad (c : Core) (d : ShadowDesc) : Bool :=
  let used := Sparse.has c.shadow d.entry
  2 < d.op || 7 < d.entry || (d.op = 0 && used) || (d.op ≠ 0 && !used)
    || d.vbase % 4096 ≠ 0 || d.size % 4096 ≠ 0 || d.size < 4096 || 262144 < d.size
    || 2 ^ 20 < d.vbase + 2 * d.size
    || c.shadow.any (fun e => e.1 ≠ d.entry && d.vbase < e.2.vbase + 2 * e.2.size && e.2.vbase < d.vbase + 2 * d.size)

/-- R66, R68: the entry after the operation, none for a retire, and the CUR that is written back; R66 gives a freed entry no
half in view, and 0 is written (log 71). -/
def Core.published (c : Core) (d : ShadowDesc) : Sparse Shadow × Bool :=
  match d.op with
  | 0 => (Sparse.put c.shadow d.entry { vbase := d.vbase, size := d.size, cur := false }, false)
  | 1 =>
    let e := Sparse.get { vbase := 0, size := 0 } c.shadow d.entry
    (Sparse.put c.shadow d.entry { e with cur := !e.cur }, !e.cur)
  | _ => (Sparse.del c.shadow d.entry, false)

/-- R68, R268: publish. Its access of the descriptor and its flip are events at the owning core; once the descriptor passes its
checks, an engine operation that has begun is let end. -/
def publishOp (a : Name) : M Ctl := do
  let da ← ctlOperand a
  if da.toNat % 32 ≠ 0 then trap cALN da
  if 2 ^ 20 < da.toNat + 32 then trap cILL da
  waitFor 0 0 0 0
  let t ← access da 32 32 .load
  softCheck t.pa 32 da
  let s ← get
  let g := s.gk.1
  let d := s.shadowDesc t.pa
  if (s.core g).publishBad d then trap cILL da
  if s.anyBegun g then halt' (.block .begun)
  let p := (s.core g).published d
  let s1 := s.setCore g { s.core g with shadow := p.1 }
  set (s1.write (some s.gk) (wordWrite (t.pa + 10) 1 (BitVec.ofNat 64 p.2.toNat) false))
  return .next

/-! ### Migration (R50, R51, R270) -/

/-- R50: the core that owns an address. -/
def migTarget (va : Word) : M Nat := fun s =>
  let g := s.gk.1
  if va.toNat < 2 ^ 20 then .ok (g, s)
  else if 2 ^ 49 ≤ va.toNat then .error (.trap cXLT va 0)
  else match s.tlbFind g va.toNat with
    | none => .error (.walk va.toNat .load)
    | some l =>
      let own (h : Nat) : Except Exc (Nat × State) :=
        if (s.partOf g).isSome && s.partOf h = s.partOf g && !s.isMasked h then .ok (h, s) else .error (.trap cMIG va 0)
      match region (l.pa + va.toNat % 2 ^ l.shift) with
      | .chan h _ => own h
      | .scratch h _ => own h
      | _ => .error (.trap cMIG va 0)

/-- R51: the thread of a slot as it leaves. -/
def State.migrantOf (s : State) (g k n target : Nat) : Migrant :=
  let x := s.slot g k
  { target := target, pc := x.pc + 4, level := x.level, pred := x.pred, fctl := x.fctl, prec := x.prec, vctl := x.vctl,
    wlim := x.wlim, cells := (List.range n).map (fun j => s.cell g (s.physCell g k (8 + j))), task := x.task,
    members := s.memberPas g k, gang := x.gang, syncs := x.syncs }

/-- R270: mig. -/
def migOp (i : Instr) (a : Name) (n : BitVec 8) : M Ctl := do
  let va ← ctlOperand a
  let s ← get
  let g := s.gk.1
  let k := s.gk.2
  if g = vrNum then trap cMIG va
  if s.me.inHandler || s.isKeystone g k then trap cMIG va
  if s.me.wlim.toNat < n.toNat then trap cMIG va
  let t ← migTarget va
  waitFor 0 0 0 0
  if t = g then return .next
  else
    let m := s.migrantOf g k n.toNat t
    let s1 := (s.trace g 6 k s.me.pc.toNat 0).addOp g k none 0 (encode i) (.migrant m)
    set (s1.vacate g k)
    return .stay

/-! ### Counter nodes (R47 to R49, R279, R332, R377, R394, R417) -/

/-- R394: an operation on a node of a partition sets its monitors back. -/
def State.progress (s : State) (g : Nat) : State :=
  match s.partOf g with
  | some p => { s with monitor := s.monitor.filter (fun e => !(s.part p).dies.getLsbD e.1) }
  | none => s

/-- The header of a message (R177). -/
def msgHeader (sslot sx sy spkg kind : Nat) : Word :=
  BitVec.ofNat 64 (sslot + sx * 2 ^ 16 + sy * 2 ^ 24 + spkg * 2 ^ 32 + kind * 2 ^ 36 + 2 ^ 63)

/-- R332: a fence record of the partition that a core belongs to. -/
def State.fenceRecord (s : State) (g node : Nat) (err : Bool) : State :=
  match s.partOf g with
  | none => s
  | some p => match s.firstCore p with
    | none => s
    | some f =>
      let hb := chanBase f + hostOff
      let n := s.read64 hb
      let r := hb + 0x40 + 32 * (n.toNat % 64)
      let fl : Word := BitVec.ofNat 64 ((s.part p).approxFence.toNat + 2 * err.toNat)
      let s1 := (((s.write64 r (s.read64 (scrBase f + 0xFF000))).write64 (r + 8) (BitVec.ofNat 64 node)).write64
        (r + 16) fl).write64 (r + 24) n
      (s1.write64 hb (n + 1)).setPart p { s1.part p with approxFence := false }

/-- R48, step 3: the decrement of a parent, by physical address. -/
def State.parentDec (s : State) (srv : Nat) (parent : Option Nat) (err : Bool) : State :=
  match parent with
  | some q => s.addFree srv 0 (.node q 0 (.dec err) false)
  | none => s

/-- R48, step 2: a continuation: a gang request, a place in the deque, or held for want of room; and step 3. -/
def State.continuation (s : State) (srv : Nat) (r : TaskRec) (parent : Option Nat) (err : Bool) : State :=
  if r.isGang then (s.addFree srv 0 (.gangReq r (s.gangCores r.gscope srv))).parentDec srv parent err
  else if s.levelOpen srv r.high then
    (s.pushTask srv r).parentDec srv parent err
  else s.setCore srv { s.core srv with conts := (s.core srv).conts ++ [{ task := r, parent := parent, err := err }] }

/-- R8, R47: the fields of EVENTS; reserved bits are written as 0. -/
def eventsMask : Word := 0x800007FF3F3F3F07

/-- R48, R417: what the serving unit does when a node's COUNT reaches zero. R417 gives no level: the unit reads CONT as a
supervisor's load, and checks PARENT as a supervisor's read and write (log 72). A message whose core is masked or in no
common partition is not sent; R48 is silent on it (log 73). The message's payload is the node's physical address, where R177
says only the node's address (log 85). A PARENT or CONT word with an uncorrectable error is one that cannot be used (log 81). -/
def State.nodeActions (s : State) (srv pa : Nat) : State :=
  let parent := s.read64 (pa + 8)
  let cont := s.read64 (pa + 16)
  let ev := s.read64 (pa + 24)
  let c := { s.ctx srv 0 with level := Level.sup }
  let rec' : Option TaskRec :=
    if cont = 0 || cont.toNat % 64 ≠ 0 || (s.badWord (pa + 16) 8).isSome then none
    else match s.engAccess c cont 64 .load with
      | .ok t =>
        if (s.badWord t.pa 64).isSome then none
        else match (s.recAt t.pa).check cont with
          | .ok _ => some (s.recAt t.pa)
          | .error _ => none
      | .error _ => none
  let par : Option Nat :=
    if parent = 0 || parent.toNat % 32 ≠ 0 || (s.badWord (pa + 8) 8).isSome then none
    else match s.engAccess c parent 32 .atomic .node with
      | .ok t => some t.pa
      | .error _ => none
  let err := ev.getLsbD 63 || (cont ≠ 0 && rec'.isNone) || (parent ≠ 0 && par.isNone)
  let s1 := if err then s.write64 (pa + 24) ((ev ||| (1 <<< 63)) &&& eventsMask) else s
  let tg := 64 * (ev.extractLsb' 24 6).toNat + (ev.extractLsb' 16 6).toNat
  let s2 := if ev.getLsbD 0 && !s.isMasked tg && (s.partOf srv).isSome && s.partOf tg = s.partOf srv then
      s1.addFree srv 0 (.msg tg (ev.extractLsb' 8 6).toNat (BitVec.ofNat 64 pa)
        (msgHeader 0 (coreX srv) (coreY srv) s.pkgId.toNat 1))
    else s1
  let s3 := if ev.getLsbD 2 then s2.fenceRecord srv pa err else s2
  let s4 := if ev.getLsbD 1 then s3.addFree srv 0 (.hostMsg (ev.extractLsb' 32 11).toNat none) else s3
  match rec' with
  | some r => s4.continuation srv r par err
  | none => s4.parentDec srv par err

/-- R61, R279: the first word with an uncorrectable error among those that an operation on a node reads: COUNT but for
cnt.init, which replaces it, and EVENTS (log 81). -/
def State.nodeBad (s : State) (pa : Nat) (op : NodeOp) : Option Nat :=
  match op with
  | .init _ => s.badWord (pa + 24) 8
  | _ => (s.badWord pa 8).orElse (fun _ => s.badWord (pa + 24) 8)

/-- R285: whether what the unit would do next, reading the record that CONT names, waits because the record lies in the
scratch of another core that is frozen. -/
def State.contHeld (s : State) (pa : Nat) (op : NodeOp) : Bool :=
  let srv := ownerOf pa
  let cont := s.read64 (pa + 16)
  let old := s.read64 pa
  let new : Word := match op with
    | .init _ => old
    | .add v => old + v
    | .dec _ => old - 1
  old ≠ 0 && new = 0 && (match s.engAccess { s.ctx srv 0 with level := Level.sup } cont 64 .load with
    | .ok t => s.meshHeld srv t.pa
    | .error _ => false)

/-- R279: one operation on a node, by its serving unit. -/
def State.nodeApply (s0 : State) (pa : Nat) (op : NodeOp) : State :=
  let srv := ownerOf pa
  let s := s0.progress srv
  let old := s.read64 pa
  let ev := s.read64 (pa + 24)
  let change (new : Word) (err : Bool) : State :=
    let s1 := s.write64 pa new
    let s2 := if err || new.msb then s1.write64 (pa + 24) ((ev ||| (1 <<< 63)) &&& eventsMask) else s1
    if old ≠ 0 && new = 0 then s2.nodeActions srv pa else s2
  match op with
  | .init v => (s.write64 pa v).write64 (pa + 24) (ev &&& ~~~((1 : Word) <<< 63) &&& eventsMask)
  | .add v => change (old + v) false
  | .dec err => change (old - 1) err

/-- R279: cnt.init and cnt.add. -/
def cntOp (i : Instr) (a b : Name) (op : Word → NodeOp) : M Ctl := do
  let va ← ctlOperand a
  let y ← ctlOperand b
  let t ← access va 32 32 .atomic .node
  let id ← emitFree i (.node t.pa va (op y) false)
  awaitAnswer id

/-! ### spawn, exit (R277, R278) -/

/-- R44: the core toward which a hint steers: the core named, or the nearest unmasked core of the partition. -/
def State.hintTarget (s : State) (g x y : Nat) : Nat :=
  let t := 64 * y + x
  if s.partOf t = s.partOf g && !s.isMasked t then t
  else match s.partOf g with
    | none => g
    | some p =>
      let key (c : Nat) : Nat := meshDist c t * 4096 + c
      match s.partCores p with
      | [] => g
      | c0 :: cs => cs.foldl (fun b c => if key c < key b then c else b) c0

/-- R277: spawn and spawnh. -/
def spawnOp (i : Instr) (a : Name) (hinted : Bool) : M Ctl := do
  let ra ← ctlOperand a
  let t ← access ra 64 64 .load
  recordReady t.pa 64
  softCheck t.pa 64 ra
  let s ← get
  let r := s.recAt t.pa
  orTrap (r.check ra)
  let g := s.gk.1
  let target := s.hintTarget g (r.hint.extractLsb' 0 8).toNat (r.hint.extractLsb' 8 8).toNat
  if r.isGang then
    let id ← emitFree i (.gangReq r (s.gangCores r.gscope (if hinted then target else g)))
    awaitAnswer id
  else if hinted then
    let id ← emitFree i (.hinted r g target true)
    awaitAnswer id
  else
    if !s.levelOpen g r.high then halt' .forfeit
    let id ← emitFree i (.spawn r)
    awaitAnswer id

/-- R278: exit; its node is checked before its drops (R377), an uncorrectable error there included
(log 81); in a trap handler it is a task kill (R377), and on the Vrelell core it acts as halt (R22). -/
def exitOp (i : Instr) : M Ctl := do
  let s ← get
  let g := s.gk.1
  let k := s.gk.2
  if g = vrNum then haltSlot
  else if s.me.inHandler then
    set ((s.trace g 2 k s.me.pc.toNat 0).kill g k true)
    return .stay
  else
    waitFor 0 0 0 0
    if s.me.task = 0 then
      if s.dropsHeld g k then halt' (.block .drops)
      set (((s.dropAll g k).trace g 2 k s.me.pc.toNat 0).depart g k)
      return .stay
    else
      let t ← access s.me.task 32 32 .atomic .node
      softCheck t.pa 8 s.me.task
      softCheck (t.pa + 24) 8 (s.me.task + 24)
      if s.dropsHeld g k then halt' (.block .drops)
      modify (fun s => s.dropAll g k)
      let id ← emitFree i (.node t.pa s.me.task (.dec false) true)
      awaitAnswer id

/-! ### The instructions and events -/

/-- R266: Waits for loads and stores, then acts as release and acquire fence of a scope. -/
def execFence (sc : BitVec 3) (s : State) : Host.Outcome State Fault Refusal :=
  issue (.fence sc) (waitOp 0 0 15 15) s

/-- R266: Waits for loads, then acts as an acquire fence of a scope. -/
def execAcq (sc : BitVec 3) (s : State) : Host.Outcome State Fault Refusal :=
  issue (.acq sc) (waitOp 0 15 15 15) s

/-- R266: Waits for stores, then acts as a release fence of a scope. -/
def execRel (sc : BitVec 3) (s : State) : Host.Outcome State Fault Refusal :=
  issue (.rel sc) (waitOp 15 0 15 15) s

/-- R267: Waits for stores and discards the core's instruction cache. -/
def execIfence (s : State) : Host.Outcome State Fault Refusal :=
  issue .ifence (ifenceOp) s

/-- R268: Declares, flips or retires a shadow entry from a descriptor after a full wait. -/
def execPublish (a : Name) (s : State) : Host.Outcome State Fault Refusal :=
  issue (.publish a) (publishOp a) s

/-- R269: Makes the slot ineligible until other eligible slots have had a turn or 64 cycles pass. -/
def execYield (s : State) : Host.Outcome State Fault Refusal :=
  issue .yield (yieldOp) s

/-- R270: Moves the thread, with its first n window cells, to the core owning an address. -/
def execMig (a : Name) (n : BitVec 8) (s : State) : Host.Outcome State Fault Refusal :=
  issue (.mig a n) (migOp (.mig a n) a n) s

/-- R277: Reads and checks a task record and adds the task to the local deque or starts a gang. -/
def execSpawn (a : Name) (s : State) : Host.Outcome State Fault Refusal :=
  issue (.spawn a) (spawnOp (.spawn a) a false) s

/-- R277: Reads and checks a task record and sends the task toward its hinted core. -/
def execSpawnh (a : Name) (s : State) : Host.Outcome State Fault Refusal :=
  issue (.spawnh a) (spawnOp (.spawnh a) a true) s

/-- R278: Waits, drops memberships, decrements the task's counter node and vacates the slot. -/
def execExit (s : State) : Host.Outcome State Fault Refusal :=
  issue .exit (exitOp .exit) s

/-- R279: Sets a counter node's count and clears ERR. -/
def execCntInit (a : Name) (b : Name) (s : State) : Host.Outcome State Fault Refusal :=
  issue (.cntInit a b) (cntOp (.cntInit a b) a b .init) s

/-- R279: Adds a signed count to a counter node. -/
def execCntAdd (a : Name) (b : Name) (s : State) : Host.Outcome State Fault Refusal :=
  issue (.cntAdd a b) (cntOp (.cntAdd a b) a b .add) s

/-- R287: Stops a named slot of the core, abandoning its blocked instruction. -/
def execPstop (a : Name) (s : State) : Host.Outcome State Fault Refusal :=
  issue (.pstop a) (pstopOp a) s

/-- R272: Waits until the counters are at or below four limits. -/
def execWait (l st c t : BitVec 4) (s : State) : Host.Outcome State Fault Refusal :=
  issue (.wait l st c t) (waitOp l.toNat st.toNat c.toNat t.toNat) s

end Sys2Proof.Machine
end

