-- ==== Sys2Proof/Machine/Msg.lean ====
section
/-! DEFINITION. Sys2Proof/Machine/Msg.lean: major 0x22 and the arrivals of messages, host notices and port words (R176 to
R179, R275, R334). -/

namespace Sys2Proof.Machine

/-- R176: the fields of smsg's destination cell. -/
structure MsgDest where
  slot : Nat
  x : Nat
  y : Nat
  pkg : Nat
  ep : Nat
  vec : Nat
  /-- Some bit outside the fields is set. -/
  stray : Bool
deriving DecidableEq, Repr

/-- R176: the destination that a cell names. -/
def msgDest (c : Word) : MsgDest :=
  { slot := (c.extractLsb' 0 6).toNat, x := (c.extractLsb' 16 6).toNat, y := (c.extractLsb' 24 6).toNat,
    pkg := (c.extractLsb' 32 4).toNat, ep := (c.extractLsb' 36 2).toNat, vec := (c.extractLsb' 48 11).toNat,
    stray := c &&& ~~~0x07FF003F3F3F003F#64 ≠ 0 }

/-- R176, R22: whether smsg raises MSGF, for a sender on core g. -/
def State.msgBad (s : State) (g : Nat) (d : MsgDest) : Bool :=
  let t := 64 * d.y + d.x
  let zero := d.slot = 0 && d.x = 0 && d.y = 0 && d.pkg = 0
  d.stray || (match d.ep with
    | 0 =>
      d.vec ≠ 0 ||
        (if g = vrNum then d.pkg ≠ s.pkgId.toNat || s.isMasked t || (s.partOf t).isNone
        else if d.pkg = s.pkgId.toNat then s.isMasked t || (s.partOf g).isNone || s.partOf t ≠ s.partOf g
        else !(match s.partOf g with | some p => (s.part p).group.getLsbD d.pkg | none => false))
    | 1 => !zero
    | 2 => !zero || d.vec ≠ 0 || g = vrNum
    | _ => true)

/-- The header of a message that a slot sends (R177, R275; R22 for a Vrelell slot). -/
def State.senderHeader (s : State) (g k : Nat) : Word :=
  if g = vrNum then msgHeader k 0 0 0 2 else msgHeader k (coreX g) (coreY g) s.pkgId.toNat 0

/-- What smsg sends. -/
def State.msgKind (s : State) (g k : Nat) (d : MsgDest) (payload : Word) : OpKind :=
  let h := s.senderHeader g k
  match d.ep with
  | 0 => if d.pkg = s.pkgId.toNat then .msg (64 * d.y + d.x) d.slot payload h
    else .fabricMsg d.pkg (64 * d.y + d.x) d.slot payload h
  | 1 => .hostMsg d.vec (if g = vrNum then none else some (payload, h))
  | _ => .msg vrNum 0 payload h

/-- R275: smsg. -/
def smsgOp (i : Instr) (a b : Name) : M Ctl := do
  let c ← ctlOperand a
  let y ← ctlOperand b
  let s ← get
  let d := msgDest c
  if s.msgBad s.gk.1 d then trap cMSGF c
  let _ ← emit i .stores (s.msgKind s.gk.1 s.gk.2 d y)
  return .next

/-- R177: takes the oldest message held for the executing slot; zeros when there is none. -/
def takeMsg (d : Name) : M Ctl := do
  let s ← get
  let g := s.gk.1
  let k := s.gk.2
  let mine := (s.core g).mailbox.filter (fun m => m.slot = k)
  match mine with
  | [] =>
    set (s.setGroup d [{ v := 0, t := false }, { v := 0, t := false }])
  | m :: rest =>
    let others := (s.core g).mailbox.filter (fun m => m.slot ≠ k)
    let s1 := s.setCore g { s.core g with mailbox := others ++ rest }
    set (s1.setGroup d [{ v := m.payload, t := false }, { v := m.header, t := false }])
  return .next

/-- R177: wmsg blocks until a message is held. -/
def wmsgOp (d : Name) : M Ctl := do
  let s ← get
  if !(s.core s.gk.1).mailbox.any (fun m => m.slot = s.gk.2) then halt' (.block .mail)
  takeMsg d

/-- Mailbox entries of a core (R177, R22). -/
def mailCap (g : Nat) : Nat := if g = vrNum then 64 else 256

/-- R177: mq. -/
def mqOp (d : Name) : M Ctl := do
  let s ← get
  let c := s.core s.gk.1
  let held := (c.mailbox.filter (fun m => m.slot = s.gk.2)).length
  writeName d { v := BitVec.ofNat 64 (held % 2 ^ 9 + (mailCap s.gk.1 - c.mailbox.length) % 2 ^ 9 * 2 ^ 16
                                        + s.me.drop % 2 ^ 16 * 2 ^ 32), t := false }
  return .next

/-- The slot that a message is for: its package, none for this one, its core and its number. -/
def OpKind.mailTo : OpKind → Option (Option Nat × Nat × Nat)
  | .msg tg tk _ _ => some (none, tg, tk)
  | .fabricMsg pkg tg tk _ _ => some (some pkg, tg, tk)
  | _ => none

/-- R177: whether an earlier message of the same sender to the same slot is still on its way. -/
def State.msgBehind (s : State) (o : Op) : Bool :=
  s.ops.any (fun p => p.g = o.g && p.k = o.k && p.id < o.id && p.kind.mailTo.isSome && p.kind.mailTo = o.kind.mailTo)

/-- R177: whether a message waits for room in the mailbox: its slot is bound and every entry is taken. -/
def State.mailFull (s : State) (tg tk : Nat) : Bool := (s.slot tg tk).bound && mailCap tg ≤ (s.core tg).mailbox.length

/-- R177: a message takes an entry of a mailbox, or is discarded for a vacant slot. -/
def State.mailPut (s : State) (tg tk : Nat) (payload header : Word) : State :=
  let x := s.slot tg tk
  if !x.bound then s.setSlot tg tk { x with drop := Nat.min (x.drop + 1) 65535 }
  else s.setCore tg { s.core tg with
    mailbox := (s.core tg).mailbox ++ [{ slot := tk, payload := payload, header := header }] }

/-- R177, R265, R285: whether a message has reached its mailbox: no core is frozen on its way, what R265 puts before it has been
performed, and its sender's earlier ones have arrived. -/
def State.mailHere (s : State) (o : Op) : Bool :=
  !s.heldBack o && !(o.live && !s.performedBefore o.g o.k o.id) && !s.msgBehind o

/-- R177, R416: the messages for bound slots of a core that have reached its mailbox. -/
def State.mailQueue (s : State) (tg : Nat) : List Op :=
  s.ops.filter (fun p => (match p.kind with | .msg ug uk _ _ => ug = tg && (s.slot ug uk).bound | _ => false) && s.mailHere p)

/-- R177: a message takes an entry of a mailbox after those that go before it, or waits while the mailbox is full; one for a
vacant slot is discarded. -/
def State.mailArrive (s : State) (o : Op) (tg tk : Nat) (payload header : Word) : State :=
  if s.mailFull tg tk then
    if o.arr.isSome || (s.mailQueue tg).any (fun p => p.arr.isNone && p.outranks o) then s else s.arrived o
  else if (s.slot tg tk).bound && (s.mailQueue tg).any (·.before o) then s
  else (s.endOp o).mailPut tg tk payload header

/-- The bits of a message header that may be set (R177); VALID is always 1. -/
def headerMask : Word := 0x3F3F3F003F

/-- R22, R334: a message that the host sends to the management endpoint through physical function 0 is held for Vrelell slot 0.
The spec gives its payload to the host and its header no fields but VALID, so the others are free (log 52). -/
def State.hostMail (s : State) (payload : Word) : State :=
  if s.mailFull vrNum 0 then s
  else
    let (n, s1) := s.draw
    s1.mailPut vrNum 0 payload ((Config.freeWord n &&& headerMask) ||| 0x8000000000000000)

/-- R334: a message to the host endpoint, or a host notice. -/
def State.hostDeliver (s : State) (o : Op) (vec : Nat) (entry : Option (Word × Word)) : State :=
  let s1 := s.endOp o
  if o.g = vrNum then
    if Config.msixTableSize 0 ≤ vec || s1.msixMasked.contains (0, vec) then s1 else { s1 with irqs := s1.irqs ++ [(0, vec)] }
  else match s1.partOf o.g with
    | none => s1
    | some p =>
      let s2 := match entry, s1.firstCore p with
        | some e, some f =>
          let hb := chanBase f + hostOff
          let n := s1.read64 (hb + 8)
          let a := hb + 0x1000 + 16 * (n.toNat % 256)
          ((s1.write64 a e.1).write64 (a + 8) e.2).write64 (hb + 8) (n + 1)
        | _, _ => s1
      s2.raiseVector p vec

/-- R178, R179: a word reaches a neighbour slot's queue, or is discarded when that slot is vacant or only reserved. -/
def State.portArrive (s : State) (o : Op) (tg tk dir : Nat) (w : Tagged) : State :=
  let x := s.slot tg tk
  if !x.bound then s.endOp o
  else if 4 ≤ x.portHeld dir then s
  else (s.endOp o).setSlot tg tk (x.setQueue dir (x.queue dir ++ [w]))

/-! ### The instructions and events -/

/-- R275: Sends a 64-bit payload to a core slot, the host or the management endpoint. -/
def execSmsg (a : Name) (b : Name) (s : State) : Host.Outcome State Fault Refusal :=
  issue (.smsg a b) (smsgOp (.smsg a b) a b) s

/-- R275: Takes the oldest message for the slot, or writes zeros. -/
def execRmsg (d : Name) (s : State) : Host.Outcome State Fault Refusal :=
  issue (.rmsg d) (takeMsg d) s

/-- R275: Blocks until a message is held for the slot, then takes it. -/
def execWmsg (d : Name) (s : State) : Host.Outcome State Fault Refusal :=
  issue (.wmsg d) (wmsgOp d) s

/-- R275: Writes the slot's held message count, free entries and drop count. -/
def execMq (d : Name) (s : State) : Host.Outcome State Fault Refusal :=
  issue (.mq d) (mqOp d) s

/-- R177: A message reaches a mailbox and takes an entry, waits in the mesh, or is discarded. The event that names no operation
in flight but Vrelell slot 0 is the arrival of a message that the host sends (R22). -/
def execMailboxArrival (s : State) : Host.Outcome State Fault Refusal :=
  if (s.op? s.ev.id).isNone && s.ev.g = vrNum && s.ev.k = 0 then .next (s.hostMail s.ev.v)
  else s.onOp (fun o =>
    match o.kind with
    | .msg tg tk payload header =>
      if !s.mailHere o then s else s.mailArrive o tg tk payload header
    | .fabricMsg pkg tg tk payload header =>
      if !s.mailHere o then s
      else
        let s1 := s.endOp o
        { s1 with fabricOut := s1.fabricOut ++ [((pkg, tg), { slot := tk, payload := payload, header := header })] }
    | _ => s)

/-- R334: A message to the host endpoint writes its HMSG entry and raises its vector. -/
def execHostMessageDeliver (s : State) : Host.Outcome State Fault Refusal :=
  s.onOp (fun o =>
    match o.kind with
    | .hostMsg vec entry =>
      if s.heldBack o || (o.live && !s.performedBefore o.g o.k o.id) then s else s.hostDeliver o vec entry
    | _ => s)

/-- R179: A port word reaches the neighbour slot's queue or is discarded. -/
def execPortWordArrival (s : State) : Host.Outcome State Fault Refusal :=
  s.onOp (fun o =>
    match o.kind with
    | .portWord tg tk dir w =>
      if s.heldBack o || !s.performedBefore o.g o.k o.id || s.ops.any (fun p => p.id < o.id && (match p.kind with
          | .portWord ug uk e _ => ug = tg && uk = tk && e = dir
          | _ => false)) then s
      else s.portArrive o tg tk dir w
    | _ => s)

end Sys2Proof.Machine
end

