-- ==== Sys2Proof/Machine/Tasks.lean ====
section
/-! DEFINITION. Sys2Proof/Machine/Tasks.lean: the events that place and move tasks: binding, spawning, stealing, hinted
tasks, gangs, migration, counter nodes and continuations (R38 to R51, R271, R277, R279). -/

namespace Sys2Proof.Machine

/-- R271: whether a migrating thread waits for a core. -/
def State.migrantWaits (s : State) (g : Nat) : Bool :=
  s.ops.any (fun o => match o.kind with | .migrant m => m.target = g | _ => false)

/-- Whether a core takes tasks: its partition runs and it is not frozen (R285). -/
def State.takesTasks (s : State) (g : Nat) : Bool :=
  (match s.partOf g with | some p => (s.part p).st = .running | none => false)
    && !s.isMasked g && (s.core g).frozen.isNone

/-- Whether the dispatcher of a core may bind: the core takes tasks and has not bound in this cycle (R39). -/
def State.mayBind (s : State) (g : Nat) : Bool := s.takesTasks g && !(s.core g).boundThisCycle

/-- A core that has bound in this cycle abandons its sweep for tasks to steal; the answer to a request that is out no longer
moves the sweep on (R41). A thief that waits out the 256 cycles after a sweep of refusals waits no longer, on which R41 is
silent (log 82). -/
def State.boundNow (s : State) (g : Nat) : State :=
  let c := s.core g
  s.setCore g { c with boundThisCycle := true, steal := { asked := c.steal.asked, stale := c.steal.asked } }

/-- R39, R43, R51: the slot and the first unit of the window that a core has for a task of some units. -/
def State.berth (s : State) (g units : Nat) : Option (Nat × Nat) :=
  match s.freeSlot g, s.firstFit g units with
  | some k, some b => some (k, b)
  | _, _ => none

/-- R43: where a hinted task would bind at a core of its route, when the core meets the three conditions. -/
def State.hintedRoom (s : State) (o : Op) (r : TaskRec) (pos target : Nat) : Option (Nat × Nat) :=
  if s.partOf pos = s.partOf o.g && meshDist pos target ≤ r.radius && s.takesTasks pos then s.berth pos r.units else none

/-- R265, R271: whether a hinted task that can bind is at a core. -/
def State.hintedReady (s : State) (g : Nat) : Bool :=
  s.ops.any (fun o => match o.kind with
    | .hinted r pos target first =>
      pos = g && !(first && !s.performedBefore o.g o.k o.id) && (s.hintedRoom o r pos target).isSome
    | _ => false)

/-- R271: whether a migrating thread that can bind is at a core. -/
def State.migrantReady (s : State) (g : Nat) : Bool :=
  s.ops.any (fun o => match o.kind with
    | .migrant m => m.target = g && (s.core g).frozen.isNone && (s.berth g ((m.wlim.toNat + 7) / 8)).isSome
    | _ => false)

/-- R39, R271: what the dispatcher of a core can bind now: the newest task of the high level, or of the normal level when the
high level is empty, with its level, slot and first unit. Migrating threads and a hinted task come before it. While a migrating
thread waits whose window does not fit, no task of the deque is bound, though one would fit and a hinted task may bind: R51 puts
the thread before any deque task, and R53 promises the binding of one that fits (log 96). -/
def State.dispatchPick (s : State) (g : Nat) : Option (Bool × TaskRec × Nat × Nat) :=
  let high := !(s.core g).dqHigh.isEmpty
  if !s.mayBind g || s.migrantWaits g || s.hintedReady g then none
  else match ((s.core g).level high).getLast? with
    | some r => (s.berth g r.units).map (fun e => (high, r, e))
    | none => none

/-- R39: the dispatcher binds. -/
def State.dispatch (s : State) (g : Nat) : State :=
  match s.dispatchPick g with
  | some (high, r, k, b) =>
    ((s.setLevel g high ((s.core g).level high).dropLast).bindTask g k r b .user none).boundNow g
  | none => s

/-- R277: the answer to a spawning instruction: the slot goes on. -/
def State.spawned (s : State) (o : Op) : State :=
  let s1 := s.endOp o
  if o.live then s1.release o.g o.k else s1

/-- Inserts by a key. -/
def insertByKey (key : Nat → Nat) (x : Nat) : List Nat → List Nat
  | [] => [x]
  | y :: t => if key x < key y then x :: y :: t else y :: insertByKey key x t

/-- Sorts by a key. -/
def sortByKey (key : Nat → Nat) (l : List Nat) : List Nat := l.foldr (insertByKey key) []

/-- R41: the victims of a thief: its die first, then the rest of its partition, by distance, die and local index. -/
def State.victims (s : State) (g : Nat) : List Nat :=
  match s.partOf g with
  | none => []
  | some p =>
    let key (c : Nat) : Nat :=
      ((if dieOf c = dieOf g then 0 else 1) * 256 + meshDist c g) * 4096 + dieOf c * 256 + localOf c
    sortByKey key ((s.partCores p).filter (fun c => c ≠ g))

/-- R41: a core asks the next victim. -/
def State.stealAsk (s : State) (g : Nat) : State :=
  let c := s.core g
  if !(match s.partOf g with | some p => (s.part p).st = .running | none => false) || s.isMasked g || c.frozen.isSome
      || c.steal.asked || c.steal.retryAt.isSome || !c.dqHigh.isEmpty || !c.dqNorm.isEmpty || (s.freeSlot g).isNone then s
  else match (s.victims g)[c.steal.next]? with
    | some v =>
      (s.addFree g 0 (.stealReq v (s.longestRun g))).setCore g { c with steal := { c.steal with asked := true } }
    | none => s

/-- R42: whether a steal request waits at its victim: the owner's dispatcher acts first, and requests are served by
ascending die and local index of the thief. -/
def State.stealBehind (s : State) (o : Op) (v : Nat) : Bool :=
  let key (g : Nat) : Nat := 256 * dieOf g + localOf g
  (s.dispatchPick v).isSome || s.ops.any (fun p => key p.g < key o.g && (match p.kind with
    | .stealReq w _ => w = v
    | _ => false))

/-- R41, R42: a victim hands over its oldest fitting task, or refuses; a frozen core refuses (R285). The level is looked up when
the request is served, after the dispatcher: R42 does not say which level counts when the dispatcher has just taken the last task
of the high one, and the model then hands over one of the normal level (log 91). -/
def State.stealServe (s : State) (o : Op) (v run : Nat) : State :=
  let c := s.core v
  let high := !c.dqHigh.isEmpty
  if s.stealBehind o v then s
  else match c.level high with
  | r :: rest =>
    if c.frozen.isSome || run < r.units then s.setKind o.id (.stealAns none high)
    else (s.setLevel v high rest).setKind o.id (.stealAns (some r) high)
  | [] => s.setKind o.id (.stealAns none high)

/-- R41: the thief takes a hand-over into its deque, or moves on after a refusal; the answer to a request of an abandoned
sweep moves nothing on. A hand-over to a level that has filled meanwhile stays in flight until the level has room: R41 does
not say what becomes of it (log 76). So does one to a core that is frozen (R285). -/
def State.stealTake (s : State) (o : Op) (task : Option TaskRec) : State :=
  let g := o.g
  match task with
  | some r =>
    if !s.levelOpen g r.high || (s.core g).frozen.isSome then s
    else
      let s1 := (s.endOp o).pushTask g r
      s1.setCore g { s1.core g with steal := {} }
  | none =>
    let s1 := s.endOp o
    let c := s1.core g
    let n := c.steal.next + 1
    let t : Steal := if c.steal.stale then {}
      else if (s1.victims g).length ≤ n then { next := 0, asked := false, retryAt := some (c.cyc + 256) }
      else { next := n, asked := false, retryAt := none }
    s1.setCore g { c with steal := t }

/-- R13: the next core of the route. -/
def nextHop (g t : Nat) : Nat :=
  if coreX g < coreX t then g + 1
  else if coreX t < coreX g then g - 1
  else if coreY g < coreY t then g + 64
  else g - 64

/-- R43, R271: a hinted task at a core of its route: it binds, in place of the dispatcher's binding of a cycle and after a
migrating thread that can bind, passes on, or joins the target's deque. One that waits at its target for room in a full level
binds there directly when a slot and a window fall free first: R277 says only that it waits until the level has room (log 92). -/
def State.hintedHop (s : State) (o : Op) (r : TaskRec) (pos target : Nat) (first : Bool) : State :=
  let freed (s : State) : State := if first && o.live then s.release o.g o.k else s
  match s.hintedRoom o r pos target with
  | some (k, b) =>
    if (s.core pos).boundThisCycle || s.migrantReady pos then s
    else ((freed (s.endOp o)).bindTask pos k r b .user none).boundNow pos
  | none =>
    if pos ≠ target then freed (s.setKind o.id (.hinted r (nextHop pos target) target false))
    else if (s.core target).frozen.isNone && s.levelOpen target r.high then (freed (s.endOp o)).pushTask target r
    else if first then freed (s.setKind o.id (.hinted r pos target false))
    else s

/-- R46, step 1: whether a gang request reaches the pkg node of its partition now: the accesses before its spawn have been performed
(R265), and its core is not frozen (R285). -/
def State.gangArrives (s : State) (o : Op) : Bool :=
  !s.frozenOut o && (!o.live || s.performedBefore o.g o.k o.id) && (match o.kind with | .gangReq _ _ => true | _ => false)

/-- R46, step 1, R416: whether another gang request of the partition, which arrives with it, goes before. -/
def State.gangBehind (s : State) (o : Op) : Bool :=
  s.ops.any (fun p => s.partOf p.g = s.partOf o.g && s.gangArrives p && p.outranks o)

/-- R46, step 1: a gang request reaches the pkg node of its partition, in order of arrival. -/
def State.gangAdmitted (s : State) (o : Op) (r : TaskRec) (cores : List Nat) : State :=
  match s.partOf o.g with
  | none => s
  | some p =>
    let s1 := s.spawned o
    { s1 with gangs := s1.gangs ++ [{ id := o.id, task := r, cores := cores, part := p }] }

/-- Whether two gangs share a core. -/
def Gang.meets (a b : Gang) : Bool := b.cores.any a.cores.contains

/-- R46, step 2: whether a gang that is reserving shares a core with another. -/
def State.gangBlocked (s : State) (a : Gang) : Bool := s.gangs.any (fun b => b.id ≠ a.id && b.st = .reserving && a.meets b)

/-- R46, step 2: whether a gang admitted earlier, which nothing blocks, becomes reserving before another that shares a core with
it (log 102); State.gangs lists the gangs in the order of their admission. -/
def State.gangAhead (s : State) (a : Gang) : Bool :=
  (s.gangs.takeWhile (fun b => b.id ≠ a.id)).any (fun b => b.st = .admitted && a.meets b && !s.gangBlocked b)

/-- R46, steps 2 and 3: a gang becomes reserving and picks its slot number. -/
def State.gangStart (s : State) (n : Nat) : State :=
  match s.gangs.find? (fun a => a.id = n) with
  | none => s
  | some a =>
    if a.st ≠ .admitted || s.gangBlocked a || s.gangAhead a then s
    else
      let top := (a.cores.any (fun c => s.isKeystone c 63))
      let ks := List.range (if top then 63 else 64)
      let k := (ks.find? (fun k => a.cores.all (fun c => !(s.slot c k).bound))).getD 0
      { s with gangs := s.gangs.map (fun b => if b.id = n then { b with st := .reserving, slot := k } else b) }

/-- R46, step 4: a member core reserves the slot and a window. -/
def State.gangHold (s : State) (n g : Nat) : State :=
  match s.gangs.find? (fun a => a.id = n) with
  | none => s
  | some a =>
    if a.st ≠ .reserving || !a.cores.contains g || Sparse.has a.held g || (s.slot g a.slot).bound
        || (s.core g).frozen.isSome then s
    else match s.firstFit g a.task.units with
      | some b =>
        { s with gangs := s.gangs.map (fun c => if c.id = n then { c with held := Sparse.put c.held g b } else c) }
      | none => s

/-- R46, step 5: all members bind at once, none of them on a frozen core (R285). -/
def State.gangBindAll (s : State) (n : Nat) : State :=
  match s.gangs.find? (fun a => a.id = n) with
  | none => s
  | some a =>
    if a.st ≠ .reserving || a.cores.isEmpty || !a.cores.all (Sparse.has a.held)
        || a.cores.any (fun c => (s.core c).frozen.isSome) then s
    else
      let count := a.cores.length
      let s1 : State := { s with gangs := s.gangs.map (fun b =>
        if b.id = n then { b with st := .bound, counts := List.replicate count (some 0) } else b) }
      ((List.range count).zip a.cores).foldl (fun s e =>
        s.bindTask e.2 a.slot a.task (Sparse.get 0 a.held e.2) .user (some (n, e.1, count))) s1

/-- The threads that migrate to a core. -/
def State.migrants (s : State) (g : Nat) : List Op :=
  s.ops.filter (fun p => match p.kind with | .migrant q => q.target = g | _ => false)

/-- R271: a migrating thread that cannot bind takes its place in the order of arrival at its core, after those of the same cycle
with a lower (core, slot) of origin. -/
def State.migrantWait (s : State) (o : Op) (g : Nat) : State :=
  if o.arr.isSome || (s.migrants g).any (fun p => p.arr.isNone && p.outranks o) then s else s.arrived o

/-- R51, R271: a migrating thread binds at its target, in the order of arrival and, of those that arrive in one cycle (log 69),
by ascending (core, slot) of origin. Its window has SIZE div 8 units, rounded up: mts allows a SIZE that is no multiple of 8, and
R51 does not say what window it then takes (log 74). -/
def State.migrantBind (s : State) (o : Op) (m : Migrant) : State :=
  let g := m.target
  if (s.core g).frozen.isSome || (s.migrants g).any (·.before o) then s.migrantWait o g
  else match s.berth g ((m.wlim.toNat + 7) / 8) with
    | some (k, b) =>
      let s1 := s.endOp o
      let x := (s1.slot g k).kept
      let s2 := s1.setSlot g k { x with
        bound := true, pc := m.pc, level := m.level, wbase := BitVec.ofNat 11 (8 * b), wlim := m.wlim, allocBase := b,
        allocUnits := (m.wlim.toNat + 7) / 8, pred := m.pred, prec := m.prec, vctl := m.vctl, fctl := m.fctl,
        task := m.task, moved := m.members, gang := m.gang, syncs := m.syncs }
      (s2.fillWindow g (8 * b) m.wlim.toNat m.cells).trace g 7 k m.pc.toNat 0
    | none => s.migrantWait o g

/-- R279: what becomes of a node operation that has been applied, or that met an uncorrectable error in the word at bad: the
exit ends, or the answer leaves; an operation that no slot waits for is over. -/
def State.nodeDone (s : State) (o : Op) (pa : Nat) (va : Word) (ofExit : Bool) (bad : Option Nat) : State :=
  if !o.live then s.endOp o
  else match bad with
  | some a => s.setKind o.id (.nodeSoft (softCause a).1 (softCause a).2 (va + BitVec.ofNat 64 (a - pa)))
  | none =>
    if ofExit then ((s.endOp o).trace o.g 2 o.k (s.slot o.g o.k).pc.toNat 0).depart o.g o.k
    else s.setKind o.id .nodeAnswer

/-- R47, R48, R279: a node operation reaches its serving unit, which applies it after those that go before it. While the unit
holds 16 continuations, the operation waits there in the order of arrival. One that meets an uncorrectable error changes
nothing (R61; log 81). -/
def State.nodeServe (s : State) (o : Op) (pa : Nat) (va : Word) (op : NodeOp) (ofExit : Bool) : State :=
  let u := ownerOf pa
  if (s.atUnit o).isNone then s
  else if s.unitFull u then
    if o.arr.isSome || s.ops.any (fun p => s.atUnit p = some u && p.kind.isNode && p.arr.isNone && p.outranks o) then s
    else s.arrived o
  else if s.unitBehind o then s
  else match s.nodeBad pa op with
  | some a => s.nodeDone o pa va ofExit (some a)
  | none => if s.contHeld pa op then s else (s.nodeApply pa op).nodeDone o pa va ofExit none

/-- R48: a held continuation is placed once its level has room, and the parent is then decremented; not on a frozen core (R285). -/
def State.placeHeld (s : State) (g : Nat) : State :=
  match if (s.core g).frozen.isSome then none else (s.core g).conts.find? (fun c => s.levelRoom g c.task.high) with
  | none => s
  | some c =>
    let s1 := s.setCore g { s.core g with conts := (s.core g).conts.erase c }
    (s1.pushTask g c.task).parentDec g c.parent c.err

/-! ### The instructions and events -/

/-- R39: The dispatcher binds the newest task of a deque level to the lowest vacant slot with a window. -/
def execTaskBind (s : State) : Host.Outcome State Fault Refusal :=
  .next (s.dispatch s.ev.g)

/-- R277: A spawned task is placed at the newest end of its deque level once R265 allows. It holds its place since its issue
(R38), and joins the level also while the unit holds a continuation for it that came later: R48 puts such a continuation before
spawned tasks and does not speak of one that has its place already (log 93). -/
def execSpawnEnqueue (s : State) : Host.Outcome State Fault Refusal :=
  s.onOp (fun o =>
    match o.kind with
    | .spawn r => if s.heldBack o || !s.performedBefore o.g o.k o.id then s else (s.spawned o).pushTask o.g r
    | _ => s)

/-- R41: A core with a vacant slot and empty deque asks the next victim for a task. -/
def execStealRequest (s : State) : Host.Outcome State Fault Refusal :=
  .next (s.stealAsk s.ev.g)

/-- R42: A victim hands over its oldest fitting task or refuses a steal request. -/
def execStealServe (s : State) : Host.Outcome State Fault Refusal :=
  s.onOp (fun o =>
    match o.kind with
    | .stealReq v run => s.stealServe o v run
    | _ => s)

/-- R41: The thief receives a hand-over and binds the task, or a refusal and moves on. -/
def execStealReply (s : State) : Host.Outcome State Fault Refusal :=
  s.onOp (fun o =>
    match o.kind with
    | .stealAns task _ => s.stealTake o task
    | _ => s)

/-- R41: 256 cycles after the last refusal the thief begins a new sweep. -/
def execStealRetryTimeout (s : State) : Host.Outcome State Fault Refusal :=
  .next (
    let c := s.core s.ev.g
    match c.steal.retryAt with
    | some t => if t ≤ c.cyc then s.setCore s.ev.g { c with steal := {} } else s
    | none => s)

/-- R43: A hinted task reaches a core on its route and binds there, passes on, or joins the target's deque. -/
def execHintedTaskHop (s : State) : Host.Outcome State Fault Refusal :=
  s.onOp (fun o =>
    match o.kind with
    | .hinted r pos target first =>
      if first && !s.performedBefore o.g o.k o.id then s else s.hintedHop o r pos target first
    | _ => s)

/-- R46: A gang request reaches the partition's pkg barrier node and is admitted in arrival order. -/
def execGangAdmit (s : State) : Host.Outcome State Fault Refusal :=
  s.onOp (fun o =>
    match o.kind with
    | .gangReq r cores =>
      if !s.gangArrives o || s.gangBehind o then s else s.gangAdmitted o r cores
    | _ => s)

/-- R46: A gang with no overlapping earlier reserving gang becomes reserving and picks slot s. -/
def execGangReserve (s : State) : Host.Outcome State Fault Refusal :=
  .next (s.gangStart s.ev.id)

/-- R46: A member core reserves slot s and a window once both are free. -/
def execGangCoreReserve (s : State) : Host.Outcome State Fault Refusal :=
  .next (s.gangHold s.ev.id s.ev.g)

/-- R46: When every member core holds its reservation, all members bind in slot s. -/
def execGangBind (s : State) : Host.Outcome State Fault Refusal :=
  .next (s.gangBindAll s.ev.id)

/-- R51: A migrating thread binds at the target core once a slot and window are free. -/
def execMigArrival (s : State) : Host.Outcome State Fault Refusal :=
  s.onOp (fun o =>
    match o.kind with
    | .migrant m => s.migrantBind o m
    | _ => s)

/-- R279: The serving unit applies an exit decrement, cnt.init or cnt.add to a counter node. -/
def execCounterNodeOperation (s : State) : Host.Outcome State Fault Refusal :=
  s.onOp (fun o =>
    match o.kind with
    | .node pa va op ofExit => s.nodeServe o pa va op ofExit
    | _ => s)

/-- R48: A held continuation is placed in the deque when its level has room, then the parent is decremented. -/
def execContinuationPlace (s : State) : Host.Outcome State Fault Refusal :=
  .next (s.placeHeld s.ev.g)

end Sys2Proof.Machine
end

