-- ==== Sys2Proof/Machine/Reset.lean ====
section
/-! DEFINITION. Sys2Proof/Machine/Reset.lean: how a partition halts, is reset and starts (R52, R327, R328, R335, R352, R391,
R394, R395, R418). -/

namespace Sys2Proof.Machine

/-- Whether a core lies in a partition. -/
def State.inPart (s : State) (p g : Nat) : Bool := s.partOf g = some p

/-- PARTSTAT of a partition as the host reads it (R328); in a scrapped part STATE is 3 (R350). -/
def State.partstat (s : State) (p : Nat) : Word :=
  let x := s.part p
  let st : BitVec 3 := match (if s.vr.lcs = 4 then .halted else x.st) with
    | .reset => 0
    | .running => 1
    | .startFailed => 2
    | .halted => 3
  x.resets ++ x.ndrop ++ x.kcheck ++ x.cause ++ st ++ BitVec.ofBool x.approx

/-- PARTCTL of a partition as the host reads it (R328). -/
def State.partctl (s : State) (p : Nat) : Word := BitVec.ofNat 64 (2 * (s.part p).nvf.toNat)

/-- The core whose scratch or channel a physical address lies in, if any. -/
def homeOf (pa : Nat) : Option Nat :=
  match region pa with
  | .scratch g _ => some g
  | .chan g _ => some g
  | _ => none

/-- Whether an address lies in scratch of a partition. -/
def State.scratchOfPart (s : State) (p pa : Nat) : Bool :=
  match region pa with
  | .scratch g _ => s.inPart p g
  | _ => false

/-- What has been written by a partition's cores and mason units but has not reached memory reaches it: the trace records of
the cycle (R345) and the stores of the overlays (R160). -/
def State.settlePart (s : State) (p : Nat) : State :=
  let s1 := s.cores.foldl (fun t e => if s.inPart p e.1 && !e.2.recs.isEmpty then t.flushRecs e.1 else t) s
  s.masons.foldl (fun t e => if s.inPart p e.1 && !e.2.buf.isEmpty then t.flushBuf e.1 else t) s1

/-- A core of a partition that halts: nothing is bound, on its way or observed; dumps, samples and traces end, so that the
observation area keeps its contents (R395). -/
def Core.halted (c : Core) : Core :=
  { c with slots := c.slots.map (fun x => (x.1, x.2.kept)), mailbox := [], steal := {}, frozen := none, conts := [],
           dump := none, sampleDue := none, freezeNext := false, freed := [], smpl := c.smpl &&& ~~~0x11 }

/-- R395: a partition halts, in one step: its slots are vacated without drops or decrements, and its operations, mesh
requests, gangs and mason runs are discarded (R391); CAUSE is written, RESETS rises, and vector 0 is raised. -/
def State.haltPart (s0 : State) (p : Nat) (cause : BitVec 4) : State :=
  let s := s0.settlePart p
  let cores := s.cores.map (fun e => if s.inPart p e.1 then (e.1, e.2.halted) else e)
  let masons := s.masons.map (fun e =>
    if s.inPart p e.1 then (e.1, { e.2 with run := none, queue := [], held := [], cycles := 0 }) else e)
  let tags := s.tags.map (fun e => if s.scratchOfPart p (8 * e.1) then (e.1, e.2 &&& 5) else e)
  let s1 : State := { s with
    cores := cores, masons := masons, tags := tags, ops := s.ops.filter (fun o => !s.inPart p o.g),
    gangs := s.gangs.filter (fun a => a.part ≠ p) }
  let x := s1.part p
  (s1.setPart p { x with st := .halted, cause := cause, resets := x.resets + 1, starting := false }).raiseVector p 0

/-- R330, R340: whether an address lies in a partition's host block or in the observation area of one of its cores. -/
def State.recordArea (s : State) (p pa : Nat) : Bool :=
  match region pa with
  | .chan g off =>
    s.inPart p g && ((obsOff ≤ off && off < saveOff)
      || (s.firstCore p = some g && hostOff ≤ off && off < hostOff + 0x2000))
  | _ => false

/-- R395: what a reset step clears: scratch with its tags, host block, observation areas, and everything that the cores
and mason units of the partition hold; register file cells are not named and stay. -/
def State.clearPart (s : State) (p : Nat) : State :=
  let scr (a : Nat) : Bool := s.scratchOfPart p a
  let s1 : State := { s with
    mem := s.mem.filter (fun e => !scr e.1 && !s.recordArea p e.1)
    tags := s.tags.filter (fun e => !scr (8 * e.1))
    bad := s.bad.filter (fun w => !scr (8 * w) && !s.recordArea p (8 * w))
    cores := s.cores.map (fun e => if s.inPart p e.1 then (e.1, { rf := e.2.rf }) else e)
    masons := s.masons.filter (fun e => !s.inPart p e.1)
    seals := s.seals.filter (fun e => e.part ≠ p)
    monitor := s.monitor.filter (fun e => !(s.part p).dies.getLsbD e.1) }
  s1.setPart p { s1.part p with kcheck := 0 }

/-- R418: the boot root becomes PTROOT and ASID of every core of the partition. A boot-root word with an uncorrectable error, of
which R335 and R418 say nothing, gives the bytes that it holds (log 87). -/
def State.loadBootRoot (s : State) (p f : Nat) : State :=
  let root := s.read64 (chanBase f + 0x40) &&& 0x0000FFFFFFF80001
  let asid := s.read64 (chanBase f + 0x48) &&& 0xFFFF
  (s.partCores p).foldl (fun s g => s.setCore g { s.core g with ptroot := root, asid := asid }) s

/-- R52, R335, R418: a partition starts: the boot root, then the keystone record, then the keystone thread in slot 63 of
the first core. GANG of the record is checked under R34 and otherwise ignored: no rule says whether a keystone record with GANG = 1
forms a gang, and the model binds the one thread, with x13 and x14 0 (log 99). -/
def State.startPart (s : State) (p : Nat) : State :=
  match s.firstCore p with
  | none => s
  | some f =>
    let s1 := s.loadBootRoot p f
    let fail (k : BitVec 8) : State :=
      s1.setPart p { s1.part p with st := .startFailed, kcheck := k, starting := false }
    if (s1.badWord (chanBase f) 64).isSome then fail 1
    else
      let r := s1.recAt (chanBase f)
      match r.check 0 with
      | .error _ => fail 2
      | .ok _ =>
        let s2 := s1.setPart p { s1.part p with st := .running, kcheck := 0, starting := false }
        s2.bindTask f 63 r ((s2.firstFit f r.units).getD 0) .sup none

/-- R353: whether a wipe that has not ended holds a partition. -/
def State.wiping (s : State) (p : Nat) : Bool :=
  s.ops.any (fun o => match o.kind with
    | .wipe mask _ => mask / 2 ^ p % 2 = 1
    | _ => false)

/-- R335, R350, R352, R353: a partition whose reset step has ended starts, unless a wipe holds it, the key store has still
to create its key or refuses to, or the part is scrapped. -/
def State.leaveReset (s : State) (p : Nat) : State :=
  let x := if (s.part p).starting then s.part p else { s.part p with reached := (s.core vrNum).cyc }
  if s.vr.lcs = 4 then s.setPart p { x with st := .halted, starting := false }
  else if s.wiping p then s.setPart p { x with st := .halted, starting := true }
  else if s.needsKey p then
    if s.vr.dbgOpen then s.setPart p { x with st := .halted, starting := false }
    else s.setPart p { x with st := .reset, starting := true }
  else s.startPart p

/-- R395: a write of 1 to PARTCTL.RESET of a partition. -/
def State.resetPart (s : State) (p : Nat) : State :=
  let x := s.part p
  let s1 := match x.st with
    | .running => s.haltPart p 1
    | .halted => s
    | _ => s.setPart p { x with cause := 1, resets := x.resets + 1, starting := false }
  (s1.clearPart p).leaveReset p

/-- R352: the key store creates the key that a partition waits for, or refuses while the debug port is open; an open check or a
KWIPE that reached the key store before goes first. -/
def State.createKey (s : State) (p : Nat) : State :=
  let x := s.part p
  if !x.starting || s.vrBusy 2 || !s.needsKey p || s.vrAhead vrNum 2 x.reached then s
  else if s.vr.dbgOpen then s.setPart p { x with st := .halted, starting := false }
  else
    let (n, s1) := s.draw
    let s2 := s1.setPart p { x with key := some (Config.freeKey n) }
    ({ s2 with vr := { s2.vr with swept := false, extd := false } } : State).startPart p

/-- R353: partitions that a wipe held, and that need no key, start when it ends. -/
def State.releaseHold (s : State) : State :=
  (List.range 16).foldl (fun s p => if (s.part p).starting && !s.wiping p && (s.part p).st = .halted then s.leaveReset p
    else s) s

/-- R394: whether a partition's progress monitors count. -/
def State.monitorRuns (s : State) (p : Nat) : Bool :=
  (s.part p).st = .running &&
    (s.cores.any (fun e => s.inPart p e.1 && (!e.2.dqHigh.isEmpty || !e.2.dqNorm.isEmpty
        || e.2.slots.any (fun x => x.2.bound && !s.isKeystone e.1 x.1)))
      || s.masons.any (fun e => s.inPart p e.1 && e.2.run.isSome))

/-! ### The instructions and events -/

/-- R352: The key store creates a tenant key for a partition leaving reset, or refuses while debug is open. -/
def execTenantKeyCreate (s : State) : Host.Outcome State Fault Refusal :=
  .next (s.createKey s.ev.p)

/-- R392: An uncorrectable error in core state halts the partition with CAUSE 2. -/
def execUnrecoverableError (s : State) : Host.Outcome State Fault Refusal :=
  .next (if (s.part s.ev.p).st = .running then s.haltPart s.ev.p 2 else s)

/-- R394: A die's progress monitor reaches 2^36 cycles and the partition halts with CAUSE 3. -/
def execHangTimeout (s : State) : Host.Outcome State Fault Refusal :=
  let x := s.part s.ev.p
  .next (if x.st = .running && s.monitor.any (fun e => x.dies.getLsbD e.1 && 2 ^ 36 ≤ e.2) then s.haltPart s.ev.p 3 else s)

end Sys2Proof.Machine
end

