-- ==== Sys2Proof/Machine/Security.lean ====
section
/-! DEFINITION. Sys2Proof/Machine/Security.lean: the registers and engines of the Vrelell core: lifecycle and fuses, the key
store and its seals, measurements, the signature and hash engines, and the debug port (R349 to R364). -/

namespace Sys2Proof.Machine

/-- R21: bytes of Vrelell scratch. -/
def vrSize : Nat := 2 ^ 18

/-- The physical address of a Vrelell scratch offset. -/
def vrPa (off : Nat) : Nat := 2 ^ 48 + off

/-- ADDR of a register (R354 to R357). -/
def addrOf (v : Word) : Nat := (v.extractLsb' 0 18).toNat

/-- Bytes written to Vrelell scratch by an engine. -/
def State.vrWrite (s : State) (off : Nat) (bs : List Byte) : State :=
  ((List.range bs.length).zip bs).foldl (fun s e => s.write8 (vrPa (off + e.1)) e.2) s

/-- R352, R358: a mts that starts an operation blocks while its engine is busy, while a slot, or at the key store a creation,
that came earlier is served, or while the inputs that the key store reads at once are not ready; it keeps its place among the
slots that wait for the engine. -/
def engineFree (e : Nat) : M Unit := fun s =>
  let t := s.me.since.getD (s.core s.gk.1).cyc
  if s.vrHeld s.gk.1 e t || !s.inputsReady s.gk.1 s.gk.2 e then .error (.block (.vrEngine e t)) else .ok ((), s)

/-- R363: the nonce is renewed; UNLOCK and EXTD are cleared. -/
def State.renewNonce (s : State) : State :=
  let (n, s1) := s.draw
  { s1 with vr := { s1.vr with nonce := Config.freeNonce n, sigres := s1.vr.sigres &&& 0xEF, extd := false } }

/-- The Vrelell registers written. -/
def setVr (f : Vrelell → Vrelell) : M Unit := modify (fun s => { s with vr := f s.vr })

/-- ILL with the word in TVAL. -/
def illWord {α : Type} (i : Instr) : M α := trap cILL ((encode i).setWidth 64)

/-! ### Lifecycle and fuses (R350, R351) -/

/-- A fuse word. -/
def State.fuse (s : State) (n : Nat) : Word := Sparse.get 0 s.vr.fuses n

/-- Fuse words as bytes, little-endian. -/
def State.fuseBytes (s : State) (first count : Nat) : List Byte :=
  (List.range count).flatMap (fun j => leBytes (s.fuse (first + j)))

/-- R351: what FUSED reads. -/
def State.fusedValue (s : State) : Word :=
  let n := s.vr.fusea.toNat
  if 24 ≤ n && n ≤ 31 then 0 else s.fuse n

/-- R350: in a scrapped part every partition stays in STATE 3 and no partition holds a key. A partition that runs then halts as
by a wipe, with CAUSE 4, which the spec does not give (log 78). -/
def State.scrapPart (s : State) (p : Nat) : State :=
  let s1 := if (s.part p).st = .running then s.haltPart p 4 else s
  s1.setPart p { s1.part p with st := .halted, starting := false, key := none }

/-- R350: every partition of a part that is being scrapped. -/
def State.scrapParts (s : State) : State := s.parts.foldl (fun t e => t.scrapPart e.1) s

/-- R350: a write of LCS advances the state by one, by a fuse among words 1 to 7 that the spec does not name (log 17), and
renews the nonce; the slot waits until the fuse is programmed. -/
def lcsWrite (i : Instr) (v : Word) : M Ctl := do
  let s ← get
  if v ≠ s.vr.lcs.setWidth 64 + 1 || s.vr.lcs = 4 || (v = 3 && !s.vr.dbgOpen) then illWord i
  engineFree 4
  let (n, s1) := s.draw
  let w := 1 + (Config.freeWord n).toNat % 7
  let (m, s2) := s1.draw
  let s3 := { s2 with vr := { s2.vr with lcs := s2.vr.lcs + 1,
                                         fuses := Sparse.put s2.vr.fuses w (s2.fuse w ||| Config.freeWord m) } }
  set (if s3.vr.lcs = 4 then s3.scrapParts else s3).renewNonce
  let id ← emitFree i .fuse
  awaitAnswer id

/-- R351: a write of FUSED ORs bits into the selected word in RAW and MANUF, and is ignored in every other state. -/
def fusedWrite (i : Instr) (v : Word) : M Ctl := do
  let s ← get
  if s.vr.lcs = 0 || s.vr.lcs = 1 then
    engineFree 4
    let n := s.vr.fusea.toNat
    set { s with vr := { s.vr with fuses := Sparse.put s.vr.fuses n (s.fuse n ||| v) } }
    let id ← emitFree i .fuse
    awaitAnswer id
  else return .next

/-! ### The key store (R352, R353, R359, R360) -/

/-- R352: KSTAT. -/
def State.kstat (s : State) : Word :=
  BitVec.ofNat 64 ((List.range 16).foldl (fun a p => if (s.part p).key.isSome then a + 2 ^ p else a) 0
    + (s.vrBusy 2).toNat * 2 ^ 16 + s.vr.swept.toNat * 2 ^ 17 + s.vr.extd.toNat * 2 ^ 18 + s.vr.kerr.toNat * 2 ^ 19)

/-- R352: the fields of a value written to KWIPE: ILL when OP is 3 or a reserved bit is set. -/
def kwipeCheck (i : Instr) (v : Word) : M Unit :=
  if v.extractLsb' 17 2 = 3 || v.getLsbD 19 || v.extractLsb' 46 18 ≠ 0 then illWord i else pure ()

/-- R353: every byte of the channels of a partition becomes zero. -/
def State.scrubPart (s : State) (p : Nat) : State :=
  let mine (pa : Nat) : Bool := match region pa with
    | .chan g _ => s.inPart p g
    | _ => false
  { s with mem := s.mem.filter (fun e => !mine e.1), bad := s.bad.filter (fun w => !mine (8 * w)),
           saves := s.saves.filter (fun e => !s.inPart p e.1) }

/-- R353: a wipe acts on one partition: it halts with CAUSE 4, its key is erased, its streams are torn down, and SCRUB
zeroes its channels. A number that holds a key but no dies any more loses its key and its streams (R365). -/
def State.wipePart (s : State) (p : Nat) (scrub : Bool) : State :=
  if (s.part p).dies = 0 then
    if (s.part p).key.isSome then s.setPart p { s.part p with key := none, ideTorn := true } else s
  else
    let s1 := s.haltPart p 4
    let s2 := s1.setPart p { s1.part p with key := none, ideTorn := true }
    if scrub then s2.scrubPart p else s2

/-- R352, R353: a KWIPE with OP 0. -/
def wipeStart (i : Instr) (v : Word) : M Ctl := do
  kwipeCheck i v
  engineFree 2
  let mask := (v.extractLsb' 0 16).toNat
  let scrub := v.getLsbD 16
  modify (fun s => (List.range 16).foldl (fun s p => if v.getLsbD p then s.wipePart p scrub else s)
    { s with vr := { s.vr with kwipe := v } })
  let _ ← emitFree i (.wipe mask scrub)
  return .next

/-- R352: a wipe ends: BUSY falls, and a full scrubbed wipe sets SWEPT. -/
def State.wipeDone (s : State) (o : Op) (mask : Nat) (scrub : Bool) : State :=
  let s1 := s.endOp o
  let s2 : State := if mask = 0xFFFF && scrub then { s1 with vr := { s1.vr with swept := true } } else s1
  s2.releaseHold

/-- R354: an extend of a measurement. -/
def extend (m : BitVec 512) (e : List Byte) : BitVec 512 :=
  BitVec.ofNat 512 (natOfLE (shake256 (natBytes 64 m.toNat ++ e) 64))

/-- R354: measurement n extended. -/
def State.extendMeas (s : State) (n : Nat) (e : List Byte) : State :=
  { s with vr := { s.vr with meas := Sparse.put s.vr.meas n (extend (Sparse.get 0 s.vr.meas n) e) } }

/-- R359: a seal descriptor. -/
structure SealDesc where
  base : Nat
  pages : Nat
  table : Nat
  root : List Byte
  reserved : Bool
deriving DecidableEq, Repr

/-- R359: the descriptor at a Vrelell scratch offset. -/
def State.sealDesc (s : State) (off : Nat) : SealDesc :=
  let a := vrPa off
  { base := s.readN a 8, pages := s.readN (a + 8) 4, table := s.readN (a + 0x10) 8, root := s.bytesAt (a + 0x20) 32,
    reserved := s.readN (a + 0x0C) 4 ≠ 0 || s.readN (a + 0x18) 8 ≠ 0 }

/-- R360: whether a run of bytes lies in channels of a partition: its first and last byte do, and every channel between
is one of the partition's. -/
def State.inChannels (s : State) (p a n : Nat) : Bool :=
  n ≠ 0 && (List.range ((a + n - 1) / 2 ^ 29 + 1 - a / 2 ^ 29)).all (fun j =>
    match region (2 ^ 29 * (a / 2 ^ 29 + j)) with
    | .chan g _ => s.inPart p g && !s.isMasked g
    | _ => false)

/-- R360: whether a descriptor may be installed for a partition. -/
def State.sealOk (s : State) (p : Nat) (d : SealDesc) : Bool :=
  d.base % 4096 = 0 && 1 ≤ d.pages && d.pages ≤ 2 ^ 20 && d.table % 32 = 0 && !d.reserved
    && s.inChannels p d.base (4096 * d.pages) && s.inChannels p d.table (32 * d.pages)
    && (d.base + 4096 * d.pages ≤ d.table || d.table + 32 * d.pages ≤ d.base)

/-- A partition's seal without the one in a slot. -/
def State.unseal (s : State) (p n : Nat) : State :=
  { s with seals := s.seals.filter (fun e => !(e.part = p && e.slot = n)) }

/-- R360: a KWIPE with OP 1 installs a seal. -/
def sealInstall (i : Instr) (v : Word) : M Ctl := do
  kwipeCheck i v
  engineFree 2
  let s0 ← get
  let s : State := { s0 with vr := { s0.vr with kwipe := v } }
  let p := (v.extractLsb' 20 4).toNat
  let n := (v.extractLsb' 24 4).toNat
  let off := (v.extractLsb' 28 18).toNat
  let d := s.sealDesc off
  let err (e : BitVec 3) : State := { s with vr := { s.vr with kerr := e } }
  if off % 64 ≠ 0 || !s.sealOk p d then set (err 2)
  else if shake256 (s.bytesAt d.table (32 * d.pages)) 32 ≠ d.root then set (err 1)
  else
    let e : Seal := { part := p, slot := n, base := d.base, pages := d.pages, table := d.table }
    let s1 := (err 0).unseal p n
    set (({ s1 with seals := s1.seals ++ [e] } : State).extendMeas 3 (s.bytesAt (vrPa off) 64))
  return .next

/-- R360: a KWIPE with OP 2 removes a seal. -/
def sealRemove (i : Instr) (v : Word) : M Ctl := do
  kwipeCheck i v
  engineFree 2
  modify (fun s => ({ s with vr := { s.vr with kwipe := v } } : State).unseal (v.extractLsb' 20 4).toNat
    (v.extractLsb' 24 4).toNat)
  return .next

/-- R352: a write of KWIPE. -/
def kwipeWrite (i : Instr) (v : Word) : M Ctl :=
  match (v.extractLsb' 17 2).toNat with
  | 0 => wipeStart i v
  | 1 => sealInstall i v
  | 2 => sealRemove i v
  | _ => illWord i

/-! ### Measurements (R354) -/

/-- R354: the checks of a value written to MEXT. -/
def mextCheck (v : Word) : M Unit :=
  let op := (v.extractLsb' 36 2).toNat
  if addrOf v % 64 ≠ 0 || 2 ≤ op || v.extractLsb' 18 14 ≠ 0 || v.getLsbD 35 || v.extractLsb' 38 25 ≠ 0
      || vrSize < addrOf v + (if op = 0 then 64 else 512) then trap cILL v else pure ()

/-- R354: MEXT with OP 0 or 1 starts an operation of the measurement unit. -/
def mextStart (i : Instr) (v : Word) : M Ctl := do
  mextCheck v
  engineFree 3
  setVr (fun x => { x with mext := v &&& 0x7FFFFFFFFFFFFFFF })
  let _ ← emitFree i (.measure (v.extractLsb' 32 3).toNat (addrOf v) (v.extractLsb' 36 2 = 1))
  return .next

/-- R354: a write of MEXT that must be an extend. -/
def extendStart (i : Instr) (v : Word) : M Ctl := if v.extractLsb' 36 2 = 0 then mextStart i v else trap cILL v

/-- R354: a write of MEXT that must be a copy. -/
def measCopyStart (i : Instr) (v : Word) : M Ctl := if v.extractLsb' 36 2 = 1 then mextStart i v else trap cILL v

/-- The 512 bytes of the eight measurements. -/
def State.measBytes (s : State) : List Byte :=
  (List.range 8).flatMap (fun n => natBytes 64 (Sparse.get 0 s.vr.meas n).toNat)

/-- R354: the measurement unit ends an operation; an extend of MEAS7 while SWEPT sets EXTD. -/
def State.measureDone (s : State) (o : Op) (n addr : Nat) (copy : Bool) : State :=
  if !s.accessesBefore o.g o.k o.id then s
  else
    let s1 := s.endOp o
    if copy then s1.vrWrite addr s1.measBytes
    else
      let s2 := s1.extendMeas n (s1.bytesAt (vrPa addr) 64)
      if n = 7 && s2.vr.swept then { s2 with vr := { s2.vr with extd := true } } else s2

/-! ### The signature and hash engines (R355 to R358) -/

/-- LEN of SIGMSG. -/
def sigLen (msg : Word) : Nat := (msg.extractLsb' 32 11).toNat

/-- R356: the checks of a write of SIGGO. -/
def siggoCheck (v : Word) : M Unit := do
  let s ← get
  let msg := s.vr.sigmsg
  let src := (s.vr.sigkey.extractLsb' 32 2).toNat
  if sigLen msg = 0 || 1024 < sigLen msg then trap cILL 0x203
  if vrSize < addrOf msg + sigLen msg then trap cILL 0x203
  if src = 3 then trap cILL 0x204
  if src = 0 && vrSize < addrOf s.vr.sigkey + 57 then trap cILL 0x204
  if vrSize < addrOf s.vr.sigsig + 114 then trap cILL 0x205
  if (!v.getLsbD 0 && src = 2) || (v.getLsbD 0 && src ≤ 1) then trap cILL 0x204
  if v.getLsbD 1 && (sigLen msg ≠ 32 || v.getLsbD 0) then trap cILL 0x206
  if v.extractLsb' 2 62 ≠ 0 then trap cILL 0x206

/-- R357: SIGGO with OP 0 or 1. -/
def siggoStart (i : Instr) (v : Word) : M Ctl := do
  siggoCheck v
  engineFree 0
  let s ← get
  setVr (fun x => { x with sigres := 0 })
  let _ ← emitFree i (if v.getLsbD 0 then .sign s.vr.sigmsg s.vr.sigsig
    else .verify (v.getLsbD 1) s.vr.sigmsg s.vr.sigkey s.vr.sigsig)
  return .next

/-- R357: a write of SIGGO that must be a verify. -/
def verifyStart (i : Instr) (v : Word) : M Ctl :=
  if v.getLsbD 0 then do siggoCheck v; trap cILL 0x206 else siggoStart i v

/-- R357: a write of SIGGO that must be a sign. -/
def signStart (i : Instr) (v : Word) : M Ctl :=
  if v.getLsbD 0 then siggoStart i v else do siggoCheck v; trap cILL 0x206

/-- SIGRES at the end of an operation (R356). -/
def sigresOf (valid bound unlock : Bool) (err : Nat) : BitVec 8 :=
  BitVec.ofNat 8 (2 + 4 * valid.toNat + 8 * bound.toNat + 16 * unlock.toNat + 32 * err)

/-- R357: the public key that SRC names. -/
def State.sigPublic (s : State) (key : Word) : List Byte :=
  match (key.extractLsb' 32 2).toNat with
  | 0 => s.bytesAt (vrPa (addrOf key)) 57
  | 1 => (s.fuseBytes 8 8).take 57
  | _ => (s.fuseBytes 16 8).take 57

/-- R357: a verify ends. -/
def State.verifyDone (s : State) (o : Op) (bind : Bool) (msg key sig : Word) : State :=
  if !s.accessesBefore o.g o.k o.id then s
  else
    let a := vrPa (addrOf msg)
    let r := edVerify (s.sigPublic key) (s.bytesAt a (sigLen msg)) (s.bytesAt (vrPa (addrOf sig)) 114)
    let v : Bool := r = 0
    let b : Bool := bind && s.read64 a = s.fuse 0 && s.byte (a + 8) = s.vr.lcs.setWidth 8
      && s.read64 (a + 0x10) = s.vr.nonce.setWidth 64
    let u : Bool := key.extractLsb' 32 2 = 1 && bind && v && b
    let err := if r = 2 then 1 else if r = 3 then 2 else 0
    let s1 := s.endOp o
    let s2 : State := { s1 with vr := { s1.vr with sigres := sigresOf v b u err } }
    if bind && !u then s2.renewNonce else s2

/-- R355, R357: whether a message is an attestation report of the current state. -/
def State.reportHolds (s : State) (a : Nat) : Bool :=
  s.read64 a = s.fuse 0 && s.byte (a + 8) = s.vr.lcs.setWidth 8 && s.byte (a + 9) = BitVec.ofNat 8 s.vr.dbgOpen.toNat
    && s.bytesAt (a + 0x40) 512 = s.measBytes

/-- R357: a sign ends. -/
def State.signDone (s : State) (o : Op) (msg sig : Word) : State :=
  if !s.accessesBefore o.g o.k o.id then s
  else
    let a := vrPa (addrOf msg)
    let s1 := s.endOp o
    if sigLen msg ≠ 576 || !s.reportHolds a then
      { s1 with vr := { s1.vr with sigres := sigresOf false false false 3 } }
    else
      let s2 := s1.vrWrite (addrOf sig) (edSign ((s.fuseBytes 24 8).take 57) (s.bytesAt a 576))
      { s2 with vr := { s2.vr with sigres := sigresOf true false false 0 } }

/-- SIGRES with BUSY (R356). -/
def State.sigresValue (s : State) : Word := s.vr.sigres.setWidth 64 ||| BitVec.ofNat 64 (s.vrBusy 0).toNat

/-- R357: a write of SHKGO. -/
def shkgoWrite (i : Instr) (v : Word) : M Ctl := do
  let s ← get
  let n := (s.vr.shklen.extractLsb' 0 19).toNat
  let m := (s.vr.shklen.extractLsb' 32 11).toNat
  if v ≠ 1 then illWord i
  if vrSize < n || m = 0 || 1024 < m then trap cILL 0x209
  if vrSize < addrOf s.vr.shkin + n then trap cILL 0x208
  if vrSize < addrOf s.vr.shkout + m then trap cILL 0x20A
  engineFree 1
  let _ ← emitFree i (.shake s.vr.shkin s.vr.shklen s.vr.shkout)
  return .next

/-- R357: the hash engine ends. -/
def State.shakeDone (s : State) (o : Op) (inp len out : Word) : State :=
  if !s.accessesBefore o.g o.k o.id then s
  else
    let bs := s.bytesAt (vrPa (addrOf inp)) (len.extractLsb' 0 19).toNat
    (s.endOp o).vrWrite (addrOf out) (shake256 bs (len.extractLsb' 32 11).toNat)

/-! ### The debug port (R362 to R364) -/

/-- R364: what keeps the port shut: TVAL of the PERM. -/
def State.unlockMissing (s : State) : Word :=
  if s.vr.lcs = 0 || s.vr.lcs = 1 then 0
  else BitVec.ofNat 64 ((!s.vr.sigres.getLsbD 4).toNat + 2 * (!s.vr.swept).toNat + 4 * (!s.vr.extd).toNat
    + 8 * (decide (s.vr.lcs = 4)).toNat)

/-- R364: a write of DBGP with OPEN 1. -/
def dbgOpenWrite : M Ctl := do
  let s ← get
  if s.vr.dbgOpen then return .next
  else
    engineFree 2
    if s.unlockMissing ≠ 0 then trap cPERM s.unlockMissing
    set ({ s with vr := { s.vr with dbgOpen := true } } : State).renewNonce
    return .next

/-- R364: a write of DBGP with OPEN 0. -/
def dbgCloseWrite : M Ctl := do
  let s ← get
  if s.vr.dbgOpen then set ({ s with vr := { s.vr with dbgOpen := false } } : State).renewNonce
  return .next

/-! ### Reads and writes of the Vrelell registers (R211) -/

/-- R211: the value of a register that only the Vrelell core has. -/
def State.vrSreg (s : State) (n : Nat) : Word :=
  match n with
  | 0x200 => s.vr.fusea.setWidth 64
  | 0x201 => s.fusedValue
  | 0x202 => s.vr.lcs.setWidth 64
  | 0x203 => s.vr.sigmsg
  | 0x204 => s.vr.sigkey
  | 0x205 => s.vr.sigsig
  | 0x207 => s.sigresValue
  | 0x208 => s.vr.shkin
  | 0x209 => s.vr.shklen
  | 0x20A => s.vr.shkout
  | 0x20B => BitVec.ofNat 64 (s.vrBusy 1).toNat
  | 0x20C => s.vr.kwipe
  | 0x20D => s.kstat
  | 0x20E => BitVec.ofNat 64 (s.vr.dbgOpen.toNat + s.vr.nonce.toNat * 2 ^ 16)
  | 0x218 => s.vr.mext ||| BitVec.ofNat 64 ((s.vrBusy 3).toNat * 2 ^ 63)
  | _ => if 0x210 ≤ n && n ≤ 0x217 then (Sparse.get 0 s.vr.meas (n - 0x210)).setWidth 64 else 0

/-- A write of a plain register. -/
def vrSet (f : Vrelell → Vrelell) : M Ctl := do
  setVr f
  return .next

/-- R211: a write of a register that only the Vrelell core has; SIGRES and KSTAT ignore it (R8). -/
def vrSregWrite (i : Instr) (n : Nat) (v : Word) : M Ctl :=
  match n with
  | 0x200 => vrSet (fun x => { x with fusea := v.setWidth 6 })
  | 0x201 => fusedWrite i v
  | 0x202 => lcsWrite i v
  | 0x203 => vrSet (fun x => { x with sigmsg := v &&& 0x000007FF0003FFFF })
  | 0x204 => vrSet (fun x => { x with sigkey := v &&& 0x000000030003FFFF })
  | 0x205 => vrSet (fun x => { x with sigsig := v &&& 0x3FFFF })
  | 0x206 => siggoStart i v
  | 0x208 => vrSet (fun x => { x with shkin := v &&& 0x3FFFF })
  | 0x209 => vrSet (fun x => { x with shklen := v &&& 0x000007FF0007FFFF })
  | 0x20A => vrSet (fun x => { x with shkout := v &&& 0x3FFFF })
  | 0x20B => shkgoWrite i v
  | 0x20C => kwipeWrite i v
  | 0x20E => if v.getLsbD 0 then dbgOpenWrite else dbgCloseWrite
  | 0x218 => mextStart i v
  | _ => pure .next

/-! ### The instructions and events -/

/-- R350: A write of LCS advances the lifecycle state by one by blowing a fuse. -/
def execLifecycleAdvance (s : State) : Host.Outcome State Fault Refusal :=
  issue (.mts s.ev.d 0x202) (do
    let v ← ctlOperand s.ev.d
    lcsWrite (.mts s.ev.d 0x202) v) s

/-- R351: A write of FUSED in RAW or MANUF ORs bits into the selected fuse word. -/
def execFuseProgram (s : State) : Host.Outcome State Fault Refusal :=
  issue (.mts s.ev.d 0x201) (do
    let v ← ctlOperand s.ev.d
    fusedWrite (.mts s.ev.d 0x201) v) s

/-- R351: A fuse finishes programming and the blocked Vrelell slot is released. -/
def execFuseProgramDone (s : State) : Host.Outcome State Fault Refusal :=
  s.onOp (fun o =>
    match o.kind with
    | .fuse => if o.live then (s.endOp o).release o.g o.k else s.endOp o
    | _ => s)

/-- R353: A KWIPE with OP 0 resets, erases keys of and optionally scrubs the named partitions. -/
def execKeyWipe (s : State) : Host.Outcome State Fault Refusal :=
  issue (.mts s.ev.d 0x20C) (do
    let v ← ctlOperand s.ev.d
    wipeStart (.mts s.ev.d 0x20C) v) s

/-- R352: A wipe finishes, BUSY falls and SWEPT is set for a full scrubbed wipe. -/
def execKeyWipeDone (s : State) : Host.Outcome State Fault Refusal :=
  s.onOp (fun o =>
    match o.kind with
    | .wipe mask scrub => s.wipeDone o mask scrub
    | _ => s)

/-- R360: A KWIPE with OP 1 checks a seal descriptor, hashes its table, locks it and extends MEAS3. -/
def execSealInstall (s : State) : Host.Outcome State Fault Refusal :=
  issue (.mts s.ev.d 0x20C) (do
    let v ← ctlOperand s.ev.d
    sealInstall (.mts s.ev.d 0x20C) v) s

/-- R360: A KWIPE with OP 2 removes a seal and unlocks its table. -/
def execSealRemove (s : State) : Host.Outcome State Fault Refusal :=
  issue (.mts s.ev.d 0x20C) (do
    let v ← ctlOperand s.ev.d
    sealRemove (.mts s.ev.d 0x20C) v) s

/-- R354: A MEXT write with OP 0 extends a measurement with a 64-byte event. -/
def execMeasurementExtend (s : State) : Host.Outcome State Fault Refusal :=
  issue (.mts s.ev.d 0x218) (do
    let v ← ctlOperand s.ev.d
    extendStart (.mts s.ev.d 0x218) v) s

/-- R354: A MEXT write with OP 1 copies all eight measurements to scratch. -/
def execMeasurementCopy (s : State) : Host.Outcome State Fault Refusal :=
  issue (.mts s.ev.d 0x218) (do
    let v ← ctlOperand s.ev.d
    measCopyStart (.mts s.ev.d 0x218) v) s

/-- R358: The measurement unit finishes an operation, setting EXTD if SWEPT, and BUSY falls. -/
def execMeasurementDone (s : State) : Host.Outcome State Fault Refusal :=
  s.onOp (fun o =>
    match o.kind with
    | .measure n addr copy => s.measureDone o n addr copy
    | _ => s)

/-- R357: A SIGGO write with OP 0 starts an Ed448 verify with optional binding check. -/
def execSignatureVerify (s : State) : Host.Outcome State Fault Refusal :=
  issue (.mts s.ev.d 0x206) (do
    let v ← ctlOperand s.ev.d
    verifyStart (.mts s.ev.d 0x206) v) s

/-- R357: A SIGGO write with OP 1 starts an Ed448 sign of an attestation report. -/
def execSignatureSign (s : State) : Host.Outcome State Fault Refusal :=
  issue (.mts s.ev.d 0x206) (do
    let v ← ctlOperand s.ev.d
    signStart (.mts s.ev.d 0x206) v) s

/-- R357: The signature engine ends, setting VALID, BOUND, UNLOCK or ERR, renewing the nonce on a failed bind. -/
def execSignatureDone (s : State) : Host.Outcome State Fault Refusal :=
  s.onOp (fun o =>
    match o.kind with
    | .verify bind msg key sig => s.verifyDone o bind msg key sig
    | .sign msg sig => s.signDone o msg sig
    | _ => s)

/-- R357: A SHKGO write of 1 starts SHAKE256 of the input into the output. -/
def execShakeHash (s : State) : Host.Outcome State Fault Refusal :=
  issue (.mts s.ev.d 0x20B) (do
    let v ← ctlOperand s.ev.d
    shkgoWrite (.mts s.ev.d 0x20B) v) s

/-- R358: The hash engine finishes writing its output and BUSY falls. -/
def execShakeDone (s : State) : Host.Outcome State Fault Refusal :=
  s.onOp (fun o =>
    match o.kind with
    | .shake inp len out => s.shakeDone o inp len out
    | _ => s)

/-- R364: A DBGP write of OPEN = 1 is checked at the key store and opens the port or raises PERM. -/
def execDebugPortOpen (s : State) : Host.Outcome State Fault Refusal :=
  issue (.mts s.ev.d 0x20E) (do
    let v ← ctlOperand s.ev.d
    if v.getLsbD 0 then dbgOpenWrite else pure .next) s

/-- R364: A DBGP write of OPEN = 0 closes the debug port. -/
def execDebugPortClose (s : State) : Host.Outcome State Fault Refusal :=
  issue (.mts s.ev.d 0x20E) (do
    let v ← ctlOperand s.ev.d
    if v.getLsbD 0 then pure .next else dbgCloseWrite) s

end Sys2Proof.Machine
end

