-- ==== Sys2Proof/Machine/HostLink.lean ====
section
/-! DEFINITION. Sys2Proof/Machine/HostLink.lean: what reaches the part from outside its cores: the host's accesses through a
partition's memory range, its register writes, the management firmware's assignments, package reset, and the failure of a
fabric link (R22, R326 to R337, R354, R392, R395). -/

namespace Sys2Proof.Machine

/-! ### The memory range of a partition (R329) -/

/-- R329: the physical address that a host offset maps to, if it maps to any. -/
def State.hdmTarget (s : State) (p o : Nat) : Option Nat :=
  if o < 0x1000 then (s.firstCore p).map (fun f => scrBase f + 0xFF000 + o)
  else if o < 2 ^ 29 then none
  else match (s.partCores p)[o / 2 ^ 29 - 1]? with
    | some g => if o % 2 ^ 29 < saveOff then some (chanBase g + o % 2 ^ 29) else none
    | none => none

/-- R327, R328, R353: whether the host reaches a partition, by its memory range and by BAR0 of its functions: a virtual function
is bound to it, and its streams stand. -/
def State.exposed (s : State) (p : Nat) : Bool := s.vfs.any (fun e => e.2 = p) && !(s.part p).ideTorn

/-- R395: whether the reset of a partition is running; a host access to its range waits then. -/
def State.resetRuns (s : State) (p : Nat) : Bool := (s.part p).starting

/-- R285: whether a host access of an aligned word waits in the mesh before the first core, which csave has frozen. -/
def State.hostHeld (s : State) (p off : Nat) : Bool :=
  match s.hdmTarget p (off / 8 * 8) with
  | some pa => s.exposed p && (scratchOwner pa).any (fun h => (s.core h).frozen.isSome)
  | none => false

/-- R329, R360: a host write of an aligned word with nibble enables; writes to a locked table are discarded, and so are those to
a reserve, which cannot be addressed (R67; log 77). After the teardown of the streams a request is
unsupported (R353); while the reset runs it waits (R395), and so does one to scratch of a frozen core (R285). -/
def State.hostWrite (s : State) (p off : Nat) (v : Word) (en : BitVec 16) : State :=
  if !s.exposed p || s.resetRuns p || s.hostHeld p off then s
  else match s.hdmTarget p (off / 8 * 8) with
    | some pa => if s.inSealTable pa 8 || s.hitsReserve pa 8 then s else s.write none { pa := pa, data := v, en := en, tag := false }
    | none => s

/-- R326, R329, R353, R392: what a host read of an aligned word answers: data, poison, for a reserve too, which cannot be
addressed (R67; log 77), or, once the streams are torn down, an unsupported request. -/
def State.hostData (s : State) (p off : Nat) : HostData :=
  if (s.part p).ideTorn then .unsupported
  else if !s.exposed p then .poison
  else match s.hdmTarget p (off / 8 * 8) with
    | some pa => if (s.badWord pa 8).isSome || s.hitsReserve pa 8 then .poison else .word (s.read64 pa)
    | none => .poison

/-- R285, R329, R395: a host read; it waits while the partition's reset runs, and before a frozen core. -/
def State.hostRead (s : State) (p off : Nat) : State :=
  if s.resetRuns p || s.hostHeld p off then s else { s with hostReads := s.hostData p off :: s.hostReads }

/-! ### PARTSTAT and PARTCTL (R328) -/

/-- R328: a write of NVF takes a function that is bound to the partition, or 0. -/
def State.nvfWrite (s : State) (p : Nat) (n : BitVec 7) : State :=
  if n = 0 || s.vfs.contains (n.toNat, p) then s.setPart p { s.part p with nvf := n } else s

/-! ### The management firmware's assignments (R327, R336, R353) -/

/-- R327: whether a partition is held in reset. -/
def State.heldInReset (s : State) (p : Nat) : Bool :=
  ((s.part p).st = .reset || (s.part p).st = .halted) && !(s.part p).starting

/-- R327: dies are assigned to a partition that is held in reset; a die of another partition is not taken. In a scrapped part
the partition is in STATE 3 (R350). -/
def State.assignDies (s : State) (p : Nat) (dies : BitVec 16) : State :=
  if 16 ≤ p || !s.heldInReset p || s.parts.any (fun e => e.1 ≠ p && e.2.dies &&& dies ≠ 0) then s
  else s.setPart p { s.part p with dies := dies, st := if s.vr.lcs = 4 then .halted else (s.part p).st }

/-- R327, R328: a virtual function is unbound; NVF reads 0 once its function is unbound. -/
def State.unbindVf (s : State) (f : Nat) : State :=
  match s.vfs.find? (fun e => e.1 = f) with
  | some (_, q) =>
    let s1 : State := { s with vfs := Sparse.del s.vfs f }
    if (s1.part q).nvf.toNat = f then s1.setPart q { s1.part q with nvf := 0 } else s1
  | none => s

/-- R327: a virtual function is bound to a partition, or to none. -/
def State.bindVf (s : State) (f : Nat) (p : Option Nat) : State :=
  if f < 1 || 96 < f then s
  else if s.vfs.find? (fun e => e.1 = f) = p.map (fun q => (f, q)) then s
  else
    let s1 := s.unbindVf f
    match p with
    | some q => if q < 16 then { s1 with vfs := Sparse.put s1.vfs f q } else s1
    | none => s1

/-- R336: the package id, and the packages of a partition's join group. -/
def State.joinConfig (s : State) (id p : Nat) (group : BitVec 16) : State :=
  if 16 ≤ id || 16 ≤ p then s
  else ({ s with pkgId := BitVec.ofNat 4 id } : State).setPart p { s.part p with group := group }

/-! ### Package reset (R354, R363) -/

/-- R350, R354, R363: package reset: the cores, partitions and queues at their reset values; memory outside scratch, the fuses,
the lifecycle state, the count of partition resets and what the model records of the outside stay; the boot ROM extends
MEAS0 and MEAS1, and the nonce is renewed (log 18). The partitions of a scrapped part stay in STATE 3. -/
def State.packageReset (s : State) : State :=
  let kept (pa : Nat) : Bool := match region pa with
    | .scratch _ _ => false
    | _ => true
  let vr : Vrelell := { lcs := s.vr.lcs, fuses := s.vr.fuses }
  let s1 : State := {
    mem := s.mem.filter (fun e => kept e.1), bad := s.bad.filter (fun w => kept (8 * w)),
    parts := s.parts.map (fun e => (e.1, { resets := e.2.resets, st := if s.vr.lcs = 4 then .halted else .reset })),
    masked := s.masked, irqs := s.irqs,
    msixMasked := s.msixMasked, hostReads := s.hostReads, probeReads := s.probeReads, fabricOut := s.fabricOut,
    saves := s.saves, vr := vr, nextId := s.nextId, free := s.free, agenda := s.agenda, ev := s.ev }
  let boot := shake256 (s1.fuseBytes 0 24 ++ leBytes (s1.vr.lcs.setWidth 64)) 64
  ((s1.extendMeas 0 (natBytes 64 Config.firmwareDigest.toNat)).extendMeas 1 boot).renewNonce

/-! ### A fabric link fails (R337, R392) -/

/-- Whether a physical address lies in a package's part of the fabric region. -/
def inPackage (pkg pa : Nat) : Bool :=
  match region pa with
  | .fabric q _ => q = pkg
  | _ => false

/-- The elements of a copy, in transfer order, that it reads from or writes to a package (R138). -/
def State.copyTouches (s : State) (o : Op) (c : CopyCtl) (pkg : Nat) : List Nat :=
  let hits (va : Word) (n : Nat) (kind : Access) : Bool := match s.engAccess (s.opCtx o) va n kind with
    | .ok t => inPackage pkg t.pa
    | .error _ => false
  (List.range (c.n0 * c.n1 * c.n2)).filter (fun q =>
    let p := q / (c.n0 * c.n1)
    let r := q / c.n0 % c.n1
    let i := q % c.n0
    let src := c.csrc + BitVec.ofNat 64 p * c.cstr2 + BitVec.ofNat 64 r * c.cstr1 + BitVec.ofNat 64 (i * fmtSize c.sf)
    let dst := c.cdst + BitVec.ofNat 64 p * c.cdstr2 + BitVec.ofNat 64 r * c.cdstr1 + BitVec.ofNat 64 (i * fmtSize c.df)
    (p < c.v2 && r < c.v1 && i < c.v0 && hits src (fmtSize c.sf) .copyRead) || hits dst (fmtSize c.df) .copyWrite)

/-- R141, R337, R392: a copy with an access in flight to a package whose link fails stops at that element with a deferred SOFT
0x04; which of its elements in the package it is, is a free value (log 29). -/
def State.copyLinkFails (s : State) (pkg : Nat) (o : Op) (c : CopyCtl) (tid : Nat) : State :=
  match s.copyTouches o c pkg with
  | [] => s
  | q :: qs =>
    if s.copyBehind o c || !o.parts.isEmpty then s
    else
      let (n, s1) := s.draw
      let m := (q :: qs).getD ((Config.freeWord n).toNat % (qs.length + 1)) q
      let a := (s1.copyUpTo o c (c.n1 * c.n2) 0 m).settled c
      match a.stop with
      | some (p, r, i, code, sub) =>
        let v := cresWord p r i tid
        let e : EngErr := if code = 0 then (cSOFT, 4) else (code, sub)
        (a.st.setCres o v).failOp o e.1 v e.2
      | none =>
        let v := cresWord (m / (c.n0 * c.n1)) (m / c.n0 % c.n1) (m % c.n0) tid
        (a.st.setCres o v).failOp o cSOFT v 4

/-- Whether n words of 4 bytes from an address, as an operation reads them, touch a package. -/
def State.wordsTouch (s : State) (o : Op) (va : Word) (n pkg : Nat) : Bool :=
  (List.range n).any (fun j => match s.engAccess (s.opCtx o) (va + BitVec.ofNat 64 (4 * j)) 4 .copyRead with
    | .ok t => inPackage pkg t.pa
    | .error _ => false)

/-- R337, R392: one operation in flight to a package whose link fails; a store may or may not have been applied. -/
def State.linkFails (s : State) (pkg : Nat) (o : Op) : State :=
  match o.kind with
  | .load (.vf va _) parts _ =>
    if parts.any (fun e => inPackage pkg e.1) then
      (if o.live then (s.endOp o).releaseTrap o cSOFT va 4 else s.endOp o)
    else s
  | .load sh parts dst =>
    if parts.any (fun e => inPackage pkg e.1) then
      (s.failOp o cSOFT 0 4).arrive o dst ((s.loadCells o sh parts).map (fun _ => {}))
    else s
  | .store ws =>
    if ws.any (fun w => inPackage pkg w.pa) then
      let (n, s1) := s.draw
      let s2 := if (Config.freeWord n).getLsbD 0 then ws.foldl (fun t w => t.write (some (o.g, o.k)) w) s1 else s1
      s2.failOp o cSOFT 0 4
    else s
  | .atomic _ pa _ _ _ dst => if inPackage pkg pa then (s.failOp o cSOFT 0 4).arrive o dst [{}] else s
  | .red _ pa _ _ => if inPackage pkg pa then s.failOp o cSOFT 0 4 else s
  | .fullEmpty _ pa va _ _ =>
    if inPackage pkg pa then (if o.live then (s.endOp o).releaseTrap o cSOFT va 4 else s.endOp o) else s
  | .fabricMsg q _ _ _ _ => if q = pkg then s.failOp o cSOFT 0 4 else s
  | .copy c tid => s.copyLinkFails pkg o c tid
  | .parm _ src _ _ h => if s.wordsTouch o src h pkg then (s.failOp o cSOFT 0 4).flushHeld else s
  | .povl img words _ _ _ => if s.wordsTouch o img words pkg then s.failOp o cSOFT 0 4 else s
  | _ => s

/-! ### The instructions and events -/

/-- R329: A host write through the partition's HDM range reaches scratch or channel memory. -/
def execHostMemoryWrite (s : State) : Host.Outcome State Fault Refusal :=
  .next (s.hostWrite s.ev.p s.ev.off s.ev.v s.ev.en)

/-- R329: A host read through the HDM range returns data or poison. -/
def execHostMemoryRead (s : State) : Host.Outcome State Fault Refusal :=
  .next (s.hostRead s.ev.p s.ev.off)

/-- R395: A host write of PARTCTL.RESET halts if needed, clears partition state and restarts it. -/
def execPartitionReset (s : State) : Host.Outcome State Fault Refusal :=
  let p := s.ev.p
  .next (if (s.part p).dies = 0 || !s.exposed p then s
    else (s.nvfWrite p (s.ev.v.extractLsb' 1 7)).resetPart p)

/-- R328: A host write of 1 to PARTSTAT.APPROX clears the approximate-accepted status. -/
def execApproxClear (s : State) : Host.Outcome State Fault Refusal :=
  .next (if s.exposed s.ev.p then s.setPart s.ev.p { s.part s.ev.p with approx := false } else s)

/-- R328: A host write selects the virtual function that receives the partition's vectors. -/
def execPartctlNvfWrite (s : State) : Host.Outcome State Fault Refusal :=
  .next (if s.exposed s.ev.p then s.nvfWrite s.ev.p (s.ev.v.extractLsb' 1 7) else s)

/-- R354: Package reset zeroes measurements, the boot ROM measures firmware and fuses, and the nonce is renewed. -/
def execPackageReset (s : State) : Host.Outcome State Fault Refusal :=
  .next s.packageReset

/-- R337: A fabric link fails and its in-flight accesses become SOFT faults. -/
def execFabricLinkFailure (s : State) : Host.Outcome State Fault Refusal :=
  .next (s.ops.foldl (fun t o => t.linkFails s.ev.p o) s)

/-- R327: The management firmware assigns dies to a partition while the partitions concerned are held in reset. -/
def execPartitionDieAssignment (s : State) : Host.Outcome State Fault Refusal :=
  .next (s.assignDies s.ev.p (s.ev.v.setWidth 16))

/-- R327: A virtual function is bound to or unbound from a partition, making NVF read 0 when its function is unbound. -/
def execVirtualFunctionBinding (s : State) : Host.Outcome State Fault Refusal :=
  .next (s.bindVf s.ev.k s.ev.opt)

/-- R336: The management firmware assigns package ids and joins partitions of different packages into join groups. -/
def execFabricJoinConfiguration (s : State) : Host.Outcome State Fault Refusal :=
  .next (s.joinConfig s.ev.k s.ev.p (s.ev.v.setWidth 16))

/-- R353: IDE_KM over SPDM, answered by the Vrelell core, sets new stream keys for a partition after a wipe tore its streams down. -/
def execIdeKmKeySetting (s : State) : Host.Outcome State Fault Refusal :=
  .next (s.setPart s.ev.p { s.part s.ev.p with ideTorn := false })

end Sys2Proof.Machine
end

