-- ==== Sys2Proof/Machine/Observe.lean ====
section
/-! DEFINITION. Sys2Proof/Machine/Observe.lean: the observation block of a core: slot classes, counters, dumps and samples
(R338 to R345). -/

namespace Sys2Proof.Machine

/-! ### Slot classes (R338) -/

/-- The classes of R338 by their codes: 0 issued, 1 ready, 2 memory, 3 message, 4 vacant. -/
abbrev SlotClass := Nat

/-- R338: the class of what a blocked slot is blocked in; halt, pstop, cp.kill and the counter instructions stand in no row but
the last. -/
def State.blockClass (s : State) : Block → SlotClass
  | .portRead _ | .portWrite _ | .mail | .ready | .sync => 3
  | .wait _ _ _ _ | .walk _ | .engines | .vrEngine _ _ | .drops | .begun | .dying _ true | .killNode _ _ true => 2
  | .answer id =>
    match s.op? id with
    | some o => match o.kind with
      | .bar _ _ _ _ | .barPending _ _ _ _ _ | .barAnswer _ _ _ | .barNotice _ _ _ _ => 3
      | .node _ _ _ false | .nodeAnswer => 1
      | .nodeSoft _ _ _ => if o.major = 0x23 && o.fn = 2 then 2 else 1
      | _ => 2
    | none => 2
  | .dying _ false | .killNode _ _ false | .stopping _ | .stopOf _ | .halting | .copyEnd _ => 1

/-- R338: the class of a bound slot that has not issued or forfeited in a cycle. A slot of a frozen core that did not save it
is in class memory, unless it is blocked in an instruction of class message. One that R27 holds back is in class message where the
result that it awaits is that of a port read. -/
def State.boundClass (s : State) (g k : Nat) : SlotClass :=
  let out := match (s.core g).frozen with | some j => j ≠ k | none => false
  match (s.slot g k).blocked with
  | some b =>
    let c := if s.blockOver g k b then 1 else s.blockClass b
    if out && c = 1 then 2 else c
  | none => if !out && s.nextAwaitsPort g k then 3 else if out || s.nextAwaits g k then 2 else 1

/-- R338: the slots bound when a cycle begins, each with its class by then and its program counter: a slot that is stopped
in the cycle keeps this class. -/
def State.startClasses (s : State) (g : Nat) : List (Nat × SlotClass × Word) :=
  ((s.core g).slots.filter (fun e => e.2.bound)).map (fun e => (e.1, s.boundClass g e.1, e.2.pc))

/-- R338: the class of a slot in a cycle, with the address it stands at: was is its class at the cycle's start, won the slot
that had the turn, and s the state after it. -/
def State.slotClass (s : State) (g k : Nat) (was : Option (SlotClass × Word)) (won : Option Nat) : SlotClass × Word :=
  let pc := (s.slot g k).pc
  if won = some k && s.turn = .issued then (0, pc)
  else match was with
    | none => (4, pc)
    | some w =>
      if won = some k && s.turn = .forfeited then (2, pc)
      else if !(s.slot g k).bound then w
      else (s.boundClass g k, pc)

/-- R339: CLS(k, c). The counts of the class vacant are the cycles in no other class. -/
def clsCount (cyc : Nat) (cls : Sparse Word) (k c : Nat) : Word :=
  let at' (j : Nat) : Word := Sparse.get 0 cls (5 * k + j)
  if c = 4 then BitVec.ofNat 64 cyc - at' 0 - at' 1 - at' 2 - at' 3 else at' c

/-! ### Dumps (R340, R341) -/

/-- R342: a dump begins, unless one is in progress. -/
def State.dumpStart (s : State) (g : Nat) : State :=
  let c := s.core g
  match c.dump with
  | some _ => s
  | none => s.setCore g { c with dump := some { cyc := c.cyc, cls := c.cls, hist := c.hist } }

/-- R340, R341: a dump writes its part of the observation area and ends. -/
def State.dumpEnd (s : State) (g : Nat) : State :=
  match (s.core g).dump with
  | none => s
  | some d =>
    let a := chanBase g + obsOff
    let n := s.read64 (a + 0x10)
    let s1 := ((s.write64 a (s.coreValue g)).write64 (a + 8) (BitVec.ofNat 64 d.cyc)).write64 (a + 0x10) (n + 1)
    let s2 := (List.range 320).foldl (fun s j => s.write64 (a + 0x40 + 8 * j) (clsCount d.cyc d.cls (j / 5) (j % 5))) s1
    let s3 := (List.range 65).foldl (fun s j => s.write64 (a + 0xA40 + 8 * j) (Sparse.get 0 d.hist j)) s2
    s3.setCore g { s3.core g with dump := none }

/-! ### Sampling (R342 to R344) -/

/-- EVENT of SMPL. -/
def smplEvent (v : Word) : Nat := (v.extractLsb' 1 3).toNat

/-- PERIOD of SMPL. -/
def smplPeriod (v : Word) : Nat := (v.extractLsb' 16 32).toNat

/-- R342: whether an mts of SMPL raises ILL. -/
def smplBad (v : Word) : Bool :=
  let e := (v.extractLsb' 1 3).toNat
  6 ≤ e || (v.getLsbD 0 && (v.extractLsb' 16 32).toNat < (if e = 3 || e = 4 then 64 else 1))

/-- R342, R343: a write of SMPL. -/
def State.smplWrite (s : State) (g : Nat) (v : Word) : State :=
  let c := s.core g
  let s1 := s.setCore g { c with smpl := v &&& 0x0000FFFFFFFF001F,
                                 sampleCount := if v.getLsbD 0 then 0 else c.sampleCount, smplAt := some c.cyc }
  if v.getLsbD 5 then s1.dumpStart g else s1

/-- R214, R343: one cycle is counted, under SMPL and the count as they stood when it began: classes and addresses by slot, the
slot that had the turn with its address, and whether no slot was eligible. What events 3 and 4 count after the slot that
reaches PERIOD counts from the reset. An mts of SMPL in the cycle leaves its own count, 0 for EN = 1, for the cycles after. -/
def State.countSample (s : State) (g : Nat) (classes : List (Nat × SlotClass × Word)) (won : Option (Nat × Word))
    (none' : Bool) (smpl : Word) (count : Nat) : State :=
  let c := s.core g
  let wrote := c.smplAt = some c.cyc
  if !smpl.getLsbD 0 then s
  else
    let slots (k : SlotClass) : List (Option (Nat × Word)) :=
      (classes.filter (fun e => e.2.1 = k)).map (fun e => some (e.1, e.2.2))
    let one (b : Bool) : List (Option (Nat × Word)) := if b then [won] else []
    let hits := match smplEvent smpl with
      | 0 => one true
      | 1 => one (s.turn == TurnResult.issued)
      | 2 => one (s.turn == TurnResult.forfeited)
      | 3 => slots 2
      | 4 => slots 3
      | _ => one none'
    if count + hits.length < smplPeriod smpl then
      if wrote then s else s.setCore g { c with sampleCount := count + hits.length }
    else match hits[smplPeriod smpl - count - 1]? with
      | some n => s.setCore g { c with
        sampleDue := some { named := n, cyc := c.cyc, event := smplEvent smpl,
                            rest := if wrote then 0 else count + hits.length - smplPeriod smpl } }
      | none => s

/-- R343, R344: a sample is taken: SPC, a trace record, the counter back to 0, and a frozen cycle. PC and SLOT of a sample
that names no slot are not given by the spec (log 26). -/
def State.takeSample (s : State) (g : Nat) : State :=
  match (s.core g).sampleDue with
  | none => s
  | some d =>
    let (n, s1) := match d.named with
      | some _ => (0, s)
      | none => s.draw
    let pc : Word := match d.named with | some e => e.2 | none => Config.freeWord n
    let k : Nat := match d.named with | some e => e.1 | none => (Config.freeWord n).toNat / 2 ^ 49
    let c := s1.core g
    let spc : Word := BitVec.ofNat 64 (pc.toNat % 2 ^ 49 + k % 64 * 2 ^ 49 + d.named.isNone.toNat * 2 ^ 55
      + d.event * 2 ^ 56 + 2 ^ 63)
    let s2 := s1.writeRec g (traceWords d.cyc 0 (k % 64) pc.toNat 0)
    s2.setCore g { s2.core g with spc := spc, sampleCount := d.rest, sampleDue := none, freezeNext := true }

/-! ### The instructions and events -/

/-- R342: Writing SMPL.DUMP = 1 starts a dump of the observation counters. -/
def execDumpStart (s : State) : Host.Outcome State Fault Refusal :=
  .next (s.dumpStart s.ev.g)

/-- R341: A dump finishes writing the observation area and DUMP reads 0. -/
def execDumpComplete (s : State) : Host.Outcome State Fault Refusal :=
  .next (s.dumpEnd s.ev.g)

/-- R343: The sample counter reaches PERIOD: a sample is recorded in SPC and trace and issue freezes one cycle. -/
def execSample (s : State) : Host.Outcome State Fault Refusal :=
  .next (s.takeSample s.ev.g)

end Sys2Proof.Machine
end

