-- ==== Sys2Proof/Machine/Xbar.lean ====
section
/-! DEFINITION. Sys2Proof/Machine/Xbar.lean: major 0x35 and the crossbar tiles: programming, calibration, products within
their bounds, xacc and xstat (R97, R99, R145 to R149, R295 to R298). -/

namespace Sys2Proof.Machine

/-! ### Tiles and banks (R145) -/

/-- R295: the tile that an operation of the crossbar acts on. -/
def OpKind.tile? : OpKind → Option Nat
  | .eng .xprg d _ _ _ _ | .eng .xswp d _ _ _ _ | .eng .xcal d _ _ _ _ | .eng .xmv d _ _ _ _ | .eng .xmvt d _ _ _ _ =>
    some (d.extractLsb' 0 2).toNat
  | _ => none

/-- Whether an operation belongs to tile t. -/
def OpKind.onTile (t : Nat) (k : OpKind) : Bool := k.tile? = some t

/-- A bank of a tile. -/
def Tile.bank (t : Tile) (b : Bool) : Bank := if b then t.bank1 else t.bank0

/-- The tile with a bank replaced. -/
def Tile.setBank (t : Tile) (b : Bool) (x : Bank) : Tile := if b then { t with bank1 := x } else { t with bank0 := x }

/-- A tile of a core. -/
def State.tile (s : State) (g t : Nat) : Tile := Sparse.get {} (s.core g).tiles t

/-- The state with a tile replaced. -/
def State.setTile (s : State) (g t : Nat) (x : Tile) : State :=
  s.setCore g { s.core g with tiles := Sparse.put (s.core g).tiles t x }

/-- The state with a bank of a tile replaced. -/
def State.setBank (s : State) (g t : Nat) (b : Bool) (x : Bank) : State := s.setTile g t ((s.tile g t).setBank b x)

/-- The code of a row and column of a bank. -/
def Bank.code (b : Bank) (i j : Nat) : Int := ((Sparse.get [] b.codes (i / 16)).getD (256 * (i % 16) + j) 0).toInt

/-- R149: a deviation joins XBND: the first since the last read, and then only a larger one, replaces PEAK, which saturates, and
TILE and BANK. -/
def State.notePeak (s : State) (g t : Nat) (b : Bool) (dev : Nat) : State :=
  let c := s.core g
  if c.peak.any (dev ≤ ·) then s
  else s.setCore g { c with peak := some dev,
                            xbnd := BitVec.ofNat 64 (Nat.min dev 0xFFFF + t * 2 ^ 16 + b.toNat * 2 ^ 18) }

/-- R149: a read of XBND answers it and clears it. -/
def xbndRead : M Word := fun s =>
  let c := s.core s.gk.1
  .ok (c.xbnd, s.setCore s.gk.1 { c with xbnd := 0, peak := none })

/-! ### Programming, swapping, calibrating (R146, R148, R296) -/

/-- R67, R296: the deferred fault of a block that xprg or xcal reads: one that touches a declared reserve, then the first word
that is bad or tagged. -/
def State.blockFault (s : State) (g off n : Nat) : Option EngErr :=
  if s.hitsReserve (scrBase g + off) n then some (cCLS, 0) else s.runFault g off n

/-- R296: xprg. -/
def State.runXprg (s : State) (o : Op) (d a : Word) : State :=
  let t := (d.extractLsb' 0 2).toNat
  let x := s.tile o.g t
  let b := !x.active
  let k := x.bank b
  match s.blockFault o.g a.toNat 4096 with
  | some e => s.failOp o e.1 0 e.2
  | none =>
    let codes := s.bytesAt (scrBase o.g + a.toNat) 4096
    if codes.any (fun c => c.toInt < -31 || 31 < c.toInt) then s.failOp o cXBANK 0 4
    else
      let old := if k.st = .unprog then [] else k.codes
      (s.setBank o.g t b { k with st := .prog, codes := Sparse.put old (d.extractLsb' 4 4).toNat codes }).endOp o

/-- R296: xswp. -/
def State.runXswp (s : State) (o : Op) (d : Word) : State :=
  let t := (d.extractLsb' 0 2).toNat
  let x := s.tile o.g t
  if (x.bank (!x.active)).st = .cal then (s.setTile o.g t { x with active := !x.active }).endOp o
  else s.failOp o cXBANK 0 2

/-- R147: whether a reference deviation, in units of 2^-8 of sx times sw, is within 2 of sx times sw. -/
def deviationOk (dev : Nat) : Bool := dev ≤ 512

/-- The 32-bit values of n words from an offset of local scratch. -/
def State.words32 (s : State) (g off n : Nat) : List (BitVec 32) :=
  (List.range n).map (fun j => s.read32 (scrBase g + off + 4 * j))

/-- R146, R296: xcal: the scales are set, the references checked, and the date reset when they pass. -/
def State.runXcal (s : State) (o : Op) (d a b : Word) : State :=
  let t := (d.extractLsb' 0 2).toNat
  let bk := d.getLsbD 2
  let k := (s.tile o.g t).bank bk
  if k.st = .unprog then s.failOp o cXBANK 0 3
  else match s.blockFault o.g a.toNat 1024 with
    | some e => s.failOp o e.1 0 e.2
    | none =>
      let (n, s1) := s.draw
      let dev := Config.freeDeviation n
      let k1 := { k with scales := s.words32 o.g a.toNat 256, swt := b.extractLsb' 0 32 }
      let s2 := s1.notePeak o.g t bk dev
      if deviationOk dev then
        (s2.setBank o.g t bk { k1 with st := .cal, date := (s.core o.g).cyc }).endOp o
      else (s2.setBank o.g t bk { k1 with st := .drift }).failOp o cXDRIFT 0 3

/-! ### Products (R97, R145, R147, R297) -/

/-- R97, R147: whether a value is within the bound of the reference k times S, where A is the sum of the magnitudes: the
bound is k times (A / 128 + 4). When just one of sx and sw is negative the bound that R97 writes is negative; the magnitude
of k is taken (log 11). -/
def withinBound (v : FNum) (mk : Nat) (neg : Bool) (ek : Int) (sum : Int) (mag : Nat) : Bool :=
  match v with
  | .fin nv mv ev =>
    let q : Int := if ev < ek - 7 then ev else ek - 7
    let y := intAt (neg ^^ decide (sum < 0)) (mk * sum.natAbs) ek q
    let d := (intAt nv mv ev q - y).natAbs
    d ≤ (intAt false (mk * (mag + 512)) (ek - 7) q).natAbs
  | _ => false

/-- The largest finite FP32 value is m times 2^104. -/
def f32Max : Nat := 2 ^ 24 - 1

/-- R97: one output: the free value of a draw where the spec defines none or where it is within the bound, and otherwise
the reference rounded to FP32 (log 11). -/
def deliver (draw : Nat) (sx sw : BitVec 32) (sum : Int) (mag : Nat) : BitVec 32 :=
  let v := Config.freeOutput draw
  match ((num32 sx).mul (num32 sw)).1, num32 sx, num32 sw with
  | .fin neg mk ek, .fin _ _ _, .fin _ _ _ =>
    let q : Int := if ek < 104 then ek else 104
    if (intAt false f32Max 104 q).natAbs < (intAt false (mk * sum.natAbs) ek q).natAbs then v
    else if withinBound (num32 v) mk neg ek sum mag then v
    else (rnd32 0 { x := .fin (neg ^^ decide (sum < 0)) (mk * sum.natAbs) ek }).1
  | _, _, _ => v

/-- The codes that output j of a product is formed from: column j for xmv, row j for xmvt. -/
def Bank.line (b : Bank) (trans : Bool) (j : Nat) : List Int :=
  (List.range 256).map (fun i => if trans then b.code j i else b.code i j)

/-- R97, R147: the 256 outputs of a product, from draw number n on. -/
def Bank.outputs (b : Bank) (trans : Bool) (n : Nat) (sx : BitVec 32) (xs : List Int) : List (BitVec 32) :=
  (List.range 256).map (fun j =>
    let l := b.line trans j
    let mag := ((xs.zip l).map (fun e => e.1.natAbs * e.2.natAbs)).foldl (· + ·) 0
    deliver (n + j) sx (if trans then b.swt else b.scales.getD j 0) (intDot xs l) mag)

/-- R145, R297: why a product's bank rejects it before the references are looked at: cause, subcode, and whether the bank
drifts. XCALS is the value read at issue (R214, R289). -/
def State.bankFault (s : State) (g : Nat) (k : Bank) (xcals : Word) : Option (Nat × Nat × Bool) :=
  let life := (xcals.extractLsb' 0 16).toNat
  match k.st with
  | .unprog | .prog => some (cXBANK, 1, false)
  | .drift => some (cXDRIFT, 4, false)
  | .cal => if life ≠ 0 && life * 2 ^ 20 ≤ (s.core g).cyc - k.date then some (cXDRIFT, 2, true) else none

/-- R67: the fault of a product's input or output block. -/
def State.productFault (s : State) (g ina out : Nat) : Option EngErr :=
  if s.hitsReserve (scrBase g + ina) 256 || s.hitsReserve (scrBase g + out) 1024 then some (cCLS, 0)
  else if (s.badWord (scrBase g + ina) 256).isSome then some (cSOFT, 1)
  else none

/-- R147, R148, R297: a tile runs an xmv or xmvt. All 256 outputs are written, with tags set, or none. -/
def State.runProduct (s : State) (o : Op) (trans : Bool) (d a b xcals : Word) : State :=
  let t := (d.extractLsb' 0 2).toNat
  let out := (d.extractLsb' 12 20).toNat
  let bk := (s.tile o.g t).active
  let k := (s.tile o.g t).bank bk
  match s.bankFault o.g k xcals with
  | some (code, sub, drifts) =>
    (if drifts then s.setBank o.g t bk { k with st := .drift } else s).failOp o code 0 sub
  | none =>
    match s.productFault o.g a.toNat out with
    | some e => s.failOp o e.1 0 e.2
    | none =>
      let n := s.free
      let s1 := { s with free := n + 257 }
      let dev := Config.freeDeviation n
      let s2 := s1.notePeak o.g t bk dev
      if !deviationOk dev then (s2.setBank o.g t bk { k with st := .drift }).failOp o cXDRIFT 0 1
      else
        let xs := (s.bytesAt (scrBase o.g + a.toNat) 256).map (fun x => x.toInt)
        let ys := k.outputs trans (n + 1) (b.extractLsb' 0 32) xs
        (s2.engWrites ((List.range 128).map (fun j =>
          { pa := scrBase o.g + out + 8 * j, data := ys.getD (2 * j + 1) 0 ++ ys.getD (2 * j) 0, en := 0xFFFF,
            tag := true }))).endOp o

/-! ### Issue (R289, R295, R298) -/

/-- R295: whether a control cell has a nonzero bit in a part that is marked 0 for the form: the parts that the form reads
are given as a mask. -/
def xctlBad (c mask : Word) : Bool := c &&& ~~~mask ≠ 0

/-- R147, R295: xprg, xcal, xmv and xmvt at issue: n is the length of the block at cell(a), out says that the control names
an output block. -/
def xbarOp (i : Instr) (f : Eng) (d a : Name) (mask : Word) (n : Nat) (out : Bool) (b : M Word) : M Ctl := do
  let x ← ctlOperand a
  let y ← b
  let c ← ctlOperand d
  if xctlBad c mask then trap cILL c
  let oa : Word := (c.extractLsb' 12 20).setWidth 64
  if x.toNat % 64 ≠ 0 then trap cALN x
  if out && oa.toNat % 64 ≠ 0 then trap cALN oa
  localRun x n
  if out then localRun oa 1024
  accept (OpKind.onTile (c.extractLsb' 0 2).toNat) 8
  let s ← get
  let _ ← emit i .tiles (.eng f c x y (if out then (s.core s.gk.1).xcals else 0) none)
  return .next

/-- sx of xmv and xmvt: its tag is accepted (R289). -/
def anyOperand (b : Name) : M Word := do
  let y ← readName b
  return y.v

/-- R289, R374: xswp raises no counter, but its operation takes a sequence number. -/
def xswpOp (i : Instr) (d : Name) : M Ctl := do
  let c ← ctlOperand d
  if xctlBad c 3 then trap cILL c
  accept (OpKind.onTile (c.extractLsb' 0 2).toNat) 8
  let q ← nextSeq
  modify (fun s => s.addOp s.gk.1 s.gk.2 none q (encode i) (.eng .xswp c 0 0 0 none))
  return .next

/-- R99, R298: xacc. -/
def xaccOp (d a : Name) : M Ctl := do
  let x ← readName a
  modify (fun s => match s.partOf s.gk.1 with
    | some p => s.setPart p { s.part p with approx := true, approxFence := true }
    | none => s)
  writeName d { v := x.v, t := false }
  return .next

/-- The code of a bank's state (R149). -/
def BankState.code : BankState → Nat
  | .unprog => 0
  | .prog => 1
  | .cal => 2
  | .drift => 3

/-- R149: the byte of xstat for a tile. -/
def State.tileByte (s : State) (g t : Nat) : Nat :=
  let x := s.tile g t
  x.bank0.st.code + 4 * x.bank1.st.code + 16 * x.active.toNat
    + 32 * (s.ops.any (fun o => o.g = g && o.kind.onTile t)).toNat

/-- R298: xstat. -/
def xstatOp (d : Name) : M Ctl := do
  let s ← get
  let g := s.gk.1
  writeName d { v := BitVec.ofNat 64 (s.tileByte g 0 + 2 ^ 8 * s.tileByte g 1 + 2 ^ 16 * s.tileByte g 2
                                        + 2 ^ 24 * s.tileByte g 3), t := false }
  return .next

/-! ### The instructions and events -/

/-- R296: Queues programming of one row group of a tile's inactive bank. -/
def execXprg (d : Name) (a : Name) (s : State) : Host.Outcome State Fault Refusal :=
  issue (.xprg d a) (xbarOp (.xprg d a) .xprg d a 0xF3 4096 false (pure 0)) s

/-- R296: Queues a swap making a calibrated inactive bank active. -/
def execXswp (d : Name) (s : State) : Host.Outcome State Fault Refusal :=
  issue (.xswp d) (xswpOp (.xswp d) d) s

/-- R297: Queues an analogue matrix-vector product on a tile's active bank. -/
def execXmv (d : Name) (a : Name) (b : Name) (s : State) : Host.Outcome State Fault Refusal :=
  issue (.xmv d a b) (xbarOp (.xmv d a b) .xmv d a 0xFFFFF003 256 true (anyOperand b)) s

/-- R297: Queues a transposed analogue product on a tile's active bank. -/
def execXmvt (d : Name) (a : Name) (b : Name) (s : State) : Host.Outcome State Fault Refusal :=
  issue (.xmvt d a b) (xbarOp (.xmvt d a b) .xmvt d a 0xFFFFF003 256 true (anyOperand b)) s

/-- R296: Queues calibration of a named bank with column scales and swt. -/
def execXcal (d : Name) (a : Name) (b : Name) (s : State) : Host.Outcome State Fault Refusal :=
  issue (.xcal d a b) (xbarOp (.xcal d a b) .xcal d a 7 1024 false (ctlOperand b)) s

/-- R298: Copies a value with its bound tag cleared and sets the partition's approximate-accepted status. -/
def execXacc (d : Name) (a : Name) (s : State) : Host.Outcome State Fault Refusal :=
  issue (.xacc d a) (xaccOp d a) s

/-- R298: Writes the bank states and activity of all four tiles. -/
def execXstat (d : Name) (s : State) : Host.Outcome State Fault Refusal :=
  issue (.xstat d) (xstatOp d) s

/-- R296: A tile writes a row group of its inactive bank or faults. -/
def execXprgComplete (s : State) : Host.Outcome State Fault Refusal :=
  s.onOp (fun o =>
    match o.kind with
    | .eng .xprg d a _ _ _ =>
      if !s.oldestOf o (OpKind.onTile (d.extractLsb' 0 2).toNat) then s else s.runXprg o d a
    | _ => s)

/-- R296: A tile makes its calibrated inactive bank active or faults XBANK. -/
def execXswpApply (s : State) : Host.Outcome State Fault Refusal :=
  s.onOp (fun o =>
    match o.kind with
    | .eng .xswp d _ _ _ _ =>
      if !s.oldestOf o (OpKind.onTile (d.extractLsb' 0 2).toNat) then s else s.runXswp o d
    | _ => s)

/-- R296: A tile sets a bank's scales and checks its references, moving it to CAL or DRIFT. -/
def execXcalComplete (s : State) : Host.Outcome State Fault Refusal :=
  s.onOp (fun o =>
    match o.kind with
    | .eng .xcal d a b _ _ =>
      if !s.oldestOf o (OpKind.onTile (d.extractLsb' 0 2).toNat) then s else s.runXcal o d a b
    | _ => s)

/-- R297: A tile finishes an xmv or xmvt product, writing all tagged outputs or faulting. -/
def execXmvProductComplete (s : State) : Host.Outcome State Fault Refusal :=
  s.onOp (fun o =>
    match o.kind with
    | .eng .xmv d a b z _ =>
      if !s.oldestOf o (OpKind.onTile (d.extractLsb' 0 2).toNat) then s else s.runProduct o false d a b z
    | .eng .xmvt d a b z _ =>
      if !s.oldestOf o (OpKind.onTile (d.extractLsb' 0 2).toNat) then s else s.runProduct o true d a b z
    | _ => s)

/-- R149: A read of XBND returns the peak reference deviation and clears it. -/
def execXbndRead (s : State) : Host.Outcome State Fault Refusal :=
  match xbndRead { s with cur := .slot s.ev.g 0 } with
  | .ok (_, t) => .next { t with cur := s.cur }
  | .error _ => .next s

end Sys2Proof.Machine
end

