-- ==== Sys2Proof/Machine/Sreg.lean ====
section
/-! DEFINITION. Sys2Proof/Machine/Sreg.lean: majors 0x24 to 0x27: mfs, mts and every special register of R211, rdx and wrx;
the launch of a copy by a read of CGO, and the probe of the debug port (R31, R32, R72, R79, R91, R92, R135, R142, R149,
R172, R211 to R216, R238, R281, R342 to R346, R364, R369). -/

namespace Sys2Proof.Machine

/-! ### Reads (R211, R281) -/

/-- R91: PREC with CELLS. -/
def precValue (p : BitVec 10) : Word := BitVec.ofNat 64 (p.toNat + vfCells p.toNat * 2 ^ 16)

/-- R211: the value of a special register, but for the side effects of CGO and XBND. -/
def State.sregValue (s : State) (g k n : Nat) : Word :=
  let x := s.slot g k
  let c := s.core g
  match n with
  | 0x000 => BitVec.ofNat 64 k
  | 0x001 => s.coreValue g
  | 0x002 => BitVec.ofNat 64 c.cyc
  | 0x003 => BitVec.ofNat 64 (x.wbase.toNat + x.wlim.toNat * 2 ^ 16)
  | 0x004 => precValue x.prec
  | 0x005 => x.vctl
  | 0x006 => x.fctl
  | 0x007 => x.tshp
  | 0x008 => x.pred.setWidth 64
  | 0x010 => x.csrc
  | 0x011 => x.cdst
  | 0x012 => x.cstr1
  | 0x013 => x.cstr2
  | 0x014 => x.cdstr1
  | 0x015 => x.cdstr2
  | 0x016 => x.cdim
  | 0x017 => x.cbnd
  | 0x018 => x.ccvt
  | 0x019 => x.cdone
  | 0x01A => x.cval
  | 0x020 => x.cres
  | 0x021 => BitVec.ofNat 64 (s.inflight g k + x.cflags.toNat * 2 ^ 16)
  | 0x030 => x.bmem0
  | 0x031 => x.bmem1
  | 0x032 => x.bmem2
  | 0x033 => x.bmem3
  | 0x040 => x.task
  | 0x100 => x.wbase.setWidth 64
  | 0x101 => x.wlim.setWidth 64
  | 0x102 => c.tvec
  | 0x103 => x.tcause
  | 0x104 => x.tval
  | 0x105 => x.tepc
  | 0x106 => x.tstat
  | 0x108 => x.ks0
  | 0x109 => x.ks1
  | 0x10A => x.ks2
  | 0x10B => x.ks3
  | 0x10C => x.ks4
  | 0x10D => x.ks5
  | 0x10E => x.ks6
  | 0x10F => x.ks7
  | 0x110 => c.ptroot
  | 0x111 => c.asid
  | 0x112 => c.xcals
  | 0x113 => c.xbnd
  | 0x114 => c.smpl ||| BitVec.ofNat 64 (c.dump.isSome.toNat * 2 ^ 5)
  | 0x115 => c.spc
  | 0x116 => c.pstop
  | _ => s.vrSreg n

/-- R136, R214: a read of CGO launches the copy. -/
def cgoRead (i : Instr) (d : Name) : M Ctl := do
  let t ← cgoLaunch i
  writeName d { v := BitVec.ofNat 64 t, t := false }
  return .next

/-- R281: mfs. -/
def mfsOp (i : Instr) (d : Name) (n : Nat) : M Ctl := do
  if n = 0x01F then cgoRead i d
  else if n = 0x113 then
    let v ← xbndRead
    writeName d { v := v, t := false }
    return .next
  else
    let s ← get
    writeName d { v := s.sregValue s.gk.1 s.gk.2 n, t := false }
    return .next

/-! ### Writes (R8, R211, R214, R281) -/

/-- The executing slot's registers written. -/
def setMine (f : Slot → Slot) : M Ctl := do
  modify (fun s => s.setMe (f s.me))
  return .next

/-- The executing core's registers written. -/
def setOwn (f : Core → Core) : M Ctl := do
  modify (fun s => s.setCore s.gk.1 (f (s.core s.gk.1)))
  return .next

/-- The bits of an address register. -/
def mask49 (v : Word) : Word := v &&& 0x0001FFFFFFFFFFFF

/-- R281: mts of a value; reserved bits and read-only fields ignore it. PLEV of a Vrelell slot is always 2 (R372). -/
def sregWrite (i : Instr) (n : Nat) (v : Word) : M Ctl := do
  match n with
  | 0x004 =>
    let p := (v.extractLsb' 0 10).toNat
    if p < 8 || 1000 < p then illWord i
    setMine (fun x => { x with prec := v.setWidth 10 })
  | 0x005 =>
    if 5 ≤ (v.extractLsb' 1 3).toNat then illWord i
    setMine (fun x => { x with vctl := v &&& 0xF0F })
  | 0x006 =>
    if 5 ≤ (v.extractLsb' 0 3).toNat then illWord i
    setMine (fun x => { x with fctl := v &&& 0x1F1F07 })
  | 0x007 => setMine (fun x => { x with tshp := v &&& 0xFF3F })
  | 0x008 => setMine (fun x => { x with pred := v.setWidth 8 ||| 1 })
  | 0x010 => setMine (fun x => { x with csrc := mask49 v })
  | 0x011 => setMine (fun x => { x with cdst := mask49 v })
  | 0x012 => setMine (fun x => { x with cstr1 := v })
  | 0x013 => setMine (fun x => { x with cstr2 := v })
  | 0x014 => setMine (fun x => { x with cdstr1 := v })
  | 0x015 => setMine (fun x => { x with cdstr2 := v })
  | 0x016 => setMine (fun x => { x with cdim := v &&& 0x00FFFFFFFFFFFFFF })
  | 0x017 => setMine (fun x => { x with cbnd := mask49 v })
  | 0x018 => setMine (fun x => { x with ccvt := v &&& 0x7FF })
  | 0x019 => setMine (fun x => { x with cdone := mask49 v })
  | 0x01A => setMine (fun x => { x with cval := v &&& 0x00FFFFFFFFFFFFFF })
  | 0x021 => setMine (fun x => { x with cflags := v.extractLsb' 16 4 })
  | 0x040 => setMine (fun x => { x with task := mask49 v })
  | 0x100 => setMine (fun x => { x with wbase := v.setWidth 11 })
  | 0x101 => setMine (fun x => { x with wlim := v.setWidth 8 })
  | 0x102 => setOwn (fun c => { c with tvec := v &&& 0x0001FFFFFFFFFFFD })
  | 0x103 =>
    let s ← get
    let p := (v.extractLsb' 9 2).toNat
    if p = 3 || s.me.level.code < p then illWord i
    setMine (fun x => { x with tcause := if s.gk.1 = vrNum then (v &&& 0x9FF) ||| 0x400 else v &&& 0xFFF })
  | 0x104 => setMine (fun x => { x with tval := v })
  | 0x105 => setMine (fun x => { x with tepc := mask49 v })
  | 0x106 => setMine (fun x => { x with tstat := v &&& 0x0000FFFF07FF03FF })
  | 0x108 => setMine (fun x => { x with ks0 := v })
  | 0x109 => setMine (fun x => { x with ks1 := v })
  | 0x10A => setMine (fun x => { x with ks2 := v })
  | 0x10B => setMine (fun x => { x with ks3 := v })
  | 0x10C => setMine (fun x => { x with ks4 := v })
  | 0x10D => setMine (fun x => { x with ks5 := v })
  | 0x10E => setMine (fun x => { x with ks6 := v })
  | 0x10F => setMine (fun x => { x with ks7 := v })
  | 0x110 => setOwn (fun c => { c with ptroot := v &&& 0x0000FFFFFFF80001 })
  | 0x111 => setOwn (fun c => { c with asid := v &&& 0xFFFF })
  | 0x112 => setOwn (fun c => { c with xcals := v &&& 0xFFFF })
  | 0x114 =>
    if smplBad v then illWord i
    modify (fun s => s.smplWrite s.gk.1 v)
    return .next
  | 0x116 => setOwn (fun c => { c with pstop := (v &&& 0x8000000000000000) ||| (c.pstop &&& 0x7FFFFFFFFFFFFFFF) })
  | _ => if 0x200 ≤ n then vrSregWrite i n v else return .next

/-- R281: mts; a tagged source raises BND. -/
def mtsOp (i : Instr) (a : Name) (n : Nat) : M Ctl := do
  let v ← ctlOperand a
  sregWrite i n v

/-! ### rdx and wrx (R238) -/

/-- R238: the physical cell that an index reaches. -/
def indexOp (a : Name) (imm : BitVec 12) : M Nat := do
  let x ← ctlOperand a
  let v := x + imm.signExtend 64
  let s ← get
  if s.me.wlim.toNat ≤ v.toNat then trap cWBND v
  return (s.me.wbase.toNat + v.toNat) % numCells s.gk.1

/-- R238: rdx. -/
def rdxOp (d a : Name) (imm : BitVec 12) : M Ctl := do
  let c ← indexOp a imm
  let s ← get
  writeName d (s.cell s.gk.1 c)
  return .next

/-- R238: wrx. -/
def wrxOp (imm : BitVec 12) (a b : Name) : M Ctl := do
  let c ← indexOp a imm
  let y ← readName b
  modify (fun s => s.setCell s.gk.1 c y)
  return .next

/-! ### The probe (R364) -/

/-- A probe's write of a special register, as a Vrelell slot's mts would make it: the slot itself goes on as before, and
a check that fails writes nothing. -/
def State.probeWrite (s : State) (k n : Nat) (v : Word) : State :=
  match sregLevel vrNum n true with
  | none => s
  | some _ =>
    match sregWrite (.mts 0 (BitVec.ofNat 12 n)) n v { s with cur := .slot vrNum k } with
    | .ok (.stay, t) =>
      let t1 : State := { t with cur := s.cur, ops := t.ops.map (fun (o : Op) => if o.id < s.nextId then o
                                                                 else { o with live := false }) }
      t1.setSlot vrNum k (s.slot vrNum k)
    | .ok (_, t) => { t with cur := s.cur }
    | .error _ => s

/-- R364: one access of the probe, while the port is open. -/
def State.probeAccess (s : State) : Probe → State
  | .readMem a =>
    let r := if a.toNat % 8 ≠ 0 then none
      else match s.checkVrelell a.toNat 8 .load .plain with
        | .ok t => if (s.badWord t.pa 8).isSome then none else some (s.read64 t.pa)
        | .error _ => none
    { s with probeReads := r :: s.probeReads }
  | .writeMem a v =>
    if a.toNat % 8 ≠ 0 then s
    else match s.checkVrelell a.toNat 8 .store .plain with
      | .ok t => s.write64 t.pa v
      | .error _ => s
  | .readReg k n =>
    let r := (sregLevel vrNum n.toNat false).map (fun _ => s.sregValue vrNum k n.toNat)
    { s with probeReads := r :: s.probeReads }
  | .writeReg k n v => s.probeWrite k n.toNat v
  | .stop g k => if (s.slot g k).bound then s.stopSlot g k else s

/-! ### The instructions and events -/

/-- R281: Reads a special register into a cell. -/
def execMfs (d : Name) (i : BitVec 12) (s : State) : Host.Outcome State Fault Refusal :=
  issue (.mfs d i) (mfsOp (.mfs d i) d i.toNat) s

/-- R281: Writes a cell to a special register that has no row of its own, with its value checks. -/
def execMts (a : Name) (i : BitVec 12) (s : State) : Host.Outcome State Fault Refusal :=
  issue (.mts a i) (mtsOp (.mts a i) a i.toNat) s

/-- R238: Reads the window cell at a computed index, trapping WBND out of range. -/
def execRdx (d : Name) (a : Name) (i : BitVec 12) (s : State) : Host.Outcome State Fault Refusal :=
  issue (.rdx d a i) (rdxOp d a i) s

/-- R238: Writes the window cell at a computed index, trapping WBND out of range. -/
def execWrx (i : BitVec 12) (a : Name) (b : Name) (s : State) : Host.Outcome State Fault Refusal :=
  issue (.wrx i a b) (wrxOp i a b) s

/-- R136: A read of CGO checks the copy controls and launches the copy, returning its transfer id. -/
def execCgoLaunch (s : State) : Host.Outcome State Fault Refusal :=
  issue (.mfs s.ev.d 0x01F) (cgoRead (.mfs s.ev.d 0x01F) s.ev.d) s

/-- R364: A test access port probe issues a management-level access or pstop through the Vrelell core. -/
def execDebugProbeAccess (s : State) : Host.Outcome State Fault Refusal :=
  .next (if s.vr.dbgOpen then s.probeAccess s.ev.probe else s)

end Sys2Proof.Machine
end

