-- ==== Sys2Proof/Machine/Sys.lean ====
section
/-! DEFINITION. Sys2Proof/Machine/Sys.lean: the rest of major 0x39: trap, brk, eret, tlbinv, csave, crest and halt, and the
binding of a Vrelell slot (R74 to R76, R282 to R288, R381 to R383). -/

namespace Sys2Proof.Machine

/-- R282: trap. -/
def trapOp (c : BitVec 14) : M Ctl := halt' (.trapNext cTRAPI (c.setWidth 64))

/-- R282: brk. -/
def brkOp (c : BitVec 14) : M Ctl := trap cBRK (c.setWidth 64)

/-- R283: eret. -/
def eretOp (i : Instr) : M Ctl := do
  let s ← get
  if !s.me.inHandler then illWord i
  set (s.trapReturn s.gk.1 s.gk.2)
  return .stay

/-- R284: whether a walk in flight of a core is for an address, by the page that it leads to, or is any walk when no address is
named. -/
def State.walkFor (s : State) (g : Nat) (va : Option Nat) (o : Op) : Bool :=
  o.g = g && (match o.kind, va with
    | .walk _ _, none => true
    | .walk w _, some a => (match s.walk g o.ptroot w with
      | .ok l => w / 2 ^ l.shift = a / 2 ^ l.shift
      | .error _ => w / 4096 = a / 4096)
    | _, _ => false)

/-- R284: the result of a walk in flight is discarded: the access that waits for it is issued again and walks afresh. -/
def State.discardWalks (s : State) (g : Nat) (va : Option Nat) : State :=
  (s.ops.filter (s.walkFor g va)).foldl (fun t o =>
    let u := t.dropOp o.id
    if (u.slot o.g o.k).blocked = some (.walk o.id) then u.setSlot o.g o.k { u.slot o.g o.k with blocked := none } else u) s

/-- R284: tlbinv. -/
def tlbinvOp (a : Name) : M Ctl := do
  let va ← ctlOperand a
  waitFor 15 0 15 15
  let s ← get
  let c := s.core s.gk.1
  if va = 0 then set ((s.setCore s.gk.1 { c with tlb := [] }).discardWalks s.gk.1 none)
  else
    if va.extractLsb' 49 15 ≠ 0 then trap cXLT va
    set ((s.setCore s.gk.1 { c with tlb := c.tlb.filter (fun e =>
      !(e.asid = c.asid.setWidth 16 && e.va / 2 ^ e.shift = va.toNat / 2 ^ e.shift)) }).discardWalks s.gk.1 (some va.toNat))
  return .next

/-! ### csave (R285, R381, R382) -/

/-- R382: a blocked instruction of a slot whose operation is not yet applied is withdrawn: the port words it has taken are
back in their queues, and a withdrawn sync takes its count back. So is the node operation of a task kill, which the kill sends
again; a kill whose node operation has been applied ends (R377). -/
def State.withdraw (s : State) (g k : Nat) : State :=
  let go (s : State) : State := s.setSlot g k { s.slot g k with blocked := none }
  match (s.slot g k).blocked with
  | none | some (.dying _ _) | some (.stopping _) => s
  | some (.killNode id stopped e) =>
    if (s.op? id).isSome then (s.dropOp id).setSlot g k { s.slot g k with blocked := some (.dying stopped e) }
    else s.killDone g k stopped
  | some (.answer id) | some (.walk id) => match s.op? id with
    | some o => go ((s.endOp o).putBack g k)
    | none => go s
  | some .sync => go (s.unsync g k)
  | some _ => go s

/-- The scratch bytes of a core. -/
def State.scratchCells (s : State) (g : Nat) : List Host.Cell :=
  s.mem.filter (fun e => scrBase g ≤ e.1 && e.1 < scrBase g + 2 ^ 20)

/-- The tags of a core's scratch words. -/
def State.scratchTags (s : State) (g : Nat) : Sparse (BitVec 3) :=
  s.tags.filter (fun e => scrBase g / 8 ≤ e.1 && e.1 < scrBase g / 8 + 2 ^ 17)

/-- R75: the waits that are pending at barrier objects in a core's scratch. -/
def State.pendingAt (s : State) (g : Nat) : List Op :=
  s.ops.filter (fun o => match o.kind with
    | .barPending pa _ _ _ _ => ownerOf pa = g
    | _ => false)

/-- R76: the record of a slot: that of a vacant slot is zero. -/
def Slot.record (x : Slot) : Slot := if x.bound then x else {}

/-- R285: the save area of a core is written, the issuing slot's record with PC = A + 4. -/
def State.saveCore (s : State) (g k : Nat) : State :=
  let s1 := ((s.core g).slots.map (·.1)).foldl (fun s j => if j = k then s else s.withdraw g j) s
  let (n, s2) := s1.draw
  let c := s2.core g
  let x := s2.slot g k
  let img : Core := { c with
    slots := (Sparse.put c.slots k { x with pc := x.pc + 4, blocked := none }).map (fun e => (e.1, e.2.record)) }
  let im : SaveImage := {
    core := img, scratch := s2.scratchCells g, stags := s2.scratchTags g, seq := c.saveSeq + 1,
    coreValue := s2.coreValue g, seed := n, key := (s2.partOf g).bind (fun p => (s2.part p).key), written := [],
    nextId := s2.nextId, barPend := s2.pendingAt g }
  let s3 : State := { s2 with saves := Sparse.put s2.saves g im }
  s3.setCore g { c with saveSeq := c.saveSeq + 1 }

/-- R285: csave freezes its core, waits for the engines, and writes the save area. -/
def csaveOp : M Ctl := do
  let s ← get
  let g := s.gk.1
  let k := s.gk.2
  let s1 := s.setCore g { s.core g with frozen := some k }
  if s1.enginesBusy g then
    set (s1.setMe { s1.me with blocked := some .engines })
    return .hold
  else
    set (s1.saveCore g k)
    return .next

/-! ### crest (R286, R383) -/

/-- The physical address of a core's save area (R74). -/
def saveArea (g : Nat) : Nat := chanBase g + saveOff

/-- R383: the operations of a class that a slot issued before a save and that are still in flight. -/
def State.stillOut (s : State) (g k nextId : Nat) (c : CClass) : Nat :=
  (s.ops.filter (fun o => o.live && o.g = g && o.k = k && o.cls = some c && o.id < nextId)).length

/-- R383: a class whose operations a reset discarded gives a pending SOFT 0x02; the spec gives the fault's SEQ, MAJOR and FN
no value (log 27). -/
def State.lostFault (s : State) (x : Slot) (c : CClass) : Slot × State :=
  if x.count c = 0 then (x, s)
  else
    let (n, s1) := s.draw
    let w := Config.freeWord n
    (x.addPending { order := s.nextId, code := cSOFT, val := 0, cls := c, seq := (w.extractLsb' 0 16).toNat, sub := 2,
                    major := (w.extractLsb' 16 6).toNat, fn := (w.extractLsb' 22 5).toNat },
     { s1 with nextId := s1.nextId + 1 })

/-- R32, R76, R286, R383: one slot restored: its allocation is the window of its saved WIN, BASE div 8 and SIZE div 8 rounded
up. R32 does not say which units a BASE that is no multiple of 8 gives; these are the model's (log 74). What the slot has
that the save area gives no field is restored as it was saved: DROP of mq, the gang membership and the syncs issued, the
memberships that migrated, a port word to be discarded, and the bound tags of the port words, for which PORTS has no room (log
75). last is the slot's last issue, from which R27 goes on to
count. -/
def State.restoreSlot (s : State) (g k : Nat) (im : SaveImage) (x : Slot) (last : Option Nat) : State :=
  let y : Slot := { x with allocBase := x.wbase.toNat / 8, allocUnits := (x.wlim.toNat + 7) / 8, lastIssue := last,
                           yieldTo := none, yieldFor := [], taken := [], fetched := none, since := none,
                           portDst := none }
  if im.seq = (s.core g).saveSeq then
    s.setSlot g k { y with loads := s.stillOut g k im.nextId .loads, stores := s.stillOut g k im.nextId .stores,
                           copies := 0, tiles := 0 }
  else
    let (y1, s1) := s.lostFault y .loads
    let (y2, s2) := s1.lostFault y1 .stores
    s2.setSlot g k { y2 with loads := 0, stores := 0, copies := 0, tiles := 0 }

/-- R286: the core restored from an area whose checks have passed. A wait that was pending at one of its barrier objects and
that a reset has discarded is pending again (R75); the thread that issued it is gone. A scratch word with an uncorrectable error
is saved with the bytes that it holds, and restored with fresh check bits, without SOFT: R61 and R392 do not say what csave
does with it (log 90). -/
def State.restoreCore (s : State) (g : Nat) (im : SaveImage) : State :=
  let inScr (a : Nat) : Bool := scrBase g ≤ a && a < scrBase g + 2 ^ 20
  let mem := im.scratch.foldl (fun m e => Memory.put m e.1 e.2) (s.mem.filter (fun e => !inScr e.1))
  let tags := im.stags.foldl (fun m e => Sparse.put m e.1 e.2) (s.tags.filter (fun e => !inScr (8 * e.1)))
  let c := s.core g
  let d := im.core
  let s1 : State := { s with
    mem := mem, tags := tags, bad := s.bad.filter (fun w => !inScr (8 * w)),
    ops := s.ops.map (fun (o : Op) => if o.g = g && im.nextId ≤ o.id then { o with live := false } else o)
      ++ (im.barPend.filter (fun o => (s.op? o.id).isNone)).map (fun (o : Op) => { o with live := false }) }
  let s2 := s1.setCore g { c with
    slots := c.slots.map (fun e => (e.1, ({ lastIssue := e.2.lastIssue } : Slot))), rf := d.rf,
    mailbox := d.mailbox, ptroot := d.ptroot, asid := d.asid, shadow := d.shadow,
    dqHigh := d.dqHigh, dqNorm := d.dqNorm, acc := d.acc, tiles := [], frozen := none }
  d.slots.foldl (fun t e => t.restoreSlot g e.1 im e.2 (s.slot g e.1).lastIssue) s2

/-- R286: crest. An area that no csave has written holds no valid header; one that has been written since, or under
another key, fails the integrity check (log 10). -/
def crestOp : M Ctl := do
  let s ← get
  let g := s.gk.1
  let area : Word := BitVec.ofNat 64 (saveArea g)
  match s.saves.find? (fun e => e.1 = g) with
  | none => trap cILL area
  | some (_, im) =>
    if im.coreValue ≠ s.coreValue g then trap cILL area
    if !im.written.isEmpty || im.key ≠ (s.partOf g).bind (fun p => (s.part p).key) then trap cPERM area
    set (s.restoreCore g im)
    return .stay

/-- R156, R288: halt stops its slot, or ends a mason unit's overlay. -/
def haltOp : M Ctl := do
  let s ← get
  match s.cur with
  | .mason g =>
    set (s.masonEnd g)
    return .stay
  | .slot _ _ => haltSlot

/-! ### Vrelell slots (R288) -/

/-- R36, R288: the management firmware binds a vacant Vrelell slot to an image, with the window and the entry that a
record's second word names, at management level. -/
def State.vrelellBind (s : State) (k : Nat) (image ctl : Word) (args : List Word) : State :=
  let r : TaskRec := { image := image, ctl := ctl, a0 := args.getD 0 0, a1 := args.getD 1 0, a2 := args.getD 2 0,
                       a3 := args.getD 3 0 }
  match r.check 0 with
  | .error _ => s
  | .ok _ =>
    if 4 ≤ k || (s.slot vrNum k).bound then s
    else match s.firstFit vrNum r.units with
      | some b => s.bindTask vrNum k r b .mgmt none
      | none => s

/-! ### The instructions and events -/

/-- R282: Raises TRAPI with the code, returning after the instruction. -/
def execTrap (c : BitVec 14) (s : State) : Host.Outcome State Fault Refusal :=
  issue (.trap c) (trapOp c) s

/-- R282: Raises BRK with the code, returning to the instruction itself. -/
def execBrk (c : BitVec 14) (s : State) : Host.Outcome State Fault Refusal :=
  issue (.brk c) (brkOp c) s

/-- R283: Returns from the trap handler to TEPC at the saved level. -/
def execEret (s : State) : Host.Outcome State Fault Refusal :=
  issue .eret (eretOp .eret) s

/-- R284: Waits for stores and invalidates all or matching translation buffer entries of the core. -/
def execTlbinv (a : Name) (s : State) : Host.Outcome State Fault Refusal :=
  issue (.tlbinv a) (tlbinvOp a) s

/-- R285: Freezes the core, drains its engines and writes the save area. -/
def execCsave (s : State) : Host.Outcome State Fault Refusal :=
  issue .csave (csaveOp) s

/-- R286: Checks the save area and restores the core from it, ending the freeze. -/
def execCrest (s : State) : Host.Outcome State Fault Refusal :=
  issue .crest (crestOp) s

/-- R288: Waits and stops the issuing slot, or ends a mason overlay. -/
def execHalt (s : State) : Host.Outcome State Fault Refusal :=
  issue .halt (haltOp) s

/-- R288: The management firmware binds a vacant Vrelell slot again after it halted. -/
def execVrelellSlotBind (s : State) : Host.Outcome State Fault Refusal :=
  .next (s.vrelellBind s.ev.k s.ev.v (BitVec.ofNat 64 s.ev.off) s.ev.args)

end Sys2Proof.Machine
end

