-- ==== Sys2Proof/Machine/Vec.lean ====
section
/-! DEFINITION. Sys2Proof/Machine/Vec.lean: majors 0x2C, 0x2D and 0x2E: vectors of 16 lanes (R257 to R262). -/

namespace Sys2Proof.Machine

/-- R257: the tags of a lane-wise result, cell by cell. -/
def orTags (x y : List Bool) : List Bool := (x.zip y).map (fun e => e.1 || e.2)

/-- R257: the tags of a cross-lane result: every cell carries the OR. -/
def allTags (b : Bool) : List Bool := List.replicate 8 b

/-- R257, R259: a lane-wise operation of two vectors. -/
def v2Op (d a b : Name) (f : BitVec 32 → BitVec 32 → BitVec 32) : M Ctl := do
  let x ← readVec a
  let y ← readVec b
  writeVec d ((x.1.zip y.1).map (fun e => f e.1 e.2)) (orTags x.2 y.2)
  return .next

/-- R243, R261: a lane-wise float operation of two vectors; the flags of the 16 lanes are gathered. -/
def vf2Op (d a b : Name) (f : Nat → BitVec 32 → BitVec 32 → BitVec 32 × Fl) : M Ctl := do
  let x ← readVec a
  let y ← readVec b
  let m ← fctlMode
  let r := (x.1.zip y.1).map (fun e => f m e.1 e.2)
  raiseFl (r.foldl (fun fl e => fl ||| e.2) 0)
  writeVec d (r.map (·.1)) (orTags x.2 y.2)
  return .next

/-- R243, R261: a lane-wise float operation of one vector. -/
def vf1Op (d a : Name) (f : Nat → BitVec 32 → BitVec 32 × Fl) : M Ctl := do
  let x ← readVec a
  let m ← fctlMode
  let r := x.1.map (f m)
  raiseFl (r.foldl (fun fl e => fl ||| e.2) 0)
  writeVec d (r.map (·.1)) x.2
  return .next

/-- R260: the dot product of four signed bytes. -/
def dot8 (x y : BitVec 32) : BitVec 32 :=
  let t (k : Nat) : Int := (x.extractLsb' (8 * k) 8).toInt * (y.extractLsb' (8 * k) 8).toInt
  BitVec.ofInt 32 (t 0 + t 1 + t 2 + t 3)

/-- All ones or zero. -/
def maskOf (b : Bool) : BitVec 32 := if b then BitVec.allOnes 32 else 0

/-- R96: the tree of v.sum.i32. -/
def sumTree32 (ls : List (BitVec 32)) : BitVec 32 :=
  (treeSum (fun x y => (x + y) &&& 0xFFFFFFFF) 4 (ls.map (·.setWidth 64))).setWidth 32

/-- R96: one level of the tree of v.sum.f32, with its flags. -/
def fPair (m : Nat) : List (BitVec 32) → List (BitVec 32) × Fl
  | x :: y :: t =>
    let r := fAdd m x y
    let q := fPair m t
    (r.1 :: q.1, r.2 ||| q.2)
  | l => (l, 0)

/-- R96: the tree of v.sum.f32. -/
def fTree (m : Nat) : Nat → List (BitVec 32) → BitVec 32 × Fl
  | 0, l => (l.headD 0, 0)
  | n + 1, l =>
    let q := fPair m l
    let r := fTree m n q.1
    (r.1, q.2 ||| r.2)

/-- R261, v.max0. -/
def fMax0 (x : BitVec 32) : BitVec 32 × Fl :=
  if (num32 x).isNan then (nan32, snan32 x) else if numLt (.fin false 0 0) (num32 x) then (x, 0) else (0, 0)

/-- R259, v.sel: lane from a where b is nonzero, else unchanged. -/
def selOp (d a b : Name) : M Ctl := do
  let x ← readVec a
  let y ← readVec b
  let z ← readVec d
  writeVec d (((x.1.zip y.1).zip z.1).map (fun e => if e.1.2 ≠ 0 then e.1.1 else e.2)) (orTags (orTags x.2 y.2) z.2)
  return .next

/-- R261, v.fma.f32: one rounding in each lane. -/
def vFmaOp (d a b : Name) : M Ctl := do
  let x ← readVec a
  let y ← readVec b
  let z ← readVec d
  let m ← fctlMode
  let r := ((x.1.zip y.1).zip z.1).map (fun e => fFma m e.1.1 e.1.2 e.2)
  raiseFl (r.foldl (fun fl e => fl ||| e.2) 0)
  writeVec d (r.map (·.1)) (orTags (orTags x.2 y.2) z.2)
  return .next

/-- R260, v.sum.i32. -/
def sumIOp (d a : Name) : M Ctl := do
  let x ← readVec a
  writeName d { v := (sumTree32 x.1).signExtend 64, t := x.2.any id }
  return .next

/-- R96, R261, v.sum.f32. -/
def sumFOp (d a : Name) : M Ctl := do
  let x ← readVec a
  let m ← fctlMode
  let r := fTree m 4 x.1
  raiseFl r.2
  writeName d { v := r.1.setWidth 64, t := x.2.any id }
  return .next

/-- R259, v.bcast. -/
def bcastOp (d a : Name) : M Ctl := do
  let x ← readName a
  writeVec d (List.replicate 16 (low32 x.v)) (allTags x.t)
  return .next

/-- R259, v.perm. -/
def permOp (d a b : Name) : M Ctl := do
  let x ← readVec a
  let y ← readVec b
  writeVec d (y.1.map (fun j => x.1.getD (j.toNat % 16) 0)) (allTags (x.2.any id || y.2.any id))
  return .next

/-- R260, v.ext. -/
def extOp (d a b : Name) : M Ctl := do
  let x ← readVec a
  let y ← readName b
  writeName d { v := (x.1.getD (y.v.toNat % 16) 0).setWidth 64, t := x.2.any id || y.t }
  return .next

/-- R257, R260, v.ins: only the cell that holds the lane changes, with the OR of the tags of every cell read: the scalar,
the index, and the eight cells of d. -/
def insOp (d a b : Name) : M Ctl := do
  let x ← readName a
  let y ← readName b
  let z ← readVec d
  let j := y.v.toNat % 16
  writeVec d (z.1.set j (low32 x.v)) (z.2.set (j / 2) (x.t || y.t || z.2.any id))
  return .next

/-- R258: every lane the same value, tags clear. -/
def liOp (d : Name) (i : BitVec 19) : M Ctl := do
  writeVec d (List.replicate 16 (i.signExtend 32)) (allTags false)
  return .next

/-- R259: Adds i32 lanes modulo 2^32. -/
def execVAddI32 (d : Name) (a : Name) (b : Name) (s : State) : Host.Outcome State Fault Refusal :=
  issue (.vAddI32 d a b) (v2Op d a b (fun x y => x + y)) s

/-- R259: Subtracts i32 lanes modulo 2^32. -/
def execVSubI32 (d : Name) (a : Name) (b : Name) (s : State) : Host.Outcome State Fault Refusal :=
  issue (.vSubI32 d a b) (v2Op d a b (fun x y => x - y)) s

/-- R259: Multiplies i32 lanes, keeping the low 32 bits. -/
def execVMulI32 (d : Name) (a : Name) (b : Name) (s : State) : Host.Outcome State Fault Refusal :=
  issue (.vMulI32 d a b) (v2Op d a b (fun x y => x * y)) s

/-- R259: Takes the signed minimum of i32 lanes. -/
def execVMinI32 (d : Name) (a : Name) (b : Name) (s : State) : Host.Outcome State Fault Refusal :=
  issue (.vMinI32 d a b) (v2Op d a b (fun x y => if x.sle y then x else y)) s

/-- R259: Takes the signed maximum of i32 lanes. -/
def execVMaxI32 (d : Name) (a : Name) (b : Name) (s : State) : Host.Outcome State Fault Refusal :=
  issue (.vMaxI32 d a b) (v2Op d a b (fun x y => if y.sle x then x else y)) s

/-- R259: ANDs lanes. -/
def execVAnd (d : Name) (a : Name) (b : Name) (s : State) : Host.Outcome State Fault Refusal :=
  issue (.vAnd d a b) (v2Op d a b (fun x y => x &&& y)) s

/-- R259: ORs lanes. -/
def execVOr (d : Name) (a : Name) (b : Name) (s : State) : Host.Outcome State Fault Refusal :=
  issue (.vOr d a b) (v2Op d a b (fun x y => x ||| y)) s

/-- R259: XORs lanes. -/
def execVXor (d : Name) (a : Name) (b : Name) (s : State) : Host.Outcome State Fault Refusal :=
  issue (.vXor d a b) (v2Op d a b (fun x y => x ^^^ y)) s

/-- R259: Shifts lanes left by per-lane counts. -/
def execVShl (d : Name) (a : Name) (b : Name) (s : State) : Host.Outcome State Fault Refusal :=
  issue (.vShl d a b) (v2Op d a b (fun x y => x <<< (y.toNat % 32))) s

/-- R259: Shifts lanes right logically. -/
def execVShr (d : Name) (a : Name) (b : Name) (s : State) : Host.Outcome State Fault Refusal :=
  issue (.vShr d a b) (v2Op d a b (fun x y => x >>> (y.toNat % 32))) s

/-- R259: Shifts lanes right arithmetically. -/
def execVSra (d : Name) (a : Name) (b : Name) (s : State) : Host.Outcome State Fault Refusal :=
  issue (.vSra d a b) (v2Op d a b (fun x y => x.sshiftRight (y.toNat % 32))) s

/-- R260: Writes per-lane exact dot products of four signed byte pairs. -/
def execVDot8 (d : Name) (a : Name) (b : Name) (s : State) : Host.Outcome State Fault Refusal :=
  issue (.vDot8 d a b) (v2Op d a b (fun x y => dot8 x y)) s

/-- R259: Writes all-ones mask lanes where i32 lanes are equal. -/
def execVCmpeqI32 (d : Name) (a : Name) (b : Name) (s : State) : Host.Outcome State Fault Refusal :=
  issue (.vCmpeqI32 d a b) (v2Op d a b (fun x y => maskOf (x = y))) s

/-- R259: Writes all-ones mask lanes where a is signed-less than b. -/
def execVCmpltI32 (d : Name) (a : Name) (b : Name) (s : State) : Host.Outcome State Fault Refusal :=
  issue (.vCmpltI32 d a b) (v2Op d a b (fun x y => maskOf (x.slt y))) s

/-- R260: Sums 16 i32 lanes by the fixed tree into one cell. -/
def execVSumI32 (d : Name) (a : Name) (s : State) : Host.Outcome State Fault Refusal :=
  issue (.vSumI32 d a) (sumIOp d a) s

/-- R259: Copies the low 32 bits of a cell into every lane. -/
def execVBcast (d : Name) (a : Name) (s : State) : Host.Outcome State Fault Refusal :=
  issue (.vBcast d a) (bcastOp d a) s

/-- R259: Permutes lanes by per-lane indices. -/
def execVPerm (d : Name) (a : Name) (b : Name) (s : State) : Host.Outcome State Fault Refusal :=
  issue (.vPerm d a b) (permOp d a b) s

/-- R259: Selects lanes of a into d where the mask lane is nonzero. -/
def execVSel (d : Name) (a : Name) (b : Name) (s : State) : Host.Outcome State Fault Refusal :=
  issue (.vSel d a b) (selOp d a b) s

/-- R260: Extracts one lane into a cell, zero-extended. -/
def execVExt (d : Name) (a : Name) (b : Name) (s : State) : Host.Outcome State Fault Refusal :=
  issue (.vExt d a b) (extOp d a b) s

/-- R260: Inserts the low 32 bits of a cell into one lane. -/
def execVIns (d : Name) (a : Name) (b : Name) (s : State) : Host.Outcome State Fault Refusal :=
  issue (.vIns d a b) (insOp d a b) s

/-- R261: Adds FP32 lanes, trapping FPX over all lanes. -/
def execVAddF32 (d : Name) (a : Name) (b : Name) (s : State) : Host.Outcome State Fault Refusal :=
  issue (.vAddF32 d a b) (vf2Op d a b (fAdd)) s

/-- R261: Subtracts FP32 lanes. -/
def execVSubF32 (d : Name) (a : Name) (b : Name) (s : State) : Host.Outcome State Fault Refusal :=
  issue (.vSubF32 d a b) (vf2Op d a b (fSub)) s

/-- R261: Multiplies FP32 lanes. -/
def execVMulF32 (d : Name) (a : Name) (b : Name) (s : State) : Host.Outcome State Fault Refusal :=
  issue (.vMulF32 d a b) (vf2Op d a b (fMul)) s

/-- R261: Takes the lesser FP32 lane as f.min. -/
def execVMinF32 (d : Name) (a : Name) (b : Name) (s : State) : Host.Outcome State Fault Refusal :=
  issue (.vMinF32 d a b) (vf2Op d a b (fun _ => fMinMax false)) s

/-- R261: Takes the greater FP32 lane as f.max. -/
def execVMaxF32 (d : Name) (a : Name) (b : Name) (s : State) : Host.Outcome State Fault Refusal :=
  issue (.vMaxF32 d a b) (vf2Op d a b (fun _ => fMinMax true)) s

/-- R261: Writes all-ones mask lanes where A < B as FP32, signalling. -/
def execVCmpltF32 (d : Name) (a : Name) (b : Name) (s : State) : Host.Outcome State Fault Refusal :=
  issue (.vCmpltF32 d a b) (vf2Op d a b (fun _ x y => (maskOf (numLt (num32 x) (num32 y)), nvIf ((num32 x).isNan || (num32 y).isNan)))) s

/-- R261: Computes A·B + D per FP32 lane with one rounding. -/
def execVFmaF32 (d : Name) (a : Name) (b : Name) (s : State) : Host.Outcome State Fault Refusal :=
  issue (.vFmaF32 d a b) (vFmaOp d a b) s

/-- R261: Sums 16 FP32 lanes by the fixed tree of R96 into one cell. -/
def execVSumF32 (d : Name) (a : Name) (s : State) : Host.Outcome State Fault Refusal :=
  issue (.vSumF32 d a) (sumFOp d a) s

/-- R261: Writes the rounded reciprocal of each FP32 lane. -/
def execVRcpF32 (d : Name) (a : Name) (s : State) : Host.Outcome State Fault Refusal :=
  issue (.vRcpF32 d a) (vf1Op d a (fun m x => fDiv m 0x3F800000 x)) s

/-- R261: Converts signed 32-bit lanes to FP32. -/
def execVCvtFi (d : Name) (a : Name) (s : State) : Host.Outcome State Fault Refusal :=
  issue (.vCvtFi d a) (vf1Op d a (fun m x => fOfInt m x.toInt)) s

/-- R261: Converts FP32 lanes to saturated int32. -/
def execVCvtIf (d : Name) (a : Name) (s : State) : Host.Outcome State Fault Refusal :=
  issue (.vCvtIf d a) (vf1Op d a (fun m x => (BitVec.ofInt 32 (numToInt m 32 { x := num32 x }).1, (numToInt m 32 { x := num32 x }).2))) s

/-- R261: Converts FP32 lanes to BF16. -/
def execVCvtBf (d : Name) (a : Name) (s : State) : Host.Outcome State Fault Refusal :=
  issue (.vCvtBf d a) (vf1Op d a (fun m x => ((bf16Of m x).1.setWidth 32, (bf16Of m x).2))) s

/-- R261: Converts BF16 lanes to FP32. -/
def execVCvtFb (d : Name) (a : Name) (s : State) : Host.Outcome State Fault Refusal :=
  issue (.vCvtFb d a) (vf1Op d a (fun _ x => f32OfBf16 (x.extractLsb' 0 16))) s

/-- R261: Writes each FP32 lane if positive, else +0, with NaN canonicalised. -/
def execVMax0 (d : Name) (a : Name) (s : State) : Host.Outcome State Fault Refusal :=
  issue (.vMax0 d a) (vf1Op d a (fun _ x => fMax0 x)) s

/-- R258: Writes a sign-extended 19-bit immediate into every lane and clears tags. -/
def execVLi (d : Name) (i : BitVec 19) (s : State) : Host.Outcome State Fault Refusal :=
  issue (.vLi d i) (liOp d i) s

end Sys2Proof.Machine
end

