-- ==== Sys2Proof/Machine/Vf.lean ====
section
/-! DEFINITION. Sys2Proof/Machine/Vf.lean: major 0x29: variable-precision arithmetic (R249 to R253). -/

namespace Sys2Proof.Machine

/-- R249: a VF source read whole: its value, NV if it is malformed, and the OR of its tags. -/
def vfIn (n : Name) : M (FNum × Vl × Bool) := fun s =>
  let cs := s.vfCellsOf n
  let x := vfValue (cs.map (·.v))
  .ok ((x.1, x.2, cs.any (·.t)), s)

/-- R252: vfout: the result rounded once to PREC.P bits and written as k(p) cells. -/
def vfOut (d : Name) (r : Exact) (fl : Vl) (t : Bool) : M Ctl := do
  let s ← get
  let p := s.me.prec.toNat
  let q := vfRound p s.vctlMode r
  raiseVl (fl ||| q.2)
  modify (fun s => s.setGroup d ((vfImage q.1 (vfCells p)).map (fun v => { v := v, t := t })))
  return .next

/-- NV as a flag of VCTL. -/
def vlNvIf (b : Bool) : Vl := if b then vlNV else 0

/-- R250: an operation of two VF values: the exact result and its own flags, for a precision and a mode. -/
def vf2 (d a b : Name) (f : Nat → Nat → FNum → FNum → Exact × Vl) : M Ctl := do
  let x ← vfIn a
  let y ← vfIn b
  let s ← get
  let r := f s.me.prec.toNat s.vctlMode x.1 y.1
  vfOut d r.1 (r.2 ||| x.2.1 ||| y.2.1) (x.2.2 || y.2.2)

/-- R250: an operation of one VF value. -/
def vf1 (d a : Name) (f : Nat → FNum → Exact × Vl) : M Ctl := do
  let x ← vfIn a
  let s ← get
  let r := f s.me.prec.toNat x.1
  vfOut d r.1 (r.2 ||| x.2.1) x.2.2

/-- R250, R251: the sum, for vf.add and vf.sub. -/
def vfSum (mode : Nat) (x y : FNum) : Exact × Vl :=
  let t := x.add mode y
  ({ x := t.1 }, vlNvIf t.2)

/-- The magnitude of a number. -/
def FNum.abs : FNum → FNum
  | .nan => .nan
  | .inf _ => .inf false
  | .fin _ m e => .fin false m e

/-- R250: vf.fma. -/
def vfFmaOp (d a b : Name) : M Ctl := do
  let x ← vfIn a
  let y ← vfIn b
  let z ← vfIn d
  let s ← get
  let t := FNum.fma s.vctlMode x.1 y.1 z.1
  vfOut d { x := t.1 } (vlNvIf t.2 ||| x.2.1 ||| y.2.1 ||| z.2.1) (x.2.2 || y.2.2 || z.2.2)

/-- R250: vf.rnd: one rounding to an integer of at most p bits, then written as it is. -/
def vfRndOp (d a : Name) : M Ctl := do
  let x ← vfIn a
  let s ← get
  let p := s.me.prec.toNat
  let q := vfRndInt p s.vctlMode x.1
  raiseVl (x.2.1 ||| q.2)
  modify (fun s => s.setGroup d ((vfImage q.1 (vfCells p)).map (fun v => { v := v, t := x.2.2 })))
  return .next

/-- R250: vf.from.f and vf.from.i. -/
def vfFromOp (d a : Name) (f : Word → FNum × Vl) : M Ctl := do
  let x ← readName a
  let r := f x.v
  vfOut d { x := r.1 } r.2 x.t

/-- R250, R251: vf.to.f and vf.to.i: one cell, with flags in VCTL. -/
def vfToOp (d a : Name) (f : Nat → FNum → Word × Fl) : M Ctl := do
  let x ← vfIn a
  let s ← get
  let r := f s.vctlMode x.1
  raiseVl (x.2.1 ||| vlOf r.2)
  writeName d { v := r.1, t := x.2.2 }
  return .next

/-- R250: Adds two VF values with one rounding to PREC.P bits. -/
def execVfAdd (d : Name) (a : Name) (b : Name) (s : State) : Host.Outcome State Fault Refusal :=
  issue (.vfAdd d a b) (vf2 d a b (fun _ m x y => vfSum m x y)) s

/-- R250: Subtracts two VF values with one rounding. -/
def execVfSub (d : Name) (a : Name) (b : Name) (s : State) : Host.Outcome State Fault Refusal :=
  issue (.vfSub d a b) (vf2 d a b (fun _ m x y => vfSum m x y.neg)) s

/-- R250: Multiplies two VF values with one rounding. -/
def execVfMul (d : Name) (a : Name) (b : Name) (s : State) : Host.Outcome State Fault Refusal :=
  issue (.vfMul d a b) (vf2 d a b (fun _ _ x y => ({ x := (x.mul y).1 }, vlNvIf (x.mul y).2))) s

/-- R250: Divides two VF values with one rounding. -/
def execVfDiv (d : Name) (a : Name) (b : Name) (s : State) : Host.Outcome State Fault Refusal :=
  issue (.vfDiv d a b) (vf2 d a b (fun p _ x y => ((FNum.div p x y).1, vlNvIf ((FNum.div p x y).2 &&& flNV ≠ 0)))) s

/-- R250: Takes a VF square root with one rounding. -/
def execVfSqrt (d : Name) (a : Name) (s : State) : Host.Outcome State Fault Refusal :=
  issue (.vfSqrt d a) (vf1 d a (fun p x => ((FNum.sqrt p x).1, vlNvIf (FNum.sqrt p x).2))) s

/-- R250: Computes X·Y + Z of VF values with one rounding. -/
def execVfFma (d : Name) (a : Name) (b : Name) (s : State) : Host.Outcome State Fault Refusal :=
  issue (.vfFma d a b) (vfFmaOp d a b) s

/-- R250: Negates a VF value, rounded to the current precision. -/
def execVfNeg (d : Name) (a : Name) (s : State) : Host.Outcome State Fault Refusal :=
  issue (.vfNeg d a) (vf1 d a (fun _ x => ({ x := x.neg }, 0))) s

/-- R250: Takes the magnitude of a VF value, rounded to the current precision. -/
def execVfAbs (d : Name) (a : Name) (s : State) : Host.Outcome State Fault Refusal :=
  issue (.vfAbs d a) (vf1 d a (fun _ x => ({ x := x.abs }, 0))) s

/-- R250: Rounds a VF value to an integer of at most p bits in one step. -/
def execVfRnd (d : Name) (a : Name) (s : State) : Host.Outcome State Fault Refusal :=
  issue (.vfRnd d a) (vfRndOp d a) s

/-- R250: Converts an FP32 cell to VF. -/
def execVfFromF (d : Name) (a : Name) (s : State) : Host.Outcome State Fault Refusal :=
  issue (.vfFromF d a) (vfFromOp d a (fun v => (num32 (v.extractLsb' 0 32), vlNvIf (snan32 (v.extractLsb' 0 32) ≠ 0)))) s

/-- R250: Converts an int64 cell to VF. -/
def execVfFromI (d : Name) (a : Name) (s : State) : Host.Outcome State Fault Refusal :=
  issue (.vfFromI d a) (vfFromOp d a (fun v => (numOfInt v.toInt, 0))) s

/-- R250: Converts a VF value to FP32 in the VCTL mode. -/
def execVfToF (d : Name) (a : Name) (s : State) : Host.Outcome State Fault Refusal :=
  issue (.vfToF d a) (vfToOp d a (fun m x => ((rnd32 m { x := x }).1.setWidth 64, (rnd32 m { x := x }).2))) s

/-- R250: Converts a VF value to a saturated int64. -/
def execVfToI (d : Name) (a : Name) (s : State) : Host.Outcome State Fault Refusal :=
  issue (.vfToI d a) (vfToOp d a (fun m x => (BitVec.ofInt 64 (numToInt m 64 { x := x }).1, (numToInt m 64 { x := x }).2))) s

/-- R250: Copies a VF value rounded to the current precision. -/
def execVfMov (d : Name) (a : Name) (s : State) : Host.Outcome State Fault Refusal :=
  issue (.vfMov d a) (vf1 d a (fun _ x => ({ x := x }, 0))) s

end Sys2Proof.Machine
end

