-- ==== Sys2Proof/Machine/Dispatch.lean ====
section
/-! DEFINITION. Sys2Proof/Machine/Dispatch.lean: the meaning of every instruction and event, one arm each. -/

namespace Sys2Proof.Machine

/-- What an instruction or event does. -/
def exec (i : Instr) (s : State) : Host.Outcome State Fault Refusal :=
  match i with
  | .add d a b => Sys2Proof.Machine.execAdd d a b s
  | .sub d a b => Sys2Proof.Machine.execSub d a b s
  | .and d a b => Sys2Proof.Machine.execAnd d a b s
  | .or d a b => Sys2Proof.Machine.execOr d a b s
  | .xor d a b => Sys2Proof.Machine.execXor d a b s
  | .sll d a b => Sys2Proof.Machine.execSll d a b s
  | .srl d a b => Sys2Proof.Machine.execSrl d a b s
  | .sra d a b => Sys2Proof.Machine.execSra d a b s
  | .slt d a b => Sys2Proof.Machine.execSlt d a b s
  | .sltu d a b => Sys2Proof.Machine.execSltu d a b s
  | .min d a b => Sys2Proof.Machine.execMin d a b s
  | .max d a b => Sys2Proof.Machine.execMax d a b s
  | .minu d a b => Sys2Proof.Machine.execMinu d a b s
  | .maxu d a b => Sys2Proof.Machine.execMaxu d a b s
  | .mul d a b => Sys2Proof.Machine.execMul d a b s
  | .mulh d a b => Sys2Proof.Machine.execMulh d a b s
  | .mulhu d a b => Sys2Proof.Machine.execMulhu d a b s
  | .div d a b => Sys2Proof.Machine.execDiv d a b s
  | .divu d a b => Sys2Proof.Machine.execDivu d a b s
  | .rem d a b => Sys2Proof.Machine.execRem d a b s
  | .remu d a b => Sys2Proof.Machine.execRemu d a b s
  | .clz d a => Sys2Proof.Machine.execClz d a s
  | .ctz d a => Sys2Proof.Machine.execCtz d a s
  | .popc d a => Sys2Proof.Machine.execPopc d a s
  | .rank d a b => Sys2Proof.Machine.execRank d a b s
  | .nth d a b => Sys2Proof.Machine.execNth d a b s
  | .bext d a b => Sys2Proof.Machine.execBext d a b s
  | .bdep d a b => Sys2Proof.Machine.execBdep d a b s
  | .rev8 d a => Sys2Proof.Machine.execRev8 d a s
  | .sext8 d a => Sys2Proof.Machine.execSext8 d a s
  | .sext16 d a => Sys2Proof.Machine.execSext16 d a s
  | .sext32 d a => Sys2Proof.Machine.execSext32 d a s
  | .zext8 d a => Sys2Proof.Machine.execZext8 d a s
  | .zext16 d a => Sys2Proof.Machine.execZext16 d a s
  | .zext32 d a => Sys2Proof.Machine.execZext32 d a s
  | .addi d a imm => Sys2Proof.Machine.execAddi d a imm s
  | .andi d a imm => Sys2Proof.Machine.execAndi d a imm s
  | .ori d a imm => Sys2Proof.Machine.execOri d a imm s
  | .xori d a imm => Sys2Proof.Machine.execXori d a imm s
  | .slti d a imm => Sys2Proof.Machine.execSlti d a imm s
  | .sltiu d a imm => Sys2Proof.Machine.execSltiu d a imm s
  | .slli d a c => Sys2Proof.Machine.execSlli d a c s
  | .srli d a c => Sys2Proof.Machine.execSrli d a c s
  | .srai d a c => Sys2Proof.Machine.execSrai d a c s
  | .lui d imm => Sys2Proof.Machine.execLui d imm s
  | .adpc d imm => Sys2Proof.Machine.execAdpc d imm s
  | .pcmpEq p g n a b => Sys2Proof.Machine.execPcmpEq p g n a b s
  | .pcmpNe p g n a b => Sys2Proof.Machine.execPcmpNe p g n a b s
  | .pcmpLt p g n a b => Sys2Proof.Machine.execPcmpLt p g n a b s
  | .pcmpGe p g n a b => Sys2Proof.Machine.execPcmpGe p g n a b s
  | .pcmpLtu p g n a b => Sys2Proof.Machine.execPcmpLtu p g n a b s
  | .pcmpGeu p g n a b => Sys2Proof.Machine.execPcmpGeu p g n a b s
  | .pcmpFEq p g n a b => Sys2Proof.Machine.execPcmpFEq p g n a b s
  | .pcmpFLt p g n a b => Sys2Proof.Machine.execPcmpFLt p g n a b s
  | .pcmpFLe p g n a b => Sys2Proof.Machine.execPcmpFLe p g n a b s
  | .pcmpFUn p g n a b => Sys2Proof.Machine.execPcmpFUn p g n a b s
  | .pcmpVfEq p g n a b => Sys2Proof.Machine.execPcmpVfEq p g n a b s
  | .pcmpVfLt p g n a b => Sys2Proof.Machine.execPcmpVfLt p g n a b s
  | .pcmpVfLe p g n a b => Sys2Proof.Machine.execPcmpVfLe p g n a b s
  | .pcmpBit p g n a b => Sys2Proof.Machine.execPcmpBit p g n a b s
  | .pand p g n a b => Sys2Proof.Machine.execPand p g n a b s
  | .por p g n a b => Sys2Proof.Machine.execPor p g n a b s
  | .pxor p g n a b => Sys2Proof.Machine.execPxor p g n a b s
  | .pandn p g n a b => Sys2Proof.Machine.execPandn p g n a b s
  | .pmov p g n a => Sys2Proof.Machine.execPmov p g n a s
  | .pnot p g n a => Sys2Proof.Machine.execPnot p g n a s
  | .pset p g n v => Sys2Proof.Machine.execPset p g n v s
  | .bp n p o => Sys2Proof.Machine.execBp n p o s
  | .br o => Sys2Proof.Machine.execBr o s
  | .bl o => Sys2Proof.Machine.execBl o s
  | .jr a => Sys2Proof.Machine.execJr a s
  | .jlr d a => Sys2Proof.Machine.execJlr d a s
  | .pskip n p c => Sys2Proof.Machine.execPskip n p c s
  | .ldB d a imm => Sys2Proof.Machine.execLdB d a imm s
  | .ldBu d a imm => Sys2Proof.Machine.execLdBu d a imm s
  | .ldH d a imm => Sys2Proof.Machine.execLdH d a imm s
  | .ldHu d a imm => Sys2Proof.Machine.execLdHu d a imm s
  | .ldW d a imm => Sys2Proof.Machine.execLdW d a imm s
  | .ldWu d a imm => Sys2Proof.Machine.execLdWu d a imm s
  | .ldD d a imm => Sys2Proof.Machine.execLdD d a imm s
  | .stB imm a b => Sys2Proof.Machine.execStB imm a b s
  | .stH imm a b => Sys2Proof.Machine.execStH imm a b s
  | .stW imm a b => Sys2Proof.Machine.execStW imm a b s
  | .stD imm a b => Sys2Proof.Machine.execStD imm a b s
  | .ldV d a => Sys2Proof.Machine.execLdV d a s
  | .stV a b => Sys2Proof.Machine.execStV a b s
  | .ldFe d a => Sys2Proof.Machine.execLdFe d a s
  | .ldFx d a => Sys2Proof.Machine.execLdFx d a s
  | .stEf a b => Sys2Proof.Machine.execStEf a b s
  | .stFs a b => Sys2Proof.Machine.execStFs a b s
  | .stFc a b => Sys2Proof.Machine.execStFc a b s
  | .stN h a b => Sys2Proof.Machine.execStN h a b s
  | .ldN d a h => Sys2Proof.Machine.execLdN d a h s
  | .watch a => Sys2Proof.Machine.execWatch a s
  | .unwatch a => Sys2Proof.Machine.execUnwatch a s
  | .vGather d a b => Sys2Proof.Machine.execVGather d a b s
  | .vScatter d a b => Sys2Proof.Machine.execVScatter d a b s
  | .amoAdd d a b => Sys2Proof.Machine.execAmoAdd d a b s
  | .amoAnd d a b => Sys2Proof.Machine.execAmoAnd d a b s
  | .amoOr d a b => Sys2Proof.Machine.execAmoOr d a b s
  | .amoXor d a b => Sys2Proof.Machine.execAmoXor d a b s
  | .amoMin d a b => Sys2Proof.Machine.execAmoMin d a b s
  | .amoMax d a b => Sys2Proof.Machine.execAmoMax d a b s
  | .amoXchg d a b => Sys2Proof.Machine.execAmoXchg d a b s
  | .amoCas d a b => Sys2Proof.Machine.execAmoCas d a b s
  | .redAdd a b => Sys2Proof.Machine.execRedAdd a b s
  | .redOr a b => Sys2Proof.Machine.execRedOr a b s
  | .redMax a b => Sys2Proof.Machine.execRedMax a b s
  | .redEw d a b => Sys2Proof.Machine.execRedEw d a b s
  | .fence sc => Sys2Proof.Machine.execFence sc s
  | .acq sc => Sys2Proof.Machine.execAcq sc s
  | .rel sc => Sys2Proof.Machine.execRel sc s
  | .publish a => Sys2Proof.Machine.execPublish a s
  | .mig a n => Sys2Proof.Machine.execMig a n s
  | .wait l sc c t => Sys2Proof.Machine.execWait l sc c t s
  | .barInit d a b => Sys2Proof.Machine.execBarInit d a b s
  | .barJoin a => Sys2Proof.Machine.execBarJoin a s
  | .barArrive d a => Sys2Proof.Machine.execBarArrive d a s
  | .barDrop d a => Sys2Proof.Machine.execBarDrop d a s
  | .barExpect a b => Sys2Proof.Machine.execBarExpect a b s
  | .barWait a b => Sys2Proof.Machine.execBarWait a b s
  | .barTest d a b => Sys2Proof.Machine.execBarTest d a b s
  | .barTwait d a b => Sys2Proof.Machine.execBarTwait d a b s
  | .barInval a => Sys2Proof.Machine.execBarInval a s
  | .smsg a b => Sys2Proof.Machine.execSmsg a b s
  | .rmsg d => Sys2Proof.Machine.execRmsg d s
  | .wmsg d => Sys2Proof.Machine.execWmsg d s
  | .mq d => Sys2Proof.Machine.execMq d s
  | .spawn a => Sys2Proof.Machine.execSpawn a s
  | .spawnh a => Sys2Proof.Machine.execSpawnh a s
  | .cntInit a b => Sys2Proof.Machine.execCntInit a b s
  | .cntAdd a b => Sys2Proof.Machine.execCntAdd a b s
  | .mfs d imm => Sys2Proof.Machine.execMfs d imm s
  | .mts a imm => Sys2Proof.Machine.execMts a imm s
  | .rdx d a imm => Sys2Proof.Machine.execRdx d a imm s
  | .wrx imm a b => Sys2Proof.Machine.execWrx imm a b s
  | .fAdd d a b => Sys2Proof.Machine.execFAdd d a b s
  | .fSub d a b => Sys2Proof.Machine.execFSub d a b s
  | .fMul d a b => Sys2Proof.Machine.execFMul d a b s
  | .fDiv d a b => Sys2Proof.Machine.execFDiv d a b s
  | .fSqrt d a => Sys2Proof.Machine.execFSqrt d a s
  | .fMin d a b => Sys2Proof.Machine.execFMin d a b s
  | .fMax d a b => Sys2Proof.Machine.execFMax d a b s
  | .fFma d a b => Sys2Proof.Machine.execFFma d a b s
  | .fAbs d a => Sys2Proof.Machine.execFAbs d a s
  | .fNeg d a => Sys2Proof.Machine.execFNeg d a s
  | .fCvtFi d a => Sys2Proof.Machine.execFCvtFi d a s
  | .fCvtIf d a => Sys2Proof.Machine.execFCvtIf d a s
  | .fCvtIft d a => Sys2Proof.Machine.execFCvtIft d a s
  | .fCvtBf d a => Sys2Proof.Machine.execFCvtBf d a s
  | .fCvtFb d a => Sys2Proof.Machine.execFCvtFb d a s
  | .fCvt8f d a => Sys2Proof.Machine.execFCvt8f d a s
  | .fCvtF8 d a => Sys2Proof.Machine.execFCvtF8 d a s
  | .fClass d a => Sys2Proof.Machine.execFClass d a s
  | .vfAdd d a b => Sys2Proof.Machine.execVfAdd d a b s
  | .vfSub d a b => Sys2Proof.Machine.execVfSub d a b s
  | .vfMul d a b => Sys2Proof.Machine.execVfMul d a b s
  | .vfDiv d a b => Sys2Proof.Machine.execVfDiv d a b s
  | .vfSqrt d a => Sys2Proof.Machine.execVfSqrt d a s
  | .vfFma d a b => Sys2Proof.Machine.execVfFma d a b s
  | .vfNeg d a => Sys2Proof.Machine.execVfNeg d a s
  | .vfAbs d a => Sys2Proof.Machine.execVfAbs d a s
  | .vfRnd d a => Sys2Proof.Machine.execVfRnd d a s
  | .vfFromF d a => Sys2Proof.Machine.execVfFromF d a s
  | .vfFromI d a => Sys2Proof.Machine.execVfFromI d a s
  | .vfToF d a => Sys2Proof.Machine.execVfToF d a s
  | .vfToI d a => Sys2Proof.Machine.execVfToI d a s
  | .vfMov d a => Sys2Proof.Machine.execVfMov d a s
  | .vfLd d a imm => Sys2Proof.Machine.execVfLd d a imm s
  | .vfSt imm a b => Sys2Proof.Machine.execVfSt imm a b s
  | .vAddI32 d a b => Sys2Proof.Machine.execVAddI32 d a b s
  | .vSubI32 d a b => Sys2Proof.Machine.execVSubI32 d a b s
  | .vMulI32 d a b => Sys2Proof.Machine.execVMulI32 d a b s
  | .vMinI32 d a b => Sys2Proof.Machine.execVMinI32 d a b s
  | .vMaxI32 d a b => Sys2Proof.Machine.execVMaxI32 d a b s
  | .vAnd d a b => Sys2Proof.Machine.execVAnd d a b s
  | .vOr d a b => Sys2Proof.Machine.execVOr d a b s
  | .vXor d a b => Sys2Proof.Machine.execVXor d a b s
  | .vShl d a b => Sys2Proof.Machine.execVShl d a b s
  | .vShr d a b => Sys2Proof.Machine.execVShr d a b s
  | .vSra d a b => Sys2Proof.Machine.execVSra d a b s
  | .vDot8 d a b => Sys2Proof.Machine.execVDot8 d a b s
  | .vSumI32 d a => Sys2Proof.Machine.execVSumI32 d a s
  | .vBcast d a => Sys2Proof.Machine.execVBcast d a s
  | .vPerm d a b => Sys2Proof.Machine.execVPerm d a b s
  | .vSel d a b => Sys2Proof.Machine.execVSel d a b s
  | .vCmpeqI32 d a b => Sys2Proof.Machine.execVCmpeqI32 d a b s
  | .vCmpltI32 d a b => Sys2Proof.Machine.execVCmpltI32 d a b s
  | .vExt d a b => Sys2Proof.Machine.execVExt d a b s
  | .vIns d a b => Sys2Proof.Machine.execVIns d a b s
  | .vAddF32 d a b => Sys2Proof.Machine.execVAddF32 d a b s
  | .vSubF32 d a b => Sys2Proof.Machine.execVSubF32 d a b s
  | .vMulF32 d a b => Sys2Proof.Machine.execVMulF32 d a b s
  | .vFmaF32 d a b => Sys2Proof.Machine.execVFmaF32 d a b s
  | .vMinF32 d a b => Sys2Proof.Machine.execVMinF32 d a b s
  | .vMaxF32 d a b => Sys2Proof.Machine.execVMaxF32 d a b s
  | .vSumF32 d a => Sys2Proof.Machine.execVSumF32 d a s
  | .vRcpF32 d a => Sys2Proof.Machine.execVRcpF32 d a s
  | .vCvtFi d a => Sys2Proof.Machine.execVCvtFi d a s
  | .vCvtIf d a => Sys2Proof.Machine.execVCvtIf d a s
  | .vCvtBf d a => Sys2Proof.Machine.execVCvtBf d a s
  | .vCvtFb d a => Sys2Proof.Machine.execVCvtFb d a s
  | .vCmpltF32 d a b => Sys2Proof.Machine.execVCmpltF32 d a b s
  | .vMax0 d a => Sys2Proof.Machine.execVMax0 d a s
  | .vLi d imm => Sys2Proof.Machine.execVLi d imm s
  | .mmaI8 t a b m c x => Sys2Proof.Machine.execMmaI8 t a b m c x s
  | .mmaF8 t a b m c x => Sys2Proof.Machine.execMmaF8 t a b m c x s
  | .mmaB16 t a b m c x => Sys2Proof.Machine.execMmaB16 t a b m c x s
  | .mmaQ4 t a b m c x => Sys2Proof.Machine.execMmaQ4 t a b m c x s
  | .accClr d => Sys2Proof.Machine.execAccClr d s
  | .accRd d a b => Sys2Proof.Machine.execAccRd d a b s
  | .accWr d a => Sys2Proof.Machine.execAccWr d a s
  | .xprg d a => Sys2Proof.Machine.execXprg d a s
  | .xswp d => Sys2Proof.Machine.execXswp d s
  | .xmv d a b => Sys2Proof.Machine.execXmv d a b s
  | .xmvt d a b => Sys2Proof.Machine.execXmvt d a b s
  | .xcal d a b => Sys2Proof.Machine.execXcal d a b s
  | .xacc d a => Sys2Proof.Machine.execXacc d a s
  | .xstat d => Sys2Proof.Machine.execXstat d s
  | .jlk d a b => Sys2Proof.Machine.execJlk d a b s
  | .jgs d a b => Sys2Proof.Machine.execJgs d a b s
  | .jmul d a b => Sys2Proof.Machine.execJmul d a b s
  | .jexp d a => Sys2Proof.Machine.execJexp d a s
  | .jenum d a => Sys2Proof.Machine.execJenum d a s
  | .jdelta d a b => Sys2Proof.Machine.execJdelta d a b s
  | .cleave d a b => Sys2Proof.Machine.execCleave d a b s
  | .isect d a => Sys2Proof.Machine.execIsect d a s
  | .jstat d => Sys2Proof.Machine.execJstat d s
  | .pct d a b => Sys2Proof.Machine.execPct d a b s
  | .prd d a b => Sys2Proof.Machine.execPrd d a b s
  | .parm a => Sys2Proof.Machine.execParm a s
  | .povl a => Sys2Proof.Machine.execPovl a s
  | .pstat d a => Sys2Proof.Machine.execPstat d a s
  | .cpQ d a => Sys2Proof.Machine.execCpQ d a s
  | .cpKill a => Sys2Proof.Machine.execCpKill a s
  | .trap c => Sys2Proof.Machine.execTrap c s
  | .brk c => Sys2Proof.Machine.execBrk c s
  | .tlbinv a => Sys2Proof.Machine.execTlbinv a s
  | .pstop a => Sys2Proof.Machine.execPstop a s
  | .waita => Sys2Proof.Machine.execWaita s
  | .ifence => Sys2Proof.Machine.execIfence s
  | .yield => Sys2Proof.Machine.execYield s
  | .sync => Sys2Proof.Machine.execSync s
  | .exit => Sys2Proof.Machine.execExit s
  | .eret => Sys2Proof.Machine.execEret s
  | .csave => Sys2Proof.Machine.execCsave s
  | .crest => Sys2Proof.Machine.execCrest s
  | .halt => Sys2Proof.Machine.execHalt s
  | .cgoLaunch => Sys2Proof.Machine.execCgoLaunch s
  | .xbndRead => Sys2Proof.Machine.execXbndRead s
  | .dumpStart => Sys2Proof.Machine.execDumpStart s
  | .dumpComplete => Sys2Proof.Machine.execDumpComplete s
  | .sample => Sys2Proof.Machine.execSample s
  | .taskBind => Sys2Proof.Machine.execTaskBind s
  | .spawnEnqueue => Sys2Proof.Machine.execSpawnEnqueue s
  | .stealRequest => Sys2Proof.Machine.execStealRequest s
  | .stealServe => Sys2Proof.Machine.execStealServe s
  | .stealReply => Sys2Proof.Machine.execStealReply s
  | .stealRetryTimeout => Sys2Proof.Machine.execStealRetryTimeout s
  | .hintedTaskHop => Sys2Proof.Machine.execHintedTaskHop s
  | .gangAdmit => Sys2Proof.Machine.execGangAdmit s
  | .gangReserve => Sys2Proof.Machine.execGangReserve s
  | .gangCoreReserve => Sys2Proof.Machine.execGangCoreReserve s
  | .gangBind => Sys2Proof.Machine.execGangBind s
  | .gangSyncRelease => Sys2Proof.Machine.execGangSyncRelease s
  | .migArrival => Sys2Proof.Machine.execMigArrival s
  | .counterNodeOperation => Sys2Proof.Machine.execCounterNodeOperation s
  | .continuationPlace => Sys2Proof.Machine.execContinuationPlace s
  | .barrierOperationApply => Sys2Proof.Machine.execBarrierOperationApply s
  | .barrierAnswer => Sys2Proof.Machine.execBarrierAnswer s
  | .barrierRelease => Sys2Proof.Machine.execBarrierRelease s
  | .barTwaitTimeout => Sys2Proof.Machine.execBarTwaitTimeout s
  | .fullEmptyApply => Sys2Proof.Machine.execFullEmptyApply s
  | .loadComplete => Sys2Proof.Machine.execLoadComplete s
  | .storeApply => Sys2Proof.Machine.execStoreApply s
  | .atomicApply => Sys2Proof.Machine.execAtomicApply s
  | .reductionApply => Sys2Proof.Machine.execReductionApply s
  | .pageWalk => Sys2Proof.Machine.execPageWalk s
  | .mailboxArrival => Sys2Proof.Machine.execMailboxArrival s
  | .hostMessageDeliver => Sys2Proof.Machine.execHostMessageDeliver s
  | .portWordArrival => Sys2Proof.Machine.execPortWordArrival s
  | .copyComplete => Sys2Proof.Machine.execCopyComplete s
  | .copyFault => Sys2Proof.Machine.execCopyFault s
  | .mmaComplete => Sys2Proof.Machine.execMmaComplete s
  | .accClrComplete => Sys2Proof.Machine.execAccClrComplete s
  | .accRdComplete => Sys2Proof.Machine.execAccRdComplete s
  | .accWrComplete => Sys2Proof.Machine.execAccWrComplete s
  | .xprgComplete => Sys2Proof.Machine.execXprgComplete s
  | .xswpApply => Sys2Proof.Machine.execXswpApply s
  | .xcalComplete => Sys2Proof.Machine.execXcalComplete s
  | .xmvProductComplete => Sys2Proof.Machine.execXmvProductComplete s
  | .jlkComplete => Sys2Proof.Machine.execJlkComplete s
  | .jgsComplete => Sys2Proof.Machine.execJgsComplete s
  | .jmulComplete => Sys2Proof.Machine.execJmulComplete s
  | .jexpComplete => Sys2Proof.Machine.execJexpComplete s
  | .jenumComplete => Sys2Proof.Machine.execJenumComplete s
  | .jdeltaComplete => Sys2Proof.Machine.execJdeltaComplete s
  | .cleaveComplete => Sys2Proof.Machine.execCleaveComplete s
  | .isectComplete => Sys2Proof.Machine.execIsectComplete s
  | .jstatComplete => Sys2Proof.Machine.execJstatComplete s
  | .contributionArrival => Sys2Proof.Machine.execContributionArrival s
  | .prdComplete => Sys2Proof.Machine.execPrdComplete s
  | .pstatComplete => Sys2Proof.Machine.execPstatComplete s
  | .parmApply => Sys2Proof.Machine.execParmApply s
  | .povlApply => Sys2Proof.Machine.execPovlApply s
  | .masonUpdateStart => Sys2Proof.Machine.execMasonUpdateStart s
  | .masonCycleLimit => Sys2Proof.Machine.execMasonCycleLimit s
  | .hostMemoryWrite => Sys2Proof.Machine.execHostMemoryWrite s
  | .hostMemoryRead => Sys2Proof.Machine.execHostMemoryRead s
  | .partitionReset => Sys2Proof.Machine.execPartitionReset s
  | .approxClear => Sys2Proof.Machine.execApproxClear s
  | .partctlNvfWrite => Sys2Proof.Machine.execPartctlNvfWrite s
  | .tenantKeyCreate => Sys2Proof.Machine.execTenantKeyCreate s
  | .packageReset => Sys2Proof.Machine.execPackageReset s
  | .unrecoverableError => Sys2Proof.Machine.execUnrecoverableError s
  | .hangTimeout => Sys2Proof.Machine.execHangTimeout s
  | .fabricLinkFailure => Sys2Proof.Machine.execFabricLinkFailure s
  | .lifecycleAdvance => Sys2Proof.Machine.execLifecycleAdvance s
  | .fuseProgram => Sys2Proof.Machine.execFuseProgram s
  | .fuseProgramDone => Sys2Proof.Machine.execFuseProgramDone s
  | .keyWipe => Sys2Proof.Machine.execKeyWipe s
  | .keyWipeDone => Sys2Proof.Machine.execKeyWipeDone s
  | .sealInstall => Sys2Proof.Machine.execSealInstall s
  | .sealRemove => Sys2Proof.Machine.execSealRemove s
  | .measurementExtend => Sys2Proof.Machine.execMeasurementExtend s
  | .measurementCopy => Sys2Proof.Machine.execMeasurementCopy s
  | .measurementDone => Sys2Proof.Machine.execMeasurementDone s
  | .signatureVerify => Sys2Proof.Machine.execSignatureVerify s
  | .signatureSign => Sys2Proof.Machine.execSignatureSign s
  | .signatureDone => Sys2Proof.Machine.execSignatureDone s
  | .shakeHash => Sys2Proof.Machine.execShakeHash s
  | .shakeDone => Sys2Proof.Machine.execShakeDone s
  | .debugPortOpen => Sys2Proof.Machine.execDebugPortOpen s
  | .debugPortClose => Sys2Proof.Machine.execDebugPortClose s
  | .debugProbeAccess => Sys2Proof.Machine.execDebugProbeAccess s
  | .vrelellSlotBind => Sys2Proof.Machine.execVrelellSlotBind s
  | .partitionDieAssignment => Sys2Proof.Machine.execPartitionDieAssignment s
  | .virtualFunctionBinding => Sys2Proof.Machine.execVirtualFunctionBinding s
  | .fabricJoinConfiguration => Sys2Proof.Machine.execFabricJoinConfiguration s
  | .ideKmKeySetting => Sys2Proof.Machine.execIdeKmKeySetting s

end Sys2Proof.Machine
end

