-- ==== Sys2Proof/Machine/Cycle.lean ====
section
/-! DEFINITION. Sys2Proof/Machine/Cycle.lean: fetching and running a slot's next word, a cycle of a core, a cycle of a mason
unit, and which events are due (R27, R36, R73, R158, R202, R207, R338, R343, R361, R392, R394; log 1). -/

namespace Sys2Proof.Machine

/-! ### Fetch (R15, R36, R202, R361) -/

/-- What the fetch of a slot's next word comes to. -/
inductive Fetched where
  | word (w : BitVec 32) (pa : Nat)
  /-- The word fetched for an instruction that is issued again. -/
  | kept (w : BitVec 32)
  | fails (e : AccErr)
  | walk (va : Nat)
deriving DecidableEq, Repr

/-- R55, R71, R202, R349: where a slot's next word lies, none when its translation is not at hand. A Vrelell slot fetches from its own
scratch too, which R349 lets it reach (log 97). -/
def State.fetchTarget (s : State) (g k : Nat) : Option (Except AccErr Target) :=
  let v := (s.slot g k).pc
  let pc := v.toNat
  if pc % 4 ≠ 0 then some (.error ⟨cALN, v, 0⟩)
  else if 2 ^ 49 ≤ pc then some (.error ⟨cXLT, v, 0⟩)
  else if g = vrNum then some (s.checkVrelell pc 4 .fetch .plain)
  else if pc < 2 ^ 20 then some (s.checkLocal (s.ctx g k) pc 4 .fetch .plain false)
  else (s.tlbFind g pc).map (s.checkLeaf (s.ctx g k) pc 4 .fetch .plain false)

/-- R217, R347, R361, R392: the word that a slot runs next: the one it has fetched and not yet issued, or the word at its
target: a class-S page must hold its seal, and a word that the cache does not hold must be
readable. -/
def State.fetch (s : State) (g k : Nat) : Fetched :=
  let v := (s.slot g k).pc
  match (s.slot g k).fetched, s.fetchTarget g k with
  | some w, _ => .kept w
  | none, none => .walk v.toNat
  | none, some (.error e) => .fails e
  | none, some (.ok t) =>
    if t.cls = 3 && !s.sealHolds t.pa then .fails ⟨cCLS, v, 0⟩
    else if !Sparse.has (s.core g).icache t.pa && (s.badWord t.pa 4).isSome then .fails ⟨(softCause t.pa).1, v, (softCause t.pa).2⟩
    else .word (s.wordAt g t.pa) t.pa

/-- R15: the words that the 64 KiB of an instruction cache hold. -/
def icacheWords : Nat := 16384

/-- A fetched word stays in the instruction cache of 64 KiB (R15, R267); which word leaves a full cache is free (log 9). -/
def State.cacheWord (s : State) (g pa : Nat) (w : BitVec 32) : State :=
  let c := (s.core g).icache
  if Sparse.has c pa || c.length < icacheWords then s.setCore g { s.core g with icache := Sparse.put c pa w }
  else
    let (n, s1) := s.draw
    s1.setCore g { s1.core g with
      icache := Sparse.put (c.eraseIdx ((Config.freeWord n).toNat % c.length)) pa w }

/-- R217, R347: a slot holds the word it has fetched until it has issued it. -/
def State.holdWord (s : State) (g k : Nat) (w : BitVec 32) : State :=
  s.setSlot g k { s.slot g k with fetched := some w }

/-- R36, R217: whether the header of an image has a VERSION other than 1, or the fault of one that cannot be fetched; its page
is found as a fetch finds one, and a walk for it is made at once (log 44). -/
def State.versionBad (s : State) (g : Nat) (level : Level) (image : Word) : Except AccErr Bool :=
  let c : Ctx := { s.ctx g 0 with level := level }
  let target := match if g = vrNum || image.toNat < 2 ^ 20 then none else s.tlbFind g image.toNat with
    | some l => s.checkLeaf c image.toNat 2 .fetch .plain false l
    | none => s.engAccess c image 2 .fetch
  match target with
  | .error e => .error e
  | .ok t =>
    if t.cls = 3 && !s.sealHolds t.pa then .error ⟨cCLS, image, 0⟩
    else match s.badWord t.pa 2 with
      | some a => .error ⟨(softCause a).1, image, (softCause a).2⟩
      | none => .ok (s.readN t.pa 2 ≠ 1)

/-- R202, R371: the trap of a slot whose next word cannot be executed. -/
def State.wordTrap (s : State) (g k : Nat) (e : AccErr) (w : BitVec 32) : Host.Outcome State Fault Refusal :=
  .next { s.takeTrap g k e.code false e.val (tstatOf e.sub 0 (majorOf w) (fnOf w) 0) (s.slot g k).pc with turn := .issued }

/-- R207, R369: a word is executed; one that is no instruction raises ILL with TVAL the word, and its MAJOR and FN. -/
def State.runDecoded (s : State) (g k : Nat) (w : BitVec 32) : Host.Outcome State Fault Refusal :=
  match decode w with
  | none => s.wordTrap g k ⟨cILL, w.setWidth 64, 0⟩ w
  | some i => exec i s

/-- R36, R207, R217: the word that a slot has fetched is executed. Before its task's first instruction the version of the image is
checked: one other than 1 raises ILL, and a header that cannot be fetched its fault, after which the check is made again (log 44).
The handler of a fetch that failed is no part of the image. -/
def State.runWord (s : State) (g k : Nat) (w : BitVec 32) : Host.Outcome State Fault Refusal :=
  let x := s.slot g k
  let checked := s.setSlot g k { x with header := none }
  match if x.inHandler then none else x.header with
  | none => s.runDecoded g k w
  | some image => match s.versionBad g x.level image with
    | .error e => s.wordTrap g k e w
    | .ok true => checked.wordTrap g k ⟨cILL, w.setWidth 64, 0⟩ w
    | .ok false => checked.runDecoded g k w

/-- The state in which a slot takes its turn: it executes, and no longer waits. -/
def State.taking (s : State) (g k : Nat) : State :=
  let x := s.slot g k
  { s.setSlot g k { x with blocked := none, taken := [], since := match x.blocked with
      | some (.vrEngine _ t) => some t
      | _ => none } with cur := .slot g k }

/-- R27, R73, R202: the turn of a slot. -/
def State.runTurn (s0 : State) (g k : Nat) : Host.Outcome State Fault Refusal :=
  let s := s0.taking g k
  match s.fetch g k with
  | .walk va =>
    let s1 := s.addOp g k none 0 0 (.walk va .fetch)
    .next { s1.setSlot g k { s1.slot g k with blocked := some (.walk s.nextId) } with turn := .blocked }
  | .fails e =>
    .next { s.takeTrap g k e.code false e.val (tstatOf e.sub 0 0 0 0) (s.slot g k).pc with turn := .issued }
  | .word w pa => ((s.cacheWord g pa w).holdWord g k w).runWord g k w
  | .kept w => s.runWord g k w

/-! ### A cycle of a core (R27, R269, R338, R339, R343, R394) -/

/-- R394: a cycle of a die's progress monitor passes with the turn of the die's first unmasked core. -/
def State.tickMonitor (s : State) (g : Nat) : State :=
  let first := ((List.range 256).map (coreAt (dieOf g))).find? (fun h => !s.isMasked h)
  match s.partOf g with
  | some p =>
    if first = some g && s.monitorRuns p then
      { s with monitor := Sparse.put s.monitor (dieOf g) (Sparse.get 0 s.monitor (dieOf g) + 1) }
    else s
  | none => s

/-- The instruction that a slot has issued in its turn, none where its word was none or it took a trap. -/
def State.issuedInstr (s : State) (g k : Nat) : Option Instr :=
  if s.turn = .issued then (s.slot g k).fetched.bind decode else none

/-- Whether a destination field is written at issue (R28). -/
def writtenAtIssue : Role → Bool
  | .dst | .inOut | .vecDst | .vecInOut | .vfDst | .vfInOut | .pairDst => true
  | _ => false

/-- R27, R28: the result of an instruction that has read a port is written later, in a cycle that is a free value; until then its
cells may not be named (log 98). -/
def State.notePort (s : State) (g k : Nat) : State :=
  let x := s.slot g k
  match if x.taken.isEmpty || x.blocked.isSome then none else s.issuedInstr g k with
  | none => s
  | some i =>
    match if writtenAtIssue i.roles.rd then s.fieldCells i.roles.d i.roles.rd else none with
    | some (i, n) =>
      let c := (x.wbase.toNat + i) % numCells g
      let (m, s1) := s.draw
      if s.awaits g c then s
      else s1.setSlot g k { x with portDst := some (c, n, (s.core g).cyc + 1 + (Config.freeWord m).toNat % 2 ^ 16) }
    | none => s

/-- R186: whether an instruction neither orders the reads of its thread before what follows nor acquires anything: computation,
branches, plain loads and stores, special registers, and a wait that does not cover loads; none of them names a port. -/
def leavesLoose (i : Instr) : Bool :=
  let r := i.roles
  let m := majorOf (encode i)
  !(r.a.isPort || r.b.isPort || r.d.isPort) && (match i with
    | .wait l _ _ _ => l ≠ 0
    | .ldV _ _ | .stV _ _ => true
    | _ => m ≤ 0x1C || (0x24 ≤ m && m ≤ 0x28))

/-- R186, R187, R414: what a slot may still read of the words that an update has overwritten, after an instruction of its: nothing
once it has covered its prd or acquired, and no word that it has itself read since (log 101). -/
def Stale.after (x : Stale) (s : State) (g k : Nat) : Option Stale :=
  if x.reader ≠ some (g, k) then some x
  else match s.issuedInstr g k with
    | some i =>
      if leavesLoose i then
        some { x with words := x.words.filter (fun e => !s.ops.any (fun o => o.g = g && o.k = k && o.kind.touches e.1 8)) }
      else none
    | none => none

/-- The update of Stale.after in every mason unit, when a slot has issued. -/
def State.noteOrder (s : State) (g k : Nat) : State :=
  if s.turn ≠ .issued || s.masons.all (fun e => e.2.stale.isNone) then s
  else { s with masons := s.masons.map (fun e => (e.1, { e.2 with stale := e.2.stale.bind (fun x => x.after s g k) })) }

/-- R27, R269: what a turn leaves behind: the pointer slot, the cycle of an issue, which a slot that has fallen vacant keeps
too, the slots that yields wait for, and the result of a port read that is still to come. -/
def State.noteTurn (s0 : State) (g k : Nat) : State :=
  let s := (s0.noteOrder g k).notePort g k
  let c := s.core g
  let slots := c.slots.map (fun e =>
    (e.1, { e.2 with
      yieldFor := e.2.yieldFor.filter (fun j => j ≠ k),
      lastIssue := if e.1 = k && s.turn = .issued then some c.cyc else e.2.lastIssue,
      fetched := if e.1 = k && s.turn = .issued then none else e.2.fetched }))
  s.setCore g { c with ptr := k, slots := slots }

/-- R338, R339: the classes of the slots of a core that were bound or have become bound. -/
def State.classify (s : State) (g : Nat) (was : List (Nat × SlotClass × Word)) (won : Option Nat) :
    List (Nat × SlotClass × Word) :=
  ((s.core g).slots.map (·.1)).map (fun k => (k, s.slotClass g k ((was.find? (fun e => e.1 = k)).map (·.2)) won))

/-- R339: one cycle counted in CLS and HIST. -/
def State.countClasses (s : State) (g : Nat) (classes : List (Nat × SlotClass × Word)) (eligible : Nat) : State :=
  let c := s.core g
  let cls := classes.foldl (fun m e =>
    if e.2.1 < 4 then Sparse.put m (5 * e.1 + e.2.1) (Sparse.get 0 m (5 * e.1 + e.2.1) + 1) else m) c.cls
  s.setCore g { c with cls := cls, hist := Sparse.put c.hist eligible (Sparse.get 0 c.hist eligible + 1) }

/-- The end of a core's cycle: the counters and the sample, under SMPL and the sample count as the cycle found them, the trace
records, the cycle count, and the monitor. -/
def State.endCycle (s : State) (g : Nat) (was : List (Nat × SlotClass × Word)) (eligible : Nat)
    (won : Option (Nat × Word)) (smpl : Word) (count : Nat) : State :=
  let s1 := match won with
    | some e => s.noteTurn g e.1
    | none => s
  let s2 :=
    if g = vrNum then s1
    else
      let classes := s1.classify g was (won.map (·.1))
      ((s1.countClasses g classes eligible).countSample g classes won (eligible = 0) smpl count).flushRecs g
  let c := s2.core g
  (s2.setCore g { c with cyc := c.cyc + 1, boundThisCycle := false, freezeNext := false, freed := [] }).tickMonitor g

/-- R27, R343: a cycle of a core: a sample that is due is taken, kills and stops that can end do so, and then the slot that
is next in turn has it, unless the issue stage stands still for a sample. -/
def State.coreCycle (s0 : State) (g : Nat) : Host.Outcome State Fault Refusal :=
  if s0.isMasked g then .next { s0 with turn := .idle }
  else
    let was := (s0.takeSample g).startClasses g
    let s := (s0.takeSample g).reap g
    let n := (s.eligibles g).length
    let smpl := (s.core g).smpl
    let count := (s.core g).sampleCount
    match (if (s.core g).freezeNext then none else s.turnSlot g) with
    | none => .next ({ s with turn := .idle }.endCycle g was n none smpl count)
    | some k =>
      match s.runTurn g k with
      | .next t => .next (t.endCycle g was n (some (k, (s.slot g k).pc)) smpl count)
      | .fault e => .fault e
      | .refused e => .refused e

/-! ### A cycle of a mason unit (R156 to R158) -/

/-- R157, R162: word n of the overlay of a run; what lies past its length reads as 0. -/
def Mason.word (m : Mason) : BitVec 32 := m.image.getD (m.pc / 4) 0

/-- A mason cycle has passed. -/
def State.masonTick (s : State) (g : Nat) : State :=
  { s.setMason g { s.mason g with cycles := (s.mason g).cycles + 1 } with cur := .mason g }

/-- R158, R207: whether a word is of the mason subset but for a port name in a field that no port may stand in. -/
def namesPort (w : BitVec 32) : Bool :=
  match pick w with
  | some i =>
    let r := i.roles
    let fs := [(r.a, r.ra), (r.b, r.rb), (r.d, r.rd)]
    encode i = w && masonAllows w && i.fieldsOk && fs.all (fun e => e.2.allows e.1 || e.1.isPort)
      && fs.any (fun e => e.2 ≠ .none && e.1.isPort)
  | none => false

/-- R157, R158: a cycle of a mason unit runs one word of its overlay; a run that has had its 2^24 cycles runs no more. -/
def State.masonCycle (s : State) (g : Nat) : Host.Outcome State Fault Refusal :=
  let m := s.mason g
  if m.run.isNone || 2 ^ 24 ≤ m.cycles then .next { s with turn := .idle }
  else if 4096 ≤ m.pc || m.pc % 4 ≠ 0 then .next (((s.masonTick g).masonFail g 6).afterRun g m.run)
  else match decode m.word with
    | none => .next (((s.masonTick g).masonFail g (if namesPort m.word then 3 else 1)).afterRun g m.run)
    | some i =>
      match exec i (s.masonTick g) with
      | .next t => .next (t.afterRun g m.run)
      | .fault e => .fault e
      | .refused e => .refused e

/-! ### Events (log 1) -/

/-- The events that an operation of an engine may give rise to. -/
def Eng.events : Eng → List Instr
  | .mma _ _ _ _ => [.mmaComplete]
  | .accClr => [.accClrComplete]
  | .accRd => [.accRdComplete]
  | .accWr => [.accWrComplete]
  | .xprg => [.xprgComplete]
  | .xswp => [.xswpApply]
  | .xcal => [.xcalComplete]
  | .xmv | .xmvt => [.xmvProductComplete]
  | .jlk => [.jlkComplete]
  | .jgs => [.jgsComplete]
  | .jmul => [.jmulComplete]
  | .jexp => [.jexpComplete]
  | .jenum => [.jenumComplete]
  | .jdelta => [.jdeltaComplete]
  | .cleave => [.cleaveComplete]
  | .isect => [.isectComplete]
  | .jstat => [.jstatComplete]
  | .prd => [.prdComplete]
  | .pstat => [.pstatComplete]

/-- The events that an operation in flight may give rise to. -/
def OpKind.events : OpKind → List Instr
  | .load _ _ _ => [.loadComplete]
  | .store _ => [.storeApply]
  | .atomic _ _ _ _ _ _ => [.atomicApply]
  | .red _ _ _ _ => [.reductionApply]
  | .fullEmpty _ _ _ _ _ => [.fullEmptyApply]
  | .walk _ _ => [.pageWalk]
  | .msg _ _ _ _ | .fabricMsg _ _ _ _ _ => [.mailboxArrival]
  | .hostMsg _ _ => [.hostMessageDeliver]
  | .portWord _ _ _ _ => [.portWordArrival]
  | .node _ _ _ _ => [.counterNodeOperation]
  | .nodeAnswer | .nodeSoft _ _ _ => [.barrierAnswer]
  | .barAnswer _ _ _ => [.barrierAnswer, .barTwaitTimeout]
  | .bar _ _ _ _ => [.barrierOperationApply, .barTwaitTimeout]
  | .barPending _ _ _ _ _ => [.barTwaitTimeout]
  | .barNotice _ _ _ _ => [.barrierRelease, .barTwaitTimeout]
  | .spawn _ => [.spawnEnqueue]
  | .stealReq _ _ => [.stealServe]
  | .stealAns _ _ => [.stealReply]
  | .hinted _ _ _ _ => [.hintedTaskHop]
  | .gangReq _ _ => [.gangAdmit]
  | .migrant _ => [.migArrival]
  | .copy _ _ => [.copyComplete, .copyFault]
  | .eng f _ _ _ _ _ => f.events
  | .contrib _ _ _ => [.contributionArrival]
  | .parm _ _ _ _ _ => [.parmApply]
  | .povl _ _ _ _ _ => [.povlApply]
  | .fuse => [.fuseProgramDone]
  | .wipe _ _ => [.keyWipeDone]
  | .measure _ _ _ => [.measurementDone]
  | .verify _ _ _ _ | .sign _ _ => [.signatureDone]
  | .shake _ _ _ => [.shakeDone]

/-- The events of a core by itself. -/
def coreEvents : List Instr :=
  [.taskBind, .stealRetryTimeout, .stealRequest, .continuationPlace, .dumpComplete, .sample]

/-- The events that the part may bring about by itself, in the order in which the policy tries them. -/
def State.dueEvents (s : State) : List (Instr × EvArg) :=
  s.ops.flatMap (fun o => o.kind.events.map (fun i => (i, { id := o.id })))
    ++ s.gangs.flatMap (fun a =>
      (Instr.gangReserve, { id := a.id }) :: (a.cores.map (fun g => (Instr.gangCoreReserve, { id := a.id, g := g }))
        ++ [(.gangBind, { id := a.id }), (.gangSyncRelease, { id := a.id })]))
    ++ s.masons.flatMap (fun e => [(.masonUpdateStart, { g := e.1 }), (.masonCycleLimit, { g := e.1 })])
    ++ s.parts.flatMap (fun e => [(.tenantKeyCreate, { p := e.1 }), (.hangTimeout, { p := e.1 })])
    ++ s.cores.flatMap (fun e => if e.1 = vrNum then [] else coreEvents.map (fun i => (i, { g := e.1 })))

/-- An event: its meaning, with its arguments at hand. -/
def State.runEvent (s : State) (i : Instr) (a : EvArg) : Host.Outcome State Fault Refusal :=
  match exec i { s with ev := a, cur := .slot a.g a.k } with
  | .next t => .next { t with ev := s.ev, cur := s.cur }
  | .fault e => .fault e
  | .refused e => .refused e

/-- The state after the first event of a list that changes anything. -/
def State.firstEvent (s : State) : List (Instr × EvArg) → Option State
  | [] => none
  | e :: rest =>
    match s.runEvent e.1 e.2 with
    | .next t => if t = s then s.firstEvent rest else some t
    | _ => s.firstEvent rest

/-- The agents that run, a core that the state lists or a mason unit with a run, in the policy's order. -/
def State.agents (s : State) : List Turn :=
  (s.cores.filter (fun e => !s.isMasked e.1)).map (fun e => Turn.core e.1)
    ++ (s.masons.filter (fun e => e.2.run.isSome)).map (fun e => Turn.mason e.1)

/-- One turn. -/
def State.runOne (s : State) (t : Turn) : Host.Outcome State Fault Refusal :=
  match t with
  | .event i a => if i.isWord then .fault (.notAnEvent i) else s.runEvent i a
  | .core g => if vrNum < g then .fault (.noSuchAgent g) else s.coreCycle g
  | .mason g => if 4096 ≤ g then .fault (.noSuchAgent g) else s.masonCycle g

/-- The model's policy when the agenda is empty (log 1): an event that is due, and otherwise the next agent's cycle. -/
def State.policy (s : State) : Host.Outcome State Fault Refusal :=
  match s.firstEvent s.dueEvents with
  | some t => .next t
  | none =>
    let n := s.agents.length
    match s.agents[s.rr % n]? with
    | some t => { s with rr := (s.rr + 1) % n }.runOne t
    | none => .next s

end Sys2Proof.Machine
end

