-- ==== Sys2Proof/Machine/Step.lean ====
section
/-! DEFINITION. Sys2Proof/Machine/Step.lean: one step of the machine, and the state in which a given word is the next to run
(log 1, 2). -/

namespace Sys2Proof.Machine

/-- One step: the next turn of the agenda, or, when it is empty, the turn that the model's policy takes. -/
def step (s : State) : Host.Outcome State Fault Refusal :=
  match s.agenda with
  | t :: rest => ({ s with agenda := rest } : State).runOne t
  | [] => s.policy

/-- The physical address at which withFetchWord places a word, in the channel of core 0. -/
def State.fetchHome : Nat := 0x100000

/-- The slot that withFetchWord binds: a supervisor with a window of 128 cells, at the word. -/
def State.fetchSlot (x : Slot) : Slot :=
  { x.kept with bound := true, pc := BitVec.ofNat 64 fetchHome, level := .sup, wbase := 0, wlim := 128, allocBase := 0,
                allocUnits := 16, lastIssue := none }

/-- The translation that withFetchWord gives the word: an executable class-E page. -/
def State.fetchPage (c : Core) : TlbEntry :=
  { asid := c.asid.setWidth 16, va := fetchHome, shift := 12, pa := fetchHome, flags := 0x3D }

/-- The core that withFetchWord prepares: only slot 0 is bound, it has the next turn, and nothing stands in its way. -/
def State.fetchCore (c : Core) : Core :=
  { c with ptroot := c.ptroot ||| 1, slots := [(0, fetchSlot (Sparse.get {} c.slots 0))], ptr := 63, tlb := fetchPage c :: c.tlb, icache := [],
           frozen := none, freezeNext := false, sampleDue := none }

/-- The state with a word placed where the next step fetches it: die 0 belongs to partition 0, which runs, slot 0 of core 0
has the next turn, and the word stands at its program counter (log 2). The table gives every word 32 bits. -/
def State.withFetchWord (s : State) (nbits w : Nat) : State :=
  let v := BitVec.ofNat 32 (w % 2 ^ nbits)
  let b (j : Nat) : Byte := v.extractLsb' (8 * j) 8
  { s with
    mem := Memory.put (Memory.put (Memory.put (Memory.put s.mem fetchHome (b 0)) (fetchHome + 1) (b 1))
      (fetchHome + 2) (b 2)) (fetchHome + 3) (b 3)
    bad := s.bad.filter (fun x => x ≠ fetchHome / 8)
    cores := Sparse.put s.cores 0 (fetchCore (s.core 0))
    ops := []
    parts := Sparse.put (s.parts.map (fun e => (e.1, { e.2 with dies := e.2.dies &&& 0xFFFE }))) 0
      { s.part 0 with dies := (s.part 0).dies ||| 1, st := .running }
    masked := s.masked.filter (fun g => g ≠ 0)
    agenda := [.core 0] }

end Sys2Proof.Machine
end

