-- ==== Sys2Proof/Safety.lean ====
section
/-! DEFINITION. Sys2Proof/Safety.lean: what counts as a safe step and a safe run of the machine, and the words in which
claims speak of an instruction: what its fields read, when it is ready to issue, and the state in which it ends. -/

namespace Sys2Proof.Machine

/-- The agents that the agenda names exist, and its events are events. -/
def Turn.ok : Turn → Bool
  | .event i _ => !i.isWord
  | .core g => g ≤ vrNum
  | .mason g => g < 4096

/-- A state whose agenda names turns of the part only. -/
def State.agendaOk (s : State) : Bool := s.agenda.all Turn.ok

/-- A step that answers a next state. -/
def Advances (s : State) : Prop := ∃ t, step s = .next t

/-- A safe run of n steps: every step answers a next state. -/
def SafeRun : Nat → State → Prop
  | 0, _ => True
  | n + 1, s => ∃ t, step s = .next t ∧ SafeRun n t

/-! ### What the fields of an instruction read (R9, R30, R178, R205) -/

/-- The cell that a source field reads: zero for name zero, a port's oldest word, the cell of the slot's window, or a
register of a mason unit. -/
def State.val (s : State) (n : Name) : Tagged :=
  match s.cur with
  | .mason g => { v := Sparse.get 0 (s.mason g).regs n.toNat, t := false }
  | .slot g k =>
    if n = 0 then {}
    else if n.isPort then ((s.slot g k).queue n.toNat).headD {}
    else s.cell g (s.physCell g k n.toNat)

/-- The state after a source field is read: a port's oldest word has been taken, and is recorded for the case that the
instruction gives it back (R264); no other read changes anything. -/
def State.took (s : State) (n : Name) : State :=
  match s.cur with
  | .mason _ => s
  | .slot g k =>
    if n.isPort then
      let x := s.slot g k
      let y := x.setQueue n.toNat (x.queue n.toNat).tail
      s.setSlot g k { y with taken := y.taken ++ [(n.toNat, (x.queue n.toNat).headD {})] }
    else s

/-- The lanes of a vector field and the tags of its eight cells. -/
def State.vec (s : State) (n : Name) : List (BitVec 32) × List Bool :=
  (lanesOf (s.group n 8), (s.group n 8).map (·.t))

/-! ### When an instruction is ready to issue (R157, R207, R213) -/

/-- Whether the executing unit runs the word of an instruction: a mason unit the words of R157 with names up to 39, a
Vrelell slot the words of R21, a slot the levels of R213. -/
def allowed (i : Instr) (s : State) : Bool :=
  match s.cur with
  | .mason _ =>
    masonAllows (encode i) && [(i.roles.a, i.roles.ra), (i.roles.b, i.roles.rb), (i.roles.d, i.roles.rd)].all
      (fun e => e.2 = .none || (!e.1.isPort && e.1.toNat ≤ 39))
  | .slot g _ =>
    (g ≠ vrNum || vrelellAllows (encode i)) && (match needLevel g i with
      | some l => s.me.level.meets l
      | none => false)

/-- Whether every cell that an instruction names lies in the slot's window. -/
def windowed (i : Instr) (s : State) : Bool :=
  s.inWindow i.roles.a i.roles.ra && s.inWindow i.roles.b i.roles.rb && s.inWindow i.roles.d i.roles.rd

/-- Whether the ports that an instruction names are connected, hold the words that it reads and have room for the word
that it writes, and no result written later than issue goes to a port. -/
def portsReady (i : Instr) (s : State) : Bool :=
  match s.portCheck (encode i) i.roles, s.lateCheck (encode i) i.roles with
  | .ok _, .ok _ => true
  | _, _ => false

/-- Nothing stands between a well-formed instruction and its own effect. -/
def ready (i : Instr) (s : State) : Bool :=
  i.wf && allowed i s && (s.onMason || (windowed i s && portsReady i s))

/-- The same as a proposition. -/
abbrev Ready (i : Instr) (s : State) : Prop := ready i s = true

/-! ### The states in which an instruction ends -/

/-- After an instruction of s that leaves t: the program counter is at A + 4. -/
def State.done (s t : State) : State := { t.goto (s.here + 4) with turn := .issued }

/-- After an instruction that leaves t and jumps. -/
def State.jumped (t : State) (target : Nat) : State := { t.goto target with turn := .issued }

/-- After an instruction that leaves t and whose slot waits, or has fallen vacant. -/
def State.stays (t : State) : State := { t with turn := .issued }

/-- After an instruction that leaves t and will issue again once what blocks its slot is over. -/
def State.onHold (t : State) : State := { t with turn := .blocked }

/-- After an instruction with a precise trap on a slot: R371 with the cause, TVAL and subcode, TEPC at the instruction. -/
def State.trapped (s : State) (g k : Nat) (i : Instr) (code : Nat) (val : Word) (sub : Nat := 0) : State :=
  { s.takeTrap g k code false val (tstatOf sub 0 (majorOf (encode i)) (fnOf (encode i)) 0) (s.slot g k).pc
    with turn := .issued }

/-- The state in which an operation of an instruction has been accepted: its counter is up by one, the slot's next sequence
number is used, and the operation is in flight with the next number (R180, R374). -/
def State.accept (s : State) (i : Instr) (c : CClass) (kind : OpKind) : State :=
  let x := s.me
  (s.setMe { x.setCount c (x.count c + 1) with seq := x.seq + 1 }).addOp s.gk.1 s.gk.2 (some c) x.seq.toNat (encode i) kind

/-- The queue of the engine that an operation is for has room, and so has the tiles counter (R16, R180). -/
def State.room (s : State) (mine : OpKind → Bool) : Bool :=
  (s.ops.filter (fun o => o.g = s.gk.1 && mine o.kind)).length < 8 && s.me.tiles < 255

/-- The state in which a slot waits for the answer of an operation (R264). -/
def State.awaiting (s : State) (id : Nat) : State := s.setMe { s.me with blocked := some (.answer id) }

/-- The state of a slot that is blocked and has changed nothing (R178, R264). -/
def State.blockedOn (s : State) (g k : Nat) (b : Block) : State :=
  { s.setSlot g k { s.slot g k with blocked := some b } with turn := .blocked }

/-- The state in which an operation of an instruction that raises no counter is in flight. -/
def State.acceptFree (s : State) (i : Instr) (kind : OpKind) : State :=
  s.addOp s.gk.1 s.gk.2 none 0 (encode i) kind

/-- A wait with four limits ends at once: the counters meet the limits, and no pending fault is covered, or the slot is in
its handler, where none surfaces (R272, R373, R376). -/
def Clear (s : State) (l st c t : Nat) : Prop :=
  s.waitMet s.gk.1 s.gk.2 l st c t = true ∧ (s.me.inHandler = true ∨ ∀ p ∈ s.me.pend, covers0 l st c t p.cls = false)

/-- R352, R358: an engine of the Vrelell core is free for the executing slot: it is idle, and no slot, nor at the key store a
creation, waits for it longer. -/
def State.vrFree (s : State) (e : Nat) : Bool := !s.vrHeld s.gk.1 e (s.me.since.getD (s.core s.gk.1).cyc)

/-- The operation that the event at hand is about is in flight. -/
def InFlight (s : State) (o : Op) : Prop := s.op? s.ev.id = some o

/-- The cells that an instruction writes at issue, as physical cells of the executing slot's core. -/
def State.dstCells (s : State) (i : Instr) : List Nat :=
  let n := match i.roles.rd with
    | .dst | .inOut => 1
    | .vecDst | .vecInOut => 8
    | .vfDst | .vfInOut => vfCells s.me.prec.toNat
    | .pairDst => 2
    | _ => 0
  if i.roles.d.toNat < 8 then []
  else (List.range n).map (fun j => s.physCell s.gk.1 s.gk.2 (i.roles.d.toNat + j))

/-- Between s and t nothing has changed but the named cells of core g, the program counter, port queues with the words
taken from them or still to be discarded, and float flags of its slot k, the operations in flight and the turn's result: memory
with its tags, every other cell and slot, every special and exception register, every mason unit and partition are as before. -/
structure KeepsRest (g k : Nat) (cells : List Nat) (s t : State) : Prop where
  mem : t.mem = s.mem
  tags : t.tags = s.tags
  bad : t.bad = s.bad
  masons : t.masons = s.masons
  parts : t.parts = s.parts
  gangs : t.gangs = s.gangs
  saves : t.saves = s.saves
  seals : t.seals = s.seals
  vr : t.vr = s.vr
  irqs : t.irqs = s.irqs
  cell : ∀ h c, ¬ (h = g ∧ c ∈ cells) → t.cell h c = s.cell h c
  slot : ∀ h j, ¬ (h = g ∧ j = k) → t.slot h j = s.slot h j
  core : ∀ h, { t.core h with rf := [], slots := [] } = { s.core h with rf := [], slots := [] }
  own : { t.slot g k with pc := 0, qn := [], qe := [], qs := [], qw := [], taken := [], discard := false, fctl := 0, vctl := 0 }
    = { s.slot g k with pc := 0, qn := [], qe := [], qs := [], qw := [], taken := [], discard := false, fctl := 0, vctl := 0 }

/-- The value of a finite number. -/
def FNum.rat : FNum → ℚ
  | .fin neg m e => (if neg then -1 else 1) * (m : ℚ) * 2 ^ e
  | _ => 0

/-- R95, R96: node i of level l of a balanced tree over leaves in order: a leaf on level 0, and on every other level what two
adjacent nodes of the level below come to. -/
def treeNode {α : Type} (op : α → α → α) (leaf : Nat → α) : Nat → Nat → α
  | 0, i => leaf i
  | l + 1, i => op (treeNode op leaf l (2 * i)) (treeNode op leaf l (2 * i + 1))

/-- An operation of the relational unit answers a value and changes nothing. -/
def Reads {α : Type} (m : RM α) (r : RelSt) (x : α) : Prop := m r = (.ok x, r)

/-- R111: the sum, in their order, of the elements of those places that have a key. -/
def groupSum (places : List Nat) (k : Nat → Word) (e : Nat → Elem) (key : Nat) : Option Elem :=
  match places.filter (fun i => (k i).toNat = key) with
  | [] => none
  | i :: is => some (is.foldl (fun a j => a.add (e j)) (e i))

/-- A table under construction has ascending keys, and holds under each what f says. -/
def Holds {α : Type} (b : Sparse α) (f : Nat → Option α) : Prop :=
  b.Pairwise (fun x y => x.1 < y.1) ∧ ∀ key, (b.find? (fun z => z.1 = key)).map (·.2) = f key

/-- The number of set bits of a word below a position. -/
def bitsBelow (x : Word) (n : Nat) : Nat := ((List.range n).filter (fun j => x.getLsbD j)).length

/-- R138: the source address of element j of a copy in transfer order. -/
def CopyCtl.srcAt (c : CopyCtl) (j : Nat) : Word :=
  c.csrc + BitVec.ofNat 64 (j / c.n0 / c.n1) * c.cstr2 + BitVec.ofNat 64 (j / c.n0 % c.n1) * c.cstr1
    + BitVec.ofNat 64 (j % c.n0 * fmtSize c.sf)

/-- R138: the destination address of element j of a copy in transfer order. -/
def CopyCtl.dstAt (c : CopyCtl) (j : Nat) : Word :=
  c.cdst + BitVec.ofNat 64 (j / c.n0 / c.n1) * c.cdstr2 + BitVec.ofNat 64 (j / c.n0 % c.n1) * c.cdstr1
    + BitVec.ofNat 64 (j % c.n0 * fmtSize c.df)

/-- R138: element j is valid: it is read, and not filled. -/
abbrev CopyCtl.validAt (c : CopyCtl) (j : Nat) : Prop := j / c.n0 / c.n1 < c.v2 ∧ j / c.n0 % c.n1 < c.v1 ∧ j % c.n0 < c.v0

/-- R67: where a byte of a physical address is stored when an engine writes it. -/
def State.engByte (s : State) (pa : Nat) : Nat := s.storage (8 * (pa / 8)) true + pa % 8

/-- R60, R67, R135, R137, R138, R392: t is s after the first n elements of a copy of an operation have been written, element j at
the physical address pa j with the bits and the flags of v j and the tag of tg j: those bytes have their values and every other
byte is as it was; a scratch word that the copy covers whole has the tag of its data and no error, and one that it covers in part
the OR of its tag with the data's; CSTAT has the flags while the thread is there; and no operation and no cell has changed. -/
structure Copied (s t : State) (o : Op) (c : CopyCtl) (n : Nat) (pa : Nat → Nat) (v : Nat → Nat × Fl) (tg : Nat → Bool) : Prop
    where
  bytes : ∀ j < n, ∀ b < fmtSize c.df, t.rawByte (s.engByte (pa j) + b) = BitVec.ofNat 8 ((v j).1 / 256 ^ b)
  rest : ∀ a, (∀ j < n, ¬ (s.engByte (pa j) ≤ a ∧ a < s.engByte (pa j) + fmtSize c.df)) → t.rawByte a = s.rawByte a
  tag : ∀ a, (∀ j < n, s.engByte (pa j) / 8 = a → (region (pa j)).tagged = true) →
    ((Sparse.get 0 t.tags a).getLsbD 2 = true ↔ (∃ j < n, s.engByte (pa j) / 8 = a ∧ tg j = true) ∨
      ((Sparse.get 0 s.tags a).getLsbD 2 = true ∧
        ¬ ∃ w, s.storage (8 * w) true = 8 * a ∧ ∀ b < 8, ∃ j < n, pa j ≤ 8 * w + b ∧ 8 * w + b < pa j + fmtSize c.df))
  states : ∀ a, (Sparse.get 0 t.tags a).extractLsb' 0 2 = (Sparse.get 0 s.tags a).extractLsb' 0 2
  untagged : ∀ a, (∀ j < n, s.engByte (pa j) / 8 = a → (region (pa j)).tagged = false) →
    Sparse.get 0 t.tags a = Sparse.get 0 s.tags a
  bad : ∀ a, a ∈ t.bad ↔ a ∈ s.bad ∧
    ¬ ∃ w, s.storage (8 * w) true = 8 * a ∧ ∀ b < 8, ∃ j < n, pa j ≤ 8 * w + b ∧ 8 * w + b < pa j + fmtSize c.df
  flags : (t.slot o.g o.k).cflags = if o.live
    then (List.range n).foldl (fun f j => f ||| cstatOf (v j).2) (s.slot o.g o.k).cflags else (s.slot o.g o.k).cflags
  ops : t.ops = s.ops
  cell : ∀ g a, t.cell g a = s.cell g a

/-- R63, R151: n bytes from a record's address on lie in one channel, and the address is aligned as a record's. -/
def RecordRun (pa n : Nat) : Prop := pa % 64 = 0 ∧ ∃ g off, region pa = .chan g off ∧ off + n ≤ 2 ^ 29

/-- R206: lane i of a run of cells. -/
def laneAt (cs : List (BitVec 32)) (i : Nat) : BitVec 32 := cs.getD i 0

/-! ### The shapes of the computing instructions -/

/-- The instruction reads a and then b, and writes at issue a cell value that P relates to the two values, with the OR of
their tags. -/
def Computes2 (mk : Name → Name → Name → Instr) (P : Word → Word → Word → Prop) : Prop :=
  ∀ (s : State) (d a b : Name), Ready (mk d a b) s →
    ∃ r, P (s.val a).v ((s.took a).val b).v r ∧
      exec (mk d a b) s = .next (s.done (((s.took a).took b).writeName d
        { v := r, t := (s.val a).t || ((s.took a).val b).t }))

/-- The instruction reads a and writes at issue a cell value that P relates to it, with its tag. -/
def Computes1 {α : Type} (mk : Name → Name → α → Instr) (P : α → Word → Word → Prop) : Prop :=
  ∀ (s : State) (d a : Name) (c : α), Ready (mk d a c) s →
    ∃ r, P c (s.val a).v r ∧
      exec (mk d a c) s = .next (s.done ((s.took a).writeName d { v := r, t := (s.val a).t }))

/-- The instruction reads two cells as Computes2 does, but is a division: a zero divisor while FCTL's enable of DZ is set
takes FPX with TVAL 2 instead (R221). -/
def Divides (mk : Name → Name → Name → Instr) (P : Word → Word → Word → Prop) : Prop :=
  ∀ (s : State) (d a b : Name), Ready (mk d a b) s →
    ((((s.took a).val b).v = 0 → s.fctlNow.getLsbD 17 = false) →
      ∃ r, P (s.val a).v ((s.took a).val b).v r ∧
        exec (mk d a b) s = .next (s.done (((s.took a).took b).writeName d
          { v := r, t := (s.val a).t || ((s.took a).val b).t }))) ∧
    (((s.took a).val b).v = 0 → s.fctlNow.getLsbD 17 = true → ∀ g k, s.cur = .slot g k →
      exec (mk d a b) s = .next (s.trapped g k (mk d a b) cFPX 2))

/-- The instruction compares two untagged cells and writes predicate p, where the guard holds, with whether P relates them;
a tagged cell raises BND on a slot, whether or not the guard holds (R210, R226). -/
def Compares (mk : BitVec 3 → BitVec 3 → BitVec 1 → Name → Name → Instr) (P : Word → Word → Prop) : Prop :=
  ∀ (s : State) (p g : BitVec 3) (n : BitVec 1) (a b : Name), Ready (mk p g n a b) s →
    (((s.val a).t || ((s.took a).val b).t) = false →
      ∃ v : Bool, (v = true ↔ P (s.val a).v ((s.took a).val b).v) ∧
        exec (mk p g n a b) s = .next (s.done
          (if s.guard g n then ((s.took a).took b).setPred p v else (s.took a).took b))) ∧
    (((s.val a).t || ((s.took a).val b).t) = true → ∀ h k, s.cur = .slot h k →
      exec (mk p g n a b) s = .next (s.trapped h k (mk p g n a b) cBND 0))

/-- The instruction writes predicate p, where the guard holds, with a value of the predicates before it (R210, R227). -/
def Sets {α : Type} (mk : BitVec 3 → BitVec 3 → BitVec 1 → α → Instr) (v : State → α → Bool) : Prop :=
  ∀ (s : State) (p g : BitVec 3) (n : BitVec 1) (x : α), Ready (mk p g n x) s →
    exec (mk p g n x) s = .next (s.done (if s.guard g n then s.setPred p (v s x) else s))

/-- FPX is not taken for a set of flags (R79). -/
def State.quiet (s : State) (fl : BitVec 5) : Prop := fl &&& s.fctlNow.extractLsb' 16 5 = 0

/-- An FP32 operation of two cells: the result in the low half of d with zeros above, and its flags into FCTL; with a
flag that FCTL enables, FPX instead, the flags into FCTL and TVAL and d unchanged (R79, R243, R244). -/
def Floats2 (mk : Name → Name → Name → Instr) (f : Nat → BitVec 32 → BitVec 32 → BitVec 32 × BitVec 5) : Prop :=
  ∀ (s : State) (d a b : Name), Ready (mk d a b) s →
    let r := f (s.fctlNow.extractLsb' 0 3).toNat ((s.val a).v.extractLsb' 0 32) (((s.took a).val b).v.extractLsb' 0 32)
    (s.quiet r.2 → exec (mk d a b) s = .next (s.done ((((s.took a).took b).orFctl r.2).writeName d
      { v := r.1.setWidth 64, t := (s.val a).t || ((s.took a).val b).t }))) ∧
    (¬ s.quiet r.2 → ∀ g k, s.cur = .slot g k →
      exec (mk d a b) s = .next ((s.orFctl r.2).trapped g k (mk d a b) cFPX (r.2.setWidth 64)))

/-- The same for an operation of one cell, whose result is a word. -/
def Floats1 (mk : Name → Name → Instr) (f : Nat → Word → Word × BitVec 5) : Prop :=
  ∀ (s : State) (d a : Name), Ready (mk d a) s →
    let r := f (s.fctlNow.extractLsb' 0 3).toNat (s.val a).v
    (s.quiet r.2 → exec (mk d a) s = .next (s.done (((s.took a).orFctl r.2).writeName d { v := r.1, t := (s.val a).t }))) ∧
    (¬ s.quiet r.2 → ∀ g k, s.cur = .slot g k →
      exec (mk d a) s = .next ((s.orFctl r.2).trapped g k (mk d a) cFPX (r.2.setWidth 64)))

/-- A lane-wise operation of two vectors: lane i of d from lanes i of a and b, the tag of each cell the OR of the tags of
the cells it is made from (R257, R259). -/
def Lanes2 (mk : Name → Name → Name → Instr) (P : BitVec 32 → BitVec 32 → BitVec 32 → Prop) : Prop :=
  ∀ (s : State) (d a b : Name), Ready (mk d a b) s →
    ∃ ls : List (BitVec 32), ls.length = 16 ∧
      (∀ i < 16, P (laneAt (s.vec a).1 i) (laneAt (s.vec b).1 i) (laneAt ls i)) ∧
      exec (mk d a b) s = .next (s.done (s.setGroup d (cellsOf (orTags (s.vec a).2 (s.vec b).2) ls)))

/-- A lane-wise FP32 operation of two vectors: the flags of the 16 lanes are gathered into FCTL, or FPX is taken (R243,
R261). -/
def FloatLanes2 (mk : Name → Name → Name → Instr) (f : Nat → BitVec 32 → BitVec 32 → BitVec 32 × BitVec 5) : Prop :=
  ∀ (s : State) (d a b : Name), Ready (mk d a b) s →
    let r := ((s.vec a).1.zip (s.vec b).1).map (fun e => f (s.fctlNow.extractLsb' 0 3).toNat e.1 e.2)
    let fl := r.foldl (fun fl e => fl ||| e.2) 0
    (s.quiet fl → exec (mk d a b) s = .next (s.done ((s.orFctl fl).setGroup d
      (cellsOf (orTags (s.vec a).2 (s.vec b).2) (r.map (·.1)))))) ∧
    (¬ s.quiet fl → ∀ g k, s.cur = .slot g k →
      exec (mk d a b) s = .next ((s.orFctl fl).trapped g k (mk d a b) cFPX (fl.setWidth 64)))

/-- The same for one vector. -/
def FloatLanes1 (mk : Name → Name → Instr) (f : Nat → BitVec 32 → BitVec 32 × BitVec 5) : Prop :=
  ∀ (s : State) (d a : Name), Ready (mk d a) s →
    let r := (s.vec a).1.map (f (s.fctlNow.extractLsb' 0 3).toNat)
    let fl := r.foldl (fun fl e => fl ||| e.2) 0
    (s.quiet fl → exec (mk d a) s = .next (s.done ((s.orFctl fl).setGroup d (cellsOf (s.vec a).2 (r.map (·.1)))))) ∧
    (¬ s.quiet fl → ∀ g k, s.cur = .slot g k →
      exec (mk d a) s = .next ((s.orFctl fl).trapped g k (mk d a) cFPX (fl.setWidth 64)))

/-- What a VF operand of a state holds: its value, NV when it is malformed, and the OR of its cells' tags (R90, R249). -/
def State.vfVal (s : State) (n : Name) : FNum × BitVec 4 × Bool :=
  let cs := s.vfCellsOf n
  ((vfValue (cs.map (·.v))).1, (vfValue (cs.map (·.v))).2, cs.any (·.t))

/-- R252: the end of a VF instruction of s that has read its fields, leaving u, with a result and flags: in exact mode an
inexact or out-of-range result takes PXH and nothing else happens; otherwise the flags go to VCTL and the result, rounded
once to PREC.P bits, to d. -/
def VfEnds (i : Instr) (d : Name) (s u : State) (r : Exact) (fl : BitVec 4) (t : Bool) : Prop :=
  let q := vfRound s.me.prec.toNat s.vctlMode r
  let all := fl ||| q.2
  ((s.me.vctl.getLsbD 0 = false ∨ all &&& 7 = 0) →
    exec i s = .next (s.done ((u.setMe { u.me with vctl := u.me.vctl ||| (all.setWidth 64 <<< 8) }).setGroup d
      ((vfImage q.1 (vfCells s.me.prec.toNat)).map (fun v => { v := v, t := t }))))) ∧
  (s.me.vctl.getLsbD 0 = true → all &&& 7 ≠ 0 → ∀ g k, s.cur = .slot g k →
    exec i s = .next (s.trapped g k i cPXH (all.setWidth 64)))

end Sys2Proof.Machine
end

