-- ==== Sys2Proof/Certificates/Slice0/Obligations.lean ====
section
/-! DEFINITION. Sys2Proof/Certificates/Slice0/Obligations.lean: the statements about the machine that the provers prove. -/

open Sys2Proof Sys2Proof.Machine

/-! ### Cell instructions (R220 to R225) -/

/-- R220: the seventeen cell operations of major 0x01 that complete at issue: which value each writes, with the OR of the
source tags (R98). Sums, differences and products wrap; shift counts are the low six bits. -/
def Obligations.AluResults : Prop :=
  Computes2 .add (fun x y r => r.toNat = (x.toNat + y.toNat) % 2 ^ 64) ∧
  Computes2 .sub (fun x y r => r.toNat = (2 ^ 64 + x.toNat - y.toNat) % 2 ^ 64) ∧
  Computes2 .and (fun x y r => ∀ j, r.getLsbD j = (x.getLsbD j && y.getLsbD j)) ∧
  Computes2 .or (fun x y r => ∀ j, r.getLsbD j = (x.getLsbD j || y.getLsbD j)) ∧
  Computes2 .xor (fun x y r => ∀ j, r.getLsbD j = (x.getLsbD j ^^ y.getLsbD j)) ∧
  Computes2 .sll (fun x y r => r.toNat = x.toNat * 2 ^ (y.toNat % 64) % 2 ^ 64) ∧
  Computes2 .srl (fun x y r => r.toNat = x.toNat / 2 ^ (y.toNat % 64)) ∧
  Computes2 .sra (fun x y r => r.toInt = x.toInt / 2 ^ (y.toNat % 64)) ∧
  Computes2 .slt (fun x y r => r = if x.toInt < y.toInt then 1 else 0) ∧
  Computes2 .sltu (fun x y r => r = if x.toNat < y.toNat then 1 else 0) ∧
  Computes2 .min (fun x y r => r = if x.toInt ≤ y.toInt then x else y) ∧
  Computes2 .max (fun x y r => r = if y.toInt ≤ x.toInt then x else y) ∧
  Computes2 .minu (fun x y r => r = if x.toNat ≤ y.toNat then x else y) ∧
  Computes2 .maxu (fun x y r => r = if y.toNat ≤ x.toNat then x else y) ∧
  Computes2 .mul (fun x y r => r.toNat = x.toNat * y.toNat % 2 ^ 64) ∧
  Computes2 .mulh (fun x y r => r.toInt = x.toInt * y.toInt / 2 ^ 64) ∧
  Computes2 .mulhu (fun x y r => r.toNat = x.toNat * y.toNat / 2 ^ 64)

/-- R221: division truncates toward zero, the remainder takes the sign of the dividend, and the edge cases have the values of
the rule; a zero divisor with FCTL's enable of DZ set takes FPX with TVAL 2. -/
def Obligations.DivisionResults : Prop :=
  Divides .div (fun x y r =>
    (y = 0 → r = BitVec.allOnes 64) ∧
    (x.toInt = -2 ^ 63 → y.toInt = -1 → r = x) ∧
    (y ≠ 0 → ¬ (x.toInt = -2 ^ 63 ∧ y.toInt = -1) → r.toInt = x.toInt.tdiv y.toInt)) ∧
  Divides .divu (fun x y r =>
    (y = 0 → r = BitVec.allOnes 64) ∧ (y ≠ 0 → r.toNat = x.toNat / y.toNat)) ∧
  Divides .rem (fun x y r =>
    (y = 0 → r = x) ∧ (y ≠ 0 → r.toInt = x.toInt - x.toInt.tdiv y.toInt * y.toInt)) ∧
  Divides .remu (fun x y r =>
    (y = 0 → r = x) ∧ (y ≠ 0 → r.toNat = x.toNat % y.toNat))

/-- R222: counts, ranks and bit fields, each value by the bits it has; bitsBelow counts the set bits below a position. fn 14 to
31 of the major are no instructions. -/
def Obligations.BitResults : Prop :=
  Computes1 (fun d a (_ : Unit) => .clz d a) (fun _ x r => r.toNat ≤ 64 ∧
    (∀ j, 64 - r.toNat ≤ j → x.getLsbD j = false) ∧ (r.toNat < 64 → x.getLsbD (63 - r.toNat) = true)) ∧
  Computes1 (fun d a (_ : Unit) => .ctz d a) (fun _ x r => r.toNat ≤ 64 ∧
    (∀ j < r.toNat, x.getLsbD j = false) ∧ (r.toNat < 64 → x.getLsbD r.toNat = true)) ∧
  Computes1 (fun d a (_ : Unit) => .popc d a) (fun _ x r => r.toNat = bitsBelow x 64) ∧
  Computes2 .rank (fun x y r => r.toNat = bitsBelow x (min y.toNat 64)) ∧
  Computes2 .nth (fun x y r => (bitsBelow x 64 ≤ y.toNat → r = 64) ∧
    (y.toNat < bitsBelow x 64 → r.toNat < 64 ∧ x.getLsbD r.toNat = true ∧ bitsBelow x r.toNat = y.toNat)) ∧
  Computes2 .bext (fun x y r => (∀ i < 64, y.getLsbD i = true → r.getLsbD (bitsBelow y i) = x.getLsbD i) ∧
    (∀ j, bitsBelow y 64 ≤ j → r.getLsbD j = false)) ∧
  Computes2 .bdep (fun x y r => ∀ i < 64, r.getLsbD i = (y.getLsbD i && x.getLsbD (bitsBelow y i))) ∧
  Computes1 (fun d a (_ : Unit) => .rev8 d a) (fun _ x r => ∀ j < 8, r.extractLsb' (8 * j) 8 = x.extractLsb' (8 * (7 - j)) 8) ∧
  Computes1 (fun d a (_ : Unit) => .sext8 d a) (fun _ x r => r.toInt = (x.extractLsb' 0 8).toInt) ∧
  Computes1 (fun d a (_ : Unit) => .sext16 d a) (fun _ x r => r.toInt = (x.extractLsb' 0 16).toInt) ∧
  Computes1 (fun d a (_ : Unit) => .sext32 d a) (fun _ x r => r.toInt = (x.extractLsb' 0 32).toInt) ∧
  Computes1 (fun d a (_ : Unit) => .zext8 d a) (fun _ x r => r.toNat = x.toNat % 2 ^ 8) ∧
  Computes1 (fun d a (_ : Unit) => .zext16 d a) (fun _ x r => r.toNat = x.toNat % 2 ^ 16) ∧
  Computes1 (fun d a (_ : Unit) => .zext32 d a) (fun _ x r => r.toNat = x.toNat % 2 ^ 32) ∧
  (∀ (d a b : BitVec 7) (f : BitVec 5), 14 ≤ f.toNat → decode (0x02#6 ++ d ++ a ++ b ++ f) = none)

/-- R223 to R225: the immediate forms; the immediate of format I is sign-extended first, also for sltiu. lui writes
sext(imm19 << 12, 31) and adpc the sum of that and A, both with a clear tag. A shift's word with imm[7:6] = 3 or with a bit of
imm[11:8] set is no instruction. -/
def Obligations.ImmediateResults : Prop :=
  Computes1 .addi (fun i x r => r.toNat = ((x.toInt + i.toInt) % 2 ^ 64).toNat) ∧
  Computes1 .andi (fun i x r => ∀ j < 64, r.getLsbD j = (x.getLsbD j && i.getLsbD (min j 11))) ∧
  Computes1 .ori (fun i x r => ∀ j < 64, r.getLsbD j = (x.getLsbD j || i.getLsbD (min j 11))) ∧
  Computes1 .xori (fun i x r => ∀ j < 64, r.getLsbD j = (x.getLsbD j ^^ i.getLsbD (min j 11))) ∧
  Computes1 .slti (fun i x r => r = if x.toInt < i.toInt then 1 else 0) ∧
  Computes1 .sltiu (fun i x r => r = if (x.toNat : Int) < i.toInt % 2 ^ 64 then 1 else 0) ∧
  Computes1 .slli (fun c x r => r.toNat = x.toNat * 2 ^ c.toNat % 2 ^ 64) ∧
  Computes1 .srli (fun c x r => r.toNat = x.toNat / 2 ^ c.toNat) ∧
  Computes1 .srai (fun c x r => r.toInt = x.toInt / 2 ^ c.toNat) ∧
  (∀ (s : State) (d : Name) (i : BitVec 19),
     (Ready (.lui d i) s → ∃ r : Word, r.toInt = i.toInt * 2 ^ 12 ∧
       exec (.lui d i) s = .next (s.done (s.writeName d { v := r, t := false }))) ∧
     (Ready (.adpc d i) s → ∃ r : Word, r.toNat = ((s.here + i.toInt * 2 ^ 12 : Int) % 2 ^ 64).toNat ∧
       exec (.adpc d i) s = .next (s.done (s.writeName d { v := r, t := false })))) ∧
  (∀ (d a : BitVec 7) (hi : BitVec 4) (f : BitVec 2) (c : BitVec 6), (hi ≠ 0 ∨ f = 3) →
     decode (0x09#6 ++ d ++ a ++ hi ++ f ++ c) = none)

/-! ### Predicates and branches (R210, R226 to R230) -/

/-- R226: the integer compares and the bit test, under the guard of R210. -/
def Obligations.IntegerCompares : Prop :=
  Compares .pcmpEq (fun x y => x = y) ∧
  Compares .pcmpNe (fun x y => x ≠ y) ∧
  Compares .pcmpLt (fun x y => x.toInt < y.toInt) ∧
  Compares .pcmpGe (fun x y => y.toInt ≤ x.toInt) ∧
  Compares .pcmpLtu (fun x y => x.toNat < y.toNat) ∧
  Compares .pcmpGeu (fun x y => y.toNat ≤ x.toNat) ∧
  Compares .pcmpBit (fun x y => x.getLsbD (y.toNat % 64) = true)

/-- R210, R226: the FP32 and VF compares of untagged operands: false for a NaN but for f.un; a signalling compare raises NV for
any NaN, a quiet one for a signalling NaN only. Where the guard holds, an enabled NV of an FP32 compare takes FPX and leaves the
predicate; the NV of a VF compare goes to VCTL and never traps. A tagged operand raises BND, whether or not the guard holds. The
order of the values that VF operands hold: nothing holds of a NaN, finite numbers compare as the rational numbers that they are,
so that zeros of either sign are equal, and the infinities stand below and above them all. -/
def Obligations.FloatCompares : Prop :=
  (∀ (x y : FNum) (a b : Bool) (m n : Nat) (e f : Int),
     let i (neg : Bool) : FNum := .inf neg
     let u : FNum := .fin a m e
     let v : FNum := .fin b n f
     ((x.isNan || y.isNan) = true → numEq x y = false ∧ numLt x y = false ∧ numLe x y = false) ∧
     (numEq u v = true ↔ u.rat = v.rat) ∧ (numLt u v = true ↔ u.rat < v.rat) ∧ (numLe u v = true ↔ u.rat ≤ v.rat) ∧
     numEq (i a) v = false ∧ numEq v (i a) = false ∧ numLt (i a) v = a ∧ numLt v (i a) = !a ∧ numLe (i a) v = a ∧
     numLe v (i a) = !a ∧
     numEq (i a) (i b) = decide (a = b) ∧ numLt (i a) (i b) = (a && !b) ∧ numLe (i a) (i b) = (a || !b)) ∧
  (∀ c ∈ [(Instr.pcmpFEq, false, fun x y => numEq (num32 x) (num32 y)),
          (Instr.pcmpFLt, true, fun x y => numLt (num32 x) (num32 y)),
          (Instr.pcmpFLe, true, fun x y => numLe (num32 x) (num32 y)),
          (Instr.pcmpFUn, false, fun x y => (num32 x).isNan || (num32 y).isNan)],
     ∀ (s : State) (p g : BitVec 3) (n : BitVec 1) (a b : Name), Ready (c.1 p g n a b) s →
       (s.val a).t = false → ((s.took a).val b).t = false →
       let x := (s.val a).v.extractLsb' 0 32
       let y := ((s.took a).val b).v.extractLsb' 0 32
       let fl : BitVec 5 := if (if c.2.1 then (num32 x).isNan || (num32 y).isNan
         else fmt32.signals x.toNat || fmt32.signals y.toNat) then flNV else 0
       let t := (s.took a).took b
       (s.guard g n = false → exec (c.1 p g n a b) s = .next (s.done t)) ∧
       (s.guard g n = true → s.quiet fl →
         exec (c.1 p g n a b) s = .next (s.done ((t.orFctl fl).setPred p (c.2.2 x y)))) ∧
       (s.guard g n = true → ¬ s.quiet fl → ∀ h k, s.cur = .slot h k →
         exec (c.1 p g n a b) s = .next ((s.orFctl fl).trapped h k (c.1 p g n a b) cFPX (fl.setWidth 64)))) ∧
  (∀ c ∈ [(Instr.pcmpVfEq, false, numEq), (Instr.pcmpVfLt, true, numLt), (Instr.pcmpVfLe, true, numLe)],
     ∀ (s : State) (p g : BitVec 3) (n : BitVec 1) (a b : Name) (h k : Nat), Ready (c.1 p g n a b) s → s.cur = .slot h k →
       (s.vfVal a).2.2 = false → (s.vfVal b).2.2 = false →
       let fl : BitVec 4 := (s.vfVal a).2.1 ||| (s.vfVal b).2.1 |||
         (if c.2.1 && ((s.vfVal a).1.isNan || (s.vfVal b).1.isNan) then vlNV else 0)
       exec (c.1 p g n a b) s = .next (s.done (if s.guard g n then
         (s.setMe { s.me with vctl := s.me.vctl ||| (fl.setWidth 64 <<< 8) }).setPred p (c.2.2 (s.vfVal a).1 (s.vfVal b).1)
         else s))) ∧
  (∀ (s : State) (p g : BitVec 3) (n : BitVec 1) (a b : Name) (h k : Nat), s.cur = .slot h k →
     (∀ i ∈ [Instr.pcmpFEq p g n a b, .pcmpFLt p g n a b, .pcmpFLe p g n a b, .pcmpFUn p g n a b], Ready i s →
       ((s.val a).t = true ∨ ((s.took a).val b).t = true) → exec i s = .next (s.trapped h k i cBND 0)) ∧
     (∀ i ∈ [Instr.pcmpVfEq p g n a b, .pcmpVfLt p g n a b, .pcmpVfLe p g n a b], Ready i s →
       ((s.vfVal a).2.2 = true ∨ (s.vfVal b).2.2 = true) → exec i s = .next (s.trapped h k i cBND 0)))

/-- R78, R80, R81, R93, R95, R226, R245, R251: the values of the float operations. The order of FP32 values that the compares see
is that of the signed magnitudes with zeros of either sign equal, while nothing holds of a NaN; and a NaN among the operands of
an arithmetic operation gives the canonical quiet NaN 0x7FC0_0000, and NV exactly when one of them is a signalling NaN, or f.fma
multiplies zero by an infinity. A sum that is exactly zero has the sign of its operands, and of operands of opposite sign +0, or
-0 in mode down; a zero, an infinity and a NaN round to themselves. Sums and products are exact, a quotient and a root exact up to
a remainder that is noted; each result is rounded once, by the table of R81, to a multiple of a unit, and the unit is the last
place of the format: of binary32, BF16 and binary64 with subnormals,
OF beyond the largest number and UF for a result that is tiny after rounding, and of VF at the bits of PREC with the limits of
R93. -/
def Obligations.FloatValues : Prop :=
  (∀ x y : BitVec 32,
     let nan (z : BitVec 32) : Bool := z.extractLsb' 23 8 = 255 && z.extractLsb' 0 23 ≠ 0
     let key (z : BitVec 32) : Int := if z.getLsbD 31 then -(z.toNat % 2 ^ 31 : Nat) else (z.toNat % 2 ^ 31 : Nat)
     (num32 x).isNan = nan x ∧
     (numEq (num32 x) (num32 y) = true ↔ nan x = false ∧ nan y = false ∧ key x = key y) ∧
     (numLt (num32 x) (num32 y) = true ↔ nan x = false ∧ nan y = false ∧ key x < key y) ∧
     (numLe (num32 x) (num32 y) = true ↔ nan x = false ∧ nan y = false ∧ key x ≤ key y)) ∧
  (∀ (m : Nat) (x y : BitVec 32), ((num32 x).isNan || (num32 y).isNan) = true →
     ∀ f ∈ [fAdd, fSub, fMul, fDiv],
       f m x y = (0x7FC00000, if fmt32.signals x.toNat || fmt32.signals y.toNat then flNV else 0)) ∧
  (∀ (m : Nat) (x y z : BitVec 32), ((num32 x).isNan || (num32 y).isNan || (num32 z).isNan) = true →
     let zeroInf (u v : BitVec 32) : Bool := u.toNat % 2 ^ 31 = 0 && v.toNat % 2 ^ 31 = 0x7F800000
     fFma m x y z = (0x7FC00000, if fmt32.signals x.toNat || fmt32.signals y.toNat || fmt32.signals z.toNat || zeroInf x y ||
       zeroInf y x then flNV else 0)) ∧
  (∀ f ∈ [fmt32, fmtBF16, fmt64], ∀ (mode : Nat) (neg st : Bool) (e : Int),
     f.num (f.round mode { x := .inf neg, sticky := st }).1 = .inf neg ∧ (f.round mode { x := .inf neg, sticky := st }).2 = 0 ∧
     f.round mode { x := .fin neg 0 e, sticky := st } = (if neg then 2 ^ (f.p - 1 + f.w) else 0, 0) ∧
     f.round mode { x := .nan, sticky := st } = (2 ^ (f.p - 1 + f.w) - 2 ^ (f.p - 2), 0)) ∧
  (∀ x : BitVec 32, x.extractLsb' 23 8 ≠ 255 →
     let ex := (x.extractLsb' 23 8).toNat
     (num32 x).rat = (if x.getLsbD 31 then -1 else 1) * (((x.extractLsb' 0 23).toNat + (if ex = 0 then 0 else 2 ^ 23) : Nat) : ℚ)
       * 2 ^ ((max ex 1 : Nat) - 150 : Int)) ∧
  (∀ (mode : Nat) (a b c : Bool) (m n l : Nat) (e f g : Int),
     let x : FNum := .fin a m e
     let y : FNum := .fin b n f
     let z : FNum := .fin c l g
     (∃ d k h, x.add mode y = (.fin d k h, false) ∧ (FNum.fin d k h).rat = x.rat + y.rat) ∧
     (x.rat + y.rat = 0 → x.add mode y = (.fin (if a = b then a else decide (mode = 3)) 0 0, false)) ∧
     (∃ d k h, x.mul y = (.fin d k h, false) ∧ d = (a ^^ b) ∧ (FNum.fin d k h).rat = x.rat * y.rat) ∧
     (∃ d k h, FNum.fma mode x y z = (.fin d k h, false) ∧ (FNum.fin d k h).rat = x.rat * y.rat + z.rat) ∧
     (∀ p, m ≠ 0 → n ≠ 0 → ∃ k h st, FNum.div p x y = ({ x := .fin (a ^^ b) k h, sticky := st }, 0) ∧ 2 ^ (p + 2) ≤ k ∧
       (k : ℚ) * 2 ^ h ≤ |x.rat| / |y.rat| ∧ |x.rat| / |y.rat| < ((k + 1 : Nat) : ℚ) * 2 ^ h ∧
       (st = true ↔ (k : ℚ) * 2 ^ h ≠ |x.rat| / |y.rat|)) ∧
     (∀ p, m ≠ 0 → a = false → ∃ k h st, FNum.sqrt p x = ({ x := .fin false k h, sticky := st }, false) ∧ 2 ^ (p + 2) ≤ k ∧
       ((k : ℚ) * 2 ^ h) ^ 2 ≤ x.rat ∧ x.rat < (((k + 1 : Nat) : ℚ) * 2 ^ h) ^ 2 ∧
       (st = true ↔ ((k : ℚ) * 2 ^ h) ^ 2 ≠ x.rat))) ∧
  (∀ (m : Nat) (x y z : BitVec 32), (num32 x).isNan = false → (num32 y).isNan = false → (num32 z).isNan = false →
     let X := num32 x
     let Y := num32 y
     let fin (n : FNum) : Bool := match n with | .fin _ _ _ => true | _ => false
     fin X = true → fin Y = true → fin (num32 z) = true →
       fAdd m x y = rnd32 m { x := (X.add m Y).1 } ∧ fSub m x y = rnd32 m { x := (X.add m Y.neg).1 } ∧
       fMul m x y = rnd32 m { x := (X.mul Y).1 } ∧ fFma m x y z = rnd32 m { x := (FNum.fma m X Y (num32 z)).1 } ∧
       (X.rat ≠ 0 → Y.rat ≠ 0 → fDiv m x y = rnd32 m (FNum.div 24 X Y).1) ∧
       (0 < X.rat → fSqrt m x = rnd32 m (FNum.sqrt 24 X).1)) ∧
  (∀ (mode : Nat) (neg sticky : Bool) (m : Nat) (e q : Int), mode ≤ 4 →
     let c := (quantize mode neg m e sticky q).1
     let inexact := (quantize mode neg m e sticky q).2
     let u := 2 ^ (q - e).toNat
     let lo := m / u
     (q ≤ e → c = m * 2 ^ (e - q).toNat ∧ inexact = sticky) ∧
     (e < q → (inexact = true ↔ m % u ≠ 0 ∨ sticky = true) ∧ (inexact = false → c = lo) ∧
       (inexact = true →
         (mode = 0 → (2 * (m % u) < u → c = lo) ∧ (u < 2 * (m % u) → c = lo + 1) ∧
           (2 * (m % u) = u → sticky = true → c = lo + 1) ∧
           (2 * (m % u) = u → sticky = false → c % 2 = 0 ∧ (c = lo ∨ c = lo + 1))) ∧
         (mode = 1 → c = lo) ∧ (mode = 2 → c = if neg then lo else lo + 1) ∧ (mode = 3 → c = if neg then lo + 1 else lo) ∧
         (mode = 4 → c % 2 = 1 ∧ (c = lo ∨ c = lo + 1))))) ∧
  (∀ f ∈ [fmt32, fmtBF16, fmt64], ∀ (mode : Nat) (neg sticky : Bool) (m : Nat) (e : Int), mode ≤ 4 → m ≠ 0 →
     let qn : Int := e + bitLen m - f.p
     let q := max qn (f.emin - f.p + 1)
     let c := quantize mode neg m e sticky q
     let un := (quantize mode neg m e sticky qn).1
     let r := f.round mode { x := .fin neg m e, sticky := sticky }
     ((c.1 : ℚ) * 2 ^ q < 2 ^ (f.emax + 1) →
       (∃ k h, f.num r.1 = .fin neg k h) ∧ (f.num r.1).rat = (if neg then -1 else 1) * (c.1 : ℚ) * 2 ^ q ∧
       r.2.getLsbD 4 = c.2 ∧ r.2.getLsbD 2 = false ∧
       (r.2.getLsbD 3 = true ↔ c.2 = true ∧ (un : ℚ) * 2 ^ qn < 2 ^ f.emin)) ∧
     ((2 : ℚ) ^ (f.emax + 1) ≤ c.1 * 2 ^ q → r.2 = flOF ||| flNX ∧
       f.num r.1 = if mode = 0 ∨ (mode = 2 ∧ neg = false) ∨ (mode = 3 ∧ neg = true) then .inf neg
         else .fin neg (2 ^ f.p - 1) (f.emax - f.p + 1))) ∧
  (∀ (p mode : Nat) (neg sticky : Bool) (m : Nat) (e : Int), mode ≤ 4 → 1 ≤ p → m ≠ 0 →
     let q : Int := e + bitLen m - p
     let c := quantize mode neg m e sticky q
     let r := vfRound p mode { x := .fin neg m e, sticky := sticky }
     let away (ms : List (Nat × Bool)) : Bool := ms.contains (mode, neg)
     ((2 : ℚ) ^ (-32766 : Int) ≤ c.1 * 2 ^ q → (c.1 : ℚ) * 2 ^ q < 2 ^ 32768 →
       r = (.fin neg c.1 q, if c.2 then vlNX else 0)) ∧
     ((2 : ℚ) ^ 32768 ≤ c.1 * 2 ^ q → r = (if away [(0, false), (0, true), (2, false), (3, true)] then .inf neg
       else .fin neg (2 ^ p - 1) (32768 - p), vlOF ||| vlNX)) ∧
     ((c.1 : ℚ) * 2 ^ q < 2 ^ (-32766 : Int) → r = (if away [(4, false), (4, true), (2, false), (3, true)] then .fin neg 1 (-32766)
       else .fin neg 0 0, vlUF ||| vlNX)))

/-- R227: the operations on predicates, under the guard of R210; p0 reads true. -/
def Obligations.PredicateLogic : Prop :=
  Sets (fun p g n (x : BitVec 3 × BitVec 3) => .pand p g n x.1 x.2) (fun s x => s.predBit x.1 && s.predBit x.2) ∧
  Sets (fun p g n (x : BitVec 3 × BitVec 3) => .por p g n x.1 x.2) (fun s x => s.predBit x.1 || s.predBit x.2) ∧
  Sets (fun p g n (x : BitVec 3 × BitVec 3) => .pxor p g n x.1 x.2) (fun s x => s.predBit x.1 ^^ s.predBit x.2) ∧
  Sets (fun p g n (x : BitVec 3 × BitVec 3) => .pandn p g n x.1 x.2) (fun s x => s.predBit x.1 && !s.predBit x.2) ∧
  Sets .pmov (fun s x => s.predBit x) ∧
  Sets .pnot (fun s x => !s.predBit x) ∧
  Sets .pset (fun _ x => x = 1) ∧
  (∀ s : State, s.predBit 0 = true)

/-- R228, R230: the branches and pskip on a slot: where the program counter goes, and the link that bl and jlr write; a
target of jr or jlr that is no multiple of 4 raises ALN at the jump with TVAL the target, and a tagged one BND. A pskip with
n = 0 or a reserved bit set is no instruction. -/
def Obligations.Branches : Prop :=
  (∀ (n : BitVec 1) (p : BitVec 3) (x : BitVec 18) (c : BitVec 4), (x ≠ 0 ∨ c = 0) →
    decode (0x3B#6 ++ n ++ p ++ x ++ c) = none) ∧
  ∀ (s : State) (g k : Nat), s.cur = .slot g k → s.here % 4 = 0 →
    (∀ n p (o : BitVec 22), Ready (.bp n p o) s → exec (.bp n p o) s = .next
      (if s.predBit p ^^ decide (n = 1) then State.jumped s ((s.here + 4 * o.toInt) % 2 ^ 64).toNat else s.done s)) ∧
    (∀ o : BitVec 26, Ready (.br o) s → exec (.br o) s = .next (State.jumped s ((s.here + 4 * o.toInt) % 2 ^ 64).toNat)) ∧
    (∀ o : BitVec 26, Ready (.bl o) s → exec (.bl o) s = .next (State.jumped
      (s.writeName 8 { v := BitVec.ofNat 64 (s.here + 4), t := false }) ((s.here + 4 * o.toInt) % 2 ^ 64).toNat)) ∧
    (∀ a, Ready (.jr a) s → (s.val a).t = false → (s.val a).v.toNat % 4 = 0 →
      exec (.jr a) s = .next (State.jumped (s.took a) (s.val a).v.toNat)) ∧
    (∀ d a, Ready (.jlr d a) s → (s.val a).t = false → (s.val a).v.toNat % 4 = 0 →
      exec (.jlr d a) s = .next (State.jumped
        ((s.took a).writeName d { v := BitVec.ofNat 64 (s.here + 4), t := false }) (s.val a).v.toNat)) ∧
    (∀ d a, ∀ i ∈ [Instr.jr a, .jlr d a], Ready i s →
      ((s.val a).t = true → exec i s = .next (s.trapped g k i cBND 0)) ∧
      ((s.val a).t = false → (s.val a).v.toNat % 4 ≠ 0 → exec i s = .next (s.trapped g k i cALN (s.val a).v))) ∧
    (∀ n p (c : BitVec 4), Ready (.pskip n p c) s → exec (.pskip n p c) s = .next
      (if s.predBit p ^^ decide (n = 1) then State.jumped s ((s.here + 4 * (c.toNat + 1)) % 2 ^ 64) else s.done s))

/-! ### Scalar and vector arithmetic (R243 to R262) -/

/-- R83, R84, R243 to R247: every FP32 instruction: its operation, the tag of its result, its flags, and FPX; and what the
operations are where rounding (FloatValues) does not say it: special operands, the lesser and the greater, sign changes, the
classes, and the conversions to and from integers, BF16 and F8. -/
def Obligations.FloatResults : Prop :=
  Floats2 .fAdd fAdd ∧ Floats2 .fSub fSub ∧ Floats2 .fMul fMul ∧ Floats2 .fDiv fDiv ∧
  Floats2 .fMin (fun _ => fMinMax false) ∧ Floats2 .fMax (fun _ => fMinMax true) ∧
  Floats1 .fSqrt (fun m x => ((fSqrt m (x.extractLsb' 0 32)).1.setWidth 64, (fSqrt m (x.extractLsb' 0 32)).2)) ∧
  Floats1 .fAbs (fun _ x => ((fAbs (x.extractLsb' 0 32)).setWidth 64, 0)) ∧
  Floats1 .fNeg (fun _ x => ((fNeg (x.extractLsb' 0 32)).setWidth 64, 0)) ∧
  Floats1 .fCvtFi (fun m x => ((fOfInt m x.toInt).1.setWidth 64, (fOfInt m x.toInt).2)) ∧
  Floats1 .fCvtIf (fun m x => let r := numToInt m 64 { x := num32 (x.extractLsb' 0 32) }; (BitVec.ofInt 64 r.1, r.2)) ∧
  Floats1 .fCvtIft (fun _ x => let r := numToInt 1 64 { x := num32 (x.extractLsb' 0 32) }; (BitVec.ofInt 64 r.1, r.2)) ∧
  Floats1 .fCvtBf (fun m x => ((bf16Of m (x.extractLsb' 0 32)).1.setWidth 64, (bf16Of m (x.extractLsb' 0 32)).2)) ∧
  Floats1 .fCvtFb (fun _ x => ((f32OfBf16 (x.extractLsb' 0 16)).1.setWidth 64, (f32OfBf16 (x.extractLsb' 0 16)).2)) ∧
  Floats1 .fCvt8f (fun m x => ((f8Of32 m (x.extractLsb' 0 32)).1.setWidth 64, (f8Of32 m (x.extractLsb' 0 32)).2)) ∧
  Floats1 .fCvtF8 (fun _ x => ((f32Of8 (x.extractLsb' 0 8)).setWidth 64, 0)) ∧
  Floats1 .fClass (fun _ x => (fClass (x.extractLsb' 0 32), 0)) ∧
  (∀ (s : State) (d a b : Name), Ready (.fFma d a b) s →
    let lo (n : Name) : BitVec 32 := (s.val n).v.extractLsb' 0 32
    let r := fFma (s.fctlNow.extractLsb' 0 3).toNat (lo a) (((s.took a).val b).v.extractLsb' 0 32) (lo d)
    (s.quiet r.2 → exec (.fFma d a b) s = .next (s.done ((((s.took a).took b).orFctl r.2).writeName d
      { v := r.1.setWidth 64, t := (s.val a).t || ((s.took a).val b).t || (s.val d).t }))) ∧
    (¬ s.quiet r.2 → ∀ g k, s.cur = .slot g k →
      exec (.fFma d a b) s = .next ((s.orFctl r.2).trapped g k (.fFma d a b) cFPX (r.2.setWidth 64)))) ∧
  (let big : Nat := 0x7F800000
   let body (z : BitVec 32) : Nat := z.toNat % 2 ^ 31
   let neg (z : BitVec 32) : Bool := z.getLsbD 31
   let nan : BitVec 32 := 0x7FC00000
   let signals (z : BitVec 32) : Bool := big < body z && body z < 0x7FC00000
   let nvOf (z : BitVec 32) : BitVec 5 := if signals z then flNV else 0
   let order (z : BitVec 32) : Int := if neg z then -(body z : Int) - 1 else body z
   (∀ (m : Nat) (x y z : BitVec 32),
     (body x = big → body y = big → fDiv m x y = (nan, flNV) ∧ (neg x ≠ neg y → fAdd m x y = (nan, flNV)) ∧
       (neg x = neg y → fSub m x y = (nan, flNV))) ∧
     (body x = 0 → body y = big → fMul m x y = (nan, flNV) ∧ fMul m y x = (nan, flNV) ∧ fFma m x y z = (nan, flNV) ∧
       fFma m y x z = (nan, flNV)) ∧
     (body x = big → 0 < body y → body y ≤ big → body z = big → neg z ≠ (neg x ^^ neg y) → fFma m x y z = (nan, flNV)) ∧
     (0 < body x → body x < big → body y = 0 →
       fDiv m x y = (if neg x ^^ neg y then 0xFF800000 else 0x7F800000, flDZ)) ∧
     (body x = 0 → body y = 0 → fDiv m x y = (nan, flNV)) ∧
     (body x = 0 → fSqrt m x = (x, 0)) ∧
     (0 < body x → body x ≤ big → neg x = true → fSqrt m x = (nan, flNV)) ∧
     (∀ f, (big < body x → body y ≤ big → fMinMax f x y = (y, nvOf x) ∧ fMinMax f y x = (y, nvOf x)) ∧
       (big < body x → big < body y → fMinMax f x y = (nan, nvOf x ||| nvOf y))) ∧
     (body x ≤ big → body y ≤ big → fMinMax false x y = (if order x ≤ order y then x else y, 0) ∧
       fMinMax true x y = (if order y ≤ order x then x else y, 0)) ∧
     (body x ≤ big → fAbs x = BitVec.ofNat 32 (body x) ∧ fNeg x = x ^^^ 0x80000000) ∧
     (big < body x → fAbs x = nan ∧ fNeg x = nan ∧ fSqrt m x = (nan, nvOf x)) ∧
     fClass x = BitVec.ofNat 64 (2 ^ (if big < body x then (if signals x then 8 else 9)
       else if body x = big then (if neg x then 0 else 7) else if body x = 0 then (if neg x then 3 else 4)
       else if body x < 2 ^ 23 then (if neg x then 2 else 5) else (if neg x then 1 else 6))) ∧
     (body x ≤ big → bf16Of m x = (BitVec.ofNat 16 (fmtBF16.round m { x := num32 x }).1, (fmtBF16.round m { x := num32 x }).2)) ∧
     (big < body x → bf16Of m x = (0x7FC0, nvOf x)) ∧
     (∀ h : BitVec 16, x = h ++ (0 : BitVec 16) → f32OfBf16 h = if big < body x then (nan, nvOf x) else (x, 0)) ∧
     (big < body x → f8Of32 m x = (if neg x then 0xFF else 0x7F, nvOf x)) ∧
     (body x = big → f8Of32 m x = (if neg x then 0xFE else 0x7E, 0)) ∧
     (body x = 0 → f8Of32 m x = (if neg x then 0x80 else 0, 0)) ∧
     (∀ n k e, m ≤ 4 → num32 x = .fin n k e → k ≠ 0 →
       let qn : Int := e + bitLen k - 4
       let q := max qn (-9)
       let c := quantize m n k e false q
       let un := (quantize m n k e false qn).1
       let r := f8Of32 m x
       ((c.1 : ℚ) * 2 ^ q ≤ 448 → (num8 r.1).rat = (if n then -1 else 1) * (c.1 : ℚ) * 2 ^ q ∧ r.1.getLsbD 7 = n ∧
         r.2.getLsbD 4 = c.2 ∧ r.2.getLsbD 2 = false ∧ (r.2.getLsbD 3 = true ↔ c.2 = true ∧ (un : ℚ) * 2 ^ qn < 2 ^ (-6 : Int))) ∧
       (448 < (c.1 : ℚ) * 2 ^ q → r = (if n then 0xFE else 0x7E, flOF ||| flNX)))) ∧
   (∀ h : BitVec 8, let e := h.toNat / 8 % 16
     (h.toNat % 128 = 127 → f32Of8 h = nan) ∧
     (h.toNat % 128 ≠ 127 → (f32Of8 h).getLsbD 31 = h.getLsbD 7 ∧ (num32 (f32Of8 h)).rat = (num8 h).rat ∧
       (num8 h).rat = (if h.getLsbD 7 then -1 else 1) * (if e = 0 then ((h.toNat % 8 : Nat) : ℚ) * 2 ^ (-9 : Int)
         else ((8 + h.toNat % 8 : Nat) : ℚ) * 2 ^ ((e : Int) - 10)))) ∧
   (∀ (m : Nat) (v : Int), fOfInt m v = rnd32 m { x := numOfInt v } ∧ (numOfInt v).rat = v) ∧
   (∀ (m w : Nat) (n : Bool) (k : Nat) (e : Int),
     let c := quantize m n k e false 0
     let v : Int := if n then -(c.1 : Int) else c.1
     numToInt m w { x := .fin n k e } = (if v < -2 ^ (w - 1) then (-2 ^ (w - 1), flNV)
       else if 2 ^ (w - 1) - 1 < v then (2 ^ (w - 1) - 1, flNV) else (v, if c.2 then flNX else 0)) ∧
     numToInt m w { x := .inf n } = (if n then -2 ^ (w - 1) else 2 ^ (w - 1) - 1, flNV) ∧
     numToInt m w { x := .nan } = (0, flNV)))

/-- R258 to R260: the vector integer instructions, lane by lane, and the ones that cross lanes. That the cell which v.ins writes
takes the OR of all the tags it reads, and that the other cells keep theirs, is the model's reading (log 49). -/
def Obligations.VectorIntegers : Prop :=
  Lanes2 .vAddI32 (fun x y r => r.toNat = (x.toNat + y.toNat) % 2 ^ 32) ∧
  Lanes2 .vSubI32 (fun x y r => r.toNat = (2 ^ 32 + x.toNat - y.toNat) % 2 ^ 32) ∧
  Lanes2 .vMulI32 (fun x y r => r.toNat = x.toNat * y.toNat % 2 ^ 32) ∧
  Lanes2 .vMinI32 (fun x y r => r = if x.toInt ≤ y.toInt then x else y) ∧
  Lanes2 .vMaxI32 (fun x y r => r = if y.toInt ≤ x.toInt then x else y) ∧
  Lanes2 .vAnd (fun x y r => ∀ j, r.getLsbD j = (x.getLsbD j && y.getLsbD j)) ∧
  Lanes2 .vOr (fun x y r => ∀ j, r.getLsbD j = (x.getLsbD j || y.getLsbD j)) ∧
  Lanes2 .vXor (fun x y r => ∀ j, r.getLsbD j = (x.getLsbD j ^^ y.getLsbD j)) ∧
  Lanes2 .vShl (fun x y r => r.toNat = x.toNat * 2 ^ (y.toNat % 32) % 2 ^ 32) ∧
  Lanes2 .vShr (fun x y r => r.toNat = x.toNat / 2 ^ (y.toNat % 32)) ∧
  Lanes2 .vSra (fun x y r => r.toInt = x.toInt / 2 ^ (y.toNat % 32)) ∧
  Lanes2 .vDot8 (fun x y r => r.toInt = ((List.range 4).map (fun k =>
    (x.extractLsb' (8 * k) 8).toInt * (y.extractLsb' (8 * k) 8).toInt)).sum) ∧
  Lanes2 .vCmpeqI32 (fun x y r => r = if x = y then BitVec.allOnes 32 else 0) ∧
  Lanes2 .vCmpltI32 (fun x y r => r = if x.toInt < y.toInt then BitVec.allOnes 32 else 0) ∧
  (∀ (s : State) (d : Name) (i : BitVec 19), Ready (.vLi d i) s → exec (.vLi d i) s =
    .next (s.done (s.setGroup d (cellsOf (List.replicate 8 false) (List.replicate 16 (i.signExtend 32)))))) ∧
  (∀ (s : State) (d a : Name), Ready (.vSumI32 d a) s → ∃ r : Word,
    r.toInt = Int.bmod (((s.vec a).1.map (fun x => x.toInt)).sum) (2 ^ 32) ∧
    exec (.vSumI32 d a) s = .next (s.done (s.writeName d { v := r, t := (s.vec a).2.any id }))) ∧
  (∀ (s : State) (d a : Name), Ready (.vBcast d a) s → exec (.vBcast d a) s = .next (s.done ((s.took a).setGroup d
    (cellsOf (List.replicate 8 (s.val a).t) (List.replicate 16 ((s.val a).v.extractLsb' 0 32)))))) ∧
  (∀ (s : State) (d a b : Name), Ready (.vPerm d a b) s → exec (.vPerm d a b) s = .next (s.done (s.setGroup d
    (cellsOf (List.replicate 8 ((s.vec a).2.any id || (s.vec b).2.any id))
      ((s.vec b).1.map (fun j => laneAt (s.vec a).1 (j.toNat % 16))))))) ∧
  (∀ (s : State) (d a b : Name), Ready (.vSel d a b) s → ∃ ls : List (BitVec 32), ls.length = 16 ∧
    (∀ i < 16, laneAt ls i = if laneAt (s.vec b).1 i ≠ 0 then laneAt (s.vec a).1 i else laneAt (s.vec d).1 i) ∧
    exec (.vSel d a b) s = .next (s.done (s.setGroup d
      (cellsOf (orTags (orTags (s.vec a).2 (s.vec b).2) (s.vec d).2) ls)))) ∧
  (∀ (s : State) (d a b : Name), Ready (.vExt d a b) s → exec (.vExt d a b) s = .next (s.done ((s.took b).writeName d
    { v := (laneAt (s.vec a).1 ((s.val b).v.toNat % 16)).setWidth 64, t := (s.vec a).2.any id || (s.val b).t }))) ∧
  (∀ (s : State) (d a b : Name), Ready (.vIns d a b) s →
    let j := ((s.took a).val b).v.toNat % 16
    exec (.vIns d a b) s = .next (s.done (((s.took a).took b).setGroup d
      (cellsOf ((s.vec d).2.set (j / 2) ((s.val a).t || ((s.took a).val b).t || (s.vec d).2.any id))
        ((s.vec d).1.set j ((s.val a).v.extractLsb' 0 32))))))

/-- R96, R261, R262: the vector FP32 instructions: each lane as the scalar operation rounds it (FloatResults, FloatValues), the
flags of all lanes gathered, and FPX; the sum is the root of a tree of four levels, and v.max0 keeps what is above zero. -/
def Obligations.VectorFloats : Prop :=
  FloatLanes2 .vAddF32 fAdd ∧ FloatLanes2 .vSubF32 fSub ∧ FloatLanes2 .vMulF32 fMul ∧
  FloatLanes2 .vMinF32 (fun _ => fMinMax false) ∧ FloatLanes2 .vMaxF32 (fun _ => fMinMax true) ∧
  FloatLanes2 .vCmpltF32 (fun _ x y => (if numLt (num32 x) (num32 y) then BitVec.allOnes 32 else 0,
    if (num32 x).isNan || (num32 y).isNan then flNV else 0)) ∧
  FloatLanes1 .vRcpF32 (fun m x => fDiv m 0x3F800000 x) ∧
  FloatLanes1 .vCvtFi (fun m x => fOfInt m x.toInt) ∧
  FloatLanes1 .vCvtIf (fun m x => let r := numToInt m 32 { x := num32 x }; (BitVec.ofInt 32 r.1, r.2)) ∧
  FloatLanes1 .vCvtBf (fun m x => ((bf16Of m x).1.setWidth 32, (bf16Of m x).2)) ∧
  FloatLanes1 .vCvtFb (fun _ x => f32OfBf16 (x.extractLsb' 0 16)) ∧
  FloatLanes1 .vMax0 (fun _ x => fMax0 x) ∧
  (∀ (s : State) (d a b : Name), Ready (.vFmaF32 d a b) s →
    let r := (((s.vec a).1.zip (s.vec b).1).zip (s.vec d).1).map
      (fun e => fFma (s.fctlNow.extractLsb' 0 3).toNat e.1.1 e.1.2 e.2)
    let fl := r.foldl (fun fl e => fl ||| e.2) 0
    (s.quiet fl → exec (.vFmaF32 d a b) s = .next (s.done ((s.orFctl fl).setGroup d
      (cellsOf (orTags (orTags (s.vec a).2 (s.vec b).2) (s.vec d).2) (r.map (·.1)))))) ∧
    (¬ s.quiet fl → ∀ g k, s.cur = .slot g k →
      exec (.vFmaF32 d a b) s = .next ((s.orFctl fl).trapped g k (.vFmaF32 d a b) cFPX (fl.setWidth 64)))) ∧
  (∀ (s : State) (d a : Name), Ready (.vSumF32 d a) s →
    let r := fTree (s.fctlNow.extractLsb' 0 3).toNat 4 (s.vec a).1
    (s.quiet r.2 → exec (.vSumF32 d a) s = .next (s.done ((s.orFctl r.2).writeName d
      { v := r.1.setWidth 64, t := (s.vec a).2.any id }))) ∧
    (¬ s.quiet r.2 → ∀ g k, s.cur = .slot g k →
      exec (.vSumF32 d a) s = .next ((s.orFctl r.2).trapped g k (.vSumF32 d a) cFPX (r.2.setWidth 64)))) ∧
  (∀ (m : Nat) (ls : List (BitVec 32)), ls.length = 16 →
    (fTree m 4 ls).1 = treeNode (fun x y => (fAdd m x y).1) (laneAt ls) 4 0 ∧
    ∀ j, (fTree m 4 ls).2.getLsbD j = true ↔ ∃ l < 4, ∃ i < 2 ^ (3 - l),
      (fAdd m (treeNode (fun x y => (fAdd m x y).1) (laneAt ls) l (2 * i))
        (treeNode (fun x y => (fAdd m x y).1) (laneAt ls) l (2 * i + 1))).2.getLsbD j = true) ∧
  (∀ x : BitVec 32, fMax0 x = if 0x7F800000 < x.toNat % 2 ^ 31 then (0x7FC00000, if x.getLsbD 22 then 0 else flNV)
    else (if x.getLsbD 31 then 0 else x, 0))

/-- R90, R250 to R252: the VF instructions on a slot: the exact result of each from the operands' values, rounded once to PREC.P
bits (FloatValues), with NV for a malformed operand; in exact mode an inexact or out-of-range result takes PXH. The value of the
cells of an operand, that an image holds the value it was made from, and that vf.rnd rounds once to an integer. What becomes of
infinities, NaNs and zero divisors (R251): each case, with NV for the invalid ones, and the images of the special values. -/
def Obligations.VfResults : Prop :=
  (∀ (mode p : Nat) (a b st : Bool) (m n k : Nat) (e f : Int) (x y z : FNum),
    let i (neg : Bool) : FNum := .inf neg
    let u : FNum := .fin a m e
    let v : FNum := .fin b n f
    let nan : Exact := { x := .nan }
    (FNum.add mode .nan x = (.nan, false) ∧ x.add mode .nan = (.nan, false) ∧ FNum.mul .nan x = (.nan, false) ∧
      x.mul .nan = (.nan, false) ∧ FNum.div p .nan x = (nan, 0) ∧ FNum.div p x .nan = (nan, 0) ∧
      FNum.sqrt p .nan = (nan, false) ∧ FNum.neg .nan = .nan ∧ FNum.abs .nan = .nan) ∧
    (i a).add mode (i b) = (if a = b then (i a, false) else (.nan, true)) ∧ (i a).add mode v = (i a, false) ∧
    u.add mode (i b) = (i b, false) ∧
    (i a).mul (i b) = (i (a ^^ b), false) ∧ (i a).mul v = (if n = 0 then (.nan, true) else (i (a ^^ b), false)) ∧
    u.mul (i b) = (if m = 0 then (.nan, true) else (i (a ^^ b), false)) ∧
    FNum.fma mode x y z = (if (x.mul y).2 then (.nan, true) else (x.mul y).1.add mode z) ∧
    FNum.div p (i a) (i b) = (nan, flNV) ∧ FNum.div p (i a) v = ({ x := i (a ^^ b) }, 0) ∧
    FNum.div p u (i b) = ({ x := .fin (a ^^ b) 0 0 }, 0) ∧
    (n = 0 → FNum.div p u v = if m = 0 then (nan, flNV) else ({ x := i (a ^^ b) }, flDZ)) ∧
    (n ≠ 0 → m = 0 → FNum.div p u v = ({ x := .fin (a ^^ b) 0 0 }, 0)) ∧
    FNum.sqrt p (i a) = (if a then (nan, true) else ({ x := i false }, false)) ∧
    (m = 0 → FNum.sqrt p u = ({ x := .fin a 0 0 }, false)) ∧ (m ≠ 0 → a = true → FNum.sqrt p u = (nan, true)) ∧
    (i a).neg = i (!a) ∧ u.neg = .fin (!a) m e ∧ (i a).abs = i false ∧ u.abs = .fin false m e ∧
    vfRound p mode { x := .nan, sticky := st } = (.nan, 0) ∧ vfRound p mode { x := i a, sticky := st } = (i a, 0) ∧
    vfRound p mode { x := .fin a 0 e, sticky := st } = (.fin a 0 0, 0) ∧
    vfRndInt p mode .nan = (.nan, 0) ∧ vfRndInt p mode (i a) = (i a, 0) ∧ vfRndInt p mode (.fin a 0 e) = (.fin a 0 e, 0) ∧
    (1 ≤ k → k ≤ 128 → ∀ q ∈ [FNum.nan, i a, .fin a 0 0], (vfImage q k).length = k ∧
      moreOf ((vfImage q k).headD 0) = k - 1 ∧ vfValue (vfImage q k) = (q, 0))) ∧
  (∀ (c : Word) (t : List Word),
    let neg := c.getLsbD 63
    let ex : Nat := c.toNat / 2 ^ 47 % 2 ^ 16
    let sig : Nat := t.foldl (fun a w => a * 2 ^ 64 + w.toNat) (c.toNat % 2 ^ 40)
    let r := vfValue (c :: t)
    (ex = 0xFFFF → r = (if sig = 0 then .inf neg else .nan, 0)) ∧
    (ex = 0 → r = if sig = 0 then (.fin neg 0 0, 0) else (.nan, vlNV)) ∧
    (ex ≠ 0 → ex ≠ 0xFFFF → c.getLsbD 39 = false → r = (.nan, vlNV)) ∧
    (ex ≠ 0 → ex ≠ 0xFFFF → c.getLsbD 39 = true → r.2 = 0 ∧ (∃ n k e, r.1 = .fin n k e) ∧
      r.1.rat = (if neg then -1 else 1) * (sig : ℚ) * 2 ^ ((ex : Int) - 32806 - 64 * t.length))) ∧
  (∀ (n : Bool) (m : Nat) (e : Int) (k : Nat), m ≠ 0 → 1 ≤ k → k ≤ 128 → bitLen m ≤ 40 + 64 * (k - 1) →
    -32766 ≤ e + bitLen m - 1 → e + bitLen m - 1 ≤ 32767 →
      (vfImage (.fin n m e) k).length = k ∧ moreOf ((vfImage (.fin n m e) k).headD 0) = k - 1 ∧
      (vfValue (vfImage (.fin n m e) k)).2 = 0 ∧ (vfValue (vfImage (.fin n m e) k)).1.rat = (FNum.fin n m e).rat) ∧
  (∀ (p mode : Nat) (n : Bool) (m : Nat) (e : Int), m ≠ 0 →
    let c := quantize mode n m e false 0
    vfRndInt p mode (.fin n m e) = if (p : Int) < e + bitLen m then vfRound p mode { x := .fin n m e }
      else (.fin n c.1 0, if c.2 then vlNX else 0)) ∧
  ∀ (s : State) (g k : Nat), s.cur = .slot g k → ∀ (d a b : Name),
    let x := s.vfVal a
    let y := s.vfVal b
    let m := s.vctlMode
    let p := s.me.prec.toNat
    let nv (c : Bool) : BitVec 4 := if c then vlNV else 0
    (Ready (.vfAdd d a b) s → VfEnds (.vfAdd d a b) d s s { x := (x.1.add m y.1).1 }
      (nv (x.1.add m y.1).2 ||| x.2.1 ||| y.2.1) (x.2.2 || y.2.2)) ∧
    (Ready (.vfSub d a b) s → VfEnds (.vfSub d a b) d s s { x := (x.1.add m y.1.neg).1 }
      (nv (x.1.add m y.1.neg).2 ||| x.2.1 ||| y.2.1) (x.2.2 || y.2.2)) ∧
    (Ready (.vfMul d a b) s → VfEnds (.vfMul d a b) d s s { x := (x.1.mul y.1).1 }
      (nv (x.1.mul y.1).2 ||| x.2.1 ||| y.2.1) (x.2.2 || y.2.2)) ∧
    (Ready (.vfDiv d a b) s → VfEnds (.vfDiv d a b) d s s (FNum.div p x.1 y.1).1
      (nv ((FNum.div p x.1 y.1).2 &&& flNV ≠ 0) ||| x.2.1 ||| y.2.1) (x.2.2 || y.2.2)) ∧
    (Ready (.vfSqrt d a) s → VfEnds (.vfSqrt d a) d s s (FNum.sqrt p x.1).1 (nv (FNum.sqrt p x.1).2 ||| x.2.1) x.2.2) ∧
    (Ready (.vfFma d a b) s → VfEnds (.vfFma d a b) d s s { x := (FNum.fma m x.1 y.1 (s.vfVal d).1).1 }
      (nv (FNum.fma m x.1 y.1 (s.vfVal d).1).2 ||| x.2.1 ||| y.2.1 ||| (s.vfVal d).2.1) (x.2.2 || y.2.2 || (s.vfVal d).2.2)) ∧
    (Ready (.vfNeg d a) s → VfEnds (.vfNeg d a) d s s { x := x.1.neg } x.2.1 x.2.2) ∧
    (Ready (.vfAbs d a) s → VfEnds (.vfAbs d a) d s s { x := x.1.abs } x.2.1 x.2.2) ∧
    (Ready (.vfMov d a) s → VfEnds (.vfMov d a) d s s { x := x.1 } x.2.1 x.2.2) ∧
    (Ready (.vfFromF d a) s → VfEnds (.vfFromF d a) d s (s.took a) { x := num32 ((s.val a).v.extractLsb' 0 32) }
      (nv (fmt32.signals ((s.val a).v.extractLsb' 0 32).toNat)) (s.val a).t) ∧
    (Ready (.vfFromI d a) s → VfEnds (.vfFromI d a) d s (s.took a)
      { x := .fin ((s.val a).v.toInt < 0) (s.val a).v.toInt.natAbs 0 } 0 (s.val a).t) ∧
    (Ready (.vfRnd d a) s →
      let q := vfRndInt p m x.1
      let fl := x.2.1 ||| q.2
      ((s.me.vctl.getLsbD 0 = false ∨ fl &&& 7 = 0) → exec (.vfRnd d a) s = .next (s.done
        ((s.setMe { s.me with vctl := s.me.vctl ||| (fl.setWidth 64 <<< 8) }).setGroup d
          ((vfImage q.1 (vfCells p)).map (fun v => { v := v, t := x.2.2 }))))) ∧
      (s.me.vctl.getLsbD 0 = true → fl &&& 7 ≠ 0 →
        exec (.vfRnd d a) s = .next (s.trapped g k (.vfRnd d a) cPXH (fl.setWidth 64)))) ∧
    (∀ e ∈ [(Instr.vfToF d a, ((rnd32 m { x := x.1 }).1.setWidth 64, (rnd32 m { x := x.1 }).2)),
            (Instr.vfToI d a, (BitVec.ofInt 64 (numToInt m 64 { x := x.1 }).1, (numToInt m 64 { x := x.1 }).2))],
      Ready e.1 s →
      let fl := x.2.1 ||| vlOf e.2.2
      ((s.me.vctl.getLsbD 0 = false ∨ fl &&& 7 = 0) → exec e.1 s = .next (s.done
        ((s.setMe { s.me with vctl := s.me.vctl ||| (fl.setWidth 64 <<< 8) }).writeName d { v := e.2.1, t := x.2.2 }))) ∧
      (s.me.vctl.getLsbD 0 = true → fl &&& 7 ≠ 0 → exec e.1 s = .next (s.trapped g k e.1 cPXH (fl.setWidth 64))))

/-! ### Names and frames (R9, R30, R98, R178) -/

/-- R30, R178, R205, R210, R216: what a write of a name leaves on a slot: a window name changes its own cell and no other, name
zero changes nothing, and a connected port puts one word on its way to the neighbour, unless the vacancy of its target released
the writer, whose word is then discarded (R179). What a write of a predicate leaves: predicate n holds the value, a write to p0
is discarded, and every other predicate is as before. rdx and wrx reach the cell of the window at the index that they compute,
or raise WBND with TVAL the index (R238); that a window runs on past the last cell of the core to its first is the model's
reading (log 14). -/
def Obligations.CellWrites : Prop :=
  (∀ (s : State) (g k : Nat) (n : Name) (x : Tagged), s.cur = .slot g k →
     (n = 0 → s.writeName n x = s) ∧
     (8 ≤ n.toNat →
       (s.writeName n x).cell g (s.physCell g k n.toNat) = x ∧
       KeepsRest g k [s.physCell g k n.toNat] s (s.writeName n x) ∧ (s.writeName n x).ops = s.ops) ∧
     (n.isPort = true → (s.slot g k).discard = true →
       s.writeName n x = s.setSlot g k { s.slot g k with discard := false }) ∧
     (∀ h, n.isPort = true → s.portTo g n.toNat = some h → (s.slot g k).discard = false →
       ∃ o, (s.writeName n x).ops = s.ops ++ [o] ∧ o.id = s.nextId ∧ o.g = g ∧ o.k = k ∧
         o.kind = .portWord h k (oppositeDir n.toNat) x ∧ KeepsRest g k [] s (s.writeName n x))) ∧
  (∀ (s : State) (n m : BitVec 3) (v : Bool),
     (s.setPred n v).predBit m = (if m = n ∧ n ≠ 0 then v else s.predBit m) ∧
     (∀ g k, s.cur = .slot g k →
       { (s.setPred n v).slot g k with pred := (s.slot g k).pred } = s.slot g k ∧
       (s.setPred n v).mem = s.mem ∧ (s.setPred n v).ops = s.ops ∧ (s.setPred n v).masons = s.masons)) ∧
  (∀ (s : State) (g k : Nat) (d a b : Name) (im : BitVec 12), s.cur = .slot g k → (s.val a).t = false →
    let v := (s.val a).v + im.signExtend 64
    let c := ((s.slot g k).wbase.toNat + v.toNat) % numCells g
    (Ready (.rdx d a im) s → v.toNat < (s.slot g k).wlim.toNat →
      exec (.rdx d a im) s = .next (s.done ((s.took a).writeName d (s.cell g c)))) ∧
    (Ready (.wrx im a b) s → v.toNat < (s.slot g k).wlim.toNat →
      exec (.wrx im a b) s = .next (s.done (((s.took a).took b).setCell g c ((s.took a).val b)))) ∧
    (∀ i ∈ [Instr.rdx d a im, .wrx im a b], Ready i s → (s.slot g k).wlim.toNat ≤ v.toNat →
      exec i s = .next (s.trapped g k i cWBND v)))

/-- The frame of the computing instructions: with no float trap enabled, a ready cell, float, vector or VF instruction changes
its destination cells, its program counter, the queues of ports that it reads, and the flags of FCTL and VCTL, and nothing
else. -/
def Obligations.ComputeFrame : Prop :=
  ∀ (s t : State) (g k : Nat) (d a b : Name) (im : BitVec 12) (c : BitVec 6) (u : BitVec 19),
    s.cur = .slot g k → s.fctlNow.extractLsb' 16 5 = 0 → s.me.vctl.getLsbD 0 = false →
    ∀ i ∈ [Instr.add d a b, .sub d a b, .and d a b, .or d a b, .xor d a b, .sll d a b, .srl d a b, .sra d a b, .slt d a b,
      .sltu d a b, .min d a b, .max d a b, .minu d a b, .maxu d a b, .mul d a b, .mulh d a b, .mulhu d a b, .div d a b,
      .divu d a b, .rem d a b, .remu d a b, .clz d a, .ctz d a, .popc d a, .rank d a b, .nth d a b, .bext d a b,
      .bdep d a b, .rev8 d a, .sext8 d a, .sext16 d a, .sext32 d a, .zext8 d a, .zext16 d a, .zext32 d a, .addi d a im,
      .andi d a im, .ori d a im, .xori d a im, .slti d a im, .sltiu d a im, .slli d a c, .srli d a c, .srai d a c, .lui d u,
      .adpc d u, .fAdd d a b, .fSub d a b, .fMul d a b, .fDiv d a b, .fSqrt d a, .fMin d a b, .fMax d a b, .fFma d a b,
      .fAbs d a, .fNeg d a, .fCvtFi d a, .fCvtIf d a, .fCvtIft d a, .fCvtBf d a, .fCvtFb d a, .fCvt8f d a, .fCvtF8 d a,
      .fClass d a, .vfAdd d a b, .vfMul d a b, .vfFma d a b, .vfRnd d a, .vfToF d a, .vAddI32 d a b, .vDot8 d a b,
      .vSumI32 d a, .vBcast d a, .vPerm d a b, .vSel d a b, .vExt d a b, .vIns d a b, .vAddF32 d a b, .vFmaF32 d a b,
      .vSumF32 d a, .vRcpF32 d a, .vLi d u, .vfSub d a b, .vfDiv d a b, .vfSqrt d a, .vfNeg d a, .vfAbs d a, .vfFromF d a,
      .vfFromI d a, .vfToI d a, .vfMov d a, .vSubI32 d a b, .vMulI32 d a b, .vMinI32 d a b, .vMaxI32 d a b, .vAnd d a b,
      .vOr d a b, .vXor d a b, .vShl d a b, .vShr d a b, .vSra d a b, .vCmpeqI32 d a b, .vCmpltI32 d a b, .vSubF32 d a b,
      .vMulF32 d a b, .vMinF32 d a b, .vMaxF32 d a b, .vCmpltF32 d a b, .vCvtFi d a, .vCvtIf d a, .vCvtBf d a, .vCvtFb d a,
      .vMax0 d a],
      Ready i s → exec i s = .next t →
        KeepsRest g k (s.dstCells i) s t ∧ (i.roles.d.isPort = false → t.ops = s.ops)

/-! ### Traps, returns and the checks before issue (R207, R213, R371 to R377) -/

/-- R371, R377: taking an exception. Outside a handler and with one installed: what is saved, where the slot goes, at which
level, and that everything else of the core stays, memory too while SMPL.TRACE is clear. In a handler, or with none installed,
the task ends: with nothing in flight, no node and no membership, the slot falls vacant and keeps only its trap registers
and KS0 to KS7. -/
def Obligations.TrapEntry : Prop :=
  (∀ (s : State) (g k code : Nat) (df : Bool) (val tstat epc : Word),
     (s.slot g k).inHandler = false → (s.core g).tvec.getLsbD 0 = true → (s.core g).smpl.getLsbD 4 = false →
     let x := s.slot g k
     let t := s.takeTrap g k code df val tstat epc
     let y := t.slot g k
     y.tcause = BitVec.ofNat 64 (code + (if df then 2 ^ 8 else 0) + x.level.code * 2 ^ 9 + (if x.ovf then 2 ^ 11 else 0)) ∧
     y.tval = val ∧ y.tstat = tstat ∧ y.tepc.toNat = epc.toNat % 2 ^ 49 ∧ y.inHandler = true ∧
     y.level = (if x.level = .user then .sup else x.level) ∧
     y.pc.toNat = (s.core g).tvec.toNat % 2 ^ 49 / 4 * 4 ∧ y.ovf = false ∧ y.blocked = none ∧
     y.fetched = none ∧ y.discard = false ∧
     { y with tcause := x.tcause, tval := x.tval, tstat := x.tstat, tepc := x.tepc, inHandler := x.inHandler,
              level := x.level, pc := x.pc, ovf := x.ovf, blocked := x.blocked, fetched := x.fetched,
              discard := x.discard } = x ∧
     t.mem = s.mem ∧ t.tags = s.tags ∧ t.ops = s.ops ∧ (∀ h c, t.cell h c = s.cell h c) ∧
     (∀ h j, ¬ (h = g ∧ j = k) → t.slot h j = s.slot h j)) ∧
  (∀ (s : State) (g k code : Nat) (df : Bool) (val tstat epc : Word),
     ((s.slot g k).inHandler = true ∨ (s.core g).tvec.getLsbD 0 = false) → (s.core g).smpl.getLsbD 4 = false →
     s.busySlot g k false = false → (s.slot g k).task = 0 → (s.slot g k).moved = [] →
     (∀ b ∈ [(s.slot g k).bmem0, (s.slot g k).bmem1, (s.slot g k).bmem2, (s.slot g k).bmem3], b.getLsbD 63 = false) →
     let t := s.takeTrap g k code df val tstat epc
     t.slot g k = (s.slot g k).kept ∧ (t.slot g k).bound = false ∧ (∀ o ∈ t.ops, o.g = g → o.k = k → o.live = false) ∧
     (∀ m ∈ (t.core g).mailbox, m.slot ≠ k))

/-- R282, R283, R372: trap takes TRAPI with TVAL the code and TEPC at the next instruction; brk takes BRK with TVAL the code and
TEPC at itself; both run at every level, and any value is allowed in the fields that hold the code. eret in a handler goes to TEPC at the level of PLEV and leaves the handler, and nothing else of the slot changes; outside a
handler it raises ILL. -/
def Obligations.TrapInstructions : Prop :=
  (∀ (g : Nat) (c : BitVec 14), needLevel g (.trap c) = some .user ∧ needLevel g (.brk c) = some .user ∧
     (Instr.trap c).wf = true ∧ (Instr.brk c).wf = true) ∧
  (∀ (s : State) (g k : Nat) (c : BitVec 14), s.cur = .slot g k →
     (Ready (.trap c) s → exec (.trap c) s = .next { s.takeTrap g k 0x14 false (c.setWidth 64)
       (tstatOf 0 0 (majorOf (encode (.trap c))) (fnOf (encode (.trap c))) 0) ((s.slot g k).pc + 4) with turn := .issued }) ∧
     (Ready (.brk c) s → exec (.brk c) s = .next (s.trapped g k (.brk c) 0x15 (c.setWidth 64)))) ∧
  (∀ (s : State) (g k : Nat), s.cur = .slot g k → Ready .eret s →
     (s.me.inHandler = true → (s.core g).smpl.getLsbD 4 = false → ∃ t, exec .eret s = .next t ∧
       t.slot g k = { s.slot g k with
         pc := BitVec.ofNat 64 ((s.slot g k).tepc.toNat % 2 ^ 49), inHandler := false,
         level := match (s.slot g k).tcause.toNat / 2 ^ 9 % 4 with | 0 => .user | 1 => .sup | _ => .mgmt } ∧
       t.mem = s.mem ∧ t.ops = s.ops ∧ (∀ h c, t.cell h c = s.cell h c) ∧
       (∀ h j, ¬ (h = g ∧ j = k) → t.slot h j = s.slot h j)) ∧
     (s.me.inHandler = false → exec .eret s = .next (s.trapped g k .eret 0x01 ((encode .eret).setWidth 64))))

/-- R207, R213: an instruction below the level it needs raises PRIV, and at a level that may run it one that names a cell
beyond the slot's window raises WBND, both with TVAL the word and with none of its effect. -/
def Obligations.LevelAndWindowTraps : Prop :=
  ∀ (s : State) (g k : Nat) (i : Instr) (l : Level), s.cur = .slot g k → i.wf = true →
    (g = vrNum → vrelellAllows (encode i) = true) → needLevel g i = some l →
    (s.me.level.meets l = false → exec i s = .next (s.trapped g k i 0x02 ((encode i).setWidth 64))) ∧
    (s.me.level.meets l = true → windowed i s = false →
      exec i s = .next (s.trapped g k i 0x03 ((encode i).setWidth 64)))

/-- R16, R26, R178, R180: what keeps an instruction from issuing. A port that leads to no core of the partition raises MSGF
with TVAL the word; a read of an empty port blocks the slot and changes nothing: said of addi, whose one source and
destination may both be ports. A load or store whose counter stands at 255 forfeits its turn and changes nothing else. -/
def Obligations.IssueHolds : Prop :=
  (∀ (s : State) (g k : Nat) (d a : Name) (im : BitVec 12), s.cur = .slot g k → g < 4096 →
     (Instr.addi d a im).wf = true → windowed (.addi d a im) s = true →
     ((a.isPort = true ∧ s.portTo g a.toNat = none) ∨ (d.isPort = true ∧ s.portTo g d.toNat = none) →
       exec (.addi d a im) s = .next (s.trapped g k (.addi d a im) 0x18 ((encode (.addi d a im)).setWidth 64))) ∧
     (a.isPort = true → (s.portTo g a.toNat).isSome = true → (d.isPort = true → (s.portTo g d.toNat).isSome = true) →
       (s.slot g k).queue a.toNat = [] → exec (.addi d a im) s = .next (s.blockedOn g k (.portRead a.toNat)))) ∧
  (∀ (s : State) (g k : Nat) (d a b : Name) (off : BitVec 12) (t : Target), s.cur = .slot g k →
     a.isPort = false → b.isPort = false → (s.val a).t = false →
     (Ready (.ldD d a off) s → 255 ≤ s.me.loads → access ((s.val a).v + off.signExtend 64) 8 8 .load .plain false s = .ok (t, s) →
       s.badWord t.pa 8 = none → exec (.ldD d a off) s = .next { s with turn := .forfeited }) ∧
     (Ready (.stD off a b) s → 255 ≤ s.me.stores →
       access ((s.val a).v + off.signExtend 64) 8 8 .store .plain (s.val b).t s = .ok (t, s) →
       exec (.stD off a b) s = .next { s with turn := .forfeited }))

/-! ### Loads, stores, atomics (R54 to R74, R174, R175, R231 to R240, R254, R255) -/

/-- R55, R71 to R73: a data access of a slot. One that is not aligned raises ALN with TVAL the address; below 2^20 one that
ends within the scratch and touches no reserve reaches the core's own scratch. From 2^20 up it goes through the translation
buffer: where that holds a leaf that reaches memory of the partition, the level and the kind must be permitted, or it raises
PERM; where it holds none, the access waits for a walk and nothing has changed. A walk that finds a leaf fills the buffer under
the ASID that it was issued with and lets the slot issue again; one that fails traps. Which entry leaves a full buffer, and where
the new one stands, is the model's choice (log 8). -/
def Obligations.DataAccess : Prop :=
  (∀ (s : State) (g k : Nat) (va : Word) (n al : Nat) (kind : Access) (tg : Bool), s.cur = .slot g k → g < 4096 →
     kind ≠ .fetch →
     (va.toNat % al ≠ 0 → access va n al kind .plain tg s = .error (.trap 0x04 va 0)) ∧
     (va.toNat % al = 0 → va.toNat < 2 ^ 20 → 2 ^ 20 < va.toNat + n → access va n al kind .plain tg s = .error (.trap 0x05 va 0)) ∧
     (va.toNat % al = 0 → 1 ≤ n → va.toNat + n ≤ 2 ^ 20 → (s.core g).shadow = [] → s.seals = [] →
       access va n al kind .plain tg s = .ok ({ pa := scrBase g + va.toNat, cls := 0 }, s))) ∧
  (∀ (s : State) (g k : Nat) (va : Word) (n al : Nat) (kind : Access), s.cur = .slot g k → g < 4096 →
     va.toNat % al = 0 → 2 ^ 20 ≤ va.toNat → va.toNat < 2 ^ 49 →
     (s.tlbFind g va.toNat = none → access va n al kind .plain false s = .error (.walk va.toNat kind)) ∧
     (∀ l, s.tlbFind g va.toNat = some l → s.reachable g (l.pa + va.toNat % 2 ^ l.shift) n = true →
       permFails l.flags kind (s.slot g k).level = true → access va n al kind .plain false s = .error (.trap 0x06 va 0)) ∧
     (∀ l t, s.tlbFind g va.toNat = some l → access va n al kind .plain false s = .ok (t, s) →
       t.pa = l.pa + va.toNat % 2 ^ l.shift ∧ s.reachable g t.pa n = true ∧
       permFails l.flags kind (s.slot g k).level = false ∧ t.cls = (l.flags.extractLsb' 6 2).toNat ∧
       classDenies t.cls kind = false)) ∧
  (∀ (s : State) (o : Op) (va : Nat) (kind : Access), InFlight s o → o.kind = .walk va kind → o.live = true →
     (∀ l, s.walk o.g o.ptroot va = .ok l → o.cls = none →
       ∃ t, exec .pageWalk s = .next t ∧ (t.slot o.g o.k).blocked = none ∧ t.op? o.id = none ∧ t.mem = s.mem ∧
         (t.core o.g).tlb = (if 256 ≤ (s.core o.g).tlb.length then (s.core o.g).tlb.drop 1 else (s.core o.g).tlb) ++
           [{ asid := o.asid.setWidth 16, va := va / 2 ^ l.shift * 2 ^ l.shift, shift := l.shift, pa := l.pa,
              flags := l.flags }]) ∧
     (∀ e, s.walk o.g o.ptroot va = .error e →
       exec .pageWalk s = .next ((s.endOp o).releaseTrap o e.code e.val e.sub)))

/-- R231, R233, R235, R237: a load whose address is untagged and whose access is permitted is accepted: the loads counter
rises, and the operation in flight names what it reads, for ld.v and vf.ld also whether in one event (R58, R63, R160), and the cell it
will write. Nothing is written yet. -/
def Obligations.LoadsIssue : Prop :=
  ∀ (s : State) (g k : Nat), s.cur = .slot g k → s.me.loads < 255 → ∀ (d a b : Name) (off : BitVec 12),
    (s.val a).t = false →
    let u := s.took a
    (∀ e ∈ [(Instr.ldB, 1, true), (.ldBu, 1, false), (.ldH, 2, true), (.ldHu, 2, false), (.ldW, 4, true), (.ldWu, 4, false),
        (.ldD, 8, false)], ∀ t, Ready (e.1 d a off) s →
      access ((s.val a).v + off.signExtend 64) e.2.1 e.2.1 .load .plain false u = .ok (t, u) → u.badWord t.pa e.2.1 = none →
      exec (e.1 d a off) s = .next (s.done (u.accept (e.1 d a off) .loads
        (.load (.scalar e.2.1 e.2.2) [(t.pa, t.cls = 1)] (s.lateDst d))))) ∧
    (∀ t, Ready (.ldV d a) s → access (s.val a).v 64 64 .load .plain false u = .ok (t, u) → u.badWord t.pa 64 = none →
      exec (.ldV d a) s = .next (s.done (u.accept (.ldV d a) .loads (.load
        (.vec (t.cls = 2 || (match region t.pa with | .scratch _ _ => true | _ => false))) [(t.pa, t.cls = 1)] (s.lateDst d))))) ∧
    (∀ t (h : BitVec 1), Ready (.ldN d a h) s → access (s.val a).v 1 1 .load .plain false u = .ok (t, u) →
      u.badWord t.pa 1 = none →
      exec (.ldN d a h) s = .next (s.done (u.accept (.ldN d a h) .loads
        (.load (.nibble (h = 1)) [(t.pa, t.cls = 1)] (s.lateDst d))))) ∧
    (∀ ts : List (Nat × Bool), Ready (.vGather d a b) s → (∀ tg ∈ (s.vec b).2, tg = false) →
      List.Forall₂ (fun va p => ∃ t, access va 4 4 .load .plain false u = .ok (t, u) ∧ u.badWord t.pa 4 = none ∧
        p = (t.pa, decide (t.cls = 1))) ((s.vec b).1.map (fun o => (s.val a).v + o.signExtend 64)) ts →
      exec (.vGather d a b) s = .next (s.done (u.accept (.vGather d a b) .loads (.load .gather ts (s.lateDst d))))) ∧
    (∀ ps : List (List (Nat × Bool) × Bool), Ready (.vfLd d a off) s →
      List.Forall₂ (fun (e : Word × Nat) p => ∃ t, access e.1 e.2 1 .load .plain false u = .ok (t, u) ∧
        u.badWord t.pa e.2 = none ∧ p = ((List.range e.2).map (fun j => (t.pa + j, decide (t.cls = 1))), decide (t.cls = 2)))
        (chunksOf ((s.val a).v + off.signExtend 64) 4) ps →
      exec (.vfLd d a off) s = .next (State.stays ((u.accept (.vfLd d a off) .loads
        (.load (.vf ((s.val a).v + off.signExtend 64) (ps.any (·.2))) (ps.flatMap (·.1)) (s.lateDst d))).awaiting u.nextId)))

/-- R219, R231, R233, R235, R237, R254: a load's value arrives: the loads counter falls, the destination holds what memory holds,
and no other cell and no memory changes. A scalar load writes the little-endian bytes, sign-extended where the form says so;
ld.n a nibble; ld.v eight words and v.gather sixteen 4-byte values, two to a cell; each cell with the tag of what it is made
from. A load whose destination is name zero writes nothing. vf.ld of an image in the core's own scratch writes its value,
rounded to PREC.P bits, with its flags in VCTL, and goes on after the instruction; in exact mode an inexact or out-of-range
value traps PXH. Each aligned word of an image is read in an event of its own (R256), and so are the words of an ld.v, but in scratch
and in a class-P page (R233), and the lanes of a v.gather (R237): one of them may be read ahead, and the value is then made from what
was read; that a word is read ahead by a turn that names it, and that lanes of one word read it together, is the model's (log 58). -/
def Obligations.LoadCompletes : Prop :=
  (∀ (s : State) (o : Op) (n : Nat) (signed : Bool) (pa c : Nat) (cb : Bool), n ∈ [1, 2, 4, 8] → InFlight s o →
    s.ev.opt = none → o.got = [] → o.kind = .load (.scalar n signed) [(pa, cb)] (some c) → o.live = true → o.cls = some .loads → s.isFirst o = true →
    s.badWord pa n = none → c < numCells o.g →
    ∃ t, exec .loadComplete s = .next t ∧
      (t.cell o.g c).t = s.loadTag o.g pa n cb ∧
      (signed = false → (t.cell o.g c).v.toNat = s.readN pa n) ∧
      (signed = true → (t.cell o.g c).v.toInt = Int.bmod (s.readN pa n) (2 ^ (8 * n))) ∧
      (t.slot o.g o.k).loads = (s.slot o.g o.k).loads - 1 ∧ t.op? o.id = none ∧
      (∀ h j, ¬ (h = o.g ∧ j = c) → t.cell h j = s.cell h j) ∧ t.mem = s.mem ∧ t.tags = s.tags) ∧
  (∀ (s : State) (o : Op) (c : Nat), InFlight s o → o.live = true → o.cls = some .loads → s.isFirst o = true →
    c < numCells o.g →
    let at' (j : Nat) : Nat := (c + j) % numCells o.g
    let leaves (n : Nat) (t : State) : Prop :=
      (t.slot o.g o.k).loads = (s.slot o.g o.k).loads - 1 ∧ t.op? o.id = none ∧
      (∀ h j, ¬ (h = o.g ∧ ∃ i < n, j = at' i) → t.cell h j = s.cell h j) ∧ t.mem = s.mem ∧ t.tags = s.tags
    let ahead (pa : Nat) : Prop := let w := 8 * (pa / 8)
      (o.got.lookup w ≠ none ∨ s.badWord w 8 ≠ none → exec .loadComplete s = .next s) ∧
      (o.got.lookup w = none → s.badWord w 8 = none → ∃ t, exec .loadComplete s = .next t ∧ t.mem = s.mem ∧ t.cores = s.cores ∧
        t.op? o.id = some { o with got := (w, { v := s.read64 w, t := s.boundTag w 8 }) :: o.got })
    let word (pa : Nat) : Tagged := (o.got.lookup (8 * (pa / 8))).getD { v := s.read64 (8 * (pa / 8)), t := s.boundTag (8 * (pa / 8)) 8 }
    let half (pa : Nat) : Nat := (word pa).v.toNat / 2 ^ (8 * (pa % 8)) % 2 ^ 32
    let tagOf (cb : Bool) (pa : Nat) : Bool := o.g ≠ 4096 && (cb || (word pa).t)
    (∀ pa cb (h : Bool), o.kind = .load (.nibble h) [(pa, cb)] (some c) → s.badWord pa 1 = none → s.ev.opt = none → o.got = [] →
      ∃ t, exec .loadComplete s = .next t ∧ leaves 1 t ∧
        (t.cell o.g c).v.toNat = s.readN pa 1 / (if h then 16 else 1) % 16 ∧
        (t.cell o.g c).t = s.loadTag o.g pa 1 cb) ∧
    (∀ pa cb whole, o.kind = .load (.vec whole) [(pa, cb)] (some c) → pa % 8 = 0 →
      (∀ n < 8, s.ev.opt = some n → (whole = true → exec .loadComplete s = .next s) ∧ (whole = false → ahead (pa + 8 * n))) ∧
      (s.badWord pa 64 = none → s.ev.opt = none → ∃ t, exec .loadComplete s = .next t ∧ leaves 8 t ∧
        ∀ j < 8, t.cell o.g (at' j) = { v := (word (pa + 8 * j)).v, t := tagOf cb (pa + 8 * j) })) ∧
    (∀ ps : List (Nat × Bool), ps.length = 16 → o.kind = .load .gather ps (some c) → (∀ e ∈ ps, e.1 % 4 = 0) →
      let p (j : Nat) : Nat × Bool := ps.getD j (0, false)
      (∀ n < 16, s.ev.opt = some n → ahead (p n).1) ∧
      ((∀ e ∈ ps, s.badWord e.1 4 = none) → s.ev.opt = none → ∃ t, exec .loadComplete s = .next t ∧ leaves 8 t ∧
        ∀ j < 8, (t.cell o.g (at' j)).v.toNat = half (p (2 * j)).1 + 2 ^ 32 * half (p (2 * j + 1)).1 ∧
          (t.cell o.g (at' j)).t = (tagOf (p (2 * j)).2 (p (2 * j)).1 || tagOf (p (2 * j + 1)).2 (p (2 * j + 1)).1))) ∧
    (∀ sh ps, o.kind = .load sh ps none → (∀ va whole, sh ≠ .vf va whole) → (∀ e ∈ ps, s.badWord e.1 sh.bytes = none) →
      s.ev.opt = none → exec .loadComplete s = .next (s.endOp o)) ∧
    (∀ (va : Word) (dst : Option Nat) (whole : Bool),
      let P := scrBase o.g + va.toNat
      let image := (List.range 4).map (fun j => (P + j, false))
      let read (j : Nat) : Byte := BitVec.ofNat 8 ((word (P + j)).v.toNat / 256 ^ ((P + j) % 8))
      let h : BitVec 32 := read 3 ++ read 2 ++ read 1 ++ read 0
      let nb := (vfHeadBytes h).getD 0
      let x := s.slot o.g o.k
      let p := x.prec.toNat
      let bs := (List.range nb).map (fun j => read (4 + j))
      let tag := (List.range (4 + nb)).any (fun j => (word (P + j)).t)
      let r : FNum × BitVec 4 := if (vfHeadBytes h).isNone then (.nan, vlNV) else vfMemValue h bs
      let q := vfRound p (x.vctl.toNat / 2 % 8) { x := r.1 }
      let fl := r.2 ||| q.2
      o.kind = .load (.vf va whole) image dst → (dst = some c ∨ dst = none) →
      o.g < 4096 → va.toNat + 4 + nb ≤ 2 ^ 20 → (s.core o.g).shadow = [] → s.bad = [] →
      (∀ n, s.ev.opt = some n → whole = true → exec .loadComplete s = .next s) ∧
      (whole = false → (s.ev.opt = some 0 → ahead P) ∧ (s.ev.opt = some 1 → 4 < P % 8 → ahead (P + 8))) ∧
      (s.ev.opt = none → (x.vctl.getLsbD 0 = false ∨ fl &&& 7 = 0) → ∃ t, exec .loadComplete s = .next t ∧
        leaves (if dst = none then 0 else vfCells p) t ∧
        (dst = some c → ∀ j < vfCells p, t.cell o.g (at' j) = { v := (vfImage q.1 (vfCells p)).getD j 0, t := tag }) ∧
        (t.slot o.g o.k).vctl = x.vctl ||| (fl.setWidth 64 <<< 8) ∧ (t.slot o.g o.k).blocked = none ∧
        (t.slot o.g o.k).pc = x.pc + 4) ∧
      (s.ev.opt = none → x.vctl.getLsbD 0 = true → fl &&& 7 ≠ 0 →
        exec .loadComplete s = .next ((s.endOp o).releaseTrap o 0x09 (fl.setWidth 64) 0))))

/-- R232, R233, R235, R237, R255: a store whose address is untagged and whose access is permitted is accepted: the stores
counter rises and the operation in flight names the words, nibbles, data and tags that it will write. -/
def Obligations.StoresIssue : Prop :=
  ∀ (s : State) (g k : Nat), s.cur = .slot g k → s.me.stores < 255 → ∀ (d a b : Name) (off : BitVec 12),
    (s.val a).t = false →
    let u := s.took a
    let y := u.val b
    let v := u.took b
    (∀ e ∈ [(Instr.stB, 1), (.stH, 2), (.stW, 4), (.stD, 8)], ∀ t, Ready (e.1 off a b) s →
      access ((s.val a).v + off.signExtend 64) e.2 e.2 .store .plain y.t v = .ok (t, v) →
      exec (e.1 off a b) s = .next (s.done (v.accept (e.1 off a b) .stores (.store [wordWrite t.pa e.2 y.v y.t])))) ∧
    (∀ t, Ready (.stV a b) s → access (s.val a).v 64 64 .store .plain ((s.group b 8).any (·.t)) u = .ok (t, u) →
      exec (.stV a b) s = .next (s.done (u.accept (.stV a b) .stores (.store (((List.range 8).zip (s.group b 8)).map
        (fun e => wordWrite (t.pa + 8 * e.1) 8 e.2.v e.2.t)))))) ∧
    (∀ t (h : BitVec 1), Ready (.stN h a b) s → access (s.val a).v 1 1 .store .plain y.t v = .ok (t, v) →
      exec (.stN h a b) s = .next (s.done (v.accept (.stN h a b) .stores (.store
        [{ pa := 8 * (t.pa / 8), data := (y.v &&& 15) <<< (4 * (2 * (t.pa % 8) + h.toNat)),
           en := 1 <<< (2 * (t.pa % 8) + h.toNat), tag := y.t }])))) ∧
    (∀ ws : List WordWrite, Ready (.vScatter d a b) s → (∀ tg ∈ (s.vec b).2, tg = false) →
      List.Forall₂ (fun (e : Nat × Word) w => ∃ t,
        access e.2 4 4 .store .plain ((s.vec d).2.getD (e.1 / 2) false) u = .ok (t, u) ∧
        w = wordWrite t.pa 4 ((laneAt (s.vec d).1 e.1).setWidth 64) ((s.vec d).2.getD (e.1 / 2) false))
        ((List.range 16).zip ((s.vec b).1.map (fun o => (s.val a).v + o.signExtend 64))) ws →
      exec (.vScatter d a b) s = .next (s.done (u.accept (.vScatter d a b) .stores (.store ws)))) ∧
    (∀ ws : List WordWrite, Ready (.vfSt off a b) s →
      let x := s.vfVal b
      let q := vfRound s.me.prec.toNat s.vctlMode { x := x.1 }
      let fl := x.2.1 ||| q.2
      let bs := (List.range 4).map (fun j => (vfMemImage s.me.prec.toNat q.1).1.extractLsb' (8 * j) 8)
        ++ (vfMemImage s.me.prec.toNat q.1).2
      let w := u.setMe { u.me with vctl := u.me.vctl ||| (fl.setWidth 64 <<< 8) }
      let va := (s.val a).v + off.signExtend 64
      (s.me.vctl.getLsbD 0 = false ∨ fl &&& 7 = 0) →
      List.Forall₂ (fun (e : Word × Nat) r => ∃ t, access e.1 e.2 1 .store .plain x.2.2 w = .ok (t, w) ∧
        r = runWrite t.pa ((bs.drop (e.1 - va).toNat).take e.2) x.2.2) (chunksOf va bs.length) ws →
      exec (.vfSt off a b) s = .next (s.done (w.accept (.vfSt off a b) .stores (.store ws))))

/-- R60, R69, R232: what a write of one aligned word leaves at the address where it is stored: the enabled nibbles hold the
data's, the others and every other byte what they held, and where an address is stored does not change. A scratch word's bound tag
becomes the data's, or after a store of a part of the word the OR of the two; its other tags, and every other word's, stay, and
only a store of the whole word takes an error away from it. Memory applies a store by writing its words in order; the stores
counter falls, the operation is no longer in flight, and no cell changes. A store of several words is no single event (R233, R237,
R255): one of them, the first at its address, may be applied ahead of the others, which stay in flight; that a turn which names it
does so is the model's (log 1). -/
def Obligations.StoresApply : Prop :=
  (∀ (s : State) (by' : Option (Nat × Nat)) (w : WordWrite) (hidden : Bool), Memory.wf s.mem = true →
     let t := s.write by' w hidden
     let A := s.storage w.pa hidden
     (∀ a, ¬ (A ≤ a ∧ a < A + 8) → t.rawByte a = s.rawByte a) ∧
     (∀ j < 8, t.rawByte (A + j) =
       (if w.en.getLsbD (2 * j + 1) then w.data.extractLsb' (8 * j + 4) 4 else (s.rawByte (A + j)).extractLsb' 4 4)
         ++ (if w.en.getLsbD (2 * j) then w.data.extractLsb' (8 * j) 4 else (s.rawByte (A + j)).extractLsb' 0 4)) ∧
     (∀ a h, t.storage a h = s.storage a h) ∧ Memory.wf t.mem = true ∧
     ((region w.pa).tagged = true →
       (Sparse.get 0 t.tags (A / 8)).getLsbD 2 = (w.tag || (w.en ≠ 0xFFFF && (Sparse.get 0 s.tags (A / 8)).getLsbD 2)) ∧
       (Sparse.get 0 t.tags (A / 8)).extractLsb' 0 2 = (Sparse.get 0 s.tags (A / 8)).extractLsb' 0 2) ∧
     (∀ a, (a ≠ A / 8 ∨ (region w.pa).tagged = false) → Sparse.get 0 t.tags a = Sparse.get 0 s.tags a) ∧
     (∀ a, a ∈ t.bad ↔ a ∈ s.bad ∧ ¬ (w.en = 0xFFFF ∧ a = A / 8))) ∧
  (∀ (s : State) (o : Op) (ws : List WordWrite), InFlight s o → o.kind = .store ws → o.live = true → o.cls = some .stores →
     s.isFirst o = true → Memory.wf s.mem = true →
     (∀ n w, s.ev.opt = some n → ws[n]? = some w → 2 ≤ ws.length → (∀ i < n, ∀ x, ws[i]? = some x → x.pa ≠ w.pa) →
       let t := (s.write (some (o.g, o.k)) w).setKind o.id (.store (ws.eraseIdx n))
       exec .storeApply s = .next t ∧ (t.slot o.g o.k).stores = (s.slot o.g o.k).stores ∧
       (∀ a, ¬ (s.storage w.pa false ≤ a ∧ a < s.storage w.pa false + 8) → t.rawByte a = s.rawByte a)) ∧
     (s.ev.opt = none → ∃ t, exec .storeApply s = .next t ∧ t = ws.foldl (fun u w => u.write (some (o.g, o.k)) w) (s.endOp o) ∧
       (t.slot o.g o.k).stores = (s.slot o.g o.k).stores - 1 ∧ t.op? o.id = none ∧ (∀ h c, t.cell h c = s.cell h c) ∧
       (∀ a, (∀ w ∈ ws, ¬ (s.storage w.pa false ≤ a ∧ a < s.storage w.pa false + 8)) → t.rawByte a = s.rawByte a) ∧
       (∀ a, (∀ w ∈ ws, s.storage w.pa false / 8 ≠ a) → Sparse.get 0 t.tags a = Sparse.get 0 s.tags a)))

/-- R174, R234, R416: a full or empty instruction is sent to its word, and its slot waits for it to be applied; the reading forms
hold the loads counter. Those that reach a word in one cycle arrive by ascending (core, slot). One that applies reads or writes
the word, sets or clears full, and its slot goes on; when it has changed the tag, the head of the word's queue applies for as
long as it can. One that cannot apply joins the queue, and only the first to have arrived is its head. A reading form that would apply to a word
with an uncorrectable error raises SOFT at its instruction and leaves the word and its tag (R61). The model's readings,
not the spec's: st.fs and st.fc apply at once whatever is queued at the word, and the heads run right after a tag change and
before any other operation (log 39); ld.fe and ld.fx take the word's own bound tag through any class of page (log 70); the order
of cores, and what counts as one cycle (log 69). -/
def Obligations.FullEmptyWords : Prop :=
  (∀ (s : State) (g k : Nat), s.cur = .slot g k → s.me.loads < 255 → ∀ (d a b : Name) (t : Target), (s.val a).t = false →
     let u := s.took a
     let y := u.val b
     let v := u.took b
     (∀ e ∈ [(Instr.ldFe, FullEmpty.ldFe), (.ldFx, .ldFx)], Ready (e.1 d a) s →
       access (s.val a).v 8 8 .atomic .fullEmpty false u = .ok (t, u) → u.badWord t.pa 8 = none →
       exec (e.1 d a) s = .next (State.stays ((u.accept (e.1 d a) .loads
         (.fullEmpty e.2 t.pa (s.val a).v {} (s.lateDst d))).awaiting u.nextId))) ∧
     (∀ e ∈ [(Instr.stEf, FullEmpty.stEf), (.stFs, .stFs), (.stFc, .stFc)], Ready (e.1 a b) s →
       access (s.val a).v 8 8 .atomic .fullEmpty false v = .ok (t, v) →
       exec (e.1 a b) s = .next (State.stays ((v.acceptFree (e.1 a b) (.fullEmpty e.2 t.pa (s.val a).v y none)).awaiting
         v.nextId)))) ∧
  (∀ (s : State) (o : Op) (f : FullEmpty) (pa : Nat) (va : Word) (y : Tagged) (dst : Option Nat), InFlight s o →
     o.kind = .fullEmpty f pa va y dst → o.live = true → s.isFirst o = true →
     let full := (s.tagOf pa).getLsbD 0
     let e := s.endOp o
     let put := e.write (some (o.g, o.k)) { pa := pa, data := y.v, en := 0xFFFF, tag := y.t }
     let old : List Tagged := [{ v := s.read64 pa, t := s.loadTag o.g pa 8 false }]
     let t : State := match f, full with
       | .ldFe, true => ((e.setTagBit pa 0 false).arrive o dst old).release o.g o.k
       | .ldFx, true => (e.arrive o dst old).release o.g o.k
       | .stEf, false => (put.setTagBit pa 0 true).release o.g o.k
       | .stFs, _ => (put.setTagBit pa 0 true).release o.g o.k
       | .stFc, _ => (put.setTagBit pa 0 false).release o.g o.k
       | _, _ => s
     let applies := if (t.tagOf pa).getLsbD 0 = full then t else t.runQueue pa t.ops.length
     let applicable := f = .stFs ∨ f = .stFc ∨ (s.queueHead pa = none ∧ ((f = .stEf ∧ full = false) ∨ (f ≠ .stEf ∧ full = true)))
     let sound := (f = .ldFe ∨ f = .ldFx) → s.badWord pa 8 = none
     let trap := e.releaseTrap o (softCause pa).1 va (softCause pa).2
     (∀ n, o.arr = some n → (s.queueHead pa = some o → sound → exec .fullEmptyApply s = .next applies) ∧
       (s.queueHead pa ≠ some o → exec .fullEmptyApply s = .next s)) ∧
     (¬ sound → full = true → (s.slot o.g o.k).inHandler = false → (s.core o.g).tvec.getLsbD 0 = true →
       (s.queueHead pa = some o ∨
         (o.arr = none ∧ s.queueHead pa = none ∧ ∀ p ∈ s.atWord pa, p.arr = none → p.outranks o = false)) →
       exec .fullEmptyApply s = .next trap ∧ trap.mem = s.mem ∧ trap.tags = s.tags) ∧
     (o.arr = none → (∃ p ∈ s.atWord pa, p.arr = none ∧ p.outranks o = true) → exec .fullEmptyApply s = .next s) ∧
     (o.arr = none → (∀ p ∈ s.atWord pa, p.arr = none → p.outranks o = false) →
       (applicable → sound → exec .fullEmptyApply s = .next applies ∧
         ((∀ p ∈ t.ops, ∀ f' v' y' d', p.kind ≠ .fullEmpty f' pa v' y' d') → exec .fullEmptyApply s = .next t)) ∧
       (¬ applicable → ∃ u, exec .fullEmptyApply s = .next u ∧ u.op? o.id = some { o with arr := some s.nextId } ∧
         u.mem = s.mem ∧ u.tags = s.tags ∧ u.cores = s.cores))) ∧
  (∀ (s : State) (pa : Nat) (p q : Op) (a b : Nat), s.queueHead pa = some p → q ∈ s.atWord pa → p.arr = some a →
     q.arr = some b → a ≤ b) ∧
  (∀ (t : State) (pa n : Nat) (p : Op) (f : FullEmpty) (va : Word) (y : Tagged) (dst : Option Nat),
     t.queueHead pa = some p → p.kind = .fullEmpty f pa va y dst →
     (f.canApply ((t.tagOf pa).getLsbD 0) = true →
       t.runQueue pa (n + 1) = (t.applyFullEmpty p f pa va y dst).runQueue pa n) ∧
     (f.canApply ((t.tagOf pa).getLsbD 0) = false → t.runQueue pa (n + 1) = t))

/-- R175, R236: watch and unwatch of an aligned word of the core's own scratch, and waita: a ninth watch raises ILL, waita
clears the ready bit, and blocks while it is clear. -/
def Obligations.Watches : Prop :=
  ∀ (s : State) (g k : Nat), s.cur = .slot g k → g < 4096 → (s.core g).shadow = [] →
    (∀ a, a.isPort = false → (s.val a).t = false → (s.val a).v.toNat % 8 = 0 → (s.val a).v.toNat + 8 ≤ 2 ^ 20 →
      let w := (s.val a).v.toNat / 8
      (Ready (.watch a) s → w ∈ s.me.watches → exec (.watch a) s = .next (s.done s)) ∧
      (Ready (.watch a) s → w ∉ s.me.watches → s.me.watches.length < 8 → exec (.watch a) s = .next (s.done
        ((s.setMe { s.me with watches := s.me.watches ++ [w] }).setTagBit (scrBase g + 8 * w) 1 true))) ∧
      (Ready (.watch a) s → w ∉ s.me.watches → 8 ≤ s.me.watches.length →
        exec (.watch a) s = .next (s.trapped g k (.watch a) 0x01 (s.val a).v)) ∧
      (Ready (.unwatch a) s → w ∈ s.me.watches → exec (.unwatch a) s = .next (s.done
        ((s.setMe { s.me with watches := s.me.watches.filter (fun j => j ≠ w) }).unwatchWords g [w])))) ∧
    (Ready .waita s → s.me.ready = true → exec .waita s = .next (s.done (s.setMe { s.me with ready := false }))) ∧
    (Ready .waita s → s.me.ready = false → exec .waita s = .next (s.blockedOn g k .ready))

/-- R239, R240: an atomic or a reduction whose operands are untagged where they must be and whose access is permitted is
accepted; red.ew converts its value into the window first and raises the flags of that, with FPX for an enabled one, and ILL
with TVAL the exponent for one that names no window. The owning unit applies it as one event: the word takes the new value, the OR
of the tags, and an atomic's destination cell, unless that is name zero, the old value; amo.cas writes only where the word equals
its compare value. At a word with an uncorrectable error nothing is changed and SOFT is deferred (R61). -/
def Obligations.Atomics : Prop :=
  (∀ (s : State) (g k : Nat), s.cur = .slot g k → s.me.loads < 255 → s.me.stores < 255 → ∀ (d a b : Name) (t : Target),
     (s.val a).t = false →
     let u := s.took a
     let y := u.val b
     let v := u.took b
     (∀ e ∈ [(Instr.amoAdd, Amo.add), (.amoAnd, .and), (.amoOr, .or), (.amoXor, .xor), (.amoMin, .min), (.amoMax, .max),
         (.amoXchg, .xchg)], Ready (e.1 d a b) s → access (s.val a).v 8 8 .atomic .plain y.t v = .ok (t, v) →
       v.badWord t.pa 8 = none →
       exec (e.1 d a b) s = .next (s.done (v.accept (e.1 d a b) .loads
         (.atomic e.2 t.pa y 0 (t.cls = 1) (s.lateDst d))))) ∧
     (Ready (.amoCas d a b) s → (s.val d).t = false → access (s.val a).v 8 8 .atomic .plain y.t v = .ok (t, v) →
       v.badWord t.pa 8 = none →
       exec (.amoCas d a b) s = .next (s.done (v.accept (.amoCas d a b) .loads
         (.atomic .cas t.pa y (s.val d).v (t.cls = 1) (s.lateDst d))))) ∧
     (∀ e ∈ [(Instr.redAdd, Red.add), (.redOr, .or), (.redMax, .max)], Ready (e.1 a b) s →
       access (s.val a).v 8 8 .atomic .plain y.t v = .ok (t, v) → v.badWord t.pa 8 = none →
       exec (e.1 a b) s = .next (s.done (v.accept (e.1 a b) .stores (.red e.2 t.pa y (t.cls = 1))))) ∧
     (Ready (.redEw d a b) s → y.t = false → (v.val d).t = false →
       windowExpOk ((v.val d).v.extractLsb' 0 32).toInt = true →
       let r := windowOf 64 ((v.val d).v.extractLsb' 0 32).toInt (num32 (y.v.extractLsb' 0 32))
       let w := v.took d
       access (s.val a).v 8 8 .atomic .plain false w = .ok (t, w) → w.badWord t.pa 8 = none → s.quiet r.2 →
       exec (.redEw d a b) s = .next (s.done ((w.orFctl r.2).accept (.redEw d a b) .stores
         (.red .add t.pa { v := BitVec.ofInt 64 r.1, t := false } (t.cls = 1))))) ∧
     (Ready (.redEw d a b) s → y.t = false → (v.val d).t = false →
       let e := ((v.val d).v.extractLsb' 0 32).toInt
       let r := windowOf 64 e (num32 (y.v.extractLsb' 0 32))
       let w := v.took d
       ((e < -1100 ∨ 1000 < e) → exec (.redEw d a b) s = .next (s.trapped g k (.redEw d a b) cILL (BitVec.ofInt 64 e))) ∧
       (-1100 ≤ e → e ≤ 1000 → access (s.val a).v 8 8 .atomic .plain false w = .ok (t, w) → w.badWord t.pa 8 = none →
         ¬ s.quiet r.2 →
         exec (.redEw d a b) s = .next ((s.orFctl r.2).trapped g k (.redEw d a b) cFPX (r.2.setWidth 64))))) ∧
  (∀ (s : State) (o : Op) (pa a : Nat) (y : Tagged), InFlight s o → s.isFirst o = true → s.badWord pa 8 = some a →
     (∀ f cmp cb dst, o.kind = .atomic f pa y cmp cb dst → exec .atomicApply s =
       .next ((s.failOp o (softCause a).1 0 (softCause a).2).arrive o dst [{}])) ∧
     (∀ f cb, o.kind = .red f pa y cb → exec .reductionApply s = .next (s.failOp o (softCause a).1 0 (softCause a).2))) ∧
  (∀ (s : State) (o : Op) (pa : Nat) (y : Tagged), InFlight s o → o.live = true → s.isFirst o = true → s.badWord pa 8 = none →
     let put (v : Word) (tg : Bool) : State :=
       (s.endOp o).write (some (o.g, o.k)) { pa := pa, data := v, en := 0xFFFF, tag := tg }
     let old := s.read64 pa
     (∀ f cmp cb dst, o.kind = .atomic f pa y cmp cb dst →
       let x : Tagged := { v := old, t := s.loadTag o.g pa 8 cb }
       let w : State := (match f with
         | .add => put (old + y.v) (x.t || y.t)
         | .and => put (old &&& y.v) (x.t || y.t)
         | .or => put (old ||| y.v) (x.t || y.t)
         | .xor => put (old ^^^ y.v) (x.t || y.t)
         | .min => put (if old.toInt ≤ y.v.toInt then old else y.v) (x.t || y.t)
         | .max => put (if y.v.toInt ≤ old.toInt then old else y.v) (x.t || y.t)
         | .xchg => put y.v y.t
         | .cas => if old = cmp then put y.v y.t else s.endOp o)
       (∀ c, dst = some c → exec .atomicApply s = .next (w.setCells o.g c [x])) ∧
       (dst = none → exec .atomicApply s = .next w)) ∧
     (∀ f cb, o.kind = .red f pa y cb →
       exec .reductionApply s = .next (
         let tg := s.loadTag o.g pa 8 cb || y.t
         match f with
         | .add => put (old + y.v) tg
         | .or => put (old ||| y.v) tg
         | .max => put (if y.v.toInt ≤ old.toInt then old else y.v) tg)))

/-! ### Fences, waits, yield, publish, migration (R50, R51, R66, R266 to R272, R284) -/

/-- R266, R267, R269, R272, R284, R376: the fences and waits complete at once, changing nothing, where their counters meet their
limits and no covered fault is pending, and block while a counter does not; ifence also empties the core's instruction cache,
and tlbinv of 0 its translation buffer, of an address the entries of its page; the walks in flight for what it names are
discarded, and the accesses that wait for them are issued again; an address of more than 49 bits raises XLT. yield completes at
once; its slot stands back for at most 64 cycles, until each other slot that is eligible has had a turn: a turn of a slot takes it
from the slots that any yield of the core waits for. Pending faults stand in the order of their issue. A wait that covers some
reports the one with the earliest issue: it traps with DEF set, the fault's value and TSTAT, and TEPC at the wait, and the fault is
no longer pending. -/
def Obligations.Waits : Prop :=
  (∀ (s : State) (g k : Nat) (sc : BitVec 3) (l st c t : BitVec 4), s.cur = .slot g k →
     (∀ e ∈ [(Instr.fence sc, 0, 0, 15, 15), (.acq sc, 0, 15, 15, 15), (.rel sc, 15, 0, 15, 15),
         (.wait l st c t, l.toNat, st.toNat, c.toNat, t.toNat)], Ready e.1 s →
       (Clear s e.2.1 e.2.2.1 e.2.2.2.1 e.2.2.2.2 → exec e.1 s = .next (s.done s)) ∧
       (s.waitMet g k e.2.1 e.2.2.1 e.2.2.2.1 e.2.2.2.2 = false →
         exec e.1 s = .next (s.blockedOn g k (.wait e.2.1 e.2.2.1 e.2.2.2.1 e.2.2.2.2)))) ∧
     (Ready .ifence s → Clear s 15 0 15 15 →
       exec .ifence s = .next (s.done (s.setCore g { s.core g with icache := [] }))) ∧
     (∀ a, Ready (.tlbinv a) s → (s.val a).t = false → Clear s 15 0 15 15 → a.isPort = false →
       ((s.val a).v = 0 → exec (.tlbinv a) s = .next (s.done ((s.setCore g { s.core g with tlb := [] }).discardWalks g none))) ∧
       ((s.val a).v ≠ 0 → (s.val a).v.toNat < 2 ^ 49 →
         exec (.tlbinv a) s = .next (s.done ((s.setCore g { s.core g with tlb := (s.core g).tlb.filter (fun e =>
           !(e.asid = (s.core g).asid.setWidth 16 && e.va / 2 ^ e.shift = (s.val a).v.toNat / 2 ^ e.shift)) }).discardWalks g
             (some (s.val a).v.toNat)))) ∧
       (2 ^ 49 ≤ (s.val a).v.toNat → exec (.tlbinv a) s = .next (s.trapped g k (.tlbinv a) 0x05 (s.val a).v)))) ∧
  (∀ (s : State) (g : Nat) (va : Option Nat), (s.ops.map (·.id)).Nodup →
     let t := s.discardWalks g va
     t.ops = s.ops.filter (fun o => !s.walkFor g va o) ∧ t.mem = s.mem ∧ (∀ h c, t.cell h c = s.cell h c) ∧
     (∀ o ∈ s.ops, s.walkFor g va o = true → (s.slot o.g o.k).blocked = some (.walk o.id) →
       (t.slot o.g o.k).blocked = none) ∧
     (∀ o ∈ s.ops, o.g = g → (∃ w kind, o.kind = .walk w kind) → s.walkFor g none o = true)) ∧
  (∀ (s : State) (g k : Nat), s.cur = .slot g k → Ready .yield s → ∃ t, exec .yield s = .next t ∧
     t.slot g k = { s.slot g k with pc := BitVec.ofNat 64 (s.here + 4), yieldTo := some ((s.core g).cyc + 64),
                                    yieldFor := (s.eligibles g).filter (fun j => j ≠ k) } ∧
     t.mem = s.mem ∧ t.ops = s.ops ∧ (∀ h c, t.cell h c = s.cell h c) ∧
     (∀ h j, ¬ (h = g ∧ j = k) → t.slot h j = s.slot h j) ∧
     (t.yielding g k = true → (t.core g).cyc < (s.core g).cyc + 64)) ∧
  (∀ (s : State) (g k j : Nat),
     (s.yielding g k = true ↔ (∃ t, (s.slot g k).yieldTo = some t ∧ (s.core g).cyc < t) ∧ (s.slot g k).yieldFor ≠ []) ∧
     (s.yielding g k = true → s.eligible g k = false) ∧
     ((s.noteTurn g j).slot g k).yieldFor = (s.slot g k).yieldFor.filter (fun i => i ≠ j)) ∧
  (∀ (ps : List Pending) (p : Pending), ps.Pairwise (fun x y => x.order < y.order) → (∀ q ∈ ps, q.order ≠ p.order) →
     (insertPending p ps).Pairwise (fun x y => x.order < y.order) ∧ ∀ q, q ∈ insertPending p ps ↔ q = p ∨ q ∈ ps) ∧
  (∀ (s : State) (g k : Nat) (l sc c t : BitVec 4) (p : Pending), s.cur = .slot g k → Ready (.wait l sc c t) s →
     s.waitMet g k l.toNat sc.toNat c.toNat t.toNat = true → s.me.inHandler = false →
     let covered (q : Pending) : Bool := covers0 l.toNat sc.toNat c.toNat t.toNat q.cls
     s.me.pend.Pairwise (fun x y => x.order < y.order) → p ∈ s.me.pend → covered p = true →
     (∀ q ∈ s.me.pend, covered q = true → p.order ≤ q.order) →
     exec (.wait l sc c t) s = .next
       { (s.setSlot g k { s.slot g k with pend := (s.slot g k).pend.filter (fun q => q.order ≠ p.order) }).takeTrap g k
           p.code true p.val (tstatOf p.sub p.cls.code p.major p.fn p.seq) (s.slot g k).pc with turn := .issued })

/-- R66, R68, R268: publish of a descriptor in the core's scratch: one that fails a check raises ILL with TVAL its address, and one
that passes waits for the engine operations of the partition that have begun. Then a declare adds the entry with the first half in view, a flip turns the view of the entry and
nothing else, a retire removes it; CUR is written back. That CUR is written as 0 after a retire is the model's choice, for R66
gives it no value there (log 71); so is that the wait is for every operation of the partition that has begun, and not only for
those on the region (log 88). -/
def Obligations.Publish : Prop :=
  ∀ (s : State) (g k : Nat) (a : Name) (t : Target), s.cur = .slot g k → a.isPort = false → Ready (.publish a) s →
    (s.val a).t = false → (s.val a).v.toNat % 32 = 0 → (s.val a).v.toNat + 32 ≤ 2 ^ 20 →
    access (s.val a).v 32 32 .load .plain false s = .ok (t, s) → s.badWord t.pa 32 = none → Clear s 0 0 0 0 →
    let begun := ∃ o ∈ s.ops, s.partOf o.g = s.partOf g ∧ (o.early ≠ [] ∨ o.parts ≠ [])
    let d := s.shadowDesc t.pa
    let back (u : State) (cur : Bool) : State :=
      u.write (some (g, k)) (wordWrite (t.pa + 10) 1 (if cur then 1 else 0) false)
    let sh := (s.core g).shadow
    ((s.core g).publishBad d = true ↔ 3 ≤ d.op ∨ 8 ≤ d.entry ∨ (d.op = 0 ∧ Sparse.has sh d.entry = true) ∨
      (d.op ≠ 0 ∧ Sparse.has sh d.entry = false) ∨ d.vbase % 4096 ≠ 0 ∨ d.size % 4096 ≠ 0 ∨ d.size < 4096 ∨ 2 ^ 18 < d.size ∨
      2 ^ 20 < d.vbase + 2 * d.size ∨
      ∃ e ∈ sh, e.1 ≠ d.entry ∧ d.vbase < e.2.vbase + 2 * e.2.size ∧ e.2.vbase < d.vbase + 2 * d.size) ∧
    (begun → (s.core g).publishBad d = false → exec (.publish a) s = .next (s.blockedOn g k .begun)) ∧
    ((s.core g).publishBad d = true → exec (.publish a) s = .next (s.trapped g k (.publish a) 0x01 (s.val a).v)) ∧
    (¬ begun → (s.core g).publishBad d = false →
      (d.op = 0 → exec (.publish a) s = .next (s.done (back (s.setCore g { s.core g with
        shadow := Sparse.put sh d.entry { vbase := d.vbase, size := d.size, cur := false } }) false))) ∧
      (d.op = 1 → ∀ e, Sparse.get { vbase := 0, size := 0 } sh d.entry = e → exec (.publish a) s = .next (s.done
        (back (s.setCore g { s.core g with shadow := Sparse.put sh d.entry { e with cur := !e.cur } }) (!e.cur)))) ∧
      (d.op = 2 → exec (.publish a) s = .next (s.done
        (back (s.setCore g { s.core g with shadow := Sparse.del sh d.entry }) false))))

/-- R50, R51, R270: mig of an address that the core itself owns completes and changes nothing; of one that another core of
the partition owns, the thread leaves its slot, which falls vacant, and is on its way with its first n window cells, PRED, FCTL,
PREC, VCTL, TASK and its memberships, each the object that a BMEM register names or that it brought along from an earlier
migration. That its privilege level, its gang and its syncs go with it is the model's reading, for R51's table does not name them
(log 63). -/
def Obligations.Migration : Prop :=
  ∀ (s : State) (g k : Nat) (a : Name) (n : BitVec 8) (h : Nat), s.cur = .slot g k → g < 4096 → a.isPort = false →
    Ready (.mig a n) s → (s.val a).t = false → s.me.inHandler = false → s.isKeystone g k = false →
    n.toNat ≤ s.me.wlim.toNat → migTarget (s.val a).v s = .ok (h, s) → Clear s 0 0 0 0 →
    (h = g → exec (.mig a n) s = .next (s.done s)) ∧
    (h ≠ g → (s.core g).smpl.getLsbD 4 = false → ∃ t, exec (.mig a n) s = .next t ∧
      t.slot g k = (s.slot g k).kept ∧ t.mem = s.mem ∧
      ∃ o ∈ t.ops, o.id = s.nextId ∧ ∃ m, o.kind = .migrant m ∧ m.target = h ∧ m.pc = (s.slot g k).pc + 4 ∧
        m.level = (s.slot g k).level ∧ m.task = (s.slot g k).task ∧ m.wlim = (s.slot g k).wlim ∧
        m.cells = (List.range n.toNat).map (fun j => s.cell g (s.physCell g k (8 + j))) ∧
        m.pred = (s.slot g k).pred ∧ m.fctl = (s.slot g k).fctl ∧ m.prec = (s.slot g k).prec ∧ m.vctl = (s.slot g k).vctl ∧
        m.gang = (s.slot g k).gang ∧ m.syncs = (s.slot g k).syncs ∧
        (∀ pa, pa ∈ m.members ↔ pa ∈ (s.slot g k).moved ∨
          ∃ b ∈ [(s.slot g k).bmem0, (s.slot g k).bmem1, (s.slot g k).bmem2, (s.slot g k).bmem3], b.getLsbD 63 = true ∧
            ∃ x, s.engAccess { s.ctx g k with level := .sup } (BitVec.ofNat 64 (b.toNat % 2 ^ 49)) 32 .atomic .barrier = .ok x ∧
              x.pa = pa))

/-! ### Barriers and gangs (R166 to R173, R273, R274, R419) -/

/-- R264, R273, R274: a barrier instruction on an aligned address whose object may be reached sends its operation to the
object's unit, and its slot waits for the answer. -/
def Obligations.BarriersIssue : Prop :=
  ∀ (s : State) (g k : Nat), s.cur = .slot g k → g ≠ vrNum → s.me.loads < 255 → ∀ (d a b : Name) (t : Target),
    (s.val a).t = false → (s.val a).v.toNat % 32 = 0 →
    let va := (s.val a).v
    let u := s.took a
    let y := u.val b
    let v := u.took b
    let w := v.took d
    (access va 32 32 .atomic .barrier false u = .ok (t, u) →
      (∀ e ∈ [(Instr.barJoin a, BarOp.join), (.barInval a, .inval)], Ready e.1 s →
        exec e.1 s = .next (State.stays ((u.acceptFree e.1 (.bar t.pa va e.2 none)).awaiting u.nextId))) ∧
      (∀ e ∈ [(Instr.barArrive d a, BarOp.arrive), (.barDrop d a, .drop)], Ready e.1 s →
        exec e.1 s = .next (State.stays ((u.accept e.1 .loads (.bar t.pa va e.2 (s.lateDst d))).awaiting u.nextId)))) ∧
    (access va 32 32 .atomic .barrier false v = .ok (t, v) → y.t = false →
      (∀ e ∈ [(Instr.barExpect a b, BarOp.expect y.v, none), (.barWait a b, .wait (y.v.extractLsb' 0 16), none),
          (.barTest d a b, .test (y.v.extractLsb' 0 16), s.lateDst d),
          (.barTwait d a b, (if y.v.extractLsb' 32 32 = 0 then .test (y.v.extractLsb' 0 16)
            else .twait (y.v.extractLsb' 0 16) ((s.core g).cyc + (y.v.extractLsb' 32 32).toNat)), s.lateDst d)],
        Ready e.1 s →
        exec e.1 s = .next (State.stays ((v.acceptFree e.1 (.bar t.pa va e.2.1 e.2.2)).awaiting v.nextId)))) ∧
    (access va 32 32 .atomic .barrier false w = .ok (t, w) → y.t = false → (v.val d).t = false → Ready (.barInit d a b) s →
      (((v.val d).v.extractLsb' 16 3).toNat < 5 → (v.val d).v.extractLsb' 19 45 = 0 →
        exec (.barInit d a b) s = .next (State.stays
          ((w.acceptFree (.barInit d a b) (.bar t.pa va (.init (v.val d).v y.v) none)).awaiting w.nextId))) ∧
      ((5 ≤ ((v.val d).v.extractLsb' 16 3).toNat ∨ (v.val d).v.extractLsb' 19 45 ≠ 0) →
        exec (.barInit d a b) s = .next (s.trapped g k (.barInit d a b) 0x01 (v.val d).v)))

/-- R167, R168, R170: a barrier unit applies an operation that has reached it to an object that passes the checks common to all: what each does to
the object, and which answer it sends; where a check fails the answer is a refusal with its subcode and the object stays. A
phase completes exactly when the arrivals and the bytes meet their expected values, also after an operation that only reads;
the phase number then rises, drops are taken from the expected count, the counts start afresh, and every wait at the object is
sent its notice. An operation whose slot has an access to the object in flight from before waits for it (R187). bar.init of a scope whose instance at the owner leaves out the issuing core is refused with 0x02.
bar.init and bar.inval refuse with 0x06 every wait that is pending at the object and every bar.test that is
not answered yet, but a bar.twait past its limit. An operation other than bar.init on an object with an uncorrectable error
changes nothing and is answered with SOFT (R61; that bar.init meets none is the model's reading, log 81). -/
def Obligations.BarriersApply : Prop :=
  (∀ (s : State) (o : Op) (pa : Nat) (va : Word) (op : BarOp) (dst : Option Nat), InFlight s o → o.kind = .bar pa va op dst →
     (o.live = true → s.touchedBefore o.g o.k o.id pa 32 = true → exec .barrierOperationApply s = .next s) ∧
     (s.atUnit o ≠ none → s.heldBack o = false → (op.isRelease = true → s.performedBefore o.g o.k o.id = true) →
     let b := s.readBar pa
     let reply (u : State) (v : Option Word) : State := u.setKind o.id (.barAnswer va (.applied v) dst)
     let refuse (sub : Nat) : State := s.setKind o.id (.barAnswer va (.refused sub) dst)
     let token : Word := b.phase.setWidth 64
     let run := exec .barrierOperationApply s
     (∀ c bexp, op = .init c bexp → s.covers (c.extractLsb' 16 3).toNat o.g (ownerOf pa) = true → run = .next (reply
       ((s.writeBar pa { phase := 0, flags := (c.extractLsb' 16 3).setWidth 16, expect := c.extractLsb' 0 16, arrived := 0,
                         drops := 0, rest := 0, bexp := bexp, barr := 0 }).barNotify pa 0 true) none)) ∧
     (∀ c bexp, op = .init c bexp → s.covers (c.extractLsb' 16 3).toNat o.g (ownerOf pa) = false → run = .next (refuse 2)) ∧
     (∀ a h off, (∀ c bexp, op ≠ .init c bexp) → s.badWord pa 32 = some a → region a = .scratch h off →
       run = .next (s.setKind o.id (.barAnswer va (.soft 0x12 1 (va + BitVec.ofNat 64 (a - pa))) dst))) ∧
     (∀ sub, (∀ c bexp, op ≠ .init c bexp) → (∀ t l, op ≠ .twait t l) → s.badWord pa 32 = none →
       s.barCheck b o.g (ownerOf pa) = some sub → run = .next (refuse sub)) ∧
     (∀ sub t l, op = .twait t l → s.badWord pa 32 = none → s.barCheck b o.g (ownerOf pa) = some sub →
       run = .next (s.setKind o.id (.barAnswer va (.refusedBy sub l) dst))) ∧
     (s.badWord pa 32 = none → s.barCheck b o.g (ownerOf pa) = none →
       let after (u : State) : State := if b.arrived = b.expect ∧ b.barr = b.bexp then u.barFinish pa b else u
       (op = .join → b.expect = 0xFFFF → run = .next (refuse 7)) ∧
       (op = .join → b.expect ≠ 0xFFFF → (s.timesHeld o.g o.k pa ≠ 0 ∨ 4 ≤ (s.memberPas o.g o.k).length ∨
         (s.slot o.g o.k).freeBmem = none) → run = .next (refuse 5)) ∧
       (op = .join → b.expect ≠ 0xFFFF → s.timesHeld o.g o.k pa = 0 → (s.memberPas o.g o.k).length < 4 →
         (s.slot o.g o.k).freeBmem ≠ none → run = .next (reply ((s.joinBmem o.g o.k va).barFinish pa { b with expect := b.expect + 1 }) none)) ∧
       (op = .arrive → b.arrived ≠ b.expect →
         run = .next (reply (s.barFinish pa { b with arrived := b.arrived + 1 }) (some token))) ∧
       (op = .arrive → b.arrived = b.expect → run = .next (refuse 3)) ∧
       (op = .drop → b.arrived = b.expect → run = .next (refuse 3)) ∧
       (op = .drop → b.arrived ≠ b.expect → 1 < s.timesHeld o.g o.k pa → run = .next (refuse 5)) ∧
       (op = .drop → b.arrived ≠ b.expect → s.timesHeld o.g o.k pa ≤ 1 →
         run = .next (reply ((s.dropBmem o.g o.k pa).barFinish pa
           { b with arrived := b.arrived + 1, drops := b.drops + 1 }) (some token))) ∧
       (∀ n, op = .expect n → run = .next (reply (s.barFinish pa { b with bexp := b.bexp + n }) none)) ∧
       (op = .inval → run = .next (reply ((s.writeBar pa { b with flags := b.flags ||| 8 }).barNotify pa b.phase true) none)) ∧
       (∀ t, op = .wait t → b.phase = t → run = .next (after (s.setKind o.id (.barPending pa va t none dst)))) ∧
       (∀ t, op = .wait t → b.phase ≠ t → run = .next (after (reply s none))) ∧
       (∀ t, op = .test t → run = .next (after (s.setKind o.id (.barAnswer va
         (.tested pa (if b.phase = t then 0 else if b.phase = t + 1 then 1 else 2)) dst)))) ∧
       (∀ t l, op = .twait t l → b.phase = t → run = .next (after (s.setKind o.id (.barPending pa va t (some l) dst)))) ∧
       (∀ t l, op = .twait t l → b.phase ≠ t → run = .next (after (s.setKind o.id
         (.barNotice va (if b.phase = t + 1 then 1 else 2) (some l) dst))))))) ∧
  (∀ (s : State) (pa : Nat) (b : BarObj),
     (¬ (b.arrived = b.expect ∧ b.barr = b.bexp) → s.barFinish pa b = s.writeBar pa b) ∧
     (b.arrived = b.expect → b.barr = b.bexp →
       let n : BarObj := { b with phase := b.phase + 1, expect := b.expect - b.drops, arrived := 0, drops := 0, barr := 0 }
       s.barFinish pa b = (s.writeBar pa n).barNotify pa n.phase false ∧
       ∀ o ∈ (s.barFinish pa b).ops, ∀ va t dl dst, o.kind = .barPending pa va t dl dst → t = b.phase + 1)) ∧
  (∀ (s : State) (pa : Nat) (ph : BitVec 16), let t := s.barNotify pa ph true
     (∀ o ∈ s.ops, ∀ va dst, ((∃ v, o.kind = .barPending pa va v none dst) ∨ (∃ w, o.kind = .barAnswer va (.tested pa w) dst)) →
       { o with kind := .barAnswer va (.refused 6) dst } ∈ t.ops) ∧
     (∀ o ∈ s.ops, ∀ va v l dst, o.kind = .barPending pa va v (some l) dst →
       (if (s.core o.g).cyc ≤ l then { o with kind := .barAnswer va (.refusedBy 6 l) dst } else o) ∈ t.ops) ∧
     (∀ o ∈ t.ops, ∀ va v w dst, o.kind ≠ .barPending pa va v none dst ∧ o.kind ≠ .barAnswer va (.tested pa w) dst))

/-- R264, R274, R419: an answer, a notice or an expired limit reaches a waiting slot: it goes on after its instruction with
the value, if any, in its destination cell; a refusal traps BAR with the object's address and the subcode, and gives back a port
word that the instruction took, and so does the SOFT of an operation that met an uncorrectable error (R61). A bar.twait ends at its limit with 3, wherever its operation, its answer or its notice is: a
notice or a refusal counts up to the cycle that the limit names. -/
def Obligations.BarrierAnswers : Prop :=
  ∀ (s : State) (o : Op) (va : Word) (dst : Option Nat), InFlight s o → o.live = true →
    let x := s.slot o.g o.k
    let goesOn (r : Host.Outcome State Fault Refusal) (v : Option Word) : Prop := ∃ t, r = .next t ∧
      (t.slot o.g o.k).blocked = none ∧ (t.slot o.g o.k).pc = x.pc + 4 ∧ t.op? o.id = none ∧ t.mem = s.mem ∧
      (∀ w c, v = some w → dst = some c → c < numCells o.g → t.cell o.g c = { v := w, t := false })
    (∀ v, o.kind = .barAnswer va (.applied v) dst → goesOn (exec .barrierAnswer s) v) ∧
    (∀ pa v, o.kind = .barAnswer va (.tested pa v) dst → goesOn (exec .barrierAnswer s) (some v)) ∧
    (∀ sub l, o.kind = .barAnswer va (.refusedBy sub l) dst →
      ((s.core o.g).cyc ≤ l → exec .barrierAnswer s = .next ((s.endOp o).releaseTrap o 0x10 va sub)) ∧
      (l < (s.core o.g).cyc → exec .barrierAnswer s = .next s ∧ goesOn (exec .barTwaitTimeout s) (some 3))) ∧
    (∀ w d, x.taken = [(d, w)] → 1 ≤ d → d ≤ 4 → ((s.putBack o.g o.k).slot o.g o.k).queue d = w :: x.queue d) ∧
    (∀ sub, o.kind = .barAnswer va (.refused sub) dst →
      exec .barrierAnswer s = .next ((s.endOp o).releaseTrap o 0x10 va sub)) ∧
    (o.kind = .nodeAnswer → goesOn (exec .barrierAnswer s) none) ∧
    (∀ c sub w, (o.kind = .barAnswer va (.soft c sub w) dst ∨ o.kind = .nodeSoft c sub w) →
      exec .barrierAnswer s = .next ((s.endOp o).releaseTrap o c w sub)) ∧
    (∀ code, o.kind = .barNotice va code none dst → goesOn (exec .barrierRelease s) none) ∧
    (∀ code l, o.kind = .barNotice va code (some l) dst → (s.core o.g).cyc ≤ l →
      goesOn (exec .barrierRelease s) (some (BitVec.ofNat 64 code))) ∧
    (∀ code l, o.kind = .barNotice va code (some l) dst → l < (s.core o.g).cyc →
      exec .barrierRelease s = .next s ∧ goesOn (exec .barTwaitTimeout s) (some 3)) ∧
    (∀ pa t l, (o.kind = .barPending pa va t (some l) dst ∨ o.kind = .bar pa va (.twait t l) dst) → l ≤ (s.core o.g).cyc →
      goesOn (exec .barTwaitTimeout s) (some 3))

/-- R173: sync of a thread that is in no gang completes; a member's count rises and it waits. The node releases the waiting
members whose counts every member still in the gang has reached, once their accesses are performed, and nobody else. -/
def Obligations.GangSync : Prop :=
  ∀ (s : State),
    (∀ g k, s.cur = .slot g k → Ready .sync s →
      (s.me.gang = none → exec .sync s = .next (s.done s)) ∧
      (∀ n i, s.me.gang = some (n, i) → ∃ t, exec .sync s = .next t ∧ (t.slot g k).blocked = some .sync ∧
        (t.slot g k).syncs = s.me.syncs + 1 ∧ (t.slot g k).pc = s.me.pc ∧ t.mem = s.mem ∧
        t.gangs = s.gangs.map (fun a => if a.id = n then { a with counts := a.counts.set i (some (s.me.syncs + 1)) } else a))) ∧
    (∀ a, s.gangs.find? (fun b => b.id = s.ev.id) = some a → (s.gangSlots s.ev.id).Nodup →
      (∀ e ∈ s.gangSlots s.ev.id, (s.slot e.1 e.2).blocked = some .sync → s.performedBefore e.1 e.2 s.nextId = true) →
      ∃ t, exec .gangSyncRelease s = .next t ∧ t.mem = s.mem ∧
        (∀ e ∈ s.gangSlots s.ev.id, (s.slot e.1 e.2).blocked = some .sync → (s.slot e.1 e.2).syncs ≤ a.low →
          t.slot e.1 e.2 = { s.slot e.1 e.2 with blocked := none, pc := (s.slot e.1 e.2).pc + 4 }) ∧
        (∀ g k, ((g, k) ∉ s.gangSlots s.ev.id ∨ (s.slot g k).blocked ≠ some .sync ∨ a.low < (s.slot g k).syncs) →
          t.slot g k = s.slot g k))

/-! ### Messages and ports (R176 to R179, R275, R334) -/

/-- R176, R177, R275: smsg to a destination that may be named sends its payload and raises the stores counter, and to any
other raises MSGF with TVAL the cell; rmsg and wmsg take the oldest message held for the slot; with none, rmsg writes zeros
and wmsg blocks; mq counts. -/
def Obligations.Messages : Prop :=
  ∀ (s : State) (g k : Nat), s.cur = .slot g k → ∀ (d a b : Name),
    let u := s.took a
    let y := u.val b
    let v := u.took b
    let mine := (s.core g).mailbox.filter (fun m => m.slot = k)
    let others := (s.core g).mailbox.filter (fun m => m.slot ≠ k)
    (Ready (.smsg a b) s → (s.val a).t = false → y.t = false →
      (s.msgBad g (msgDest (s.val a).v) = false → s.me.stores < 255 →
        exec (.smsg a b) s = .next (s.done (v.accept (.smsg a b) .stores (s.msgKind g k (msgDest (s.val a).v) y.v)))) ∧
      (s.msgBad g (msgDest (s.val a).v) = true → exec (.smsg a b) s = .next (s.trapped g k (.smsg a b) 0x18 (s.val a).v))) ∧
    (∀ i ∈ [Instr.rmsg d, .wmsg d], Ready i s → ∀ m rest, mine = m :: rest →
      exec i s = .next (s.done ((s.setCore g { s.core g with mailbox := others ++ rest }).setGroup d
        [{ v := m.payload, t := false }, { v := m.header, t := false }]))) ∧
    (Ready (.rmsg d) s → mine = [] → exec (.rmsg d) s = .next (s.done (s.setGroup d [{}, {}]))) ∧
    (Ready (.wmsg d) s → mine = [] → exec (.wmsg d) s = .next (s.blockedOn g k .mail)) ∧
    (Ready (.mq d) s → mine.length < 2 ^ 9 → (s.core g).mailbox.length ≤ mailCap g → s.me.drop < 2 ^ 16 →
      exec (.mq d) s = .next (s.done (s.writeName d { v := BitVec.ofNat 64 (mine.length +
        (mailCap g - (s.core g).mailbox.length) * 2 ^ 16 + s.me.drop * 2 ^ 32), t := false })))

/-- R177, R178, R179, R334, R416: a message that has reached its core takes a mailbox entry at the newest end, after those that
arrived before it or, in the same cycle, from a lower (core, slot); it waits in its place while the mailbox is full, and is
dropped and counted for a vacant slot, an smsg's, whose stores counter then falls, as well as a node's; a message for a joined package leaves after its sender's earlier ones to the same slot;
the order of cores, and what counts as one cycle, are the model's reading (log 69); a port word joins the neighbour's queue,
waits behind a full one, in which a word that a blocked instruction of the neighbour has taken keeps its place, and is discarded
for a vacant slot; a message for the host is written to its ring and its vector raised. A message that the
host sends through physical function 0 is held for Vrelell slot 0; the fields of its header but VALID are free (log 52). -/
def Obligations.Arrivals : Prop :=
  (∀ s : State, s.op? s.ev.id = none → s.ev.g = vrNum → s.ev.k = 0 → (s.slot vrNum 0).bound = true →
    ((s.core vrNum).mailbox.length < 64 → ∃ t h, exec .mailboxArrival s = .next t ∧ h.getLsbD 63 = true ∧
      (t.core vrNum).mailbox = (s.core vrNum).mailbox ++ [{ slot := 0, payload := s.ev.v, header := h }] ∧ t.mem = s.mem ∧
      t.ops = s.ops) ∧
    (64 ≤ (s.core vrNum).mailbox.length → exec .mailboxArrival s = .next s)) ∧
  ∀ (s : State) (o : Op), InFlight s o → s.heldBack o = false → s.performedBefore o.g o.k o.id = true →
    (∀ tg tk p h, o.kind = .msg tg tk p h → s.msgBehind o = false →
      ((s.slot tg tk).bound = true → (s.core tg).mailbox.length < mailCap tg →
        ((∀ q ∈ s.mailQueue tg, q.before o = false) → ∃ t, exec .mailboxArrival s = .next t ∧
          (t.core tg).mailbox = (s.core tg).mailbox ++ [{ slot := tk, payload := p, header := h }] ∧ t.op? o.id = none ∧
          t.mem = s.mem) ∧
        ((∃ q ∈ s.mailQueue tg, q.before o = true) → exec .mailboxArrival s = .next s)) ∧
      ((s.slot tg tk).bound = true → mailCap tg ≤ (s.core tg).mailbox.length →
        (o.arr ≠ none → exec .mailboxArrival s = .next s) ∧
        (o.arr = none → (∃ q ∈ s.mailQueue tg, q.arr = none ∧ q.outranks o = true) → exec .mailboxArrival s = .next s) ∧
        (o.arr = none → (∀ q ∈ s.mailQueue tg, q.arr = none → q.outranks o = false) → ∃ t, exec .mailboxArrival s = .next t ∧
          t.op? o.id = some { o with arr := some s.nextId } ∧ t.mem = s.mem ∧ t.cores = s.cores)) ∧
      ((s.slot tg tk).bound = false → ∃ t, exec .mailboxArrival s = .next t ∧ t.op? o.id = none ∧ t.mem = s.mem ∧
        (∀ h, (t.core h).mailbox = (s.core h).mailbox) ∧ (t.slot tg tk).drop = min ((s.slot tg tk).drop + 1) 65535 ∧
        ((o.cls = none ∨ o.live = false ∨ (o.g, o.k) ≠ (tg, tk)) →
          t.slot tg tk = { s.slot tg tk with drop := min ((s.slot tg tk).drop + 1) 65535 }) ∧
        (∀ c, o.cls = some c → o.live = true → (t.slot o.g o.k).count c = (s.slot o.g o.k).count c - 1))) ∧
    (∀ pkg tg tk p h, o.kind = .fabricMsg pkg tg tk p h → s.msgBehind o = false → ∃ t, exec .mailboxArrival s = .next t ∧
      t.op? o.id = none ∧ t.mem = s.mem ∧
      t.fabricOut = s.fabricOut ++ [((pkg, tg), { slot := tk, payload := p, header := h })]) ∧
    (∀ tg tk dir w, o.kind = .portWord tg tk dir w → o.cls = none →
      (∀ p ∈ s.ops, p.id < o.id → ∀ v, p.kind ≠ .portWord tg tk dir v) →
      let y := s.slot tg tk
      let held := (y.queue dir).length + (if y.blocked.isSome then (y.taken.filter (fun e => e.1 = dir)).length else 0)
      ((s.slot tg tk).bound = true → held < 4 →
        exec .portWordArrival s = .next ((s.endOp o).setSlot tg tk
          ((s.slot tg tk).setQueue dir ((s.slot tg tk).queue dir ++ [w])))) ∧
      ((s.slot tg tk).bound = true → 4 ≤ held → exec .portWordArrival s = .next s) ∧
      ((s.slot tg tk).bound = false → exec .portWordArrival s = .next (s.endOp o))) ∧
    (∀ vec p h q f, o.kind = .hostMsg vec (some (p, h)) → o.g < 4096 → s.partOf o.g = some q → s.firstCore q = some f →
      let hb := chanBase f + hostOff
      let e := s.endOp o
      let n := e.read64 (hb + 8)
      exec .hostMessageDeliver s = .next (((((e.write64 (hb + 0x1000 + 16 * (n.toNat % 256)) p).write64
        (hb + 0x1000 + 16 * (n.toNat % 256) + 8) h).write64 (hb + 8) (n + 1))).raiseVector q vec))

/-! ### Tasks and counter nodes (R33 to R52, R277 to R280, R287, R288) -/

/-- R277: a spawn of a record that passes its checks is accepted, and its slot waits until the task is placed: in the core's
deque where its level has room (the turn is forfeited where it has none), at the pkg node for a gang, and on its way to its
hinted core for spawnh; a record that fails a check traps as that check says: each check of R34, in its order, with its cause and
TVAL. The target is the core that the hint names or, where that is masked or of another partition, the nearest unmasked core of
the partition, the one with the lower y and then the lower x first (R44). While accesses of the slot to the record, or a prd of it,
are in flight (R35, R184, R187), or the record lies in another core's frozen scratch (R285), the turn is forfeited, which is the
model's way of waiting (log 83). -/
def Obligations.SpawnIssues : Prop :=
  ∀ (s : State) (g k : Nat) (a : Name) (t : Target), s.cur = .slot g k → a.isPort = false → (s.val a).t = false →
    access (s.val a).v 64 64 .load .plain false s = .ok (t, s) → s.badWord t.pa 64 = none →
    let r := s.recAt t.pa
    let target := s.hintTarget g (r.hint.extractLsb' 0 8).toNat (r.hint.extractLsb' 8 8).toNat
    let sent (i : Instr) (kind : OpKind) : Host.Outcome State Fault Refusal :=
      .next (State.stays ((s.acceptFree i kind).awaiting s.nextId))
    (s.recordHeld g k t.pa 64 = true → ∀ i ∈ [Instr.spawn a, .spawnh a], Ready i s →
      exec i s = .next { s with turn := .forfeited }) ∧
    (s.recordHeld g k t.pa 64 = true ↔ s.meshHeld g t.pa = true ∨ ∃ o ∈ s.ops, o.g = g ∧ o.k = k ∧ o.id < s.nextId ∧
      o.kind.touches t.pa 64 = true) ∧
    (let w := r.ctl.toNat / 2 ^ 32 % 2 ^ 8
     let x := r.hint.toNat % 2 ^ 8
     let y := r.hint.toNat / 2 ^ 8 % 2 ^ 8
     let bad : Prop := w % 8 ≠ 0 ∨ w < 8 ∨ 128 < w ∨ 2 ≤ r.ctl.toNat / 2 ^ 40 % 4 ∨
       (r.ctl.getLsbD 42 = true ∧ 4 ≤ r.ctl.toNat / 2 ^ 43 % 8) ∨ 63 < x ∨ 63 < y ∨ r.ctl.toNat / 2 ^ 46 ≠ 0 ∨
       r.hint.toNat / 2 ^ 24 ≠ 0
     (r.image.toNat % 64 ≠ 0 → r.check (s.val a).v = .error ⟨0x04, r.image, 0⟩) ∧
     (r.image.toNat % 64 = 0 → r.node.toNat % 32 ≠ 0 → r.check (s.val a).v = .error ⟨0x04, r.node, 0⟩) ∧
     (r.image.toNat % 64 = 0 → r.node.toNat % 32 = 0 → bad → r.check (s.val a).v = .error ⟨0x01, (s.val a).v, 0⟩) ∧
     (r.image.toNat % 64 = 0 → r.node.toNat % 32 = 0 → ¬ bad → r.check (s.val a).v = .ok ()) ∧
     (∀ p, s.partOf g = some p →
       (s.partOf (64 * y + x) = some p → s.isMasked (64 * y + x) = false → target = 64 * y + x) ∧
       ((s.partOf (64 * y + x) ≠ some p ∨ s.isMasked (64 * y + x) = true) → s.partCores p ≠ [] →
         target ∈ s.partCores p ∧ ∀ c ∈ s.partCores p, meshDist target (64 * y + x) < meshDist c (64 * y + x) ∨
           (meshDist target (64 * y + x) = meshDist c (64 * y + x) ∧ target ≤ c)))) ∧
    (s.recordHeld g k t.pa 64 = false →
    (∀ e, r.check (s.val a).v = .error e → ∀ i ∈ [Instr.spawn a, .spawnh a], Ready i s →
      exec i s = .next (s.trapped g k i e.code e.val e.sub)) ∧
    (r.check (s.val a).v = .ok () → Ready (.spawn a) s →
      (r.isGang = true → exec (.spawn a) s = sent (.spawn a) (.gangReq r (s.gangCores r.gscope g))) ∧
      (r.isGang = false → s.levelRoom g r.high = true → (∀ c ∈ (s.core g).conts, c.task.high ≠ r.high) →
        exec (.spawn a) s = sent (.spawn a) (.spawn r)) ∧
      (r.isGang = false → (s.levelRoom g r.high = false ∨ ∃ c ∈ (s.core g).conts, c.task.high = r.high) →
        exec (.spawn a) s = .next { s with turn := .forfeited })) ∧
    (r.check (s.val a).v = .ok () → Ready (.spawnh a) s →
      (r.isGang = true → exec (.spawnh a) s = sent (.spawnh a) (.gangReq r (s.gangCores r.gscope target))) ∧
      (r.isGang = false → exec (.spawnh a) s = sent (.spawnh a) (.hinted r g target true))))

/-- R22, R278 to R280, R285, R287, R288, R346, R377: exit with its counters at zero drops its memberships and vacates a slot without a node,
or sends the decrement of its node; while a core that holds an object to be dropped is frozen, or the unit of one applies other
operations first (R169), it waits. An uncorrectable error in COUNT of its node is SOFT at the exit (R61; log 81). cnt.init and cnt.add
send their operation and wait; halt, and a pstop that names its own slot, record their slot and vacate it; pstop of a vacant slot
completes and changes nothing; pstop of another bound slot ends the stop and completes, or waits until the engine operations of
that slot have completed. A stop vacates its slot, abandons the instruction that the slot was blocked in, and records for a
debugger its program counter, its number, whether it was blocked and whether it was in a handler. It waits for the copies and the
engine operations of its slot but prd and pstat; it takes away the operation that the blocked instruction waits for and no other,
and what goes on after it touches no thread: an operation of a vacated slot ends with no counter lowered, no cell written and no
fault noted. On the Vrelell core halt and exit vacate the slot, and nothing is recorded (R22, R288). A kill of a task with a node
sends the node's decrement with ERR after its drops, and vacates the slot once that has been applied (R377). -/
def Obligations.EndsOfTasks : Prop :=
  (∀ (s : State) (g k : Nat), s.cur = .slot g k → g < 4096 →
     (Ready .exit s → s.me.inHandler = false → Clear s 0 0 0 0 →
       (s.me.task = 0 → s.dropsHeld g k = false →
         exec .exit s = .next (State.stays (((s.dropAll g k).trace g 2 k s.me.pc.toNat 0).depart g k))) ∧
       (s.me.task = 0 → s.dropsHeld g k = true → exec .exit s = .next (s.blockedOn g k .drops)) ∧
       (∀ t, s.me.task ≠ 0 → access s.me.task 32 32 .atomic .node false s = .ok (t, s) →
         (∀ a, s.badWord t.pa 8 = some a → exec .exit s = .next (s.trapped g k .exit (softCause t.pa).1
           (s.me.task + BitVec.ofNat 64 (a - t.pa)) (softCause t.pa).2)) ∧
         (s.badWord t.pa 8 = none → s.badWord (t.pa + 24) 8 = none →
           let u := s.dropAll g k
           (s.dropsHeld g k = false → exec .exit s = .next
             (State.stays ((u.acceptFree .exit (.node t.pa s.me.task (.dec false) true)).awaiting u.nextId))) ∧
           (s.dropsHeld g k = true → exec .exit s = .next (s.blockedOn g k .drops))))) ∧
     (∀ (a b : Name) (t : Target), a.isPort = false → b.isPort = false → (s.val a).t = false → (s.val b).t = false →
       access (s.val a).v 32 32 .atomic .node false s = .ok (t, s) →
       (Ready (.cntInit a b) s → exec (.cntInit a b) s = .next (State.stays
         ((s.acceptFree (.cntInit a b) (.node t.pa (s.val a).v (.init (s.val b).v) false)).awaiting s.nextId))) ∧
       (Ready (.cntAdd a b) s → exec (.cntAdd a b) s = .next (State.stays
         ((s.acceptFree (.cntAdd a b) (.node t.pa (s.val a).v (.add (s.val b).v) false)).awaiting s.nextId)))) ∧
     (Ready .halt s → Clear s 0 0 0 0 → exec .halt s = .next (State.stays (s.stopEnd g k (s.me.pc + 4) false)) ∧
       ((s.stopEnd g k (s.me.pc + 4) false).slot g k) = (s.slot g k).kept ∧
       ((s.stopEnd g k (s.me.pc + 4) false).core g).pstop.toNat =
         (s.me.pc.toNat + 4) % 2 ^ 49 + k % 64 * 2 ^ 49 + (if s.me.inHandler then 2 ^ 56 else 0) + 2 ^ 63) ∧
     (∀ a, a.isPort = false → Ready (.pstop a) s → (s.val a).t = false →
       let j := (s.val a).v.toNat
       (64 ≤ j → exec (.pstop a) s = .next (s.trapped g k (.pstop a) 0x01 (s.val a).v)) ∧
       (j < 64 → j = k → Clear s 0 0 0 0 → exec (.pstop a) s = .next (State.stays (s.stopEnd g k (s.me.pc + 4) false))) ∧
       (j < 64 → j ≠ k → (s.slot g j).bound = false → exec (.pstop a) s = .next (s.done s)) ∧
       (j < 64 → j ≠ k → (s.slot g j).bound = true →
         let t := s.stopSlot g j
         ((t.slot g j).bound = false → exec (.pstop a) s = .next (s.done t)) ∧
         ((t.slot g j).bound = true →
           exec (.pstop a) s = .next (State.stays (t.setMe { t.me with blocked := some (.stopOf j) })))))) ∧
  (∀ (s : State) (g k j : Nat), g < 4096 → (s.slot g j).bound = true →
     let t := s.stopSlot g j
     let b := (s.slot g j).blocked
     (∀ d e, b = some (.dying d e) → t = s.setSlot g j { s.slot g j with blocked := some (.dying true e) }) ∧
     (∀ id d e, b = some (.killNode id d e) → t = s.setSlot g j { s.slot g j with blocked := some (.killNode id true e) }) ∧
     (∀ d, b = some (.stopping d) → t = s) ∧
     ((∀ d e, b ≠ some (.dying d e)) → (∀ id d e, b ≠ some (.killNode id d e)) → (∀ d, b ≠ some (.stopping d)) →
       let u := s.abandon g j
       let gone (id : Nat) : Prop := b = some (.answer id) ∨ b = some (.walk id)
       (∀ id, gone id → t.op? id = none) ∧
       (u.busySlot g j true = true ↔ ∃ o ∈ s.ops, o.live = true ∧ o.g = g ∧ o.k = j ∧ ¬ gone o.id ∧
         ((∃ c n, o.kind = .copy c n) ∨ ∃ f d x y z dst, o.kind = .eng f d x y z dst ∧ f ≠ .prd ∧ f ≠ .pstat)) ∧
       (∀ o ∈ s.ops, ¬ gone o.id → (u.busySlot g j true = true → o ∈ t.ops) ∧
         (u.busySlot g j true = false → (if o.g = g ∧ o.k = j then { o with live := false } else o) ∈ t.ops)) ∧
       (u.busySlot g j true = true → t = u.setSlot g j { u.slot g j with blocked := some (.stopping b.isSome) }) ∧
       (u.busySlot g j true = false →
         (t.slot g j).bound = false ∧ t.slot g j = (s.slot g j).kept ∧
         (t.core g).pstop = BitVec.ofNat 64 ((s.slot g j).pc.toNat % 2 ^ 49 + j % 64 * 2 ^ 49 +
           (if b.isSome then 2 ^ 55 else 0) + (if (s.slot g j).inHandler then 2 ^ 56 else 0) + 2 ^ 63) ∧
         (k ≠ j → (s.slot g k).blocked ≠ some (.stopOf j) → t.slot g k = s.slot g k) ∧
         (k ≠ j → (s.slot g k).blocked = some (.stopOf j) →
           t.slot g k = { s.slot g k with blocked := none, pc := (s.slot g k).pc + 4 }) ∧
         t.mem = s.mem))) ∧
  (∀ (s : State) (o : Op) (dst : Option Nat) (xs : List Tagged) (code sub : Nat) (val : Word), o.live = false →
     s.arrive o dst xs = s ∧ s.endOp o = s.dropOp o.id ∧ s.failOp o code val sub = s.dropOp o.id) ∧
  (∀ (s : State) (k : Nat), s.cur = .slot vrNum k → Clear s 0 0 0 0 → ∀ i ∈ [Instr.halt, .exit], Ready i s →
     let t := s.stopEnd vrNum k (s.me.pc + 4) false
     exec i s = .next (State.stays t) ∧ t.slot vrNum k = (s.slot vrNum k).kept ∧
       (t.core vrNum).pstop = (s.core vrNum).pstop ∧ t.mem = s.mem) ∧
  (∀ (s : State) (g k : Nat) (stopped byExit : Bool) (a : Target),
     let x := s.slot g k
     let u := s.dropAll g k
     let t := s.killEnd g k stopped byExit
     x.task ≠ 0 → x.task.toNat % 32 = 0 →
     u.engAccess { u.ctx g k with level := x.level } x.task 32 .atomic .node = .ok a →
     (t.slot g k).blocked = some (.killNode u.nextId stopped byExit) ∧ (t.slot g k).bound = (u.slot g k).bound ∧
       ∃ o, t.ops = u.ops ++ [o] ∧ o.id = u.nextId ∧ o.kind = .node a.pa x.task (.dec true) false) ∧
  (∀ (s : State) (g k id : Nat) (stopped e : Bool), (s.slot g k).blocked = some (.killNode id stopped e) →
     ((s.core g).frozen = none ∨ (s.core g).frozen = some k) →
     (∀ j, j ≠ k → (s.slot g j).blocked = none) →
     ((s.op? id).isSome = true → s.reap g = s) ∧
     ((s.op? id).isSome = false → s.reap g = s.killDone g k stopped ∧
       (s.killDone g k stopped).slot g k = (s.slot g k).kept ∧ (s.killDone g k stopped).mem = s.mem))

/-- R27, R36, R37, R377: what binding a task leaves in its slot and window. The program counter is at the image's entry, the slot has
the level, the window and the node, and in the first five cells zero and the four arguments, followed for a gang's member by
its index and the count. Everything else of the slot starts afresh: the predicates are false, PREC is 64, VCTL, FCTL, TSHP, the
copy controls, BMEM0 to BMEM3 and the counters are 0, and no watch, word of a port queue, pending fault or membership stands;
but for the trap registers and KS0 to KS7, and the cycle of the slot's last issue, which stay. The header of the image is to be
checked at the task's first instruction. -/
def Obligations.TaskBinding : Prop :=
  ∀ (s : State) (g k base : Nat) (r : TaskRec) (lv : Level) (m : Option (Nat × Nat × Nat)),
    8 ≤ r.wcells → r.wcells ≤ 128 → 8 * base + r.wcells ≤ numCells g →
    let t := s.bindTask g k r base lv m
    let y := s.slot g k
    t.slot g k = {
      bound := true, pc := r.image + 64 + 4 * (r.ctl &&& 0xFFFFFFFF), level := lv, inHandler := false, ovf := false,
      wbase := BitVec.ofNat 11 (8 * base), wlim := BitVec.ofNat 8 r.wcells, allocBase := base, allocUnits := r.units,
      pred := 1, prec := 64, vctl := 0, fctl := 0, tshp := 0, csrc := 0, cdst := 0, cstr1 := 0, cstr2 := 0, cdstr1 := 0,
      cdstr2 := 0, cdim := 0, cbnd := 0, ccvt := 0, cdone := 0, cval := 0, cres := 0, cflags := 0, bmem0 := 0, bmem1 := 0,
      bmem2 := 0, bmem3 := 0, task := r.node &&& 0x1FFFFFFFFFFFF, tcause := y.tcause, tval := y.tval, tepc := y.tepc,
      tstat := y.tstat, ks0 := y.ks0, ks1 := y.ks1, ks2 := y.ks2, ks3 := y.ks3, ks4 := y.ks4, ks5 := y.ks5, ks6 := y.ks6,
      ks7 := y.ks7, loads := 0, stores := 0, copies := 0, tiles := 0, seq := 0, pend := [], watches := [], ready := false,
      relBits := 0, drop := 0, qn := [], qe := [], qs := [], qw := [], blocked := none,
      gang := m.map (fun e => (e.1, e.2.1)), syncs := 0, lastIssue := y.lastIssue, yieldTo := none, yieldFor := [],
      header := some r.image, moved := [], discard := false, since := none, taken := [], fetched := none } ∧
    (List.range 5).map (fun j => t.cell g (8 * base + j)) = [{}, { v := r.a0 }, { v := r.a1 }, { v := r.a2 }, { v := r.a3 }] ∧
    (∀ n i c, m = some (n, i, c) →
      t.cell g (8 * base + 5) = { v := BitVec.ofNat 64 i } ∧ t.cell g (8 * base + 6) = { v := BitVec.ofNat 64 c }) ∧
    (∀ j, (if m.isSome then 7 else 5) ≤ j → j < r.wcells → t.cell g (8 * base + j) = {}) ∧
    (∀ h c, ¬ (h = g ∧ 8 * base ≤ c ∧ c < 8 * base + r.wcells) → t.cell h c = s.cell h c) ∧
    (∀ h j, ¬ (h = g ∧ j = k) → t.slot h j = s.slot h j) ∧ t.mem = s.mem ∧ t.ops = s.ops

/-- R38 to R43, R48, R271, R277: the events that place tasks: the dispatcher binds the newest task of the high level, or of the
normal one, to the lowest vacant slot with the first window that fits, while no migrating thread and no hinted task that can
bind is at the core; a spawned task joins the newest end of its level and its spawn goes on; a thief asks, a victim, whose
dispatcher acts first, hands over its oldest fitting task or refuses, and the thief takes it or moves on, but not after the
refusal of a sweep that it has abandoned; a hinted task binds, goes one core on, or joins the newest end of the target's deque,
and the spawn that sent it goes on with its first move; a held continuation takes its place, before a task that is handed over or
hinted to its level. The slot is the lowest that is vacant, but for slot 63 of the first core of a partition and for the number of a
gang that is reserving on the core (R39, R46, R52); the window begins at the lowest unit from which as many units lie free (R30),
one that fell free in the cycle being free from the next (R40). Choices of the model, not the spec's words: that a victim answers with
the level that is its higher one when it is asked (log 91), that a hinted task which waits for room in its target's deque binds there
once it can (log 92), that a spawned task joins its level before a continuation that is held for it (log 93), that no deque task is
bound while a migrating thread waits whose window does not fit (log 96), that a task handed over to a level that has filled waits on
its way (log 76) and that a thief which binds no longer waits out the 256 cycles after a sweep (log 82); which of two steal requests of one cycle
reaches the victim first is its reading (log 69). The victims of a thief are the other unmasked cores of its partition: those of its
die first, each kind by distance, then by die and by local index (R41). -/
def Obligations.TaskPlacing : Prop :=
  ∀ (s : State) (g : Nat), s.ev.g = g →
    (∀ p, s.partOf g = some p →
      let place (c : Nat) : List Nat := [if dieOf c = dieOf g then 0 else 1, meshDist c g, dieOf c, localOf c]
      (∀ v, v ∈ s.victims g ↔ v ∈ s.partCores p ∧ v ≠ g) ∧ (s.victims g).Pairwise (fun c d => place c < place d) ∧
      (∀ v, v ∈ s.partCores p ↔ v < 4096 ∧ (s.part p).dies.getLsbD (dieOf v) = true ∧ s.isMasked v = false) ∧
      (∀ c d, meshDist c d = ((c % 64 : Nat) - (d % 64 : Nat) : Int).natAbs + ((c / 64 : Nat) - (d / 64 : Nat) : Int).natAbs)) ∧
    (∀ r k b, s.mayBind g = true → s.migrantWaits g = false → s.hintedReady g = false →
      ((s.core g).level (!(s.core g).dqHigh.isEmpty)).getLast? = some r → s.freeSlot g = some k → s.firstFit g r.units = some b →
      exec .taskBind s = .next (((s.setLevel g (!(s.core g).dqHigh.isEmpty)
        ((s.core g).level (!(s.core g).dqHigh.isEmpty)).dropLast).bindTask g k r b .user none).boundNow g)) ∧
    (∀ o r, InFlight s o → o.kind = .spawn r → s.heldBack o = false → s.performedBefore o.g o.k o.id = true → o.live = true →
      ∃ t, exec .spawnEnqueue s = .next t ∧ (t.core o.g).level r.high = (s.core o.g).level r.high ++ [r] ∧
        (t.slot o.g o.k).blocked = none ∧ (t.slot o.g o.k).pc = (s.slot o.g o.k).pc + 4 ∧ t.op? o.id = none ∧ t.mem = s.mem) ∧
    (∀ p v, s.partOf g = some p → (s.part p).st = .running → s.isMasked g = false → (s.core g).frozen = none →
      (s.core g).steal.asked = false → (s.core g).steal.retryAt = none → (s.core g).dqHigh = [] → (s.core g).dqNorm = [] →
      (s.freeSlot g).isSome = true → (s.victims g)[(s.core g).steal.next]? = some v →
      ∃ t, exec .stealRequest s = .next t ∧ (t.core g).steal.asked = true ∧ t.mem = s.mem ∧
        ∃ o ∈ t.ops, o.id = s.nextId ∧ o.g = g ∧ o.kind = .stealReq v (s.longestRun g)) ∧
    (∀ o v run, InFlight s o → o.kind = .stealReq v run →
      let high := !(s.core v).dqHigh.isEmpty
      ((s.dispatchPick v).isSome = true → exec .stealServe s = .next s) ∧
      (∀ q ∈ s.ops, ∀ n, q.kind = .stealReq v n → 256 * dieOf q.g + localOf q.g < 256 * dieOf o.g + localOf o.g →
        exec .stealServe s = .next s) ∧
      (s.stealBehind o v = false →
        (∀ r rest, (s.core v).level high = r :: rest → (s.core v).frozen = none → r.units ≤ run →
          exec .stealServe s = .next ((s.setLevel v high rest).setKind o.id (.stealAns (some r) high))) ∧
        (((s.core v).level high = [] ∨ (s.core v).frozen ≠ none ∨
            (∀ r, ((s.core v).level high).head? = some r → run < r.units)) →
          exec .stealServe s = .next (s.setKind o.id (.stealAns none high))))) ∧
    (∀ o hi, InFlight s o → o.live = false →
      (∀ r, o.kind = .stealAns (some r) hi → s.levelOpen o.g r.high = true → (s.core o.g).frozen = none → ∃ t, exec .stealReply s = .next t ∧
        (t.core o.g).level r.high = (s.core o.g).level r.high ++ [r] ∧ (t.core o.g).steal = {} ∧ t.op? o.id = none) ∧
      (∀ r, o.kind = .stealAns (some r) hi → (s.levelOpen o.g r.high = false ∨ (s.core o.g).frozen ≠ none) →
        exec .stealReply s = .next s) ∧
      (o.kind = .stealAns none hi → (s.core o.g).steal.stale = true → ∃ t, exec .stealReply s = .next t ∧
        (t.core o.g).steal = {} ∧ t.op? o.id = none) ∧
      (o.kind = .stealAns none hi → (s.core o.g).steal.stale = false → (s.victims o.g).length ≤ (s.core o.g).steal.next + 1 → ∃ t, exec .stealReply s = .next t ∧
        (t.core o.g).steal = { next := 0, asked := false, retryAt := some ((s.core o.g).cyc + 256) }) ∧
      (o.kind = .stealAns none hi → (s.core o.g).steal.stale = false → (s.core o.g).steal.next + 1 < (s.victims o.g).length → ∃ t, exec .stealReply s = .next t ∧
        (t.core o.g).steal = { next := (s.core o.g).steal.next + 1, asked := false, retryAt := none })) ∧
    (∀ c, (s.core g).steal.retryAt = some c → c ≤ (s.core g).cyc →
      exec .stealRetryTimeout s = .next (s.setCore g { s.core g with steal := {} })) ∧
    (∀ o r pos target first, InFlight s o → o.kind = .hinted r pos target first → o.live = first →
      (first = true → s.performedBefore o.g o.k o.id = true) →
      let goesOn (u : State) : State := if first then u.release o.g o.k else u
      (s.hintedRoom o r pos target = none → pos ≠ target →
        exec .hintedTaskHop s = .next (goesOn (s.setKind o.id (.hinted r (nextHop pos target) target false)))) ∧
      (∀ k b, s.partOf pos = s.partOf o.g → meshDist pos target ≤ r.radius → s.takesTasks pos = true →
        (s.core pos).boundThisCycle = false → s.migrantReady pos = false →
        s.freeSlot pos = some k → s.firstFit pos r.units = some b →
        exec .hintedTaskHop s = .next (((goesOn (s.endOp o)).bindTask pos k r b .user none).boundNow pos)) ∧
      (s.hintedRoom o r target target = none → pos = target → (s.core target).frozen = none →
        s.levelOpen target r.high = true → exec .hintedTaskHop s = .next ((goesOn (s.endOp o)).pushTask target r) ∧
          (((goesOn (s.endOp o)).pushTask target r).core target).level r.high = (s.core target).level r.high ++ [r]) ∧
      (s.hintedRoom o r target target = none → pos = target → s.levelOpen target r.high = false →
        exec .hintedTaskHop s = .next (if first then goesOn (s.setKind o.id (.hinted r target target false)) else s)) ∧
      ((s.partOf pos ≠ s.partOf o.g ∨ r.radius < meshDist pos target ∨ s.takesTasks pos = false ∨ s.freeSlot pos = none ∨
        s.firstFit pos r.units = none) → s.hintedRoom o r pos target = none) ∧
      ((goesOn s).slot o.g o.k = if first then { s.slot o.g o.k with blocked := none, pc := (s.slot o.g o.k).pc + 4 }
        else s.slot o.g o.k)) ∧
    ((s.core g).frozen ≠ none → exec .continuationPlace s = .next s) ∧
    (∀ c, (s.core g).frozen = none → (s.core g).conts.find? (fun c => s.levelRoom g c.task.high) = some c → ∃ t, exec .continuationPlace s = .next t ∧
      (t.core g).conts = (s.core g).conts.erase c ∧
      (t.core g).level c.task.high = (s.core g).level c.task.high ++ [c.task] ∧
      (∀ q, c.parent = some q → ∃ o ∈ t.ops, o.kind = .node q 0 (.dec c.err) false)) ∧
    (let open' (k : Nat) : Prop := k < (if g = 4096 then 4 else 64) ∧ (s.slot g k).bound = false ∧
       ¬ (k = 63 ∧ ∃ p, s.partOf g = some p ∧ s.firstCore p = some g) ∧
       ∀ a ∈ s.gangs, a.st = .reserving → a.slot = k → g ∉ a.cores
     ∀ k, s.freeSlot g = some k ↔ open' k ∧ ∀ j < k, ¬ open' j) ∧
    (∀ n, 1 ≤ n →
      let taken (u : Nat) : Prop := (∃ e ∈ (s.core g).slots, e.2.bound = true ∧ e.2.allocBase ≤ u ∧ u < e.2.allocBase + e.2.allocUnits) ∨
        (∃ a ∈ s.gangs, a.st = .reserving ∧ Sparse.has a.held g = true ∧ Sparse.get 0 a.held g ≤ u ∧
          u < Sparse.get 0 a.held g + a.task.units) ∨
        ∃ e ∈ (s.core g).freed, e.1 ≤ u ∧ u < e.1 + e.2
      let fits (b : Nat) : Prop := b + n ≤ (if g = 4096 then 64 else 256) ∧ ∀ u, b ≤ u → u < b + n → ¬ taken u
      ∀ b, s.firstFit g n = some b ↔ fits b ∧ ∀ c < b, ¬ fits c) ∧
    (s.migrantWaits g = true → exec .taskBind s = .next s) ∧
    (∀ high, (s.levelOpen g high = true ↔ s.levelRoom g high = true ∧ ∀ c ∈ (s.core g).conts, c.task.high ≠ high) ∧
      (s.levelRoom g high = true ↔ ((s.core g).level high).length + s.places g high < 1024))

/-- R45, R46, R51, R271: a gang's request is admitted once the accesses before its spawn have been performed (R265) and its core is not
frozen (R285), and releases the slot of a spawn that still waits; of requests that arrive together the one of the lower core, slot
and number goes first (R416; log 69). It becomes reserving while no gang that is reserving shares a core with it, and none that was
admitted before it and shares one could too (log 102), and picks the lowest slot number that is vacant on every one of its cores (number 0 where
there is none; 63 is left out where the partition's first core is among them), holds a slot and a window on each core, and binds
on all at once, each member at the image's entry with zero, the arguments, its index and the count in its first seven cells; a
migrated thread binds at its target with what it carried, BMEM0 to BMEM3 being 0 and its window cells beyond those carried zero.
Threads that wait at a target bind in the order of their arrival and, of those that arrive in one cycle, by ascending (core, slot)
of origin (R271). That its level, its gang and its syncs go with a thread is the model's reading (log 63), and so is what counts
as one cycle (log 69); that a window whose SIZE is no multiple of 8 takes its units rounded up is the model's choice (log 74). -/
def Obligations.GangsAndMigrants : Prop :=
  ∀ (s : State),
    (∀ o r cores p, InFlight s o → o.kind = .gangReq r cores → s.partOf o.g = some p →
      let arrives (q : Op) : Prop := s.frozenOut q = false ∧ (q.live = true → s.performedBefore q.g q.k q.id = true)
      let first : Prop := ∀ q ∈ s.ops, s.partOf q.g = s.partOf o.g → (∃ r' c', q.kind = .gangReq r' c') → arrives q →
        q.outranks o = false
      (¬ (arrives o ∧ first) → exec .gangAdmit s = .next s) ∧
      (arrives o → first → ∃ t, exec .gangAdmit s = .next t ∧ t.op? o.id = none ∧ t.mem = s.mem ∧
        t.gangs = s.gangs ++ [{ id := o.id, task := r, cores := cores, part := p }] ∧
        t.slot o.g o.k = (let e := s.endOp o
          if o.live then { e.slot o.g o.k with blocked := none, pc := (e.slot o.g o.k).pc + 4 } else e.slot o.g o.k))) ∧
    (∀ a, s.gangs.find? (fun b => b.id = s.ev.id) = some a →
      let share (x y : Gang) : Prop := ∃ c ∈ x.cores, c ∈ y.cores
      let clear (x : Gang) : Prop := ∀ b ∈ s.gangs, b.id ≠ x.id → b.st = .reserving → ¬ share x b
      let ahead : Prop := ∃ b ∈ s.gangs.takeWhile (fun b => b.id ≠ a.id), b.st = .admitted ∧ share a b ∧ clear b
      (a.st = .admitted → (¬ clear a ∨ ahead) → exec .gangReserve s = .next s) ∧
      (a.st = .admitted → clear a → ¬ ahead →
        ∃ t k, exec .gangReserve s = .next t ∧
          t.gangs = s.gangs.map (fun b => if b.id = a.id then { b with st := .reserving, slot := k } else b) ∧ k < 64 ∧
          (∀ j < k, ∃ c ∈ a.cores, (s.slot c j).bound = true) ∧
          (let n := if a.cores.any (fun c => s.isKeystone c 63) then 63 else 64
           ((∃ j < n, ∀ c ∈ a.cores, (s.slot c j).bound = false) → k < n ∧ ∀ c ∈ a.cores, (s.slot c k).bound = false) ∧
           ((∀ j < n, ∃ c ∈ a.cores, (s.slot c j).bound = true) → k = 0)) ∧ t.cores = s.cores ∧ t.mem = s.mem) ∧
      (∀ b, a.st = .reserving → s.ev.g ∈ a.cores → Sparse.has a.held s.ev.g = false → (s.slot s.ev.g a.slot).bound = false →
        (s.core s.ev.g).frozen = none → s.firstFit s.ev.g a.task.units = some b → exec .gangCoreReserve s = .next
          { s with gangs := s.gangs.map (fun c => if c.id = a.id then { c with held := Sparse.put c.held s.ev.g b } else c) }) ∧
      (a.st = .reserving → a.cores ≠ [] → (∀ c ∈ a.cores, Sparse.has a.held c = true) → a.cores.Nodup →
        (∀ c ∈ a.cores, (s.core c).frozen = none) → ∃ t, exec .gangBind s = .next t ∧
          ∀ j c, a.cores[j]? = some c → (t.slot c a.slot).bound = true ∧ (t.slot c a.slot).gang = some (a.id, j) ∧
            (t.slot c a.slot).level = .user ∧ (t.slot c a.slot).task = a.task.node &&& 0x1FFFFFFFFFFFF ∧
            (let b := 8 * Sparse.get 0 a.held c
             8 ≤ a.task.wcells → a.task.wcells ≤ 128 → b + a.task.wcells ≤ numCells c →
               (t.slot c a.slot).pc = a.task.image + 64 + 4 * (a.task.ctl &&& 0xFFFFFFFF) ∧
               (t.slot c a.slot).wbase = BitVec.ofNat 11 b ∧ (t.slot c a.slot).wlim = BitVec.ofNat 8 a.task.wcells ∧
               (List.range 7).map (fun i => t.cell c (b + i)) = [{}, { v := a.task.a0 }, { v := a.task.a1 }, { v := a.task.a2 },
                 { v := a.task.a3 }, { v := BitVec.ofNat 64 j }, { v := BitVec.ofNat 64 a.cores.length }] ∧
               ∀ i, 7 ≤ i → i < a.task.wcells → t.cell c (b + i) = {}))) ∧
    (∀ o m, InFlight s o → o.kind = .migrant m →
      let here (q : Op) : Prop := q ∈ s.ops ∧ ∃ m', q.kind = .migrant m' ∧ m'.target = m.target
      ((s.core m.target).frozen ≠ none ∨ (∃ q, here q ∧ q.before o = true) ∨ s.freeSlot m.target = none ∨
          s.firstFit m.target ((m.wlim.toNat + 7) / 8) = none) →
        (o.arr ≠ none → exec .migArrival s = .next s) ∧
        (o.arr = none → (∃ q, here q ∧ q.arr = none ∧ q.outranks o = true) → exec .migArrival s = .next s) ∧
        (o.arr = none → (∀ q, here q → q.arr = none → q.outranks o = false) → ∃ t, exec .migArrival s = .next t ∧
          t.op? o.id = some { o with arr := some s.nextId } ∧ t.nextId = s.nextId + 1 ∧ t.mem = s.mem ∧ t.cores = s.cores)) ∧
    (∀ p o : Op, (∀ a b, p.arr = some a → o.arr = some b → (p.before o = true ↔ a < b)) ∧
      (p.arr ≠ none → o.arr = none → p.before o = true) ∧ (p.arr = none → o.arr ≠ none → p.before o = false) ∧
      (p.arr = none → o.arr = none → (p.before o = true ↔ 64 * p.g + p.k < 64 * o.g + o.k ∨
        (64 * p.g + p.k = 64 * o.g + o.k ∧ p.id < o.id)))) ∧
    (∀ o m k b, InFlight s o → o.kind = .migrant m → o.cls = none → (s.core m.target).frozen = none →
      (∀ q ∈ s.ops, ∀ m', q.kind = .migrant m' → m'.target = m.target → q.before o = false) →
      s.freeSlot m.target = some k → s.firstFit m.target ((m.wlim.toNat + 7) / 8) = some b →
      (8 * b + m.wlim.toNat ≤ numCells m.target → ∃ t, exec .migArrival s = .next t ∧
        ∀ i < m.wlim.toNat, t.cell m.target (8 * b + i) = m.cells.getD i {}) ∧
      ∃ t, exec .migArrival s = .next t ∧ t.op? o.id = none ∧
        let x := t.slot m.target k
        x.bound = true ∧ x.pc = m.pc ∧ x.level = m.level ∧ x.pred = m.pred ∧ x.fctl = m.fctl ∧ x.vctl = m.vctl ∧
        x.prec = m.prec ∧ x.wlim = m.wlim ∧ x.task = m.task ∧ x.gang = m.gang ∧ x.syncs = m.syncs ∧
        x.bmem0 = 0 ∧ x.bmem1 = 0 ∧ x.bmem2 = 0 ∧ x.bmem3 = 0 ∧ x.moved = m.members ∧ x.loads = 0 ∧ x.stores = 0 ∧ x.inHandler = false)

/-- R47, R48, R279, R394: an operation on a counter node waits on its way, and at its serving unit behind others (R416; log 69)
and while the unit holds 16 continuations, there in the order of arrival. Once it is applied: what it does to COUNT and to ERR,
after which its slot's answer is on the way, or its slot, which exits, falls vacant, or, where no slot waits, it is over; it sets
the partition's progress monitors back, and a count that comes to zero starts the node's actions, unless the record that CONT
names lies with a frozen core (R285). A write of EVENTS leaves its reserved bits 0 (R8). An uncorrectable error in a word that
the operation reads is SOFT, and nothing is changed (R61); which words it reads is the model's reading (log 81).
R48, R417, R332, R333: the actions of the node. A CONT or a PARENT that cannot be used sets ERR; the unit reads CONT with a
supervisor's level, which is the model's choice (log 72). With FENCE the partition's next fence record is written; with MSG a
message leaves with the node's physical address, which is the model's choice (log 85), unless its core is masked or in no common
partition (log 73); with HOST a notice; then the continuation starts its gang, takes its place at the newest end of its level, or
is held, and, but for a held one, the parent's decrement leaves, with ERR where the node has it. -/
def Obligations.CounterNodes : Prop :=
  let top : Word := 0x8000000000000000
  let fields : Word := 0x800007FF3F3F3F07
  (∀ (s : State) (o : Op) (pa : Nat) (va : Word) (op : NodeOp) (ofExit : Bool), InFlight s o → o.kind = .node pa va op ofExit →
    let srv := ownerOf pa
    let run := exec .counterNodeOperation s
    let full := 16 ≤ (s.core srv).conts.length
    ((s.frozenOut o = true ∨ (o.live = true ∧ s.performedBefore o.g o.k o.id = false)) → run = .next s) ∧
    (s.atUnit o = some srv → full →
      (o.arr ≠ none → run = .next s) ∧
      (∀ p ∈ s.ops, s.atUnit p = some srv → p.kind.isNode = true → p.arr = none → p.outranks o = true → run = .next s) ∧
      (o.arr = none → (∀ p ∈ s.ops, s.atUnit p = some srv → p.kind.isNode = true → p.arr = none → p.outranks o = false) →
        ∃ t, run = .next t ∧ t.op? o.id = some { o with arr := some s.nextId } ∧ t.nextId = s.nextId + 1 ∧
          t.mem = s.mem ∧ t.cores = s.cores)) ∧
    (s.atUnit o = some srv → ¬ full → s.unitBehind o = true → run = .next s) ∧
    (s.atUnit o = some srv → ¬ full → s.unitBehind o = false →
      let read : List Nat := match op with
        | .init _ => [pa + 24]
        | _ => [pa, pa + 24]
      (∀ x, (read.find? (fun c => (s.badWord c 8).isSome)).bind (fun c => s.badWord c 8) = some x →
        run = .next (if o.live then s.setKind o.id (.nodeSoft (softCause x).1 (softCause x).2 (va + BitVec.ofNat 64 (x - pa)))
          else s.endOp o)) ∧
      ((∀ c ∈ read, s.badWord c 8 = none) →
        (s.contHeld pa op = true → run = .next s) ∧
        (s.contHeld pa op = false →
          let u := s.progress srv
          let old := u.read64 pa
          let ev := u.read64 (pa + 24)
          let ends (v : State) : Host.Outcome State Fault Refusal := .next
            (if o.live = false then v.endOp o
             else if ofExit then ((v.endOp o).trace o.g 2 o.k (v.slot o.g o.k).pc.toNat 0).depart o.g o.k
             else v.setKind o.id .nodeAnswer)
          let put (v : Word) (err : Bool) : State :=
            if err = true ∨ v.toInt < 0 then (u.write64 pa v).write64 (pa + 24) ((ev ||| top) &&& fields) else u.write64 pa v
          (∀ v, op = .init v → run = ends ((u.write64 pa v).write64 (pa + 24) (ev &&& ~~~top &&& fields))) ∧
          (∀ v new err, ((op = .add v ∧ new = old + v ∧ err = false) ∨ (op = .dec err ∧ new = old - 1)) →
            (¬ (old ≠ 0 ∧ new = 0) → run = ends (put new err)) ∧
            (old ≠ 0 → new = 0 → run = ends ((put 0 err).nodeActions srv pa))))))) ∧
  (∀ (w : State) (srv pa : Nat) (r : Option TaskRec) (q : Option Nat),
    let parent := w.read64 (pa + 8)
    let cont := w.read64 (pa + 16)
    let ev := w.read64 (pa + 24)
    let c : Ctx := { w.ctx srv 0 with level := .sup }
    (∀ x, r = some x ↔ cont ≠ 0 ∧ cont.toNat % 64 = 0 ∧ w.badWord (pa + 16) 8 = none ∧ ∃ t, w.engAccess c cont 64 .load = .ok t ∧
      w.badWord t.pa 64 = none ∧ x = w.recAt t.pa ∧ x.check cont = .ok ()) →
    (∀ x, q = some x ↔ parent ≠ 0 ∧ parent.toNat % 32 = 0 ∧ w.badWord (pa + 8) 8 = none ∧ ∃ t,
      w.engAccess c parent 32 .atomic .node = .ok t ∧ x = t.pa) →
    let err : Bool := ev.getLsbD 63 || (cont ≠ 0 && r.isNone) || (parent ≠ 0 && q.isNone)
    let v := if err then w.write64 (pa + 24) ((ev ||| top) &&& fields) else w
    let t := w.nodeActions srv pa
    let tg := 64 * (ev.toNat / 2 ^ 24 % 2 ^ 6) + ev.toNat / 2 ^ 16 % 2 ^ 6
    let sent := ev.getLsbD 0 = true ∧ w.isMasked tg = false ∧ w.partOf srv ≠ none ∧ w.partOf tg = w.partOf srv
    let notes : List OpKind :=
      (if sent then [.msg tg (ev.toNat / 2 ^ 8 % 2 ^ 6) (BitVec.ofNat 64 pa) (BitVec.ofNat 64
        (coreX srv * 2 ^ 16 + coreY srv * 2 ^ 24 + w.pkgId.toNat * 2 ^ 32 + 2 ^ 36 + 2 ^ 63))] else []) ++
      (if ev.getLsbD 1 then [.hostMsg (ev.toNat / 2 ^ 32 % 2 ^ 11) none] else [])
    let dec : List OpKind := match q with
      | some a => [.node a 0 (.dec err) false]
      | none => []
    let last : List OpKind := match r with
      | none => dec
      | some x => if x.isGang then .gangReq x (t.gangCores x.gscope srv) :: dec
        else if w.levelOpen srv x.high then dec else []
    t.ops.take w.ops.length = w.ops ∧ t.ops.map (·.kind) = w.ops.map (·.kind) ++ notes ++ last ∧
    (∀ o ∈ t.ops.drop w.ops.length, o.g = srv ∧ o.live = false) ∧
    (∀ x, r = some x → x.isGang = false →
      (w.levelOpen srv x.high = true → (t.core srv).level x.high = (w.core srv).level x.high ++ [x]) ∧
      (w.levelOpen srv x.high = false →
        (t.core srv).conts = (w.core srv).conts ++ [{ task := x, parent := q, err := err }])) ∧
    ((r = none ∨ ∃ x, r = some x ∧ x.isGang = true) → (t.core srv).conts = (w.core srv).conts ∧
      ∀ high, (t.core srv).level high = (w.core srv).level high) ∧
    (ev.getLsbD 2 = false → t.mem = v.mem ∧ t.tags = v.tags ∧ t.parts = w.parts) ∧
    (∀ p f, ev.getLsbD 2 = true → w.partOf srv = some p → w.firstCore p = some f →
      let block := chanBase f + 0x1FDF0000
      let n := v.read64 block
      let at' := block + 0x40 + 32 * (n.toNat % 64)
      t.read64 at' = v.read64 (scrBase f + 0xFF000) ∧ t.read64 (at' + 8) = BitVec.ofNat 64 pa ∧
      t.read64 (at' + 16) = BitVec.ofNat 64 ((w.part p).approxFence.toNat + 2 * err.toNat) ∧ t.read64 (at' + 24) = n ∧
      t.read64 block = n + 1 ∧ t.part p = { w.part p with approxFence := false } ∧
      (∀ a, ¬ (at' ≤ a ∧ a < at' + 32) → ¬ (block ≤ a ∧ a < block + 8) → t.byte a = v.byte a)))

/-! ### Special registers and saves (R211, R281, R285, R286, R381 to R383) -/

/-- R18, R31, R79, R91, R135, R172, R211, R214, R281, R342, R350 to R352, R354, R357, R363, R364: the value of every special
register, from the fields that hold it: SLOT and WIN from the slot, CORE from the core's position and the package, PREC with
CELLS, CSTAT with a bit for each copy in flight, SMPL with DUMP, and on the Vrelell core the busy bits, KSTAT and the
measurements. mfs reads every special register but two into its cell; a read of XBND clears it, and one of CGO launches a copy
(stated with the copies). mts writes what the register keeps of the value and no other register: after it the
register reads as the value under the register's mask, and a value that a register does not admit raises ILL; SMPL admits neither
EVENT 6 or 7 nor EN with a PERIOD below 1, or below 64 for EVENT 3 and 4. An mts of CRES, XBND, SIGRES or KSTAT is ignored; one of
SLOT, CORE, CYC, WIN, CGO, BMEM0 to BMEM3, SPC or a measurement, an access to a number without a register, and one to a register
that the core does not have raise ILL at every level. What an mts of FUSED, LCS, SIGGO, SHKGO, KWIPE, DBGP and MEXT starts is stated with
the Vrelell core. -/
def Obligations.SpecialRegisters : Prop :=
  (∀ (s : State) (g k : Nat),
    let x := s.slot g k
    let c := s.core g
    let r (n : Nat) : Nat := (s.sregValue g k n).toNat
    (∀ e ∈ [(0x000, BitVec.ofNat 64 k), (0x002, BitVec.ofNat 64 c.cyc), (0x005, x.vctl), (0x006, x.fctl), (0x007, x.tshp),
      (0x008, x.pred.setWidth 64), (0x010, x.csrc), (0x011, x.cdst), (0x012, x.cstr1), (0x013, x.cstr2), (0x014, x.cdstr1),
      (0x015, x.cdstr2), (0x016, x.cdim), (0x017, x.cbnd), (0x018, x.ccvt), (0x019, x.cdone), (0x01A, x.cval), (0x020, x.cres), (0x030, x.bmem0), (0x031, x.bmem1), (0x032, x.bmem2), (0x033, x.bmem3),
      (0x040, x.task), (0x100, x.wbase.setWidth 64), (0x101, x.wlim.setWidth 64), (0x102, c.tvec), (0x103, x.tcause), (0x104, x.tval), (0x105, x.tepc), (0x106, x.tstat),
      (0x108, x.ks0), (0x109, x.ks1), (0x10A, x.ks2), (0x10B, x.ks3), (0x10C, x.ks4), (0x10D, x.ks5), (0x10E, x.ks6),
      (0x10F, x.ks7), (0x110, c.ptroot), (0x111, c.asid), (0x112, c.xcals), (0x113, c.xbnd), (0x115, c.spc), (0x116, c.pstop), (0x203, s.vr.sigmsg),
      (0x204, s.vr.sigkey), (0x205, s.vr.sigsig), (0x208, s.vr.shkin), (0x209, s.vr.shklen), (0x20A, s.vr.shkout),
      (0x20C, s.vr.kwipe)], s.sregValue g k e.1 = e.2) ∧
    (g < 4096 → r 0x001 = 16 * (g / 64 % 16) + g % 16 + (4 * (g / 1024) + g % 64 / 16) * 2 ^ 8 + g % 64 * 2 ^ 16
      + g / 64 * 2 ^ 24 + s.pkgId.toNat * 2 ^ 32) ∧
    (g = 4096 → r 0x001 = s.pkgId.toNat * 2 ^ 32) ∧
    r 0x003 = x.wbase.toNat + x.wlim.toNat * 2 ^ 16 ∧
    r 0x004 = x.prec.toNat + vfCells x.prec.toNat * 2 ^ 16 ∧
    (∀ i < 16, (s.sregValue g k 0x021).getLsbD i = true ↔ ∃ o, s.transfer g i = some o ∧ o.live = true ∧ o.k = k) ∧
    r 0x021 / 2 ^ 16 = x.cflags.toNat ∧
    (∀ i, i ≠ 5 → (s.sregValue g k 0x114).getLsbD i = c.smpl.getLsbD i) ∧
    (c.smpl.getLsbD 5 = false → (s.sregValue g k 0x114).getLsbD 5 = c.dump.isSome) ∧
    r 0x200 = s.vr.fusea.toNat ∧ r 0x202 = s.vr.lcs.toNat ∧
    (24 ≤ s.vr.fusea.toNat → s.vr.fusea.toNat ≤ 31 → r 0x201 = 0) ∧
    (s.vr.fusea.toNat < 24 ∨ 31 < s.vr.fusea.toNat → s.sregValue g k 0x201 = s.fuse s.vr.fusea.toNat) ∧
    (∀ i, 1 ≤ i → i < 64 → (s.sregValue g k 0x207).getLsbD i = (s.vr.sigres.setWidth 64).getLsbD i) ∧
    (s.vr.sigres.getLsbD 0 = false → (s.sregValue g k 0x207).getLsbD 0 = s.vrBusy 0) ∧
    r 0x20B = (s.vrBusy 1).toNat ∧
    (∀ p < 16, (s.sregValue g k 0x20D).getLsbD p = (s.part p).key.isSome) ∧
    r 0x20D / 2 ^ 16 = (s.vrBusy 2).toNat + 2 * s.vr.swept.toNat + 4 * s.vr.extd.toNat + 8 * s.vr.kerr.toNat ∧
    r 0x20E = s.vr.dbgOpen.toNat + s.vr.nonce.toNat * 2 ^ 16 ∧
    (∀ n < 8, r (0x210 + n) = (Sparse.get 0 s.vr.meas n).toNat % 2 ^ 64) ∧
    (∀ i < 63, (s.sregValue g k 0x218).getLsbD i = s.vr.mext.getLsbD i) ∧
    (s.vr.mext.getLsbD 63 = false → (s.sregValue g k 0x218).getLsbD 63 = s.vrBusy 3)) ∧
  (∀ s : State, exec .xbndRead s = .next (s.setCore s.ev.g { s.core s.ev.g with xbnd := 0, peak := none })) ∧
  (∀ v : Word, smplBad v = true ↔ 6 ≤ v.toNat / 2 % 8 ∨
    (v.getLsbD 0 = true ∧ v.toNat / 2 ^ 16 % 2 ^ 32 < if v.toNat / 2 % 8 = 3 ∨ v.toNat / 2 % 8 = 4 then 64 else 1)) ∧
  ∀ (s : State) (g k : Nat), s.cur = .slot g k →
    (∀ (d : Name) (n : BitVec 12), Ready (.mfs d n) s →
      (n ≠ 0x01F → n ≠ 0x113 →
        exec (.mfs d n) s = .next (s.done (s.writeName d { v := s.sregValue g k n.toNat, t := false }))) ∧
      (n = 0x113 → exec (.mfs d n) s = .next (s.done
        ((s.setCore g { s.core g with xbnd := 0, peak := none }).writeName d { v := (s.core g).xbnd, t := false })))) ∧
    (∀ a : Name, (s.val a).t = false →
      let v := (s.val a).v
      let m49 : Word := 0x0001FFFFFFFFFFFF
      let all : Word := 0xFFFFFFFFFFFFFFFF
      let writes (n : BitVec 12) (w : Word) : Prop := Ready (.mts a n) s → ∃ t, exec (.mts a n) s = .next (s.done t) ∧
        t.sregValue g k n.toNat = w ∧
        (∀ m, m ≠ n.toNat → ¬ (m = 0x003 ∧ (n = 0x100 ∨ n = 0x101)) → ¬ (m = 0x201 ∧ n = 0x200) →
          t.sregValue g k m = s.sregValue g k m) ∧
        t.mem = s.mem ∧ t.tags = s.tags ∧ t.ops = s.ops ∧ (∀ h c, t.cell h c = s.cell h c) ∧
        (∀ h j, ¬ (h = g ∧ j = k) → t.slot h j = s.slot h j)
      let illegal (n : BitVec 12) : Prop := Ready (.mts a n) s →
        exec (.mts a n) s = .next (s.trapped g k (.mts a n) 0x01 ((encode (.mts a n)).setWidth 64))
      (∀ e ∈ [((0x007 : BitVec 12), (0xFF3F : Word)), (0x010, m49), (0x011, m49), (0x012, all), (0x013, all), (0x014, all),
          (0x015, all), (0x016, 0x00FFFFFFFFFFFFFF), (0x017, m49), (0x018, 0x7FF), (0x019, m49), (0x01A, 0x00FFFFFFFFFFFFFF),
          (0x040, m49), (0x100, 0x7FF), (0x101, 0xFF), (0x102, 0x0001FFFFFFFFFFFD), (0x104, all), (0x105, m49),
          (0x106, 0x0000FFFF07FF03FF), (0x108, all), (0x109, all), (0x10A, all), (0x10B, all), (0x10C, all), (0x10D, all),
          (0x10E, all), (0x10F, all), (0x110, 0x0000FFFFFFF80001), (0x111, 0xFFFF), (0x112, 0xFFFF), (0x200, 0x3F),
          (0x203, 0x000007FF0003FFFF), (0x204, 0x000000030003FFFF), (0x205, 0x3FFFF), (0x208, 0x3FFFF),
          (0x209, 0x000007FF0007FFFF), (0x20A, 0x3FFFF)],
        writes e.1 (v &&& e.2)) ∧
      (8 ≤ v.toNat % 2 ^ 10 → v.toNat % 2 ^ 10 ≤ 1000 →
        writes 0x004 (BitVec.ofNat 64 (v.toNat % 2 ^ 10 + vfCells (v.toNat % 2 ^ 10) * 2 ^ 16))) ∧
      ((v.toNat % 2 ^ 10 < 8 ∨ 1000 < v.toNat % 2 ^ 10) → illegal 0x004) ∧
      (v.toNat / 2 % 8 < 5 → writes 0x005 (v &&& 0xF0F)) ∧ (5 ≤ v.toNat / 2 % 8 → illegal 0x005) ∧
      (v.toNat % 8 < 5 → writes 0x006 (v &&& 0x1F1F07)) ∧ (5 ≤ v.toNat % 8 → illegal 0x006) ∧
      writes 0x008 ((v &&& 0xFF) ||| 1) ∧
      (v.toNat / 2 ^ 9 % 4 ≤ s.me.level.code → v.toNat / 2 ^ 9 % 4 ≠ 3 →
        writes 0x103 (if g = 4096 then (v &&& 0x9FF) ||| 0x400 else v &&& 0xFFF)) ∧
      ((v.toNat / 2 ^ 9 % 4 = 3 ∨ s.me.level.code < v.toNat / 2 ^ 9 % 4) → illegal 0x103) ∧
      writes 0x021 (BitVec.ofNat 64 (s.inflight g k + v.toNat / 2 ^ 16 % 16 * 2 ^ 16)) ∧
      (smplBad v = true → illegal 0x114) ∧
      (smplBad v = false → v.getLsbD 5 = false → (s.core g).dump = none → writes 0x114 (v &&& 0x0000FFFFFFFF001F)) ∧
      writes 0x116 ((v &&& 0x8000000000000000) ||| ((s.core g).pstop &&& 0x7FFFFFFFFFFFFFFF)) ∧
      (∀ n ∈ [(0x020 : BitVec 12), 0x113, 0x207, 0x20D], Ready (.mts a n) s → exec (.mts a n) s = .next (s.done (s.took a)))) ∧
    (∀ (d a : Name) (n : BitVec 12),
      let none' (i : Instr) : Prop := i.wf = true → exec i s = .next (s.trapped g k i 0x01 ((encode i).setWidth 64))
      let x := n.toNat
      (x ≤ 3 ∨ x = 0x01F ∨ (0x030 ≤ x ∧ x ≤ 0x033) ∨ x = 0x115 ∨ (0x210 ≤ x ∧ x ≤ 0x217) → none' (.mts a n)) ∧
      ((x = 9 ∨ (0x00A ≤ x ∧ x ≤ 0x00F) ∨ (0x01B ≤ x ∧ x ≤ 0x01E) ∨ (0x022 ≤ x ∧ x ≤ 0x02F) ∨ (0x034 ≤ x ∧ x ≤ 0x03F) ∨
          (0x041 ≤ x ∧ x ≤ 0x0FF) ∨ x = 0x107 ∨ (0x117 ≤ x ∧ x ≤ 0x1FF) ∨ x = 0x20F ∨ 0x219 ≤ x ∨
          (g ≠ 4096 ∧ 0x200 ≤ x ∧ x ≤ 0x218) ∨
          (g = 4096 ∧ (x = 4 ∨ x = 5 ∨ x = 7 ∨ (0x010 ≤ x ∧ x ≤ 0x021) ∨ x = 0x040 ∨ (0x110 ≤ x ∧ x ≤ 0x116)))) →
        none' (.mfs d n) ∧ none' (.mts a n)))

/-- R285, R286, R381 to R383: csave freezes its core; while an engine is busy it waits, and once none is it writes the save
area and completes. crest of an area that holds no image of this core raises ILL, one that was written since or belongs to
another key PERM, and otherwise the core's register file, deques, mailboxes and registers are those of the image, its crossbar
banks fall to UNPROG, and the freeze ends; the waits pending at its barrier objects are saved, and those that a reset has
discarded are pending again. The image holds the scratch bytes of the core and the record of every bound slot, and crest brings
back each slot from its record and each scratch byte and tag. A counter then counts what the slot still has in flight; where a
reset has come between, the counters are 0, and each of loads and stores that was not 0 gives a pending SOFT 0x02. R27's count of
the cycles since a slot's last issue goes on. That only csave writes valid areas is the model's reading (log 10), and so are what a
slot keeps that the area gives no field (log 75) and that a scratch word with an uncorrectable error is restored as a good one
(log 90); that the units of a restored window are those of its saved BASE, from BASE div 8 on, and of SIZE, rounded up, is its choice
(log 74). -/
def Obligations.CoreSaves : Prop :=
  ∀ (s : State) (g k : Nat), s.cur = .slot g k →
    (Ready .csave s → (s.slot g k).bound = true →
      let u := s.setCore g { s.core g with frozen := some k }
      (s.enginesBusy g = true → exec .csave s = .next (State.onHold (u.setSlot g k { u.slot g k with blocked := some .engines }))) ∧
      (s.enginesBusy g = false → ∃ t, exec .csave s = .next (s.done t) ∧ (t.core g).frozen = some k ∧ t.mem = s.mem ∧
        ∃ im, t.saves.find? (fun e => e.1 = g) = some (g, im) ∧ im.coreValue = s.coreValue g ∧ im.written = [] ∧
          im.barPend = t.pendingAt g ∧ im.core.rf = (s.core g).rf ∧ im.core.ptroot = (s.core g).ptroot ∧
          im.scratch = s.mem.filter (fun e => scrBase g ≤ e.1 && e.1 < scrBase g + 2 ^ 20) ∧
          ((∀ j, j ≠ k → (s.slot g j).blocked = none) →
            ∀ j, j ≠ k → Sparse.get {} im.core.slots j = if (s.slot g j).bound then s.slot g j else {}) ∧
          (Sparse.get {} im.core.slots k).pc = (s.slot g k).pc + 4)) ∧
    (Ready .crest s →
      let area : Word := BitVec.ofNat 64 (chanBase g + saveOff)
      (s.saves.find? (fun e => e.1 = g) = none → exec .crest s = .next (s.trapped g k .crest 0x01 area)) ∧
      (∀ im, s.saves.find? (fun e => e.1 = g) = some (g, im) →
        (im.coreValue ≠ s.coreValue g → exec .crest s = .next (s.trapped g k .crest 0x01 area)) ∧
        (im.coreValue = s.coreValue g → (im.written ≠ [] ∨ im.key ≠ (s.partOf g).bind (fun p => (s.part p).key)) →
          exec .crest s = .next (s.trapped g k .crest 0x06 area)) ∧
        (im.coreValue = s.coreValue g → im.written = [] → im.key = (s.partOf g).bind (fun p => (s.part p).key) →
          ∃ t, exec .crest s = .next t ∧
            let c := t.core g
            c.rf = im.core.rf ∧ c.mailbox = im.core.mailbox ∧ c.ptroot = im.core.ptroot ∧ c.asid = im.core.asid ∧
            c.shadow = im.core.shadow ∧ c.dqHigh = im.core.dqHigh ∧ c.dqNorm = im.core.dqNorm ∧ c.acc = im.core.acc ∧
            c.tiles = [] ∧ c.frozen = none ∧ c.cyc = (s.core g).cyc ∧
            (∀ j, (∀ e ∈ im.core.slots, e.1 ≠ j) → t.slot g j = { lastIssue := (s.slot g j).lastIssue }) ∧
            (∀ j, (t.slot g j).lastIssue = (s.slot g j).lastIssue) ∧
            (im.core.slots.Pairwise (fun x y => x.1 < y.1) → ∀ j x, (j, x) ∈ im.core.slots →
              let out (c : CClass) : Nat := (s.ops.filter (fun o => o.live && o.g = g && o.k = j && o.cls = some c &&
                decide (o.id < im.nextId))).length
              let y : Slot := { x with
                allocBase := x.wbase.toNat / 8, allocUnits := (x.wlim.toNat + 7) / 8, lastIssue := (s.slot g j).lastIssue,
                yieldTo := none, yieldFor := [], taken := [], fetched := none, since := none, portDst := none, loads := 0, stores := 0,
                copies := 0, tiles := 0 }
              (im.seq = (s.core g).saveSeq → t.slot g j = { y with loads := out .loads, stores := out .stores }) ∧
              (im.seq ≠ (s.core g).saveSeq →
                { t.slot g j with pend := x.pend, ovf := x.ovf } = y ∧
                (x.loads = 0 → x.stores = 0 → t.slot g j = y) ∧
                (∀ c ∈ [CClass.loads, .stores], x.count c ≠ 0 → x.pend.length < 7 →
                  ∃ q ∈ (t.slot g j).pend, q.code = 0x12 ∧ q.sub = 2 ∧ q.val = 0 ∧ q.cls = c))) ∧
            (let inside (a : Nat) : Prop := scrBase g ≤ a ∧ a < scrBase g + 2 ^ 20
             (Memory.wf s.mem = true → Memory.wf im.scratch = true → (∀ e ∈ im.scratch, inside e.1) →
               ∀ a, (inside a → Memory.get t.mem a = Memory.get im.scratch a) ∧
                 (¬ inside a → Memory.get t.mem a = Memory.get s.mem a)) ∧
             (s.tags.Pairwise (fun x y => x.1 < y.1) → im.stags.Pairwise (fun x y => x.1 < y.1) →
               (∀ e ∈ im.stags, inside (8 * e.1)) →
               ∀ a, (inside (8 * a) → Sparse.get 0 t.tags a = Sparse.get 0 im.stags a) ∧
                 (¬ inside (8 * a) → Sparse.get 0 t.tags a = Sparse.get 0 s.tags a)) ∧
             ∀ w, w ∈ t.bad ↔ w ∈ s.bad ∧ ¬ inside (8 * w)) ∧
            (∀ q ∈ im.barPend, s.op? q.id = none → { q with live := false } ∈ t.ops) ∧
            (∀ h, h ≠ g → t.core h = s.core h))))

/-! ### Copies (R135 to R141, R317, R318) -/

/-- R136, R139, R141, R186, R317, R318: a read of CGO whose controls pass takes the lowest free id, raises the copies counter and
launches the copy; with all ids in use the turn is forfeited; a failing check traps. cp.q answers whether an id is in flight.
cp.kill stops a copy of its own slot after a free number of its elements (log 29), none of one that waits (log 7), which CRES then
names, or, all being written, lets it end. A copy without a fault
writes its rows, its flag word and its byte post; while an earlier copy has rows to write, or its end must wait, the rows alone.
One with a fault stops at the failing element, or at its end, as CRES and the pending fault say.
R60, R61, R67, R135, R137, R138, R361: element j in transfer order is read from its source address, as a valid element that its
page's seal admits, converted as the pair of formats says, and written at its destination address; of an invalid one zeros. A copy
writes all its elements, or those before the first that fails its checks, or before the one where it is killed; the state is then as
Copied says, whose flags of the written elements only and joint cover of a word are the model's reading (log 31). Each row is
checked in the state that the rows before it leave. Premises: alignment (R136), no element stored in another's bytes.
R186, R414: a copy reads what memory holds, but may read as it was, each word by itself, a word that the last update of a record has
overwritten, while this slot alone has had a prd answered with the new generation and nothing that orders it has followed; which
instructions order it is the model's reading (log 101).
R71, R139, R167, R169, R174: with CDONE the flag word receives the count of bytes written, with full set, in a shadow view in the
half in view (a reading, log 30), and operations queued at it run; with CBND the count is added to the bytes arrived of the object,
in the unit's order. A fault in the flag word leaves both undone, one in the post the flag
word written. -/
def Obligations.Copies : Prop :=
  (∀ (s : State) (g k : Nat) (d : Name), s.cur = .slot g k → Ready (.mfs d 0x01F) s →
    let c := s.me.copyCtl
    let both (r : Host.Outcome State Fault Refusal) : Prop :=
      exec (.mfs d 0x01F) s = r ∧ (s.ev.d = d → exec .cgoLaunch s = r)
    (∀ e, c.bad = some e → both (.next (s.trapped g k (.mfs d 0x01F) e.1 e.2))) ∧
    (c.bad = none → (∀ t < 16, (s.transfer g t).isSome = true) → both (.next { s with turn := .forfeited })) ∧
    (∀ t, c.bad = none → t < 16 → s.transfer g t = none → (∀ j < t, (s.transfer g j).isSome = true) → s.me.copies < 255 →
      both (.next (s.done ((s.accept (.mfs d 0x01F) .copies (.copy c t)).writeName d
        { v := BitVec.ofNat 64 t, t := false }))))) ∧
  (∀ (s : State) (g k : Nat) (d a : Name), s.cur = .slot g k → (s.val a).t = false →
    let x := (s.val a).v
    let residue (p q i : Nat) : Word := BitVec.ofNat 64 (i + q * 2 ^ 24 + p % 2 ^ 16 * 2 ^ 40 + x.toNat * 2 ^ 56 + 2 ^ 63)
    (Ready (.cpQ d a) s → x.toNat < 16 → exec (.cpQ d a) s = .next (s.done ((s.took a).writeName d
      { v := match s.transfer g x.toNat with
          | none => 0
          | some o => if o.live = true ∧ o.k = k then 1 else 2, t := false }))) ∧
    (Ready (.cpKill a) s → x.toNat < 16 → s.transfer g x.toNat = none → exec (.cpKill a) s = .next (s.done (s.took a))) ∧
    (∀ o, Ready (.cpKill a) s → x.toNat < 16 → s.transfer g x.toNat = some o → ¬ (o.live = true ∧ o.k = k) →
      exec (.cpKill a) s = .next (s.done (s.took a))) ∧
    (∀ o c, Ready (.cpKill a) s → x.toNat < 16 → s.transfer g x.toNat = some o → s.op? o.id = some o → o.live = true → o.k = k →
      o.kind = .copy c x.toNat →
      let u : State := (s.took a).draw.2
      ∃ m, m ≤ c.n0 * c.n1 * c.n2 ∧ (u.copyBehind o c = true → m = 0) ∧
        let r := (u.copyUpTo o c (c.n1 * c.n2) 0 m).settled c
        let z := if o.parts = [] then r.st.copyPaid o else u
        let e := z.copyEnd o c
        let waits (y : State) : Prop := exec (.cpKill a) s = .next (State.onHold ((y.setSlot g k
          { y.slot g k with blocked := some (.copyEnd o.id) }).putBack g k))
        (∀ p q i y, o.parts = [] → r.stop = some (p, q, i, y) →
          exec (.cpKill a) s = .next (s.done ((r.st.setCres o (residue p q i)).endOp o))) ∧
        ((o.parts = [] → r.stop = none) →
          (e.stop = none → z.copyOlder o = false → exec (.cpKill a) s = .next (s.done (e.st.endOp o))) ∧
          (e.stop = none → z.copyOlder o = true → waits (z.copyPaid o)) ∧
          (∀ p q i code sub, e.stop = some (p, q, i, code, sub) →
            ((code = 0 ∨ z.copyOlder o = true) → waits z) ∧
            (code ≠ 0 → z.copyOlder o = false → exec (.cpKill a) s = .next
              (s.done ((e.st.setCres o (residue p q i)).failOp o code (residue p q i) sub)))))) ∧
    (∀ id, s.blockOver g k (.copyEnd id) = true ↔ s.op? id = none) ∧
    (∀ i ∈ [Instr.cpQ d a, .cpKill a], Ready i s → 16 ≤ x.toNat → exec i s = .next (s.trapped g k i 0x01 x))) ∧
  (∀ (s : State) (o : Op) (c : CopyCtl) (tid : Nat), InFlight s o → o.kind = .copy c tid → s.ev.opt = none →
    let a := s.copyPayload o c
    let b := a.st.copyEnd o c
    let older := ∃ p ∈ s.ops, p.g = o.g ∧ p.k = o.k ∧ p.id < o.id ∧ (p.live = true ∨ o.live = false) ∧ p.parts = [] ∧
      ∃ d n, p.kind = .copy d n
    let residue (p r i : Nat) : Word := BitVec.ofNat 64 (i + r * 2 ^ 24 + p % 2 ^ 16 * 2 ^ 40 + tid * 2 ^ 56 + 2 ^ 63)
    (s.copyBehind o c = true ↔ o.parts = [] ∧ ∃ p ∈ s.ops, p.g = o.g ∧ p.k = o.k ∧ p.id < o.id ∧
      ((∃ w x y z dst, p.kind = .eng .prd w x y z dst) ∨ ((p.live = true ∨ o.live = false) ∧
        ∃ d n, p.kind = .copy d n ∧ (runsMeet (s.copyWrites p d) (s.copyReads o c) = true ∨
          runsMeet (s.copyReads p d) (s.copyWrites o c) = true)))) ∧
    (s.copyBehind o c = true → exec .copyComplete s = .next s ∧ exec .copyFault s = .next s) ∧
    (o.parts ≠ [] → a.st = s ∧ a.stop = none) ∧
    (s.copyBehind o c = false → a.stop = none →
      (b.stop = none → ¬ older → exec .copyComplete s = .next (b.st.endOp o)) ∧
      ((b.stop = none ∧ older ∨ ∃ p r i sub, b.stop = some (p, r, i, 0, sub)) → ∃ t, exec .copyComplete s = .next t ∧
        t.op? o.id = some { o with parts := [0] } ∧ t.mem = a.st.mem ∧ t.tags = a.st.tags ∧ t.cores = a.st.cores) ∧
      (∀ p r i code sub, b.stop = some (p, r, i, code, sub) → code ≠ 0 → ¬ older →
        exec .copyFault s = .next ((b.st.setCres o (residue p r i)).failOp o code (residue p r i) sub))) ∧
    (∀ p r i code sub, s.copyBehind o c = false → a.stop = some (p, r, i, code, sub) → code ≠ 0 →
      exec .copyFault s = .next ((a.st.setCres o (residue p r i)).failOp o code (residue p r i) sub))) ∧
  -- a word read ahead
  (∀ (s : State) (o : Op) (c : CopyCtl) (tid pa : Nat), InFlight s o → o.kind = .copy c tid → s.ev.opt = some pa →
    let stale := (s.mason (ownerOf pa)).stale
    let ahead (old new : Word) : Prop := ∃ x, stale = some x ∧ x.reader = some (o.g, o.k) ∧ x.words.lookup pa = some (old, new) ∧
      s.read64 pa = new ∧ o.live = true ∧ o.parts = []
    ((∀ old new, ¬ ahead old new) → exec .copyComplete s = .next s) ∧
    (∀ old new, ahead old new → ∃ t, exec .copyComplete s = .next t ∧ t.mem = s.mem ∧ t.tags = s.tags ∧ t.cores = s.cores ∧
      t.op? o.id = some { o with early := (BitVec.ofNat 64 pa, old) :: o.early })) ∧
  (∀ (s : State) (c : Ctx) (pa n : Nat),
    (c.early.lookup (BitVec.ofNat 64 (8 * (pa / 8))) = none → s.copyBytes c pa n = s.readN pa n) ∧
    (∀ w, c.early.lookup (BitVec.ofNat 64 (8 * (pa / 8))) = some w → s.copyBytes c pa n = w.toNat / 256 ^ (pa % 8) % 256 ^ n)) ∧
  -- what the rows write
  (∀ (s : State) (o : Op) (c : CopyCtl) (n : Nat) (pa : Nat → Nat) (x : Nat → Nat) (tg : Nat → Bool),
    let total := c.n0 * c.n1 * c.n2
    let u (j : Nat) : State := (s.copyRows o c (j / c.n0) 0).st
    let reads (j : Nat) : Except EngErr (Nat × Bool × Option Nat) := (u j).copyElem (s.opCtx o) (c.srcAt j) (fmtSize c.sf) none
    let writes (j : Nat) : Except EngErr Target :=
      (u j).engReach (s.opCtx o) (c.dstAt j) (fmtSize c.df) .copyWrite .plain (tg j)
    let place (j : Nat) (e : EngErr) : Nat × Nat × Nat × EngErr := (j / c.n0 / c.n1, j / c.n0 % c.n1, j % c.n0, e)
    let v (j : Nat) : Nat × Fl := if c.validAt j then copyConvert c.sf c.df c.rm (x j) else (0, 0)
    let some' (a : CopyRun) : Prop := Copied s a.st o c n pa v tg
    let killed (m : Nat) : CopyRun := (s.copyUpTo o c (c.n1 * c.n2) 0 m).settled c
    o.parts = [] → c.bad = none → n ≤ total →
    (∀ j < n, (c.validAt j → ∃ page, reads j = .ok (x j, tg j, page)) ∧ (¬ c.validAt j → tg j = false) ∧
      ∃ cls, writes j = .ok { pa := pa j, cls := cls }) →
    (∀ j < n, pa j % fmtSize c.df = 0 ∧ s.storage (8 * (pa j / 8)) true % 8 = 0) →
    (∀ i < n, ∀ j < n, i ≠ j → s.engByte (pa i) + fmtSize c.df ≤ s.engByte (pa j) ∨ s.engByte (pa j) + fmtSize c.df ≤ s.engByte (pa i)) →
    (n = total → some' (s.copyPayload o c) ∧ (s.copyPayload o c).stop = none) ∧
    (some' (killed n) ∧ (killed n).stop = if n = total then none else some (place n (0, 0))) ∧
    (∀ e, n < total → ((c.validAt n ∧ reads n = .error e) ∨
        ((c.validAt n → ∃ y page, reads n = .ok (y, tg n, page)) ∧ (¬ c.validAt n → tg n = false) ∧ writes n = .error e)) →
      some' (s.copyPayload o c) ∧ (s.copyPayload o c).stop = some (place n e) ∧
      ∀ m, n < m → m ≤ total → some' (killed m) ∧ (killed m).stop = some (place n e))) ∧
  (∀ (s : State) (c : Ctx) (va : Word) (n : Nat),
    (∀ e, s.engAccess c va n .copyRead = .error e → s.copyElem c va n none = .error (e.code, e.sub)) ∧
    (∀ t, s.engAccess c va n .copyRead = .ok t →
      (s.meshHeld c.g t.pa = true → s.copyElem c va n none = .error (0, 0)) ∧
      (s.meshHeld c.g t.pa = false →
        (t.cls = 3 → s.sealHolds t.pa = false → s.copyElem c va n none = .error (0x0D, 3)) ∧
        ((t.cls = 3 → s.sealHolds t.pa = true) →
          (∀ a, s.badWord t.pa n = some a → s.copyElem c va n none = .error (softCause a)) ∧
          (s.badWord t.pa n = none → ∃ page,
            s.copyElem c va n none = .ok (s.copyBytes c t.pa n, s.loadTag c.g t.pa n (t.cls = 1), page)))))) ∧
  (∀ (m v : Nat),
    let w := BitVec.ofNat 32 v
    (∀ f < 6, copyConvert f f m v = (v, 0)) ∧
    copyConvert 5 3 m v = ((bf16Of m w).1.toNat, (bf16Of m w).2) ∧
    copyConvert 5 2 m v = ((f8Of32 m w).1.toNat, (f8Of32 m w).2) ∧
    (∀ b : BitVec 8, copyConvert 2 5 m b.toNat = ((f32Of8 b).toNat, 0) ∧
      copyConvert 2 3 m b.toNat = (if b.toNat % 128 = 127 then 0x7FC0 else (f32Of8 b).toNat / 2 ^ 16, 0) ∧
      ∃ z : BitVec 32, copyConvert 1 5 m b.toNat = (z.toNat, 0) ∧ (num32 z).rat = b.toInt) ∧
    (∀ b : BitVec 16, copyConvert 3 5 m b.toNat = ((f32OfBf16 b).1.toNat, (f32OfBf16 b).2) ∧
      copyConvert 3 2 m b.toNat = ((f8Of32 m (f32OfBf16 b).1).1.toNat, (f32OfBf16 b).2 ||| (f8Of32 m (f32OfBf16 b).1).2)) ∧
    (num32 w = .nan → copyConvert 5 1 m v = (0, flNV)) ∧
    (∀ neg, num32 w = .inf neg → copyConvert 5 1 m v = (if neg then 0x80 else 0x7F, flNV)) ∧
    (∀ neg k e, num32 w = .fin neg k e →
      let q := quantize m neg k e false 0
      let i : Int := if neg then -(q.1 : Int) else q.1
      copyConvert 5 1 m v = (if i < -128 then (0x80, flOF) else if 127 < i then (0x7F, flOF)
        else ((i % 256).toNat, if q.2 then flNX else 0)))) ∧
  -- the end
  (∀ (u : State) (o : Op) (c : CopyCtl),
      let count : Word := BitVec.ofNat 64 (c.n0 * c.n1 * c.n2 * fmtSize c.df)
      let x := u.opCtx o
      let stops (v : State) (e : EngErr) : Prop := u.copyEnd o c = { st := v, stop := some (c.n2, 0, 0, e) }
      (c.cdone = 0 → c.cbnd = 0 → u.copyEnd o c = { st := u }) ∧
      (∀ e, c.cdone ≠ 0 → u.engReach x c.cdone 8 .atomic .flag = .error e → stops u e) ∧
      (∀ t, c.cdone ≠ 0 → u.engReach x c.cdone 8 .atomic .flag = .ok t → u.storage t.pa false % 8 = 0 → ∃ w : State,
        (let a := u.storage t.pa false
         (∀ b < 8, w.rawByte (a + b) = BitVec.ofNat 8 (count.toNat / 256 ^ b)) ∧
         (∀ b, ¬ (a ≤ b ∧ b < a + 8) → w.rawByte b = u.rawByte b) ∧
         (Sparse.get 0 w.tags (a / 8)).getLsbD 0 = true ∧
         ((region t.pa).tagged = true → (Sparse.get 0 w.tags (a / 8)).getLsbD 2 = false) ∧
         (∀ b, b ≠ a / 8 → Sparse.get 0 w.tags b = Sparse.get 0 u.tags b) ∧ w.ops = u.ops) ∧
        let f := if (u.tagOf t.pa).getLsbD 0 then w else w.runQueue t.pa w.ops.length
        (c.cbnd = 0 → u.copyEnd o c = { st := f }) ∧
        (c.cbnd ≠ 0 → u.copyEnd o c = f.copyEnd o { c with cdone := 0 })) ∧
      (c.cdone = 0 → c.cbnd ≠ 0 →
        (∀ e, u.engReach x c.cbnd 32 .atomic .barrier = .error e → stops u e) ∧
        (∀ t, u.engReach x c.cbnd 32 .atomic .barrier = .ok t →
          (u.postBehind o (ownerOf t.pa) = true → stops u (0, 0)) ∧
          (u.postBehind o (ownerOf t.pa) = false →
            (u.badWord t.pa 32 ≠ none → stops u (softCause t.pa)) ∧
            (u.badWord t.pa 32 = none →
              let b := u.readBar t.pa
              (u.barCheck b o.g (ownerOf t.pa) ≠ none → stops u (0x0D, 2)) ∧
              (u.barCheck b o.g (ownerOf t.pa) = none →
                u.copyEnd o c = { st := u.barFinish t.pa { b with barr := b.barr + count } }))))))

/-! ### The matrix engine (R142 to R144, R290 to R294) -/

/-- R143, R293: mma and the accumulator instructions whose operands pass their checks are accepted by the matrix engine, with
the tiles counter up by one, while its queue has room; a block that touches a declared reserve raises CLS at issue, the place of
which is the model's reading (log 33). R144, R290, R294: the engine runs its oldest operation: an mma runs its
steps and changes no entry outside its rectangle, and stops at the first step that reads a bad word with that step's number;
acc.clr zeroes its rectangle and no other entry; acc.wr loads its rectangle and acc.rd stores it, row by row. An operation waits
for an earlier prd of its thread (log 7); a lane of acc.rd may be written ahead of the others, and then once only (log 29), but an
acc.rd that has not begun stands still while any publish of its partition waits, which is the model's reading of R68 (log 88). R85, R95, R290:
what one step makes of an entry: in I8 the exact sum modulo 2^64, in F8 and BF16 the tree of the products in binary64, in Q4
the four block terms, with rounding as FloatValues says. -/
def Obligations.MatrixEngine : Prop :=
  (∀ (s : State) (g k : Nat) (d a b : Name), s.cur = .slot g k → s.room OpKind.isMatrix = true →
    let x := (s.val a).v
    let u := s.took a
    let y := (u.val b).v
    let v := u.took b
    let z := s.me.tshp
    let hits (w : Word) (n : Nat) : Bool := s.hitsReserve (scrBase g + w.toNat) n
    (∀ e ∈ [(Instr.mmaI8, MmaFmt.i8), (.mmaF8, .f8), (.mmaB16, .b16), (.mmaQ4, .q4)],
      ∀ (m : BitVec 2) (ac bt : BitVec 1), Ready (e.1 d a b m ac bt) s → (s.val a).t = false → (u.val b).t = false →
        (v.val d).t = false → (e.2 = .q4 → bt = 1) →
        let c := (v.val d).v
        let h := mmaShape e.2 m.toNat (bt = 1) c x y z
        h.cols ≠ 0 → h.steps ≠ 0 → h.row0 + h.rows ≤ 64 → h.col0 + h.cols ≤ 1024 → x.toNat % 64 = 0 → y.toNat % 64 = 0 →
        x.toNat + h.rows * h.len ≤ 2 ^ 20 → y.toNat + h.cols * h.len ≤ 2 ^ 20 →
        (hits x (h.rows * h.len) = false → hits y (h.cols * h.len) = false →
          exec (e.1 d a b m ac bt) s = .next (s.done ((v.took d).accept (e.1 d a b m ac bt) .tiles
            (.eng (.mma e.2 m.toNat (ac = 1) (bt = 1)) c x y z none)))) ∧
        (hits x (h.rows * h.len) = true → exec (e.1 d a b m ac bt) s = .next (s.trapped g k (e.1 d a b m ac bt) cCLS x)) ∧
        (hits x (h.rows * h.len) = false → hits y (h.cols * h.len) = true →
          exec (e.1 d a b m ac bt) s = .next (s.trapped g k (e.1 d a b m ac bt) cCLS y))) ∧
    (Ready (.accClr d) s → (s.val d).t = false → accBad (s.val d).v = false →
      exec (.accClr d) s = .next (s.done ((s.took d).accept (.accClr d) .tiles (.eng .accClr (s.val d).v 0 0 0 none)))) ∧
    (Ready (.accRd d a b) s → (s.val a).t = false → (u.val b).t = false → (v.val d).t = false → accBad (v.val d).v = false →
      x.toNat % 64 = 0 → x.toNat + 4 * (accRect (v.val d).v).r * (accRect (v.val d).v).c ≤ 2 ^ 20 →
      hits x (4 * (accRect (v.val d).v).r * (accRect (v.val d).v).c) = false →
      exec (.accRd d a b) s = .next (s.done ((v.took d).accept (.accRd d a b) .tiles (.eng .accRd (v.val d).v x y 0 none)))) ∧
    (Ready (.accWr d a) s → (s.val a).t = false → (u.val d).t = false → accBad (u.val d).v = false →
      x.toNat % 64 = 0 → x.toNat + 4 * (accRect (u.val d).v).r * (accRect (u.val d).v).c ≤ 2 ^ 20 →
      hits x (4 * (accRect (u.val d).v).r * (accRect (u.val d).v).c) = false →
      exec (.accWr d a) s = .next (s.done ((u.took d).accept (.accWr d a) .tiles (.eng .accWr (u.val d).v x 0 0 none))))) ∧
  (∀ (s : State) (o : Op) (a b z : Word) (dst : Option Nat), InFlight s o → s.oldestOf o OpKind.isMatrix = true →
    (s.core o.g).acc.Pairwise (fun x y => x.1 < y.1) →
    (∀ f m ac bt t, o.kind = .eng (.mma f m ac bt) t a b z dst →
      let h := mmaShape f m bt t a b z
      let s1 := if ac then s else s.clearEntries o.g h.row0 h.col0 h.rows h.cols
      (∀ u, h.steps' o.g h.steps 0 s1 = (u, none) → exec .mmaComplete s = .next (u.endOp o) ∧ u.mem = s.mem ∧ u.ops = s.ops ∧
        (h.col0 + h.cols ≤ 1024 → ∀ r c, c < 1024 →
          ¬ (h.row0 ≤ r ∧ r < h.row0 + h.rows ∧ h.col0 ≤ c ∧ c < h.col0 + h.cols) →
          (u.core o.g).entry r c = (s.core o.g).entry r c)) ∧
      (∀ u q e, h.steps' o.g h.steps 0 s1 = (u, some (q, e)) →
        exec .mmaComplete s = .next (u.failOp o e.1 (BitVec.ofNat 64 q) e.2))) ∧
    (∀ c, o.kind = .eng .accClr c a b z dst →
      let t := accRect c
      t.col0 + t.c ≤ 1024 → ∃ u, exec .accClrComplete s = .next u ∧ u.op? o.id = none ∧ u.mem = s.mem ∧
        ∀ i j, j < 1024 → (u.core o.g).entry i j =
          if t.row0 ≤ i ∧ i < t.row0 + t.r ∧ t.col0 ≤ j ∧ j < t.col0 + t.c then 0 else (s.core o.g).entry i j) ∧
    (∀ c, o.kind = .eng .accWr c a b z dst →
      let t := accRect c
      t.col0 + t.c ≤ 1024 → s.runFault o.g a.toNat (4 * t.r * t.c) = none →
      ∃ u, exec .accWrComplete s = .next u ∧ u.op? o.id = none ∧ u.mem = s.mem ∧
        ∀ i j, i < t.r → j < t.c → (u.core o.g).entry (t.row0 + i) (t.col0 + j) =
          (let w := s.read32 (scrBase o.g + a.toNat + 4 * (t.c * i + j))
           if t.int then w.signExtend 64 else dOf32 w)) ∧
    (∀ c, o.kind = .eng .accRd c a b z dst →
      let t := accRect c
      let v (j : Nat) : BitVec 32 :=
        let e := (s.core o.g).entry (t.row0 + j / t.c) (t.col0 + j % t.c)
        let x := if t.int then numOfInt e.toInt else num64 e
        (rnd32 0 { x := num64 (rnd64 4 { x := (x.mul (num32 (b.extractLsb' 0 32))).1 }) }).1
      let at' (n : Nat) : Nat := scrBase o.g + a.toNat + 4 * n
      (s.ev.opt = none → o.parts = [] → exec .accRdComplete s = .next (((List.range (t.r * t.c / 2)).foldl (fun u j =>
        u.write64 (at' (2 * j)) (v (2 * j + 1) ++ v (2 * j)) true) s).endOp o)) ∧
      (s.ev.opt = none → Memory.wf s.mem = true → o.g < 4096 → (s.core o.g).shadow = [] → a.toNat % 64 = 0 →
        a.toNat + 4 * (t.r * t.c) ≤ 2 ^ 20 → ∃ u, exec .accRdComplete s = .next u ∧ u.op? o.id = none ∧
          ∀ n < t.r * t.c, u.read32 (at' n) = if n ∈ o.parts then s.read32 (at' n) else v n) ∧
      (∀ n, s.ev.opt = some n →
        (n < t.r * t.c → n ∉ o.parts → (o.early ≠ [] ∨ o.parts ≠ [] ∨ s.publishWaits o.g = false) →
          exec .accRdComplete s = .next ((s.write32 (at' n) (v n) true).mapOp o.id (fun p => { p with parts := n :: p.parts }))) ∧
        ((t.r * t.c ≤ n ∨ n ∈ o.parts ∨ (o.early = [] ∧ o.parts = [] ∧ s.publishWaits o.g = true)) →
          exec .accRdComplete s = .next s)))) ∧
  (∀ (s : State) (o : Op) (mine : OpKind → Bool), s.oldestOf o mine = true ↔
    ∀ p ∈ s.ops, p.g = o.g → p.id < o.id → mine p.kind = false ∧
      (p.k = o.k → ∀ w x y z dst, p.kind ≠ .eng .prd w x y z dst)) ∧
  (∀ (s : State) (h : MmaShape) (g q m n : Nat), (s.core g).acc.Pairwise (fun x y => x.1 < y.1) → m < h.rows → n < h.cols →
    h.col0 + h.cols ≤ 1024 →
    let old := (s.core g).entry (h.row0 + m) (h.col0 + n)
    let new := ((h.step s g q).core g).entry (h.row0 + m) (h.col0 + n)
    let base := scrBase g
    let byteA (k : Nat) : Byte := s.byte (base + h.a + m * (64 * h.steps) + 64 * q + k)
    let byteB (k : Nat) : Byte := s.byte (base + h.b + (if h.bt then n * (64 * h.steps) + 64 * q + k else (64 * q + k) * h.cols + n))
    let halfA (k : Nat) : BitVec 16 := s.byte (base + h.a + m * (64 * h.steps) + 64 * q + 2 * k + 1) ++
      s.byte (base + h.a + m * (64 * h.steps) + 64 * q + 2 * k)
    let atB (k : Nat) : Nat := base + h.b + (if h.bt then n * (64 * h.steps) + 64 * q + 2 * k else ((32 * q + k) * h.cols + n) * 2)
    let halfB (k : Nat) : BitVec 16 := s.byte (atB k + 1) ++ s.byte (atB k)
    let wide (x : BitVec 16) : Word := dOf32 (x ++ (0 : BitVec 16))
    let group (p : Nat) : List Byte := s.bytesAt p 136
    (h.f = .i8 → new = old + BitVec.ofInt 64 (((List.range 64).map (fun k => (byteA k).toInt * (byteB k).toInt)).sum)) ∧
    (h.f = .f8 → new = dAdd old (treeNode dAdd (fun k => dMul (rnd64 0 { x := num8 (byteA k) }) (rnd64 0 { x := num8 (byteB k) })) 6 0)) ∧
    (h.f = .b16 → new = dAdd old (treeNode dAdd (fun k => dMul (wide (halfA k)) (wide (halfB k))) 5 0)) ∧
    (h.f = .q4 → h.bt = true →
      let x := group (base + h.a + m * (136 * h.steps) + 136 * q)
      let y := group (base + h.b + n * (136 * h.steps) + 136 * q)
      new = dAdd old (dAdd (dAdd (q4Term x y 0) (q4Term x y 1)) (dAdd (q4Term x y 2) (q4Term x y 3))))) ∧
  (∀ (x y : List Byte) (b : Nat), x.length = 136 → y.length = 136 → b < 4 →
    let code (z : List Byte) (n : Nat) : Int := [-64, -46, -35, -26, -19, -13, -8, -3, 0, 4, 9, 15, 22, 31, 44, 64].getD
      ((z.getD (n / 2) 0).toNat / 16 ^ (n % 2) % 16) 0
    let i : Int := ((List.range 64).map (fun j => code x (64 * b + j) * code y (64 * b + j))).sum
    let super (z : List Byte) : FNum := num32 (z.getD 135 0 ++ z.getD 134 0 ++ z.getD 133 0 ++ z.getD 132 0)
    let scale : Nat := (1 + (x.getD (128 + b) 0).toNat) * (1 + (y.getD (128 + b) 0).toNat)
    let r := num64 (rnd64 4 { x := (((super x).mul (super y)).1.mul (.fin false scale (-28))).1 })
    (i = 0 → (∀ n m e, r = .fin n m e → q4Term x y b = 0) ∧ ((∀ n m e, r ≠ .fin n m e) → q4Term x y b = 0x7FF8000000000000)) ∧
    (i ≠ 0 → q4Term x y b = rnd64 0 { x := ((numOfInt i).mul r).1 })) ∧
  (∀ w : BitVec 32, (w.extractLsb' 23 8 ≠ 255 → (num64 (dOf32 w)).isNan = false ∧ (num64 (dOf32 w)).rat = (num32 w).rat) ∧
    ((num32 w).isNan = true → dOf32 w = 0x7FF8000000000000)) ∧
  (∀ h : BitVec 8, (num64 (rnd64 0 { x := num8 h })).rat = (num8 h).rat ∧
    (h.toNat % 128 = 127 → rnd64 0 { x := num8 h } = 0x7FF8000000000000)) ∧
  (∀ x y : Word, dAdd x y = rnd64 0 { x := ((num64 x).add 0 (num64 y)).1 } ∧ dMul x y = rnd64 0 { x := ((num64 x).mul (num64 y)).1 } ∧
    (((num64 x).isNan || (num64 y).isNan) = true → dAdd x y = 0x7FF8000000000000 ∧ dMul x y = 0x7FF8000000000000))

/-! ### The crossbar (R97, R99, R145 to R149, R295 to R298) -/

/-- R149, R295 to R298: the crossbar instructions whose control and blocks pass their checks are accepted by their tile while its
queue has room, xswp with no counter; xmv and xmvt carry XCALS as it is read at issue (R289); xacc clears a tag and sets the
partition's status, and xstat reads the four tiles. R296, R297: xprg puts a row group of codes from -31 to 31 into the inactive
bank, which is then PROG; xswp makes a calibrated inactive bank active, and faults XBANK with any other; xcal leaves its bank
CAL or DRIFT; a product on a bank that is not CAL, or that is older than the limit it carries, faults. XBND keeps the largest deviation since it was read, saturated,
with the tile and the bank of the first that was as large (R149). The deviation of the references is a free value (log 12), and that an xcal whose references fail sets the scales and SWT but keeps the date is the
model's reading (log 35), as is the deferred CLS of a block that touches a reserve (log 33). R97, R145, R147: a product delivers 256
outputs, formed from the columns of its bank for xmv and from the rows for xmvt; where the scales are finite and the reference
lies in the FP32 range, each is finite and as far from the reference as R97 allows, or within half a unit of the least FP32 number
where no FP32 number need lie so near; elsewhere it is a free value. That the bound takes the magnitude of the scales' product, and
what is delivered where the bound is too narrow for FP32, are the model's choice (log 11). -/
def Obligations.Crossbar : Prop :=
  (∀ (k : Bank) (trans : Bool) (n : Nat) (sx : BitVec 32) (xs : List Int),
    let ys := k.outputs trans n sx xs
    ys.length = 256 ∧ ∀ j < 256,
      let y := ys.getD j 0
      let sw := if trans then k.swt else k.scales.getD j 0
      let code (i j : Nat) : Int := ((Sparse.get [] k.codes (i / 16)).getD (256 * (i % 16) + j) 0).toInt
      let q (i : Nat) : Int := if trans then code j i else code i j
      let c : ℚ := (num32 sx).rat * (num32 sw).rat
      let sum : ℚ := ((∑ i ∈ Finset.range 256, xs.getD i 0 * q i : Int) : ℚ)
      let mag : ℚ := ((∑ i ∈ Finset.range 256, |xs.getD i 0| * |q i| : Int) : ℚ)
      let finite (v : BitVec 32) : Prop := v.toNat % 2 ^ 31 < 0x7F800000
      let promised : Prop := finite sx ∧ finite sw ∧ |c * sum| ≤ (2 ^ 24 - 1) * 2 ^ 104
      let off := |(num32 y).rat - c * sum|
      (promised → finite y ∧ (off ≤ |c| * (mag / 128 + 4) ∨ off ≤ 2 ^ (-150 : Int))) ∧
      (¬ promised → y = Config.freeOutput (n + j))) ∧
  (∀ (s : State) (g t dev : Nat) (b : Bool), t < 4 →
    let u := s.notePeak g t b dev
    (∀ m, (s.core g).peak = some m → dev ≤ m → u = s) ∧
    ((∀ m, (s.core g).peak = some m → m < dev) → (u.core g).peak = some dev ∧
      (u.core g).xbnd.toNat = min dev 0xFFFF + t * 2 ^ 16 + b.toNat * 2 ^ 18 ∧ u.mem = s.mem ∧ u.ops = s.ops ∧
      { u.core g with peak := (s.core g).peak, xbnd := (s.core g).xbnd } = s.core g)) ∧
  (∀ (s : State) (g k : Nat) (d a b : Name), s.cur = .slot g k → s.me.tiles < 255 →
    let x := (s.val a).v
    let u := s.took a
    let y := (u.val b).v
    let v := u.took b
    let c := (u.val d).v
    let e := (v.val d).v
    let oa := (e.toNat / 2 ^ 12 % 2 ^ 20)
    (Ready (.xprg d a) s → (s.val a).t = false → (u.val d).t = false → c &&& ~~~0xF3 = 0 → x.toNat % 64 = 0 →
      x.toNat + 4096 ≤ 2 ^ 20 → s.room (OpKind.onTile (c.toNat % 4)) = true →
      exec (.xprg d a) s = .next (s.done ((u.took d).accept (.xprg d a) .tiles (.eng .xprg c x 0 0 none)))) ∧
    (Ready (.xcal d a b) s → (s.val a).t = false → (u.val b).t = false → (v.val d).t = false → e &&& ~~~7 = 0 →
      x.toNat % 64 = 0 → x.toNat + 1024 ≤ 2 ^ 20 → s.room (OpKind.onTile (e.toNat % 4)) = true →
      exec (.xcal d a b) s = .next (s.done ((v.took d).accept (.xcal d a b) .tiles (.eng .xcal e x y 0 none)))) ∧
    (∀ i ∈ [(Instr.xmv d a b, Eng.xmv), (.xmvt d a b, .xmvt)], Ready i.1 s → (s.val a).t = false → (v.val d).t = false →
      e &&& ~~~0xFFFFF003 = 0 → x.toNat % 64 = 0 → oa % 64 = 0 → x.toNat + 256 ≤ 2 ^ 20 → oa + 1024 ≤ 2 ^ 20 →
      s.room (OpKind.onTile (e.toNat % 4)) = true →
      exec i.1 s = .next (s.done ((v.took d).accept i.1 .tiles (.eng i.2 e x y (s.core g).xcals none)))) ∧
    (Ready (.xswp d) s → (s.val d).t = false → (s.val d).v.toNat < 4 → s.room (OpKind.onTile ((s.val d).v.toNat % 4)) = true →
      let w := s.took d
      exec (.xswp d) s = .next (s.done ((w.setMe { w.me with seq := w.me.seq + 1 }).addOp g k none s.me.seq.toNat
        (encode (.xswp d)) (.eng .xswp (s.val d).v 0 0 0 none)))) ∧
    (∀ p, Ready (.xacc d a) s → s.partOf g = some p → exec (.xacc d a) s = .next (s.done
      ((u.setPart p { s.part p with approx := true, approxFence := true }).writeName d { v := x, t := false }))) ∧
    (Ready (.xstat d) s → ∃ w : Word, exec (.xstat d) s = .next (s.done (s.writeName d { v := w, t := false })) ∧
      ∀ t < 4, w.toNat / 2 ^ (8 * t) % 256 = (s.tile g t).bank0.st.code + 4 * (s.tile g t).bank1.st.code
        + 16 * (s.tile g t).active.toNat + 32 * (s.ops.any (fun o => o.g = g && o.kind.onTile t)).toNat)) ∧
  (∀ (s : State) (o : Op) (d a b z : Word) (dst : Option Nat), InFlight s o →
    let t := d.toNat % 4
    let x := s.tile o.g t
    s.oldestOf o (OpKind.onTile t) = true →
    (∀ e ∈ [(Instr.xprgComplete, Eng.xprg, 4096), (.xcalComplete, .xcal, 1024)], o.kind = .eng e.2.1 d a b z dst →
      (e.2.1 = .xcal → (x.bank (d.getLsbD 2)).st ≠ .unprog) →
      (s.hitsReserve (scrBase o.g + a.toNat) e.2.2 = true → exec e.1 s = .next (s.failOp o 0x07 0 0)) ∧
      (s.hitsReserve (scrBase o.g + a.toNat) e.2.2 = false → ∀ q, s.runFault o.g a.toNat e.2.2 = some q →
        exec e.1 s = .next (s.failOp o q.1 0 q.2))) ∧
    (o.kind = .eng .xprg d a b z dst → s.blockFault o.g a.toNat 4096 = none →
      let k := x.bank (!x.active)
      let codes := s.bytesAt (scrBase o.g + a.toNat) 4096
      ((∀ c ∈ codes, -31 ≤ c.toInt ∧ c.toInt ≤ 31) → exec .xprgComplete s = .next ((s.setBank o.g t (!x.active)
        { k with st := .prog,
                 codes := Sparse.put (if k.st = .unprog then [] else k.codes) (d.toNat / 16 % 16) codes }).endOp o)) ∧
      ((∃ c ∈ codes, c.toInt < -31 ∨ 31 < c.toInt) → exec .xprgComplete s = .next (s.failOp o 0x0C 0 4))) ∧
    (o.kind = .eng .xswp d a b z dst →
      ((x.bank (!x.active)).st = .cal →
        exec .xswpApply s = .next ((s.setTile o.g t { x with active := !x.active }).endOp o)) ∧
      ((x.bank (!x.active)).st ≠ .cal → exec .xswpApply s = .next (s.failOp o 0x0C 0 2))) ∧
    (o.kind = .eng .xcal d a b z dst →
      let n := d.getLsbD 2
      let k := x.bank n
      (k.st = .unprog → exec .xcalComplete s = .next (s.failOp o 0x0C 0 3)) ∧
      (k.st ≠ .unprog → s.blockFault o.g a.toNat 1024 = none →
        let dev := Config.freeDeviation s.free
        let u := ({ s with free := s.free + 1 } : State).notePeak o.g t n dev
        let k1 : Bank := { k with scales := s.words32 o.g a.toNat 256, swt := b.extractLsb' 0 32 }
        exec .xcalComplete s = .next (if dev ≤ 512
          then (u.setBank o.g t n { k1 with st := .cal, date := (s.core o.g).cyc }).endOp o
          else (u.setBank o.g t n { k1 with st := .drift }).failOp o 0x0B 0 3))) ∧
    (∀ e ∈ [(Eng.xmv, false), (.xmvt, true)], o.kind = .eng e.1 d a b z dst →
      let k := x.bank x.active
      ((k.st = .unprog ∨ k.st = .prog) → exec .xmvProductComplete s = .next (s.failOp o 0x0C 0 1)) ∧
      (k.st = .drift → exec .xmvProductComplete s = .next (s.failOp o 0x0B 0 4)) ∧
      (k.st = .cal → z.toNat % 2 ^ 16 ≠ 0 → z.toNat % 2 ^ 16 * 2 ^ 20 ≤ (s.core o.g).cyc - k.date →
        exec .xmvProductComplete s = .next ((s.setBank o.g t x.active { k with st := .drift }).failOp o 0x0B 0 2)) ∧
      (k.st = .cal → (z.toNat % 2 ^ 16 = 0 ∨ (s.core o.g).cyc - k.date < z.toNat % 2 ^ 16 * 2 ^ 20) → s.productFault o.g a.toNat (d.toNat / 2 ^ 12 % 2 ^ 20) = none →
        let dev := Config.freeDeviation s.free
        let u := ({ s with free := s.free + 257 } : State).notePeak o.g t x.active dev
        let ys := k.outputs e.2 (s.free + 1) (b.extractLsb' 0 32)
          ((s.bytesAt (scrBase o.g + a.toNat) 256).map (fun c => c.toInt))
        exec .xmvProductComplete s = .next (if dev ≤ 512
          then (u.engWrites ((List.range 128).map (fun j =>
            { pa := scrBase o.g + d.toNat / 2 ^ 12 % 2 ^ 20 + 8 * j, data := ys.getD (2 * j + 1) 0 ++ ys.getD (2 * j) 0,
              en := 0xFFFF, tag := true }))).endOp o
          else (u.setBank o.g t x.active { k with st := .drift }).failOp o 0x0B 0 1))))

/-! ### The relational unit (R115, R299 to R309, R376, R378) -/

/-- R115, R299, R301 to R309: the relational instructions whose control cells pass their checks are accepted while the unit's
queue has room, with the tiles counter up by one. The unit runs its oldest operation: one that meets no fault ends with its
status bits in the slot, one that fails leaves a pending fault whose value is its residue, and jstat reads and clears the
bits. An isect in flight may read a word ahead, for its records once and for the sums of mode 1 again, or perform one of its writes
before the others, with the first of which its records stand; R325 allows this where no wait covers it (log 29). That one which has not begun stands still while any publish of its partition waits is the model's reading of
R68, which holds back only the accesses to the region (log 88). Readings of the model, none of them the
spec's words: log 36 (where rows are checked, where a lookup stops and what it reads of the entries that it passes, the order of
the checks within a structure and among them, the extent of a feature block), log 37 (SHARDS against CLEAVE, list entries against
ROWS, a tuple added whole, jenum's keys read first), log 38 (EMPTY delta entries, the disjoint tables at the first level, what an
entry becomes that a delta meets), log 84 (the residue of jexp's mode 3) and log 95 (a row's context is the lookup of its key in
CTXT). What the operations compute from the structures that they read: R107, R301 the entry of a key; R102, R111 the element of a
row; R111, R126, R127, R302 up tables, groups, shards and shard elements; R118 to R120, R303 down tables, contexts and gradients;
R124, R304 the tuples in their order; R125, R305 grouped rows; R128, R306, R389 the levels of a delta; R307 shard lists; R308
common keys and common bits. -/
def Obligations.RelationalUnit : Prop :=
  (∀ (s : State) (g k : Nat) (d a b : Name), s.cur = .slot g k → s.room OpKind.isRel = true →
    let x := (s.val a).v
    let u := s.took a
    let y := (u.val b).v
    let v := u.took b
    (s.val a).t = false →
    (Ready (.jlk d a b) s → (u.val b).t = false → (v.val d).t = false → exec (.jlk d a b) s = .next (s.done
      ((v.took d).accept (.jlk d a b) .tiles (.eng .jlk (v.val d).v x y 0 none)))) ∧
    (∀ e ∈ [(Instr.jenum d a, Eng.jenum), (.isect d a, .isect)], Ready e.1 s → (u.val d).t = false →
      exec e.1 s = .next (s.done ((u.took d).accept e.1 .tiles (.eng e.2 (u.val d).v x 0 0 none)))) ∧
    (Ready (.jexp d a) s → (u.val d).t = false → (u.val d).v &&& ~~~0x3FF = 0 →
      exec (.jexp d a) s = .next (s.done ((u.took d).accept (.jexp d a) .tiles (.eng .jexp (u.val d).v x 0 0 none)))) ∧
    (∀ e ∈ [(Instr.jgs d a b, Eng.jgs, (0xFFFFFFFF000004FF : Word)), (.jdelta d a b, .jdelta, 0xFF), (.cleave d a b, .cleave, 0xFF),
        (.jmul d a b, .jmul, 0x3FF)], Ready e.1 s → (u.val b).t = false → (v.val d).t = false → (v.val d).v &&& ~~~e.2.2 = 0 →
      exec e.1 s = .next (s.done ((v.took d).accept e.1 .tiles (.eng e.2.1 (v.val d).v x y 0 none))))) ∧
  (∀ (s : State) (g k : Nat) (d : Name), s.cur = .slot g k → s.room OpKind.isRel = true → Ready (.jstat d) s →
    exec (.jstat d) s = .next (s.done (s.accept (.jstat d) .tiles (.eng .jstat 0 0 0 0 (s.lateDst d))))) ∧
  (∀ (s : State) (o : Op) (d a b z : Word) (dst : Option Nat), InFlight s o → s.oldestOf o OpKind.isRel = true →
    let start : RelSt := { st := s, c := s.opCtx o, early := o.early, found := o.found, parts := o.parts }
    let mark (r : RelSt) : State := if o.live then r.st.setSlot o.g o.k
      { r.st.slot o.g o.k with relBits := (r.st.slot o.g o.k).relBits ||| r.fl } else r.st
    (∀ e ∈ [(Instr.jlkComplete, Eng.jlk, jlkBody d a b), (.jgsComplete, .jgs, jgsBody d a b), (.jmulComplete, .jmul, jmulBody d a b),
        (.jexpComplete, .jexp, jexpBody d a), (.jenumComplete, .jenum, jenumBody d a), (.jdeltaComplete, .jdelta, jdeltaBody d a b),
        (.cleaveComplete, .cleave, cleaveBody d a b), (.isectComplete, .isect, isectBody d a)],
      o.kind = .eng e.2.1 d a b z dst → (e.2.1 = .isect → s.ev.opt = none) →
      (∀ r, e.2.2 start = (.ok (), r) → exec e.1 s = .next ((mark r).endOp o)) ∧
      (∀ x r, e.2.2 start = (.error x, r) → x.1 ≠ 0 →
        exec e.1 s = .next ((mark (countResidue r).2).failOp o x.1 (BitVec.ofNat 64 r.res) x.2))) ∧
    (∀ n, o.kind = .eng .isect d a b z dst → s.ev.opt = some n →
      let run := exec .isectComplete s
      let kept (p : Op) : Prop := ∃ t, run = .next t ∧ t.op? o.id = some p ∧ t.mem = s.mem ∧ t.tags = s.tags ∧ t.cores = s.cores
      let part (m : Nat) (ws : List (Word × Word)) (r : RelSt) : Prop := ∃ t, run = .next t ∧
        t.op? o.id = some { o with parts := m :: o.parts, found := ws } ∧
        t.mem = r.st.mem ∧ t.tags = r.st.tags ∧ t.bad = r.st.bad ∧ t.cores = r.st.cores
      (o.early = [] → o.found = [] → o.parts = [] → s.publishWaits o.g = true → run = .next s) ∧
      ((o.early ≠ [] ∨ o.found ≠ [] ∨ o.parts ≠ [] ∨ s.publishWaits o.g = false) →
        (n = 0 → ∀ v, Reads (rd8 s.ev.v 0) { start with early := [] } v → kept { o with early := (s.ev.v, v) :: o.early }) ∧
        (n = 1 → (o.found.lookup s.ev.v ≠ none → run = .next s) ∧
          (o.found.lookup s.ev.v = none → ∀ v, Reads (rd8 s.ev.v 0) { start with early := [] } v →
            kept { o with found := (s.ev.v, v) :: o.found })) ∧
        (∀ m, n = m + 2 → (m ∈ o.parts → run = .next s) ∧
          (m ∉ o.parts → ∀ rs ws r r', isectFind d a start = (.ok (rs, ws), r) →
            (4 * rs.length < m → run = .next s) ∧
            (m = 0 → wrN d 4 rs.length r = (.ok (), r') → part m ws r') ∧
            (1 ≤ m → m ≤ 4 * rs.length → wr8 d (32 + 8 * (m - 1)) (rs.flatten.getD (m - 1) 0) r = (.ok (), r') → part m ws r')))) ∧
      (s.publishWaits o.g = true ↔ ∃ e ∈ s.cores, s.partOf e.1 = s.partOf o.g ∧ ∃ x ∈ e.2.slots, x.2.blocked = some .begun)) ∧
    (∀ c, o.kind = .eng .jstat d a b z (some c) → o.live = true → c < numCells o.g →
      ∃ t, exec .jstatComplete s = .next t ∧ t.cell o.g c = { v := (s.slot o.g o.k).relBits.setWidth 64, t := false } ∧
        (t.slot o.g o.k).relBits = 0 ∧ t.op? o.id = none ∧ t.mem = s.mem)) ∧
  -- lookups
  (∀ (t : Table) (r : RelSt) (ks : Nat → Word) (em : Nat → Bool), (∀ i < t.entries, Reads (t.head i) r (ks i, em i)) →
    (∀ i j, i < j → j < t.entries → (ks i).toNat < (ks j).toNat) →
    (∀ sq k, (∀ i < t.entries, ks i = k → t.lookup sq k r = t.elem sq i r) ∧
      ((∀ i < t.entries, ks i ≠ k) → Reads (t.lookup sq k) r (Elem.zero t.h)) ∧
      (∀ i < t.entries, em i = true → Reads (t.elem sq i) r (Elem.zero t.h)) ∧
      (∀ i < t.entries, em i = false → ∀ c q ss, Reads (rd8 (t.entry i) 8) r c → Reads (rd8 (t.entry i) 16) r q →
        Reads (rdWords (t.entry i + 32) (t.h / 2)) r ss → Reads (t.elem sq i) r
          { c := c, s := (unpack32 ss).map dOf32, q := if sq then dOf32 (q.extractLsb' 0 32) else 0 })) ∧
    (∀ dst table key, dst.toNat % 32 = 0 → Reads (readTable table none none none) r t →
      (∀ i < t.entries, ks i = key → em i = false → ∀ ws, Reads (rdWords (t.entry i) (t.esize / 8)) r ws →
        jlkBody dst table key r = wrWords dst ws r) ∧
      ((∀ i < t.entries, ks i = key → em i = true) →
        jlkBody dst table key r = wrWords dst ([key, 0, 0x100000000, 0] ++ List.replicate (t.h / 2) 0) r))) ∧
  -- rows
  (∀ (x : Relation) (i : Nat) (r : RelSt) (k p : Word), Reads (x.key i x.skc) r k →
    (0 < i → Reads (x.key (i - 1) x.skc) r p) →
    ((0 < i → p.toNat ≤ k.toNat ∧ (x.uniq = true → p ≠ k)) → Reads (x.visit i) r ()) ∧
    (0 < i → (k.toNat < p.toNat ∨ (x.uniq = true ∧ p = k)) → x.visit i r = (.error (cRUF, 6), r))) ∧
  (∀ (sq : Bool) (x : Relation) (i : Nat) (kids : List (Nat × Table)) (e : Elem) (r : RelSt) (k : Nat → Word) (l : Nat → Elem),
    (∀ j (h : j < kids.length), Reads (x.key i kids[j].1) r (k j) ∧ Reads (kids[j].2.lookup sq (k j)) r (l j)) →
    Reads (mulLookups sq x i kids e) r ((List.range kids.length).foldl (fun a j => a.mul sq (l j)) e)) ∧
  (∀ (u : UpSrc) (i : Nat) (r : RelSt) (p : List Word) (e : Elem), Reads (u.x.visit i) r () → Reads (u.x.part i) r p →
    Reads (mulLookups u.tr.sq u.x i u.kids (Elem.leaf u.tr.sq p)) r e → Reads (u.elem i) r e) ∧
  -- groups, shards and their elements
  (∀ (x : Relation) (root : Bool) (ckc : Nat) (r : RelSt) (k : Nat → Word),
    (∀ i < x.rows, if root then k i = 0 else Reads (x.visit i) r () ∧ Reads (x.key i ckc) r (k i)) →
    ∃ gs, Reads (groupsFrom x root ckc x.rows 0 []) r gs ∧ (∀ g ∈ gs, 0 < g.count) ∧
      gs.flatMap (fun g => List.range' g.first g.count) = List.range x.rows ∧
      gs.flatMap (fun g => List.replicate g.count g.key) = (List.range x.rows).map k ∧
      (∀ i, i + 1 < gs.length → (gs.map (·.key)).getD i 0 ≠ (gs.map (·.key)).getD (i + 1) 0)) ∧
  (∀ (g : Shard) (n : Nat), 0 < n → let ps := Shard.split n g
    ps.flatMap (fun p => List.range' p.first p.count) = List.range' g.first g.count ∧
    ∀ i (h : i < ps.length), ps[i].key = g.key ∧ 0 < ps[i].count ∧ ps[i].count ≤ n ∧ (i + 1 < ps.length → ps[i].count = n)) ∧
  (∀ (u : UpSrc) (r : RelSt) (gs : List Shard), let nd := u.tr.node u.n
    Reads (groupsFrom u.x (u.n = u.tr.root) nd.ckc u.x.rows 0 []) r gs → nd.cleave ≠ 0 →
    let ss := gs.flatMap (Shard.split nd.cleave)
    (ss.length = nd.shards → Reads u.shards r ss) ∧ (ss.length ≠ nd.shards → u.shards r = (.error (cRUF, 0x0F), r))) ∧
  (∀ (u : UpSrc) (p : Shard) (r : RelSt) (e : Nat → Elem), 0 < p.count →
    (∀ i < p.count, Reads (u.elem (p.first + i)) r (e i)) →
    Reads (u.shard p) r ((List.range (p.count - 1)).foldl (fun a i => a.add (e (i + 1))) (e 0)).round32) ∧
  (∀ (desc : Word) (r : RelSt), (desc.toNat % 32 = 0 → relDesc desc r = rdWords desc 4 r) ∧
    (desc.toNat % 32 ≠ 0 → relDesc desc r = (.error (cRUF, 9), r))) ∧
  -- jmul
  (∀ (c tree desc : Word) (r : RelSt) (t : Tree), let n := c.toNat % 256
    let mode := c.toNat / 256 % 4
    let nd := t.node n
    let r1 := (counts nd.upt 12 32 (32 + 4 * t.h) r).2
    Reads (readTree tree (fun nodes => n < nodes && mode ≠ 3) 0x12) r t →
    (mode = 0 → ∀ u out, Reads (upSrc t n) r1 u → Reads (t.output nd.upt) r1 out →
      (nd.cleaved = false → ∀ (k : Nat → Word) (e : Nat → Elem),
        (∀ i < u.x.rows, Reads (u.elem i) r1 (e i) ∧ Reads (u.key i) r1 (k i)) →
        ∃ b, jmulBody c tree desc r = out.store t false written b r1 ∧ Holds b (groupSum (List.range u.x.rows) k e)) ∧
      (nd.cleaved = true → ∀ (ss : List Shard) (e : Nat → Elem), Reads u.shards r1 ss →
        (∀ i (h : i < ss.length), Reads (u.shard ss[i]) r1 (e i)) →
        ∃ b, jmulBody c tree desc r = out.store t false written b r1 ∧
          Holds b (groupSum (List.range ss.length) (fun i => (ss.map (·.key)).getD i 0) e))) ∧
    (mode = 1 → nd.cleaved = true → ∀ ws u lh set ss, Reads (relDesc desc) r ws → Reads (upSrc t n) r u →
      Reads (readListHead (ws.getD 0 0)) r lh → Reads (t.output (ws.getD 1 0)) r set → Reads u.shards r ss →
      let first := (ws.getD 2 0).toNat % 2 ^ 32
      let count := (ws.getD 2 0).toNat / 2 ^ 32
      first + count ≤ nd.shards → nd.shards ≤ set.cap →
      ∃ one : Nat → RM Unit,
        jmulBody c tree desc r = (List.range count).forM one (rowsAt (set.entry first) set.esize count r).2 ∧
        ∀ j r' p e, Reads (readShard (ws.getD 0 0) (first + j)) r' p → p.first + p.count ≤ u.x.rows →
          Reads (u.shard p) r' e →
          one j r' = (do wrWords (set.entry (first + j)) (e.words t.sq p.key); written) r') ∧
    (mode = 2 → nd.cleaved = true → ∀ ws x set out ss es, Reads (relDesc desc) r1 ws → Reads (readTile t n) r1 x →
      Reads (t.table (ws.getD 1 0)) r1 set → nd.shards ≤ set.cap → Reads (t.output nd.upt) r1 out →
      Reads (UpSrc.shards { tr := t, n := n, x := x, kids := [] }) r1 ss → Reads (set.all t.sq true nd.shards) r1 es →
      ∃ b, jmulBody c tree desc r = out.store t false written b r1 ∧ Holds b (groupSum (List.range es.length)
        (fun i => (es.map (·.1)).getD i 0) (fun i => (es.map (·.2.2)).getD i (Elem.zero t.h))))) ∧
  -- jexp
  (∀ (c tree : Word) (r : RelSt) (t : Tree), let n := c.toNat % 256
    let mode := c.toNat / 256 % 4
    let nd := t.node n
    Reads (readTree tree (fun nodes => n < nodes) 0x12) r t →
    (mode = 1 → jexpBody c tree r = jexpContext t n r) ∧ (mode = 2 → jexpBody c tree r = jexpGradient t n r) ∧
    (mode = 3 → jexpBody c tree r = (do jexpContext t n; jexpGradient t n) r) ∧
    (mode = 0 → n = t.root → jexpBody c tree r = (.error (cRUF, 0x0B), r)) ∧
    (mode = 0 → n ≠ t.root → ∀ x own sibs out (p : Nat → List Word) (k : Nat → Word) (e : Nat → Elem),
      let r1 := (counts nd.dnt 12 32 (32 + 4 * t.h) r).2
      Reads (readTile t nd.parent) r1 x → (nd.parent = t.root → own = []) →
      (nd.parent ≠ t.root → ∃ d, Reads (t.table (t.node nd.parent).dnt) r1 d ∧ own = [((t.node nd.parent).ckc, d)]) →
      Reads (t.childTables ((t.children nd.parent).filter (fun m => m ≠ n))) r1 sibs → Reads (t.output nd.dnt) r1 out →
      (∀ i < x.rows, Reads (x.visit i) r1 () ∧ Reads (x.part i) r1 (p i) ∧
        Reads (mulLookups t.sq x i (own ++ sibs) (Elem.leaf t.sq (p i))) r1 (e i) ∧ Reads (x.key i nd.pkc) r1 (k i)) →
      ∃ b, jexpBody c tree r = out.store t false written b r1 ∧ Holds b (groupSum (List.range x.rows) k e))) ∧
  (∀ (t : Tree) (n : Nat) (r : RelSt) x down kids out, let nd := t.node n
    let r1 := (counts nd.ctxt 12 32 (32 + 4 * t.h) r).2
    Reads (readTile t n) r1 x → (n = t.root → down = []) → (n ≠ t.root → ∃ d, Reads (t.table nd.dnt) r1 d ∧ down = [(nd.ckc, d)]) →
    Reads (t.childTables (t.children n)) r1 kids → Reads (t.output nd.ctxt) r1 out → x.rows ≤ out.cap →
    ∃ row : Nat → RM Unit,
      jexpContext t n r = (do wrN (out.va + 10) 2 t.ring; (List.range x.rows).forM row; wrN out.va 4 x.rows) r1 ∧
      ∀ i r' e0 e, Reads (x.visit i) r' () → (n = t.root → e0 = Elem.unit t.h) →
        (∀ a ∈ down, ∃ k, Reads (x.key i a.1) r' k ∧ Reads (a.2.lookup t.sq k) r' e0) → Reads (mulLookups t.sq x i kids e0) r' e →
        row i r' = (do wrWords (out.entry i) (e.words t.sq (BitVec.ofNat 64 i)); written) r') ∧
  (∀ (t : Tree) (n : Nat) (r : RelSt) x ctx, let nd := t.node n
    let r1 : RelSt := { r with cnt := none, res := 0, slots := (0, 0, 0) }
    Reads (readTile t n) r1 x → Reads (t.table nd.ctxt) r1 ctx → x.rows ≤ ctx.cap → nd.grad.toNat % 64 = 0 →
    ∃ row : Nat → RM Unit, jexpGradient t n r = (List.range x.rows).forM row (rowsAt nd.grad (4 * t.h) x.rows r1).2 ∧
      ∀ i r' (e : Elem) (p : List Word), Reads (ctx.lookup t.sq (BitVec.ofNat 64 i)) r' e → Reads (x.part i) r' p →
        row i r' = (do
          wrWords (nd.grad + BitVec.ofNat 64 (4 * t.h * i)) (pack32 ((p.zip e.s).map (fun (a : Word × Word) =>
            f32OfD (dMul 0x4000000000000000 (dAdd (dMul (rnd64 0 { x := numOfInt e.c.toInt }) a.1) a.2)))))
          written) r') ∧
  -- jenum
  (∀ (t : Tree) (keys : Sparse (List (List Word))) (order : List Nat), order.Nodup →
    (∀ pre n post, order = pre ++ n :: post → n ≠ t.root → (t.node n).parent ∈ pre) →
    let key (n i c : Nat) : Word := ((Sparse.get [] keys n).getD i []).getD c 0
    (∀ f : Nat → Nat, (∃ p ∈ allTuples t keys order, ∀ n ∈ order, Sparse.get 0 p n = f n) ↔
      ∀ n ∈ order, f n < (Sparse.get [] keys n).length ∧
        (n ≠ t.root → key n (f n) (t.node n).ckc = key (t.node n).parent (f (t.node n).parent) (t.node n).pkc)) ∧
    (allTuples t keys order).Pairwise (fun p q => order.map (Sparse.get 0 p) < order.map (Sparse.get 0 q))) ∧
  (∀ (tuples tree : Word) (r : RelSt), ∃ r1 : RelSt, r1.st = r.st ∧ r1.c = r.c ∧ r1.res = r.res ∧ r1.fl = r.fl ∧
    ∀ t d (x : Nat → Relation) (k : Nat → List (List Word)), Reads (readTree tree (fun _ => true) 0x12) r1 t →
      let nodes := t.nodes.length
      let order := t.preorder nodes t.root
      Reads (readTuples tuples nodes) r1 d → (∀ n ∈ order, Reads (readTile t n) r1 (x n) ∧ Reads (x n).keys r1 (k n)) →
      let rest := (allTuples t (order.foldl (fun m n => Sparse.put m n (k n)) []) order).drop d.cursor.toNat
      let out := rest.take d.cap
      ∃ one : Nat → RM Unit, jenumBody tuples tree r = (do
          (List.range out.length).forM one
          wr8 tuples 0x18 (if out = [] ∨ rest.length = out.length then BitVec.allOnes 64
            else d.cursor + BitVec.ofNat 64 out.length)
          wrN tuples 4 out.length) r1 ∧
        ∀ i < out.length, one i = (do
          (List.range nodes).forM (fun j =>
            wrN (tuples + BitVec.ofNat 64 (0x20 + 4 * nodes * i + 4 * j)) 4 (Sparse.get 0 (out.getD i []) j))
          written)) ∧
  -- jgs
  (∀ (c tree desc : Word) (r : RelSt) (t : Tree) (ws : List Word), let n := c.toNat % 256
    let ex := (c.extractLsb' 32 32).toInt
    let tt := ws.getD 0 0
    let gb := ws.getD 1 0
    let grp := ws.getD 2 0
    Reads (readTree tree (fun nodes => n < nodes && windowExpOk ex) 0x0E) r t → Reads (relDesc desc) r ws → grp.toNat % 8 = 0 →
    ∀ x, Reads (readTile t n) r x →
    (c.getLsbD 10 = false → gb.toNat % 4 = 0 → ∀ d, Reads (readTuples tt t.nodes.length) r d →
      ∃ one : Nat → RM Unit, jgsBody c tree desc r = (List.range d.tuples).forM one r ∧
        ∀ i r' m, Reads (rdN (tt + BitVec.ofNat 64 (0x20 + 4 * t.nodes.length * i + 4 * n)) 4) r' m →
          (x.rows ≤ m → one i r' = (.error (cRUF, 0x0E), r')) ∧
          (m < x.rows → ∀ (gs : List Nat) (old : List Word), gs.length = t.h →
            (∀ j < t.h, Reads (rdN (gb + BitVec.ofNat 64 (4 * t.h * i + 4 * j)) 4) r' (gs.getD j 0)) →
            Reads (rdWords (grp + BitVec.ofNat 64 (8 * t.h * m)) t.h) r' old →
            let cv (g : Nat) : Int × BitVec 5 := windowOf 64 ex (num32 (BitVec.ofNat 32 g))
            one i r' = (do
              wrWords (grp + BitVec.ofNat 64 (8 * t.h * m))
                ((List.range t.h).map (fun j => old.getD j 0 + BitVec.ofInt 64 (cv (gs.getD j 0)).1))
              gs.forM (fun g => raiseRel (cv g).2)
              written) r')) ∧
    (c.getLsbD 10 = true → (t.node n).grad.toNat % 64 = 0 →
      ∃ row : Nat → RM Unit,
        jgsBody c tree desc r = (List.range x.rows).forM row (rowsAt (t.node n).grad (4 * t.h) x.rows r).2 ∧
        ∀ i r' (vs : List Word), Reads (rdWords (grp + BitVec.ofNat 64 (8 * t.h * i)) t.h) r' vs →
          row i r' = (do
            wrWords ((t.node n).grad + BitVec.ofNat 64 (4 * t.h * i)) (pack32 (vs.map (fun (v : Word) => (windowOut 0 v.toInt ex).1)))
            vs.forM (fun (v : Word) => raiseRel (windowOut 0 v.toInt ex).2)
            written) r')) ∧
  -- jdelta
  (∀ (t : Tree) (n : Nat) (d up : Table) (w : Word) (r : RelSt) (ds us : List (Word × Bool × Elem)) (kept : List (List Word))
    (other : Option Word),
    Reads (t.table (t.node n).upt) r up → Reads (d.all t.sq false d.entries) r ds → Reads (up.all t.sq false up.entries) r us →
    ds.Pairwise (fun x y => x.1.toNat < y.1.toNat) → us.Pairwise (fun x y => x.1.toNat < y.1.toNat) →
    let del (key : Nat) : Option Elem := (ds.find? (fun z => z.1.toNat = key && !z.2.1)).map (·.2.2)
    kept.length = us.length →
    (∀ i (h : i < us.length), if us[i].2.1
      then kept.getD i [] = [us[i].1, 0, 0x100000000, 0] ++ List.replicate (t.h / 2) 0
      else Reads (rdWords (up.entry i) (up.esize / 8)) r (kept.getD i [])) →
    (∀ w', other = some w' → n ≠ t.root → Reads (disjointTables t d w w') r ()) →
    let was (key : Nat) : Option (Elem × List Word) :=
      ((us.zip kept).find? (fun z => z.1.1.toNat = key)).map (fun z => (z.1.2.2, z.2))
    let old := us.map (fun z => z.1.toNat)
    ∃ b : Sparse UpEntry, Holds b (fun key => match was key, del key with
        | none, none => none
        | some x, none => some (x.1, some x.2)
        | some x, some e => some (x.1.add e, none)
        | none, some e => some (e, none)) ∧
      (n = t.root → b.length ≤ up.cap →
        deltaLevel t n d w other r = (do storeUp t up old b; written; pure none) r) ∧
      (∀ x wt (kt : Nat → Table) (p : Nat → List Word) (k k' : Nat → Word) (l : Nat → Nat → Elem), n ≠ t.root → b.length ≤ up.cap →
        let q := (t.node n).parent
        Reads (readTile t q) r x → (∀ m ∈ t.children q, m ≠ n → Reads (t.table (t.node m).upt) r (kt m)) → Reads (t.output w) r wt →
        (∀ i < x.rows, Reads (x.visit i) r () ∧ Reads (x.key i (t.node n).pkc) r (k i) ∧ ((del (k i).toNat).isSome = true →
          Reads (x.part i) r (p i) ∧ (if q = t.root then k' i = 0 else Reads (x.key i (t.node q).ckc) r (k' i)) ∧
          ∀ m ∈ t.children q, m ≠ n → ∃ c, Reads (x.key i (t.node m).pkc) r c ∧ Reads ((kt m).lookup t.sq c) r (l m i))) →
        let e (i : Nat) : Elem := (t.children q).foldl (fun a m =>
          a.mul t.sq (if m = n then (del (k i).toNat).getD (Elem.zero t.h) else l m i)) (Elem.leaf t.sq (p i))
        ∃ nb : Build, Holds nb (groupSum ((List.range x.rows).filter (fun i => (del (k i).toNat).isSome)) k' e) ∧
          deltaLevel t n d w other r = (do
            wt.store t true (pure ()) nb
            storeUp t up old b
            written
            let w' ← t.table w true
            pure (some (q, w'))) r)) ∧
  (∀ (c tree desc : Word) (r : RelSt) (t : Tree) (ws : List Word) (d : Table), let n := c.toNat % 256
    Reads (readTree tree (fun nodes => n < nodes) 0x12) r t →
    ((t.node n).bag = true → jdeltaBody c tree desc r = (.error (cRUF, 0x0C), r)) ∧
    ((t.node n).bag = false → Reads (relDesc desc) r ws → Reads (t.table (ws.getD 0 0) true) r d →
      jdeltaBody c tree desc r = deltaLevels t (t.nodes.length + 1) n d (ws.getD 1 0) (ws.getD 2 0) true r)) ∧
  (∀ (t : Tree) (f n : Nat) (d : Table) (w w' : Word) (first : Bool) (r : RelSt),
    let level := deltaLevel t n d w (if first then some w' else none) r
    (∀ r', level = (.ok none, r') → deltaLevels t (f + 1) n d w w' first r = (.ok (), r')) ∧
    (∀ q d' r', level = (.ok (some (q, d')), r') → deltaLevels t (f + 1) n d w w' first r = deltaLevels t f q d' w' w false r')) ∧
  (∀ (t : Tree) (d x y : Table) (w w' : Word) (r : RelSt), Reads (t.output w) r x → Reads (t.output w') r y →
    let apart (a b : Table) : Prop := b.va.toNat + 32 + (32 + 4 * b.h) * b.cap ≤ a.va.toNat ∨
      a.va.toNat + 32 + (32 + 4 * a.h) * a.cap ≤ b.va.toNat
    ((apart d x ∧ apart d y ∧ apart x y) → Reads (disjointTables t d w w') r ()) ∧
    (¬ (apart d x ∧ apart d y ∧ apart x y) → disjointTables t d w w' r = (.error (cRUF, 9), r))) ∧
  -- cleave
  (∀ (c tree list : Word) (r : RelSt) (t : Tree), let n := c.toNat % 256
    let nd := t.node n
    let rec' := t.va + BitVec.ofNat 64 (64 * (n + 1))
    let r1 := (counts list 4 16 16 r).2
    Reads (readTree tree (fun nodes => n < nodes) 0x12) r t →
    (nd.cleave = 0 → cleaveBody c tree list r = (do wrN (rec' + 0x34) 4 0; wrN (rec' + 0x0C) 2 (nd.flags % 2)) r) ∧
    (nd.cleave ≠ 0 → ∀ x l gs, Reads (readTile t n) r1 x → Reads (readListHead list) r1 l →
      Reads (groupsFrom x (n = t.root) nd.ckc x.rows 0 []) r1 gs →
      let ss := gs.flatMap (Shard.split nd.cleave)
      (l.2 < ss.length → cleaveBody c tree list r = (.error (cRUF, 0x0F), { r1 with slots := (0, 0, 0) })) ∧
      (ss.length ≤ l.2 → ∃ one : Nat → RM Unit, cleaveBody c tree list r = (do
          (List.range ss.length).forM one
          wrN list 4 ss.length
          wrN (rec' + 0x34) 4 ss.length
          wrN (rec' + 0x0C) 2 (nd.flags % 2 + 2)) r1 ∧
        ∀ i (h : i < ss.length), one i = (do
          wrWords (list + BitVec.ofNat 64 (16 + 16 * i))
            [ss[i].key, BitVec.ofNat 64 (ss[i].first % 2 ^ 32 + ss[i].count % 2 ^ 32 * 2 ^ 32)]
          written)))) ∧
  -- isect
  (∀ lists : List (List Word), 2 ≤ lists.length → lists.length ≤ 4 →
    (∀ l ∈ lists, l.Pairwise (fun x y => x.toNat < y.toNat)) →
    (keyRecords lists).map (fun w => w.getD 0 0) = (lists.headD []).filter (fun k => lists.all (fun l => l.contains k)) ∧
    ∀ w ∈ keyRecords lists, ∃ ix : Nat → Nat, (∀ j (h : j < lists.length), ix j < lists[j].length ∧
        lists[j].getD (ix j) 0 = w.getD 0 0) ∧ (∀ j, lists.length ≤ j → ix j = 0) ∧
      w = [w.getD 0 0, BitVec.ofNat 64 (ix 0 % 2 ^ 32 + 2 ^ 32 * (ix 1 % 2 ^ 32)),
        BitVec.ofNat 64 (ix 2 % 2 ^ 32 + 2 ^ 32 * (ix 3 % 2 ^ 32)), 0]) ∧
  (∀ (lists sums : List (List Word)) (len : Nat), ∃ a : Nat → Word,
    (∀ w j, j < 64 → (a w).getLsbD j = lists.all (fun l => (l.getD w 0).getLsbD j)) ∧
    let rank (w i : Nat) : Nat := (((sums.getD i []).take w).map (fun x => bitsBelow x 64)).sum % 2 ^ 32
    bitmapRecords lists sums len = ((List.range len).filter (fun w => a w ≠ 0)).map (fun w =>
      [a w, BitVec.ofNat 64 (rank w 0 + 2 ^ 32 * rank w 1), BitVec.ofNat 64 (rank w 2 + 2 ^ 32 * rank w 3), BitVec.ofNat 64 w])) ∧
  (∀ (out desc : Word) (r : RelSt) (ws hd : List Word) (lists sums : List (List Word)),
    let r1 := (counts out 4 32 32 r).2
    let q : RelSt := { r1 with early := r.found }
    let w0 := (ws.getD 0 0).toNat
    let k := w0 % 2 ^ 8
    let mode := w0 / 2 ^ 8 % 2 ^ 8
    let len (i : Nat) : Nat := (ws.getD (5 + i / 2) 0).toNat / 2 ^ (32 * (i % 2)) % 2 ^ 32
    desc.toNat % 64 = 0 → out.toNat % 32 = 0 → Reads (rdWords desc 8) q ws → Reads (rdWords out 4) q hd →
    2 ≤ k → k ≤ 4 → mode < 2 → (∀ i < 4, k ≤ i → ws.getD (1 + i) 0 = 0 ∧ len i = 0) →
    (mode = 1 → ∀ i < k, len i = len 0) → (∀ i, 1 ≤ i → i < 4 → hd.getD i 0 = 0) → lists.length = k →
    (∀ i (h : i < lists.length), Reads (readList (ws.getD (1 + i) 0) (len i) (mode = 0)) q lists[i]) →
    (mode = 1 → sums.length = k ∧ ∀ i (h : i < sums.length), Reads (readList (ws.getD (1 + i) 0) (len i) false) r1 sums[i]) →
    let rs := if mode = 0 then keyRecords lists else bitmapRecords lists sums (len 0)
    (rs.length ≤ (hd.getD 0 0).toNat / 2 ^ 32 → isectFind out desc r = (.ok (rs, wordsFrom desc ws ++ wordsFrom out hd ++
      ((List.range k).zip lists).flatMap (fun e => wordsFrom (ws.getD (1 + e.1) 0) e.2)), r1)) ∧
    ((hd.getD 0 0).toNat / 2 ^ 32 < rs.length → isectBody out desc r = (.error (cRUF, 8), { r1 with slots := (0, 0, 0) })) ∧
    (rs.length ≤ (hd.getD 0 0).toNat / 2 ^ 32 → ∃ one : Nat → RM Unit,
      isectBody out desc r = (do
        (List.range rs.length).forM one
        if 0 ∈ r.parts then pure () else wrN out 4 rs.length) r1 ∧
      ∀ i < rs.length, ∀ r', r'.parts = r.parts → one i r' = (do
        mayWrite (out + BitVec.ofNat 64 (32 + 32 * i)) 4
        (List.range 4).forM (fun j =>
          if 4 * i + j + 1 ∈ r.parts then pure ()
          else wr8 out (32 + 32 * i + 8 * j) ((rs.getD i []).getD j 0))
        written) r'))

/-! ### Parameter records (R151 to R162, R311 to R315) -/

/-- R311 to R315: pct, prd, pstat, parm and povl whose operands and descriptors pass their checks are accepted, parm and povl once
no access of their slot to the descriptor and no prd is in flight (log 83); readings of the model are that pstat counts among the
loads (log 24), the order of parm's refusals, and that a contribution is held before the header is checked (log 40). prd and pstat are read once they are first among the accesses of their slot, no promise of the spec (log 7); prd answers the weights of the generation that it names while the record holds them, and code 3 for the generation before
a GEN of 0 (R312). The first prd after an update that returns weights names the slot which may yet read what the update has
overwritten, and a second one ends that (log 101).
R87, R152, R154, R155: a contribution at a busy record is held, and the 65th waits; where others are held for a record that is not
busy any more they go before a newer one, as does one that is itself held. At any other record it is
applied: the sixteen words of ACC from its offset on take the added values, ARRIVED rises by one, SAT, INX and NV join the flags, a
record that reaches EXPECT is QUEUED at its mason unit, and every other byte is as it was; or it is refused, each condition with its
subcode. Held contributions go in the order of their arrival, up to one that makes the record QUEUED again.
R151, R153: parm waits for an update that is due or runs, discards what is held, writes the header, both weight slots, and zeros as
moments and accumulator, and no other byte; what waited then goes on. R162: povl loads its rule slot.
R156 to R158: a mason unit takes the oldest QUEUED record; that it drops one no longer QUEUED is a reading (log 42). The record
becomes UPDATING, each word of ACC its FP32 value, and the registers those of R157's table; without an overlay, or with a bad word,
it is FAULTED with 5 or 7, and with 2 where a seal has locked it (log 86). An overlay is given up after 2^24 cycles. -/
def Obligations.ParameterRecords : Prop :=
  (∀ (s : State) (g k : Nat) (d a b : Name) (t : Target), s.cur = .slot g k → s.me.stores < 255 → s.me.loads < 255 →
    (Ready (.pct d a b) s → (s.val a).t = false → ((s.took a).val d).t = false → (∀ x ∈ (s.vec b).2, x = false) →
      a.isPort = false → d.isPort = false → exec (.pct d a b) s = .next (s.done
        (s.accept (.pct d a b) .stores (.contrib (s.val a).v (s.val d).v (s.vec b).1)))) ∧
    (Ready (.prd d a b) s → (s.val a).t = false → ((s.took a).val b).t = false →
      exec (.prd d a b) s = .next (s.done (((s.took a).took b).accept (.prd d a b)
        .loads (.eng .prd 0 (s.val a).v ((s.took a).val b).v 0 (s.lateDst d))))) ∧
    (Ready (.pstat d a) s → (s.val a).t = false → exec (.pstat d a) s = .next (s.done ((s.took a).accept (.pstat d a)
      .loads (.eng .pstat 0 (s.val a).v 0 0 (s.lateDst d))))) ∧
    (a.isPort = false → (s.val a).t = false →
      let f (j : Nat) : Word := s.read64 (t.pa + 8 * j)
      (Ready (.parm a) s → access (s.val a).v 32 32 .load .plain false s = .ok (t, s) → s.recordHeld g k t.pa 32 = true →
        exec (.parm a) s = .next { s with turn := .forfeited }) ∧
      (Ready (.povl a) s → access (s.val a).v 64 64 .copyRead .plain false s = .ok (t, s) → t.cls = 0 →
        s.recordHeld g k t.pa 64 = true → exec (.povl a) s = .next { s with turn := .forfeited }) ∧
      (Ready (.parm a) s → access (s.val a).v 32 32 .load .plain false s = .ok (t, s) → s.recordHeld g k t.pa 32 = false →
        s.badWord t.pa 32 = none →
        (f 0).toNat % 64 = 0 → (f 1).toNat % 4 = 0 → (f 2).extractLsb' 36 12 = 0 → f 3 = 0 →
        let h := (f 2).toNat / 2 ^ 48
        h % 16 = 0 → 16 ≤ h → h ≤ 1024 →
        exec (.parm a) s = .next (s.done (s.accept (.parm a) .stores
          (.parm (f 0) (f 1) ((f 2).extractLsb' 0 32) ((f 2).toNat / 2 ^ 32 % 2 ^ 8) h)))) ∧
      (Ready (.povl a) s → access (s.val a).v 64 64 .copyRead .plain false s = .ok (t, s) → t.cls = 0 →
        s.recordHeld g k t.pa 64 = false → s.badWord t.pa 64 = none →
        let words := (s.read32 (t.pa + 8)).toNat
        let e := s.read32 (t.pa + 12)
        (f 0).toNat % 64 = 0 → 1 ≤ words → words ≤ 1024 → windowExpOk e.toInt = true → (f 6).toNat < 16 → f 7 = 0 →
        exec (.povl a) s = .next (s.done (s.accept (.povl a) .stores
          (.povl (f 0) words e ((List.range 8).map (fun j => s.read32 (t.pa + 16 + 4 * j))) (f 6).toNat)))))) ∧
  (∀ (s : State) (o : Op), InFlight s o → s.heldBack o = false →
    (∀ va off x pa room, o.kind = .contrib va off x → s.recAccess o va true = .ok (pa, room) →
      let m := s.mason (ownerOf pa)
      let busy : Prop := ((s.record pa).st = 1 ∨ (s.record pa).st = 2) ∧ s.badWord pa 64 = none
      (∀ e ∈ s.masons, ∀ c ∈ e.2.held, c.op ≠ o.id) →
      (busy → m.held.length < 64 → exec .contributionArrival s = .next
        (s.setMason (ownerOf pa) { m with held := m.held ++ [{ pa := pa, off := off, g := x, op := o.id }] })) ∧
      (busy → 64 ≤ m.held.length → exec .contributionArrival s = .next s) ∧
      (¬ busy → (∃ c ∈ m.held, c.pa = pa) → exec .contributionArrival s = .next (s.flushRecord pa)) ∧
      (¬ busy → (∀ c ∈ m.held, c.pa ≠ pa) → exec .contributionArrival s = .next (s.contribute o pa off x))) ∧
    (∀ va off x pa, o.kind = .contrib va off x → (∃ e ∈ s.masons, ∃ c ∈ e.2.held, c.op = o.id) →
      (∀ e ∈ s.masons, ∀ c ∈ e.2.held, c.op = o.id → c.pa = pa) → exec .contributionArrival s = .next (s.flushRecord pa)) ∧
    (∀ e ∈ [(Instr.prdComplete, Eng.prd), (.pstatComplete, .pstat)], ∀ w va y z dst, o.kind = .eng e.2 w va y z dst →
      s.isFirst o = false → exec e.1 s = .next s) ∧
    (∀ va y z dst pa room w, o.kind = .eng .prd w va y z dst → s.isFirst o = true → s.recAccess o va false = .ok (pa, room) →
      s.recFault pa false = none →
      let r := s.record pa
      let j := y.toNat % 2 ^ 10
      let age := (r.gen.toNat + 2 ^ 54 - y.toNat / 2 ^ 10) % 2 ^ 54
      let answers (code : Nat) (ws : List Word) : State := (s.endOp o).arrive o dst
        ((ws ++ [BitVec.ofNat 64 (r.gen.toNat * 2 ^ 10 + code)]).map (fun v => { v := v }))
      let answer (code : Nat) (ws : List Word) : Host.Outcome State Fault Refusal := .next (answers code ws)
      let weights (b : Bool) : List Word := (List.range 8).map (fun i => s.read64 (r.weight b j + 8 * i))
      j % 16 = 0 → j < r.h →
      (age = 0 → s.badWord (r.weight (r.flags.getLsbD 0) j) 64 = none →
        exec .prdComplete s = .next ((answers 0 (weights (r.flags.getLsbD 0))).noteReader o.g o.k pa)) ∧
      (age = 1 → r.gen ≠ 0 → r.st = 0 → s.badWord (r.weight (!r.flags.getLsbD 0) j) 64 = none →
        exec .prdComplete s = .next ((answers 1 (weights (!r.flags.getLsbD 0))).noteReader o.g o.k pa)) ∧
      (age = 1 → r.gen ≠ 0 → r.st ≠ 0 → exec .prdComplete s = answer 2 (List.replicate 8 0)) ∧
      (age = 1 → r.gen = 0 → exec .prdComplete s = answer 3 (List.replicate 8 0)) ∧
      (2 ≤ age → age < 2 ^ 53 → exec .prdComplete s = answer 2 (List.replicate 8 0)) ∧
      (2 ^ 53 ≤ age → exec .prdComplete s = answer 3 (List.replicate 8 0))) ∧
    (∀ va y z dst pa room w, o.kind = .eng .pstat w va y z dst → s.isFirst o = true → s.recAccess o va false = .ok (pa, room) →
      s.recFault pa false = none →
      let r := s.record pa
      ∃ v : Word, exec .pstatComplete s = .next ((s.endOp o).arrive o dst [{ v := v }]) ∧
        v.toNat = r.status.toNat + r.flags.toNat % 32 * 2 ^ 8 + r.arrived.toNat * 2 ^ 16 + r.gen.toNat % 2 ^ 16 * 2 ^ 48) ∧
    (∀ rec' src expect rule h e, o.kind = .parm rec' src expect rule h → s.recAccess o rec' true = .error e →
      exec .parmApply s = .next (s.failOp o e.1 0 e.2).flushHeld) ∧
    (∀ rec' src expect rule h pa room, o.kind = .parm rec' src expect rule h → s.recAccess o rec' true = .ok (pa, room) →
      (s.inSealTable pa (64 + 24 * h) = true → exec .parmApply s = .next (s.failOp o 0x07 0 0).flushHeld) ∧
      (∀ e, s.inSealTable pa (64 + 24 * h) = false → s.srcWords o src h = .error e → e.1 ≠ 0 →
        exec .parmApply s = .next (s.failOp o e.1 0 e.2).flushHeld)) ∧
    (∀ rec' src expect rule h pa room ws, o.kind = .parm rec' src expect rule h → s.recAccess o rec' true = .ok (pa, room) →
      s.inSealTable pa (64 + 24 * h) = false → s.srcWords o src h = .ok ws →
      let m := s.mason (ownerOf pa)
      ((m.run = some pa ∨ pa ∈ m.queue) → exec .parmApply s = .next s) ∧
      (m.run ≠ some pa → pa ∉ m.queue →
        (Sparse.has m.rules rule = false → exec .parmApply s = .next (s.failOp o 0x0F 0 4).flushHeld) ∧
        (Sparse.has m.rules rule = true → room < 64 + 24 * h →
          exec .parmApply s = .next (s.failOp o 0x0F 0 5).flushHeld) ∧
        (Sparse.has m.rules rule = true → 64 + 24 * h ≤ room → rule < 16 → recHOk h = true → RecordRun pa (64 + 24 * h) →
          (∀ e ∈ s.masons, ∀ c ∈ e.2.held, c.pa = pa ∨ ((c.pa + 64 ≤ pa ∨ pa + 64 + 24 * h ≤ c.pa) ∧
            ((s.record c.pa).st = 1 ∨ (s.record c.pa).st = 2) ∧ s.inSealTable c.pa 64 = false)) →
          ∃ t, exec .parmApply s = .next t ∧ t.op? o.id = none ∧
            t.record pa = { pa := pa, gen := 0, expect := expect, arrived := 0, rule := rule, status := 0, flags := 0, h := h,
                            e := (Sparse.get {} m.rules rule).e } ∧
            t.readN (pa + 0x16) 2 = 0 ∧ t.readN (pa + 0x1C) 36 = 0 ∧
            (∀ i < h, t.read32 (pa + 0x40 + 4 * i) = ws.getD i 0 ∧ t.read32 (pa + 0x40 + 4 * h + 4 * i) = ws.getD i 0 ∧
              t.read32 (pa + 0x40 + 8 * h + 4 * i) = 0 ∧ t.read32 (pa + 0x40 + 12 * h + 4 * i) = 0 ∧
              t.read64 (pa + 0x40 + 16 * h + 8 * i) = 0) ∧
            (∀ a, (a < pa ∨ pa + 64 + 24 * h ≤ a) → t.byte a = s.byte a) ∧
            t.mason (ownerOf pa) = { m with held := m.held.filter (fun c => c.pa ≠ pa) } ∧
            (∀ c ∈ m.held, c.pa = pa → t.op? c.op = none)))) ∧
    (∀ img n e hp slot ws, o.kind = .povl img n e hp slot → s.imageWords o n img none = .ok ws → (s.mason o.g).run = none →
      ∃ t, exec .povlApply s = .next t ∧ t.op? o.id = none ∧ t.mem = s.mem ∧
        t.mason o.g = { s.mason o.g with rules := Sparse.put (s.mason o.g).rules slot { image := ws, e := e, hp := hp } })) ∧
  (∀ (s : State) (g k pa : Nat), let m := s.mason (ownerOf pa)
    ((∀ x, m.stale = some x → x.record ≠ pa) → s.noteReader g k pa = s) ∧
    (∀ x, m.stale = some x → x.record = pa → s.noteReader g k pa = s.setMason (ownerOf pa)
      { m with stale := if x.reader = none then some { x with reader := some (g, k) } else none })) ∧
  -- what a contribution that is not held back does
  (∀ (s : State) (o : Op) (pa : Nat) (off : Word) (x : List (BitVec 32)),
    let r := s.record pa
    let sound : Prop := recHOk r.h = true ∧ windowExpOk r.e.toInt = true
    let fails (t : State) (code sub : Nat) : Prop := t = s.failOp o code 0 sub
    let open' : Prop := s.inSealTable pa 64 = false
    (s.inSealTable pa 64 = true → fails (s.contribute o pa off x) 0x07 0) ∧
    (open' → s.badWord pa 64 ≠ none → s.contribute o pa off x = (s.failOp o 0x12 0 3).write8 (pa + 0x11) 0x73) ∧
    (open' → s.badWord pa 64 = none →
      (¬ sound → fails (s.contribute o pa off x) 0x0F 3) ∧
      (sound → 3 ≤ r.st → fails (s.contribute o pa off x) 0x0F 2) ∧
      (sound → r.st < 3 → (off.toNat % 16 ≠ 0 ∨ r.h ≤ off.toNat) → fails (s.contribute o pa off x) 0x0F 1) ∧
      (sound → r.st < 3 → off.toNat % 16 = 0 → off.toNat < r.h →
        (s.inSealTable (r.acc off.toNat) 128 = true → fails (s.contribute o pa off x) 0x07 0) ∧
        (s.inSealTable (r.acc off.toNat) 128 = false → s.badWord (r.acc off.toNat) 128 ≠ none →
          s.contribute o pa off x = (s.failOp o 0x12 0 3).write8 (pa + 0x11) 0x73) ∧
        (s.inSealTable (r.acc off.toNat) 128 = false → s.badWord (r.acc off.toNat) 128 = none → x.length = 16 →
          RecordRun pa (64 + 24 * r.h) →
          let t := s.contribute o pa off x
          let term (i : Nat) : Int × Fl := windowOf 64 r.e.toInt (num32 (x.getD i 0))
          let full : Prop := r.expect ≠ 0 ∧ r.arrived + 1 = r.expect
          t.op? o.id = none ∧
          (∀ i < 16, t.read64 (r.acc (off.toNat + i)) = s.read64 (r.acc (off.toNat + i)) + BitVec.ofInt 64 (term i).1) ∧
          (∃ fl, t.record pa = { r with arrived := r.arrived + 1, status := if full then 1 else r.status, flags := fl } ∧
            fl.getLsbD 0 = r.flags.getLsbD 0 ∧ fl.getLsbD 4 = r.flags.getLsbD 4 ∧ fl.toNat < 32 ∧
            (fl.getLsbD 1 = true ↔ r.flags.getLsbD 1 = true ∨ ∃ i < 16, (term i).2.getLsbD 2 = true) ∧
            (fl.getLsbD 2 = true ↔ r.flags.getLsbD 2 = true ∨ ∃ i < 16, (term i).2.getLsbD 4 = true) ∧
            (fl.getLsbD 3 = true ↔ r.flags.getLsbD 3 = true ∨ ∃ i < 16, (term i).2.getLsbD 0 = true)) ∧
          t.mason (ownerOf pa) = { s.mason (ownerOf pa) with
            queue := if full then (s.mason (ownerOf pa)).queue ++ [pa] else (s.mason (ownerOf pa)).queue } ∧
          (∀ c, o.cls = some c → o.live = true → (t.slot o.g o.k).count c = (s.slot o.g o.k).count c - 1) ∧
          (∀ a, ¬ (pa + 0x0C ≤ a ∧ a < pa + 0x18) → ¬ (r.acc off.toNat ≤ a ∧ a < r.acc off.toNat + 128) →
            t.byte a = s.byte a))))) ∧
  -- the contributions held for a record
  (∀ (s : State) (pa : Nat),
    let held := (s.mason (ownerOf pa)).held
    (s.parmWaits pa = true → s.flushRecord pa = s) ∧
    (s.parmWaits pa = false → s.flushRecord pa = s.releaseHeld pa (held.filter (fun c => c.pa = pa))) ∧
    s.releaseHeld pa [] = s ∧
    (∀ c rest,
      let busy : Prop := ((s.record pa).st = 1 ∨ (s.record pa).st = 2) ∧ s.inSealTable pa 64 = false
      let u := s.setMason (ownerOf pa) { s.mason (ownerOf pa) with held := held.filter (fun d => d.op ≠ c.op) }
      (busy → s.releaseHeld pa (c :: rest) = s) ∧
      (∀ o, ¬ busy → s.op? c.op = some o → s.releaseHeld pa (c :: rest) = (u.contribute o pa c.off c.g).releaseHeld pa rest) ∧
      (¬ busy → s.op? c.op = none → s.releaseHeld pa (c :: rest) = u.releaseHeld pa rest)) ∧
    (let all := s.masons.flatMap (fun e => e.2.held.map (·.pa))
     ((∀ q ∈ all, s.parmWaits q = true ∨ (((s.record q).st = 1 ∨ (s.record q).st = 2) ∧ s.inSealTable q 64 = false)) →
       s.flushHeld = s) ∧
     (∀ qs, all = pa :: qs → s.flushHeld = qs.foldl State.flushRecord (s.flushRecord pa)))) ∧
  (∀ (s : State) (pa : Nat) (rest : List Nat),
    let m := s.mason s.ev.g
    let r := s.record pa
    let locked : Prop := s.inSealTable pa 64 = true ∨ s.inSealTable (r.acc 0) (8 * r.h) = true
    let bad : Prop := s.badWord pa 8 ≠ none ∨ s.badWord (pa + 16) 16 ≠ none ∨ s.badWord (r.acc 0) (8 * r.h) ≠ none
    ((m.run ≠ none ∨ m.queue = []) → exec .masonUpdateStart s = .next s) ∧
    (m.run = none → m.queue = pa :: rest → r.st ≠ 1 →
      exec .masonUpdateStart s = .next ((s.setMason s.ev.g { m with queue := rest }).flushRecord pa)) ∧
    (m.run = none → m.queue = pa :: rest → r.st = 1 → RecordRun pa (64 + 24 * r.h) →
      (¬ locked → ¬ bad → Sparse.has m.rules r.rule = true →
        let x := Sparse.get {} m.rules r.rule
        ∃ t regs, exec .masonUpdateStart s = .next t ∧ t.mason s.ev.g = { m with
            queue := rest, run := some pa, regs := regs, pred := 1, fctl := 0, pc := 0, image := x.image, cycles := 0, buf := [] } ∧
          (∀ n, Sparse.get 0 regs n = if n = 8 then BitVec.ofNat 64 pa else if n = 9 then BitVec.ofNat 64 r.h else if n = 10 then r.gen
            else if n = 11 then BitVec.ofNat 64 r.rule else if 12 ≤ n ∧ n < 20 then (x.hp.getD (n - 12) 0).setWidth 64 else 0) ∧
          t.record pa = { r with status := 2 } ∧
          (∀ j < r.h, t.read64 (r.acc j) = (windowOut 0 (s.read64 (r.acc j)).toInt r.e.toInt).1.setWidth 64) ∧
          (∀ a, a ≠ pa + 0x11 → ¬ (r.acc 0 ≤ a ∧ a < r.acc 0 + 8 * r.h) → t.byte a = s.byte a) ∧
          t.ops = s.ops) ∧
      (∀ sub, m.buf = [] → (∀ c ∈ (s.mason (ownerOf pa)).held, c.pa ≠ pa) →
        ((locked ∧ sub = 2) ∨ (¬ locked ∧ bad ∧ sub = 7) ∨ (¬ locked ∧ ¬ bad ∧ Sparse.has m.rules r.rule = false ∧ sub = 5)) →
        ∃ t, exec .masonUpdateStart s = .next t ∧ t.mason s.ev.g = { m with queue := rest, run := none, cycles := 0 } ∧
          t.record pa = (if s.inSealTable pa 64 then r else { r with status := BitVec.ofNat 8 (3 + 16 * sub) }) ∧ t.ops = s.ops)) ∧
    (m.run = some pa → 2 ^ 24 ≤ m.cycles → exec .masonCycleLimit s = .next ((s.masonFail s.ev.g 4).flushRecord pa)) ∧
    ((m.run = none ∨ m.cycles < 2 ^ 24) → exec .masonCycleLimit s = .next s))

/-- R156, R157, R158, R160, R207, R228, R230 to R232: the words of an overlay on a mason unit. A load of its own channel reads what
the run has stored and, for the rest, memory. That a store joins the stores of the run, which reach memory in their order and in one
event when it ends, is the model's choice and not R160's words, under which a load may meet each 64-byte unit old or new meanwhile (log
100). For every width, a misaligned access and one outside the unit's channel make the record FAULTED with subcode
2, as a store to a locked table does, and a load of a bad word with 7. A branch or a jump goes to a byte offset into the image; a
target outside it or misaligned, and a program counter outside it, fail with 6. A word that a mason unit does not have, pskip
among them, makes the record FAULTED with 1, and one that names a port or a register that the unit does not have with 3. halt
ends the update: ACC and ARRIVED are zero, GEN is one more, CUR is complemented, MFX joins the flags when FCTL holds one, STATUS is
IDLE, and every other byte is as the stores of the run left it, while the unit notes the words that the run has overwritten, as they
were and as they are (log 101); where a seal has locked the record or a word that the run stores
to, it fails with 2 instead (log 86). A run that fails leaves its stores, sets STATUS to FAULTED with the subcode, and changes no
other byte of memory. -/
def Obligations.MasonWords : Prop :=
  ∀ (s : State) (g : Nat), s.cur = .mason g →
    let fails (i : Instr) (sub : Nat) : Prop := exec i s = .next { s.masonFail g sub with turn := .issued }
    (∀ (d a b : Name) (off : BitVec 12),
      let va := ((s.val a).v + off.signExtend 64).toNat
      let outside (n : Nat) : Prop := ∀ h, region va = .chan g h → 2 ^ 29 < h + n
      (∀ e ∈ [(Instr.ldBu d a off, 1, false), (.ldHu d a off, 2, false), (.ldWu d a off, 4, false), (.ldD d a off, 8, false),
          (.ldB d a off, 1, true), (.ldH d a off, 2, true), (.ldW d a off, 4, true)], Ready e.1 s →
        let n := e.2.1
        let u := s.flushBuf g
        (va % n ≠ 0 → fails e.1 2) ∧
        (va % n = 0 → outside n → fails e.1 2) ∧
        (∀ h, va % n = 0 → region va = .chan g h → h + n ≤ 2 ^ 29 →
          (u.badWord va n ≠ none → fails e.1 7) ∧
          (u.badWord va n = none → ∃ v : Word,
            (e.2.2 = false → v.toNat = u.readN va n) ∧ (e.2.2 = true → v.toInt = Int.bmod (u.readN va n) (2 ^ (8 * n))) ∧
            exec e.1 s = .next (s.done (s.writeName d { v := v, t := false }))))) ∧
      (∀ e ∈ [(Instr.stB off a b, 1), (.stH off a b, 2), (.stW off a b, 4), (.stD off a b, 8)], Ready e.1 s →
        let n := e.2
        (va % n ≠ 0 → fails e.1 2) ∧
        (va % n = 0 → outside n → fails e.1 2) ∧
        (∀ h, va % n = 0 → region va = .chan g h → h + n ≤ 2 ^ 29 →
          (s.inSealTable va n = true → fails e.1 2) ∧
          (s.inSealTable va n = false → exec e.1 s = .next (s.done (s.setMason g { s.mason g with
            buf := (s.mason g).buf ++ [wordWrite va n (s.val b).v (s.val b).t] })))))) ∧
    (let goes (i : Instr) (t : State) (x : Int) : Prop :=
        let target := (x % 2 ^ 64).toNat
        (target < 4096 → target % 4 = 0 → exec i s = .next (State.jumped t target)) ∧
        ((4096 ≤ target ∨ target % 4 ≠ 0) → fails i 6)
      let link : Tagged := { v := BitVec.ofNat 64 (s.here + 4), t := false }
      (∀ n p (o : BitVec 22), Ready (.bp n p o) s →
        ((s.predBit p ^^ decide (n = 1)) = true → goes (.bp n p o) s (s.here + 4 * o.toInt)) ∧
        ((s.predBit p ^^ decide (n = 1)) = false → exec (.bp n p o) s = .next (s.done s))) ∧
      (∀ o : BitVec 26, Ready (.br o) s → goes (.br o) s (s.here + 4 * o.toInt)) ∧
      (∀ o : BitVec 26, Ready (.bl o) s → goes (.bl o) (s.writeName 8 link) (s.here + 4 * o.toInt)) ∧
      (∀ a, Ready (.jr a) s → goes (.jr a) s (s.val a).v.toNat) ∧
      (∀ d a, Ready (.jlr d a) s → goes (.jlr d a) (s.writeName d link) (s.val a).v.toNat) ∧
      (∀ n p c, (Instr.pskip n p c).wf = true → fails (.pskip n p c) 1)) ∧
    (∀ pa, (s.mason g).run = some pa → (s.mason g).cycles < 2 ^ 24 → (4096 ≤ (s.mason g).pc ∨ (s.mason g).pc % 4 ≠ 0) →
      s.masonCycle g = .next (((s.masonTick g).masonFail g 6).flushRecord pa)) ∧
    (∀ pa, Ready .halt s → (s.mason g).run = some pa →
      let u := s.flushBuf g
      let r := u.record pa
      let locked : Prop := s.inSealTable pa 64 = true ∨ s.inSealTable (r.acc 0) (8 * r.h) = true ∨
        ∃ w ∈ (s.mason g).buf, s.inSealTable w.pa 8 = true
      (locked → fails .halt 2) ∧
      (¬ locked → RecordRun pa (64 + 24 * r.h) → ∃ (t : State) (fl : BitVec 16), exec .halt s = .next { t with turn := .issued } ∧
        t.record pa = { r with gen := r.gen + 1, arrived := 0, status := 0, flags := fl } ∧
        fl.toNat < 32 ∧ fl.getLsbD 0 = !r.flags.getLsbD 0 ∧ (∀ i, 1 ≤ i → i ≤ 3 → fl.getLsbD i = r.flags.getLsbD i) ∧
        fl.getLsbD 4 = (r.flags.getLsbD 4 || decide ((s.mason g).fctl.extractLsb' 8 5 ≠ 0)) ∧
        (∀ j < r.h, t.read64 (r.acc j) = 0) ∧
        (∀ a, (a < pa ∨ pa + 0x18 ≤ a) → ¬ (r.acc 0 ≤ a ∧ a < r.acc 0 + 8 * r.h) → t.byte a = u.byte a) ∧
        (∃ ws : List (Nat × Word × Word), t.mason g = { s.mason g with
            run := none, cycles := 0, buf := [], stale := some { record := pa, words := ws } } ∧
          (∀ a, (∀ w ∈ (s.mason g).buf, w.pa ≠ a) → ws.lookup a = none) ∧
          ∀ w ∈ (s.mason g).buf, ws.lookup w.pa = some (s.read64 w.pa, u.read64 w.pa)) ∧ t.ops = s.ops)) ∧
    (∀ sub pa, (s.mason g).run = some pa →
      let u := s.flushBuf g
      let t := s.masonFail g sub
      t.mason g = { s.mason g with run := none, cycles := 0, buf := [] } ∧ t.ops = s.ops ∧
      (s.inSealTable pa 64 = true → t.mem = u.mem) ∧
      (s.inSealTable pa 64 = false → RecordRun pa 64 → t.record pa = { u.record pa with status := BitVec.ofNat 8 (3 + 16 * sub) } ∧
        ∀ a, a ≠ pa + 0x11 → t.byte a = u.byte a)) ∧
    ((s.mason g).buf = [] → s.flushBuf g = s.setMason g { s.mason g with buf := [] }) ∧
    (∀ ws w, (s.mason g).buf = ws ++ [w] →
      let u := (s.setMason g { s.mason g with buf := ws }).flushBuf g
      s.flushBuf g = if s.inSealTable w.pa 8 then u else u.write none w) ∧
    (∀ i, i.wf = true → masonAllows (encode i) = false → fails i 1) ∧
    (∀ i, i.wf = true → masonAllows (encode i) = true → (∃ e ∈ [(i.roles.a, i.roles.ra), (i.roles.b, i.roles.rb),
      (i.roles.d, i.roles.rd)], e.2 ≠ .none ∧ (e.1.isPort = true ∨ 39 < e.1.toNat)) → fails i 3)

/-! ### The host and the firmware (R326 to R337, R352 to R354, R392, R394, R395) -/

/-- R327 to R329, R336, R353, R395: the host reaches the memory range of a partition that a virtual function is bound to: its
writes reach the mapped word, and its reads return the word or poison; after the teardown of a wipe a read is answered with
unsupported request and a write does nothing, and both wait while the partition's reset runs (R395) or where the word lies in scratch
of a core that csave has frozen (R285). PARTSTAT.APPROX is cleared by its
write and NVF takes a function that is bound, all of them through a bound function whose streams stand. A write to a locked table
is discarded, and so is one to a declared reserve, which reads as poison (log 77). The firmware assigns free dies to a partition
that is held in reset, binds and unbinds virtual functions, and sets join groups; new stream keys end the blocking that a wipe
began. The model's readings: that a write of PARTSTAT or PARTCTL is ignored while no function is bound or after the teardown
(log 61), and that the host and the firmware act by turns of the agenda, an aligned word at a time (logs 1, 54, 55). -/
def Obligations.HostAccess : Prop :=
  ∀ s : State,
    let p := s.ev.p
    let answers (d : HostData) : Prop := exec .hostMemoryRead s = .next { s with hostReads := d :: s.hostReads }
    let before : Prop := ∃ pa f o, s.exposed p = true ∧ s.hdmTarget p (s.ev.off / 8 * 8) = some pa ∧ region pa = .scratch f o ∧
      (s.core f).frozen ≠ none
    (((s.part p).starting = true ∨ before) → exec .hostMemoryWrite s = .next s ∧ exec .hostMemoryRead s = .next s) ∧
    ((s.part p).ideTorn = true → exec .hostMemoryWrite s = .next s ∧ ((s.part p).starting = false → answers .unsupported)) ∧
    ((s.part p).ideTorn = false → ((∀ e ∈ s.vfs, e.2 ≠ p) ∨ s.hdmTarget p (s.ev.off / 8 * 8) = none) →
      exec .hostMemoryWrite s = .next s ∧ ((s.part p).starting = false → answers .poison)) ∧
    (s.exposed p = true ↔ (s.part p).ideTorn = false ∧ ∃ e ∈ s.vfs, e.2 = p) ∧
    (s.exposed p = true → (s.part p).starting = false → ¬ before → ∀ pa, s.hdmTarget p (s.ev.off / 8 * 8) = some pa →
      (s.inSealTable pa 8 = false → s.hitsReserve pa 8 = false →
        exec .hostMemoryWrite s = .next (s.write none { pa := pa, data := s.ev.v, en := s.ev.en, tag := false })) ∧
      ((s.inSealTable pa 8 = true ∨ s.hitsReserve pa 8 = true) → exec .hostMemoryWrite s = .next s) ∧
      ((s.badWord pa 8 ≠ none ∨ s.hitsReserve pa 8 = true) → answers .poison) ∧
      (s.badWord pa 8 = none → s.hitsReserve pa 8 = false → answers (.word (s.read64 pa)))) ∧
    (∀ f o, s.firstCore p = some f → o < 0x1000 → s.hdmTarget p o = some (scrBase f + 0xFF000 + o)) ∧
    (∀ i g o, (s.partCores p)[i]? = some g → o < saveOff → s.hdmTarget p (2 ^ 29 * (i + 1) + o) = some (chanBase g + o)) ∧
    (s.exposed p = true → exec .approxClear s = .next (s.setPart p { s.part p with approx := false })) ∧
    (let n := s.ev.v.extractLsb' 1 7
     (s.exposed p = true → (n = 0 ∨ (n.toNat, p) ∈ s.vfs) →
       exec .partctlNvfWrite s = .next (s.setPart p { s.part p with nvf := n })) ∧
     (n ≠ 0 → (n.toNat, p) ∉ s.vfs → exec .partctlNvfWrite s = .next s)) ∧
    (s.exposed p = false → ∀ i ∈ [Instr.approxClear, .partctlNvfWrite, .partitionReset], exec i s = .next s) ∧
    (p < 16 → s.heldInReset p = true → (∀ e ∈ s.parts, e.1 ≠ p → e.2.dies &&& s.ev.v.setWidth 16 = 0) →
      exec .partitionDieAssignment s = .next (s.setPart p { s.part p with
        dies := s.ev.v.setWidth 16, st := if s.vr.lcs = 4 then .halted else (s.part p).st })) ∧
    ((s.part p).st = .running → exec .partitionDieAssignment s = .next s) ∧
    (∀ q, 1 ≤ s.ev.k → s.ev.k ≤ 96 → q < 16 → s.ev.opt = some q → s.vfs.find? (fun e => e.1 = s.ev.k) = none →
      exec .virtualFunctionBinding s = .next { s with vfs := Sparse.put s.vfs s.ev.k q }) ∧
    (∀ q, 1 ≤ s.ev.k → s.ev.k ≤ 96 → s.ev.opt = none → s.vfs.find? (fun e => e.1 = s.ev.k) = some (s.ev.k, q) →
      ∃ t, exec .virtualFunctionBinding s = .next t ∧ t.vfs = Sparse.del s.vfs s.ev.k ∧
        (t.part q).nvf = (if (s.part q).nvf.toNat = s.ev.k then 0 else (s.part q).nvf) ∧ t.mem = s.mem) ∧
    (s.ev.k < 16 → p < 16 → exec .fabricJoinConfiguration s = .next
      (({ s with pkgId := BitVec.ofNat 4 s.ev.k } : State).setPart p { s.part p with group := s.ev.v.setWidth 16 })) ∧
    exec .ideKmKeySetting s = .next (s.setPart p { s.part p with ideTorn := false })

/-- R391 to R395: an uncorrectable error in core state, and a progress monitor that reaches 2^36, halt a running partition with
their cause: its slots fall vacant, its operations and gangs are discarded, its mason units stop, RESETS rises, and memory is as
before but for what the partition had written already. A reset of a halted partition clears its scratch, its cores and its mason
units, and zeroes its host block and the observation areas of its cores; every other byte of memory is as it was, and every register of its cores but those of the boot root and the keystone slot is at its reset
value; a partition that waits for its tenant key starts with a new one, or stays halted while the debug port is open, but after
an open check or a wipe that has waited at the key store for longer (R352). That the first start of a partition is a host reset is
the model's reading (log 25), and that the key is a free value its choice (log 13). Package reset keeps the fuses, the lifecycle state,
the counts of resets and the memory outside scratch (log 18). When a fabric link fails, a load over it of a slot with fewer than
eight pending faults ends with a pending SOFT fault and zero in its cell. -/
def Obligations.HaltsAndResets : Prop :=
  ∀ s : State,
    let p := s.ev.p
    let settled : Prop := (∀ e ∈ s.cores, s.partOf e.1 = some p → e.2.recs = []) ∧
      (∀ e ∈ s.masons, s.partOf e.1 = some p → e.2.buf = [])
    let halts (r : Host.Outcome State Fault Refusal) (cause : BitVec 4) : Prop := ∃ t, r = .next t ∧
      (t.part p).st = .halted ∧ (t.part p).cause = cause ∧ (t.part p).resets = (s.part p).resets + 1 ∧
      (∀ o ∈ t.ops, o ∈ s.ops ∧ s.partOf o.g ≠ some p) ∧ (∀ a ∈ t.gangs, a.part ≠ p) ∧ t.mem = (s.settlePart p).mem ∧
      (settled → t.mem = s.mem ∧ (∀ g, s.partOf g ≠ some p → t.core g = s.core g ∧ t.mason g = s.mason g) ∧
        (∀ g, s.partOf g = some p → t.core g = (s.core g).halted ∧ (∀ k, t.slot g k = (s.slot g k).kept) ∧
          (t.mason g).run = none ∧ (t.mason g).queue = [] ∧ (t.mason g).held = [] ∧ (t.mason g).rules = (s.mason g).rules))
    let ahead : Prop := ∃ x ∈ (s.core vrNum).slots, ∃ u, x.2.blocked = some (.vrEngine 2 u) ∧ u < (s.part p).reached
    ((s.part p).st = .running → halts (exec .unrecoverableError s) 2) ∧
    ((s.part p).st = .running → (∃ e ∈ s.monitor, (s.part p).dies.getLsbD e.1 = true ∧ 2 ^ 36 ≤ e.2) →
      halts (exec .hangTimeout s) 3) ∧
    ((s.part p).st ≠ .running → exec .unrecoverableError s = .next s ∧ exec .hangTimeout s = .next s) ∧
    ((s.part p).st = .halted → (s.part p).dies ≠ 0 → s.exposed p = true → s.ev.v.extractLsb' 1 7 = (s.part p).nvf →
      ((s.part p).nvf = 0 ∨ ((s.part p).nvf.toNat, p) ∈ s.vfs) → Memory.wf s.mem = true →
      s.parts.Pairwise (fun x y => x.1 < y.1) → s.cores.Pairwise (fun x y => x.1 < y.1) →
      s.masons.Pairwise (fun x y => x.1 < y.1) → (∀ e ∈ s.parts, e.1 ≠ p → e.2.dies &&& (s.part p).dies = 0) →
      ∃ t, exec .partitionReset s = .next t ∧ (t.part p).resets = (s.part p).resets ∧ (t.part p).cause = (s.part p).cause ∧
        (∀ a, s.scratchOfPart p a = true → Memory.get t.mem a = 0) ∧
        (∀ g o, s.partOf g = some p → g < 4096 → (0x1FDFC000 ≤ o ∧ o < saveOff ∨
            s.firstCore p = some g ∧ 0x1FDF0000 ≤ o ∧ o < 0x1FDF2000) → Memory.get t.mem (chanBase g + o) = 0) ∧
        (∀ a, s.scratchOfPart p a = false → s.recordArea p a = false → Memory.get t.mem a = Memory.get s.mem a) ∧
        (∀ g, s.partOf g = some p → t.mason g = {} ∧
          { t.core g with rf := [], slots := [], ptroot := 0, asid := 0 } = ({} : Core) ∧
          (∀ k, ¬ (s.firstCore p = some g ∧ k = 63) → t.slot g k = {})) ∧
        (∀ g, s.partOf g ≠ some p → t.mason g = s.mason g ∧ t.core g = s.core g) ∧
        t.ops = s.ops ∧ Memory.wf t.mem = true) ∧
    ((s.part p).starting = true → (s.vrBusy 2 = true ∨ ahead) → exec .tenantKeyCreate s = .next s) ∧
    ((s.part p).starting = true → s.needsKey p = true → s.vrBusy 2 = false → ¬ ahead → s.vr.dbgOpen = false →
      ∃ t, exec .tenantKeyCreate s = .next t ∧ (t.part p).key = some (Config.freeKey s.free) ∧ t.vr.swept = false ∧
        t.vr.extd = false) ∧
    ((s.part p).starting = true → s.needsKey p = true → s.vrBusy 2 = false → ¬ ahead → s.vr.dbgOpen = true →
      exec .tenantKeyCreate s = .next (s.setPart p { s.part p with st := .halted, starting := false })) ∧
    (Memory.wf s.mem = true → ∃ t, exec .packageReset s = .next t ∧ t.cores = [] ∧ t.masons = [] ∧ t.ops = [] ∧
      t.vr.lcs = s.vr.lcs ∧ t.vr.fuses = s.vr.fuses ∧ t.vr.dbgOpen = false ∧ t.masked = s.masked ∧
      (∀ q, (t.part q).resets = (s.part q).resets ∧ (t.part q).dies = 0 ∧ (t.part q).key = none ∧
        (s.vr.lcs ≠ 4 → (t.part q).st = .reset) ∧ (s.vr.lcs = 4 → Sparse.has s.parts q = true → (t.part q).st = .halted)) ∧
      (∀ a, (∀ g o, region a ≠ .scratch g o) → Memory.get t.mem a = Memory.get s.mem a) ∧
      (∀ a g o, region a = .scratch g o → Memory.get t.mem a = 0)) ∧
    (∀ o n sg pa cb c, s.ops = [o] → o.kind = .load (.scalar n sg) [(pa, cb)] (some c) → inPackage p pa = true →
      o.live = true → c < numCells o.g → (s.slot o.g o.k).pend.length < 8 →
      ∃ t, exec .fabricLinkFailure s = .next t ∧ t.ops = [] ∧ t.mem = s.mem ∧ t.cell o.g c = {} ∧
        ∃ q ∈ (t.slot o.g o.k).pend, q.order = o.id ∧ q.code = 0x12 ∧ q.sub = 4)

/-! ### The Vrelell core (R350 to R364) -/

/-- R350 to R360, R364: the writes of the Vrelell core's special registers that start something, on a slot of it whose source is
untagged, as the event of their own row and as the mts: a lifecycle advance and a fuse write wait for their fuse; KWIPE starts a
wipe or removes a seal; MEXT, SIGGO and SHKGO start their engines; DBGP opens and closes the port, and an open that is not
unlocked raises PERM. An engine serves the slot that waits for it longest (R358), and the key store a creation that reached it
first (R352). That the nonce is a free value is the model's choice (log 13). In a part that an advance scraps every
partition is in STATE 3 and holds no key, and an advance to RMA with the port closed raises ILL (R350). Which fuse a lifecycle
advance blows is free (log 17). A seal install extends MEAS3 with its descriptor (R360). TVAL of the PERM of an open names what is
missing: UNLOCK, SWEPT, EXTD, the state SCRAP (R364). -/
def Obligations.VrelellWrites : Prop :=
  ∀ (s : State) (k : Nat), s.cur = .slot vrNum k → (s.val s.ev.d).t = false →
    let d := s.ev.d
    let v := (s.val d).v
    let u := s.took d
    let i (n : BitVec 12) : Instr := .mts d n
    let both (e : Instr) (n : BitVec 12) (t : State) : Prop := Ready (i n) s → exec e s = .next t ∧ exec (i n) s = .next t
    let traps (e : Instr) (n : BitVec 12) (c : Nat) (w : Word) : Prop := both e n (s.trapped vrNum k (i n) c w)
    let lcs := s.vr.lcs
    (v.toNat = lcs.toNat + 1 → lcs.toNat < 4 → (v = 3 → s.vr.dbgOpen = true) → u.vrFree 4 = true →
      ∃ w : State, both .lifecycleAdvance 0x202 (State.stays ((w.acceptFree (i 0x202) .fuse).awaiting w.nextId)) ∧
        w.vr.lcs.toNat = lcs.toNat + 1 ∧ w.vr.nonce = Config.freeNonce (s.free + 2) ∧ w.vr.extd = false ∧ (lcs.toNat < 3 → w.mem = s.mem ∧ w.parts = s.parts) ∧
        (lcs = 3 → s.parts.Pairwise (fun x y => x.1 < y.1) → ∀ e ∈ s.parts, (w.part e.1).st = .halted ∧ (w.part e.1).key = none) ∧
        (∀ n, n = 0 ∨ 8 ≤ n → w.fuse n = s.fuse n) ∧ (∀ n j, (s.fuse n).getLsbD j = true → (w.fuse n).getLsbD j = true)) ∧
    ((v.toNat ≠ lcs.toNat + 1 ∨ lcs = 4 ∨ (v = 3 ∧ s.vr.dbgOpen = false)) → traps .lifecycleAdvance 0x202 0x01 ((encode (i 0x202)).setWidth 64)) ∧
    (lcs.toNat < 2 → u.vrFree 4 = true →
      let w : State := { u with vr := { u.vr with fuses := Sparse.put s.vr.fuses s.vr.fusea.toNat (s.fuse s.vr.fusea.toNat ||| v) } }
      both .fuseProgram 0x201 (State.stays ((w.acceptFree (i 0x201) .fuse).awaiting w.nextId))) ∧
    (2 ≤ lcs.toNat → both .fuseProgram 0x201 (s.done u)) ∧
    (v.extractLsb' 17 3 = 0 → v.extractLsb' 46 18 = 0 → u.vrFree 2 = true → u.accessesBefore vrNum k u.nextId = true →
      let w := (List.range 16).foldl (fun t p => if v.getLsbD p then t.wipePart p (v.getLsbD 16) else t)
        { u with vr := { u.vr with kwipe := v } }
      both .keyWipe 0x20C (s.done (w.acceptFree (i 0x20C) (.wipe (v.toNat % 2 ^ 16) (v.getLsbD 16))))) ∧
    (v.extractLsb' 17 3 = 1 → v.extractLsb' 46 18 = 0 → u.vrFree 2 = true → u.accessesBefore vrNum k u.nextId = true →
      let p := v.toNat / 2 ^ 20 % 16
      let n := v.toNat / 2 ^ 24 % 16
      let off := v.toNat / 2 ^ 28 % 2 ^ 18
      let q := s.sealDesc off
      let err (e : BitVec 3) : State := { u with vr := { u.vr with kwipe := v, kerr := e } }
      ((off % 64 ≠ 0 ∨ s.sealOk p q = false) → both .sealInstall 0x20C (s.done (err 2))) ∧
      (off % 64 = 0 → s.sealOk p q = true → shake256 (s.bytesAt q.table (32 * q.pages)) 32 ≠ q.root →
        both .sealInstall 0x20C (s.done (err 1))) ∧
      (off % 64 = 0 → s.sealOk p q = true → shake256 (s.bytesAt q.table (32 * q.pages)) 32 = q.root →
        ∃ w : State, both .sealInstall 0x20C (s.done w) ∧ w.vr.kerr = 0 ∧ w.mem = s.mem ∧
          Sparse.get 0 w.vr.meas 3 = BitVec.ofNat 512 (natOfLE (shake256
            (natBytes 64 (Sparse.get 0 s.vr.meas 3).toNat ++ s.bytesAt (2 ^ 48 + off) 64) 64)) ∧
          (∀ m, m ≠ 3 → Sparse.get 0 w.vr.meas m = Sparse.get 0 s.vr.meas m) ∧
          w.seals = s.seals.filter (fun e => !(e.part = p && e.slot = n)) ++
            [{ part := p, slot := n, base := q.base, pages := q.pages, table := q.table }])) ∧
    (v.extractLsb' 17 3 = 2 → v.extractLsb' 46 18 = 0 → u.vrFree 2 = true → both .sealRemove 0x20C (s.done
      { u with vr := { u.vr with kwipe := v }, seals := s.seals.filter (fun e =>
          !(e.part = v.toNat / 2 ^ 20 % 16 && e.slot = v.toNat / 2 ^ 24 % 16)) })) ∧
    (v.toNat % 64 = 0 → v.extractLsb' 18 14 = 0 → v.getLsbD 35 = false → v.extractLsb' 38 25 = 0 → u.vrFree 3 = true →
      let w : State := { u with vr := { u.vr with mext := v &&& 0x7FFFFFFFFFFFFFFF } }
      let n := v.toNat / 2 ^ 32 % 8
      (v.extractLsb' 36 2 = 0 → both .measurementExtend 0x218 (s.done (w.acceptFree (i 0x218) (.measure n (v.toNat % 2 ^ 18) false)))) ∧
      (v.extractLsb' 36 2 = 1 → v.toNat % 2 ^ 18 + 512 ≤ 2 ^ 18 →
        both .measurementCopy 0x218 (s.done (w.acceptFree (i 0x218) (.measure n (v.toNat % 2 ^ 18) true))))) ∧
    (let len := s.vr.sigmsg.toNat / 2 ^ 32 % 2 ^ 11
     let src := s.vr.sigkey.toNat / 2 ^ 32 % 4
     let w : State := { u with vr := { u.vr with sigres := 0 } }
     1 ≤ len → len ≤ 1024 → s.vr.sigmsg.toNat % 2 ^ 18 + len ≤ 2 ^ 18 → s.vr.sigsig.toNat % 2 ^ 18 + 114 ≤ 2 ^ 18 →
     u.vrFree 0 = true →
     ((v = 0 ∨ (v = 2 ∧ len = 32)) → (src = 1 ∨ (src = 0 ∧ s.vr.sigkey.toNat % 2 ^ 18 + 57 ≤ 2 ^ 18)) →
       both .signatureVerify 0x206 (s.done (w.acceptFree (i 0x206) (.verify (v = 2) s.vr.sigmsg s.vr.sigkey s.vr.sigsig)))) ∧
     (v = 1 → src = 2 → both .signatureSign 0x206 (s.done (w.acceptFree (i 0x206) (.sign s.vr.sigmsg s.vr.sigsig))))) ∧
    (let n := s.vr.shklen.toNat % 2 ^ 19
     let m := s.vr.shklen.toNat / 2 ^ 32 % 2 ^ 11
     v = 1 → n ≤ 2 ^ 18 → 1 ≤ m → m ≤ 1024 → s.vr.shkin.toNat % 2 ^ 18 + n ≤ 2 ^ 18 → s.vr.shkout.toNat % 2 ^ 18 + m ≤ 2 ^ 18 →
     u.vrFree 1 = true →
     both .shakeHash 0x20B (s.done (u.acceptFree (i 0x20B) (.shake s.vr.shkin s.vr.shklen s.vr.shkout)))) ∧
    (lcs.toNat < 2 → s.unlockMissing = 0) ∧
    (2 ≤ lcs.toNat → ∀ j, s.unlockMissing.getLsbD j =
      ((j = 0 && !s.vr.sigres.getLsbD 4) || (j = 1 && !s.vr.swept) || (j = 2 && !s.vr.extd) || (j = 3 && lcs = 4))) ∧
    (v.getLsbD 0 = true → s.vr.dbgOpen = false → u.vrFree 2 = true →
      (s.unlockMissing ≠ 0 → traps .debugPortOpen 0x20E 0x06 s.unlockMissing) ∧
      (s.unlockMissing = 0 → both .debugPortOpen 0x20E (s.done ({ u with vr := { u.vr with dbgOpen := true } } : State).renewNonce))) ∧
    (v.getLsbD 0 = false → s.vr.dbgOpen = true →
      both .debugPortClose 0x20E (s.done ({ u with vr := { u.vr with dbgOpen := false } } : State).renewNonce))

/-- R351 to R358, R364: the engines of the Vrelell core end what was started, once the slot's earlier accesses are performed: a
fuse releases its slot; a full scrubbed wipe sets SWEPT; an extend replaces one measurement by the SHAKE256 of it and the event
and, of MEAS7 while SWEPT, sets EXTD; a copy writes all eight measurements; a verify and a sign set SIGRES; the hash engine
writes its output. A verify whose message carries the part's identity, its state and its nonce is bound, and with the fused unlock
key and a signature that holds it sets UNLOCK and keeps the nonce; a sign of a report that holds writes the signature of its 576
bytes (R355, R357). That the nonce is a free value is the model's choice (log 13). The firmware binds a vacant Vrelell slot at management level, and a probe acts only while the port is open. -/
def Obligations.VrelellEngines : Prop :=
  (∀ (s : State) (o : Op), InFlight s o →
    (o.kind = .fuse → o.live = true → ∃ t, exec .fuseProgramDone s = .next t ∧ (t.slot o.g o.k).blocked = none ∧
      (t.slot o.g o.k).pc = (s.slot o.g o.k).pc + 4 ∧ t.op? o.id = none ∧ t.vr = s.vr) ∧
    (∀ mask scrub, o.kind = .wipe mask scrub → (∀ q, (s.part q).starting = false) → exec .keyWipeDone s = .next
      (if mask = 0xFFFF ∧ scrub = true then { s.endOp o with vr := { s.vr with swept := true } } else s.endOp o)) ∧
    (s.accessesBefore o.g o.k o.id = true →
      (∀ n a, o.kind = .measure n a false → ∃ t, exec .measurementDone s = .next t ∧
        Sparse.get 0 t.vr.meas n = BitVec.ofNat 512 (natOfLE (shake256
          (natBytes 64 (Sparse.get 0 s.vr.meas n).toNat ++ s.bytesAt (2 ^ 48 + a) 64) 64)) ∧
        (∀ m, m ≠ n → Sparse.get 0 t.vr.meas m = Sparse.get 0 s.vr.meas m) ∧
        t.vr.extd = (s.vr.extd || (n = 7 && s.vr.swept)) ∧ t.mem = s.mem) ∧
      (∀ n a, o.kind = .measure n a true → exec .measurementDone s = .next ((s.endOp o).vrWrite a s.measBytes)) ∧
      (∀ bind msg key sig, o.kind = .verify bind msg key sig →
        let a := 2 ^ 48 + msg.toNat % 2 ^ 18
        let r := edVerify (s.sigPublic key) (s.bytesAt a (msg.toNat / 2 ^ 32 % 2 ^ 11)) (s.bytesAt (2 ^ 48 + sig.toNat % 2 ^ 18) 114)
        ∃ t, exec .signatureDone s = .next t ∧ t.op? o.id = none ∧ t.mem = s.mem ∧
          t.vr.sigres.getLsbD 1 = true ∧ t.vr.sigres.getLsbD 2 = decide (r = 0) ∧
          (bind = false → t.vr.sigres.getLsbD 3 = false ∧ t.vr.sigres.getLsbD 4 = false ∧ t.vr.nonce = s.vr.nonce) ∧
          (bind = true → r ≠ 0 → t.vr.sigres.getLsbD 4 = false ∧ t.vr.nonce = Config.freeNonce s.free ∧ t.vr.extd = false) ∧
          (let bound := s.read64 a = s.fuse 0 ∧ s.byte (a + 8) = s.vr.lcs.setWidth 8 ∧ s.read64 (a + 16) = s.vr.nonce.setWidth 64
           bind = true →
             (t.vr.sigres.getLsbD 3 = true ↔ bound) ∧
             (r = 0 → bound → key.toNat / 2 ^ 32 % 4 = 1 → t.vr.sigres = 0x1E ∧ t.vr.nonce = s.vr.nonce ∧ t.vr.extd = s.vr.extd) ∧
             ((¬ bound ∨ key.toNat / 2 ^ 32 % 4 ≠ 1) → t.vr.sigres.getLsbD 4 = false ∧ t.vr.nonce = Config.freeNonce s.free)) ∧
          (t.vr.sigres.toNat / 2 ^ 5 = if r = 2 then 1 else if r = 3 then 2 else 0)) ∧
      (∀ msg sig, o.kind = .sign msg sig → msg.toNat / 2 ^ 32 % 2 ^ 11 = 576 →
        let a := 2 ^ 48 + msg.toNat % 2 ^ 18
        let holds := s.read64 a = s.fuse 0 ∧ s.byte (a + 8) = s.vr.lcs.setWidth 8 ∧ (s.byte (a + 9) = if s.vr.dbgOpen then 1 else 0) ∧
          s.bytesAt (a + 64) 512 = s.measBytes
        (holds → ∃ t, exec .signatureDone s = .next t ∧ t.op? o.id = none ∧ t.vr.sigres = 0x06 ∧
          t.mem = ((s.endOp o).vrWrite (sig.toNat % 2 ^ 18) (edSign ((s.fuseBytes 24 8).take 57) (s.bytesAt a 576))).mem) ∧
        (¬ holds → ∃ t, exec .signatureDone s = .next t ∧ t.op? o.id = none ∧ t.vr.sigres = 0x62 ∧ t.mem = s.mem)) ∧
      (∀ msg sig, o.kind = .sign msg sig → msg.toNat / 2 ^ 32 % 2 ^ 11 ≠ 576 → ∃ t, exec .signatureDone s = .next t ∧
        t.op? o.id = none ∧ t.mem = s.mem ∧ t.vr.sigres = 0x62) ∧
      (∀ inp len out, o.kind = .shake inp len out → exec .shakeDone s = .next ((s.endOp o).vrWrite (out.toNat % 2 ^ 18)
        (shake256 (s.bytesAt (2 ^ 48 + inp.toNat % 2 ^ 18) (len.toNat % 2 ^ 19)) (len.toNat / 2 ^ 32 % 2 ^ 11)))))) ∧
  (∀ s : State,
    let r : TaskRec := {
      image := s.ev.v, ctl := BitVec.ofNat 64 s.ev.off, a0 := s.ev.args.getD 0 0, a1 := s.ev.args.getD 1 0,
      a2 := s.ev.args.getD 2 0, a3 := s.ev.args.getD 3 0 }
    (∀ b, r.check 0 = .ok () → s.ev.k < 4 → (s.slot vrNum s.ev.k).bound = false → s.firstFit vrNum r.units = some b →
      exec .vrelellSlotBind s = .next (s.bindTask vrNum s.ev.k r b .mgmt none)) ∧
    ((s.slot vrNum s.ev.k).bound = true → exec .vrelellSlotBind s = .next s)) ∧
  (∀ s : State, (s.vr.dbgOpen = false → exec .debugProbeAccess s = .next s) ∧
    (s.vr.dbgOpen = true →
      (∀ a : Word, s.ev.probe = .readMem a → a.toNat % 8 = 0 → a.toNat < 2 ^ 18 → s.bad = [] →
        exec .debugProbeAccess s = .next { s with probeReads := some (s.read64 (2 ^ 48 + a.toNat)) :: s.probeReads }) ∧
      (∀ g k, s.ev.probe = .stop g k → (s.slot g k).bound = true → exec .debugProbeAccess s = .next (s.stopSlot g k))))

/-! ### Observation (R338 to R345) -/

/-- R340 to R345: a dump takes the counters as they stand and, when it ends, has written CORE, DCYC, DSEQ, CLS and HIST in its part
of the observation area and nothing else; the cycles of a slot that are in no other class are vacant. A sample that is due is
recorded in SPC with the slot, the program counter and the event, and as a record of kind 0; the sample counter starts afresh with
what the cycle counts after the sample, and the next cycle issues nothing. A record is made of an event while TRACE is set; the
records of a cycle enter the ring in ascending order of their slots, and TCOUNT counts each. -/
def Obligations.Observation : Prop :=
  ∀ (s : State), let g := s.ev.g
    let area := chanBase g + 0x1FDFC000
    g < 4096 →
    ((s.core g).dump = none → exec .dumpStart s = .next (s.setCore g { s.core g with
      dump := some { cyc := (s.core g).cyc, cls := (s.core g).cls, hist := (s.core g).hist } })) ∧
    (∀ d, (s.core g).dump = some d → exec .dumpStart s = .next s ∧
      ∃ t, exec .dumpComplete s = .next t ∧ (t.core g).dump = none ∧ t.ops = s.ops ∧ (∀ h c, t.cell h c = s.cell h c) ∧
        t.read64 area = s.coreValue g ∧ t.read64 (area + 8) = BitVec.ofNat 64 d.cyc ∧ t.read64 (area + 16) = s.read64 (area + 16) + 1 ∧
        (∀ k < 64, (∀ c < 4, t.read64 (area + 0x40 + 8 * (5 * k + c)) = Sparse.get 0 d.cls (5 * k + c)) ∧
          t.read64 (area + 0x40 + 8 * (5 * k + 4)) = BitVec.ofNat 64 d.cyc - Sparse.get 0 d.cls (5 * k) - Sparse.get 0 d.cls (5 * k + 1)
            - Sparse.get 0 d.cls (5 * k + 2) - Sparse.get 0 d.cls (5 * k + 3)) ∧
        (∀ n ≤ 64, t.read64 (area + 0xA40 + 8 * n) = Sparse.get 0 d.hist n) ∧
        (Memory.wf s.mem = true → ∀ a, ¬ (area ≤ a ∧ a < area + 0xC48) → Memory.get t.mem a = Memory.get s.mem a)) ∧
    (∀ k pc cyc e rest, (s.core g).sampleDue = some { named := some (k, pc), cyc := cyc, event := e, rest := rest } →
      ∃ t, exec .sample s = .next t ∧
        (t.core g).spc = BitVec.ofNat 64 (pc.toNat % 2 ^ 49 + k % 64 * 2 ^ 49 + e * 2 ^ 56 + 2 ^ 63) ∧
        (t.core g).sampleCount = rest ∧ (t.core g).sampleDue = none ∧ (t.core g).freezeNext = true ∧
        (t.core g).cyc = (s.core g).cyc ∧ t.ops = s.ops ∧ (∀ h j, t.slot h j = s.slot h j) ∧
        t.mem = (s.writeRec g (BitVec.ofNat 64 (cyc % 2 ^ 48 + k % 64 * 2 ^ 52), BitVec.ofNat 64 (pc.toNat % 2 ^ 49))).mem) ∧
    (∀ w : Word × Word, let n := (s.read64 (area + 0x18)).toNat
      let at' := area + 0x2000 + 16 * (n % 512)
      let t := s.writeRec g w
      t.read64 at' = w.1 ∧ t.read64 (at' + 8) = w.2 ∧ t.read64 (area + 0x18) = BitVec.ofNat 64 (n + 1) ∧
        ∀ a, ¬ (at' ≤ a ∧ a < at' + 16) → ¬ (area + 0x18 ≤ a ∧ a < area + 0x20) → t.byte a = s.byte a) ∧
    (∀ kind k pc detail, ((s.core g).smpl.getLsbD 4 = false → s.trace g kind k pc detail = s) ∧
      ((s.core g).smpl.getLsbD 4 = true → s.trace g kind k pc detail = s.setCore g { s.core g with recs := (s.core g).recs ++ [(k,
        BitVec.ofNat 64 ((s.core g).cyc % 2 ^ 48 + kind * 2 ^ 48 + k * 2 ^ 52), BitVec.ofNat 64 (pc % 2 ^ 49 + detail * 2 ^ 49))] })) ∧
    (∀ recs, (s.core g).recs = recs → recs.Pairwise (fun x y => x.1 ≤ y.1) → (∀ e ∈ recs, e.1 < 64) →
      let u := recs.foldl (fun t e => t.writeRec g e.2) s
      s.flushRecs g = u.setCore g { u.core g with recs := [] })

/-! ### Encoding, stepping, reset -/

/-- R202 to R209: a word of each of a few formats, its fields side by side as the format places them, is the instruction that
the tables give it, and a reserved bit set or a major or fn without an instruction is none. -/
def Obligations.DecodeWords : Prop :=
  decode (0x01#6 ++ 10#7 ++ 11#7 ++ 12#7 ++ 0#5) = some (.add 10 11 12) ∧
  decode (0x03#6 ++ 10#7 ++ 11#7 ++ 0x801#12) = some (.addi 10 11 0x801) ∧
  decode (0x1B#6 ++ 0x40#7 ++ 11#7 ++ 12#7 ++ 1#5) = some (.stW 0x801 11 12) ∧
  decode (0x0A#6 ++ 10#7 ++ 0x40001#19) = some (.lui 10 0x40001) ∧
  decode (0x10#6 ++ 0x2000001#26) = some (.bl 0x2000001) ∧
  decode (0x0E#6 ++ 1#1 ++ 3#3 ++ 0x200001#22) = some (.bp 1 3 0x200001) ∧
  decode (0x0C#6 ++ 2#3 ++ 1#3 ++ 1#1 ++ 11#7 ++ 12#7 ++ 2#5) = some (.pcmpLt 2 1 1 11 12) ∧
  decode (0x20#6 ++ 1#4 ++ 2#4 ++ 3#4 ++ 4#4 ++ 0#10) = some (.wait 1 2 3 4) ∧
  decode (0x31#6 ++ 10#7 ++ 11#7 ++ 12#7 ++ 2#2 ++ 1#1 ++ 1#1 ++ 0#1) = some (.mmaF8 10 11 12 2 1 1) ∧
  decode (0x39#6 ++ 0#21 ++ 1#5) = some .eret ∧
  decode (0x31#6 ++ 10#7 ++ 11#7 ++ 12#7 ++ 2#2 ++ 1#1 ++ 1#1 ++ 1#1) = none ∧
  decode (0x01#6 ++ 5#7 ++ 11#7 ++ 12#7 ++ 0#5) = none ∧
  decode (0x00#6 ++ 0#26) = none

/-- R202 to R209: every well-formed instruction is what its own word decodes to. -/
def Obligations.DecodeEncode : Prop := ∀ i : Instr, i.wf = true → decode (encode i) = some i

/-- R27, R36, R157, R202, R207, R217, R369: a step runs the decoded instruction. The turn of a core: once a due sample is taken and kills and
stops that can end have ended, the slot whose turn it is executes the word that it has fetched and not yet issued, or the word fetched at its
program counter, and the cycle ends; a word that is no instruction raises ILL with TVAL the word and TSTAT its MAJOR and FN
(R369), and so does the first word of an image whose version is not 1. That the version is read at the first instruction outside a
handler, and that a header that cannot be fetched then raises the fault of its fetch, is the model's reading (log 44), and so is FN
0 for a major without a format (log 22). The turn of a mason unit runs the word at its place in the overlay.
An event has its meaning, whichever agent ran before it. The order of turns is the model's (log 1). -/
def Obligations.StepRuns : Prop :=
  ∀ (s : State) (rest : List Turn), let r : State := { s with agenda := rest }
    (∀ g k, s.agenda = .core g :: rest → g ≤ vrNum → s.isMasked g = false →
      let u := (r.takeSample g).reap g
      (u.core g).freezeNext = false → u.turnSlot g = some k →
      ∀ w v, ((∃ pa, (u.taking g k).fetch g k = .word w pa ∧ v = ((u.taking g k).cacheWord g pa w).holdWord g k w) ∨
          ((u.taking g k).fetch g k = .kept w ∧ v = u.taking g k)) →
        let ends (t : State) : State := t.endCycle g ((r.takeSample g).startClasses g)
          (u.eligibles g).length (some (k, (u.slot g k).pc)) (u.core g).smpl (u.core g).sampleCount
        let traps (x : State) (e : AccErr) : Prop := step s = .next (ends { x.takeTrap g k e.code false e.val
          (tstatOf e.sub 0 (majorOf w) (fnOf w) 0) (v.slot g k).pc with turn := .issued })
        let runs (x : State) : Prop := (∀ i t, decode w = some i → exec i x = .next t → step s = .next (ends t)) ∧
          (decode w = none → traps x ⟨0x01, w.setWidth 64, 0⟩)
        let x := v.setSlot g k { v.slot g k with header := none }
        (((u.slot g k).header = none ∨ (u.slot g k).inHandler = true) → runs v) ∧
        (∀ a, (u.slot g k).header = some a → (u.slot g k).inHandler = false →
          (v.versionBad g (v.slot g k).level a = .ok false → runs x) ∧
          (v.versionBad g (v.slot g k).level a = .ok true → traps x ⟨0x01, w.setWidth 64, 0⟩) ∧
          (∀ e, v.versionBad g (v.slot g k).level a = .error e → traps v e)) ∧
        (∀ lv a t, 2 ^ 20 ≤ a.toNat → g ≠ vrNum →
          (v.tlbFind g a.toNat).map (v.checkLeaf { v.ctx g 0 with level := lv } a.toNat 2 .fetch .plain false) = some (.ok t) →
          t.cls ≠ 3 → v.badWord t.pa 2 = none → v.versionBad g lv a = .ok (decide (v.readN t.pa 2 ≠ 1)))) ∧
    (∀ g rec' i t, s.agenda = .mason g :: rest → g < 4096 → (s.mason g).run = some rec' → (s.mason g).cycles < 2 ^ 24 →
      (s.mason g).pc < 4096 → (s.mason g).pc % 4 = 0 → decode ((s.mason g).image.getD ((s.mason g).pc / 4) 0) = some i →
      exec i (r.masonTick g) = .next t → step s = .next (t.afterRun g (some rec'))) ∧
    (∀ i a t, s.agenda = .event i a :: rest → i.isWord = false → exec i { r with ev := a, cur := .slot a.g a.k } = .next t →
      step s = .next { t with ev := s.ev, cur := s.cur }) ∧
    (∀ g, s.agenda = .core g :: rest → s.isMasked g = true → g ≤ vrNum → step s = .next { r with turn := .idle })

/-- R6, R56: every step keeps memory in its canonical form. -/
def Obligations.StepKeepsMemory : Prop :=
  ∀ s t : State, Memory.wf s.mem = true → step s = .next t → Memory.wf t.mem = true

/-- R26, R36, R327, R354, R363: the machine right after reset: nothing is listed in memory, every slot is vacant, every core and
partition stands at its reset values, no die is assigned, and the first turn is the package reset, after which the lifecycle
state, the partitions and memory are as before and the nonce is the first free one. That the package reset is a turn of its own
is the model's choice (log 1, log 18), and so are that memory which nothing has written reads as 0 (log 3), the user level of a
vacant slot (log 4), the lifecycle state 0 (log 17) and which free value the nonce takes (log 13). -/
def Obligations.ResetState : Prop :=
  let s := State.reset
  Memory.wf s.mem = true ∧ (∀ a, Memory.get s.mem a = 0) ∧
  (∀ g k, (s.slot g k).bound = false ∧ (s.slot g k).level = .user ∧ (s.slot g k).pend = [] ∧ (s.slot g k).pred = 1) ∧
  (∀ g, (s.core g).cyc = 0 ∧ (s.core g).tvec = 0 ∧ (s.core g).tlb = [] ∧ (s.core g).mailbox = []) ∧
  (∀ p, (s.part p).st = .reset ∧ (s.part p).dies = 0 ∧ (s.part p).resets = 0) ∧
  ∃ t, step s = .next t ∧ t.mem = [] ∧ t.parts = s.parts ∧ t.agenda = [] ∧ t.ops = [] ∧ t.vr.lcs = 0 ∧ t.vr.nonce = Config.freeNonce 0 ∧
    (∀ g k, (t.slot g k).bound = false)
end

