-- ==== Sys2Proof/Laws/Fields.lean ====
section
/-! SUPPORT. Sys2Proof/Laws/Fields.lean: each format's fields read back from the word that places them (R203), and the word of
an instruction picks that instruction. -/

namespace Sys2Proof.Laws

theorem extractLsb'_append_low {a b : Nat} (x : BitVec a) (y : BitVec b) (i n : Nat) (h : i + n ≤ b) :
    (x ++ y).extractLsb' i n = y.extractLsb' i n := by
  ext j hj
  simp only [BitVec.getElem_extractLsb', BitVec.getLsbD_append]
  simp [show i + j < b by omega]

theorem extractLsb'_append_high {a b : Nat} (x : BitVec a) (y : BitVec b) (i n : Nat) (h : b ≤ i) :
    (x ++ y).extractLsb' i n = x.extractLsb' (i - b) n := by
  ext j hj
  simp only [BitVec.getElem_extractLsb', BitVec.getLsbD_append]
  simp [show ¬ i + j < b by omega, show i + j - b = i - b + j by omega]

theorem extractLsb'_whole {a : Nat} (x : BitVec a) : x.extractLsb' 0 a = x := by
  ext j hj; simp

theorem extractLsb'_nested {a : Nat} (x : BitVec a) (i n k m : Nat) (h : k + m ≤ n) :
    (x.extractLsb' i n).extractLsb' k m = x.extractLsb' (i + k) m := by
  ext j hj
  simp only [BitVec.getElem_extractLsb', BitVec.getLsbD_extractLsb']
  simp [show k + j < n by omega, show i + k + j = i + (k + j) by omega]

/-- The two halves of a bit string. -/
theorem append_extractLsb' (n m : Nat) (x : BitVec (n + m)) : x.extractLsb' m n ++ x.extractLsb' 0 m = x := by
  ext j hj
  simp only [BitVec.getElem_append, BitVec.getElem_extractLsb']
  split
  · simp [BitVec.getLsbD_eq_getElem hj]
  · simp [show m + (j - m) = j by omega, BitVec.getLsbD_eq_getElem hj]

theorem encA_26 (op fn : Nat) (d a b : Name) : (encA op fn d a b).extractLsb' 26 6 = BitVec.ofNat 6 op := by
  simp only [encA]
  repeat (first | rw [extractLsb'_append_low _ _ _ _ (by omega)] | rw [extractLsb'_append_high _ _ _ _ (by omega)])
  simp only [Nat.sub_self, Nat.reduceSub, extractLsb'_whole]

theorem encA_19 (op fn : Nat) (d a b : Name) : (encA op fn d a b).extractLsb' 19 7 = d := by
  simp only [encA]
  repeat (first | rw [extractLsb'_append_low _ _ _ _ (by omega)] | rw [extractLsb'_append_high _ _ _ _ (by omega)])
  simp only [Nat.sub_self, Nat.reduceSub, extractLsb'_whole]

theorem encA_12 (op fn : Nat) (d a b : Name) : (encA op fn d a b).extractLsb' 12 7 = a := by
  simp only [encA]
  repeat (first | rw [extractLsb'_append_low _ _ _ _ (by omega)] | rw [extractLsb'_append_high _ _ _ _ (by omega)])
  simp only [Nat.sub_self, Nat.reduceSub, extractLsb'_whole]

theorem encA_5 (op fn : Nat) (d a b : Name) : (encA op fn d a b).extractLsb' 5 7 = b := by
  simp only [encA]
  repeat (first | rw [extractLsb'_append_low _ _ _ _ (by omega)] | rw [extractLsb'_append_high _ _ _ _ (by omega)])
  simp only [Nat.sub_self, Nat.reduceSub, extractLsb'_whole]

theorem encA_0 (op fn : Nat) (d a b : Name) : (encA op fn d a b).extractLsb' 0 5 = BitVec.ofNat 5 fn := by
  simp only [encA]
  repeat (first | rw [extractLsb'_append_low _ _ _ _ (by omega)] | rw [extractLsb'_append_high _ _ _ _ (by omega)])
  simp only [Nat.sub_self, Nat.reduceSub, extractLsb'_whole]

theorem encI_26 (op : Nat) (d a : Name) (imm : BitVec 12) : (encI op d a imm).extractLsb' 26 6 = BitVec.ofNat 6 op := by
  simp only [encI]
  repeat (first | rw [extractLsb'_append_low _ _ _ _ (by omega)] | rw [extractLsb'_append_high _ _ _ _ (by omega)])
  simp only [Nat.sub_self, Nat.reduceSub, extractLsb'_whole]

theorem encI_19 (op : Nat) (d a : Name) (imm : BitVec 12) : (encI op d a imm).extractLsb' 19 7 = d := by
  simp only [encI]
  repeat (first | rw [extractLsb'_append_low _ _ _ _ (by omega)] | rw [extractLsb'_append_high _ _ _ _ (by omega)])
  simp only [Nat.sub_self, Nat.reduceSub, extractLsb'_whole]

theorem encI_12 (op : Nat) (d a : Name) (imm : BitVec 12) : (encI op d a imm).extractLsb' 12 7 = a := by
  simp only [encI]
  repeat (first | rw [extractLsb'_append_low _ _ _ _ (by omega)] | rw [extractLsb'_append_high _ _ _ _ (by omega)])
  simp only [Nat.sub_self, Nat.reduceSub, extractLsb'_whole]

theorem encI_0 (op : Nat) (d a : Name) (imm : BitVec 12) : (encI op d a imm).extractLsb' 0 12 = imm := by
  simp only [encI]
  repeat (first | rw [extractLsb'_append_low _ _ _ _ (by omega)] | rw [extractLsb'_append_high _ _ _ _ (by omega)])
  simp only [Nat.sub_self, Nat.reduceSub, extractLsb'_whole]

theorem encS_26 (op : Nat) (imm : BitVec 12) (a b : Name) : (encS op imm a b).extractLsb' 26 6 = BitVec.ofNat 6 op := by
  simp only [encS]
  repeat (first | rw [extractLsb'_append_low _ _ _ _ (by omega)] | rw [extractLsb'_append_high _ _ _ _ (by omega)])
  simp only [Nat.sub_self, Nat.reduceSub, extractLsb'_whole]

theorem encS_19 (op : Nat) (imm : BitVec 12) (a b : Name) : (encS op imm a b).extractLsb' 19 7 = imm.extractLsb' 5 7 := by
  simp only [encS]
  repeat (first | rw [extractLsb'_append_low _ _ _ _ (by omega)] | rw [extractLsb'_append_high _ _ _ _ (by omega)])
  simp only [Nat.sub_self, Nat.reduceSub, extractLsb'_whole]

theorem encS_12 (op : Nat) (imm : BitVec 12) (a b : Name) : (encS op imm a b).extractLsb' 12 7 = a := by
  simp only [encS]
  repeat (first | rw [extractLsb'_append_low _ _ _ _ (by omega)] | rw [extractLsb'_append_high _ _ _ _ (by omega)])
  simp only [Nat.sub_self, Nat.reduceSub, extractLsb'_whole]

theorem encS_5 (op : Nat) (imm : BitVec 12) (a b : Name) : (encS op imm a b).extractLsb' 5 7 = b := by
  simp only [encS]
  repeat (first | rw [extractLsb'_append_low _ _ _ _ (by omega)] | rw [extractLsb'_append_high _ _ _ _ (by omega)])
  simp only [Nat.sub_self, Nat.reduceSub, extractLsb'_whole]

theorem encS_0 (op : Nat) (imm : BitVec 12) (a b : Name) : (encS op imm a b).extractLsb' 0 5 = imm.extractLsb' 0 5 := by
  simp only [encS]
  repeat (first | rw [extractLsb'_append_low _ _ _ _ (by omega)] | rw [extractLsb'_append_high _ _ _ _ (by omega)])
  simp only [Nat.sub_self, Nat.reduceSub, extractLsb'_whole]

theorem encU_26 (op : Nat) (d : Name) (imm : BitVec 19) : (encU op d imm).extractLsb' 26 6 = BitVec.ofNat 6 op := by
  simp only [encU]
  repeat (first | rw [extractLsb'_append_low _ _ _ _ (by omega)] | rw [extractLsb'_append_high _ _ _ _ (by omega)])
  simp only [Nat.sub_self, Nat.reduceSub, extractLsb'_whole]

theorem encU_19 (op : Nat) (d : Name) (imm : BitVec 19) : (encU op d imm).extractLsb' 19 7 = d := by
  simp only [encU]
  repeat (first | rw [extractLsb'_append_low _ _ _ _ (by omega)] | rw [extractLsb'_append_high _ _ _ _ (by omega)])
  simp only [Nat.sub_self, Nat.reduceSub, extractLsb'_whole]

theorem encU_0 (op : Nat) (d : Name) (imm : BitVec 19) : (encU op d imm).extractLsb' 0 19 = imm := by
  simp only [encU]
  repeat (first | rw [extractLsb'_append_low _ _ _ _ (by omega)] | rw [extractLsb'_append_high _ _ _ _ (by omega)])
  simp only [Nat.sub_self, Nat.reduceSub, extractLsb'_whole]

theorem encJ_26 (op : Nat) (off : BitVec 26) : (encJ op off).extractLsb' 26 6 = BitVec.ofNat 6 op := by
  simp only [encJ]
  repeat (first | rw [extractLsb'_append_low _ _ _ _ (by omega)] | rw [extractLsb'_append_high _ _ _ _ (by omega)])
  simp only [Nat.sub_self, Nat.reduceSub, extractLsb'_whole]

theorem encJ_0 (op : Nat) (off : BitVec 26) : (encJ op off).extractLsb' 0 26 = off := by
  simp only [encJ]
  repeat (first | rw [extractLsb'_append_low _ _ _ _ (by omega)] | rw [extractLsb'_append_high _ _ _ _ (by omega)])
  simp only [Nat.sub_self, Nat.reduceSub, extractLsb'_whole]

theorem encP_26 (op : Nat) (ng : BitVec 1) (p : BitVec 3) (off : BitVec 22) : (encP op ng p off).extractLsb' 26 6 = BitVec.ofNat 6 op := by
  simp only [encP]
  repeat (first | rw [extractLsb'_append_low _ _ _ _ (by omega)] | rw [extractLsb'_append_high _ _ _ _ (by omega)])
  simp only [Nat.sub_self, Nat.reduceSub, extractLsb'_whole]

theorem encP_25 (op : Nat) (ng : BitVec 1) (p : BitVec 3) (off : BitVec 22) : (encP op ng p off).extractLsb' 25 1 = ng := by
  simp only [encP]
  repeat (first | rw [extractLsb'_append_low _ _ _ _ (by omega)] | rw [extractLsb'_append_high _ _ _ _ (by omega)])
  simp only [Nat.sub_self, Nat.reduceSub, extractLsb'_whole]

theorem encP_22 (op : Nat) (ng : BitVec 1) (p : BitVec 3) (off : BitVec 22) : (encP op ng p off).extractLsb' 22 3 = p := by
  simp only [encP]
  repeat (first | rw [extractLsb'_append_low _ _ _ _ (by omega)] | rw [extractLsb'_append_high _ _ _ _ (by omega)])
  simp only [Nat.sub_self, Nat.reduceSub, extractLsb'_whole]

theorem encP_0 (op : Nat) (ng : BitVec 1) (p : BitVec 3) (off : BitVec 22) : (encP op ng p off).extractLsb' 0 22 = off := by
  simp only [encP]
  repeat (first | rw [extractLsb'_append_low _ _ _ _ (by omega)] | rw [extractLsb'_append_high _ _ _ _ (by omega)])
  simp only [Nat.sub_self, Nat.reduceSub, extractLsb'_whole]

theorem encC_26 (op fn : Nat) (pd pg : BitVec 3) (ng : BitVec 1) (a b : BitVec 7) : (encC op fn pd pg ng a b).extractLsb' 26 6 = BitVec.ofNat 6 op := by
  simp only [encC]
  repeat (first | rw [extractLsb'_append_low _ _ _ _ (by omega)] | rw [extractLsb'_append_high _ _ _ _ (by omega)])
  simp only [Nat.sub_self, Nat.reduceSub, extractLsb'_whole]

theorem encC_23 (op fn : Nat) (pd pg : BitVec 3) (ng : BitVec 1) (a b : BitVec 7) : (encC op fn pd pg ng a b).extractLsb' 23 3 = pd := by
  simp only [encC]
  repeat (first | rw [extractLsb'_append_low _ _ _ _ (by omega)] | rw [extractLsb'_append_high _ _ _ _ (by omega)])
  simp only [Nat.sub_self, Nat.reduceSub, extractLsb'_whole]

theorem encC_20 (op fn : Nat) (pd pg : BitVec 3) (ng : BitVec 1) (a b : BitVec 7) : (encC op fn pd pg ng a b).extractLsb' 20 3 = pg := by
  simp only [encC]
  repeat (first | rw [extractLsb'_append_low _ _ _ _ (by omega)] | rw [extractLsb'_append_high _ _ _ _ (by omega)])
  simp only [Nat.sub_self, Nat.reduceSub, extractLsb'_whole]

theorem encC_19 (op fn : Nat) (pd pg : BitVec 3) (ng : BitVec 1) (a b : BitVec 7) : (encC op fn pd pg ng a b).extractLsb' 19 1 = ng := by
  simp only [encC]
  repeat (first | rw [extractLsb'_append_low _ _ _ _ (by omega)] | rw [extractLsb'_append_high _ _ _ _ (by omega)])
  simp only [Nat.sub_self, Nat.reduceSub, extractLsb'_whole]

theorem encC_12 (op fn : Nat) (pd pg : BitVec 3) (ng : BitVec 1) (a b : BitVec 7) : (encC op fn pd pg ng a b).extractLsb' 12 7 = a := by
  simp only [encC]
  repeat (first | rw [extractLsb'_append_low _ _ _ _ (by omega)] | rw [extractLsb'_append_high _ _ _ _ (by omega)])
  simp only [Nat.sub_self, Nat.reduceSub, extractLsb'_whole]

theorem encC_5 (op fn : Nat) (pd pg : BitVec 3) (ng : BitVec 1) (a b : BitVec 7) : (encC op fn pd pg ng a b).extractLsb' 5 7 = b := by
  simp only [encC]
  repeat (first | rw [extractLsb'_append_low _ _ _ _ (by omega)] | rw [extractLsb'_append_high _ _ _ _ (by omega)])
  simp only [Nat.sub_self, Nat.reduceSub, extractLsb'_whole]

theorem encC_0 (op fn : Nat) (pd pg : BitVec 3) (ng : BitVec 1) (a b : BitVec 7) : (encC op fn pd pg ng a b).extractLsb' 0 5 = BitVec.ofNat 5 fn := by
  simp only [encC]
  repeat (first | rw [extractLsb'_append_low _ _ _ _ (by omega)] | rw [extractLsb'_append_high _ _ _ _ (by omega)])
  simp only [Nat.sub_self, Nat.reduceSub, extractLsb'_whole]

theorem encW_26 (op : Nat) (l s c t : BitVec 4) : (encW op l s c t).extractLsb' 26 6 = BitVec.ofNat 6 op := by
  simp only [encW]
  repeat (first | rw [extractLsb'_append_low _ _ _ _ (by omega)] | rw [extractLsb'_append_high _ _ _ _ (by omega)])
  simp only [Nat.sub_self, Nat.reduceSub, extractLsb'_whole]

theorem encW_22 (op : Nat) (l s c t : BitVec 4) : (encW op l s c t).extractLsb' 22 4 = l := by
  simp only [encW]
  repeat (first | rw [extractLsb'_append_low _ _ _ _ (by omega)] | rw [extractLsb'_append_high _ _ _ _ (by omega)])
  simp only [Nat.sub_self, Nat.reduceSub, extractLsb'_whole]

theorem encW_18 (op : Nat) (l s c t : BitVec 4) : (encW op l s c t).extractLsb' 18 4 = s := by
  simp only [encW]
  repeat (first | rw [extractLsb'_append_low _ _ _ _ (by omega)] | rw [extractLsb'_append_high _ _ _ _ (by omega)])
  simp only [Nat.sub_self, Nat.reduceSub, extractLsb'_whole]

theorem encW_14 (op : Nat) (l s c t : BitVec 4) : (encW op l s c t).extractLsb' 14 4 = c := by
  simp only [encW]
  repeat (first | rw [extractLsb'_append_low _ _ _ _ (by omega)] | rw [extractLsb'_append_high _ _ _ _ (by omega)])
  simp only [Nat.sub_self, Nat.reduceSub, extractLsb'_whole]

theorem encW_10 (op : Nat) (l s c t : BitVec 4) : (encW op l s c t).extractLsb' 10 4 = t := by
  simp only [encW]
  repeat (first | rw [extractLsb'_append_low _ _ _ _ (by omega)] | rw [extractLsb'_append_high _ _ _ _ (by omega)])
  simp only [Nat.sub_self, Nat.reduceSub, extractLsb'_whole]

theorem encM_26 (op : Nat) (t a b : Name) (msel : BitVec 2) (acc bt : BitVec 1) : (encM op t a b msel acc bt).extractLsb' 26 6 = BitVec.ofNat 6 op := by
  simp only [encM]
  repeat (first | rw [extractLsb'_append_low _ _ _ _ (by omega)] | rw [extractLsb'_append_high _ _ _ _ (by omega)])
  simp only [Nat.sub_self, Nat.reduceSub, extractLsb'_whole]

theorem encM_19 (op : Nat) (t a b : Name) (msel : BitVec 2) (acc bt : BitVec 1) : (encM op t a b msel acc bt).extractLsb' 19 7 = t := by
  simp only [encM]
  repeat (first | rw [extractLsb'_append_low _ _ _ _ (by omega)] | rw [extractLsb'_append_high _ _ _ _ (by omega)])
  simp only [Nat.sub_self, Nat.reduceSub, extractLsb'_whole]

theorem encM_12 (op : Nat) (t a b : Name) (msel : BitVec 2) (acc bt : BitVec 1) : (encM op t a b msel acc bt).extractLsb' 12 7 = a := by
  simp only [encM]
  repeat (first | rw [extractLsb'_append_low _ _ _ _ (by omega)] | rw [extractLsb'_append_high _ _ _ _ (by omega)])
  simp only [Nat.sub_self, Nat.reduceSub, extractLsb'_whole]

theorem encM_5 (op : Nat) (t a b : Name) (msel : BitVec 2) (acc bt : BitVec 1) : (encM op t a b msel acc bt).extractLsb' 5 7 = b := by
  simp only [encM]
  repeat (first | rw [extractLsb'_append_low _ _ _ _ (by omega)] | rw [extractLsb'_append_high _ _ _ _ (by omega)])
  simp only [Nat.sub_self, Nat.reduceSub, extractLsb'_whole]

theorem encM_3 (op : Nat) (t a b : Name) (msel : BitVec 2) (acc bt : BitVec 1) : (encM op t a b msel acc bt).extractLsb' 3 2 = msel := by
  simp only [encM]
  repeat (first | rw [extractLsb'_append_low _ _ _ _ (by omega)] | rw [extractLsb'_append_high _ _ _ _ (by omega)])
  simp only [Nat.sub_self, Nat.reduceSub, extractLsb'_whole]

theorem encM_2 (op : Nat) (t a b : Name) (msel : BitVec 2) (acc bt : BitVec 1) : (encM op t a b msel acc bt).extractLsb' 2 1 = acc := by
  simp only [encM]
  repeat (first | rw [extractLsb'_append_low _ _ _ _ (by omega)] | rw [extractLsb'_append_high _ _ _ _ (by omega)])
  simp only [Nat.sub_self, Nat.reduceSub, extractLsb'_whole]

theorem encM_1 (op : Nat) (t a b : Name) (msel : BitVec 2) (acc bt : BitVec 1) : (encM op t a b msel acc bt).extractLsb' 1 1 = bt := by
  simp only [encM]
  repeat (first | rw [extractLsb'_append_low _ _ _ _ (by omega)] | rw [extractLsb'_append_high _ _ _ _ (by omega)])
  simp only [Nat.sub_self, Nat.reduceSub, extractLsb'_whole]

/-- The major and the fields of a word of format A. -/
theorem pick_encA (op fn : Nat) (d a b : Name) : pick (encA op fn d a b) =
    pickMajor (BitVec.ofNat 6 op).toNat (encA op fn d a b) { d := d, a := a, b := b, fn := (BitVec.ofNat 5 fn).toNat } := by
  simp only [pick, fieldsOf, encA_26, encA_19, encA_12, encA_5, encA_0]

/-- The major and the fields of a word of format I. -/
theorem pick_encI (op : Nat) (d a : Name) (imm : BitVec 12) : pick (encI op d a imm) =
    pickMajor (BitVec.ofNat 6 op).toNat (encI op d a imm)
      { d := d, a := a, b := (encI op d a imm).extractLsb' 5 7, fn := ((encI op d a imm).extractLsb' 0 5).toNat } := by
  simp only [pick, fieldsOf, encI_26, encI_19, encI_12]

/-- The major and the fields of a word of format S. -/
theorem pick_encS (op : Nat) (imm : BitVec 12) (a b : Name) : pick (encS op imm a b) =
    pickMajor (BitVec.ofNat 6 op).toNat (encS op imm a b)
      { d := imm.extractLsb' 5 7, a := a, b := b, fn := (imm.extractLsb' 0 5).toNat } := by
  simp only [pick, fieldsOf, encS_26, encS_19, encS_12, encS_5, encS_0]

/-- The major and the fields of a word of format U. -/
theorem pick_encU (op : Nat) (d : Name) (imm : BitVec 19) : pick (encU op d imm) =
    pickMajor (BitVec.ofNat 6 op).toNat (encU op d imm)
      { d := d, a := (encU op d imm).extractLsb' 12 7, b := (encU op d imm).extractLsb' 5 7, fn := ((encU op d imm).extractLsb' 0 5).toNat } := by
  simp only [pick, fieldsOf, encU_26, encU_19]

/-- The major and the fields of a word of format J. -/
theorem pick_encJ (op : Nat) (off : BitVec 26) : pick (encJ op off) =
    pickMajor (BitVec.ofNat 6 op).toNat (encJ op off)
      { d := (encJ op off).extractLsb' 19 7, a := (encJ op off).extractLsb' 12 7, b := (encJ op off).extractLsb' 5 7, fn := ((encJ op off).extractLsb' 0 5).toNat } := by
  simp only [pick, fieldsOf, encJ_26]

/-- The major and the fields of a word of format P. -/
theorem pick_encP (op : Nat) (ng : BitVec 1) (p : BitVec 3) (off : BitVec 22) : pick (encP op ng p off) =
    pickMajor (BitVec.ofNat 6 op).toNat (encP op ng p off)
      { d := (encP op ng p off).extractLsb' 19 7, a := (encP op ng p off).extractLsb' 12 7, b := (encP op ng p off).extractLsb' 5 7, fn := ((encP op ng p off).extractLsb' 0 5).toNat } := by
  simp only [pick, fieldsOf, encP_26]

/-- The major and the fields of a word of format C. -/
theorem pick_encC (op fn : Nat) (pd pg : BitVec 3) (ng : BitVec 1) (a b : BitVec 7) : pick (encC op fn pd pg ng a b) =
    pickMajor (BitVec.ofNat 6 op).toNat (encC op fn pd pg ng a b)
      { d := (encC op fn pd pg ng a b).extractLsb' 19 7, a := a, b := b, fn := (BitVec.ofNat 5 fn).toNat } := by
  simp only [pick, fieldsOf, encC_26, encC_12, encC_5, encC_0]

/-- The major and the fields of a word of format W. -/
theorem pick_encW (op : Nat) (l s c t : BitVec 4) : pick (encW op l s c t) =
    pickMajor (BitVec.ofNat 6 op).toNat (encW op l s c t)
      { d := (encW op l s c t).extractLsb' 19 7, a := (encW op l s c t).extractLsb' 12 7, b := (encW op l s c t).extractLsb' 5 7, fn := ((encW op l s c t).extractLsb' 0 5).toNat } := by
  simp only [pick, fieldsOf, encW_26]

/-- The major and the fields of a word of format M. -/
theorem pick_encM (op : Nat) (t a b : Name) (msel : BitVec 2) (acc bt : BitVec 1) : pick (encM op t a b msel acc bt) =
    pickMajor (BitVec.ofNat 6 op).toNat (encM op t a b msel acc bt)
      { d := t, a := a, b := b, fn := ((encM op t a b msel acc bt).extractLsb' 0 5).toNat } := by
  simp only [pick, fieldsOf, encM_26, encM_19, encM_12, encM_5]

/-- The low part of a field. -/
theorem extractLsb'_narrow (w : BitVec 32) (i n m : Nat) (h : m ≤ n) :
    w.extractLsb' i m = (w.extractLsb' i n).extractLsb' 0 m := by
  rw [extractLsb'_nested _ _ _ _ _ (by omega)]; rfl

/-- A part of a field that stands at bit 0 of a word. -/
theorem extractLsb'_within (w : BitVec 32) (n k m : Nat) (h : k + m ≤ n) :
    w.extractLsb' k m = (w.extractLsb' 0 n).extractLsb' k m := by
  rw [extractLsb'_nested _ _ _ _ _ h]; simp

/-- Two fields side by side. -/
theorem extractLsb'_join (w : BitVec 32) (i n m : Nat) :
    w.extractLsb' i (n + m) = w.extractLsb' (i + m) n ++ w.extractLsb' i m := by
  have h := append_extractLsb' n m (w.extractLsb' i (n + m))
  rw [extractLsb'_nested _ _ _ _ _ (by omega), extractLsb'_nested _ _ _ _ _ (by omega)] at h
  exact h.symm

theorem immS_encS (op : Nat) (imm : BitVec 12) (a b : Name) : immS (encS op imm a b) = imm := by
  rw [immS, encS_19, encS_0]; exact append_extractLsb' 7 5 imm

end Sys2Proof.Laws
end

