-- ==== Sys2Proof/Laws/Sparse.lean ====
section
/-! SUPPORT. Sys2Proof/Laws/Sparse.lean: what a read of a sparse table gives after a write. -/

namespace Sys2Proof

/-- A read after a write gives the value written, and every other key reads as before. -/
@[simp] theorem Sparse.get_put {α : Type} (d : α) (m : Sparse α) (n : Nat) (x : α) (k : Nat) :
    Sparse.get d (Sparse.put m n x) k = if k = n then x else Sparse.get d m k := by
  induction m with
  | nil => by_cases h : k = n <;> simp [Sparse.put, Sparse.get, h]
  | cons e t ih =>
    obtain ⟨a, v⟩ := e
    simp only [Sparse.put]
    split
    · subst_vars
      by_cases h : k = a
      · simp [Sparse.get, h]
      · simp [Sparse.get, h]
    · split
      · by_cases h : k = n
        · simp [Sparse.get, h]
        · by_cases h' : k < n
          · have : k < a := by omega
            simp [Sparse.get, h, h', this, show k ≠ a by omega]
          · simp [Sparse.get, h, h']
      · simp only [Sparse.get, ih]
        by_cases h : k = a
        · simp [h, show ¬ a = n by omega]
        · by_cases h' : k < a
          · simp [h, h', show ¬ k = n by omega]
          · simp [h, h']

/-- A key is listed after a write when it is the key written or was listed. -/
theorem Sparse.has_put {α : Type} (m : Sparse α) (n : Nat) (x : α) (k : Nat) :
    Sparse.has (Sparse.put m n x) k = (k = n || Sparse.has m k) := by
  induction m with
  | nil => by_cases h : k = n <;> simp [Sparse.put, Sparse.has, h]
  | cons e t ih =>
    obtain ⟨a, v⟩ := e
    simp only [Sparse.put]
    split
    · subst_vars
      by_cases h : k = a <;> simp [Sparse.has, h]
    · split
      · by_cases h : k = n
        · simp [Sparse.has, h]
        · by_cases h' : k < n
          · have : k < a := by omega
            simp [Sparse.has, h, h', this, show k ≠ a by omega]
          · simp [Sparse.has, h, h']
      · simp only [Sparse.has, ih]
        by_cases h : k = a
        · simp [h]
        · by_cases h' : k < a
          · simp [h, h', show ¬ k = n by omega]
          · simp [h, h']

end Sys2Proof
end

