-- ==== Sys2Proof/Laws/State.lean ====
section
/-! SUPPORT. Sys2Proof/Laws/State.lean: for each update of the state, one lemma per field that it leaves, and what the
accessors read after it. -/

namespace Sys2Proof.Machine

/-! ### setCore -/

@[simp] theorem State.setCore_mem (s : State) (g : Nat) (c : Core) : (s.setCore g c).mem = s.mem := rfl
@[simp] theorem State.setCore_tags (s : State) (g : Nat) (c : Core) : (s.setCore g c).tags = s.tags := rfl
@[simp] theorem State.setCore_bad (s : State) (g : Nat) (c : Core) : (s.setCore g c).bad = s.bad := rfl
@[simp] theorem State.setCore_masons (s : State) (g : Nat) (c : Core) : (s.setCore g c).masons = s.masons := rfl
@[simp] theorem State.setCore_ops (s : State) (g : Nat) (c : Core) : (s.setCore g c).ops = s.ops := rfl
@[simp] theorem State.setCore_nextId (s : State) (g : Nat) (c : Core) : (s.setCore g c).nextId = s.nextId := rfl
@[simp] theorem State.setCore_gangs (s : State) (g : Nat) (c : Core) : (s.setCore g c).gangs = s.gangs := rfl
@[simp] theorem State.setCore_parts (s : State) (g : Nat) (c : Core) : (s.setCore g c).parts = s.parts := rfl
@[simp] theorem State.setCore_monitor (s : State) (g : Nat) (c : Core) : (s.setCore g c).monitor = s.monitor := rfl
@[simp] theorem State.setCore_vfs (s : State) (g : Nat) (c : Core) : (s.setCore g c).vfs = s.vfs := rfl
@[simp] theorem State.setCore_masked (s : State) (g : Nat) (c : Core) : (s.setCore g c).masked = s.masked := rfl
@[simp] theorem State.setCore_pkgId (s : State) (g : Nat) (c : Core) : (s.setCore g c).pkgId = s.pkgId := rfl
@[simp] theorem State.setCore_irqs (s : State) (g : Nat) (c : Core) : (s.setCore g c).irqs = s.irqs := rfl
@[simp] theorem State.setCore_msixMasked (s : State) (g : Nat) (c : Core) : (s.setCore g c).msixMasked = s.msixMasked := rfl
@[simp] theorem State.setCore_hostReads (s : State) (g : Nat) (c : Core) : (s.setCore g c).hostReads = s.hostReads := rfl
@[simp] theorem State.setCore_probeReads (s : State) (g : Nat) (c : Core) : (s.setCore g c).probeReads = s.probeReads := rfl
@[simp] theorem State.setCore_fabricOut (s : State) (g : Nat) (c : Core) : (s.setCore g c).fabricOut = s.fabricOut := rfl
@[simp] theorem State.setCore_seals (s : State) (g : Nat) (c : Core) : (s.setCore g c).seals = s.seals := rfl
@[simp] theorem State.setCore_saves (s : State) (g : Nat) (c : Core) : (s.setCore g c).saves = s.saves := rfl
@[simp] theorem State.setCore_vr (s : State) (g : Nat) (c : Core) : (s.setCore g c).vr = s.vr := rfl
@[simp] theorem State.setCore_free (s : State) (g : Nat) (c : Core) : (s.setCore g c).free = s.free := rfl
@[simp] theorem State.setCore_agenda (s : State) (g : Nat) (c : Core) : (s.setCore g c).agenda = s.agenda := rfl
@[simp] theorem State.setCore_rr (s : State) (g : Nat) (c : Core) : (s.setCore g c).rr = s.rr := rfl
@[simp] theorem State.setCore_cur (s : State) (g : Nat) (c : Core) : (s.setCore g c).cur = s.cur := rfl
@[simp] theorem State.setCore_turn (s : State) (g : Nat) (c : Core) : (s.setCore g c).turn = s.turn := rfl
@[simp] theorem State.setCore_ev (s : State) (g : Nat) (c : Core) : (s.setCore g c).ev = s.ev := rfl

/-! ### setSlot -/

@[simp] theorem State.setSlot_mem (s : State) (g k : Nat) (x : Slot) : (s.setSlot g k x).mem = s.mem := rfl
@[simp] theorem State.setSlot_tags (s : State) (g k : Nat) (x : Slot) : (s.setSlot g k x).tags = s.tags := rfl
@[simp] theorem State.setSlot_bad (s : State) (g k : Nat) (x : Slot) : (s.setSlot g k x).bad = s.bad := rfl
@[simp] theorem State.setSlot_masons (s : State) (g k : Nat) (x : Slot) : (s.setSlot g k x).masons = s.masons := rfl
@[simp] theorem State.setSlot_ops (s : State) (g k : Nat) (x : Slot) : (s.setSlot g k x).ops = s.ops := rfl
@[simp] theorem State.setSlot_nextId (s : State) (g k : Nat) (x : Slot) : (s.setSlot g k x).nextId = s.nextId := rfl
@[simp] theorem State.setSlot_gangs (s : State) (g k : Nat) (x : Slot) : (s.setSlot g k x).gangs = s.gangs := rfl
@[simp] theorem State.setSlot_parts (s : State) (g k : Nat) (x : Slot) : (s.setSlot g k x).parts = s.parts := rfl
@[simp] theorem State.setSlot_monitor (s : State) (g k : Nat) (x : Slot) : (s.setSlot g k x).monitor = s.monitor := rfl
@[simp] theorem State.setSlot_vfs (s : State) (g k : Nat) (x : Slot) : (s.setSlot g k x).vfs = s.vfs := rfl
@[simp] theorem State.setSlot_masked (s : State) (g k : Nat) (x : Slot) : (s.setSlot g k x).masked = s.masked := rfl
@[simp] theorem State.setSlot_pkgId (s : State) (g k : Nat) (x : Slot) : (s.setSlot g k x).pkgId = s.pkgId := rfl
@[simp] theorem State.setSlot_irqs (s : State) (g k : Nat) (x : Slot) : (s.setSlot g k x).irqs = s.irqs := rfl
@[simp] theorem State.setSlot_msixMasked (s : State) (g k : Nat) (x : Slot) : (s.setSlot g k x).msixMasked = s.msixMasked := rfl
@[simp] theorem State.setSlot_hostReads (s : State) (g k : Nat) (x : Slot) : (s.setSlot g k x).hostReads = s.hostReads := rfl
@[simp] theorem State.setSlot_probeReads (s : State) (g k : Nat) (x : Slot) : (s.setSlot g k x).probeReads = s.probeReads := rfl
@[simp] theorem State.setSlot_fabricOut (s : State) (g k : Nat) (x : Slot) : (s.setSlot g k x).fabricOut = s.fabricOut := rfl
@[simp] theorem State.setSlot_seals (s : State) (g k : Nat) (x : Slot) : (s.setSlot g k x).seals = s.seals := rfl
@[simp] theorem State.setSlot_saves (s : State) (g k : Nat) (x : Slot) : (s.setSlot g k x).saves = s.saves := rfl
@[simp] theorem State.setSlot_vr (s : State) (g k : Nat) (x : Slot) : (s.setSlot g k x).vr = s.vr := rfl
@[simp] theorem State.setSlot_free (s : State) (g k : Nat) (x : Slot) : (s.setSlot g k x).free = s.free := rfl
@[simp] theorem State.setSlot_agenda (s : State) (g k : Nat) (x : Slot) : (s.setSlot g k x).agenda = s.agenda := rfl
@[simp] theorem State.setSlot_rr (s : State) (g k : Nat) (x : Slot) : (s.setSlot g k x).rr = s.rr := rfl
@[simp] theorem State.setSlot_cur (s : State) (g k : Nat) (x : Slot) : (s.setSlot g k x).cur = s.cur := rfl
@[simp] theorem State.setSlot_turn (s : State) (g k : Nat) (x : Slot) : (s.setSlot g k x).turn = s.turn := rfl
@[simp] theorem State.setSlot_ev (s : State) (g k : Nat) (x : Slot) : (s.setSlot g k x).ev = s.ev := rfl

/-! ### setCell -/

@[simp] theorem State.setCell_mem (s : State) (g c : Nat) (x : Tagged) : (s.setCell g c x).mem = s.mem := rfl
@[simp] theorem State.setCell_tags (s : State) (g c : Nat) (x : Tagged) : (s.setCell g c x).tags = s.tags := rfl
@[simp] theorem State.setCell_bad (s : State) (g c : Nat) (x : Tagged) : (s.setCell g c x).bad = s.bad := rfl
@[simp] theorem State.setCell_masons (s : State) (g c : Nat) (x : Tagged) : (s.setCell g c x).masons = s.masons := rfl
@[simp] theorem State.setCell_ops (s : State) (g c : Nat) (x : Tagged) : (s.setCell g c x).ops = s.ops := rfl
@[simp] theorem State.setCell_nextId (s : State) (g c : Nat) (x : Tagged) : (s.setCell g c x).nextId = s.nextId := rfl
@[simp] theorem State.setCell_gangs (s : State) (g c : Nat) (x : Tagged) : (s.setCell g c x).gangs = s.gangs := rfl
@[simp] theorem State.setCell_parts (s : State) (g c : Nat) (x : Tagged) : (s.setCell g c x).parts = s.parts := rfl
@[simp] theorem State.setCell_monitor (s : State) (g c : Nat) (x : Tagged) : (s.setCell g c x).monitor = s.monitor := rfl
@[simp] theorem State.setCell_vfs (s : State) (g c : Nat) (x : Tagged) : (s.setCell g c x).vfs = s.vfs := rfl
@[simp] theorem State.setCell_masked (s : State) (g c : Nat) (x : Tagged) : (s.setCell g c x).masked = s.masked := rfl
@[simp] theorem State.setCell_pkgId (s : State) (g c : Nat) (x : Tagged) : (s.setCell g c x).pkgId = s.pkgId := rfl
@[simp] theorem State.setCell_irqs (s : State) (g c : Nat) (x : Tagged) : (s.setCell g c x).irqs = s.irqs := rfl
@[simp] theorem State.setCell_msixMasked (s : State) (g c : Nat) (x : Tagged) : (s.setCell g c x).msixMasked = s.msixMasked := rfl
@[simp] theorem State.setCell_hostReads (s : State) (g c : Nat) (x : Tagged) : (s.setCell g c x).hostReads = s.hostReads := rfl
@[simp] theorem State.setCell_probeReads (s : State) (g c : Nat) (x : Tagged) : (s.setCell g c x).probeReads = s.probeReads := rfl
@[simp] theorem State.setCell_fabricOut (s : State) (g c : Nat) (x : Tagged) : (s.setCell g c x).fabricOut = s.fabricOut := rfl
@[simp] theorem State.setCell_seals (s : State) (g c : Nat) (x : Tagged) : (s.setCell g c x).seals = s.seals := rfl
@[simp] theorem State.setCell_saves (s : State) (g c : Nat) (x : Tagged) : (s.setCell g c x).saves = s.saves := rfl
@[simp] theorem State.setCell_vr (s : State) (g c : Nat) (x : Tagged) : (s.setCell g c x).vr = s.vr := rfl
@[simp] theorem State.setCell_free (s : State) (g c : Nat) (x : Tagged) : (s.setCell g c x).free = s.free := rfl
@[simp] theorem State.setCell_agenda (s : State) (g c : Nat) (x : Tagged) : (s.setCell g c x).agenda = s.agenda := rfl
@[simp] theorem State.setCell_rr (s : State) (g c : Nat) (x : Tagged) : (s.setCell g c x).rr = s.rr := rfl
@[simp] theorem State.setCell_cur (s : State) (g c : Nat) (x : Tagged) : (s.setCell g c x).cur = s.cur := rfl
@[simp] theorem State.setCell_turn (s : State) (g c : Nat) (x : Tagged) : (s.setCell g c x).turn = s.turn := rfl
@[simp] theorem State.setCell_ev (s : State) (g c : Nat) (x : Tagged) : (s.setCell g c x).ev = s.ev := rfl

/-! ### setMe -/

@[simp] theorem State.setMe_mem (s : State) (x : Slot) : (s.setMe x).mem = s.mem := rfl
@[simp] theorem State.setMe_tags (s : State) (x : Slot) : (s.setMe x).tags = s.tags := rfl
@[simp] theorem State.setMe_bad (s : State) (x : Slot) : (s.setMe x).bad = s.bad := rfl
@[simp] theorem State.setMe_masons (s : State) (x : Slot) : (s.setMe x).masons = s.masons := rfl
@[simp] theorem State.setMe_ops (s : State) (x : Slot) : (s.setMe x).ops = s.ops := rfl
@[simp] theorem State.setMe_nextId (s : State) (x : Slot) : (s.setMe x).nextId = s.nextId := rfl
@[simp] theorem State.setMe_gangs (s : State) (x : Slot) : (s.setMe x).gangs = s.gangs := rfl
@[simp] theorem State.setMe_parts (s : State) (x : Slot) : (s.setMe x).parts = s.parts := rfl
@[simp] theorem State.setMe_monitor (s : State) (x : Slot) : (s.setMe x).monitor = s.monitor := rfl
@[simp] theorem State.setMe_vfs (s : State) (x : Slot) : (s.setMe x).vfs = s.vfs := rfl
@[simp] theorem State.setMe_masked (s : State) (x : Slot) : (s.setMe x).masked = s.masked := rfl
@[simp] theorem State.setMe_pkgId (s : State) (x : Slot) : (s.setMe x).pkgId = s.pkgId := rfl
@[simp] theorem State.setMe_irqs (s : State) (x : Slot) : (s.setMe x).irqs = s.irqs := rfl
@[simp] theorem State.setMe_msixMasked (s : State) (x : Slot) : (s.setMe x).msixMasked = s.msixMasked := rfl
@[simp] theorem State.setMe_hostReads (s : State) (x : Slot) : (s.setMe x).hostReads = s.hostReads := rfl
@[simp] theorem State.setMe_probeReads (s : State) (x : Slot) : (s.setMe x).probeReads = s.probeReads := rfl
@[simp] theorem State.setMe_fabricOut (s : State) (x : Slot) : (s.setMe x).fabricOut = s.fabricOut := rfl
@[simp] theorem State.setMe_seals (s : State) (x : Slot) : (s.setMe x).seals = s.seals := rfl
@[simp] theorem State.setMe_saves (s : State) (x : Slot) : (s.setMe x).saves = s.saves := rfl
@[simp] theorem State.setMe_vr (s : State) (x : Slot) : (s.setMe x).vr = s.vr := rfl
@[simp] theorem State.setMe_free (s : State) (x : Slot) : (s.setMe x).free = s.free := rfl
@[simp] theorem State.setMe_agenda (s : State) (x : Slot) : (s.setMe x).agenda = s.agenda := rfl
@[simp] theorem State.setMe_rr (s : State) (x : Slot) : (s.setMe x).rr = s.rr := rfl
@[simp] theorem State.setMe_cur (s : State) (x : Slot) : (s.setMe x).cur = s.cur := rfl
@[simp] theorem State.setMe_turn (s : State) (x : Slot) : (s.setMe x).turn = s.turn := rfl
@[simp] theorem State.setMe_ev (s : State) (x : Slot) : (s.setMe x).ev = s.ev := rfl

/-! ### setMason -/

@[simp] theorem State.setMason_mem (s : State) (g : Nat) (m : Mason) : (s.setMason g m).mem = s.mem := rfl
@[simp] theorem State.setMason_tags (s : State) (g : Nat) (m : Mason) : (s.setMason g m).tags = s.tags := rfl
@[simp] theorem State.setMason_bad (s : State) (g : Nat) (m : Mason) : (s.setMason g m).bad = s.bad := rfl
@[simp] theorem State.setMason_cores (s : State) (g : Nat) (m : Mason) : (s.setMason g m).cores = s.cores := rfl
@[simp] theorem State.setMason_ops (s : State) (g : Nat) (m : Mason) : (s.setMason g m).ops = s.ops := rfl
@[simp] theorem State.setMason_nextId (s : State) (g : Nat) (m : Mason) : (s.setMason g m).nextId = s.nextId := rfl
@[simp] theorem State.setMason_gangs (s : State) (g : Nat) (m : Mason) : (s.setMason g m).gangs = s.gangs := rfl
@[simp] theorem State.setMason_parts (s : State) (g : Nat) (m : Mason) : (s.setMason g m).parts = s.parts := rfl
@[simp] theorem State.setMason_monitor (s : State) (g : Nat) (m : Mason) : (s.setMason g m).monitor = s.monitor := rfl
@[simp] theorem State.setMason_vfs (s : State) (g : Nat) (m : Mason) : (s.setMason g m).vfs = s.vfs := rfl
@[simp] theorem State.setMason_masked (s : State) (g : Nat) (m : Mason) : (s.setMason g m).masked = s.masked := rfl
@[simp] theorem State.setMason_pkgId (s : State) (g : Nat) (m : Mason) : (s.setMason g m).pkgId = s.pkgId := rfl
@[simp] theorem State.setMason_irqs (s : State) (g : Nat) (m : Mason) : (s.setMason g m).irqs = s.irqs := rfl
@[simp] theorem State.setMason_msixMasked (s : State) (g : Nat) (m : Mason) : (s.setMason g m).msixMasked = s.msixMasked := rfl
@[simp] theorem State.setMason_hostReads (s : State) (g : Nat) (m : Mason) : (s.setMason g m).hostReads = s.hostReads := rfl
@[simp] theorem State.setMason_probeReads (s : State) (g : Nat) (m : Mason) : (s.setMason g m).probeReads = s.probeReads := rfl
@[simp] theorem State.setMason_fabricOut (s : State) (g : Nat) (m : Mason) : (s.setMason g m).fabricOut = s.fabricOut := rfl
@[simp] theorem State.setMason_seals (s : State) (g : Nat) (m : Mason) : (s.setMason g m).seals = s.seals := rfl
@[simp] theorem State.setMason_saves (s : State) (g : Nat) (m : Mason) : (s.setMason g m).saves = s.saves := rfl
@[simp] theorem State.setMason_vr (s : State) (g : Nat) (m : Mason) : (s.setMason g m).vr = s.vr := rfl
@[simp] theorem State.setMason_free (s : State) (g : Nat) (m : Mason) : (s.setMason g m).free = s.free := rfl
@[simp] theorem State.setMason_agenda (s : State) (g : Nat) (m : Mason) : (s.setMason g m).agenda = s.agenda := rfl
@[simp] theorem State.setMason_rr (s : State) (g : Nat) (m : Mason) : (s.setMason g m).rr = s.rr := rfl
@[simp] theorem State.setMason_cur (s : State) (g : Nat) (m : Mason) : (s.setMason g m).cur = s.cur := rfl
@[simp] theorem State.setMason_turn (s : State) (g : Nat) (m : Mason) : (s.setMason g m).turn = s.turn := rfl
@[simp] theorem State.setMason_ev (s : State) (g : Nat) (m : Mason) : (s.setMason g m).ev = s.ev := rfl

/-! ### setPart -/

@[simp] theorem State.setPart_mem (s : State) (p : Nat) (x : Partition) : (s.setPart p x).mem = s.mem := rfl
@[simp] theorem State.setPart_tags (s : State) (p : Nat) (x : Partition) : (s.setPart p x).tags = s.tags := rfl
@[simp] theorem State.setPart_bad (s : State) (p : Nat) (x : Partition) : (s.setPart p x).bad = s.bad := rfl
@[simp] theorem State.setPart_cores (s : State) (p : Nat) (x : Partition) : (s.setPart p x).cores = s.cores := rfl
@[simp] theorem State.setPart_masons (s : State) (p : Nat) (x : Partition) : (s.setPart p x).masons = s.masons := rfl
@[simp] theorem State.setPart_ops (s : State) (p : Nat) (x : Partition) : (s.setPart p x).ops = s.ops := rfl
@[simp] theorem State.setPart_nextId (s : State) (p : Nat) (x : Partition) : (s.setPart p x).nextId = s.nextId := rfl
@[simp] theorem State.setPart_gangs (s : State) (p : Nat) (x : Partition) : (s.setPart p x).gangs = s.gangs := rfl
@[simp] theorem State.setPart_monitor (s : State) (p : Nat) (x : Partition) : (s.setPart p x).monitor = s.monitor := rfl
@[simp] theorem State.setPart_vfs (s : State) (p : Nat) (x : Partition) : (s.setPart p x).vfs = s.vfs := rfl
@[simp] theorem State.setPart_masked (s : State) (p : Nat) (x : Partition) : (s.setPart p x).masked = s.masked := rfl
@[simp] theorem State.setPart_pkgId (s : State) (p : Nat) (x : Partition) : (s.setPart p x).pkgId = s.pkgId := rfl
@[simp] theorem State.setPart_irqs (s : State) (p : Nat) (x : Partition) : (s.setPart p x).irqs = s.irqs := rfl
@[simp] theorem State.setPart_msixMasked (s : State) (p : Nat) (x : Partition) : (s.setPart p x).msixMasked = s.msixMasked := rfl
@[simp] theorem State.setPart_hostReads (s : State) (p : Nat) (x : Partition) : (s.setPart p x).hostReads = s.hostReads := rfl
@[simp] theorem State.setPart_probeReads (s : State) (p : Nat) (x : Partition) : (s.setPart p x).probeReads = s.probeReads := rfl
@[simp] theorem State.setPart_fabricOut (s : State) (p : Nat) (x : Partition) : (s.setPart p x).fabricOut = s.fabricOut := rfl
@[simp] theorem State.setPart_seals (s : State) (p : Nat) (x : Partition) : (s.setPart p x).seals = s.seals := rfl
@[simp] theorem State.setPart_saves (s : State) (p : Nat) (x : Partition) : (s.setPart p x).saves = s.saves := rfl
@[simp] theorem State.setPart_vr (s : State) (p : Nat) (x : Partition) : (s.setPart p x).vr = s.vr := rfl
@[simp] theorem State.setPart_free (s : State) (p : Nat) (x : Partition) : (s.setPart p x).free = s.free := rfl
@[simp] theorem State.setPart_agenda (s : State) (p : Nat) (x : Partition) : (s.setPart p x).agenda = s.agenda := rfl
@[simp] theorem State.setPart_rr (s : State) (p : Nat) (x : Partition) : (s.setPart p x).rr = s.rr := rfl
@[simp] theorem State.setPart_cur (s : State) (p : Nat) (x : Partition) : (s.setPart p x).cur = s.cur := rfl
@[simp] theorem State.setPart_turn (s : State) (p : Nat) (x : Partition) : (s.setPart p x).turn = s.turn := rfl
@[simp] theorem State.setPart_ev (s : State) (p : Nat) (x : Partition) : (s.setPart p x).ev = s.ev := rfl

/-! ### dropOp -/

@[simp] theorem State.dropOp_mem (s : State) (id : Nat) : (s.dropOp id).mem = s.mem := rfl
@[simp] theorem State.dropOp_tags (s : State) (id : Nat) : (s.dropOp id).tags = s.tags := rfl
@[simp] theorem State.dropOp_bad (s : State) (id : Nat) : (s.dropOp id).bad = s.bad := rfl
@[simp] theorem State.dropOp_cores (s : State) (id : Nat) : (s.dropOp id).cores = s.cores := rfl
@[simp] theorem State.dropOp_masons (s : State) (id : Nat) : (s.dropOp id).masons = s.masons := rfl
@[simp] theorem State.dropOp_nextId (s : State) (id : Nat) : (s.dropOp id).nextId = s.nextId := rfl
@[simp] theorem State.dropOp_gangs (s : State) (id : Nat) : (s.dropOp id).gangs = s.gangs := rfl
@[simp] theorem State.dropOp_parts (s : State) (id : Nat) : (s.dropOp id).parts = s.parts := rfl
@[simp] theorem State.dropOp_monitor (s : State) (id : Nat) : (s.dropOp id).monitor = s.monitor := rfl
@[simp] theorem State.dropOp_vfs (s : State) (id : Nat) : (s.dropOp id).vfs = s.vfs := rfl
@[simp] theorem State.dropOp_masked (s : State) (id : Nat) : (s.dropOp id).masked = s.masked := rfl
@[simp] theorem State.dropOp_pkgId (s : State) (id : Nat) : (s.dropOp id).pkgId = s.pkgId := rfl
@[simp] theorem State.dropOp_irqs (s : State) (id : Nat) : (s.dropOp id).irqs = s.irqs := rfl
@[simp] theorem State.dropOp_msixMasked (s : State) (id : Nat) : (s.dropOp id).msixMasked = s.msixMasked := rfl
@[simp] theorem State.dropOp_hostReads (s : State) (id : Nat) : (s.dropOp id).hostReads = s.hostReads := rfl
@[simp] theorem State.dropOp_probeReads (s : State) (id : Nat) : (s.dropOp id).probeReads = s.probeReads := rfl
@[simp] theorem State.dropOp_fabricOut (s : State) (id : Nat) : (s.dropOp id).fabricOut = s.fabricOut := rfl
@[simp] theorem State.dropOp_seals (s : State) (id : Nat) : (s.dropOp id).seals = s.seals := rfl
@[simp] theorem State.dropOp_saves (s : State) (id : Nat) : (s.dropOp id).saves = s.saves := rfl
@[simp] theorem State.dropOp_vr (s : State) (id : Nat) : (s.dropOp id).vr = s.vr := rfl
@[simp] theorem State.dropOp_free (s : State) (id : Nat) : (s.dropOp id).free = s.free := rfl
@[simp] theorem State.dropOp_agenda (s : State) (id : Nat) : (s.dropOp id).agenda = s.agenda := rfl
@[simp] theorem State.dropOp_rr (s : State) (id : Nat) : (s.dropOp id).rr = s.rr := rfl
@[simp] theorem State.dropOp_cur (s : State) (id : Nat) : (s.dropOp id).cur = s.cur := rfl
@[simp] theorem State.dropOp_turn (s : State) (id : Nat) : (s.dropOp id).turn = s.turn := rfl
@[simp] theorem State.dropOp_ev (s : State) (id : Nat) : (s.dropOp id).ev = s.ev := rfl

/-! ### setKind -/

@[simp] theorem State.setKind_mem (s : State) (id : Nat) (kind : OpKind) : (s.setKind id kind).mem = s.mem := rfl
@[simp] theorem State.setKind_tags (s : State) (id : Nat) (kind : OpKind) : (s.setKind id kind).tags = s.tags := rfl
@[simp] theorem State.setKind_bad (s : State) (id : Nat) (kind : OpKind) : (s.setKind id kind).bad = s.bad := rfl
@[simp] theorem State.setKind_cores (s : State) (id : Nat) (kind : OpKind) : (s.setKind id kind).cores = s.cores := rfl
@[simp] theorem State.setKind_masons (s : State) (id : Nat) (kind : OpKind) : (s.setKind id kind).masons = s.masons := rfl
@[simp] theorem State.setKind_nextId (s : State) (id : Nat) (kind : OpKind) : (s.setKind id kind).nextId = s.nextId := rfl
@[simp] theorem State.setKind_gangs (s : State) (id : Nat) (kind : OpKind) : (s.setKind id kind).gangs = s.gangs := rfl
@[simp] theorem State.setKind_parts (s : State) (id : Nat) (kind : OpKind) : (s.setKind id kind).parts = s.parts := rfl
@[simp] theorem State.setKind_monitor (s : State) (id : Nat) (kind : OpKind) : (s.setKind id kind).monitor = s.monitor := rfl
@[simp] theorem State.setKind_vfs (s : State) (id : Nat) (kind : OpKind) : (s.setKind id kind).vfs = s.vfs := rfl
@[simp] theorem State.setKind_masked (s : State) (id : Nat) (kind : OpKind) : (s.setKind id kind).masked = s.masked := rfl
@[simp] theorem State.setKind_pkgId (s : State) (id : Nat) (kind : OpKind) : (s.setKind id kind).pkgId = s.pkgId := rfl
@[simp] theorem State.setKind_irqs (s : State) (id : Nat) (kind : OpKind) : (s.setKind id kind).irqs = s.irqs := rfl
@[simp] theorem State.setKind_msixMasked (s : State) (id : Nat) (kind : OpKind) : (s.setKind id kind).msixMasked = s.msixMasked := rfl
@[simp] theorem State.setKind_hostReads (s : State) (id : Nat) (kind : OpKind) : (s.setKind id kind).hostReads = s.hostReads := rfl
@[simp] theorem State.setKind_probeReads (s : State) (id : Nat) (kind : OpKind) : (s.setKind id kind).probeReads = s.probeReads := rfl
@[simp] theorem State.setKind_fabricOut (s : State) (id : Nat) (kind : OpKind) : (s.setKind id kind).fabricOut = s.fabricOut := rfl
@[simp] theorem State.setKind_seals (s : State) (id : Nat) (kind : OpKind) : (s.setKind id kind).seals = s.seals := rfl
@[simp] theorem State.setKind_saves (s : State) (id : Nat) (kind : OpKind) : (s.setKind id kind).saves = s.saves := rfl
@[simp] theorem State.setKind_vr (s : State) (id : Nat) (kind : OpKind) : (s.setKind id kind).vr = s.vr := rfl
@[simp] theorem State.setKind_free (s : State) (id : Nat) (kind : OpKind) : (s.setKind id kind).free = s.free := rfl
@[simp] theorem State.setKind_agenda (s : State) (id : Nat) (kind : OpKind) : (s.setKind id kind).agenda = s.agenda := rfl
@[simp] theorem State.setKind_rr (s : State) (id : Nat) (kind : OpKind) : (s.setKind id kind).rr = s.rr := rfl
@[simp] theorem State.setKind_cur (s : State) (id : Nat) (kind : OpKind) : (s.setKind id kind).cur = s.cur := rfl
@[simp] theorem State.setKind_turn (s : State) (id : Nat) (kind : OpKind) : (s.setKind id kind).turn = s.turn := rfl
@[simp] theorem State.setKind_ev (s : State) (id : Nat) (kind : OpKind) : (s.setKind id kind).ev = s.ev := rfl

/-! ### mapOp -/

@[simp] theorem State.mapOp_mem (s : State) (id : Nat) (f : Op → Op) : (s.mapOp id f).mem = s.mem := rfl
@[simp] theorem State.mapOp_tags (s : State) (id : Nat) (f : Op → Op) : (s.mapOp id f).tags = s.tags := rfl
@[simp] theorem State.mapOp_bad (s : State) (id : Nat) (f : Op → Op) : (s.mapOp id f).bad = s.bad := rfl
@[simp] theorem State.mapOp_cores (s : State) (id : Nat) (f : Op → Op) : (s.mapOp id f).cores = s.cores := rfl
@[simp] theorem State.mapOp_masons (s : State) (id : Nat) (f : Op → Op) : (s.mapOp id f).masons = s.masons := rfl
@[simp] theorem State.mapOp_nextId (s : State) (id : Nat) (f : Op → Op) : (s.mapOp id f).nextId = s.nextId := rfl
@[simp] theorem State.mapOp_gangs (s : State) (id : Nat) (f : Op → Op) : (s.mapOp id f).gangs = s.gangs := rfl
@[simp] theorem State.mapOp_parts (s : State) (id : Nat) (f : Op → Op) : (s.mapOp id f).parts = s.parts := rfl
@[simp] theorem State.mapOp_monitor (s : State) (id : Nat) (f : Op → Op) : (s.mapOp id f).monitor = s.monitor := rfl
@[simp] theorem State.mapOp_vfs (s : State) (id : Nat) (f : Op → Op) : (s.mapOp id f).vfs = s.vfs := rfl
@[simp] theorem State.mapOp_masked (s : State) (id : Nat) (f : Op → Op) : (s.mapOp id f).masked = s.masked := rfl
@[simp] theorem State.mapOp_pkgId (s : State) (id : Nat) (f : Op → Op) : (s.mapOp id f).pkgId = s.pkgId := rfl
@[simp] theorem State.mapOp_irqs (s : State) (id : Nat) (f : Op → Op) : (s.mapOp id f).irqs = s.irqs := rfl
@[simp] theorem State.mapOp_msixMasked (s : State) (id : Nat) (f : Op → Op) : (s.mapOp id f).msixMasked = s.msixMasked := rfl
@[simp] theorem State.mapOp_hostReads (s : State) (id : Nat) (f : Op → Op) : (s.mapOp id f).hostReads = s.hostReads := rfl
@[simp] theorem State.mapOp_probeReads (s : State) (id : Nat) (f : Op → Op) : (s.mapOp id f).probeReads = s.probeReads := rfl
@[simp] theorem State.mapOp_fabricOut (s : State) (id : Nat) (f : Op → Op) : (s.mapOp id f).fabricOut = s.fabricOut := rfl
@[simp] theorem State.mapOp_seals (s : State) (id : Nat) (f : Op → Op) : (s.mapOp id f).seals = s.seals := rfl
@[simp] theorem State.mapOp_saves (s : State) (id : Nat) (f : Op → Op) : (s.mapOp id f).saves = s.saves := rfl
@[simp] theorem State.mapOp_vr (s : State) (id : Nat) (f : Op → Op) : (s.mapOp id f).vr = s.vr := rfl
@[simp] theorem State.mapOp_free (s : State) (id : Nat) (f : Op → Op) : (s.mapOp id f).free = s.free := rfl
@[simp] theorem State.mapOp_agenda (s : State) (id : Nat) (f : Op → Op) : (s.mapOp id f).agenda = s.agenda := rfl
@[simp] theorem State.mapOp_rr (s : State) (id : Nat) (f : Op → Op) : (s.mapOp id f).rr = s.rr := rfl
@[simp] theorem State.mapOp_cur (s : State) (id : Nat) (f : Op → Op) : (s.mapOp id f).cur = s.cur := rfl
@[simp] theorem State.mapOp_turn (s : State) (id : Nat) (f : Op → Op) : (s.mapOp id f).turn = s.turn := rfl
@[simp] theorem State.mapOp_ev (s : State) (id : Nat) (f : Op → Op) : (s.mapOp id f).ev = s.ev := rfl

/-! ### arrived -/

@[simp] theorem State.arrived_mem (s : State) (o : Op) : (s.arrived o).mem = s.mem := rfl
@[simp] theorem State.arrived_tags (s : State) (o : Op) : (s.arrived o).tags = s.tags := rfl
@[simp] theorem State.arrived_bad (s : State) (o : Op) : (s.arrived o).bad = s.bad := rfl
@[simp] theorem State.arrived_cores (s : State) (o : Op) : (s.arrived o).cores = s.cores := rfl
@[simp] theorem State.arrived_masons (s : State) (o : Op) : (s.arrived o).masons = s.masons := rfl
@[simp] theorem State.arrived_gangs (s : State) (o : Op) : (s.arrived o).gangs = s.gangs := rfl
@[simp] theorem State.arrived_parts (s : State) (o : Op) : (s.arrived o).parts = s.parts := rfl
@[simp] theorem State.arrived_monitor (s : State) (o : Op) : (s.arrived o).monitor = s.monitor := rfl
@[simp] theorem State.arrived_vfs (s : State) (o : Op) : (s.arrived o).vfs = s.vfs := rfl
@[simp] theorem State.arrived_masked (s : State) (o : Op) : (s.arrived o).masked = s.masked := rfl
@[simp] theorem State.arrived_pkgId (s : State) (o : Op) : (s.arrived o).pkgId = s.pkgId := rfl
@[simp] theorem State.arrived_irqs (s : State) (o : Op) : (s.arrived o).irqs = s.irqs := rfl
@[simp] theorem State.arrived_msixMasked (s : State) (o : Op) : (s.arrived o).msixMasked = s.msixMasked := rfl
@[simp] theorem State.arrived_hostReads (s : State) (o : Op) : (s.arrived o).hostReads = s.hostReads := rfl
@[simp] theorem State.arrived_probeReads (s : State) (o : Op) : (s.arrived o).probeReads = s.probeReads := rfl
@[simp] theorem State.arrived_fabricOut (s : State) (o : Op) : (s.arrived o).fabricOut = s.fabricOut := rfl
@[simp] theorem State.arrived_seals (s : State) (o : Op) : (s.arrived o).seals = s.seals := rfl
@[simp] theorem State.arrived_saves (s : State) (o : Op) : (s.arrived o).saves = s.saves := rfl
@[simp] theorem State.arrived_vr (s : State) (o : Op) : (s.arrived o).vr = s.vr := rfl
@[simp] theorem State.arrived_free (s : State) (o : Op) : (s.arrived o).free = s.free := rfl
@[simp] theorem State.arrived_agenda (s : State) (o : Op) : (s.arrived o).agenda = s.agenda := rfl
@[simp] theorem State.arrived_rr (s : State) (o : Op) : (s.arrived o).rr = s.rr := rfl
@[simp] theorem State.arrived_cur (s : State) (o : Op) : (s.arrived o).cur = s.cur := rfl
@[simp] theorem State.arrived_turn (s : State) (o : Op) : (s.arrived o).turn = s.turn := rfl
@[simp] theorem State.arrived_ev (s : State) (o : Op) : (s.arrived o).ev = s.ev := rfl

/-! ### addOp -/

@[simp] theorem State.addOp_mem (s : State) (g k : Nat) (c : Option CClass) (q : Nat) (w : BitVec 32) (kind : OpKind) : (s.addOp g k c q w kind).mem = s.mem := rfl
@[simp] theorem State.addOp_tags (s : State) (g k : Nat) (c : Option CClass) (q : Nat) (w : BitVec 32) (kind : OpKind) : (s.addOp g k c q w kind).tags = s.tags := rfl
@[simp] theorem State.addOp_bad (s : State) (g k : Nat) (c : Option CClass) (q : Nat) (w : BitVec 32) (kind : OpKind) : (s.addOp g k c q w kind).bad = s.bad := rfl
@[simp] theorem State.addOp_cores (s : State) (g k : Nat) (c : Option CClass) (q : Nat) (w : BitVec 32) (kind : OpKind) : (s.addOp g k c q w kind).cores = s.cores := rfl
@[simp] theorem State.addOp_masons (s : State) (g k : Nat) (c : Option CClass) (q : Nat) (w : BitVec 32) (kind : OpKind) : (s.addOp g k c q w kind).masons = s.masons := rfl
@[simp] theorem State.addOp_gangs (s : State) (g k : Nat) (c : Option CClass) (q : Nat) (w : BitVec 32) (kind : OpKind) : (s.addOp g k c q w kind).gangs = s.gangs := rfl
@[simp] theorem State.addOp_parts (s : State) (g k : Nat) (c : Option CClass) (q : Nat) (w : BitVec 32) (kind : OpKind) : (s.addOp g k c q w kind).parts = s.parts := rfl
@[simp] theorem State.addOp_monitor (s : State) (g k : Nat) (c : Option CClass) (q : Nat) (w : BitVec 32) (kind : OpKind) : (s.addOp g k c q w kind).monitor = s.monitor := rfl
@[simp] theorem State.addOp_vfs (s : State) (g k : Nat) (c : Option CClass) (q : Nat) (w : BitVec 32) (kind : OpKind) : (s.addOp g k c q w kind).vfs = s.vfs := rfl
@[simp] theorem State.addOp_masked (s : State) (g k : Nat) (c : Option CClass) (q : Nat) (w : BitVec 32) (kind : OpKind) : (s.addOp g k c q w kind).masked = s.masked := rfl
@[simp] theorem State.addOp_pkgId (s : State) (g k : Nat) (c : Option CClass) (q : Nat) (w : BitVec 32) (kind : OpKind) : (s.addOp g k c q w kind).pkgId = s.pkgId := rfl
@[simp] theorem State.addOp_irqs (s : State) (g k : Nat) (c : Option CClass) (q : Nat) (w : BitVec 32) (kind : OpKind) : (s.addOp g k c q w kind).irqs = s.irqs := rfl
@[simp] theorem State.addOp_msixMasked (s : State) (g k : Nat) (c : Option CClass) (q : Nat) (w : BitVec 32) (kind : OpKind) : (s.addOp g k c q w kind).msixMasked = s.msixMasked := rfl
@[simp] theorem State.addOp_hostReads (s : State) (g k : Nat) (c : Option CClass) (q : Nat) (w : BitVec 32) (kind : OpKind) : (s.addOp g k c q w kind).hostReads = s.hostReads := rfl
@[simp] theorem State.addOp_probeReads (s : State) (g k : Nat) (c : Option CClass) (q : Nat) (w : BitVec 32) (kind : OpKind) : (s.addOp g k c q w kind).probeReads = s.probeReads := rfl
@[simp] theorem State.addOp_fabricOut (s : State) (g k : Nat) (c : Option CClass) (q : Nat) (w : BitVec 32) (kind : OpKind) : (s.addOp g k c q w kind).fabricOut = s.fabricOut := rfl
@[simp] theorem State.addOp_seals (s : State) (g k : Nat) (c : Option CClass) (q : Nat) (w : BitVec 32) (kind : OpKind) : (s.addOp g k c q w kind).seals = s.seals := rfl
@[simp] theorem State.addOp_saves (s : State) (g k : Nat) (c : Option CClass) (q : Nat) (w : BitVec 32) (kind : OpKind) : (s.addOp g k c q w kind).saves = s.saves := rfl
@[simp] theorem State.addOp_vr (s : State) (g k : Nat) (c : Option CClass) (q : Nat) (w : BitVec 32) (kind : OpKind) : (s.addOp g k c q w kind).vr = s.vr := rfl
@[simp] theorem State.addOp_free (s : State) (g k : Nat) (c : Option CClass) (q : Nat) (w : BitVec 32) (kind : OpKind) : (s.addOp g k c q w kind).free = s.free := rfl
@[simp] theorem State.addOp_agenda (s : State) (g k : Nat) (c : Option CClass) (q : Nat) (w : BitVec 32) (kind : OpKind) : (s.addOp g k c q w kind).agenda = s.agenda := rfl
@[simp] theorem State.addOp_rr (s : State) (g k : Nat) (c : Option CClass) (q : Nat) (w : BitVec 32) (kind : OpKind) : (s.addOp g k c q w kind).rr = s.rr := rfl
@[simp] theorem State.addOp_cur (s : State) (g k : Nat) (c : Option CClass) (q : Nat) (w : BitVec 32) (kind : OpKind) : (s.addOp g k c q w kind).cur = s.cur := rfl
@[simp] theorem State.addOp_turn (s : State) (g k : Nat) (c : Option CClass) (q : Nat) (w : BitVec 32) (kind : OpKind) : (s.addOp g k c q w kind).turn = s.turn := rfl
@[simp] theorem State.addOp_ev (s : State) (g k : Nat) (c : Option CClass) (q : Nat) (w : BitVec 32) (kind : OpKind) : (s.addOp g k c q w kind).ev = s.ev := rfl

/-! ### addFree -/

@[simp] theorem State.addFree_mem (s : State) (g k : Nat) (kind : OpKind) : (s.addFree g k kind).mem = s.mem := rfl
@[simp] theorem State.addFree_tags (s : State) (g k : Nat) (kind : OpKind) : (s.addFree g k kind).tags = s.tags := rfl
@[simp] theorem State.addFree_bad (s : State) (g k : Nat) (kind : OpKind) : (s.addFree g k kind).bad = s.bad := rfl
@[simp] theorem State.addFree_cores (s : State) (g k : Nat) (kind : OpKind) : (s.addFree g k kind).cores = s.cores := rfl
@[simp] theorem State.addFree_masons (s : State) (g k : Nat) (kind : OpKind) : (s.addFree g k kind).masons = s.masons := rfl
@[simp] theorem State.addFree_gangs (s : State) (g k : Nat) (kind : OpKind) : (s.addFree g k kind).gangs = s.gangs := rfl
@[simp] theorem State.addFree_parts (s : State) (g k : Nat) (kind : OpKind) : (s.addFree g k kind).parts = s.parts := rfl
@[simp] theorem State.addFree_monitor (s : State) (g k : Nat) (kind : OpKind) : (s.addFree g k kind).monitor = s.monitor := rfl
@[simp] theorem State.addFree_vfs (s : State) (g k : Nat) (kind : OpKind) : (s.addFree g k kind).vfs = s.vfs := rfl
@[simp] theorem State.addFree_masked (s : State) (g k : Nat) (kind : OpKind) : (s.addFree g k kind).masked = s.masked := rfl
@[simp] theorem State.addFree_pkgId (s : State) (g k : Nat) (kind : OpKind) : (s.addFree g k kind).pkgId = s.pkgId := rfl
@[simp] theorem State.addFree_irqs (s : State) (g k : Nat) (kind : OpKind) : (s.addFree g k kind).irqs = s.irqs := rfl
@[simp] theorem State.addFree_msixMasked (s : State) (g k : Nat) (kind : OpKind) : (s.addFree g k kind).msixMasked = s.msixMasked := rfl
@[simp] theorem State.addFree_hostReads (s : State) (g k : Nat) (kind : OpKind) : (s.addFree g k kind).hostReads = s.hostReads := rfl
@[simp] theorem State.addFree_probeReads (s : State) (g k : Nat) (kind : OpKind) : (s.addFree g k kind).probeReads = s.probeReads := rfl
@[simp] theorem State.addFree_fabricOut (s : State) (g k : Nat) (kind : OpKind) : (s.addFree g k kind).fabricOut = s.fabricOut := rfl
@[simp] theorem State.addFree_seals (s : State) (g k : Nat) (kind : OpKind) : (s.addFree g k kind).seals = s.seals := rfl
@[simp] theorem State.addFree_saves (s : State) (g k : Nat) (kind : OpKind) : (s.addFree g k kind).saves = s.saves := rfl
@[simp] theorem State.addFree_vr (s : State) (g k : Nat) (kind : OpKind) : (s.addFree g k kind).vr = s.vr := rfl
@[simp] theorem State.addFree_free (s : State) (g k : Nat) (kind : OpKind) : (s.addFree g k kind).free = s.free := rfl
@[simp] theorem State.addFree_agenda (s : State) (g k : Nat) (kind : OpKind) : (s.addFree g k kind).agenda = s.agenda := rfl
@[simp] theorem State.addFree_rr (s : State) (g k : Nat) (kind : OpKind) : (s.addFree g k kind).rr = s.rr := rfl
@[simp] theorem State.addFree_cur (s : State) (g k : Nat) (kind : OpKind) : (s.addFree g k kind).cur = s.cur := rfl
@[simp] theorem State.addFree_turn (s : State) (g k : Nat) (kind : OpKind) : (s.addFree g k kind).turn = s.turn := rfl
@[simp] theorem State.addFree_ev (s : State) (g k : Nat) (kind : OpKind) : (s.addFree g k kind).ev = s.ev := rfl

/-! ### setTagBit -/

@[simp] theorem State.setTagBit_mem (s : State) (pa j : Nat) (v : Bool) : (s.setTagBit pa j v).mem = s.mem := rfl
@[simp] theorem State.setTagBit_bad (s : State) (pa j : Nat) (v : Bool) : (s.setTagBit pa j v).bad = s.bad := rfl
@[simp] theorem State.setTagBit_cores (s : State) (pa j : Nat) (v : Bool) : (s.setTagBit pa j v).cores = s.cores := rfl
@[simp] theorem State.setTagBit_masons (s : State) (pa j : Nat) (v : Bool) : (s.setTagBit pa j v).masons = s.masons := rfl
@[simp] theorem State.setTagBit_ops (s : State) (pa j : Nat) (v : Bool) : (s.setTagBit pa j v).ops = s.ops := rfl
@[simp] theorem State.setTagBit_nextId (s : State) (pa j : Nat) (v : Bool) : (s.setTagBit pa j v).nextId = s.nextId := rfl
@[simp] theorem State.setTagBit_gangs (s : State) (pa j : Nat) (v : Bool) : (s.setTagBit pa j v).gangs = s.gangs := rfl
@[simp] theorem State.setTagBit_parts (s : State) (pa j : Nat) (v : Bool) : (s.setTagBit pa j v).parts = s.parts := rfl
@[simp] theorem State.setTagBit_monitor (s : State) (pa j : Nat) (v : Bool) : (s.setTagBit pa j v).monitor = s.monitor := rfl
@[simp] theorem State.setTagBit_vfs (s : State) (pa j : Nat) (v : Bool) : (s.setTagBit pa j v).vfs = s.vfs := rfl
@[simp] theorem State.setTagBit_masked (s : State) (pa j : Nat) (v : Bool) : (s.setTagBit pa j v).masked = s.masked := rfl
@[simp] theorem State.setTagBit_pkgId (s : State) (pa j : Nat) (v : Bool) : (s.setTagBit pa j v).pkgId = s.pkgId := rfl
@[simp] theorem State.setTagBit_irqs (s : State) (pa j : Nat) (v : Bool) : (s.setTagBit pa j v).irqs = s.irqs := rfl
@[simp] theorem State.setTagBit_msixMasked (s : State) (pa j : Nat) (v : Bool) : (s.setTagBit pa j v).msixMasked = s.msixMasked := rfl
@[simp] theorem State.setTagBit_hostReads (s : State) (pa j : Nat) (v : Bool) : (s.setTagBit pa j v).hostReads = s.hostReads := rfl
@[simp] theorem State.setTagBit_probeReads (s : State) (pa j : Nat) (v : Bool) : (s.setTagBit pa j v).probeReads = s.probeReads := rfl
@[simp] theorem State.setTagBit_fabricOut (s : State) (pa j : Nat) (v : Bool) : (s.setTagBit pa j v).fabricOut = s.fabricOut := rfl
@[simp] theorem State.setTagBit_seals (s : State) (pa j : Nat) (v : Bool) : (s.setTagBit pa j v).seals = s.seals := rfl
@[simp] theorem State.setTagBit_saves (s : State) (pa j : Nat) (v : Bool) : (s.setTagBit pa j v).saves = s.saves := rfl
@[simp] theorem State.setTagBit_vr (s : State) (pa j : Nat) (v : Bool) : (s.setTagBit pa j v).vr = s.vr := rfl
@[simp] theorem State.setTagBit_free (s : State) (pa j : Nat) (v : Bool) : (s.setTagBit pa j v).free = s.free := rfl
@[simp] theorem State.setTagBit_agenda (s : State) (pa j : Nat) (v : Bool) : (s.setTagBit pa j v).agenda = s.agenda := rfl
@[simp] theorem State.setTagBit_rr (s : State) (pa j : Nat) (v : Bool) : (s.setTagBit pa j v).rr = s.rr := rfl
@[simp] theorem State.setTagBit_cur (s : State) (pa j : Nat) (v : Bool) : (s.setTagBit pa j v).cur = s.cur := rfl
@[simp] theorem State.setTagBit_turn (s : State) (pa j : Nat) (v : Bool) : (s.setTagBit pa j v).turn = s.turn := rfl
@[simp] theorem State.setTagBit_ev (s : State) (pa j : Nat) (v : Bool) : (s.setTagBit pa j v).ev = s.ev := rfl

/-! ### What the accessors read -/

@[simp] theorem core_setCore (s : State) (g h : Nat) (c : Core) :
    (s.setCore g c).core h = if h = g then c else s.core h := by
  simp [State.core, State.setCore]

@[simp] theorem core_setSlot (s : State) (g k h : Nat) (x : Slot) : (s.setSlot g k x).core h =
    if h = g then { s.core g with slots := Sparse.put (s.core g).slots k x } else s.core h := by
  rw [State.setSlot, core_setCore]

@[simp] theorem slot_setSlot (s : State) (g k h j : Nat) (x : Slot) :
    (s.setSlot g k x).slot h j = if h = g ∧ j = k then x else s.slot h j := by
  unfold State.slot
  rw [core_setSlot]
  by_cases hh : h = g
  · subst hh; simp
  · simp [hh]

@[simp] theorem mason_setMason (s : State) (g h : Nat) (m : Mason) :
    (s.setMason g m).mason h = if h = g then m else s.mason h := by
  simp [State.mason, State.setMason]

@[simp] theorem part_setPart (s : State) (p q : Nat) (x : Partition) :
    (s.setPart p x).part q = if q = p then x else s.part q := by
  simp [State.part, State.setPart]

@[simp] theorem cell_setSlot (s : State) (g k h c : Nat) (x : Slot) : (s.setSlot g k x).cell h c = s.cell h c := by
  unfold State.cell
  rw [core_setSlot]
  by_cases hh : h = g
  · subst hh; simp
  · simp [hh]

@[simp] theorem cell_setCell (s : State) (g c h d : Nat) (x : Tagged) :
    (s.setCell g c x).cell h d = if h = g ∧ d = c then x else s.cell h d := by
  unfold State.cell State.setCell
  rw [core_setCore]
  by_cases hh : h = g
  · subst hh; simp
  · simp [hh]

@[simp] theorem slot_setCell (s : State) (g c h k : Nat) (x : Tagged) : (s.setCell g c x).slot h k = s.slot h k := by
  unfold State.slot State.setCell
  rw [core_setCore]
  by_cases hh : h = g
  · subst hh; simp
  · simp [hh]

theorem core_of_cores {s t : State} (h : t.cores = s.cores) (g : Nat) : t.core g = s.core g := by
  unfold State.core; rw [h]

theorem slot_of_cores {s t : State} (h : t.cores = s.cores) (g k : Nat) : t.slot g k = s.slot g k := by
  unfold State.slot; rw [core_of_cores h]

theorem cell_of_cores {s t : State} (h : t.cores = s.cores) (g c : Nat) : t.cell g c = s.cell g c := by
  unfold State.cell; rw [core_of_cores h]

@[simp] theorem core_setMason (s : State) (g : Nat) (m : Mason) (h : Nat) : (s.setMason g m).core h = s.core h := rfl
@[simp] theorem slot_setMason (s : State) (g : Nat) (m : Mason) (h n : Nat) : (s.setMason g m).slot h n = s.slot h n := rfl
@[simp] theorem cell_setMason (s : State) (g : Nat) (m : Mason) (h n : Nat) : (s.setMason g m).cell h n = s.cell h n := rfl
@[simp] theorem core_setPart (s : State) (p : Nat) (x : Partition) (h : Nat) : (s.setPart p x).core h = s.core h := rfl
@[simp] theorem slot_setPart (s : State) (p : Nat) (x : Partition) (h n : Nat) : (s.setPart p x).slot h n = s.slot h n := rfl
@[simp] theorem cell_setPart (s : State) (p : Nat) (x : Partition) (h n : Nat) : (s.setPart p x).cell h n = s.cell h n := rfl
@[simp] theorem core_dropOp (s : State) (id : Nat) (h : Nat) : (s.dropOp id).core h = s.core h := rfl
@[simp] theorem slot_dropOp (s : State) (id : Nat) (h n : Nat) : (s.dropOp id).slot h n = s.slot h n := rfl
@[simp] theorem cell_dropOp (s : State) (id : Nat) (h n : Nat) : (s.dropOp id).cell h n = s.cell h n := rfl
@[simp] theorem core_setKind (s : State) (id : Nat) (kind : OpKind) (h : Nat) : (s.setKind id kind).core h = s.core h := rfl
@[simp] theorem core_mapOp (s : State) (id : Nat) (f : Op → Op) (h : Nat) : (s.mapOp id f).core h = s.core h := rfl
@[simp] theorem core_arrived (s : State) (o : Op) (h : Nat) : (s.arrived o).core h = s.core h := rfl
@[simp] theorem slot_setKind (s : State) (id : Nat) (kind : OpKind) (h n : Nat) : (s.setKind id kind).slot h n = s.slot h n := rfl
@[simp] theorem slot_mapOp (s : State) (id : Nat) (f : Op → Op) (h n : Nat) : (s.mapOp id f).slot h n = s.slot h n := rfl
@[simp] theorem slot_arrived (s : State) (o : Op) (h n : Nat) : (s.arrived o).slot h n = s.slot h n := rfl
@[simp] theorem cell_setKind (s : State) (id : Nat) (kind : OpKind) (h n : Nat) : (s.setKind id kind).cell h n = s.cell h n := rfl
@[simp] theorem cell_mapOp (s : State) (id : Nat) (f : Op → Op) (h n : Nat) : (s.mapOp id f).cell h n = s.cell h n := rfl
@[simp] theorem cell_arrived (s : State) (o : Op) (h n : Nat) : (s.arrived o).cell h n = s.cell h n := rfl
@[simp] theorem core_addOp (s : State) (g k : Nat) (c : Option CClass) (q : Nat) (w : BitVec 32) (kind : OpKind) (h : Nat) : (s.addOp g k c q w kind).core h = s.core h := rfl
@[simp] theorem slot_addOp (s : State) (g k : Nat) (c : Option CClass) (q : Nat) (w : BitVec 32) (kind : OpKind) (h n : Nat) : (s.addOp g k c q w kind).slot h n = s.slot h n := rfl
@[simp] theorem cell_addOp (s : State) (g k : Nat) (c : Option CClass) (q : Nat) (w : BitVec 32) (kind : OpKind) (h n : Nat) : (s.addOp g k c q w kind).cell h n = s.cell h n := rfl
@[simp] theorem core_addFree (s : State) (g k : Nat) (kind : OpKind) (h : Nat) : (s.addFree g k kind).core h = s.core h := rfl
@[simp] theorem slot_addFree (s : State) (g k : Nat) (kind : OpKind) (h n : Nat) : (s.addFree g k kind).slot h n = s.slot h n := rfl
@[simp] theorem cell_addFree (s : State) (g k : Nat) (kind : OpKind) (h n : Nat) : (s.addFree g k kind).cell h n = s.cell h n := rfl
@[simp] theorem core_setTagBit (s : State) (pa j : Nat) (v : Bool) (h : Nat) : (s.setTagBit pa j v).core h = s.core h := rfl
@[simp] theorem slot_setTagBit (s : State) (pa j : Nat) (v : Bool) (h n : Nat) : (s.setTagBit pa j v).slot h n = s.slot h n := rfl
@[simp] theorem cell_setTagBit (s : State) (pa j : Nat) (v : Bool) (h n : Nat) : (s.setTagBit pa j v).cell h n = s.cell h n := rfl
@[simp] theorem part_setCore (s : State) (g : Nat) (c : Core) (p' : Nat) : (s.setCore g c).part p' = s.part p' := rfl
@[simp] theorem mason_setCore (s : State) (g : Nat) (c : Core) (h : Nat) : (s.setCore g c).mason h = s.mason h := rfl
@[simp] theorem part_setSlot (s : State) (g k : Nat) (x : Slot) (p' : Nat) : (s.setSlot g k x).part p' = s.part p' := rfl
@[simp] theorem mason_setSlot (s : State) (g k : Nat) (x : Slot) (h : Nat) : (s.setSlot g k x).mason h = s.mason h := rfl
@[simp] theorem part_setCell (s : State) (g c : Nat) (x : Tagged) (p' : Nat) : (s.setCell g c x).part p' = s.part p' := rfl
@[simp] theorem mason_setCell (s : State) (g c : Nat) (x : Tagged) (h : Nat) : (s.setCell g c x).mason h = s.mason h := rfl
@[simp] theorem part_setMe (s : State) (x : Slot) (p' : Nat) : (s.setMe x).part p' = s.part p' := rfl
@[simp] theorem mason_setMe (s : State) (x : Slot) (h : Nat) : (s.setMe x).mason h = s.mason h := rfl
@[simp] theorem part_setMason (s : State) (g : Nat) (m : Mason) (p' : Nat) : (s.setMason g m).part p' = s.part p' := rfl
@[simp] theorem mason_setPart (s : State) (p : Nat) (x : Partition) (h : Nat) : (s.setPart p x).mason h = s.mason h := rfl
@[simp] theorem part_dropOp (s : State) (id : Nat) (p' : Nat) : (s.dropOp id).part p' = s.part p' := rfl
@[simp] theorem mason_dropOp (s : State) (id : Nat) (h : Nat) : (s.dropOp id).mason h = s.mason h := rfl
@[simp] theorem part_setKind (s : State) (id : Nat) (kind : OpKind) (p' : Nat) : (s.setKind id kind).part p' = s.part p' := rfl
@[simp] theorem part_mapOp (s : State) (id : Nat) (f : Op → Op) (p' : Nat) : (s.mapOp id f).part p' = s.part p' := rfl
@[simp] theorem part_arrived (s : State) (o : Op) (p' : Nat) : (s.arrived o).part p' = s.part p' := rfl
@[simp] theorem mason_setKind (s : State) (id : Nat) (kind : OpKind) (h : Nat) : (s.setKind id kind).mason h = s.mason h := rfl
@[simp] theorem mason_mapOp (s : State) (id : Nat) (f : Op → Op) (h : Nat) : (s.mapOp id f).mason h = s.mason h := rfl
@[simp] theorem mason_arrived (s : State) (o : Op) (h : Nat) : (s.arrived o).mason h = s.mason h := rfl
@[simp] theorem part_addOp (s : State) (g k : Nat) (c : Option CClass) (q : Nat) (w : BitVec 32) (kind : OpKind) (p' : Nat) : (s.addOp g k c q w kind).part p' = s.part p' := rfl
@[simp] theorem mason_addOp (s : State) (g k : Nat) (c : Option CClass) (q : Nat) (w : BitVec 32) (kind : OpKind) (h : Nat) : (s.addOp g k c q w kind).mason h = s.mason h := rfl
@[simp] theorem part_addFree (s : State) (g k : Nat) (kind : OpKind) (p' : Nat) : (s.addFree g k kind).part p' = s.part p' := rfl
@[simp] theorem mason_addFree (s : State) (g k : Nat) (kind : OpKind) (h : Nat) : (s.addFree g k kind).mason h = s.mason h := rfl
@[simp] theorem part_setTagBit (s : State) (pa j : Nat) (v : Bool) (p' : Nat) : (s.setTagBit pa j v).part p' = s.part p' := rfl
@[simp] theorem mason_setTagBit (s : State) (pa j : Nat) (v : Bool) (h : Nat) : (s.setTagBit pa j v).mason h = s.mason h := rfl

/-! ### Operations in flight -/

/-- An operation that has been dropped is in flight no more. -/
@[simp] theorem op?_dropOp (s : State) (id : Nat) : (s.dropOp id).op? id = none := by
  simp [State.op?, State.dropOp, List.find?_eq_none]

/-- The other operations are in flight as before. -/
theorem op?_dropOp_ne (s : State) {id j : Nat} (h : j ≠ id) : (s.dropOp id).op? j = s.op? j := by
  unfold State.op? State.dropOp
  rw [List.find?_filter]
  congr 1
  funext o
  by_cases e : o.id = j
  · simp [e, h]
  · simp [e]

end Sys2Proof.Machine
end

