-- ==== Sys2Proof/Laws/Issue.lean ====
section
/-! SUPPORT. Sys2Proof/Laws/Issue.lean: an instruction that is ready passes the checks of R207, so that its state is the
one its own effect gives; and what the reads of its fields give. -/

namespace Sys2Proof.Machine

theorem M.bind_ok {α β : Type} {m : M α} {f : α → M β} {s t : State} {x : α} (h : m s = .ok (x, t)) :
    (m >>= f) s = f x t := by
  show (do let p ← m s; f p.1 p.2 : Except Exc (β × State)) = _
  rw [h]; rfl

theorem M.bind_error {α β : Type} {m : M α} {f : α → M β} {s : State} {e : Exc} (h : m s = .error e) :
    (m >>= f) s = .error e := by
  show (do let p ← m s; f p.1 p.2 : Except Exc (β × State)) = _
  rw [h]; rfl

@[simp] theorem M.pure_apply {α : Type} (x : α) (s : State) : (pure x : M α) s = .ok (x, s) := rfl

@[simp] theorem M.get_apply (s : State) : (get : M State) s = .ok (s, s) := rfl

@[simp] theorem M.set_apply (s t : State) : (set t : M PUnit) s = .ok (⟨⟩, t) := rfl

@[simp] theorem M.modify_apply (f : State → State) (s : State) : (modify f : M PUnit) s = .ok (⟨⟩, f s) := rfl

@[simp] theorem trap_apply {α : Type} (c : Nat) (v : Word) (sub : Nat) (s : State) :
    (trap c v sub : M α) s = .error (.trap c v sub) := rfl

@[simp] theorem halt'_apply {α : Type} (e : Exc) (s : State) : (halt' e : M α) s = .error e := rfl

@[simp] theorem writeName_apply (n : Name) (x : Tagged) (s : State) : writeName n x s = .ok ((), s.writeName n x) := rfl

@[simp] theorem readVec_apply (n : Name) (s : State) : readVec n s = .ok (s.vec n, s) := rfl

@[simp] theorem writeVec_apply (n : Name) (ls : List (BitVec 32)) (ts : List Bool) (s : State) :
    writeVec n ls ts s = .ok ((), s.setGroup n (cellsOf ts ls)) := rfl

theorem Ready.wf {i : Instr} {s : State} (h : Ready i s) : i.wf = true := by
  simp only [Ready, ready, Bool.and_eq_true] at h; exact h.1.1

/-- What readiness says on a slot. -/
theorem Ready.onSlot {i : Instr} {s : State} {g k : Nat} (hc : s.cur = .slot g k) (h : Ready i s) :
    (g = vrNum → vrelellAllows (encode i) = true) ∧ (∃ l, needLevel g i = some l ∧ s.me.level.meets l = true) ∧
      (s.inWindow i.roles.a i.roles.ra = true ∧ s.inWindow i.roles.b i.roles.rb = true
        ∧ s.inWindow i.roles.d i.roles.rd = true) ∧
      s.portCheck (encode i) i.roles = .ok () ∧ s.lateCheck (encode i) i.roles = .ok () := by
  simp only [Ready, ready, allowed, windowed, portsReady, State.onMason, hc, Bool.and_eq_true, Bool.false_or] at h
  obtain ⟨⟨_, hv, hl⟩, ⟨⟨wa, wb⟩, wd⟩, hp⟩ := h
  refine ⟨fun hg => ?_, ?_, ⟨wa, wb, wd⟩, ?_⟩
  · simpa [hg] using hv
  · split at hl
    · exact ⟨_, ‹_›, hl⟩
    · simp at hl
  · split at hp
    · exact ⟨‹_›, ‹_›⟩
    · simp at hp

/-- A ready instruction passes its checks and changes nothing by them. -/
theorem preCheck_of_ready {i : Instr} {s : State} (h : Ready i s) : preCheck i s = .ok ((), s) := by
  have hw := h.wf
  unfold preCheck
  cases hc : s.cur with
  | mason g =>
    simp only
    simp only [Ready, ready, allowed, hc, Bool.and_eq_true] at h
    obtain ⟨⟨-, hm, hn⟩, -⟩ := h
    rw [if_neg (by simp [hw, hm]), if_neg]
    intro hany
    rw [List.any_eq_true] at hany
    obtain ⟨e, he, hx⟩ := hany
    rw [List.all_eq_true] at hn
    have := hn e he
    simp only [Bool.or_eq_true, Bool.and_eq_true, decide_eq_true_eq, Bool.not_eq_true'] at this hx
    rcases this with h1 | ⟨h1, h2⟩
    · simp [h1] at hx
    · simp [h1] at hx; omega
  | slot g k =>
    obtain ⟨hv, ⟨l, hl, hm⟩, ⟨wa, wb, wd⟩, hp, hq⟩ := h.onSlot hc
    simp only
    rw [if_neg]
    · simp only [hl, hm, wa, wb, wd, hp, hq]; rfl
    · intro hx
      simp only [hw, Bool.not_true, Bool.false_or, Bool.and_eq_true, decide_eq_true_eq, Bool.not_eq_true'] at hx
      simp [hv hx.1] at hx

/-- The state of a ready instruction is what its own effect leaves. -/
theorem issue_of_ready {i : Instr} {s : State} (h : Ready i s) (body : M Ctl) :
    issue i body s = .next (s.finish (encode i) (body s)) := by
  unfold issue
  rw [M.bind_ok (preCheck_of_ready h)]

/-- An instruction whose checks fail ends as they say. -/
theorem issue_of_fails {i : Instr} {s : State} {e : Exc} (h : preCheck i s = .error e) (body : M Ctl) :
    issue i body s = .next (s.finish (encode i) (.error e)) := by
  unfold issue
  rw [M.bind_error h]

@[simp] theorem finish_next (s t : State) (w : BitVec 32) : s.finish w (.ok (.next, t)) = s.done t := by
  unfold State.finish State.done; split <;> simp_all

@[simp] theorem finish_jump (s t : State) (w : BitVec 32) (a : Word) :
    s.finish w (.ok (.jump a, t)) = State.jumped t a.toNat := by
  unfold State.finish State.jumped; split <;> simp_all

@[simp] theorem finish_stay (s t : State) (w : BitVec 32) : s.finish w (.ok (.stay, t)) = State.stays t := by
  unfold State.finish State.stays; split <;> simp_all

@[simp] theorem finish_hold (s t : State) (w : BitVec 32) : s.finish w (.ok (.hold, t)) = State.onHold t := by
  unfold State.finish State.onHold; split <;> simp_all

theorem finish_trap {s : State} {g k : Nat} (h : s.cur = .slot g k) (i : Instr) (c : Nat) (v : Word) (sub : Nat) :
    s.finish (encode i) (.error (.trap c v sub)) = s.trapped g k i c v sub := by
  unfold State.finish State.trapped; rw [h]

/-! ### Reading fields -/

/-- Whether a read of a name finds its word: it does unless the name is a port with an empty queue. -/
def State.holds (s : State) (n : Name) : Prop :=
  match s.cur with
  | .mason _ => True
  | .slot g k => n.isPort = true → (s.slot g k).queue n.toNat ≠ []

theorem readName_of_holds {s : State} {n : Name} (h : s.holds n) : readName n s = .ok (s.val n, s.took n) := by
  unfold readName State.val State.took
  unfold State.holds at h
  cases hc : s.cur with
  | mason g => simp only
  | slot g k =>
    simp only [hc] at h ⊢
    by_cases h0 : n = 0
    · subst h0; simp [show Name.isPort 0#7 = false from rfl]
    · simp only [h0, if_false]
      by_cases hp : n.isPort = true
      · simp only [hp, if_true]
        cases hq : (s.slot g k).queue n.toNat with
        | nil => exact absurd hq (h hp)
        | cons x q => simp
      · simp [hp]

theorem holds_of_notPort {s : State} {n : Name} (h : n.isPort = false) : s.holds n := by
  unfold State.holds; split <;> simp [h]

@[simp] theorem took_cur (s : State) (n : Name) : (s.took n).cur = s.cur := by
  unfold State.took; split
  · rfl
  · split <;> simp

@[simp] theorem queue_setQueue (x : Slot) (d e : Nat) (q : List Tagged) (hd : 1 ≤ d ∧ d ≤ 4) (he : 1 ≤ e ∧ e ≤ 4) :
    (x.setQueue d q).queue e = if e = d then q else x.queue e := by
  obtain ⟨d1, d2⟩ := hd; obtain ⟨e1, e2⟩ := he
  interval_cases d <;> interval_cases e <;> rfl

theorem isPort_iff (n : Name) : n.isPort = true ↔ 1 ≤ n.toNat ∧ n.toNat ≤ 4 := by
  simp [Name.isPort]

/-- Where the ports are ready, the queue of every port that a source field names holds as many words as the instruction
reads from it. -/
theorem portCheck_counts {s : State} {w : BitVec 32} {r : Roles} (h : s.portCheck w r = .ok ()) {n : Name}
    (hn : n.isPort = true) {ro : Role} (hro : readsPort ro = true)
    (hm : (n, ro) ∈ [(r.a, r.ra), (r.b, r.rb), (r.d, r.rd)]) :
    ((([(r.a, r.ra), (r.b, r.rb), (r.d, r.rd)].filter
      (fun e => e.1.isPort && e.2 ≠ .none && e.2 ≠ .late && e.2 ≠ .lateInOut)).filter (fun e => readsPort e.2)).map
        (fun e => e.1.toNat)).count n.toNat ≤ (s.me.queue n.toNat).length := by
  have hsrc : ro = .src := by cases ro <;> simp_all [readsPort]
  subst hsrc
  unfold State.portCheck at h
  simp only at h
  split at h
  · rename_i he
    exfalso
    rw [List.isEmpty_iff] at he
    have : (n, Role.src) ∈ ([(r.a, r.ra), (r.b, r.rb), (r.d, r.rd)].filter
      (fun e => e.1.isPort && e.2 ≠ .none && e.2 ≠ .late && e.2 ≠ .lateInOut)) := by
      rw [List.mem_filter]; exact ⟨hm, by simp [hn]⟩
    rw [he] at this
    simp at this
  · split at h
    · split at h <;> simp at h
    · split at h
      · simp at h
      · rename_i hf
        rw [List.find?_eq_none] at hf
        have := hf n.toNat (by
          rw [List.mem_map]
          refine ⟨(n, .src), ?_, rfl⟩
          rw [List.mem_filter, List.mem_filter]
          exact ⟨⟨hm, by simp [hn]⟩, rfl⟩)
        simpa using this

/-- The first source of a ready instruction finds its word. -/
theorem holds_a {i : Instr} {s : State} (h : Ready i s) (ha : i.roles.ra = .src) : s.holds i.roles.a := by
  unfold State.holds
  split
  · trivial
  · rename_i g k hc
    intro hp
    have hr := (h.onSlot hc).2.2.2.1
    have hcnt := portCheck_counts hr hp (ro := .src) rfl (by simp [ha])
    intro hq
    have hme : s.me = s.slot g k := by simp [State.me, State.gk, hc]
    rw [hme, hq] at hcnt
    simp [ha, hp, readsPort] at hcnt

/-- A second source finds its word where no source was read before it. -/
theorem holds_b {i : Instr} {s : State} (h : Ready i s) (hb : i.roles.rb = .src) : s.holds i.roles.b := by
  unfold State.holds
  split
  · trivial
  · rename_i g k hc
    intro hp
    have hr := (h.onSlot hc).2.2.2.1
    have hcnt := portCheck_counts hr hp (ro := .src) rfl (by simp [hb])
    intro hq
    have hme : s.me = s.slot g k := by simp [State.me, State.gk, hc]
    rw [hme, hq] at hcnt
    simp only [List.length_nil, Nat.le_zero, List.count_eq_zero, List.mem_map, List.mem_filter] at hcnt
    exact hcnt ⟨(i.roles.b, .src), ⟨⟨by simp [hb], by simp [hp]⟩, rfl⟩, rfl⟩

/-- The words noted as taken are apart from the queues. -/
theorem queue_taken (x : Slot) (t) (e : Nat) : ({ x with taken := t } : Slot).queue e = x.queue e := rfl

/-- The second source of a ready instruction finds its word after the first has been read. -/
theorem holds_took {i : Instr} {s : State} (h : Ready i s) (ha : i.roles.ra = .src) (hb : i.roles.rb = .src) :
    (s.took i.roles.a).holds i.roles.b := by
  have hB := holds_b h hb
  unfold State.holds at hB ⊢
  rw [took_cur]
  split
  · trivial
  · rename_i g k hc
    rw [hc] at hB
    simp only at hB
    intro hp
    have hr := (h.onSlot hc).2.2.2.1
    have hme : s.me = s.slot g k := by simp [State.me, State.gk, hc]
    unfold State.took
    simp only [hc]
    by_cases hpa : i.roles.a.isPort = true
    · simp only [hpa, if_true, slot_setSlot, and_self, queue_taken]
      rw [queue_setQueue _ _ _ _ ((isPort_iff _).1 hpa) ((isPort_iff _).1 hp)]
      by_cases hab : i.roles.b.toNat = i.roles.a.toNat
      · have hab' : i.roles.b = i.roles.a := BitVec.eq_of_toNat_eq hab
        simp only [hab, if_true]
        have hcnt := portCheck_counts hr hpa (ro := .src) rfl (by simp [ha])
        rw [hme] at hcnt
        have h2 : 2 ≤ ((s.slot g k).queue i.roles.a.toNat).length := by
          refine le_trans ?_ hcnt
          simp only [List.filter_cons, ha, hb, hab', hpa, readsPort]
          simp
        intro hq
        have := congrArg List.length hq
        simp at this; omega
      · simp only [hab, if_false]; exact hB hp
    · simp only [hpa]; exact hB hp

/-! ### The shared shapes of computing instructions -/

/-- A ready instruction of two sources and one cell. -/
theorem binOp_of_ready {i : Instr} {s : State} {d a b : Name} (h : Ready i s) (ha : i.roles.ra = .src)
    (hb : i.roles.rb = .src) (ea : i.roles.a = a) (eb : i.roles.b = b) (f : Word → Word → Word) :
    issue i (binOp d a b f) s = .next (s.done (((s.took a).took b).writeName d
      { v := f (s.val a).v ((s.took a).val b).v, t := (s.val a).t || ((s.took a).val b).t })) := by
  subst ea eb
  rw [issue_of_ready h, binOp, M.bind_ok (readName_of_holds (holds_a h ha)),
    M.bind_ok (readName_of_holds (holds_took h ha hb)), M.bind_ok (writeName_apply _ _ _), M.pure_apply, finish_next]

/-- A ready instruction of one source and one cell. -/
theorem unOp_of_ready {i : Instr} {s : State} {d a : Name} (h : Ready i s) (ha : i.roles.ra = .src)
    (ea : i.roles.a = a) (f : Word → Word) :
    issue i (unOp d a f) s = .next (s.done ((s.took a).writeName d { v := f (s.val a).v, t := (s.val a).t })) := by
  subst ea
  rw [issue_of_ready h, unOp, M.bind_ok (readName_of_holds (holds_a h ha)), M.bind_ok (writeName_apply _ _ _),
    M.pure_apply, finish_next]

end Sys2Proof.Machine
end

