-- ==== Sys2Proof/Laws/Memory.lean ====
section
/-! SUPPORT. Sys2Proof/Laws/Memory.lean: the canonical form of memory, and that the memory operations keep it. -/

namespace Sys2Proof.Machine

/-- The canonical form as a bound on every key and value. -/
def Memory.From (n : Nat) : List Host.Cell → Prop
  | [] => True
  | (a, v) :: t => n ≤ a ∧ v ≠ 0 ∧ Memory.From (a + 1) t

theorem Memory.From.mono {n k : Nat} (h : k ≤ n) : ∀ {m : List Host.Cell}, Memory.From n m → Memory.From k m
  | [], _ => trivial
  | (_, _) :: _, ⟨h1, h2, h3⟩ => ⟨by omega, h2, h3⟩

/-- The canonical form is the bound from 0 on. -/
theorem Memory.wf_iff (m : List Host.Cell) : Memory.wf m = true ↔ Memory.From 0 m := by
  suffices h : ∀ (m : List Host.Cell) (a : Nat) (v : Byte),
      Memory.wf ((a, v) :: m) = true ↔ (v ≠ 0 ∧ Memory.From (a + 1) m) by
    cases m with
    | nil => simp [Memory.wf, Memory.From]
    | cons e t => obtain ⟨a, v⟩ := e; rw [h]; simp [Memory.From]
  intro m
  induction m with
  | nil => intro a v; simp [Memory.wf, Memory.From]
  | cons e t ih =>
    intro a v
    obtain ⟨b, w⟩ := e
    simp only [Memory.wf, Bool.and_eq_true, decide_eq_true_eq, ih, Memory.From]
    constructor
    · rintro ⟨⟨h1, h2⟩, h3, h4⟩; exact ⟨h1, by omega, h3, h4⟩
    · rintro ⟨h1, h2, h3, h4⟩; exact ⟨⟨h1, by omega⟩, h3, h4⟩

theorem Memory.From.put {v : Byte} (hv : v ≠ 0) :
    ∀ {m : List Host.Cell} {n a : Nat}, n ≤ a → Memory.From n m → Memory.From n (Sparse.put m a v)
  | [], n, a, h, _ => ⟨h, hv, trivial⟩
  | (b, w) :: t, n, a, h, ⟨h1, h2, h3⟩ => by
    simp only [Sparse.put]
    split
    · subst_vars; exact ⟨h, hv, h3⟩
    · split
      · exact ⟨h, hv, by omega, h2, h3⟩
      · exact ⟨h1, h2, Memory.From.put hv (by omega) h3⟩

theorem Memory.From.del : ∀ {m : List Host.Cell} {n : Nat} (a : Nat), Memory.From n m → Memory.From n (Sparse.del m a)
  | [], _, _, _ => trivial
  | (b, w) :: t, n, a, ⟨h1, h2, h3⟩ => by
    simp only [Sparse.del]
    split
    · exact h3.mono (by omega)
    · split
      · exact ⟨h1, h2, h3⟩
      · exact ⟨h1, h2, Memory.From.del a h3⟩

theorem Memory.From.filter (p : Host.Cell → Bool) :
    ∀ {m : List Host.Cell} {n : Nat}, Memory.From n m → Memory.From n (m.filter p)
  | [], _, _ => trivial
  | (b, w) :: t, n, ⟨h1, h2, h3⟩ => by
    rw [List.filter_cons]
    split
    · exact ⟨h1, h2, Memory.From.filter p h3⟩
    · exact (Memory.From.filter p h3).mono (by omega)

/-- A write of a byte keeps the canonical form. -/
theorem Memory.wf_put {m : List Host.Cell} (h : Memory.wf m = true) (a : Nat) (v : Byte) :
    Memory.wf (Memory.put m a v) = true := by
  rw [Memory.wf_iff] at *
  unfold Memory.put
  split
  · exact h.del a
  · exact Memory.From.put ‹_› (by omega) h

/-- Taking entries out keeps the canonical form. -/
theorem Memory.wf_filter {m : List Host.Cell} (h : Memory.wf m = true) (p : Host.Cell → Bool) :
    Memory.wf (m.filter p) = true := by
  rw [Memory.wf_iff] at *
  exact h.filter p

theorem Memory.get_of_from : ∀ {m : List Host.Cell} {n k : Nat}, Memory.From n m → k < n → Sparse.get 0 m k = 0
  | [], _, _, _, _ => rfl
  | (b, w) :: t, n, k, ⟨h1, _, _⟩, h => by
    simp [Sparse.get, show k ≠ b by omega, show k < b by omega]

theorem Memory.get_del_of_from : ∀ {m : List Host.Cell} {n : Nat} (a k : Nat), Memory.From n m →
    Sparse.get 0 (Sparse.del m a) k = if k = a then (0 : Byte) else Sparse.get 0 m k
  | [], _, a, k, _ => by simp [Sparse.del, Sparse.get]
  | (b, w) :: t, n, a, k, ⟨h1, h2, h3⟩ => by
    have ih := Memory.get_del_of_from a k h3
    have low : ∀ j, j < b + 1 → Sparse.get (0 : Byte) t j = 0 := fun j hj => Memory.get_of_from h3 hj
    simp only [Sparse.del]
    by_cases e : a = b
    · rw [if_pos e]
      by_cases h : k = b
      · rw [if_pos (h.trans e.symm), low k (by omega)]
      · rw [if_neg (by omega)]
        by_cases h' : k < b
        · rw [low k (by omega)]; simp [Sparse.get, h, h']
        · simp [Sparse.get, h, h']
    · rw [if_neg e]
      by_cases e' : a < b
      · rw [if_pos e']
        by_cases h : k = a
        · simp [Sparse.get, h, e, e']
        · rw [if_neg h]
      · rw [if_neg e']
        by_cases h : k = b
        · rw [if_neg (by omega)]; simp [Sparse.get, h]
        · by_cases h' : k < b
          · rw [if_neg (by omega)]; simp [Sparse.get, h, h']
          · simp only [Sparse.get, h, h', if_false]; exact ih

/-- A read of memory after a write of one byte. -/
theorem Memory.get_put {m : List Host.Cell} (h : Memory.wf m = true) (a : Nat) (v : Byte) (k : Nat) :
    Memory.get (Memory.put m a v) k = if k = a then v else Memory.get m k := by
  rw [Memory.wf_iff] at h
  unfold Memory.get Memory.put
  split
  · subst_vars; exact Memory.get_del_of_from a k h
  · simp

end Sys2Proof.Machine
end

