-- ==== Sys2Proof/Laws/Ops.lean ====
section
/-! SUPPORT. Sys2Proof/Laws/Ops.lean: what the shared operations over memory, cells and operations in flight leave as it is, and
that every memory operation keeps the canonical form of memory. -/

namespace Sys2Proof.Machine

/-! ### The write of memory -/

/-- All that the write of a byte can change. -/
theorem putByte_eq (s : State) (pa : Nat) (v : Byte) (lo hi : Bool) :
    ∃ m x, s.putByte pa v lo hi = { s with mem := m, saves := x } := by
  unfold State.putByte
  split
  · simp only
    cases region pa with
    | chan g off =>
      simp only
      by_cases h : off < saveOff
      · rw [if_pos h]; exact ⟨_, _, rfl⟩
      · rw [if_neg h]; exact ⟨_, _, rfl⟩
    | scratch g off => exact ⟨_, _, rfl⟩
    | host => exact ⟨_, _, rfl⟩
    | fabric p b => exact ⟨_, _, rfl⟩
    | hole => exact ⟨_, _, rfl⟩
  · exact ⟨_, _, rfl⟩

theorem putBytes_eq (pa : Nat) (v : Word) (en : BitVec 16) : ∀ (n : Nat) (s : State),
    ∃ m x, s.putBytes pa v en n = { s with mem := m, saves := x }
  | 0, _ => ⟨_, _, rfl⟩
  | n + 1, s => by
    obtain ⟨m, x, h⟩ := putByte_eq s (pa + (7 - n)) (v.extractLsb' (8 * (7 - n)) 8) (en.getLsbD (2 * (7 - n)))
      (en.getLsbD (2 * (7 - n) + 1))
    obtain ⟨m', x', h'⟩ := putBytes_eq pa v en n { s with mem := m, saves := x }
    exact ⟨m', x', by rw [State.putBytes, h, h']⟩

/-- All that the write of a word can change. -/
theorem putWord_eq (s : State) (w : WordWrite) (hid : Bool) :
    ∃ m x t b, s.putWord w hid = { s with mem := m, saves := x, tags := t, bad := b } := by
  obtain ⟨m, x, h⟩ := putBytes_eq (s.storage w.pa hid) w.data w.en 8 s
  unfold State.putWord
  simp only [h]
  split <;> split <;> exact ⟨_, _, _, _, rfl⟩

/-- A write to a watched word sets ready bits of slots of its core, and nothing else is woken. -/
theorem wake_cases (s : State) (pa : Nat) (b : Option (Nat × Nat)) : s.wake pa b = s ∨ ∃ g j, s.wake pa b =
    s.setCore g { s.core g with slots := (s.core g).slots.map (fun e =>
      if e.2.watches.contains j && b ≠ some (g, e.1) then (e.1, { e.2 with ready := true }) else e) } := by
  unfold State.wake
  cases region pa with
  | scratch g off =>
    by_cases h : ((s.core g).slots.any (fun e => e.2.watches.contains (off / 8))) = true
    · exact .inr ⟨g, off / 8, if_pos h⟩
    · exact .inl (if_neg h)
  | chan g off => exact .inl rfl
  | host => exact .inl rfl
  | fabric p c => exact .inl rfl
  | hole => exact .inl rfl

theorem wake_eq (s : State) (pa : Nat) (b : Option (Nat × Nat)) : ∃ c, s.wake pa b = { s with cores := c } := by
  rcases wake_cases s pa b with h | ⟨g, j, h⟩ <;> rw [h] <;> exact ⟨_, rfl⟩

/-- All that a write can change. -/
theorem write_eq (s : State) (b : Option (Nat × Nat)) (w : WordWrite) (hid : Bool) :
    ∃ m x t d c, s.write b w hid = { s with mem := m, saves := x, tags := t, bad := d, cores := c } := by
  obtain ⟨m, x, t, d, h⟩ := putWord_eq s w hid
  unfold State.write
  obtain ⟨c, h'⟩ := wake_eq (s.putWord w hid) w.pa b
  exact ⟨m, x, t, d, c, by rw [h', h]⟩

@[simp] theorem State.putWord_cores (s : State) (w : WordWrite) (h : Bool) : (s.putWord w h).cores = s.cores := by
  obtain ⟨_, _, _, _, e⟩ := putWord_eq s w h; rw [e]

@[simp] theorem State.wake_mem (s : State) (pa : Nat) (b : Option (Nat × Nat)) : (s.wake pa b).mem = s.mem := by
  obtain ⟨_, e⟩ := wake_eq s pa b; rw [e]

@[simp] theorem State.write_masons (s : State) (b : Option (Nat × Nat)) (w : WordWrite) (h : Bool) : (s.write b w h).masons = s.masons := by
  obtain ⟨_, _, _, _, _, e⟩ := write_eq s b w h; rw [e]
@[simp] theorem State.write_ops (s : State) (b : Option (Nat × Nat)) (w : WordWrite) (h : Bool) : (s.write b w h).ops = s.ops := by
  obtain ⟨_, _, _, _, _, e⟩ := write_eq s b w h; rw [e]
@[simp] theorem State.write_nextId (s : State) (b : Option (Nat × Nat)) (w : WordWrite) (h : Bool) : (s.write b w h).nextId = s.nextId := by
  obtain ⟨_, _, _, _, _, e⟩ := write_eq s b w h; rw [e]
@[simp] theorem State.write_gangs (s : State) (b : Option (Nat × Nat)) (w : WordWrite) (h : Bool) : (s.write b w h).gangs = s.gangs := by
  obtain ⟨_, _, _, _, _, e⟩ := write_eq s b w h; rw [e]
@[simp] theorem State.write_parts (s : State) (b : Option (Nat × Nat)) (w : WordWrite) (h : Bool) : (s.write b w h).parts = s.parts := by
  obtain ⟨_, _, _, _, _, e⟩ := write_eq s b w h; rw [e]
@[simp] theorem State.write_monitor (s : State) (b : Option (Nat × Nat)) (w : WordWrite) (h : Bool) : (s.write b w h).monitor = s.monitor := by
  obtain ⟨_, _, _, _, _, e⟩ := write_eq s b w h; rw [e]
@[simp] theorem State.write_vfs (s : State) (b : Option (Nat × Nat)) (w : WordWrite) (h : Bool) : (s.write b w h).vfs = s.vfs := by
  obtain ⟨_, _, _, _, _, e⟩ := write_eq s b w h; rw [e]
@[simp] theorem State.write_masked (s : State) (b : Option (Nat × Nat)) (w : WordWrite) (h : Bool) : (s.write b w h).masked = s.masked := by
  obtain ⟨_, _, _, _, _, e⟩ := write_eq s b w h; rw [e]
@[simp] theorem State.write_pkgId (s : State) (b : Option (Nat × Nat)) (w : WordWrite) (h : Bool) : (s.write b w h).pkgId = s.pkgId := by
  obtain ⟨_, _, _, _, _, e⟩ := write_eq s b w h; rw [e]
@[simp] theorem State.write_irqs (s : State) (b : Option (Nat × Nat)) (w : WordWrite) (h : Bool) : (s.write b w h).irqs = s.irqs := by
  obtain ⟨_, _, _, _, _, e⟩ := write_eq s b w h; rw [e]
@[simp] theorem State.write_msixMasked (s : State) (b : Option (Nat × Nat)) (w : WordWrite) (h : Bool) : (s.write b w h).msixMasked = s.msixMasked := by
  obtain ⟨_, _, _, _, _, e⟩ := write_eq s b w h; rw [e]
@[simp] theorem State.write_hostReads (s : State) (b : Option (Nat × Nat)) (w : WordWrite) (h : Bool) : (s.write b w h).hostReads = s.hostReads := by
  obtain ⟨_, _, _, _, _, e⟩ := write_eq s b w h; rw [e]
@[simp] theorem State.write_probeReads (s : State) (b : Option (Nat × Nat)) (w : WordWrite) (h : Bool) : (s.write b w h).probeReads = s.probeReads := by
  obtain ⟨_, _, _, _, _, e⟩ := write_eq s b w h; rw [e]
@[simp] theorem State.write_fabricOut (s : State) (b : Option (Nat × Nat)) (w : WordWrite) (h : Bool) : (s.write b w h).fabricOut = s.fabricOut := by
  obtain ⟨_, _, _, _, _, e⟩ := write_eq s b w h; rw [e]
@[simp] theorem State.write_seals (s : State) (b : Option (Nat × Nat)) (w : WordWrite) (h : Bool) : (s.write b w h).seals = s.seals := by
  obtain ⟨_, _, _, _, _, e⟩ := write_eq s b w h; rw [e]
@[simp] theorem State.write_vr (s : State) (b : Option (Nat × Nat)) (w : WordWrite) (h : Bool) : (s.write b w h).vr = s.vr := by
  obtain ⟨_, _, _, _, _, e⟩ := write_eq s b w h; rw [e]
@[simp] theorem State.write_free (s : State) (b : Option (Nat × Nat)) (w : WordWrite) (h : Bool) : (s.write b w h).free = s.free := by
  obtain ⟨_, _, _, _, _, e⟩ := write_eq s b w h; rw [e]
@[simp] theorem State.write_agenda (s : State) (b : Option (Nat × Nat)) (w : WordWrite) (h : Bool) : (s.write b w h).agenda = s.agenda := by
  obtain ⟨_, _, _, _, _, e⟩ := write_eq s b w h; rw [e]
@[simp] theorem State.write_rr (s : State) (b : Option (Nat × Nat)) (w : WordWrite) (h : Bool) : (s.write b w h).rr = s.rr := by
  obtain ⟨_, _, _, _, _, e⟩ := write_eq s b w h; rw [e]
@[simp] theorem State.write_cur (s : State) (b : Option (Nat × Nat)) (w : WordWrite) (h : Bool) : (s.write b w h).cur = s.cur := by
  obtain ⟨_, _, _, _, _, e⟩ := write_eq s b w h; rw [e]
@[simp] theorem State.write_turn (s : State) (b : Option (Nat × Nat)) (w : WordWrite) (h : Bool) : (s.write b w h).turn = s.turn := by
  obtain ⟨_, _, _, _, _, e⟩ := write_eq s b w h; rw [e]
@[simp] theorem State.write_ev (s : State) (b : Option (Nat × Nat)) (w : WordWrite) (h : Bool) : (s.write b w h).ev = s.ev := by
  obtain ⟨_, _, _, _, _, e⟩ := write_eq s b w h; rw [e]

/-- A write leaves a core but for the ready bits of its slots. -/
theorem core_wake (s : State) (pa : Nat) (b : Option (Nat × Nat)) (g : Nat) :
    { (s.wake pa b).core g with slots := [] } = { s.core g with slots := [] } := by
  rcases wake_cases s pa b with h | ⟨h, j, e⟩
  · rw [h]
  · rw [e, core_setCore]; split
    · subst_vars; rfl
    · rfl

@[simp] theorem cell_write (s : State) (b : Option (Nat × Nat)) (w : WordWrite) (h : Bool) (g c : Nat) :
    (s.write b w h).cell g c = s.cell g c := by
  have e := congrArg Core.rf (core_wake (s.putWord w h) w.pa b g)
  simp only at e
  unfold State.cell State.write
  rw [e, core_of_cores (State.putWord_cores s w h)]

@[simp] theorem mason_write (s : State) (b : Option (Nat × Nat)) (w : WordWrite) (h : Bool) (g : Nat) :
    (s.write b w h).mason g = s.mason g := by
  unfold State.mason; rw [State.write_masons]

@[simp] theorem part_write (s : State) (b : Option (Nat × Nat)) (w : WordWrite) (h : Bool) (p : Nat) :
    (s.write b w h).part p = s.part p := by
  unfold State.part; rw [State.write_parts]

theorem get_map_snd {α : Type} (d : α) (f : α → α) (hd : f d = d) (m : Sparse α) (k : Nat) :
    Sparse.get d (m.map (fun e => (e.1, f e.2))) k = f (Sparse.get d m k) := by
  induction m with
  | nil => simp [Sparse.get, hd]
  | cons e t ih =>
    obtain ⟨a, v⟩ := e
    simp only [List.map_cons, Sparse.get]
    split
    · rfl
    · split
      · exact hd.symm
      · exact ih

/-- After a write a slot is as before, but that its ready bit may have been set. -/
theorem slot_wake (s : State) (pa : Nat) (b : Option (Nat × Nat)) (g k : Nat) :
    (s.wake pa b).slot g k = s.slot g k ∨ (s.wake pa b).slot g k = { s.slot g k with ready := true } := by
  rcases wake_cases s pa b with h | ⟨h, j, e⟩
  · rw [h]; exact .inl rfl
  · rw [e]
    unfold State.slot
    rw [core_setCore]
    split
    · subst_vars
      simp only
      induction (s.core h).slots with
      | nil => exact .inl rfl
      | cons e t ih =>
        obtain ⟨a, v⟩ := e
        simp only [List.map_cons]
        by_cases hc : (v.watches.contains j && decide (b ≠ some (h, a))) = true
        · rw [if_pos hc]; simp only [Sparse.get]
          split
          · exact .inr rfl
          · split
            · exact .inl rfl
            · exact ih
        · rw [if_neg hc]; simp only [Sparse.get]
          split
          · exact .inl rfl
          · split
            · exact .inl rfl
            · exact ih
    · exact .inl rfl

theorem slot_write (s : State) (b : Option (Nat × Nat)) (w : WordWrite) (h : Bool) (g k : Nat) :
    (s.write b w h).slot g k = s.slot g k ∨ (s.write b w h).slot g k = { s.slot g k with ready := true } := by
  have e := slot_wake (s.putWord w h) w.pa b g k
  rwa [slot_of_cores (State.putWord_cores s w h)] at e

/-! ### The canonical form of memory -/

theorem wf_putByte {s : State} (h : Memory.wf s.mem = true) (pa : Nat) (v : Byte) (lo hi : Bool) :
    Memory.wf (s.putByte pa v lo hi).mem = true := by
  unfold State.putByte
  split
  · simp only; split
    · split <;> exact Memory.wf_put h _ _
    · exact Memory.wf_put h _ _
  · exact h

theorem wf_putBytes (pa : Nat) (v : Word) (en : BitVec 16) : ∀ (n : Nat) {s : State}, Memory.wf s.mem = true →
    Memory.wf (s.putBytes pa v en n).mem = true
  | 0, _, h => h
  | n + 1, _, h => wf_putBytes pa v en n (wf_putByte h _ _ _ _)

theorem wf_putWord {s : State} (h : Memory.wf s.mem = true) (w : WordWrite) (b : Bool) :
    Memory.wf (s.putWord w b).mem = true := by
  have e := wf_putBytes (s.storage w.pa b) w.data w.en 8 h
  unfold State.putWord
  simp only
  split <;> split <;> exact e

/-- A write keeps the canonical form. -/
theorem wf_write {s : State} (h : Memory.wf s.mem = true) (b : Option (Nat × Nat)) (w : WordWrite) (hid : Bool) :
    Memory.wf (s.write b w hid).mem = true := by
  rw [State.write, State.wake_mem]; exact wf_putWord h w hid

theorem wf_write64 {s : State} (h : Memory.wf s.mem = true) (pa : Nat) (v : Word) (hid : Bool) :
    Memory.wf (s.write64 pa v hid).mem = true := wf_write h _ _ _

theorem wf_write32 {s : State} (h : Memory.wf s.mem = true) (pa : Nat) (v : BitVec 32) (hid : Bool) :
    Memory.wf (s.write32 pa v hid).mem = true := wf_write h _ _ _

theorem wf_write8 {s : State} (h : Memory.wf s.mem = true) (pa : Nat) (v : Byte) (hid : Bool) :
    Memory.wf (s.write8 pa v hid).mem = true := wf_write h _ _ _

/-- A fold of updates that keep the canonical form keeps it. -/
theorem wf_foldl {α : Type} {f : State → α → State}
    (hf : ∀ s x, Memory.wf s.mem = true → Memory.wf (f s x).mem = true) :
    ∀ (l : List α) {s : State}, Memory.wf s.mem = true → Memory.wf (l.foldl f s).mem = true
  | [], _, h => h
  | x :: l, _, h => wf_foldl hf l (hf _ x h)

/-- A fold of byte writes keeps it. -/
theorem wf_foldl_put : ∀ (l : List Host.Cell) {m : List Host.Cell}, Memory.wf m = true →
    Memory.wf (l.foldl (fun m e => Memory.put m e.1 e.2) m) = true
  | [], _, h => h
  | e :: l, _, h => wf_foldl_put l (Memory.wf_put h e.1 e.2)

/-! ### Cells, operations and counters -/

@[simp] theorem State.setCells_mem (s : State) (g c : Nat) (xs : List Tagged) : (s.setCells g c xs).mem = s.mem := by
  unfold State.setCells; generalize (List.range xs.length).zip xs = l
  induction l generalizing s with
  | nil => rfl
  | cons e t ih => rw [List.foldl_cons, ih]; rfl
@[simp] theorem State.setCells_tags (s : State) (g c : Nat) (xs : List Tagged) : (s.setCells g c xs).tags = s.tags := by
  unfold State.setCells; generalize (List.range xs.length).zip xs = l
  induction l generalizing s with
  | nil => rfl
  | cons e t ih => rw [List.foldl_cons, ih]; rfl
@[simp] theorem State.setCells_bad (s : State) (g c : Nat) (xs : List Tagged) : (s.setCells g c xs).bad = s.bad := by
  unfold State.setCells; generalize (List.range xs.length).zip xs = l
  induction l generalizing s with
  | nil => rfl
  | cons e t ih => rw [List.foldl_cons, ih]; rfl
@[simp] theorem State.setCells_masons (s : State) (g c : Nat) (xs : List Tagged) : (s.setCells g c xs).masons = s.masons := by
  unfold State.setCells; generalize (List.range xs.length).zip xs = l
  induction l generalizing s with
  | nil => rfl
  | cons e t ih => rw [List.foldl_cons, ih]; rfl
@[simp] theorem State.setCells_ops (s : State) (g c : Nat) (xs : List Tagged) : (s.setCells g c xs).ops = s.ops := by
  unfold State.setCells; generalize (List.range xs.length).zip xs = l
  induction l generalizing s with
  | nil => rfl
  | cons e t ih => rw [List.foldl_cons, ih]; rfl
@[simp] theorem State.setCells_nextId (s : State) (g c : Nat) (xs : List Tagged) : (s.setCells g c xs).nextId = s.nextId := by
  unfold State.setCells; generalize (List.range xs.length).zip xs = l
  induction l generalizing s with
  | nil => rfl
  | cons e t ih => rw [List.foldl_cons, ih]; rfl
@[simp] theorem State.setCells_gangs (s : State) (g c : Nat) (xs : List Tagged) : (s.setCells g c xs).gangs = s.gangs := by
  unfold State.setCells; generalize (List.range xs.length).zip xs = l
  induction l generalizing s with
  | nil => rfl
  | cons e t ih => rw [List.foldl_cons, ih]; rfl
@[simp] theorem State.setCells_parts (s : State) (g c : Nat) (xs : List Tagged) : (s.setCells g c xs).parts = s.parts := by
  unfold State.setCells; generalize (List.range xs.length).zip xs = l
  induction l generalizing s with
  | nil => rfl
  | cons e t ih => rw [List.foldl_cons, ih]; rfl
@[simp] theorem State.setCells_monitor (s : State) (g c : Nat) (xs : List Tagged) : (s.setCells g c xs).monitor = s.monitor := by
  unfold State.setCells; generalize (List.range xs.length).zip xs = l
  induction l generalizing s with
  | nil => rfl
  | cons e t ih => rw [List.foldl_cons, ih]; rfl
@[simp] theorem State.setCells_vfs (s : State) (g c : Nat) (xs : List Tagged) : (s.setCells g c xs).vfs = s.vfs := by
  unfold State.setCells; generalize (List.range xs.length).zip xs = l
  induction l generalizing s with
  | nil => rfl
  | cons e t ih => rw [List.foldl_cons, ih]; rfl
@[simp] theorem State.setCells_masked (s : State) (g c : Nat) (xs : List Tagged) : (s.setCells g c xs).masked = s.masked := by
  unfold State.setCells; generalize (List.range xs.length).zip xs = l
  induction l generalizing s with
  | nil => rfl
  | cons e t ih => rw [List.foldl_cons, ih]; rfl
@[simp] theorem State.setCells_pkgId (s : State) (g c : Nat) (xs : List Tagged) : (s.setCells g c xs).pkgId = s.pkgId := by
  unfold State.setCells; generalize (List.range xs.length).zip xs = l
  induction l generalizing s with
  | nil => rfl
  | cons e t ih => rw [List.foldl_cons, ih]; rfl
@[simp] theorem State.setCells_irqs (s : State) (g c : Nat) (xs : List Tagged) : (s.setCells g c xs).irqs = s.irqs := by
  unfold State.setCells; generalize (List.range xs.length).zip xs = l
  induction l generalizing s with
  | nil => rfl
  | cons e t ih => rw [List.foldl_cons, ih]; rfl
@[simp] theorem State.setCells_msixMasked (s : State) (g c : Nat) (xs : List Tagged) : (s.setCells g c xs).msixMasked = s.msixMasked := by
  unfold State.setCells; generalize (List.range xs.length).zip xs = l
  induction l generalizing s with
  | nil => rfl
  | cons e t ih => rw [List.foldl_cons, ih]; rfl
@[simp] theorem State.setCells_hostReads (s : State) (g c : Nat) (xs : List Tagged) : (s.setCells g c xs).hostReads = s.hostReads := by
  unfold State.setCells; generalize (List.range xs.length).zip xs = l
  induction l generalizing s with
  | nil => rfl
  | cons e t ih => rw [List.foldl_cons, ih]; rfl
@[simp] theorem State.setCells_probeReads (s : State) (g c : Nat) (xs : List Tagged) : (s.setCells g c xs).probeReads = s.probeReads := by
  unfold State.setCells; generalize (List.range xs.length).zip xs = l
  induction l generalizing s with
  | nil => rfl
  | cons e t ih => rw [List.foldl_cons, ih]; rfl
@[simp] theorem State.setCells_fabricOut (s : State) (g c : Nat) (xs : List Tagged) : (s.setCells g c xs).fabricOut = s.fabricOut := by
  unfold State.setCells; generalize (List.range xs.length).zip xs = l
  induction l generalizing s with
  | nil => rfl
  | cons e t ih => rw [List.foldl_cons, ih]; rfl
@[simp] theorem State.setCells_seals (s : State) (g c : Nat) (xs : List Tagged) : (s.setCells g c xs).seals = s.seals := by
  unfold State.setCells; generalize (List.range xs.length).zip xs = l
  induction l generalizing s with
  | nil => rfl
  | cons e t ih => rw [List.foldl_cons, ih]; rfl
@[simp] theorem State.setCells_saves (s : State) (g c : Nat) (xs : List Tagged) : (s.setCells g c xs).saves = s.saves := by
  unfold State.setCells; generalize (List.range xs.length).zip xs = l
  induction l generalizing s with
  | nil => rfl
  | cons e t ih => rw [List.foldl_cons, ih]; rfl
@[simp] theorem State.setCells_vr (s : State) (g c : Nat) (xs : List Tagged) : (s.setCells g c xs).vr = s.vr := by
  unfold State.setCells; generalize (List.range xs.length).zip xs = l
  induction l generalizing s with
  | nil => rfl
  | cons e t ih => rw [List.foldl_cons, ih]; rfl
@[simp] theorem State.setCells_free (s : State) (g c : Nat) (xs : List Tagged) : (s.setCells g c xs).free = s.free := by
  unfold State.setCells; generalize (List.range xs.length).zip xs = l
  induction l generalizing s with
  | nil => rfl
  | cons e t ih => rw [List.foldl_cons, ih]; rfl
@[simp] theorem State.setCells_agenda (s : State) (g c : Nat) (xs : List Tagged) : (s.setCells g c xs).agenda = s.agenda := by
  unfold State.setCells; generalize (List.range xs.length).zip xs = l
  induction l generalizing s with
  | nil => rfl
  | cons e t ih => rw [List.foldl_cons, ih]; rfl
@[simp] theorem State.setCells_rr (s : State) (g c : Nat) (xs : List Tagged) : (s.setCells g c xs).rr = s.rr := by
  unfold State.setCells; generalize (List.range xs.length).zip xs = l
  induction l generalizing s with
  | nil => rfl
  | cons e t ih => rw [List.foldl_cons, ih]; rfl
@[simp] theorem State.setCells_cur (s : State) (g c : Nat) (xs : List Tagged) : (s.setCells g c xs).cur = s.cur := by
  unfold State.setCells; generalize (List.range xs.length).zip xs = l
  induction l generalizing s with
  | nil => rfl
  | cons e t ih => rw [List.foldl_cons, ih]; rfl
@[simp] theorem State.setCells_turn (s : State) (g c : Nat) (xs : List Tagged) : (s.setCells g c xs).turn = s.turn := by
  unfold State.setCells; generalize (List.range xs.length).zip xs = l
  induction l generalizing s with
  | nil => rfl
  | cons e t ih => rw [List.foldl_cons, ih]; rfl
@[simp] theorem State.setCells_ev (s : State) (g c : Nat) (xs : List Tagged) : (s.setCells g c xs).ev = s.ev := by
  unfold State.setCells; generalize (List.range xs.length).zip xs = l
  induction l generalizing s with
  | nil => rfl
  | cons e t ih => rw [List.foldl_cons, ih]; rfl

@[simp] theorem State.arrive_mem (s : State) (op : Op) (dst : Option Nat) (xs : List Tagged) : (s.arrive op dst xs).mem = s.mem := by
  unfold State.arrive; split
  · split
    · exact State.setCells_mem ..
    · rfl
  · rfl
@[simp] theorem State.arrive_tags (s : State) (op : Op) (dst : Option Nat) (xs : List Tagged) : (s.arrive op dst xs).tags = s.tags := by
  unfold State.arrive; split
  · split
    · exact State.setCells_tags ..
    · rfl
  · rfl
@[simp] theorem State.arrive_bad (s : State) (op : Op) (dst : Option Nat) (xs : List Tagged) : (s.arrive op dst xs).bad = s.bad := by
  unfold State.arrive; split
  · split
    · exact State.setCells_bad ..
    · rfl
  · rfl
@[simp] theorem State.arrive_masons (s : State) (op : Op) (dst : Option Nat) (xs : List Tagged) : (s.arrive op dst xs).masons = s.masons := by
  unfold State.arrive; split
  · split
    · exact State.setCells_masons ..
    · rfl
  · rfl
@[simp] theorem State.arrive_ops (s : State) (op : Op) (dst : Option Nat) (xs : List Tagged) : (s.arrive op dst xs).ops = s.ops := by
  unfold State.arrive; split
  · split
    · exact State.setCells_ops ..
    · rfl
  · rfl
@[simp] theorem State.arrive_nextId (s : State) (op : Op) (dst : Option Nat) (xs : List Tagged) : (s.arrive op dst xs).nextId = s.nextId := by
  unfold State.arrive; split
  · split
    · exact State.setCells_nextId ..
    · rfl
  · rfl
@[simp] theorem State.arrive_gangs (s : State) (op : Op) (dst : Option Nat) (xs : List Tagged) : (s.arrive op dst xs).gangs = s.gangs := by
  unfold State.arrive; split
  · split
    · exact State.setCells_gangs ..
    · rfl
  · rfl
@[simp] theorem State.arrive_parts (s : State) (op : Op) (dst : Option Nat) (xs : List Tagged) : (s.arrive op dst xs).parts = s.parts := by
  unfold State.arrive; split
  · split
    · exact State.setCells_parts ..
    · rfl
  · rfl
@[simp] theorem State.arrive_monitor (s : State) (op : Op) (dst : Option Nat) (xs : List Tagged) : (s.arrive op dst xs).monitor = s.monitor := by
  unfold State.arrive; split
  · split
    · exact State.setCells_monitor ..
    · rfl
  · rfl
@[simp] theorem State.arrive_vfs (s : State) (op : Op) (dst : Option Nat) (xs : List Tagged) : (s.arrive op dst xs).vfs = s.vfs := by
  unfold State.arrive; split
  · split
    · exact State.setCells_vfs ..
    · rfl
  · rfl
@[simp] theorem State.arrive_masked (s : State) (op : Op) (dst : Option Nat) (xs : List Tagged) : (s.arrive op dst xs).masked = s.masked := by
  unfold State.arrive; split
  · split
    · exact State.setCells_masked ..
    · rfl
  · rfl
@[simp] theorem State.arrive_pkgId (s : State) (op : Op) (dst : Option Nat) (xs : List Tagged) : (s.arrive op dst xs).pkgId = s.pkgId := by
  unfold State.arrive; split
  · split
    · exact State.setCells_pkgId ..
    · rfl
  · rfl
@[simp] theorem State.arrive_irqs (s : State) (op : Op) (dst : Option Nat) (xs : List Tagged) : (s.arrive op dst xs).irqs = s.irqs := by
  unfold State.arrive; split
  · split
    · exact State.setCells_irqs ..
    · rfl
  · rfl
@[simp] theorem State.arrive_msixMasked (s : State) (op : Op) (dst : Option Nat) (xs : List Tagged) : (s.arrive op dst xs).msixMasked = s.msixMasked := by
  unfold State.arrive; split
  · split
    · exact State.setCells_msixMasked ..
    · rfl
  · rfl
@[simp] theorem State.arrive_hostReads (s : State) (op : Op) (dst : Option Nat) (xs : List Tagged) : (s.arrive op dst xs).hostReads = s.hostReads := by
  unfold State.arrive; split
  · split
    · exact State.setCells_hostReads ..
    · rfl
  · rfl
@[simp] theorem State.arrive_probeReads (s : State) (op : Op) (dst : Option Nat) (xs : List Tagged) : (s.arrive op dst xs).probeReads = s.probeReads := by
  unfold State.arrive; split
  · split
    · exact State.setCells_probeReads ..
    · rfl
  · rfl
@[simp] theorem State.arrive_fabricOut (s : State) (op : Op) (dst : Option Nat) (xs : List Tagged) : (s.arrive op dst xs).fabricOut = s.fabricOut := by
  unfold State.arrive; split
  · split
    · exact State.setCells_fabricOut ..
    · rfl
  · rfl
@[simp] theorem State.arrive_seals (s : State) (op : Op) (dst : Option Nat) (xs : List Tagged) : (s.arrive op dst xs).seals = s.seals := by
  unfold State.arrive; split
  · split
    · exact State.setCells_seals ..
    · rfl
  · rfl
@[simp] theorem State.arrive_saves (s : State) (op : Op) (dst : Option Nat) (xs : List Tagged) : (s.arrive op dst xs).saves = s.saves := by
  unfold State.arrive; split
  · split
    · exact State.setCells_saves ..
    · rfl
  · rfl
@[simp] theorem State.arrive_vr (s : State) (op : Op) (dst : Option Nat) (xs : List Tagged) : (s.arrive op dst xs).vr = s.vr := by
  unfold State.arrive; split
  · split
    · exact State.setCells_vr ..
    · rfl
  · rfl
@[simp] theorem State.arrive_free (s : State) (op : Op) (dst : Option Nat) (xs : List Tagged) : (s.arrive op dst xs).free = s.free := by
  unfold State.arrive; split
  · split
    · exact State.setCells_free ..
    · rfl
  · rfl
@[simp] theorem State.arrive_agenda (s : State) (op : Op) (dst : Option Nat) (xs : List Tagged) : (s.arrive op dst xs).agenda = s.agenda := by
  unfold State.arrive; split
  · split
    · exact State.setCells_agenda ..
    · rfl
  · rfl
@[simp] theorem State.arrive_rr (s : State) (op : Op) (dst : Option Nat) (xs : List Tagged) : (s.arrive op dst xs).rr = s.rr := by
  unfold State.arrive; split
  · split
    · exact State.setCells_rr ..
    · rfl
  · rfl
@[simp] theorem State.arrive_cur (s : State) (op : Op) (dst : Option Nat) (xs : List Tagged) : (s.arrive op dst xs).cur = s.cur := by
  unfold State.arrive; split
  · split
    · exact State.setCells_cur ..
    · rfl
  · rfl
@[simp] theorem State.arrive_turn (s : State) (op : Op) (dst : Option Nat) (xs : List Tagged) : (s.arrive op dst xs).turn = s.turn := by
  unfold State.arrive; split
  · split
    · exact State.setCells_turn ..
    · rfl
  · rfl
@[simp] theorem State.arrive_ev (s : State) (op : Op) (dst : Option Nat) (xs : List Tagged) : (s.arrive op dst xs).ev = s.ev := by
  unfold State.arrive; split
  · split
    · exact State.setCells_ev ..
    · rfl
  · rfl

/-- All that the end of an operation can change. -/
theorem endOp_eq (s : State) (o : Op) : ∃ c p, s.endOp o = { s with cores := c, ops := p } := by
  unfold State.endOp
  simp only
  split
  · exact ⟨_, _, rfl⟩
  · exact ⟨_, _, rfl⟩

/-- All that the failure of an operation can change. -/
theorem failOp_eq (s : State) (o : Op) (code : Nat) (val : Word) (sub : Nat) :
    ∃ c p, s.failOp o code val sub = { s with cores := c, ops := p } := by
  obtain ⟨c, p, h⟩ := endOp_eq s o
  unfold State.failOp
  simp only
  split
  · rw [h]; exact ⟨_, _, rfl⟩
  · exact ⟨c, p, h⟩

@[simp] theorem State.endOp_mem (s : State) (op : Op) : (s.endOp op).mem = s.mem := by
  obtain ⟨_, _, e⟩ := endOp_eq s op; rw [e]
@[simp] theorem State.endOp_tags (s : State) (op : Op) : (s.endOp op).tags = s.tags := by
  obtain ⟨_, _, e⟩ := endOp_eq s op; rw [e]
@[simp] theorem State.endOp_bad (s : State) (op : Op) : (s.endOp op).bad = s.bad := by
  obtain ⟨_, _, e⟩ := endOp_eq s op; rw [e]
@[simp] theorem State.endOp_masons (s : State) (op : Op) : (s.endOp op).masons = s.masons := by
  obtain ⟨_, _, e⟩ := endOp_eq s op; rw [e]
@[simp] theorem State.endOp_nextId (s : State) (op : Op) : (s.endOp op).nextId = s.nextId := by
  obtain ⟨_, _, e⟩ := endOp_eq s op; rw [e]
@[simp] theorem State.endOp_gangs (s : State) (op : Op) : (s.endOp op).gangs = s.gangs := by
  obtain ⟨_, _, e⟩ := endOp_eq s op; rw [e]
@[simp] theorem State.endOp_parts (s : State) (op : Op) : (s.endOp op).parts = s.parts := by
  obtain ⟨_, _, e⟩ := endOp_eq s op; rw [e]
@[simp] theorem State.endOp_monitor (s : State) (op : Op) : (s.endOp op).monitor = s.monitor := by
  obtain ⟨_, _, e⟩ := endOp_eq s op; rw [e]
@[simp] theorem State.endOp_vfs (s : State) (op : Op) : (s.endOp op).vfs = s.vfs := by
  obtain ⟨_, _, e⟩ := endOp_eq s op; rw [e]
@[simp] theorem State.endOp_masked (s : State) (op : Op) : (s.endOp op).masked = s.masked := by
  obtain ⟨_, _, e⟩ := endOp_eq s op; rw [e]
@[simp] theorem State.endOp_pkgId (s : State) (op : Op) : (s.endOp op).pkgId = s.pkgId := by
  obtain ⟨_, _, e⟩ := endOp_eq s op; rw [e]
@[simp] theorem State.endOp_irqs (s : State) (op : Op) : (s.endOp op).irqs = s.irqs := by
  obtain ⟨_, _, e⟩ := endOp_eq s op; rw [e]
@[simp] theorem State.endOp_msixMasked (s : State) (op : Op) : (s.endOp op).msixMasked = s.msixMasked := by
  obtain ⟨_, _, e⟩ := endOp_eq s op; rw [e]
@[simp] theorem State.endOp_hostReads (s : State) (op : Op) : (s.endOp op).hostReads = s.hostReads := by
  obtain ⟨_, _, e⟩ := endOp_eq s op; rw [e]
@[simp] theorem State.endOp_probeReads (s : State) (op : Op) : (s.endOp op).probeReads = s.probeReads := by
  obtain ⟨_, _, e⟩ := endOp_eq s op; rw [e]
@[simp] theorem State.endOp_fabricOut (s : State) (op : Op) : (s.endOp op).fabricOut = s.fabricOut := by
  obtain ⟨_, _, e⟩ := endOp_eq s op; rw [e]
@[simp] theorem State.endOp_seals (s : State) (op : Op) : (s.endOp op).seals = s.seals := by
  obtain ⟨_, _, e⟩ := endOp_eq s op; rw [e]
@[simp] theorem State.endOp_saves (s : State) (op : Op) : (s.endOp op).saves = s.saves := by
  obtain ⟨_, _, e⟩ := endOp_eq s op; rw [e]
@[simp] theorem State.endOp_vr (s : State) (op : Op) : (s.endOp op).vr = s.vr := by
  obtain ⟨_, _, e⟩ := endOp_eq s op; rw [e]
@[simp] theorem State.endOp_free (s : State) (op : Op) : (s.endOp op).free = s.free := by
  obtain ⟨_, _, e⟩ := endOp_eq s op; rw [e]
@[simp] theorem State.endOp_agenda (s : State) (op : Op) : (s.endOp op).agenda = s.agenda := by
  obtain ⟨_, _, e⟩ := endOp_eq s op; rw [e]
@[simp] theorem State.endOp_rr (s : State) (op : Op) : (s.endOp op).rr = s.rr := by
  obtain ⟨_, _, e⟩ := endOp_eq s op; rw [e]
@[simp] theorem State.endOp_cur (s : State) (op : Op) : (s.endOp op).cur = s.cur := by
  obtain ⟨_, _, e⟩ := endOp_eq s op; rw [e]
@[simp] theorem State.endOp_turn (s : State) (op : Op) : (s.endOp op).turn = s.turn := by
  obtain ⟨_, _, e⟩ := endOp_eq s op; rw [e]
@[simp] theorem State.endOp_ev (s : State) (op : Op) : (s.endOp op).ev = s.ev := by
  obtain ⟨_, _, e⟩ := endOp_eq s op; rw [e]

@[simp] theorem State.failOp_mem (s : State) (op : Op) (code : Nat) (val : Word) (sub : Nat) : (s.failOp op code val sub).mem = s.mem := by
  obtain ⟨_, _, e⟩ := failOp_eq s op code val sub; rw [e]
@[simp] theorem State.failOp_tags (s : State) (op : Op) (code : Nat) (val : Word) (sub : Nat) : (s.failOp op code val sub).tags = s.tags := by
  obtain ⟨_, _, e⟩ := failOp_eq s op code val sub; rw [e]
@[simp] theorem State.failOp_bad (s : State) (op : Op) (code : Nat) (val : Word) (sub : Nat) : (s.failOp op code val sub).bad = s.bad := by
  obtain ⟨_, _, e⟩ := failOp_eq s op code val sub; rw [e]
@[simp] theorem State.failOp_masons (s : State) (op : Op) (code : Nat) (val : Word) (sub : Nat) : (s.failOp op code val sub).masons = s.masons := by
  obtain ⟨_, _, e⟩ := failOp_eq s op code val sub; rw [e]
@[simp] theorem State.failOp_nextId (s : State) (op : Op) (code : Nat) (val : Word) (sub : Nat) : (s.failOp op code val sub).nextId = s.nextId := by
  obtain ⟨_, _, e⟩ := failOp_eq s op code val sub; rw [e]
@[simp] theorem State.failOp_gangs (s : State) (op : Op) (code : Nat) (val : Word) (sub : Nat) : (s.failOp op code val sub).gangs = s.gangs := by
  obtain ⟨_, _, e⟩ := failOp_eq s op code val sub; rw [e]
@[simp] theorem State.failOp_parts (s : State) (op : Op) (code : Nat) (val : Word) (sub : Nat) : (s.failOp op code val sub).parts = s.parts := by
  obtain ⟨_, _, e⟩ := failOp_eq s op code val sub; rw [e]
@[simp] theorem State.failOp_monitor (s : State) (op : Op) (code : Nat) (val : Word) (sub : Nat) : (s.failOp op code val sub).monitor = s.monitor := by
  obtain ⟨_, _, e⟩ := failOp_eq s op code val sub; rw [e]
@[simp] theorem State.failOp_vfs (s : State) (op : Op) (code : Nat) (val : Word) (sub : Nat) : (s.failOp op code val sub).vfs = s.vfs := by
  obtain ⟨_, _, e⟩ := failOp_eq s op code val sub; rw [e]
@[simp] theorem State.failOp_masked (s : State) (op : Op) (code : Nat) (val : Word) (sub : Nat) : (s.failOp op code val sub).masked = s.masked := by
  obtain ⟨_, _, e⟩ := failOp_eq s op code val sub; rw [e]
@[simp] theorem State.failOp_pkgId (s : State) (op : Op) (code : Nat) (val : Word) (sub : Nat) : (s.failOp op code val sub).pkgId = s.pkgId := by
  obtain ⟨_, _, e⟩ := failOp_eq s op code val sub; rw [e]
@[simp] theorem State.failOp_irqs (s : State) (op : Op) (code : Nat) (val : Word) (sub : Nat) : (s.failOp op code val sub).irqs = s.irqs := by
  obtain ⟨_, _, e⟩ := failOp_eq s op code val sub; rw [e]
@[simp] theorem State.failOp_msixMasked (s : State) (op : Op) (code : Nat) (val : Word) (sub : Nat) : (s.failOp op code val sub).msixMasked = s.msixMasked := by
  obtain ⟨_, _, e⟩ := failOp_eq s op code val sub; rw [e]
@[simp] theorem State.failOp_hostReads (s : State) (op : Op) (code : Nat) (val : Word) (sub : Nat) : (s.failOp op code val sub).hostReads = s.hostReads := by
  obtain ⟨_, _, e⟩ := failOp_eq s op code val sub; rw [e]
@[simp] theorem State.failOp_probeReads (s : State) (op : Op) (code : Nat) (val : Word) (sub : Nat) : (s.failOp op code val sub).probeReads = s.probeReads := by
  obtain ⟨_, _, e⟩ := failOp_eq s op code val sub; rw [e]
@[simp] theorem State.failOp_fabricOut (s : State) (op : Op) (code : Nat) (val : Word) (sub : Nat) : (s.failOp op code val sub).fabricOut = s.fabricOut := by
  obtain ⟨_, _, e⟩ := failOp_eq s op code val sub; rw [e]
@[simp] theorem State.failOp_seals (s : State) (op : Op) (code : Nat) (val : Word) (sub : Nat) : (s.failOp op code val sub).seals = s.seals := by
  obtain ⟨_, _, e⟩ := failOp_eq s op code val sub; rw [e]
@[simp] theorem State.failOp_saves (s : State) (op : Op) (code : Nat) (val : Word) (sub : Nat) : (s.failOp op code val sub).saves = s.saves := by
  obtain ⟨_, _, e⟩ := failOp_eq s op code val sub; rw [e]
@[simp] theorem State.failOp_vr (s : State) (op : Op) (code : Nat) (val : Word) (sub : Nat) : (s.failOp op code val sub).vr = s.vr := by
  obtain ⟨_, _, e⟩ := failOp_eq s op code val sub; rw [e]
@[simp] theorem State.failOp_free (s : State) (op : Op) (code : Nat) (val : Word) (sub : Nat) : (s.failOp op code val sub).free = s.free := by
  obtain ⟨_, _, e⟩ := failOp_eq s op code val sub; rw [e]
@[simp] theorem State.failOp_agenda (s : State) (op : Op) (code : Nat) (val : Word) (sub : Nat) : (s.failOp op code val sub).agenda = s.agenda := by
  obtain ⟨_, _, e⟩ := failOp_eq s op code val sub; rw [e]
@[simp] theorem State.failOp_rr (s : State) (op : Op) (code : Nat) (val : Word) (sub : Nat) : (s.failOp op code val sub).rr = s.rr := by
  obtain ⟨_, _, e⟩ := failOp_eq s op code val sub; rw [e]
@[simp] theorem State.failOp_cur (s : State) (op : Op) (code : Nat) (val : Word) (sub : Nat) : (s.failOp op code val sub).cur = s.cur := by
  obtain ⟨_, _, e⟩ := failOp_eq s op code val sub; rw [e]
@[simp] theorem State.failOp_turn (s : State) (op : Op) (code : Nat) (val : Word) (sub : Nat) : (s.failOp op code val sub).turn = s.turn := by
  obtain ⟨_, _, e⟩ := failOp_eq s op code val sub; rw [e]
@[simp] theorem State.failOp_ev (s : State) (op : Op) (code : Nat) (val : Word) (sub : Nat) : (s.failOp op code val sub).ev = s.ev := by
  obtain ⟨_, _, e⟩ := failOp_eq s op code val sub; rw [e]

@[simp] theorem State.release_mem (s : State) (g k : Nat) : (s.release g k).mem = s.mem := by
  rfl
@[simp] theorem State.release_tags (s : State) (g k : Nat) : (s.release g k).tags = s.tags := by
  rfl
@[simp] theorem State.release_bad (s : State) (g k : Nat) : (s.release g k).bad = s.bad := by
  rfl
@[simp] theorem State.release_masons (s : State) (g k : Nat) : (s.release g k).masons = s.masons := by
  rfl
@[simp] theorem State.release_ops (s : State) (g k : Nat) : (s.release g k).ops = s.ops := by
  rfl
@[simp] theorem State.release_nextId (s : State) (g k : Nat) : (s.release g k).nextId = s.nextId := by
  rfl
@[simp] theorem State.release_gangs (s : State) (g k : Nat) : (s.release g k).gangs = s.gangs := by
  rfl
@[simp] theorem State.release_parts (s : State) (g k : Nat) : (s.release g k).parts = s.parts := by
  rfl
@[simp] theorem State.release_monitor (s : State) (g k : Nat) : (s.release g k).monitor = s.monitor := by
  rfl
@[simp] theorem State.release_vfs (s : State) (g k : Nat) : (s.release g k).vfs = s.vfs := by
  rfl
@[simp] theorem State.release_masked (s : State) (g k : Nat) : (s.release g k).masked = s.masked := by
  rfl
@[simp] theorem State.release_pkgId (s : State) (g k : Nat) : (s.release g k).pkgId = s.pkgId := by
  rfl
@[simp] theorem State.release_irqs (s : State) (g k : Nat) : (s.release g k).irqs = s.irqs := by
  rfl
@[simp] theorem State.release_msixMasked (s : State) (g k : Nat) : (s.release g k).msixMasked = s.msixMasked := by
  rfl
@[simp] theorem State.release_hostReads (s : State) (g k : Nat) : (s.release g k).hostReads = s.hostReads := by
  rfl
@[simp] theorem State.release_probeReads (s : State) (g k : Nat) : (s.release g k).probeReads = s.probeReads := by
  rfl
@[simp] theorem State.release_fabricOut (s : State) (g k : Nat) : (s.release g k).fabricOut = s.fabricOut := by
  rfl
@[simp] theorem State.release_seals (s : State) (g k : Nat) : (s.release g k).seals = s.seals := by
  rfl
@[simp] theorem State.release_saves (s : State) (g k : Nat) : (s.release g k).saves = s.saves := by
  rfl
@[simp] theorem State.release_vr (s : State) (g k : Nat) : (s.release g k).vr = s.vr := by
  rfl
@[simp] theorem State.release_free (s : State) (g k : Nat) : (s.release g k).free = s.free := by
  rfl
@[simp] theorem State.release_agenda (s : State) (g k : Nat) : (s.release g k).agenda = s.agenda := by
  rfl
@[simp] theorem State.release_rr (s : State) (g k : Nat) : (s.release g k).rr = s.rr := by
  rfl
@[simp] theorem State.release_cur (s : State) (g k : Nat) : (s.release g k).cur = s.cur := by
  rfl
@[simp] theorem State.release_turn (s : State) (g k : Nat) : (s.release g k).turn = s.turn := by
  rfl
@[simp] theorem State.release_ev (s : State) (g k : Nat) : (s.release g k).ev = s.ev := by
  rfl

/-- An operation that has ended is in flight no more. -/
@[simp] theorem op?_endOp (s : State) (o : Op) : (s.endOp o).op? o.id = none := by
  unfold State.endOp
  simp only
  split
  · exact op?_dropOp s o.id
  · exact op?_dropOp s o.id

@[simp] theorem op?_failOp (s : State) (o : Op) (code : Nat) (val : Word) (sub : Nat) :
    (s.failOp o code val sub).op? o.id = none := by
  unfold State.failOp
  simp only
  split
  · exact op?_endOp s o
  · exact op?_endOp s o

@[simp] theorem cell_endOp (s : State) (o : Op) (g c : Nat) : (s.endOp o).cell g c = s.cell g c := by
  unfold State.endOp
  simp only
  split <;> simp

/-- The end of an operation lowers its counter and changes no other slot. -/
theorem slot_endOp (s : State) (o : Op) (g k : Nat) : (s.endOp o).slot g k =
    match o.cls, o.live with
    | some c, true =>
      if g = o.g ∧ k = o.k then (s.slot o.g o.k).setCount c ((s.slot o.g o.k).count c - 1) else s.slot g k
    | _, _ => s.slot g k := by
  unfold State.endOp
  cases o.cls with
  | none => rfl
  | some c => cases o.live with
    | false => rfl
    | true => simp only; rw [slot_setSlot]; rfl

@[simp] theorem cell_failOp (s : State) (o : Op) (code : Nat) (val : Word) (sub g c : Nat) :
    (s.failOp o code val sub).cell g c = s.cell g c := by
  unfold State.failOp
  simp only
  split <;> simp

@[simp] theorem slot_setCells (s : State) (g c : Nat) (xs : List Tagged) (h k : Nat) :
    (s.setCells g c xs).slot h k = s.slot h k := by
  unfold State.setCells
  generalize (List.range xs.length).zip xs = l
  induction l generalizing s with
  | nil => rfl
  | cons e t ih => rw [List.foldl_cons, ih, slot_setCell]

@[simp] theorem slot_arrive (s : State) (o : Op) (dst : Option Nat) (xs : List Tagged) (h k : Nat) :
    (s.arrive o dst xs).slot h k = s.slot h k := by
  unfold State.arrive
  split <;> (try split) <;> simp

/-- A run of one cell. -/
theorem setCells_one (s : State) (g c : Nat) (x : Tagged) (h : c < numCells g) : s.setCells g c [x] = s.setCell g c x := by
  show s.setCell g ((c + 0) % numCells g) x = _
  rw [Nat.add_zero, Nat.mod_eq_of_lt h]

end Sys2Proof.Machine
end

