-- ==== Sys2Proof/Laws/PerInstr.lean ====
section
/-! SUPPORT. Sys2Proof/Laws/PerInstr.lean: the family Encoding: the word of an instruction picks that instruction (R203, R208,
R209), instruction by instruction; an event has no word. -/

namespace Sys2Proof.Laws

/-- The word of an instruction is picked as that instruction, with every field at every value. -/
def Encoding.Statement (i : Instr) : Prop := i.isWord = true → pick (encode i) = some i

theorem Encoding.add (d : Name) (a : Name) (b : Name) : Encoding.Statement (.add d a b) := fun _ => pick_encA 0x01 0 d a b

theorem Encoding.sub (d : Name) (a : Name) (b : Name) : Encoding.Statement (.sub d a b) := fun _ => pick_encA 0x01 1 d a b

theorem Encoding.and (d : Name) (a : Name) (b : Name) : Encoding.Statement (.and d a b) := fun _ => pick_encA 0x01 2 d a b

theorem Encoding.or (d : Name) (a : Name) (b : Name) : Encoding.Statement (.or d a b) := fun _ => pick_encA 0x01 3 d a b

theorem Encoding.xor (d : Name) (a : Name) (b : Name) : Encoding.Statement (.xor d a b) := fun _ => pick_encA 0x01 4 d a b

theorem Encoding.sll (d : Name) (a : Name) (b : Name) : Encoding.Statement (.sll d a b) := fun _ => pick_encA 0x01 5 d a b

theorem Encoding.srl (d : Name) (a : Name) (b : Name) : Encoding.Statement (.srl d a b) := fun _ => pick_encA 0x01 6 d a b

theorem Encoding.sra (d : Name) (a : Name) (b : Name) : Encoding.Statement (.sra d a b) := fun _ => pick_encA 0x01 7 d a b

theorem Encoding.slt (d : Name) (a : Name) (b : Name) : Encoding.Statement (.slt d a b) := fun _ => pick_encA 0x01 8 d a b

theorem Encoding.sltu (d : Name) (a : Name) (b : Name) : Encoding.Statement (.sltu d a b) := fun _ => pick_encA 0x01 9 d a b

theorem Encoding.min (d : Name) (a : Name) (b : Name) : Encoding.Statement (.min d a b) := fun _ => pick_encA 0x01 10 d a b

theorem Encoding.max (d : Name) (a : Name) (b : Name) : Encoding.Statement (.max d a b) := fun _ => pick_encA 0x01 11 d a b

theorem Encoding.minu (d : Name) (a : Name) (b : Name) : Encoding.Statement (.minu d a b) := fun _ => pick_encA 0x01 12 d a b

theorem Encoding.maxu (d : Name) (a : Name) (b : Name) : Encoding.Statement (.maxu d a b) := fun _ => pick_encA 0x01 13 d a b

theorem Encoding.mul (d : Name) (a : Name) (b : Name) : Encoding.Statement (.mul d a b) := fun _ => pick_encA 0x01 14 d a b

theorem Encoding.mulh (d : Name) (a : Name) (b : Name) : Encoding.Statement (.mulh d a b) := fun _ => pick_encA 0x01 15 d a b

theorem Encoding.mulhu (d : Name) (a : Name) (b : Name) : Encoding.Statement (.mulhu d a b) := fun _ => pick_encA 0x01 16 d a b

theorem Encoding.div (d : Name) (a : Name) (b : Name) : Encoding.Statement (.div d a b) := fun _ => pick_encA 0x01 17 d a b

theorem Encoding.divu (d : Name) (a : Name) (b : Name) : Encoding.Statement (.divu d a b) := fun _ => pick_encA 0x01 18 d a b

theorem Encoding.rem (d : Name) (a : Name) (b : Name) : Encoding.Statement (.rem d a b) := fun _ => pick_encA 0x01 19 d a b

theorem Encoding.remu (d : Name) (a : Name) (b : Name) : Encoding.Statement (.remu d a b) := fun _ => pick_encA 0x01 20 d a b

theorem Encoding.clz (d : Name) (a : Name) : Encoding.Statement (.clz d a) := fun _ => pick_encA 0x02 0 d a 0

theorem Encoding.ctz (d : Name) (a : Name) : Encoding.Statement (.ctz d a) := fun _ => pick_encA 0x02 1 d a 0

theorem Encoding.popc (d : Name) (a : Name) : Encoding.Statement (.popc d a) := fun _ => pick_encA 0x02 2 d a 0

theorem Encoding.rank (d : Name) (a : Name) (b : Name) : Encoding.Statement (.rank d a b) := fun _ => pick_encA 0x02 3 d a b

theorem Encoding.nth (d : Name) (a : Name) (b : Name) : Encoding.Statement (.nth d a b) := fun _ => pick_encA 0x02 4 d a b

theorem Encoding.bext (d : Name) (a : Name) (b : Name) : Encoding.Statement (.bext d a b) := fun _ => pick_encA 0x02 5 d a b

theorem Encoding.bdep (d : Name) (a : Name) (b : Name) : Encoding.Statement (.bdep d a b) := fun _ => pick_encA 0x02 6 d a b

theorem Encoding.rev8 (d : Name) (a : Name) : Encoding.Statement (.rev8 d a) := fun _ => pick_encA 0x02 7 d a 0

theorem Encoding.sext8 (d : Name) (a : Name) : Encoding.Statement (.sext8 d a) := fun _ => pick_encA 0x02 8 d a 0

theorem Encoding.sext16 (d : Name) (a : Name) : Encoding.Statement (.sext16 d a) := fun _ => pick_encA 0x02 9 d a 0

theorem Encoding.sext32 (d : Name) (a : Name) : Encoding.Statement (.sext32 d a) := fun _ => pick_encA 0x02 10 d a 0

theorem Encoding.zext8 (d : Name) (a : Name) : Encoding.Statement (.zext8 d a) := fun _ => pick_encA 0x02 11 d a 0

theorem Encoding.zext16 (d : Name) (a : Name) : Encoding.Statement (.zext16 d a) := fun _ => pick_encA 0x02 12 d a 0

theorem Encoding.zext32 (d : Name) (a : Name) : Encoding.Statement (.zext32 d a) := fun _ => pick_encA 0x02 13 d a 0

theorem Encoding.addi (d : Name) (a : Name) (i : BitVec 12) : Encoding.Statement (.addi d a i) := by
  intro _; refine (pick_encI 0x03 d a i).trans ?_; show some (Instr.addi _ _ ((encI 0x03 d a i).extractLsb' 0 12)) = _; rw [encI_0]

theorem Encoding.andi (d : Name) (a : Name) (i : BitVec 12) : Encoding.Statement (.andi d a i) := by
  intro _; refine (pick_encI 0x04 d a i).trans ?_; show some (Instr.andi _ _ ((encI 0x04 d a i).extractLsb' 0 12)) = _; rw [encI_0]

theorem Encoding.ori (d : Name) (a : Name) (i : BitVec 12) : Encoding.Statement (.ori d a i) := by
  intro _; refine (pick_encI 0x05 d a i).trans ?_; show some (Instr.ori _ _ ((encI 0x05 d a i).extractLsb' 0 12)) = _; rw [encI_0]

theorem Encoding.xori (d : Name) (a : Name) (i : BitVec 12) : Encoding.Statement (.xori d a i) := by
  intro _; refine (pick_encI 0x06 d a i).trans ?_; show some (Instr.xori _ _ ((encI 0x06 d a i).extractLsb' 0 12)) = _; rw [encI_0]

theorem Encoding.slti (d : Name) (a : Name) (i : BitVec 12) : Encoding.Statement (.slti d a i) := by
  intro _; refine (pick_encI 0x07 d a i).trans ?_; show some (Instr.slti _ _ ((encI 0x07 d a i).extractLsb' 0 12)) = _; rw [encI_0]

theorem Encoding.sltiu (d : Name) (a : Name) (i : BitVec 12) : Encoding.Statement (.sltiu d a i) := by
  intro _; refine (pick_encI 0x08 d a i).trans ?_; show some (Instr.sltiu _ _ ((encI 0x08 d a i).extractLsb' 0 12)) = _; rw [encI_0]

theorem Encoding.slli (d : Name) (a : Name) (c : BitVec 6) : Encoding.Statement (.slli d a c) := by
  intro _; refine (pick_encI 0x09 d a ((0 : BitVec 4) ++ (0 : BitVec 2) ++ c)).trans ?_; show pick09 _ _ = _; unfold pick09
  rw [extractLsb'_within _ 12 6 2 (by omega), extractLsb'_within _ 12 0 6 (by omega), encI_0]
  rw [extractLsb'_append_low _ _ 0 6 (by omega), extractLsb'_whole, extractLsb'_append_high _ _ 6 2 (by omega)]
  rw [extractLsb'_append_low _ _ _ 2 (by omega)]; rfl

theorem Encoding.srli (d : Name) (a : Name) (c : BitVec 6) : Encoding.Statement (.srli d a c) := by
  intro _; refine (pick_encI 0x09 d a ((0 : BitVec 4) ++ (1 : BitVec 2) ++ c)).trans ?_; show pick09 _ _ = _; unfold pick09
  rw [extractLsb'_within _ 12 6 2 (by omega), extractLsb'_within _ 12 0 6 (by omega), encI_0]
  rw [extractLsb'_append_low _ _ 0 6 (by omega), extractLsb'_whole, extractLsb'_append_high _ _ 6 2 (by omega)]
  rw [extractLsb'_append_low _ _ _ 2 (by omega)]; rfl

theorem Encoding.srai (d : Name) (a : Name) (c : BitVec 6) : Encoding.Statement (.srai d a c) := by
  intro _; refine (pick_encI 0x09 d a ((0 : BitVec 4) ++ (2 : BitVec 2) ++ c)).trans ?_; show pick09 _ _ = _; unfold pick09
  rw [extractLsb'_within _ 12 6 2 (by omega), extractLsb'_within _ 12 0 6 (by omega), encI_0]
  rw [extractLsb'_append_low _ _ 0 6 (by omega), extractLsb'_whole, extractLsb'_append_high _ _ 6 2 (by omega)]
  rw [extractLsb'_append_low _ _ _ 2 (by omega)]; rfl

theorem Encoding.lui (d : Name) (i : BitVec 19) : Encoding.Statement (.lui d i) := by
  intro _; refine (pick_encU 0x0A d i).trans ?_; show some (Instr.lui _ ((encU 0x0A d i).extractLsb' 0 19)) = _; rw [encU_0]

theorem Encoding.adpc (d : Name) (i : BitVec 19) : Encoding.Statement (.adpc d i) := by
  intro _; refine (pick_encU 0x0B d i).trans ?_; show some (Instr.adpc _ ((encU 0x0B d i).extractLsb' 0 19)) = _; rw [encU_0]

theorem Encoding.pcmpEq (p : BitVec 3) (g : BitVec 3) (n : BitVec 1) (a : Name) (b : Name) : Encoding.Statement (.pcmpEq p g n a b) := by
  intro _; refine (pick_encC 0x0C 0 p g n a b).trans ?_; show some (Instr.pcmpEq ((encC 0x0C 0 p g n a b).extractLsb' 23 3) ((encC 0x0C 0 p g n a b).extractLsb' 20 3) ((encC 0x0C 0 p g n a b).extractLsb' 19 1) _ _) = _; rw [encC_23, encC_20, encC_19]

theorem Encoding.pcmpNe (p : BitVec 3) (g : BitVec 3) (n : BitVec 1) (a : Name) (b : Name) : Encoding.Statement (.pcmpNe p g n a b) := by
  intro _; refine (pick_encC 0x0C 1 p g n a b).trans ?_; show some (Instr.pcmpNe ((encC 0x0C 1 p g n a b).extractLsb' 23 3) ((encC 0x0C 1 p g n a b).extractLsb' 20 3) ((encC 0x0C 1 p g n a b).extractLsb' 19 1) _ _) = _; rw [encC_23, encC_20, encC_19]

theorem Encoding.pcmpLt (p : BitVec 3) (g : BitVec 3) (n : BitVec 1) (a : Name) (b : Name) : Encoding.Statement (.pcmpLt p g n a b) := by
  intro _; refine (pick_encC 0x0C 2 p g n a b).trans ?_; show some (Instr.pcmpLt ((encC 0x0C 2 p g n a b).extractLsb' 23 3) ((encC 0x0C 2 p g n a b).extractLsb' 20 3) ((encC 0x0C 2 p g n a b).extractLsb' 19 1) _ _) = _; rw [encC_23, encC_20, encC_19]

theorem Encoding.pcmpGe (p : BitVec 3) (g : BitVec 3) (n : BitVec 1) (a : Name) (b : Name) : Encoding.Statement (.pcmpGe p g n a b) := by
  intro _; refine (pick_encC 0x0C 3 p g n a b).trans ?_; show some (Instr.pcmpGe ((encC 0x0C 3 p g n a b).extractLsb' 23 3) ((encC 0x0C 3 p g n a b).extractLsb' 20 3) ((encC 0x0C 3 p g n a b).extractLsb' 19 1) _ _) = _; rw [encC_23, encC_20, encC_19]

theorem Encoding.pcmpLtu (p : BitVec 3) (g : BitVec 3) (n : BitVec 1) (a : Name) (b : Name) : Encoding.Statement (.pcmpLtu p g n a b) := by
  intro _; refine (pick_encC 0x0C 4 p g n a b).trans ?_; show some (Instr.pcmpLtu ((encC 0x0C 4 p g n a b).extractLsb' 23 3) ((encC 0x0C 4 p g n a b).extractLsb' 20 3) ((encC 0x0C 4 p g n a b).extractLsb' 19 1) _ _) = _; rw [encC_23, encC_20, encC_19]

theorem Encoding.pcmpGeu (p : BitVec 3) (g : BitVec 3) (n : BitVec 1) (a : Name) (b : Name) : Encoding.Statement (.pcmpGeu p g n a b) := by
  intro _; refine (pick_encC 0x0C 5 p g n a b).trans ?_; show some (Instr.pcmpGeu ((encC 0x0C 5 p g n a b).extractLsb' 23 3) ((encC 0x0C 5 p g n a b).extractLsb' 20 3) ((encC 0x0C 5 p g n a b).extractLsb' 19 1) _ _) = _; rw [encC_23, encC_20, encC_19]

theorem Encoding.pcmpFEq (p : BitVec 3) (g : BitVec 3) (n : BitVec 1) (a : Name) (b : Name) : Encoding.Statement (.pcmpFEq p g n a b) := by
  intro _; refine (pick_encC 0x0C 6 p g n a b).trans ?_; show some (Instr.pcmpFEq ((encC 0x0C 6 p g n a b).extractLsb' 23 3) ((encC 0x0C 6 p g n a b).extractLsb' 20 3) ((encC 0x0C 6 p g n a b).extractLsb' 19 1) _ _) = _; rw [encC_23, encC_20, encC_19]

theorem Encoding.pcmpFLt (p : BitVec 3) (g : BitVec 3) (n : BitVec 1) (a : Name) (b : Name) : Encoding.Statement (.pcmpFLt p g n a b) := by
  intro _; refine (pick_encC 0x0C 7 p g n a b).trans ?_; show some (Instr.pcmpFLt ((encC 0x0C 7 p g n a b).extractLsb' 23 3) ((encC 0x0C 7 p g n a b).extractLsb' 20 3) ((encC 0x0C 7 p g n a b).extractLsb' 19 1) _ _) = _; rw [encC_23, encC_20, encC_19]

theorem Encoding.pcmpFLe (p : BitVec 3) (g : BitVec 3) (n : BitVec 1) (a : Name) (b : Name) : Encoding.Statement (.pcmpFLe p g n a b) := by
  intro _; refine (pick_encC 0x0C 8 p g n a b).trans ?_; show some (Instr.pcmpFLe ((encC 0x0C 8 p g n a b).extractLsb' 23 3) ((encC 0x0C 8 p g n a b).extractLsb' 20 3) ((encC 0x0C 8 p g n a b).extractLsb' 19 1) _ _) = _; rw [encC_23, encC_20, encC_19]

theorem Encoding.pcmpFUn (p : BitVec 3) (g : BitVec 3) (n : BitVec 1) (a : Name) (b : Name) : Encoding.Statement (.pcmpFUn p g n a b) := by
  intro _; refine (pick_encC 0x0C 9 p g n a b).trans ?_; show some (Instr.pcmpFUn ((encC 0x0C 9 p g n a b).extractLsb' 23 3) ((encC 0x0C 9 p g n a b).extractLsb' 20 3) ((encC 0x0C 9 p g n a b).extractLsb' 19 1) _ _) = _; rw [encC_23, encC_20, encC_19]

theorem Encoding.pcmpVfEq (p : BitVec 3) (g : BitVec 3) (n : BitVec 1) (a : Name) (b : Name) : Encoding.Statement (.pcmpVfEq p g n a b) := by
  intro _; refine (pick_encC 0x0C 10 p g n a b).trans ?_; show some (Instr.pcmpVfEq ((encC 0x0C 10 p g n a b).extractLsb' 23 3) ((encC 0x0C 10 p g n a b).extractLsb' 20 3) ((encC 0x0C 10 p g n a b).extractLsb' 19 1) _ _) = _; rw [encC_23, encC_20, encC_19]

theorem Encoding.pcmpVfLt (p : BitVec 3) (g : BitVec 3) (n : BitVec 1) (a : Name) (b : Name) : Encoding.Statement (.pcmpVfLt p g n a b) := by
  intro _; refine (pick_encC 0x0C 11 p g n a b).trans ?_; show some (Instr.pcmpVfLt ((encC 0x0C 11 p g n a b).extractLsb' 23 3) ((encC 0x0C 11 p g n a b).extractLsb' 20 3) ((encC 0x0C 11 p g n a b).extractLsb' 19 1) _ _) = _; rw [encC_23, encC_20, encC_19]

theorem Encoding.pcmpVfLe (p : BitVec 3) (g : BitVec 3) (n : BitVec 1) (a : Name) (b : Name) : Encoding.Statement (.pcmpVfLe p g n a b) := by
  intro _; refine (pick_encC 0x0C 12 p g n a b).trans ?_; show some (Instr.pcmpVfLe ((encC 0x0C 12 p g n a b).extractLsb' 23 3) ((encC 0x0C 12 p g n a b).extractLsb' 20 3) ((encC 0x0C 12 p g n a b).extractLsb' 19 1) _ _) = _; rw [encC_23, encC_20, encC_19]

theorem Encoding.pcmpBit (p : BitVec 3) (g : BitVec 3) (n : BitVec 1) (a : Name) (b : Name) : Encoding.Statement (.pcmpBit p g n a b) := by
  intro _; refine (pick_encC 0x0C 13 p g n a b).trans ?_; show some (Instr.pcmpBit ((encC 0x0C 13 p g n a b).extractLsb' 23 3) ((encC 0x0C 13 p g n a b).extractLsb' 20 3) ((encC 0x0C 13 p g n a b).extractLsb' 19 1) _ _) = _; rw [encC_23, encC_20, encC_19]

theorem Encoding.pand (p : BitVec 3) (g : BitVec 3) (n : BitVec 1) (a : BitVec 3) (b : BitVec 3) : Encoding.Statement (.pand p g n a b) := by
  intro _; refine (pick_encC 0x0D 0 p g n ((0 : BitVec 4) ++ a) ((0 : BitVec 4) ++ b)).trans ?_; show some (Instr.pand ((encC 0x0D 0 p g n ((0 : BitVec 4) ++ a) ((0 : BitVec 4) ++ b)).extractLsb' 23 3) ((encC 0x0D 0 p g n ((0 : BitVec 4) ++ a) ((0 : BitVec 4) ++ b)).extractLsb' 20 3) ((encC 0x0D 0 p g n ((0 : BitVec 4) ++ a) ((0 : BitVec 4) ++ b)).extractLsb' 19 1) ((encC 0x0D 0 p g n ((0 : BitVec 4) ++ a) ((0 : BitVec 4) ++ b)).extractLsb' 12 3) ((encC 0x0D 0 p g n ((0 : BitVec 4) ++ a) ((0 : BitVec 4) ++ b)).extractLsb' 5 3)) = _
  rw [extractLsb'_narrow _ 12 7 3 (by omega), extractLsb'_narrow _ 5 7 3 (by omega)]
  simp only [encC_23, encC_20, encC_19, encC_12, encC_5]
  repeat rw [extractLsb'_append_low _ _ 0 3 (by omega), extractLsb'_whole]

theorem Encoding.por (p : BitVec 3) (g : BitVec 3) (n : BitVec 1) (a : BitVec 3) (b : BitVec 3) : Encoding.Statement (.por p g n a b) := by
  intro _; refine (pick_encC 0x0D 1 p g n ((0 : BitVec 4) ++ a) ((0 : BitVec 4) ++ b)).trans ?_; show some (Instr.por ((encC 0x0D 1 p g n ((0 : BitVec 4) ++ a) ((0 : BitVec 4) ++ b)).extractLsb' 23 3) ((encC 0x0D 1 p g n ((0 : BitVec 4) ++ a) ((0 : BitVec 4) ++ b)).extractLsb' 20 3) ((encC 0x0D 1 p g n ((0 : BitVec 4) ++ a) ((0 : BitVec 4) ++ b)).extractLsb' 19 1) ((encC 0x0D 1 p g n ((0 : BitVec 4) ++ a) ((0 : BitVec 4) ++ b)).extractLsb' 12 3) ((encC 0x0D 1 p g n ((0 : BitVec 4) ++ a) ((0 : BitVec 4) ++ b)).extractLsb' 5 3)) = _
  rw [extractLsb'_narrow _ 12 7 3 (by omega), extractLsb'_narrow _ 5 7 3 (by omega)]
  simp only [encC_23, encC_20, encC_19, encC_12, encC_5]
  repeat rw [extractLsb'_append_low _ _ 0 3 (by omega), extractLsb'_whole]

theorem Encoding.pxor (p : BitVec 3) (g : BitVec 3) (n : BitVec 1) (a : BitVec 3) (b : BitVec 3) : Encoding.Statement (.pxor p g n a b) := by
  intro _; refine (pick_encC 0x0D 2 p g n ((0 : BitVec 4) ++ a) ((0 : BitVec 4) ++ b)).trans ?_; show some (Instr.pxor ((encC 0x0D 2 p g n ((0 : BitVec 4) ++ a) ((0 : BitVec 4) ++ b)).extractLsb' 23 3) ((encC 0x0D 2 p g n ((0 : BitVec 4) ++ a) ((0 : BitVec 4) ++ b)).extractLsb' 20 3) ((encC 0x0D 2 p g n ((0 : BitVec 4) ++ a) ((0 : BitVec 4) ++ b)).extractLsb' 19 1) ((encC 0x0D 2 p g n ((0 : BitVec 4) ++ a) ((0 : BitVec 4) ++ b)).extractLsb' 12 3) ((encC 0x0D 2 p g n ((0 : BitVec 4) ++ a) ((0 : BitVec 4) ++ b)).extractLsb' 5 3)) = _
  rw [extractLsb'_narrow _ 12 7 3 (by omega), extractLsb'_narrow _ 5 7 3 (by omega)]
  simp only [encC_23, encC_20, encC_19, encC_12, encC_5]
  repeat rw [extractLsb'_append_low _ _ 0 3 (by omega), extractLsb'_whole]

theorem Encoding.pandn (p : BitVec 3) (g : BitVec 3) (n : BitVec 1) (a : BitVec 3) (b : BitVec 3) : Encoding.Statement (.pandn p g n a b) := by
  intro _; refine (pick_encC 0x0D 3 p g n ((0 : BitVec 4) ++ a) ((0 : BitVec 4) ++ b)).trans ?_; show some (Instr.pandn ((encC 0x0D 3 p g n ((0 : BitVec 4) ++ a) ((0 : BitVec 4) ++ b)).extractLsb' 23 3) ((encC 0x0D 3 p g n ((0 : BitVec 4) ++ a) ((0 : BitVec 4) ++ b)).extractLsb' 20 3) ((encC 0x0D 3 p g n ((0 : BitVec 4) ++ a) ((0 : BitVec 4) ++ b)).extractLsb' 19 1) ((encC 0x0D 3 p g n ((0 : BitVec 4) ++ a) ((0 : BitVec 4) ++ b)).extractLsb' 12 3) ((encC 0x0D 3 p g n ((0 : BitVec 4) ++ a) ((0 : BitVec 4) ++ b)).extractLsb' 5 3)) = _
  rw [extractLsb'_narrow _ 12 7 3 (by omega), extractLsb'_narrow _ 5 7 3 (by omega)]
  simp only [encC_23, encC_20, encC_19, encC_12, encC_5]
  repeat rw [extractLsb'_append_low _ _ 0 3 (by omega), extractLsb'_whole]

theorem Encoding.pmov (p : BitVec 3) (g : BitVec 3) (n : BitVec 1) (a : BitVec 3) : Encoding.Statement (.pmov p g n a) := by
  intro _; refine (pick_encC 0x0D 4 p g n ((0 : BitVec 4) ++ a) 0).trans ?_; show some (Instr.pmov ((encC 0x0D 4 p g n ((0 : BitVec 4) ++ a) 0).extractLsb' 23 3) ((encC 0x0D 4 p g n ((0 : BitVec 4) ++ a) 0).extractLsb' 20 3) ((encC 0x0D 4 p g n ((0 : BitVec 4) ++ a) 0).extractLsb' 19 1) ((encC 0x0D 4 p g n ((0 : BitVec 4) ++ a) 0).extractLsb' 12 3)) = _
  rw [extractLsb'_narrow _ 12 7 3 (by omega)]
  simp only [encC_23, encC_20, encC_19, encC_12]
  repeat rw [extractLsb'_append_low _ _ 0 3 (by omega), extractLsb'_whole]

theorem Encoding.pnot (p : BitVec 3) (g : BitVec 3) (n : BitVec 1) (a : BitVec 3) : Encoding.Statement (.pnot p g n a) := by
  intro _; refine (pick_encC 0x0D 5 p g n ((0 : BitVec 4) ++ a) 0).trans ?_; show some (Instr.pnot ((encC 0x0D 5 p g n ((0 : BitVec 4) ++ a) 0).extractLsb' 23 3) ((encC 0x0D 5 p g n ((0 : BitVec 4) ++ a) 0).extractLsb' 20 3) ((encC 0x0D 5 p g n ((0 : BitVec 4) ++ a) 0).extractLsb' 19 1) ((encC 0x0D 5 p g n ((0 : BitVec 4) ++ a) 0).extractLsb' 12 3)) = _
  rw [extractLsb'_narrow _ 12 7 3 (by omega)]
  simp only [encC_23, encC_20, encC_19, encC_12]
  repeat rw [extractLsb'_append_low _ _ 0 3 (by omega), extractLsb'_whole]

theorem Encoding.pset (p : BitVec 3) (g : BitVec 3) (n : BitVec 1) (v : BitVec 1) : Encoding.Statement (.pset p g n v) := by
  intro _; refine (pick_encC 0x0D 6 p g n ((0 : BitVec 6) ++ v) 0).trans ?_; show some (Instr.pset ((encC 0x0D 6 p g n ((0 : BitVec 6) ++ v) 0).extractLsb' 23 3) ((encC 0x0D 6 p g n ((0 : BitVec 6) ++ v) 0).extractLsb' 20 3) ((encC 0x0D 6 p g n ((0 : BitVec 6) ++ v) 0).extractLsb' 19 1) ((encC 0x0D 6 p g n ((0 : BitVec 6) ++ v) 0).extractLsb' 12 1)) = _
  rw [extractLsb'_narrow _ 12 7 1 (by omega)]
  simp only [encC_23, encC_20, encC_19, encC_12]
  repeat rw [extractLsb'_append_low _ _ 0 1 (by omega), extractLsb'_whole]

theorem Encoding.bp (n : BitVec 1) (p : BitVec 3) (o : BitVec 22) : Encoding.Statement (.bp n p o) := by
  intro _; refine (pick_encP 0x0E n p o).trans ?_; show some (Instr.bp ((encP 0x0E n p o).extractLsb' 25 1) ((encP 0x0E n p o).extractLsb' 22 3) ((encP 0x0E n p o).extractLsb' 0 22)) = _; rw [encP_25, encP_22, encP_0]

theorem Encoding.br (o : BitVec 26) : Encoding.Statement (.br o) := by
  intro _; refine (pick_encJ 0x0F o).trans ?_; show some (Instr.br ((encJ 0x0F o).extractLsb' 0 26)) = _; rw [encJ_0]

theorem Encoding.bl (o : BitVec 26) : Encoding.Statement (.bl o) := by
  intro _; refine (pick_encJ 0x10 o).trans ?_; show some (Instr.bl ((encJ 0x10 o).extractLsb' 0 26)) = _; rw [encJ_0]

theorem Encoding.jr (a : Name) : Encoding.Statement (.jr a) := fun _ => pick_encA 0x11 0 0 a 0

theorem Encoding.jlr (d : Name) (a : Name) : Encoding.Statement (.jlr d a) := fun _ => pick_encA 0x11 1 d a 0

theorem Encoding.pskip (n : BitVec 1) (p : BitVec 3) (c : BitVec 4) : Encoding.Statement (.pskip n p c) := by
  intro _; refine (pick_encP 0x3B n p ((0 : BitVec 18) ++ c)).trans ?_; show some (Instr.pskip ((encP 0x3B n p ((0 : BitVec 18) ++ c)).extractLsb' 25 1) ((encP 0x3B n p ((0 : BitVec 18) ++ c)).extractLsb' 22 3) ((encP 0x3B n p ((0 : BitVec 18) ++ c)).extractLsb' 0 4)) = _
  rw [extractLsb'_narrow _ 0 22 4 (by omega)]
  simp only [encP_25, encP_22, encP_0]
  repeat rw [extractLsb'_append_low _ _ 0 4 (by omega), extractLsb'_whole]

theorem Encoding.ldB (d : Name) (a : Name) (i : BitVec 12) : Encoding.Statement (.ldB d a i) := by
  intro _; refine (pick_encI 0x12 d a i).trans ?_; show some (Instr.ldB _ _ ((encI 0x12 d a i).extractLsb' 0 12)) = _; rw [encI_0]

theorem Encoding.ldBu (d : Name) (a : Name) (i : BitVec 12) : Encoding.Statement (.ldBu d a i) := by
  intro _; refine (pick_encI 0x13 d a i).trans ?_; show some (Instr.ldBu _ _ ((encI 0x13 d a i).extractLsb' 0 12)) = _; rw [encI_0]

theorem Encoding.ldH (d : Name) (a : Name) (i : BitVec 12) : Encoding.Statement (.ldH d a i) := by
  intro _; refine (pick_encI 0x14 d a i).trans ?_; show some (Instr.ldH _ _ ((encI 0x14 d a i).extractLsb' 0 12)) = _; rw [encI_0]

theorem Encoding.ldHu (d : Name) (a : Name) (i : BitVec 12) : Encoding.Statement (.ldHu d a i) := by
  intro _; refine (pick_encI 0x15 d a i).trans ?_; show some (Instr.ldHu _ _ ((encI 0x15 d a i).extractLsb' 0 12)) = _; rw [encI_0]

theorem Encoding.ldW (d : Name) (a : Name) (i : BitVec 12) : Encoding.Statement (.ldW d a i) := by
  intro _; refine (pick_encI 0x16 d a i).trans ?_; show some (Instr.ldW _ _ ((encI 0x16 d a i).extractLsb' 0 12)) = _; rw [encI_0]

theorem Encoding.ldWu (d : Name) (a : Name) (i : BitVec 12) : Encoding.Statement (.ldWu d a i) := by
  intro _; refine (pick_encI 0x17 d a i).trans ?_; show some (Instr.ldWu _ _ ((encI 0x17 d a i).extractLsb' 0 12)) = _; rw [encI_0]

theorem Encoding.ldD (d : Name) (a : Name) (i : BitVec 12) : Encoding.Statement (.ldD d a i) := by
  intro _; refine (pick_encI 0x18 d a i).trans ?_; show some (Instr.ldD _ _ ((encI 0x18 d a i).extractLsb' 0 12)) = _; rw [encI_0]

theorem Encoding.stB (i : BitVec 12) (a : Name) (b : Name) : Encoding.Statement (.stB i a b) := fun _ =>
  (pick_encS 0x19 i a b).trans (congrArg (fun x => some (Instr.stB x a b)) (immS_encS 0x19 i a b))

theorem Encoding.stH (i : BitVec 12) (a : Name) (b : Name) : Encoding.Statement (.stH i a b) := fun _ =>
  (pick_encS 0x1A i a b).trans (congrArg (fun x => some (Instr.stH x a b)) (immS_encS 0x1A i a b))

theorem Encoding.stW (i : BitVec 12) (a : Name) (b : Name) : Encoding.Statement (.stW i a b) := fun _ =>
  (pick_encS 0x1B i a b).trans (congrArg (fun x => some (Instr.stW x a b)) (immS_encS 0x1B i a b))

theorem Encoding.stD (i : BitVec 12) (a : Name) (b : Name) : Encoding.Statement (.stD i a b) := fun _ =>
  (pick_encS 0x1C i a b).trans (congrArg (fun x => some (Instr.stD x a b)) (immS_encS 0x1C i a b))

theorem Encoding.ldV (d : Name) (a : Name) : Encoding.Statement (.ldV d a) := fun _ => pick_encA 0x1D 0 d a 0

theorem Encoding.stV (a : Name) (b : Name) : Encoding.Statement (.stV a b) := fun _ => pick_encA 0x1D 1 0 a b

theorem Encoding.ldFe (d : Name) (a : Name) : Encoding.Statement (.ldFe d a) := fun _ => pick_encA 0x1D 2 d a 0

theorem Encoding.ldFx (d : Name) (a : Name) : Encoding.Statement (.ldFx d a) := fun _ => pick_encA 0x1D 3 d a 0

theorem Encoding.stEf (a : Name) (b : Name) : Encoding.Statement (.stEf a b) := fun _ => pick_encA 0x1D 4 0 a b

theorem Encoding.stFs (a : Name) (b : Name) : Encoding.Statement (.stFs a b) := fun _ => pick_encA 0x1D 5 0 a b

theorem Encoding.stFc (a : Name) (b : Name) : Encoding.Statement (.stFc a b) := fun _ => pick_encA 0x1D 6 0 a b

theorem Encoding.stN (h : BitVec 1) (a : Name) (b : Name) : Encoding.Statement (.stN h a b) := by
  intro _; refine (pick_encA 0x1D 7 ((0 : BitVec 6) ++ h) a b).trans ?_; show some (Instr.stN ((encA 0x1D 7 ((0 : BitVec 6) ++ h) a b).extractLsb' 19 1) _ _) = _
  rw [extractLsb'_narrow _ 19 7 1 (by omega)]
  simp only [encA_19]
  repeat rw [extractLsb'_append_low _ _ 0 1 (by omega), extractLsb'_whole]

theorem Encoding.ldN (d : Name) (a : Name) (h : BitVec 1) : Encoding.Statement (.ldN d a h) := by
  intro _; refine (pick_encA 0x1D 8 d a ((0 : BitVec 6) ++ h)).trans ?_; show some (Instr.ldN _ _ ((encA 0x1D 8 d a ((0 : BitVec 6) ++ h)).extractLsb' 5 1)) = _
  rw [extractLsb'_narrow _ 5 7 1 (by omega)]
  simp only [encA_5]
  repeat rw [extractLsb'_append_low _ _ 0 1 (by omega), extractLsb'_whole]

theorem Encoding.watch (a : Name) : Encoding.Statement (.watch a) := fun _ => pick_encA 0x1D 9 0 a 0

theorem Encoding.unwatch (a : Name) : Encoding.Statement (.unwatch a) := fun _ => pick_encA 0x1D 10 0 a 0

theorem Encoding.vGather (d : Name) (a : Name) (b : Name) : Encoding.Statement (.vGather d a b) := fun _ => pick_encA 0x1D 12 d a b

theorem Encoding.vScatter (d : Name) (a : Name) (b : Name) : Encoding.Statement (.vScatter d a b) := fun _ => pick_encA 0x1D 13 d a b

theorem Encoding.amoAdd (d : Name) (a : Name) (b : Name) : Encoding.Statement (.amoAdd d a b) := fun _ => pick_encA 0x1E 0 d a b

theorem Encoding.amoAnd (d : Name) (a : Name) (b : Name) : Encoding.Statement (.amoAnd d a b) := fun _ => pick_encA 0x1E 1 d a b

theorem Encoding.amoOr (d : Name) (a : Name) (b : Name) : Encoding.Statement (.amoOr d a b) := fun _ => pick_encA 0x1E 2 d a b

theorem Encoding.amoXor (d : Name) (a : Name) (b : Name) : Encoding.Statement (.amoXor d a b) := fun _ => pick_encA 0x1E 3 d a b

theorem Encoding.amoMin (d : Name) (a : Name) (b : Name) : Encoding.Statement (.amoMin d a b) := fun _ => pick_encA 0x1E 4 d a b

theorem Encoding.amoMax (d : Name) (a : Name) (b : Name) : Encoding.Statement (.amoMax d a b) := fun _ => pick_encA 0x1E 5 d a b

theorem Encoding.amoXchg (d : Name) (a : Name) (b : Name) : Encoding.Statement (.amoXchg d a b) := fun _ => pick_encA 0x1E 6 d a b

theorem Encoding.amoCas (d : Name) (a : Name) (b : Name) : Encoding.Statement (.amoCas d a b) := fun _ => pick_encA 0x1E 7 d a b

theorem Encoding.redAdd (a : Name) (b : Name) : Encoding.Statement (.redAdd a b) := fun _ => pick_encA 0x1E 8 0 a b

theorem Encoding.redOr (a : Name) (b : Name) : Encoding.Statement (.redOr a b) := fun _ => pick_encA 0x1E 9 0 a b

theorem Encoding.redMax (a : Name) (b : Name) : Encoding.Statement (.redMax a b) := fun _ => pick_encA 0x1E 10 0 a b

theorem Encoding.redEw (d : Name) (a : Name) (b : Name) : Encoding.Statement (.redEw d a b) := fun _ => pick_encA 0x1E 11 d a b

theorem Encoding.fence (s : BitVec 3) : Encoding.Statement (.fence s) := by
  intro _; refine (pick_encA 0x1F 0 ((0 : BitVec 4) ++ s) 0 0).trans ?_; show some (Instr.fence ((encA 0x1F 0 ((0 : BitVec 4) ++ s) 0 0).extractLsb' 19 3)) = _
  rw [extractLsb'_narrow _ 19 7 3 (by omega)]
  simp only [encA_19]
  repeat rw [extractLsb'_append_low _ _ 0 3 (by omega), extractLsb'_whole]

theorem Encoding.acq (s : BitVec 3) : Encoding.Statement (.acq s) := by
  intro _; refine (pick_encA 0x1F 1 ((0 : BitVec 4) ++ s) 0 0).trans ?_; show some (Instr.acq ((encA 0x1F 1 ((0 : BitVec 4) ++ s) 0 0).extractLsb' 19 3)) = _
  rw [extractLsb'_narrow _ 19 7 3 (by omega)]
  simp only [encA_19]
  repeat rw [extractLsb'_append_low _ _ 0 3 (by omega), extractLsb'_whole]

theorem Encoding.rel (s : BitVec 3) : Encoding.Statement (.rel s) := by
  intro _; refine (pick_encA 0x1F 2 ((0 : BitVec 4) ++ s) 0 0).trans ?_; show some (Instr.rel ((encA 0x1F 2 ((0 : BitVec 4) ++ s) 0 0).extractLsb' 19 3)) = _
  rw [extractLsb'_narrow _ 19 7 3 (by omega)]
  simp only [encA_19]
  repeat rw [extractLsb'_append_low _ _ 0 3 (by omega), extractLsb'_whole]

theorem Encoding.publish (a : Name) : Encoding.Statement (.publish a) := fun _ => pick_encA 0x1F 4 0 a 0

theorem Encoding.mig (a : Name) (n : BitVec 8) : Encoding.Statement (.mig a n) := by
  intro _; refine (pick_encA 0x1F 6 ((0 : BitVec 6) ++ n.extractLsb' 7 1) a (n.extractLsb' 0 7)).trans ?_
  show some (Instr.mig _ ((encA 0x1F 6 ((0 : BitVec 6) ++ n.extractLsb' 7 1) a (n.extractLsb' 0 7)).extractLsb' 19 1 ++
    n.extractLsb' 0 7)) = _
  rw [extractLsb'_narrow _ 19 7 1 (by omega), encA_19, extractLsb'_append_low _ _ 0 1 (by omega), extractLsb'_whole]
  rw [append_extractLsb' 1 7 n]

theorem Encoding.wait (l : BitVec 4) (s : BitVec 4) (c : BitVec 4) (t : BitVec 4) : Encoding.Statement (.wait l s c t) := by
  intro _; refine (pick_encW 0x20 l s c t).trans ?_; show some (Instr.wait ((encW 0x20 l s c t).extractLsb' 22 4) ((encW 0x20 l s c t).extractLsb' 18 4) ((encW 0x20 l s c t).extractLsb' 14 4) ((encW 0x20 l s c t).extractLsb' 10 4)) = _; rw [encW_22, encW_18, encW_14, encW_10]

theorem Encoding.barInit (d : Name) (a : Name) (b : Name) : Encoding.Statement (.barInit d a b) := fun _ => pick_encA 0x21 0 d a b

theorem Encoding.barJoin (a : Name) : Encoding.Statement (.barJoin a) := fun _ => pick_encA 0x21 1 0 a 0

theorem Encoding.barArrive (d : Name) (a : Name) : Encoding.Statement (.barArrive d a) := fun _ => pick_encA 0x21 2 d a 0

theorem Encoding.barDrop (d : Name) (a : Name) : Encoding.Statement (.barDrop d a) := fun _ => pick_encA 0x21 3 d a 0

theorem Encoding.barExpect (a : Name) (b : Name) : Encoding.Statement (.barExpect a b) := fun _ => pick_encA 0x21 4 0 a b

theorem Encoding.barWait (a : Name) (b : Name) : Encoding.Statement (.barWait a b) := fun _ => pick_encA 0x21 5 0 a b

theorem Encoding.barTest (d : Name) (a : Name) (b : Name) : Encoding.Statement (.barTest d a b) := fun _ => pick_encA 0x21 6 d a b

theorem Encoding.barTwait (d : Name) (a : Name) (b : Name) : Encoding.Statement (.barTwait d a b) := fun _ => pick_encA 0x21 7 d a b

theorem Encoding.barInval (a : Name) : Encoding.Statement (.barInval a) := fun _ => pick_encA 0x21 8 0 a 0

theorem Encoding.smsg (a : Name) (b : Name) : Encoding.Statement (.smsg a b) := fun _ => pick_encA 0x22 0 0 a b

theorem Encoding.rmsg (d : Name) : Encoding.Statement (.rmsg d) := fun _ => pick_encA 0x22 1 d 0 0

theorem Encoding.wmsg (d : Name) : Encoding.Statement (.wmsg d) := fun _ => pick_encA 0x22 2 d 0 0

theorem Encoding.mq (d : Name) : Encoding.Statement (.mq d) := fun _ => pick_encA 0x22 3 d 0 0

theorem Encoding.spawn (a : Name) : Encoding.Statement (.spawn a) := fun _ => pick_encA 0x23 0 0 a 0

theorem Encoding.spawnh (a : Name) : Encoding.Statement (.spawnh a) := fun _ => pick_encA 0x23 1 0 a 0

theorem Encoding.cntInit (a : Name) (b : Name) : Encoding.Statement (.cntInit a b) := fun _ => pick_encA 0x23 3 0 a b

theorem Encoding.cntAdd (a : Name) (b : Name) : Encoding.Statement (.cntAdd a b) := fun _ => pick_encA 0x23 4 0 a b

theorem Encoding.mfs (d : Name) (i : BitVec 12) : Encoding.Statement (.mfs d i) := by
  intro _; refine (pick_encI 0x24 d 0 i).trans ?_; show some (Instr.mfs _ ((encI 0x24 d 0 i).extractLsb' 0 12)) = _; rw [encI_0]

theorem Encoding.mts (a : Name) (i : BitVec 12) : Encoding.Statement (.mts a i) := by
  intro _; refine (pick_encI 0x25 0 a i).trans ?_; show some (Instr.mts _ ((encI 0x25 0 a i).extractLsb' 0 12)) = _; rw [encI_0]

theorem Encoding.rdx (d : Name) (a : Name) (i : BitVec 12) : Encoding.Statement (.rdx d a i) := by
  intro _; refine (pick_encI 0x26 d a i).trans ?_; show some (Instr.rdx _ _ ((encI 0x26 d a i).extractLsb' 0 12)) = _; rw [encI_0]

theorem Encoding.wrx (i : BitVec 12) (a : Name) (b : Name) : Encoding.Statement (.wrx i a b) := fun _ =>
  (pick_encS 0x27 i a b).trans (congrArg (fun x => some (Instr.wrx x a b)) (immS_encS 0x27 i a b))

theorem Encoding.fAdd (d : Name) (a : Name) (b : Name) : Encoding.Statement (.fAdd d a b) := fun _ => pick_encA 0x28 0 d a b

theorem Encoding.fSub (d : Name) (a : Name) (b : Name) : Encoding.Statement (.fSub d a b) := fun _ => pick_encA 0x28 1 d a b

theorem Encoding.fMul (d : Name) (a : Name) (b : Name) : Encoding.Statement (.fMul d a b) := fun _ => pick_encA 0x28 2 d a b

theorem Encoding.fDiv (d : Name) (a : Name) (b : Name) : Encoding.Statement (.fDiv d a b) := fun _ => pick_encA 0x28 3 d a b

theorem Encoding.fSqrt (d : Name) (a : Name) : Encoding.Statement (.fSqrt d a) := fun _ => pick_encA 0x28 4 d a 0

theorem Encoding.fMin (d : Name) (a : Name) (b : Name) : Encoding.Statement (.fMin d a b) := fun _ => pick_encA 0x28 5 d a b

theorem Encoding.fMax (d : Name) (a : Name) (b : Name) : Encoding.Statement (.fMax d a b) := fun _ => pick_encA 0x28 6 d a b

theorem Encoding.fFma (d : Name) (a : Name) (b : Name) : Encoding.Statement (.fFma d a b) := fun _ => pick_encA 0x28 7 d a b

theorem Encoding.fAbs (d : Name) (a : Name) : Encoding.Statement (.fAbs d a) := fun _ => pick_encA 0x28 8 d a 0

theorem Encoding.fNeg (d : Name) (a : Name) : Encoding.Statement (.fNeg d a) := fun _ => pick_encA 0x28 9 d a 0

theorem Encoding.fCvtFi (d : Name) (a : Name) : Encoding.Statement (.fCvtFi d a) := fun _ => pick_encA 0x28 10 d a 0

theorem Encoding.fCvtIf (d : Name) (a : Name) : Encoding.Statement (.fCvtIf d a) := fun _ => pick_encA 0x28 11 d a 0

theorem Encoding.fCvtIft (d : Name) (a : Name) : Encoding.Statement (.fCvtIft d a) := fun _ => pick_encA 0x28 12 d a 0

theorem Encoding.fCvtBf (d : Name) (a : Name) : Encoding.Statement (.fCvtBf d a) := fun _ => pick_encA 0x28 13 d a 0

theorem Encoding.fCvtFb (d : Name) (a : Name) : Encoding.Statement (.fCvtFb d a) := fun _ => pick_encA 0x28 14 d a 0

theorem Encoding.fCvt8f (d : Name) (a : Name) : Encoding.Statement (.fCvt8f d a) := fun _ => pick_encA 0x28 15 d a 0

theorem Encoding.fCvtF8 (d : Name) (a : Name) : Encoding.Statement (.fCvtF8 d a) := fun _ => pick_encA 0x28 16 d a 0

theorem Encoding.fClass (d : Name) (a : Name) : Encoding.Statement (.fClass d a) := fun _ => pick_encA 0x28 17 d a 0

theorem Encoding.vfAdd (d : Name) (a : Name) (b : Name) : Encoding.Statement (.vfAdd d a b) := fun _ => pick_encA 0x29 0 d a b

theorem Encoding.vfSub (d : Name) (a : Name) (b : Name) : Encoding.Statement (.vfSub d a b) := fun _ => pick_encA 0x29 1 d a b

theorem Encoding.vfMul (d : Name) (a : Name) (b : Name) : Encoding.Statement (.vfMul d a b) := fun _ => pick_encA 0x29 2 d a b

theorem Encoding.vfDiv (d : Name) (a : Name) (b : Name) : Encoding.Statement (.vfDiv d a b) := fun _ => pick_encA 0x29 3 d a b

theorem Encoding.vfSqrt (d : Name) (a : Name) : Encoding.Statement (.vfSqrt d a) := fun _ => pick_encA 0x29 4 d a 0

theorem Encoding.vfFma (d : Name) (a : Name) (b : Name) : Encoding.Statement (.vfFma d a b) := fun _ => pick_encA 0x29 5 d a b

theorem Encoding.vfNeg (d : Name) (a : Name) : Encoding.Statement (.vfNeg d a) := fun _ => pick_encA 0x29 6 d a 0

theorem Encoding.vfAbs (d : Name) (a : Name) : Encoding.Statement (.vfAbs d a) := fun _ => pick_encA 0x29 7 d a 0

theorem Encoding.vfRnd (d : Name) (a : Name) : Encoding.Statement (.vfRnd d a) := fun _ => pick_encA 0x29 8 d a 0

theorem Encoding.vfFromF (d : Name) (a : Name) : Encoding.Statement (.vfFromF d a) := fun _ => pick_encA 0x29 9 d a 0

theorem Encoding.vfFromI (d : Name) (a : Name) : Encoding.Statement (.vfFromI d a) := fun _ => pick_encA 0x29 10 d a 0

theorem Encoding.vfToF (d : Name) (a : Name) : Encoding.Statement (.vfToF d a) := fun _ => pick_encA 0x29 11 d a 0

theorem Encoding.vfToI (d : Name) (a : Name) : Encoding.Statement (.vfToI d a) := fun _ => pick_encA 0x29 12 d a 0

theorem Encoding.vfMov (d : Name) (a : Name) : Encoding.Statement (.vfMov d a) := fun _ => pick_encA 0x29 13 d a 0

theorem Encoding.vfLd (d : Name) (a : Name) (i : BitVec 12) : Encoding.Statement (.vfLd d a i) := by
  intro _; refine (pick_encI 0x2A d a i).trans ?_; show some (Instr.vfLd _ _ ((encI 0x2A d a i).extractLsb' 0 12)) = _; rw [encI_0]

theorem Encoding.vfSt (i : BitVec 12) (a : Name) (b : Name) : Encoding.Statement (.vfSt i a b) := fun _ =>
  (pick_encS 0x2B i a b).trans (congrArg (fun x => some (Instr.vfSt x a b)) (immS_encS 0x2B i a b))

theorem Encoding.vAddI32 (d : Name) (a : Name) (b : Name) : Encoding.Statement (.vAddI32 d a b) := fun _ => pick_encA 0x2C 0 d a b

theorem Encoding.vSubI32 (d : Name) (a : Name) (b : Name) : Encoding.Statement (.vSubI32 d a b) := fun _ => pick_encA 0x2C 1 d a b

theorem Encoding.vMulI32 (d : Name) (a : Name) (b : Name) : Encoding.Statement (.vMulI32 d a b) := fun _ => pick_encA 0x2C 2 d a b

theorem Encoding.vMinI32 (d : Name) (a : Name) (b : Name) : Encoding.Statement (.vMinI32 d a b) := fun _ => pick_encA 0x2C 3 d a b

theorem Encoding.vMaxI32 (d : Name) (a : Name) (b : Name) : Encoding.Statement (.vMaxI32 d a b) := fun _ => pick_encA 0x2C 4 d a b

theorem Encoding.vAnd (d : Name) (a : Name) (b : Name) : Encoding.Statement (.vAnd d a b) := fun _ => pick_encA 0x2C 5 d a b

theorem Encoding.vOr (d : Name) (a : Name) (b : Name) : Encoding.Statement (.vOr d a b) := fun _ => pick_encA 0x2C 6 d a b

theorem Encoding.vXor (d : Name) (a : Name) (b : Name) : Encoding.Statement (.vXor d a b) := fun _ => pick_encA 0x2C 7 d a b

theorem Encoding.vShl (d : Name) (a : Name) (b : Name) : Encoding.Statement (.vShl d a b) := fun _ => pick_encA 0x2C 8 d a b

theorem Encoding.vShr (d : Name) (a : Name) (b : Name) : Encoding.Statement (.vShr d a b) := fun _ => pick_encA 0x2C 9 d a b

theorem Encoding.vSra (d : Name) (a : Name) (b : Name) : Encoding.Statement (.vSra d a b) := fun _ => pick_encA 0x2C 10 d a b

theorem Encoding.vDot8 (d : Name) (a : Name) (b : Name) : Encoding.Statement (.vDot8 d a b) := fun _ => pick_encA 0x2C 11 d a b

theorem Encoding.vSumI32 (d : Name) (a : Name) : Encoding.Statement (.vSumI32 d a) := fun _ => pick_encA 0x2C 12 d a 0

theorem Encoding.vBcast (d : Name) (a : Name) : Encoding.Statement (.vBcast d a) := fun _ => pick_encA 0x2C 13 d a 0

theorem Encoding.vPerm (d : Name) (a : Name) (b : Name) : Encoding.Statement (.vPerm d a b) := fun _ => pick_encA 0x2C 14 d a b

theorem Encoding.vSel (d : Name) (a : Name) (b : Name) : Encoding.Statement (.vSel d a b) := fun _ => pick_encA 0x2C 15 d a b

theorem Encoding.vCmpeqI32 (d : Name) (a : Name) (b : Name) : Encoding.Statement (.vCmpeqI32 d a b) := fun _ => pick_encA 0x2C 16 d a b

theorem Encoding.vCmpltI32 (d : Name) (a : Name) (b : Name) : Encoding.Statement (.vCmpltI32 d a b) := fun _ => pick_encA 0x2C 17 d a b

theorem Encoding.vExt (d : Name) (a : Name) (b : Name) : Encoding.Statement (.vExt d a b) := fun _ => pick_encA 0x2C 18 d a b

theorem Encoding.vIns (d : Name) (a : Name) (b : Name) : Encoding.Statement (.vIns d a b) := fun _ => pick_encA 0x2C 19 d a b

theorem Encoding.vAddF32 (d : Name) (a : Name) (b : Name) : Encoding.Statement (.vAddF32 d a b) := fun _ => pick_encA 0x2D 0 d a b

theorem Encoding.vSubF32 (d : Name) (a : Name) (b : Name) : Encoding.Statement (.vSubF32 d a b) := fun _ => pick_encA 0x2D 1 d a b

theorem Encoding.vMulF32 (d : Name) (a : Name) (b : Name) : Encoding.Statement (.vMulF32 d a b) := fun _ => pick_encA 0x2D 2 d a b

theorem Encoding.vFmaF32 (d : Name) (a : Name) (b : Name) : Encoding.Statement (.vFmaF32 d a b) := fun _ => pick_encA 0x2D 3 d a b

theorem Encoding.vMinF32 (d : Name) (a : Name) (b : Name) : Encoding.Statement (.vMinF32 d a b) := fun _ => pick_encA 0x2D 4 d a b

theorem Encoding.vMaxF32 (d : Name) (a : Name) (b : Name) : Encoding.Statement (.vMaxF32 d a b) := fun _ => pick_encA 0x2D 5 d a b

theorem Encoding.vSumF32 (d : Name) (a : Name) : Encoding.Statement (.vSumF32 d a) := fun _ => pick_encA 0x2D 6 d a 0

theorem Encoding.vRcpF32 (d : Name) (a : Name) : Encoding.Statement (.vRcpF32 d a) := fun _ => pick_encA 0x2D 7 d a 0

theorem Encoding.vCvtFi (d : Name) (a : Name) : Encoding.Statement (.vCvtFi d a) := fun _ => pick_encA 0x2D 8 d a 0

theorem Encoding.vCvtIf (d : Name) (a : Name) : Encoding.Statement (.vCvtIf d a) := fun _ => pick_encA 0x2D 9 d a 0

theorem Encoding.vCvtBf (d : Name) (a : Name) : Encoding.Statement (.vCvtBf d a) := fun _ => pick_encA 0x2D 10 d a 0

theorem Encoding.vCvtFb (d : Name) (a : Name) : Encoding.Statement (.vCvtFb d a) := fun _ => pick_encA 0x2D 11 d a 0

theorem Encoding.vCmpltF32 (d : Name) (a : Name) (b : Name) : Encoding.Statement (.vCmpltF32 d a b) := fun _ => pick_encA 0x2D 12 d a b

theorem Encoding.vMax0 (d : Name) (a : Name) : Encoding.Statement (.vMax0 d a) := fun _ => pick_encA 0x2D 13 d a 0

theorem Encoding.vLi (d : Name) (i : BitVec 19) : Encoding.Statement (.vLi d i) := by
  intro _; refine (pick_encU 0x2E d i).trans ?_; show some (Instr.vLi _ ((encU 0x2E d i).extractLsb' 0 19)) = _; rw [encU_0]

theorem Encoding.mmaI8 (t : Name) (a : Name) (b : Name) (m : BitVec 2) (c : BitVec 1) (x : BitVec 1) : Encoding.Statement (.mmaI8 t a b m c x) := by
  intro _; refine (pick_encM 0x30 t a b m c x).trans ?_; show some (Instr.mmaI8 _ _ _ ((encM 0x30 t a b m c x).extractLsb' 3 2) ((encM 0x30 t a b m c x).extractLsb' 2 1) ((encM 0x30 t a b m c x).extractLsb' 1 1)) = _; rw [encM_3, encM_2, encM_1]

theorem Encoding.mmaF8 (t : Name) (a : Name) (b : Name) (m : BitVec 2) (c : BitVec 1) (x : BitVec 1) : Encoding.Statement (.mmaF8 t a b m c x) := by
  intro _; refine (pick_encM 0x31 t a b m c x).trans ?_; show some (Instr.mmaF8 _ _ _ ((encM 0x31 t a b m c x).extractLsb' 3 2) ((encM 0x31 t a b m c x).extractLsb' 2 1) ((encM 0x31 t a b m c x).extractLsb' 1 1)) = _; rw [encM_3, encM_2, encM_1]

theorem Encoding.mmaB16 (t : Name) (a : Name) (b : Name) (m : BitVec 2) (c : BitVec 1) (x : BitVec 1) : Encoding.Statement (.mmaB16 t a b m c x) := by
  intro _; refine (pick_encM 0x32 t a b m c x).trans ?_; show some (Instr.mmaB16 _ _ _ ((encM 0x32 t a b m c x).extractLsb' 3 2) ((encM 0x32 t a b m c x).extractLsb' 2 1) ((encM 0x32 t a b m c x).extractLsb' 1 1)) = _; rw [encM_3, encM_2, encM_1]

theorem Encoding.mmaQ4 (t : Name) (a : Name) (b : Name) (m : BitVec 2) (c : BitVec 1) (x : BitVec 1) : Encoding.Statement (.mmaQ4 t a b m c x) := by
  intro _; refine (pick_encM 0x33 t a b m c x).trans ?_; show some (Instr.mmaQ4 _ _ _ ((encM 0x33 t a b m c x).extractLsb' 3 2) ((encM 0x33 t a b m c x).extractLsb' 2 1) ((encM 0x33 t a b m c x).extractLsb' 1 1)) = _; rw [encM_3, encM_2, encM_1]

theorem Encoding.accClr (d : Name) : Encoding.Statement (.accClr d) := fun _ => pick_encA 0x34 0 d 0 0

theorem Encoding.accRd (d : Name) (a : Name) (b : Name) : Encoding.Statement (.accRd d a b) := fun _ => pick_encA 0x34 1 d a b

theorem Encoding.accWr (d : Name) (a : Name) : Encoding.Statement (.accWr d a) := fun _ => pick_encA 0x34 2 d a 0

theorem Encoding.xprg (d : Name) (a : Name) : Encoding.Statement (.xprg d a) := fun _ => pick_encA 0x35 0 d a 0

theorem Encoding.xswp (d : Name) : Encoding.Statement (.xswp d) := fun _ => pick_encA 0x35 1 d 0 0

theorem Encoding.xmv (d : Name) (a : Name) (b : Name) : Encoding.Statement (.xmv d a b) := fun _ => pick_encA 0x35 2 d a b

theorem Encoding.xmvt (d : Name) (a : Name) (b : Name) : Encoding.Statement (.xmvt d a b) := fun _ => pick_encA 0x35 3 d a b

theorem Encoding.xcal (d : Name) (a : Name) (b : Name) : Encoding.Statement (.xcal d a b) := fun _ => pick_encA 0x35 4 d a b

theorem Encoding.xacc (d : Name) (a : Name) : Encoding.Statement (.xacc d a) := fun _ => pick_encA 0x35 5 d a 0

theorem Encoding.xstat (d : Name) : Encoding.Statement (.xstat d) := fun _ => pick_encA 0x35 6 d 0 0

theorem Encoding.jlk (d : Name) (a : Name) (b : Name) : Encoding.Statement (.jlk d a b) := fun _ => pick_encA 0x36 0 d a b

theorem Encoding.jgs (d : Name) (a : Name) (b : Name) : Encoding.Statement (.jgs d a b) := fun _ => pick_encA 0x36 1 d a b

theorem Encoding.jmul (d : Name) (a : Name) (b : Name) : Encoding.Statement (.jmul d a b) := fun _ => pick_encA 0x36 2 d a b

theorem Encoding.jexp (d : Name) (a : Name) : Encoding.Statement (.jexp d a) := fun _ => pick_encA 0x36 3 d a 0

theorem Encoding.jenum (d : Name) (a : Name) : Encoding.Statement (.jenum d a) := fun _ => pick_encA 0x36 4 d a 0

theorem Encoding.jdelta (d : Name) (a : Name) (b : Name) : Encoding.Statement (.jdelta d a b) := fun _ => pick_encA 0x36 5 d a b

theorem Encoding.cleave (d : Name) (a : Name) (b : Name) : Encoding.Statement (.cleave d a b) := fun _ => pick_encA 0x36 6 d a b

theorem Encoding.isect (d : Name) (a : Name) : Encoding.Statement (.isect d a) := fun _ => pick_encA 0x36 7 d a 0

theorem Encoding.jstat (d : Name) : Encoding.Statement (.jstat d) := fun _ => pick_encA 0x36 8 d 0 0

theorem Encoding.pct (d : Name) (a : Name) (b : Name) : Encoding.Statement (.pct d a b) := fun _ => pick_encA 0x37 0 d a b

theorem Encoding.prd (d : Name) (a : Name) (b : Name) : Encoding.Statement (.prd d a b) := fun _ => pick_encA 0x37 1 d a b

theorem Encoding.parm (a : Name) : Encoding.Statement (.parm a) := fun _ => pick_encA 0x37 2 0 a 0

theorem Encoding.povl (a : Name) : Encoding.Statement (.povl a) := fun _ => pick_encA 0x37 3 0 a 0

theorem Encoding.pstat (d : Name) (a : Name) : Encoding.Statement (.pstat d a) := fun _ => pick_encA 0x37 4 d a 0

theorem Encoding.cpQ (d : Name) (a : Name) : Encoding.Statement (.cpQ d a) := fun _ => pick_encA 0x38 0 d a 0

theorem Encoding.cpKill (a : Name) : Encoding.Statement (.cpKill a) := fun _ => pick_encA 0x38 1 0 a 0

theorem Encoding.trap (c : BitVec 14) : Encoding.Statement (.trap c) := by
  intro _; refine (pick_encA 0x39 0 0 (c.extractLsb' 7 7) (c.extractLsb' 0 7)).trans ?_; show some (Instr.trap ((encA 0x39 0 0 (c.extractLsb' 7 7) (c.extractLsb' 0 7)).extractLsb' 5 14)) = _; rw [extractLsb'_join _ 5 7 7, encA_12, encA_5]
  rw [append_extractLsb' 7 7 c]

theorem Encoding.brk (c : BitVec 14) : Encoding.Statement (.brk c) := by
  intro _; refine (pick_encA 0x39 2 0 (c.extractLsb' 7 7) (c.extractLsb' 0 7)).trans ?_; show some (Instr.brk ((encA 0x39 2 0 (c.extractLsb' 7 7) (c.extractLsb' 0 7)).extractLsb' 5 14)) = _; rw [extractLsb'_join _ 5 7 7, encA_12, encA_5]
  rw [append_extractLsb' 7 7 c]

theorem Encoding.tlbinv (a : Name) : Encoding.Statement (.tlbinv a) := fun _ => pick_encA 0x39 3 0 a 0

theorem Encoding.pstop (a : Name) : Encoding.Statement (.pstop a) := fun _ => pick_encA 0x39 7 0 a 0

theorem Encoding.waita : Encoding.Statement .waita := fun _ => pick_encA 0x1D 11 0 0 0

theorem Encoding.ifence : Encoding.Statement .ifence := fun _ => pick_encA 0x1F 3 0 0 0

theorem Encoding.yield : Encoding.Statement .yield := fun _ => pick_encA 0x1F 5 0 0 0

theorem Encoding.sync : Encoding.Statement .sync := fun _ => pick_encA 0x21 9 0 0 0

theorem Encoding.exit : Encoding.Statement .exit := fun _ => pick_encA 0x23 2 0 0 0

theorem Encoding.eret : Encoding.Statement .eret := fun _ => pick_encA 0x39 1 0 0 0

theorem Encoding.csave : Encoding.Statement .csave := fun _ => pick_encA 0x39 4 0 0 0

theorem Encoding.crest : Encoding.Statement .crest := fun _ => pick_encA 0x39 5 0 0 0

theorem Encoding.halt : Encoding.Statement .halt := fun _ => pick_encA 0x39 6 0 0 0

theorem Encoding.cgoLaunch : Encoding.Statement .cgoLaunch := nofun

theorem Encoding.xbndRead : Encoding.Statement .xbndRead := nofun

theorem Encoding.dumpStart : Encoding.Statement .dumpStart := nofun

theorem Encoding.dumpComplete : Encoding.Statement .dumpComplete := nofun

theorem Encoding.sample : Encoding.Statement .sample := nofun

theorem Encoding.taskBind : Encoding.Statement .taskBind := nofun

theorem Encoding.spawnEnqueue : Encoding.Statement .spawnEnqueue := nofun

theorem Encoding.stealRequest : Encoding.Statement .stealRequest := nofun

theorem Encoding.stealServe : Encoding.Statement .stealServe := nofun

theorem Encoding.stealReply : Encoding.Statement .stealReply := nofun

theorem Encoding.stealRetryTimeout : Encoding.Statement .stealRetryTimeout := nofun

theorem Encoding.hintedTaskHop : Encoding.Statement .hintedTaskHop := nofun

theorem Encoding.gangAdmit : Encoding.Statement .gangAdmit := nofun

theorem Encoding.gangReserve : Encoding.Statement .gangReserve := nofun

theorem Encoding.gangCoreReserve : Encoding.Statement .gangCoreReserve := nofun

theorem Encoding.gangBind : Encoding.Statement .gangBind := nofun

theorem Encoding.gangSyncRelease : Encoding.Statement .gangSyncRelease := nofun

theorem Encoding.migArrival : Encoding.Statement .migArrival := nofun

theorem Encoding.counterNodeOperation : Encoding.Statement .counterNodeOperation := nofun

theorem Encoding.continuationPlace : Encoding.Statement .continuationPlace := nofun

theorem Encoding.barrierOperationApply : Encoding.Statement .barrierOperationApply := nofun

theorem Encoding.barrierAnswer : Encoding.Statement .barrierAnswer := nofun

theorem Encoding.barrierRelease : Encoding.Statement .barrierRelease := nofun

theorem Encoding.barTwaitTimeout : Encoding.Statement .barTwaitTimeout := nofun

theorem Encoding.fullEmptyApply : Encoding.Statement .fullEmptyApply := nofun

theorem Encoding.loadComplete : Encoding.Statement .loadComplete := nofun

theorem Encoding.storeApply : Encoding.Statement .storeApply := nofun

theorem Encoding.atomicApply : Encoding.Statement .atomicApply := nofun

theorem Encoding.reductionApply : Encoding.Statement .reductionApply := nofun

theorem Encoding.pageWalk : Encoding.Statement .pageWalk := nofun

theorem Encoding.mailboxArrival : Encoding.Statement .mailboxArrival := nofun

theorem Encoding.hostMessageDeliver : Encoding.Statement .hostMessageDeliver := nofun

theorem Encoding.portWordArrival : Encoding.Statement .portWordArrival := nofun

theorem Encoding.copyComplete : Encoding.Statement .copyComplete := nofun

theorem Encoding.copyFault : Encoding.Statement .copyFault := nofun

theorem Encoding.mmaComplete : Encoding.Statement .mmaComplete := nofun

theorem Encoding.accClrComplete : Encoding.Statement .accClrComplete := nofun

theorem Encoding.accRdComplete : Encoding.Statement .accRdComplete := nofun

theorem Encoding.accWrComplete : Encoding.Statement .accWrComplete := nofun

theorem Encoding.xprgComplete : Encoding.Statement .xprgComplete := nofun

theorem Encoding.xswpApply : Encoding.Statement .xswpApply := nofun

theorem Encoding.xcalComplete : Encoding.Statement .xcalComplete := nofun

theorem Encoding.xmvProductComplete : Encoding.Statement .xmvProductComplete := nofun

theorem Encoding.jlkComplete : Encoding.Statement .jlkComplete := nofun

theorem Encoding.jgsComplete : Encoding.Statement .jgsComplete := nofun

theorem Encoding.jmulComplete : Encoding.Statement .jmulComplete := nofun

theorem Encoding.jexpComplete : Encoding.Statement .jexpComplete := nofun

theorem Encoding.jenumComplete : Encoding.Statement .jenumComplete := nofun

theorem Encoding.jdeltaComplete : Encoding.Statement .jdeltaComplete := nofun

theorem Encoding.cleaveComplete : Encoding.Statement .cleaveComplete := nofun

theorem Encoding.isectComplete : Encoding.Statement .isectComplete := nofun

theorem Encoding.jstatComplete : Encoding.Statement .jstatComplete := nofun

theorem Encoding.contributionArrival : Encoding.Statement .contributionArrival := nofun

theorem Encoding.prdComplete : Encoding.Statement .prdComplete := nofun

theorem Encoding.pstatComplete : Encoding.Statement .pstatComplete := nofun

theorem Encoding.parmApply : Encoding.Statement .parmApply := nofun

theorem Encoding.povlApply : Encoding.Statement .povlApply := nofun

theorem Encoding.masonUpdateStart : Encoding.Statement .masonUpdateStart := nofun

theorem Encoding.masonCycleLimit : Encoding.Statement .masonCycleLimit := nofun

theorem Encoding.hostMemoryWrite : Encoding.Statement .hostMemoryWrite := nofun

theorem Encoding.hostMemoryRead : Encoding.Statement .hostMemoryRead := nofun

theorem Encoding.partitionReset : Encoding.Statement .partitionReset := nofun

theorem Encoding.approxClear : Encoding.Statement .approxClear := nofun

theorem Encoding.partctlNvfWrite : Encoding.Statement .partctlNvfWrite := nofun

theorem Encoding.tenantKeyCreate : Encoding.Statement .tenantKeyCreate := nofun

theorem Encoding.packageReset : Encoding.Statement .packageReset := nofun

theorem Encoding.unrecoverableError : Encoding.Statement .unrecoverableError := nofun

theorem Encoding.hangTimeout : Encoding.Statement .hangTimeout := nofun

theorem Encoding.fabricLinkFailure : Encoding.Statement .fabricLinkFailure := nofun

theorem Encoding.lifecycleAdvance : Encoding.Statement .lifecycleAdvance := nofun

theorem Encoding.fuseProgram : Encoding.Statement .fuseProgram := nofun

theorem Encoding.fuseProgramDone : Encoding.Statement .fuseProgramDone := nofun

theorem Encoding.keyWipe : Encoding.Statement .keyWipe := nofun

theorem Encoding.keyWipeDone : Encoding.Statement .keyWipeDone := nofun

theorem Encoding.sealInstall : Encoding.Statement .sealInstall := nofun

theorem Encoding.sealRemove : Encoding.Statement .sealRemove := nofun

theorem Encoding.measurementExtend : Encoding.Statement .measurementExtend := nofun

theorem Encoding.measurementCopy : Encoding.Statement .measurementCopy := nofun

theorem Encoding.measurementDone : Encoding.Statement .measurementDone := nofun

theorem Encoding.signatureVerify : Encoding.Statement .signatureVerify := nofun

theorem Encoding.signatureSign : Encoding.Statement .signatureSign := nofun

theorem Encoding.signatureDone : Encoding.Statement .signatureDone := nofun

theorem Encoding.shakeHash : Encoding.Statement .shakeHash := nofun

theorem Encoding.shakeDone : Encoding.Statement .shakeDone := nofun

theorem Encoding.debugPortOpen : Encoding.Statement .debugPortOpen := nofun

theorem Encoding.debugPortClose : Encoding.Statement .debugPortClose := nofun

theorem Encoding.debugProbeAccess : Encoding.Statement .debugProbeAccess := nofun

theorem Encoding.vrelellSlotBind : Encoding.Statement .vrelellSlotBind := nofun

theorem Encoding.partitionDieAssignment : Encoding.Statement .partitionDieAssignment := nofun

theorem Encoding.virtualFunctionBinding : Encoding.Statement .virtualFunctionBinding := nofun

theorem Encoding.fabricJoinConfiguration : Encoding.Statement .fabricJoinConfiguration := nofun

theorem Encoding.ideKmKeySetting : Encoding.Statement .ideKmKeySetting := nofun

end Sys2Proof.Laws
end

