-- ==== Sys2Proof/Laws/Shapes.lean ====
section
/-! SUPPORT. Sys2Proof/Laws/Shapes.lean: for each shape of a computing instruction (Safety.lean), what a meaning of that
shape gives, once for all instructions of the shape. -/

namespace Sys2Proof.Machine

/-- An operation of two cells computes what relates its function's value to them. -/
theorem computes2_of {mk : Name → Name → Name → Instr} {f : Word → Word → Word} {P : Word → Word → Word → Prop}
    (he : ∀ d a b s, exec (mk d a b) s = issue (mk d a b) (binOp d a b f) s)
    (hr : ∀ d a b, (mk d a b).roles.ra = .src ∧ (mk d a b).roles.rb = .src ∧ (mk d a b).roles.a = a
      ∧ (mk d a b).roles.b = b)
    (hP : ∀ x y, P x y (f x y)) : Computes2 mk P := by
  intro s d a b h
  obtain ⟨h1, h2, h3, h4⟩ := hr d a b
  exact ⟨_, hP _ _, by rw [he, binOp_of_ready h h1 h2 h3 h4]⟩

/-- An operation of one cell. -/
theorem computes1_of {α : Type} {mk : Name → Name → α → Instr} {f : α → Word → Word} {P : α → Word → Word → Prop}
    (he : ∀ d a c s, exec (mk d a c) s = issue (mk d a c) (unOp d a (f c)) s)
    (hr : ∀ d a c, (mk d a c).roles.ra = .src ∧ (mk d a c).roles.a = a)
    (hP : ∀ c x, P c x (f c x)) : Computes1 mk P := by
  intro s d a c h
  obtain ⟨h1, h2⟩ := hr d a c
  exact ⟨_, hP _ _, by rw [he, unOp_of_ready h h1 h2]⟩

/-- A read leaves the state as it is, or with a queue of the executing slot replaced and the word noted as taken. -/
theorem took_cases (s : State) (n : Name) :
    s.took n = s ∨ ∃ g k q ws, s.cur = .slot g k ∧
      s.took n = s.setSlot g k { (s.slot g k).setQueue n.toNat q with taken := ws } := by
  unfold State.took
  cases hc : s.cur with
  | mason g => exact .inl rfl
  | slot g k =>
    by_cases hp : n.isPort = true
    · exact .inr ⟨g, k, ((s.slot g k).queue n.toNat).tail, _, rfl, if_pos hp⟩
    · exact .inl (by simp [hp])

@[simp] theorem setQueue_fctl (x : Slot) (d : Nat) (q : List Tagged) : (x.setQueue d q).fctl = x.fctl := by
  unfold Slot.setQueue; split <;> rfl

@[simp] theorem setQueue_pred (x : Slot) (d : Nat) (q : List Tagged) : (x.setQueue d q).pred = x.pred := by
  unfold Slot.setQueue; split <;> rfl

@[simp] theorem fctlNow_took (s : State) (n : Name) : (s.took n).fctlNow = s.fctlNow := by
  rcases took_cases s n with h | ⟨g, k, q, ws, hc, h⟩ <;> rw [h]
  simp [State.fctlNow, hc]

/-- Where a field is no port its read changes nothing. -/
theorem took_of_notPort {s : State} {n : Name} (h : n.isPort = false) : s.took n = s := by
  unfold State.took; split <;> simp [h]

/-- A division. -/
theorem divides_of {mk : Name → Name → Name → Instr} {f : Word → Word → Word} {P : Word → Word → Word → Prop}
    (he : ∀ d a b s, exec (mk d a b) s = issue (mk d a b) (divOp d a b f) s)
    (hr : ∀ d a b, (mk d a b).roles.ra = .src ∧ (mk d a b).roles.rb = .src ∧ (mk d a b).roles.a = a
      ∧ (mk d a b).roles.b = b)
    (hP : ∀ x y, P x y (f x y)) : Divides mk P := by
  intro s d a b h
  obtain ⟨h1, h2, h3, h4⟩ := hr d a b
  have ra := readName_of_holds (holds_a h h1)
  have rb := readName_of_holds (holds_took h h1 h2)
  rw [h3] at ra rb; rw [h4] at rb
  refine ⟨fun hz => ⟨_, hP _ _, ?_⟩, fun hz hd g k hc => ?_⟩
  · rw [he, issue_of_ready h, divOp, M.bind_ok ra, M.bind_ok rb, M.bind_ok (M.get_apply _), if_neg]
    · beta_reduce
      rw [M.bind_ok (writeName_apply _ _ _), M.pure_apply, finish_next]
    · simpa using hz
  · rw [he, issue_of_ready h, divOp, M.bind_ok ra, M.bind_ok rb, M.bind_ok (M.get_apply _), if_pos, M.bind_error (trap_apply _ _ _ _),
      finish_trap hc]
    simpa using ⟨hz, hd⟩

theorem guard_took (s : State) (n : Name) (g : BitVec 3) (m : BitVec 1) : (s.took n).guard g m = s.guard g m := by
  rcases took_cases s n with h | ⟨g, k, q, ws, hc, h⟩ <;> rw [h]
  simp [State.guard, State.predBit, State.preds, hc]

/-- The guarded write of a predicate. -/
theorem predWrite_apply (p g : BitVec 3) (n : BitVec 1) (v : Bool) (s : State) :
    predWrite p g n v (pure ()) s = .ok (.next, if s.guard g n then s.setPred p v else s) := by
  unfold predWrite
  rw [M.bind_ok (M.get_apply _)]
  split
  · rfl
  · rfl

/-- An integer compare. -/
theorem compares_of {mk : BitVec 3 → BitVec 3 → BitVec 1 → Name → Name → Instr} {f : Word → Word → Bool}
    {P : Word → Word → Prop}
    (he : ∀ p g n a b s, exec (mk p g n a b) s = issue (mk p g n a b) (cmpOp p g n a b f) s)
    (hr : ∀ p g n a b, (mk p g n a b).roles.ra = .src ∧ (mk p g n a b).roles.rb = .src ∧ (mk p g n a b).roles.a = a
      ∧ (mk p g n a b).roles.b = b)
    (hP : ∀ x y, f x y = true ↔ P x y) : Compares mk P := by
  intro s p g n a b h
  obtain ⟨h1, h2, h3, h4⟩ := hr p g n a b
  have ra := readName_of_holds (holds_a h h1)
  have rb := readName_of_holds (holds_took h h1 h2)
  rw [h3] at ra rb; rw [h4] at rb
  refine ⟨fun ht => ⟨_, hP _ _, ?_⟩, fun ht c k hc => ?_⟩
  · rw [he, issue_of_ready h, cmpOp, M.bind_ok ra, M.bind_ok rb, if_neg (by simp [ht])]
    beta_reduce
    rw [predWrite_apply, finish_next, guard_took, guard_took]
  · rw [he, issue_of_ready h, cmpOp, M.bind_ok ra, M.bind_ok rb, if_pos ht, M.bind_error (trap_apply _ _ _ _), finish_trap hc]

/-- An operation on predicates. -/
theorem sets_of {α : Type} {mk : BitVec 3 → BitVec 3 → BitVec 1 → α → Instr} {v : State → α → Bool}
    (he : ∀ p g n x s, exec (mk p g n x) s = issue (mk p g n x) (plogOp p g n (fun t => v t x)) s) : Sets mk v := by
  intro s p g n x h
  rw [he, issue_of_ready h, plogOp, M.bind_ok (M.get_apply _), predWrite_apply, finish_next]

theorem fctlMode_apply (s : State) : fctlMode s = .ok ((s.fctlNow.extractLsb' 0 3).toNat, s) := rfl

theorem raiseFl_quiet {s : State} {fl : Fl} (h : s.quiet fl) : raiseFl fl s = .ok ((), s.orFctl fl) := by
  unfold raiseFl; rw [if_neg (by simpa [State.quiet] using h)]

theorem raiseFl_loud {s : State} {fl : Fl} (h : ¬ s.quiet fl) : raiseFl fl s = .error (.fpx fl) := by
  unfold raiseFl; rw [if_pos (by simpa [State.quiet] using h)]

theorem quiet_took (s : State) (n : Name) (fl : BitVec 5) : (s.took n).quiet fl ↔ s.quiet fl := by
  unfold State.quiet; rw [fctlNow_took]

theorem finish_fpx {s : State} {g k : Nat} (h : s.cur = .slot g k) (i : Instr) (fl : BitVec 5) :
    s.finish (encode i) (.error (.fpx fl)) = (s.orFctl fl).trapped g k i cFPX (fl.setWidth 64) := by
  unfold State.finish State.trapped State.orFctl; simp [h]

/-- An FP32 operation of two cells. -/
theorem floats2_of {mk : Name → Name → Name → Instr} {f : Nat → BitVec 32 → BitVec 32 → BitVec 32 × BitVec 5}
    (he : ∀ d a b s, exec (mk d a b) s = issue (mk d a b) (f2Op d a b f) s)
    (hr : ∀ d a b, (mk d a b).roles.ra = .src ∧ (mk d a b).roles.rb = .src ∧ (mk d a b).roles.a = a
      ∧ (mk d a b).roles.b = b) : Floats2 mk f := by
  intro s d a b h
  obtain ⟨h1, h2, h3, h4⟩ := hr d a b
  have ra := readName_of_holds (holds_a h h1)
  have rb := readName_of_holds (holds_took h h1 h2)
  rw [h3] at ra rb; rw [h4] at rb
  refine ⟨fun hq => ?_, fun hq g k hc => ?_⟩
  · rw [he, issue_of_ready h, f2Op, M.bind_ok ra, M.bind_ok rb, M.bind_ok (fctlMode_apply _), fctlNow_took, fctlNow_took]
    rw [M.bind_ok (raiseFl_quiet (by rw [quiet_took, quiet_took]; exact hq)), M.bind_ok (writeName_apply _ _ _), M.pure_apply,
      finish_next]
    rfl
  · rw [he, issue_of_ready h, f2Op, M.bind_ok ra, M.bind_ok rb, M.bind_ok (fctlMode_apply _), fctlNow_took, fctlNow_took]
    rw [M.bind_error (raiseFl_loud (by rw [quiet_took, quiet_took]; exact hq)), finish_fpx hc]
    rfl

/-- An FP32 operation of one cell. -/
theorem floats1_of {mk : Name → Name → Instr} {f : Nat → Word → Word × BitVec 5}
    (he : ∀ d a s, exec (mk d a) s = issue (mk d a) (f1Op d a f) s)
    (hr : ∀ d a, (mk d a).roles.ra = .src ∧ (mk d a).roles.a = a) : Floats1 mk f := by
  intro s d a h
  obtain ⟨h1, h2⟩ := hr d a
  have ra := readName_of_holds (holds_a h h1)
  rw [h2] at ra
  refine ⟨fun hq => ?_, fun hq g k hc => ?_⟩
  · rw [he, issue_of_ready h, f1Op, M.bind_ok ra, M.bind_ok (fctlMode_apply _), fctlNow_took]
    rw [M.bind_ok (raiseFl_quiet (by rw [quiet_took]; exact hq)), M.bind_ok (writeName_apply _ _ _), M.pure_apply, finish_next]
  · rw [he, issue_of_ready h, f1Op, M.bind_ok ra, M.bind_ok (fctlMode_apply _), fctlNow_took]
    rw [M.bind_error (raiseFl_loud (by rw [quiet_took]; exact hq)), finish_fpx hc]

/-- A lane-wise FP32 operation of two vectors. -/
theorem floatLanes2_of {mk : Name → Name → Name → Instr} {f : Nat → BitVec 32 → BitVec 32 → BitVec 32 × BitVec 5}
    (he : ∀ d a b s, exec (mk d a b) s = issue (mk d a b) (vf2Op d a b f) s) : FloatLanes2 mk f := by
  intro s d a b h
  refine ⟨fun hq => ?_, fun hq g k hc => ?_⟩ <;>
    rw [he, issue_of_ready h, vf2Op, M.bind_ok (readVec_apply _ _), M.bind_ok (readVec_apply _ _), M.bind_ok (fctlMode_apply _)]
  · rw [M.bind_ok (raiseFl_quiet hq), M.bind_ok (writeVec_apply _ _ _ _), M.pure_apply, finish_next]
  · rw [M.bind_error (raiseFl_loud hq), finish_fpx hc]

/-- A lane-wise FP32 operation of one vector. -/
theorem floatLanes1_of {mk : Name → Name → Instr} {f : Nat → BitVec 32 → BitVec 32 × BitVec 5}
    (he : ∀ d a s, exec (mk d a) s = issue (mk d a) (vf1Op d a f) s) : FloatLanes1 mk f := by
  intro s d a h
  refine ⟨fun hq => ?_, fun hq g k hc => ?_⟩ <;>
    rw [he, issue_of_ready h, vf1Op, M.bind_ok (readVec_apply _ _), M.bind_ok (fctlMode_apply _)]
  · rw [M.bind_ok (raiseFl_quiet hq), M.bind_ok (writeVec_apply _ _ _ _), M.pure_apply, finish_next]
  · rw [M.bind_error (raiseFl_loud hq), finish_fpx hc]

@[simp] theorem group_length (s : State) (n : Name) (k : Nat) : (s.group n k).length = k := by
  unfold State.group; split <;> simp

theorem lanesOf_length (cs : List Tagged) : (lanesOf cs).length = 2 * cs.length := by
  induction cs with
  | nil => rfl
  | cons c t ih => simp only [lanesOf, List.flatMap_cons, List.length_append] at *; simp [ih]; omega

@[simp] theorem vec_length (s : State) (n : Name) : (s.vec n).1.length = 16 := by
  simp [State.vec, lanesOf_length]

/-- A lane-wise operation of two vectors. -/
theorem lanes2_of {mk : Name → Name → Name → Instr} {f : BitVec 32 → BitVec 32 → BitVec 32}
    {P : BitVec 32 → BitVec 32 → BitVec 32 → Prop}
    (he : ∀ d a b s, exec (mk d a b) s = issue (mk d a b) (v2Op d a b f) s)
    (hP : ∀ x y, P x y (f x y)) : Lanes2 mk P := by
  intro s d a b h
  refine ⟨((s.vec a).1.zip (s.vec b).1).map (fun e => f e.1 e.2), by simp, fun i hi => ?_, ?_⟩
  · have ha : i < (s.vec a).1.length := by simp; omega
    have hb : i < (s.vec b).1.length := by simp; omega
    simp only [laneAt, List.getD_eq_getElem?_getD, List.getElem?_map, List.getElem?_eq_getElem ha, List.getElem?_eq_getElem hb]
    rw [List.getElem?_eq_getElem (by simp; omega)]
    simpa using hP _ _
  · rw [he, issue_of_ready h, v2Op, M.bind_ok (readVec_apply _ _), M.bind_ok (readVec_apply _ _),
      M.bind_ok (writeVec_apply _ _ _ _), M.pure_apply, finish_next]

end Sys2Proof.Machine
end

