-- ==== Sys2Proof/Tests/Slice0.lean ====
section
/-! SUPPORT. Sys2Proof/Tests/Slice0.lean: tests on fixed values. The words are those of the spec's encoding examples and of
the opcode table; the values are those of the spec's worked examples; and for each statement of Obligations.lean that has
hypotheses, states and operands that meet them, clause by clause. -/

namespace Sys2Proof.Tests

open Sys2Proof Sys2Proof.Machine

set_option Elab.async false

/-! ### Ill-formed terms (R205 to R209) -/

/-- R205: names 5 to 7 in a field of one cell that is read, written, or written later than issue. -/
theorem test_refuses_names_five_to_seven : ∀ i ∈ [Instr.add 10 5 12, .add 10 11 7, .add 6 11 12, .ldD 5 11 0],
    i.wf = false := by decide +kernel

/-- R205: a port name in a field that is read and written, or that holds a tile coordinate or a control cell. -/
theorem test_refuses_ports : ∀ i ∈ [Instr.fFma 1 11 12, .amoCas 2 11 12, .mmaI8 3 11 12 0 0 0, .jgs 4 11 12, .xswp 1],
    i.wf = false := by decide +kernel

/-- R205, R206: a vector name that is no multiple of 8 or above 120, and a port name in a group field. -/
theorem test_refuses_groups : ∀ i ∈ [Instr.vAddI32 10 16 24, .vAddI32 16 121 24, .vSel 16 24 1, .vfAdd 10 1 12, .rmsg 2],
    i.wf = false := by decide +kernel

/-- R209: msel 3, a scope code of 5, a pskip of no word, a mig of 129 cells; and an event is no word. -/
theorem test_refuses_fields : ∀ i ∈ [Instr.mmaI8 10 11 12 3 0 0, .fence 5, .acq 6, .rel 7, .pskip 0 1 0, .mig 11 129,
    .packageReset], i.wf = false := by decide +kernel

/-- R207, R208: the words of the example of R207, majors without instructions, an fn at the count of its family, and words
with a bit of an unused field set. -/
theorem test_refuses_words : ([0x00000000, 0x04000015, 0x040000A0, 0xBC000000, 0xE8000000, 0xF0000000, 0xFC000000, 0x0800000E,
    0x08858020, 0x24858100, 0x248580C0, 0x7C280000, 0xE4001001] : List (BitVec 32)).all (fun w => decode w = none) = true := by
  decide +kernel

/-- R207: the fourth word of its example is an instruction. -/
theorem test_compare_of_zeros : decode 0x31000000 = some (.pcmpEq 2 0 0 0 0) := by decide +kernel

/-! ### Decoding -/

/-- R209 and the examples beside the instructions: the words that the spec's assembler gives. -/
theorem test_decode_scalar_examples : ∀ e ∈ ([
    (0x3082C5A2, .pcmpLt 1 0 0 44 45), (0x3A40000F, .bp 1 1 15), (0x387FFFF3, .bp 0 1 (-13)), (0x9402E010, .mts 46 0x010),
    (0x9178001F, .mfs 47 0x01F), (0x70009280, .stD 0 9 20), (0x6FF892BC, .stW (-4) 9 21), (0x04A89151, .div 21 9 10),
    (0x08B09143, .rank 22 9 10), (0x0D680020, .addi 45 0 32), (0x2552A004, .slli 42 42 4), (0x24C18050, .srli 24 24 16),
    (0x28A12345, .lui 20 0x12345), (0xEE800003, .pskip 1 2 3), (0x58A89008, .ldW 21 9 8), (0x740892C7, .stN 1 9 22),
    (0x994A8038, .rdx 41 40 56), (0x9FF8C3DF, .wrx (-1) 12 30), (0x78B8930B, .redEw 23 9 24),
    (0x78A892C7, .amoCas 21 9 22)] : List (BitVec 32 × Instr)), decode e.1 = some e.2 := by decide +kernel

theorem test_decode_control_examples : ∀ e ∈ ([
    (0x7C180000, .fence 3), (0x7C080001, .acq 1), (0x7C180002, .rel 3), (0x7C000003, .ifence), (0x7C000005, .yield),
    (0x7C009206, .mig 9 16), (0x7C089006, .mig 9 128), (0x7C009004, .publish 9), (0x80000000, .wait 0 0 0 0),
    (0x83C3FC00, .wait 15 0 15 15), (0x83FC3C00, .wait 15 15 0 15), (0x84589140, .barInit 11 9 10), (0x84009001, .barJoin 9),
    (0x8580C002, .barArrive 48 12), (0x8580C003, .barDrop 48 12), (0x84009144, .barExpect 9 10), (0x8400C605, .barWait 12 48),
    (0x84A8B2C6, .barTest 21 11 22), (0x84A8B2C7, .barTwait 21 11 22), (0x84009008, .barInval 9), (0x84000009, .sync),
    (0x88009140, .smsg 9 10), (0x89400001, .rmsg 40), (0x89400002, .wmsg 40), (0x89480003, .mq 41), (0x8C009000, .spawn 9),
    (0x8C009001, .spawnh 9), (0x8C009143, .cntInit 9 10), (0x8C009144, .cntAdd 9 10), (0xE40000A0, .trap 5),
    (0xE4002580, .trap 300), (0xE4000002, .brk 0), (0xE4000001, .eret), (0xE4009003, .tlbinv 9), (0xE4000004, .csave),
    (0xE4000005, .crest), (0xE4009007, .pstop 9), (0xE4000006, .halt)] : List (BitVec 32 × Instr)),
    decode e.1 = some e.2 := by decide +kernel

theorem test_decode_engine_examples : ∀ e ∈ ([
    (0xA0A89142, .fMul 21 9 10), (0xA0589147, .fFma 11 9 10), (0xA4C15009, .vfFromF 24 21), (0xA4D18320, .vfAdd 26 24 25),
    (0xB8800000, .vLi 16 0), (0xB101030E, .vPerm 32 16 24), (0xB141000C, .vSumI32 40 16), (0xB1498552, .vExt 41 24 42),
    (0xB102900D, .vBcast 32 41), (0xB4820303, .vFmaF32 16 32 24), (0xC9933680, .mmaB16 50 51 52 0 0 0),
    (0xCD93368E, .mmaQ4 50 51 52 1 1 1), (0xD19356C1, .accRd 50 53 54), (0xD1900000, .accClr 50), (0xD1935002, .accWr 50 53),
    (0xD5E3D000, .xprg 60 61), (0xD5E00001, .xswp 60), (0xD5E3D7C2, .xmv 60 61 62), (0xD5E3D7C3, .xmvt 60 61 62),
    (0xD5E3D7C4, .xcal 60 61 62), (0xD4A96005, .xacc 21 22), (0xD4B80006, .xstat 23), (0xD8A09140, .jlk 20 9 10),
    (0xD8A09141, .jgs 20 9 10), (0xD8A09002, .jmul 20 9 0), (0xD8A89003, .jexp 21 9), (0xD8A09004, .jenum 20 9),
    (0xD8A09145, .jdelta 20 9 10), (0xD8A09146, .cleave 20 9 10), (0xD8A09007, .isect 20 9), (0xD8B80008, .jstat 23),
    (0xDCA09200, .pct 20 9 16), (0xDCC092A1, .prd 24 9 21), (0xDC009002, .parm 9), (0xDC009003, .povl 9),
    (0xDCA89004, .pstat 21 9), (0xE0AAF000, .cpQ 21 47), (0xE002F001, .cpKill 47)] : List (BitVec 32 × Instr)),
    decode e.1 = some e.2 := by decide +kernel

/-- R203, R208: a word of each instruction of majors 0x01 to 0x01, its fields as the opcode table places them. -/
theorem test_decode_majors_01_to_01 : ∀ e ∈ ([
    (0x04858500, .add 16 88 40), (0x04858501, .sub 16 88 40), (0x04858502, .and 16 88 40),
    (0x04858503, .or 16 88 40), (0x04858504, .xor 16 88 40), (0x04858505, .sll 16 88 40),
    (0x04858506, .srl 16 88 40), (0x04858507, .sra 16 88 40), (0x04858508, .slt 16 88 40),
    (0x04858509, .sltu 16 88 40), (0x0485850A, .min 16 88 40), (0x0485850B, .max 16 88 40),
    (0x0485850C, .minu 16 88 40), (0x0485850D, .maxu 16 88 40), (0x0485850E, .mul 16 88 40),
    (0x0485850F, .mulh 16 88 40), (0x04858510, .mulhu 16 88 40), (0x04858511, .div 16 88 40),
    (0x04858512, .divu 16 88 40), (0x04858513, .rem 16 88 40), (0x04858514, .remu 16 88 40)] : List (BitVec 32 × Instr)),
    decode e.1 = some e.2 := by decide +kernel

/-- R203, R208: a word of each instruction of majors 0x02 to 0x0A, its fields as the opcode table places them. -/
theorem test_decode_majors_02_to_0a : ∀ e ∈ ([
    (0x08858000, .clz 16 88), (0x08858001, .ctz 16 88), (0x08858002, .popc 16 88),
    (0x08858503, .rank 16 88 40), (0x08858504, .nth 16 88 40), (0x08858505, .bext 16 88 40),
    (0x08858506, .bdep 16 88 40), (0x08858007, .rev8 16 88), (0x08858008, .sext8 16 88),
    (0x08858009, .sext16 16 88), (0x0885800A, .sext32 16 88), (0x0885800B, .zext8 16 88),
    (0x0885800C, .zext16 16 88), (0x0885800D, .zext32 16 88), (0x0C858B2D, .addi 16 88 0xb2d),
    (0x10858B2D, .andi 16 88 0xb2d), (0x14858B2D, .ori 16 88 0xb2d), (0x18858B2D, .xori 16 88 0xb2d),
    (0x1C858B2D, .slti 16 88 0xb2d), (0x20858B2D, .sltiu 16 88 0xb2d), (0x24858026, .slli 16 88 0x26),
    (0x24858066, .srli 16 88 0x26), (0x248580A6, .srai 16 88 0x26), (0x2881CB2D, .lui 16 0x1cb2d)] : List (BitVec 32 × Instr)),
    decode e.1 = some e.2 := by decide +kernel

/-- R203, R208: a word of each instruction of majors 0x0B to 0x0F, its fields as the opcode table places them. -/
theorem test_decode_majors_0b_to_0f : ∀ e ∈ ([
    (0x2C81CB2D, .adpc 16 0x1cb2d), (0x32BD8500, .pcmpEq 0x5 0x3 0x1 88 40), (0x32BD8501, .pcmpNe 0x5 0x3 0x1 88 40),
    (0x32BD8502, .pcmpLt 0x5 0x3 0x1 88 40), (0x32BD8503, .pcmpGe 0x5 0x3 0x1 88 40), (0x32BD8504, .pcmpLtu 0x5 0x3 0x1 88 40),
    (0x32BD8505, .pcmpGeu 0x5 0x3 0x1 88 40), (0x32BD8506, .pcmpFEq 0x5 0x3 0x1 88 40), (0x32BD8507, .pcmpFLt 0x5 0x3 0x1 88 40),
    (0x32BD8508, .pcmpFLe 0x5 0x3 0x1 88 40), (0x32BD8509, .pcmpFUn 0x5 0x3 0x1 88 40), (0x32BD850A, .pcmpVfEq 0x5 0x3 0x1 88 40),
    (0x32BD850B, .pcmpVfLt 0x5 0x3 0x1 88 40), (0x32BD850C, .pcmpVfLe 0x5 0x3 0x1 88 40), (0x32BD850D, .pcmpBit 0x5 0x3 0x1 88 40),
    (0x36B86060, .pand 0x5 0x3 0x1 0x6 0x3), (0x36B86061, .por 0x5 0x3 0x1 0x6 0x3), (0x36B86062, .pxor 0x5 0x3 0x1 0x6 0x3),
    (0x36B86063, .pandn 0x5 0x3 0x1 0x6 0x3), (0x36B86004, .pmov 0x5 0x3 0x1 0x6), (0x36B86005, .pnot 0x5 0x3 0x1 0x6),
    (0x36B81006, .pset 0x5 0x3 0x1 0x1), (0x3B4E5635, .bp 0x1 0x5 0xe5635), (0x3ECE5635, .br 0x2ce5635)] : List (BitVec 32 × Instr)),
    decode e.1 = some e.2 := by decide +kernel

/-- R203, R208: a word of each instruction of majors 0x10 to 0x1C, its fields as the opcode table places them. -/
theorem test_decode_majors_10_to_1c : ∀ e ∈ ([
    (0x42CE5635, .bl 0x2ce5635), (0x44058000, .jr 88), (0x44858001, .jlr 16 88),
    (0x48858B2D, .ldB 16 88 0xb2d), (0x4C858B2D, .ldBu 16 88 0xb2d), (0x50858B2D, .ldH 16 88 0xb2d),
    (0x54858B2D, .ldHu 16 88 0xb2d), (0x58858B2D, .ldW 16 88 0xb2d), (0x5C858B2D, .ldWu 16 88 0xb2d),
    (0x60858B2D, .ldD 16 88 0xb2d), (0x66CD850D, .stB 0xb2d 88 40), (0x6ACD850D, .stH 0xb2d 88 40),
    (0x6ECD850D, .stW 0xb2d 88 40), (0x72CD850D, .stD 0xb2d 88 40)] : List (BitVec 32 × Instr)),
    decode e.1 = some e.2 := by decide +kernel

/-- R203, R208: a word of each instruction of majors 0x1D to 0x1D, its fields as the opcode table places them. -/
theorem test_decode_majors_1d_to_1d : ∀ e ∈ ([
    (0x74858000, .ldV 16 88), (0x74058501, .stV 88 40), (0x74858002, .ldFe 16 88),
    (0x74858003, .ldFx 16 88), (0x74058504, .stEf 88 40), (0x74058505, .stFs 88 40),
    (0x74058506, .stFc 88 40), (0x740D8507, .stN 0x1 88 40), (0x74858028, .ldN 16 88 0x1),
    (0x74058009, .watch 88), (0x7405800A, .unwatch 88), (0x7400000B, .waita),
    (0x7485850C, .vGather 16 88 40), (0x7485850D, .vScatter 16 88 40)] : List (BitVec 32 × Instr)),
    decode e.1 = some e.2 := by decide +kernel

/-- R203, R208: a word of each instruction of majors 0x1E to 0x20, its fields as the opcode table places them. -/
theorem test_decode_majors_1e_to_20 : ∀ e ∈ ([
    (0x78858500, .amoAdd 16 88 40), (0x78858501, .amoAnd 16 88 40), (0x78858502, .amoOr 16 88 40),
    (0x78858503, .amoXor 16 88 40), (0x78858504, .amoMin 16 88 40), (0x78858505, .amoMax 16 88 40),
    (0x78858506, .amoXchg 16 88 40), (0x78858507, .amoCas 16 88 40), (0x78058508, .redAdd 88 40),
    (0x78058509, .redOr 88 40), (0x7805850A, .redMax 88 40), (0x7885850B, .redEw 16 88 40),
    (0x7C180000, .fence 0x3), (0x7C180001, .acq 0x3), (0x7C180002, .rel 0x3),
    (0x7C000003, .ifence), (0x7C058004, .publish 88), (0x7C000005, .yield),
    (0x7C058AA6, .mig 88 0x55), (0x81ADB400, .wait 0x6 0xb 0x6 0xd)] : List (BitVec 32 × Instr)),
    decode e.1 = some e.2 := by decide +kernel

/-- R203, R208: a word of each instruction of majors 0x21 to 0x27, its fields as the opcode table places them. -/
theorem test_decode_majors_21_to_27 : ∀ e ∈ ([
    (0x84858500, .barInit 16 88 40), (0x84058001, .barJoin 88), (0x84858002, .barArrive 16 88),
    (0x84858003, .barDrop 16 88), (0x84058504, .barExpect 88 40), (0x84058505, .barWait 88 40),
    (0x84858506, .barTest 16 88 40), (0x84858507, .barTwait 16 88 40), (0x84058008, .barInval 88),
    (0x84000009, .sync), (0x88058500, .smsg 88 40), (0x88800001, .rmsg 16),
    (0x88800002, .wmsg 16), (0x88800003, .mq 16), (0x8C058000, .spawn 88),
    (0x8C058001, .spawnh 88), (0x8C000002, .exit), (0x8C058503, .cntInit 88 40),
    (0x8C058504, .cntAdd 88 40), (0x90800B2D, .mfs 16 0xb2d), (0x94058B2D, .mts 88 0xb2d),
    (0x98858B2D, .rdx 16 88 0xb2d), (0x9ECD850D, .wrx 0xb2d 88 40)] : List (BitVec 32 × Instr)),
    decode e.1 = some e.2 := by decide +kernel

/-- R203, R208: a word of each instruction of majors 0x28 to 0x28, its fields as the opcode table places them. -/
theorem test_decode_majors_28_to_28 : ∀ e ∈ ([
    (0xA0858500, .fAdd 16 88 40), (0xA0858501, .fSub 16 88 40), (0xA0858502, .fMul 16 88 40),
    (0xA0858503, .fDiv 16 88 40), (0xA0858004, .fSqrt 16 88), (0xA0858505, .fMin 16 88 40),
    (0xA0858506, .fMax 16 88 40), (0xA0858507, .fFma 16 88 40), (0xA0858008, .fAbs 16 88),
    (0xA0858009, .fNeg 16 88), (0xA085800A, .fCvtFi 16 88), (0xA085800B, .fCvtIf 16 88),
    (0xA085800C, .fCvtIft 16 88), (0xA085800D, .fCvtBf 16 88), (0xA085800E, .fCvtFb 16 88),
    (0xA085800F, .fCvt8f 16 88), (0xA0858010, .fCvtF8 16 88), (0xA0858011, .fClass 16 88)] : List (BitVec 32 × Instr)),
    decode e.1 = some e.2 := by decide +kernel

/-- R203, R208: a word of each instruction of majors 0x29 to 0x2B, its fields as the opcode table places them. -/
theorem test_decode_majors_29_to_2b : ∀ e ∈ ([
    (0xA4858500, .vfAdd 16 88 40), (0xA4858501, .vfSub 16 88 40), (0xA4858502, .vfMul 16 88 40),
    (0xA4858503, .vfDiv 16 88 40), (0xA4858004, .vfSqrt 16 88), (0xA4858505, .vfFma 16 88 40),
    (0xA4858006, .vfNeg 16 88), (0xA4858007, .vfAbs 16 88), (0xA4858008, .vfRnd 16 88),
    (0xA4858009, .vfFromF 16 88), (0xA485800A, .vfFromI 16 88), (0xA485800B, .vfToF 16 88),
    (0xA485800C, .vfToI 16 88), (0xA485800D, .vfMov 16 88), (0xA8858B2D, .vfLd 16 88 0xb2d),
    (0xAECD850D, .vfSt 0xb2d 88 40)] : List (BitVec 32 × Instr)),
    decode e.1 = some e.2 := by decide +kernel

/-- R203, R208: a word of each instruction of majors 0x2C to 0x2C, its fields as the opcode table places them. -/
theorem test_decode_majors_2c_to_2c : ∀ e ∈ ([
    (0xB0858500, .vAddI32 16 88 40), (0xB0858501, .vSubI32 16 88 40), (0xB0858502, .vMulI32 16 88 40),
    (0xB0858503, .vMinI32 16 88 40), (0xB0858504, .vMaxI32 16 88 40), (0xB0858505, .vAnd 16 88 40),
    (0xB0858506, .vOr 16 88 40), (0xB0858507, .vXor 16 88 40), (0xB0858508, .vShl 16 88 40),
    (0xB0858509, .vShr 16 88 40), (0xB085850A, .vSra 16 88 40), (0xB085850B, .vDot8 16 88 40),
    (0xB085800C, .vSumI32 16 88), (0xB085800D, .vBcast 16 88), (0xB085850E, .vPerm 16 88 40),
    (0xB085850F, .vSel 16 88 40), (0xB0858510, .vCmpeqI32 16 88 40), (0xB0858511, .vCmpltI32 16 88 40),
    (0xB0858512, .vExt 16 88 40), (0xB0858513, .vIns 16 88 40)] : List (BitVec 32 × Instr)),
    decode e.1 = some e.2 := by decide +kernel

/-- R203, R208: a word of each instruction of majors 0x2D to 0x34, its fields as the opcode table places them. -/
theorem test_decode_majors_2d_to_34 : ∀ e ∈ ([
    (0xB4858500, .vAddF32 16 88 40), (0xB4858501, .vSubF32 16 88 40), (0xB4858502, .vMulF32 16 88 40),
    (0xB4858503, .vFmaF32 16 88 40), (0xB4858504, .vMinF32 16 88 40), (0xB4858505, .vMaxF32 16 88 40),
    (0xB4858006, .vSumF32 16 88), (0xB4858007, .vRcpF32 16 88), (0xB4858008, .vCvtFi 16 88),
    (0xB4858009, .vCvtIf 16 88), (0xB485800A, .vCvtBf 16 88), (0xB485800B, .vCvtFb 16 88),
    (0xB485850C, .vCmpltF32 16 88 40), (0xB485800D, .vMax0 16 88), (0xB881CB2D, .vLi 16 0x1cb2d),
    (0xC09D8512, .mmaI8 19 88 40 0x2 0x0 0x1), (0xC49D8512, .mmaF8 19 88 40 0x2 0x0 0x1), (0xC89D8512, .mmaB16 19 88 40 0x2 0x0 0x1),
    (0xCC9D8512, .mmaQ4 19 88 40 0x2 0x0 0x1), (0xD0800000, .accClr 16), (0xD0858501, .accRd 16 88 40),
    (0xD0858002, .accWr 16 88)] : List (BitVec 32 × Instr)),
    decode e.1 = some e.2 := by decide +kernel

/-- R203, R208: a word of each instruction of majors 0x35 to 0x38, its fields as the opcode table places them. -/
theorem test_decode_majors_35_to_38 : ∀ e ∈ ([
    (0xD4858000, .xprg 16 88), (0xD4800001, .xswp 16), (0xD4858502, .xmv 16 88 40),
    (0xD4858503, .xmvt 16 88 40), (0xD4858504, .xcal 16 88 40), (0xD4858005, .xacc 16 88),
    (0xD4800006, .xstat 16), (0xD8858500, .jlk 16 88 40), (0xD8858501, .jgs 16 88 40),
    (0xD8858502, .jmul 16 88 40), (0xD8858003, .jexp 16 88), (0xD8858004, .jenum 16 88),
    (0xD8858505, .jdelta 16 88 40), (0xD8858506, .cleave 16 88 40), (0xD8858007, .isect 16 88),
    (0xD8800008, .jstat 16), (0xDC858500, .pct 16 88 40), (0xDC858501, .prd 16 88 40),
    (0xDC058002, .parm 88), (0xDC058003, .povl 88), (0xDC858004, .pstat 16 88),
    (0xE0858000, .cpQ 16 88), (0xE0058001, .cpKill 88)] : List (BitVec 32 × Instr)),
    decode e.1 = some e.2 := by decide +kernel

/-- R203, R208: a word of each instruction of majors 0x39 to 0x3B, its fields as the opcode table places them. -/
theorem test_decode_majors_39_to_3b : ∀ e ∈ ([
    (0xE405ACC0, .trap 0x2d66), (0xE4000001, .eret), (0xE405ACC2, .brk 0x2d66),
    (0xE4058003, .tlbinv 88), (0xE4000004, .csave), (0xE4000005, .crest),
    (0xE4000006, .halt), (0xE4058007, .pstop 88), (0xEF400006, .pskip 0x1 0x5 0x6)] : List (BitVec 32 × Instr)),
    decode e.1 = some e.2 := by decide +kernel

/-! ### Small states -/

/-- Cells by name. -/
def cellsAt (cs : List (Name × Word)) : Sparse Tagged :=
  cs.foldl (fun r e => Sparse.put r (e.1.toNat - 8) { v := e.2 }) []

/-- A thread with the largest window. -/
def thread : Slot := { bound := true, pc := 0x200000, wlim := 128 }

/-- Slot 3 of a core, 70 = (6, 1) if none is named, of a running partition of all dies, about to issue. -/
def on (x : Slot) (cs : List (Name × Word)) (c : Core := {}) (g : Nat := 70) : State :=
  { agenda := [], cur := .slot g 3, parts := [(0, { dies := 0xFFFF, st := .running })]
    cores := [(g, { c with rf := cellsAt cs, slots := [(3, x)] })] }

/-- The thread with cells. -/
def held (cs : List (Name × Word)) : State := on thread cs

/-- The state after an instruction. -/
def after (i : Instr) (s : State) : Option State :=
  match exec i s with
  | .next t => some t
  | _ => none

/-- A cell after an instruction. -/
def cellAfter (i : Instr) (s : State) (n : Name) : Option Word := (after i s).map (fun t => (t.cell 70 (n.toNat - 8)).v)

/-- The slot after an instruction. -/
def slotAfter (i : Instr) (s : State) : Option Slot := (after i s).map (fun t => t.slot 70 3)

/-- A vector whose lanes are a function of their number. -/
def laneCells (n : Name) (f : Nat → Nat) : List (Name × Word) :=
  (List.range 8).map (fun j => (n + BitVec.ofNat 7 j, BitVec.ofNat 64 (f (2 * j) + 2 ^ 32 * f (2 * j + 1))))

/-- The lanes of a vector after an instruction. -/
def lanesAfter (i : Instr) (s : State) (n : Name) : Option (List Nat) :=
  (after i s).map (fun t => (t.vec n).1.map (·.toNat))

/-! ### Worked examples of the spec -/

/-- R221: the table of division cases, and the products beside it. -/
theorem test_division_table : ∀ e ∈ ([
    (.div 21 9 10, 7, -2, -3), (.rem 21 9 10, 7, -2, 1), (.rem 21 9 10, -7, 2, -1),
    (.div 21 9 10, 0x8000000000000000, -1, 0x8000000000000000), (.rem 21 9 10, 0x8000000000000000, -1, 0),
    (.divu 21 9 10, -7, 2, 0x7FFFFFFFFFFFFFFC), (.div 21 9 10, 5, 0, -1), (.divu 21 9 10, 5, 0, -1), (.rem 21 9 10, 5, 0, 5),
    (.remu 21 9 10, 5, 0, 5), (.mulh 21 9 10, -1, -1, 0), (.mulhu 21 9 10, -1, -1, -2)] : List (Instr × Word × Word × Word)),
    cellAfter e.1 (held [(9, e.2.1), (10, e.2.2.1)]) 21 = some e.2.2.2 := by decide +kernel

/-- R221: a zero divisor while FCTL[17] is set takes FPX with TVAL 2 and writes nothing. -/
theorem test_division_trap :
    (slotAfter (.div 21 9 10) (on { thread with fctl := 0x20000 } [(9, 5)] { tvec := 0x300001 })).map
      (fun x => (x.tcause.toNat % 256, x.tval, x.pc, x.fctl)) = some (0x08, 2, 0x300000, 0x20000) := by
  decide +kernel

/-- R222: the table with x = 0xB5. -/
theorem test_bit_table : ∀ e ∈ ([
    (.rank 22 9 10, 0xB5, 5, 3), (.rank 22 9 10, 0xB5, 200, 5), (.nth 22 9 10, 0xB5, 2, 4), (.nth 22 9 10, 0xB5, 5, 64),
    (.bext 22 9 10, 0xB5, 0xF0, 0xB), (.bdep 22 9 10, 0xB, 0xF0F0, 0xB0), (.clz 22 9, 0xB5, 0, 56), (.ctz 22 9, 0xB5, 0, 0),
    (.clz 22 9, 0, 0, 64), (.ctz 22 9, 0, 0, 64)] : List (Instr × Word × Word × Word)),
    cellAfter e.1 (held [(9, e.2.1), (10, e.2.2.1)]) 22 = some e.2.2.2 := by decide +kernel

/-- R225: the constant 0x12345678 in two instructions. -/
theorem test_constant : cellAfter (.lui 20 0x12345) (held []) 20 = some 0x12345000 ∧
    cellAfter (.addi 20 20 0x678) (held [(20, 0x12345000)]) 20 = some 0x12345678 := by decide +kernel

/-- R248: one rounding against two. -/
theorem test_fma_rounds_once :
    cellAfter (.fMul 21 9 10) (held [(9, 0x3F800800), (10, 0x3F800800)]) 21 = some 0x3F801000 ∧
    (slotAfter (.fMul 21 9 10) (held [(9, 0x3F800800), (10, 0x3F800800)])).map (·.fctl) = some 0x1000 ∧
    cellAfter (.fAdd 21 21 11) (held [(11, 0xBF800000), (21, 0x3F801000)]) 21 = some 0x3A000000 ∧
    cellAfter (.fFma 11 9 10) (held [(9, 0x3F800800), (10, 0x3F800800), (11, 0xBF800000)]) 11 = some 0x3A000400 ∧
    (slotAfter (.fFma 11 9 10) (held [(9, 0x3F800800), (10, 0x3F800800), (11, 0xBF800000)])).map (·.fctl) = some 0 := by
  decide +kernel

/-- R260: the table of lanes i and 15 - i. -/
theorem test_lane_table :
    let s := held (laneCells 16 id ++ laneCells 24 (15 - ·) ++ [(42, 0x13)])
    lanesAfter (.vPerm 32 16 24) s 32 = some ((List.range 16).map (15 - ·)) ∧
    cellAfter (.vSumI32 40 16) s 40 = some 120 ∧
    lanesAfter (.vCmpltI32 32 16 24) s 32 = some (List.replicate 8 0xFFFFFFFF ++ List.replicate 8 0) ∧
    cellAfter (.vExt 41 24 42) s 41 = some 12 := by decide +kernel

/-- R262: the fixed tree. -/
theorem test_tree_sum :
    cellAfter (.vSumF32 40 16) (held (laneCells 16 (fun i => if i = 0 then 0x4B800000 else 0x3F800000))) 40 = some 0x4B800007 := by
  decide +kernel

/-- R226: the predicate, and the guard that keeps it. -/
theorem test_guarded_compare :
    (slotAfter (.pcmpLt 1 0 0 44 45) (held [(44, -1), (45, 3)])).map (·.pred) = some 3 ∧
    (slotAfter (.pcmpLt 1 0 1 44 45) (held [(44, -1), (45, 3)])).map (·.pred) = some 1 := by decide +kernel

/-- R228: the branch of the example of R209, back by 13 words, and the one not taken. -/
theorem test_branch :
    (slotAfter (.bp 0 1 (-13)) (on { thread with pred := 3 } [])).map (·.pc) = some (0x200000 - 52) ∧
    (slotAfter (.bp 1 1 15) (on { thread with pred := 3 } [])).map (·.pc) = some 0x200004 := by decide +kernel

/-- R238: an index of -1 raises WBND with TVAL all ones. -/
theorem test_window_index :
    (slotAfter (.wrx (-1) 12 30) (on thread [] { tvec := 1 })).map (fun x => (x.tcause.toNat % 256, x.tval)) = some (3, -1) := by
  decide +kernel

/-- R282: trap 5 returns after itself, brk at itself. -/
theorem test_trap_and_brk :
    (slotAfter (.trap 5) (on thread [] { tvec := 1 })).map (fun x => (x.tcause, x.tval, x.tepc, x.level)) =
      some (0x14, 5, 0x200004, .sup) ∧
    (slotAfter (.brk 300) (on thread [] { tvec := 1 })).map (fun x => (x.tcause, x.tval, x.tepc, x.level)) =
      some (0x15, 300, 0x200000, .sup) := by decide +kernel

/-- R240: 0.1 in the window at 2^-20 is 104,858. -/
theorem test_window_value : (windowOf 64 (-20) (num32 0x3DCCCCCD)).1 = 104858 := by decide +kernel

/-- R26, R36: the step after the reset is the package reset. -/
theorem test_first_step : (match step State.reset with | .next t => decide (t.agenda = []) | _ => false) = true := by
  decide +kernel

/-! ### Witnesses: cells, predicates, branches, arithmetic -/

/-- AluResults, BitResults, ImmediateResults and the lane-wise statements: their instructions are ready, on a slot and at
every name that a field admits: zero, the first and the last cell. -/
theorem test_witness_computing : ∀ i ∈ [Instr.add 10 11 12, .sub 0 8 127, .and 127 0 8, .or 8 8 8, .xor 10 11 12, .sll 10 11 12,
    .srl 10 11 12, .sra 10 11 12, .slt 10 11 12, .sltu 10 11 12, .min 10 11 12, .max 10 11 12, .minu 10 11 12, .maxu 10 11 12,
    .mul 10 11 12, .mulh 10 11 12, .mulhu 10 11 12, .clz 10 11, .ctz 10 11, .popc 10 11, .rank 10 11 12, .nth 10 11 12,
    .bext 10 11 12, .bdep 10 11 12, .rev8 10 11, .sext8 10 11, .sext16 10 11, .sext32 10 11, .zext8 10 11, .zext16 10 11,
    .zext32 10 11, .addi 10 11 0x800, .andi 10 11 0x7FF, .ori 10 11 1, .xori 10 11 1, .slti 10 11 1, .sltiu 10 11 0x801,
    .slli 10 11 63, .srli 10 11 0, .srai 10 11 63, .lui 10 0x40000, .adpc 10 0x3FFFF, .vAddI32 16 24 120, .vSubI32 16 24 32,
    .vMulI32 16 24 32, .vMinI32 16 24 32, .vMaxI32 16 24 32, .vAnd 0 24 32, .vOr 16 24 32, .vXor 16 24 32, .vShl 16 24 32,
    .vShr 16 24 32, .vSra 16 24 32, .vDot8 16 24 32, .vCmpeqI32 16 24 32, .vCmpltI32 16 24 32, .vLi 16 0x40000, .vSumI32 10 24,
    .vBcast 16 11, .vPerm 16 24 32, .vSel 16 24 32, .vExt 10 24 11, .vIns 16 11 12],
    Ready i (held [(11, 3), (12, 70)]) := by decide +kernel

/-- DivisionResults: a zero divisor with the enable clear and set, the least dividend by -1, and an ordinary pair. -/
theorem test_witness_division : ∀ i ∈ [Instr.div 10 11 12, .divu 10 11 12, .rem 10 11 12, .remu 10 11 12],
    (∀ s ∈ [held [(11, 5), (12, 0)], held [(11, 0x8000000000000000), (12, -1)], held [(11, -7), (12, 2)]],
      Ready i s ∧ s.fctlNow.getLsbD 17 = false) ∧
    Ready i (on { thread with fctl := 0x20000 } [(11, 5)]) ∧ ((on { thread with fctl := 0x20000 } [(11, 5)]).val 12).v = 0 ∧
    (on { thread with fctl := 0x20000 } [(11, 5)]).fctlNow.getLsbD 17 = true := by decide +kernel

/-- BitResults: nth at the number of set bits and one below; an fn of 14 and of 31. ImmediateResults: a shift's reserved bit,
and its selector 3. -/
theorem test_witness_bits : bitsBelow 0xB5 64 = 5 ∧ 14 ≤ (14 : BitVec 5).toNat ∧ 14 ≤ (31 : BitVec 5).toNat ∧
    ((1 : BitVec 4) ≠ 0 ∨ (0 : BitVec 2) = 3) ∧ ((0 : BitVec 4) ≠ 0 ∨ (3 : BitVec 2) = 3) := by decide +kernel

/-- A cell with its tag set. -/
def tagged (n : Name) (v : Word) (s : State) : State := s.setCell 70 (n.toNat - 8) { v := v, t := true }

/-- IntegerCompares: operands without tags, and one with. -/
theorem test_witness_compares : ∀ i ∈ [Instr.pcmpEq 1 0 0 11 12, .pcmpNe 1 2 1 11 12, .pcmpLt 0 0 0 11 12, .pcmpGe 1 0 1 11 12,
    .pcmpLtu 1 0 0 11 12, .pcmpGeu 7 7 1 11 12, .pcmpBit 1 0 0 11 12],
    (Ready i (held []) ∧ (((held []).val 11).t || ((held []).val 12).t) = false) ∧
    Ready i (tagged 11 5 (held [])) ∧ ((tagged 11 5 (held [])).val 11).t = true := by decide +kernel

/-- FloatCompares: a guard that fails, a guard that holds with no flag enabled, and a NaN while the enable of NV is set. -/
theorem test_witness_float_compares :
    (∀ i ∈ [Instr.pcmpFEq 1 0 1 11 12, .pcmpFLt 1 0 1 11 12, .pcmpFLe 1 0 1 11 12, .pcmpFUn 1 0 1 11 12], Ready i (held [])) ∧
    (held []).guard 0 1 = false ∧ (held []).guard 0 0 = true ∧
    (let s := on { thread with fctl := 0x10000 } [(11, 0x7F800001)]
     Ready (.pcmpFEq 1 0 0 11 12) s ∧ s.guard 0 0 = true ∧ fmt32.signals 0x7F800001 = true ∧
       (flNV &&& s.fctlNow.extractLsb' 16 5) ≠ 0) ∧
    (∀ i ∈ [Instr.pcmpVfEq 1 0 0 11 12, .pcmpVfLt 1 0 0 11 12, .pcmpVfLe 1 0 0 11 12], Ready i (held [])) ∧
    ((held []).vfVal 11).2.2 = false := by decide +kernel

/-- FloatValues: a NaN, signalling and quiet. -/
theorem test_witness_nan : (num32 0x7F800001).isNan = true ∧ (num32 0x7FC00000).isNan = true ∧
    fmt32.signals 0x7F800001 = true ∧ fmt32.signals 0x7FC00000 = false := by decide +kernel

/-- PredicateLogic: every instruction of the family is ready. -/
theorem test_witness_predicates : ∀ i ∈ [Instr.pand 1 0 0 2 3, .por 0 7 1 2 3, .pxor 1 0 0 2 3, .pandn 1 0 0 2 3, .pmov 1 0 0 2,
    .pnot 1 0 0 7, .pset 7 0 0 1], Ready i (held []) := by decide +kernel

/-- Branches: a taken and an untaken branch, a jump to a multiple of 4, to none, and through a tagged cell. -/
theorem test_witness_branches :
    (∀ i ∈ [Instr.bp 0 1 15, .bp 1 1 15, .br 1, .bl 1, .jr 11, .jlr 10 11, .pskip 0 1 1, .pskip 1 1 15],
      Ready i (held [(11, 0x400)])) ∧ (held []).here % 4 = 0 ∧ ((held [(11, 0x400)]).val 11).v.toNat % 4 = 0 ∧
    Ready (.jr 11) (held [(11, 0x402)]) ∧ ((held [(11, 0x402)]).val 11).v.toNat % 4 ≠ 0 ∧
    Ready (.jlr 10 11) (tagged 11 0x400 (held [])) ∧ ((tagged 11 0x400 (held [])).val 11).t = true ∧
    ((1 : BitVec 18) ≠ 0 ∨ (3 : BitVec 4) = 0) ∧ ((0 : BitVec 18) ≠ 0 ∨ (0 : BitVec 4) = 0) := by decide +kernel

/-- FloatResults, VectorFloats: the instructions are ready, without an enabled flag, and with the inexact flag enabled, which
a sum of 1 and 2^-30 raises. -/
theorem test_witness_floats :
    (∀ i ∈ [Instr.fAdd 10 11 12, .fSub 10 11 12, .fMul 10 11 12, .fDiv 10 11 12, .fSqrt 10 11, .fMin 10 11 12, .fMax 10 11 12,
      .fFma 10 11 12, .fAbs 10 11, .fNeg 10 11, .fCvtFi 10 11, .fCvtIf 10 11, .fCvtIft 10 11, .fCvtBf 10 11, .fCvtFb 10 11,
      .fCvt8f 10 11, .fCvtF8 10 11, .fClass 10 11, .vAddF32 16 24 32, .vSubF32 16 24 32, .vMulF32 16 24 32, .vMinF32 16 24 32,
      .vMaxF32 16 24 32, .vCmpltF32 16 24 32, .vRcpF32 16 24, .vCvtFi 16 24, .vCvtIf 16 24, .vCvtBf 16 24, .vCvtFb 16 24,
      .vMax0 16 24, .vFmaF32 16 24 32, .vSumF32 10 24],
      Ready i (held [(11, 0x3F800000), (12, 0x30800000)]) ∧ Ready i (on { thread with fctl := 0x100000 } [])) ∧
    (∀ fl : BitVec 5, (fl &&& (held []).fctlNow.extractLsb' 16 5) = 0) ∧
    (fAdd 0 0x3F800000 0x30800000).2 &&& (on { thread with fctl := 0x100000 } []).fctlNow.extractLsb' 16 5 ≠ 0 := by
  decide +kernel

/-- VfResults: the instructions are ready, and both ends of R252 occur: EXACT clear, and set with an inexact sum (R252's own
example). -/
theorem test_witness_vf :
    (∀ i ∈ [Instr.vfAdd 26 24 25, .vfSub 26 24 25, .vfMul 26 24 25, .vfDiv 26 24 25, .vfSqrt 26 24, .vfFma 26 24 25, .vfNeg 26 24,
      .vfAbs 26 24, .vfMov 26 24, .vfFromF 26 24, .vfFromI 26 24, .vfRnd 26 24, .vfToF 26 24, .vfToI 26 24], Ready i (held [])) ∧
    (held []).me.vctl.getLsbD 0 = false ∧
    (let x := { thread with vctl := 1, prec := 8 }
     let one := (after (.vfFromF 24 21) (on x [(21, 0x3F800000)])).map (fun t => (t.cell 70 16).v)
     let eps := (after (.vfFromF 25 22) (on x [(22, 0x3B800000)])).map (fun t => (t.cell 70 17).v)
     (slotAfter (.vfAdd 26 24 25) (on x [(24, one.getD 0), (25, eps.getD 0)] { tvec := 1 })).map
       (fun y => (y.tcause.toNat % 256, y.tval)) = some (0x09, 1)) := by decide +kernel

/-! ### Witnesses: rounding and special operands -/

/-- FloatCompares: a tagged operand of each form. -/
theorem test_witness_tagged_compares :
    (∀ i ∈ [Instr.pcmpFEq 1 0 1 11 12, .pcmpFLt 1 0 1 11 12, .pcmpFLe 1 0 1 11 12, .pcmpFUn 1 0 1 11 12, .pcmpVfEq 1 0 0 11 12,
      .pcmpVfLt 1 0 0 11 12, .pcmpVfLe 1 0 0 11 12], Ready i (tagged 11 0 (held []))) ∧
    ((tagged 11 0 (held [])).val 11).t = true ∧ ((tagged 11 0 (held [])).vfVal 11).2.2 = true := by decide +kernel

/-- FloatValues: numbers, zero and not, whose product, quotient and root are asked for; the ends of the exponent field. -/
theorem test_witness_numbers :
    num32 0x3F800000 = .fin false (2 ^ 23) (-23) ∧ num32 0xBF800000 = .fin true (2 ^ 23) (-23) ∧
    (num32 0x3F800000).rat ≠ 0 ∧ 0 < (num32 0x3F800000).rat ∧ (num32 0).isNan = false ∧
    (0x3F800000 : BitVec 32).extractLsb' 23 8 ≠ 255 ∧ (0x00000001 : BitVec 32).extractLsb' 23 8 ≠ 255 := by
  refine ⟨by decide +kernel, by decide +kernel, ?_, ?_, by decide +kernel, by decide +kernel, by decide +kernel⟩ <;>
    rw [show num32 0x3F800000 = .fin false (2 ^ 23) (-23) by decide +kernel] <;> norm_num [FNum.rat]

/-- FloatValues: a unit at the last bit and above it; an exact and an inexact quotient, below, at and above the half, with and
without a rest, of either sign. -/
theorem test_witness_quantize :
    (quantize 0 false 5 0 false 0).2 = false ∧ (quantize 0 false 4 0 false 2).2 = false ∧
    (∀ mode ∈ [0, 1, 2, 3, 4], ∀ neg ∈ [false, true], ∀ m ∈ [5, 6, 7], ∀ st ∈ [false, true],
      (quantize mode neg m 0 st 2).2 = true) ∧
    (2 * (5 % 4) < 4 ∧ 2 * (6 % 4) = 4 ∧ 4 < 2 * (7 % 4)) := by decide +kernel

theorem power_times_unit (n : Nat) (k : Int) : ((2 ^ n : Nat) : ℚ) * 2 ^ (k - n) = 2 ^ k := by
  push_cast
  rw [← zpow_natCast, ← zpow_add₀ (by norm_num)]
  congr 1
  omega

/-- FloatValues: 1, which each format holds, and 2 to the power beyond its largest exponent. -/
theorem test_witness_formats : ∀ f ∈ [fmt32, fmtBF16, fmt64], ∀ k ∈ [0, f.emax + 1],
    let q := max (k + bitLen 1 - f.p) (f.emin - f.p + 1)
    ((quantize 0 false 1 k false q).1 : ℚ) * 2 ^ q = 2 ^ k := by
  intro f hf k hk
  have h : max (k + bitLen 1 - f.p : Int) (f.emin - f.p + 1) = k - (f.p - 1 : Nat) ∧
      (quantize 0 false 1 k false (k - (f.p - 1 : Nat))).1 = 2 ^ (f.p - 1) := by
    revert k f
    decide +kernel
  simp only [h.1, h.2]
  exact power_times_unit _ _

theorem pow_eq_zpow (n : Nat) (k : Int) (h : k = n) : (2 : ℚ) ^ n = ((1 : Nat) : ℚ) * 2 ^ k := by
  rw [h, zpow_natCast, Nat.cast_one, one_mul]

/-- FloatValues: VF values of one bit in the range, beyond it and below it. -/
theorem test_witness_vf_range (e : Int) : (quantize 0 false 1 e false (e + bitLen 1 - 1)).1 = 1 ∧ e + bitLen 1 - 1 = e ∧
    ((2 : ℚ) ^ (-32766 : Int) ≤ (1 : Nat) * 2 ^ (0 : Int) ∧ ((1 : Nat) : ℚ) * 2 ^ (0 : Int) < 2 ^ 32768) ∧
    (2 : ℚ) ^ 32768 ≤ (1 : Nat) * 2 ^ (32768 : Int) ∧ ((1 : Nat) : ℚ) * 2 ^ (-32767 : Int) < 2 ^ (-32766 : Int) := by
  have hb : bitLen 1 = 1 := by decide +kernel
  refine ⟨by simp [quantize, hb], by simp [hb], ⟨?_, ?_⟩, (pow_eq_zpow _ _ rfl).le, ?_⟩
  · rw [zpow_zero, mul_one, Nat.cast_one]
    exact zpow_le_one_of_nonpos₀ (by norm_num) (by norm_num)
  · rw [zpow_zero, mul_one, Nat.cast_one]
    exact one_lt_pow₀ (by norm_num) (by norm_num)
  · rw [Nat.cast_one, one_mul]
    exact zpow_lt_zpow_right₀ (by norm_num) (by norm_num)

/-- FloatResults: operands at the bounds of each clause: zeros, the least and the greatest number, infinities, NaNs of both
kinds; and conversions to F8 and integers within and beyond the format. -/
theorem test_witness_special_operands :
    ([0x7F800000, 0xFF800000, 0, 0x80000000] : List (BitVec 32)).map (fun z => z.toNat % 2 ^ 31) = [0x7F800000, 0x7F800000, 0, 0] ∧
    ([1, 0x807FFFFF, 0x00800000, 0xFF7FFFFF] : List (BitVec 32)).all (fun z =>
      0 < z.toNat % 2 ^ 31 && z.toNat % 2 ^ 31 < 0x7F800000) = true ∧
    ([0x7F800001, 0xFFFFFFFF] : List (BitVec 32)).all (fun z => 0x7F800000 < z.toNat % 2 ^ 31) = true ∧
    (0x3F80 : BitVec 16) ++ (0 : BitVec 16) = (0x3F800000 : BitVec 32) ∧
    (0x7F : BitVec 8).toNat % 128 = 127 ∧ (0x7E : BitVec 8).toNat % 128 ≠ 127 := by decide +kernel

/-- FloatResults: the largest F8 number, and a number half a unit above it, rounded to the nearest and up. -/
theorem test_witness_f8_ends : num32 0x43E00000 = .fin false 0xE00000 (-15) ∧ num32 0x43E80000 = .fin false 0xE80000 (-15) ∧
    (quantize 0 false 0xE00000 (-15) false 5).1 = 14 ∧ (quantize 0 false 0xE80000 (-15) false 5).1 = 14 ∧
    (quantize 2 false 0xE80000 (-15) false 5).1 = 15 := by decide +kernel

/-- FloatResults: 14 units of 2^5 are the largest F8 number and 15 are beyond it. -/
theorem test_witness_largest_f8 : ((14 : Nat) : ℚ) * 2 ^ (5 : Int) ≤ 448 ∧ 448 < ((15 : Nat) : ℚ) * 2 ^ (5 : Int) := by norm_num

/-- VfResults: cells with each exponent; the least and the greatest number that one cell holds; a number that vf.rnd rounds to
an integer, and one of more bits than P. -/
theorem test_witness_vf_images :
    (∀ e ∈ [((0x7FFF800000000000 : Word), 0xFFFF, false), (0x7FFF800000000001, 0xFFFF, false), (0, 0, false),
        (0x8000000000000001, 0, false), (0x0000800000000000, 1, false), (0x7FFF008000000000, 0xFFFE, true)],
      e.1.toNat / 2 ^ 47 % 2 ^ 16 = e.2.1 ∧ e.1.getLsbD 39 = e.2.2) ∧
    (∀ e ∈ [(1, -32766), (2 ^ 40 - 1, 32728)], bitLen e.1 ≤ 40 ∧ -32766 ≤ (e.2 : Int) + bitLen e.1 - 1 ∧
      e.2 + bitLen e.1 - 1 ≤ 32767) ∧
    ((8 : Int) < 0 + bitLen 256 ∧ ¬ (8 : Int) < 0 + bitLen 255) := by decide +kernel

/-! ### Witnesses: frames, traps, checks -/

/-- CellWrites: name zero, the lowest window name, a connected port; predicate 0 and another; an index at the window's last
cell and one past it. -/
theorem test_witness_writes :
    (held []).cur = .slot 70 3 ∧ 8 ≤ (8 : Name).toNat ∧ 8 ≤ (127 : Name).toNat ∧ Name.isPort 2 = true ∧
    (held []).portTo 70 2 = some 71 ∧
    (∀ i ∈ [Instr.rdx 10 11 0, .wrx 0 11 12], Ready i (held [(11, 127)]) ∧ Ready i (held [(11, 128)])) ∧
    ((held [(11, 127)]).val 11).t = false ∧
    ((held [(11, 127)]).val 11).v.toNat < ((held [(11, 127)]).slot 70 3).wlim.toNat ∧
    ((held [(11, 128)]).slot 70 3).wlim.toNat ≤ ((held [(11, 128)]).val 11).v.toNat := by decide +kernel

/-- ComputeFrame: no enabled flag, and a next state. -/
theorem test_witness_frame : (held []).fctlNow.extractLsb' 16 5 = 0 ∧ (held []).me.vctl.getLsbD 0 = false ∧
    (∀ i ∈ [Instr.add 10 11 12, .fAdd 10 11 12, .vfAdd 10 11 12, .vAddI32 16 24 32, .lui 10 5], Ready i (held []) ∧
      (after i (held [])).isSome = true) ∧ Name.isPort 10 = false := by decide +kernel

/-- TrapEntry: outside a handler with one installed; in one, and with none, with nothing in flight. -/
theorem test_witness_trap_entry :
    (let s := on thread [] { tvec := 1 }
     (s.slot 70 3).inHandler = false ∧ (s.core 70).tvec.getLsbD 0 = true ∧ (s.core 70).smpl.getLsbD 4 = false) ∧
    (∀ s ∈ [on { thread with inHandler := true } [] { tvec := 1 }, held []],
      ((s.slot 70 3).inHandler = true ∨ (s.core 70).tvec.getLsbD 0 = false) ∧ (s.core 70).smpl.getLsbD 4 = false ∧
      s.busySlot 70 3 false = false ∧ (s.slot 70 3).task = 0 ∧ (s.slot 70 3).moved = [] ∧
      [(s.slot 70 3).bmem0, (s.slot 70 3).bmem1, (s.slot 70 3).bmem2, (s.slot 70 3).bmem3].all
        (fun b => b.getLsbD 63 = false) = true) := by decide +kernel

/-- TrapInstructions: at user level; eret in a handler and outside one. -/
theorem test_witness_trap_instructions : Ready (.trap 5) (held []) ∧ Ready (.brk 0x3FFF) (held []) ∧
    (let s := on { thread with level := .sup, inHandler := true } []
     Ready .eret s ∧ s.me.inHandler = true ∧ (s.core 70).smpl.getLsbD 4 = false) ∧
    (let s := on { thread with level := .sup } []
     Ready .eret s ∧ s.me.inHandler = false) := by decide +kernel

/-- LevelAndWindowTraps: a level below the need, and a name beyond the window; on the Vrelell core a word that it runs. -/
theorem test_witness_levels :
    (∀ i ∈ [Instr.eret, .tlbinv 11, .csave, .crest, .halt, .pstop 11, .mts 11 0x102], i.wf = true ∧
      needLevel 70 i = some .sup ∧ (held []).me.level.meets .sup = false) ∧
    (let s := on { thread with wlim := 8 } []
     (Instr.add 16 8 15).wf = true ∧ needLevel 70 (.add 16 8 15) = some .user ∧ s.me.level.meets .user = true ∧
       windowed (.add 16 8 15) s = false ∧ windowed (.add 15 8 15) s = true) ∧
    vrelellAllows (encode (.add 16 8 15)) = true := by decide +kernel

/-- IssueHolds: a port at the edge of the mesh, read and written; an empty port; a counter at 255. -/
theorem test_witness_holds :
    (let s := on thread [] {} 0
     (Instr.addi 10 1 0).wf = true ∧ windowed (.addi 10 1 0) s = true ∧ windowed (.addi 4 11 0) s = true ∧
       s.portTo 0 1 = none ∧ s.portTo 0 4 = none) ∧
    (let s := held []
     (Instr.addi 3 2 0).wf = true ∧ windowed (.addi 3 2 0) s = true ∧ (s.portTo 70 2).isSome = true ∧
       (s.portTo 70 3).isSome = true ∧ (s.slot 70 3).queue 2 = []) ∧
    (let s := on { thread with loads := 255 } [(11, 0x100)]
     Ready (.ldD 10 11 0) s ∧ 255 ≤ s.me.loads ∧
       access ((s.val 11).v + (0 : BitVec 12).signExtend 64) 8 8 .load .plain false s =
         .ok ({ pa := scrBase 70 + 0x100, cls := 0 }, s) ∧ s.badWord (scrBase 70 + 0x100) 8 = none) ∧
    (let s := on { thread with stores := 255 } [(11, 0x100)]
     Ready (.stD 0 11 12) s ∧ 255 ≤ s.me.stores ∧
       access ((s.val 11).v + (0 : BitVec 12).signExtend 64) 8 8 .store .plain (s.val 12).t s =
         .ok ({ pa := scrBase 70 + 0x100, cls := 0 }, s)) := by decide +kernel

/-- A translation buffer that holds a page of core 70's channel with the given permissions, at 0x200000. -/
def paged (flags : BitVec 8) (cs : List (Name × Word)) : State :=
  on thread cs { ptroot := 1, tlb := [{ asid := 0, va := 0x200000, shift := 12, pa := chanBase 70, flags := flags }] }

/-- DataAccess: the last aligned address of scratch and the first beyond it; no translation, one that permits and one that does
not; a walk that fails, and one that finds a leaf. -/
theorem test_witness_access :
    (let s := held []
     (0xFFFF8 : Word).toNat % 8 = 0 ∧ (0xFFFF8 : Word).toNat + 8 ≤ 2 ^ 20 ∧ (s.core 70).shadow = [] ∧ s.seals = [] ∧
       (0xFFFFC : Word).toNat % 4 = 0 ∧ (0xFFFFC : Word).toNat < 2 ^ 20 ∧ 2 ^ 20 < (0xFFFFC : Word).toNat + 8 ∧
       (1 : Word).toNat % 8 ≠ 0 ∧ s.tlbFind 70 0x200000 = none) ∧
    (let s := paged 0x0D []
     let l : Leaf := { pa := chanBase 70, shift := 12, flags := 0x0D }
     s.tlbFind 70 0x200000 = some l ∧ s.reachable 70 (l.pa + 0x200000 % 2 ^ l.shift) 8 = true ∧
       permFails l.flags .load (s.slot 70 3).level = true) ∧
    (let s := paged 0x2D []
     s.tlbFind 70 0x200FF8 = some { pa := chanBase 70, shift := 12, flags := 0x2D } ∧
       access 0x200FF8 8 8 .store .plain false s = .ok ({ pa := chanBase 70 + 0xFF8, cls := 0 }, s)) := by decide +kernel

/-- An operation of slot 3 of core 70, numbered 7. -/
def anOp (kind : OpKind) (cls : Option CClass := none) (live : Bool := true) : Op :=
  { id := 7, g := 70, k := 3, live := live, cls := cls, seq := 1, major := 0, fn := 0
    ptroot := BitVec.ofNat 64 (chanBase 70 + 1), level := .user, kind := kind }

/-- A state with that operation in flight, which the event at hand is about. -/
def flying (kind : OpKind) (cls : Option CClass := none) (s : State := held []) (live : Bool := true) : State :=
  { s with ev := { s.ev with id := 7, g := 70 }, nextId := 8, ops := [anOp kind cls live] }

/-- The operation of such a state. -/
def theOp (s : State) : Op := s.ops.headD (anOp .fuse)

/-- DataAccess: a walk to a leaf of the largest size, and one from an empty table. -/
theorem test_witness_walk :
    (let s := flying (.walk 0x200000 .load) none { held [] with mem := [(chanBase 70, 0x3D)] }
     s.op? s.ev.id = some (theOp s) ∧ (theOp s).live = true ∧ (theOp s).cls = none ∧
       s.walk 70 (theOp s).ptroot 0x200000 = .ok { pa := 0, shift := 33, flags := 0x3D }) ∧
    (let s := flying (.walk 0x200000 .load)
     s.op? s.ev.id = some (theOp s) ∧
       s.walk 70 (theOp s).ptroot 0x200000 = .error ⟨cXLT, 0x200000, 0⟩) := by decide +kernel

/-! ### Witnesses: memory, atomics, waits -/

theorem forall₂_map_of {α β : Type} {R : α → β → Prop} {f : α → β} (l : List α) (h : ∀ x ∈ l, R x (f x)) :
    List.Forall₂ R l (l.map f) := by
  induction l with
  | nil => exact .nil
  | cons a t ih => exact .cons (h a (by simp)) (ih (fun x hx => h x (by simp [hx])))

/-- The scratch word of core 70 at an offset. -/
def scr (o : Nat) : Target := { pa := scrBase 70 + o, cls := 0 }

/-- LoadsIssue: each load of the core's own scratch is ready, and its access permitted. -/
theorem test_witness_loads : let s := held [(11, 0x100)]
    s.me.loads < 255 ∧ (s.val 11).t = false ∧
    (∀ e ∈ [(Instr.ldB 10 11 1, 1), (.ldBu 10 11 0, 1), (.ldH 10 11 2, 2), (.ldHu 10 11 0, 2), (.ldW 10 11 4, 4), (.ldWu 10 11 0, 4),
      (.ldD 10 11 8, 8)], Ready e.1 s ∧
      access ((s.val 11).v + (8 : BitVec 12).signExtend 64) e.2 e.2 .load .plain false (s.took 11) = .ok (scr 0x108, s.took 11) ∧
      (s.took 11).badWord (scr 0x108).pa e.2 = none) ∧
    Ready (.ldV 16 11) s ∧ access (s.val 11).v 64 64 .load .plain false (s.took 11) = .ok (scr 0x100, s.took 11) ∧
    (s.took 11).badWord (scr 0x100).pa 64 = none ∧
    Ready (.ldN 10 11 1) s ∧ access (s.val 11).v 1 1 .load .plain false (s.took 11) = .ok (scr 0x100, s.took 11) ∧
    Ready (.vGather 16 11 24) s ∧ (s.vec 24).2.all (fun t => !t) = true ∧ Ready (.vfLd 16 11 0) s := by decide +kernel

/-- LoadsIssue: the lanes of a gather and the parts of a VF load are permitted. -/
theorem test_witness_gather : let s := held [(11, 0x100)]
    (∃ ts : List (Nat × Bool), List.Forall₂ (fun va p => ∃ t, access va 4 4 .load .plain false (s.took 11) = .ok (t, s.took 11) ∧
      (s.took 11).badWord t.pa 4 = none ∧ p = (t.pa, decide (t.cls = 1)))
      ((s.vec 24).1.map (fun o => (s.val 11).v + o.signExtend 64)) ts) ∧
    (∃ ps : List (List (Nat × Bool) × Bool), List.Forall₂ (fun (e : Word × Nat) p => ∃ t,
      access e.1 e.2 1 .load .plain false (s.took 11) = .ok (t, s.took 11) ∧ (s.took 11).badWord t.pa e.2 = none ∧
      p = ((List.range e.2).map (fun j => (t.pa + j, decide (t.cls = 1))), decide (t.cls = 2))) (chunksOf ((s.val 11).v) 4) ps) := by
  refine ⟨⟨_, forall₂_map_of (f := fun _ => (scrBase 70 + 0x100, false)) _ fun x hx => ⟨scr 0x100, ?_⟩⟩,
    ⟨_, forall₂_map_of (f := fun e => ((List.range e.2).map (fun j => (scrBase 70 + 0x100 + j, false)), false)) _
      fun x hx => ⟨scr 0x100, ?_⟩⟩⟩
  · rw [show (held [(11, 0x100)]).vec 24 = (List.replicate 16 0, List.replicate 8 false) by decide +kernel] at hx
    obtain ⟨y, hy, rfl⟩ := List.mem_map.mp hx
    obtain rfl := List.eq_of_mem_replicate hy
    decide +kernel
  · rw [show chunksOf ((held [(11, 0x100)]).val 11).v 4 = [(0x100, 4)] by decide +kernel] at hx
    obtain rfl := List.mem_singleton.mp hx
    decide +kernel

/-- LoadCompletes: a load of a byte and of a word, signed and not. -/
theorem test_witness_load_completes : ∀ n ∈ [1, 2, 4, 8],
    let s := flying (.load (.scalar n true) [(scrBase 70 + 0x100, false)] (some 5)) (some .loads)
    let o := theOp s
    s.op? s.ev.id = some o ∧ o.kind = .load (.scalar n true) [(scrBase 70 + 0x100, false)] (some 5) ∧ o.live = true ∧
      o.cls = some .loads ∧ s.isFirst o = true ∧ s.badWord (scrBase 70 + 0x100) n = none ∧ 5 < numCells o.g := by decide +kernel

/-- StoresIssue: the stores to the core's own scratch, and the words of a scatter and of a VF store. -/
theorem test_witness_stores : let s := held [(11, 0x100)]
    s.me.stores < 255 ∧ (s.val 11).t = false ∧
    (∀ e ∈ [(Instr.stB 0 11 12, 1), (.stH 0 11 12, 2), (.stW 0 11 12, 4), (.stD 0 11 12, 8)], Ready e.1 s ∧
      access ((s.val 11).v + (0 : BitVec 12).signExtend 64) e.2 e.2 .store .plain ((s.took 11).val 12).t ((s.took 11).took 12) =
        .ok (scr 0x100, (s.took 11).took 12)) ∧
    Ready (.stV 11 16) s ∧
    access (s.val 11).v 64 64 .store .plain ((s.group 16 8).any (·.t)) (s.took 11) = .ok (scr 0x100, s.took 11) ∧
    Ready (.stN 1 11 12) s ∧ Ready (.vScatter 16 11 24) s ∧ (s.vec 24).2.all (fun t => !t) = true ∧
    Ready (.vfSt 0 11 12) s ∧ s.me.vctl.getLsbD 0 = false := by decide +kernel

theorem test_witness_scatter : let s := held [(11, 0x100)]
    ∃ ws : List WordWrite, List.Forall₂ (fun (e : Nat × Word) w => ∃ t,
      access e.2 4 4 .store .plain ((s.vec 16).2.getD (e.1 / 2) false) (s.took 11) = .ok (t, s.took 11) ∧
      w = wordWrite t.pa 4 ((laneAt (s.vec 16).1 e.1).setWidth 64) ((s.vec 16).2.getD (e.1 / 2) false))
      ((List.range 16).zip ((s.vec 24).1.map (fun o => (s.val 11).v + o.signExtend 64))) ws := by
  refine ⟨_, forall₂_map_of (f := fun e => wordWrite (scrBase 70 + 0x100) 4
    ((laneAt ((held [(11, 0x100)]).vec 16).1 e.1).setWidth 64) (((held [(11, 0x100)]).vec 16).2.getD (e.1 / 2) false)) _
    fun x hx => ⟨scr 0x100, ?_, rfl⟩⟩
  rw [show (List.range 16).zip (((held [(11, 0x100)]).vec 24).1.map (fun o => ((held [(11, 0x100)]).val 11).v + o.signExtend 64)) =
    (List.range 16).map (fun j => (j, (0x100 : Word))) by decide +kernel] at hx
  obtain ⟨y, hy, rfl⟩ := List.mem_map.mp hx
  revert y
  decide +kernel

/-- StoresIssue: the parts of a VF store: four bytes at an address with no more cells. -/
theorem test_witness_vf_store : let s := held [(11, 0x100)]
    let x := s.vfVal 12
    let q := vfRound s.me.prec.toNat s.vctlMode { x := x.1 }
    let bs := (List.range 4).map (fun j => (vfMemImage s.me.prec.toNat q.1).1.extractLsb' (8 * j) 8)
      ++ (vfMemImage s.me.prec.toNat q.1).2
    chunksOf 0x100 bs.length = [(0x100, 4)] ∧
    access 0x100 4 1 .store .plain x.2.2 s = .ok (scr 0x100, s) := by decide +kernel

/-- StoresApply: memory in its canonical form, and a store that is first at its word. -/
theorem test_witness_store_applies :
    let s := flying (.store [wordWrite (scrBase 70 + 0x100) 8 5 false]) (some .stores)
    Memory.wf s.mem = true ∧ Memory.wf [(5, 1), (9, 2)] = true ∧ s.op? s.ev.id = some (theOp s) ∧ (theOp s).live = true ∧
      (theOp s).cls = some .stores ∧ s.isFirst (theOp s) = true := by decide +kernel

/-- FullEmptyWords: the instructions are sent; each form applies to a full and to an empty word. -/
theorem test_witness_full_empty :
    (let s := held [(11, 0x100)]
     s.me.loads < 255 ∧ (s.val 11).t = false ∧
     (∀ i ∈ [Instr.ldFe 10 11, .ldFx 10 11, .stEf 11 12, .stFs 11 12, .stFc 11 12], Ready i s) ∧
     access (s.val 11).v 8 8 .atomic .fullEmpty false s = .ok (scr 0x100, s) ∧ s.badWord (scr 0x100).pa 8 = none) ∧
    (∀ f ∈ [FullEmpty.ldFe, .ldFx, .stEf, .stFs, .stFc], ∀ tags ∈ [([] : Sparse (BitVec 3)), [((scrBase 70 + 0x100) / 8, 1)]],
      let s := flying (.fullEmpty f (scrBase 70 + 0x100) 0x100 {} none) none { held [] with tags := tags }
      s.op? s.ev.id = some (theOp s) ∧ (theOp s).live = true ∧ s.isFirst (theOp s) = true ∧
        s.ops.all (fun p => !(p.id < (theOp s).id)) = true) ∧
    (({ held [] with tags := [((scrBase 70 + 0x100) / 8, 1)] } : State).tagOf (scrBase 70 + 0x100)).getLsbD 0 = true ∧
    ((held []).tagOf (scrBase 70 + 0x100)).getLsbD 0 = false := by decide +kernel

/-- Watches: the last word of scratch, watched and not; eight watches; the ready bit clear and set. -/
theorem test_witness_watches :
    (let s := on { thread with watches := [0x1FFFF] } [(11, 0xFFFF8)]
     Ready (.watch 11) s ∧ Ready (.unwatch 11) s ∧ (s.val 11).v.toNat % 8 = 0 ∧ (s.val 11).v.toNat + 8 ≤ 2 ^ 20 ∧
       (s.val 11).v.toNat / 8 ∈ s.me.watches ∧ (s.core 70).shadow = []) ∧
    (let s := on { thread with watches := [0, 1, 2, 3, 4, 5, 6] } [(11, 0xFFFF8)]
     Ready (.watch 11) s ∧ (s.val 11).v.toNat / 8 ∉ s.me.watches ∧ s.me.watches.length < 8) ∧
    (let s := on { thread with watches := [0, 1, 2, 3, 4, 5, 6, 7] } [(11, 0xFFFF8)]
     Ready (.watch 11) s ∧ (s.val 11).v.toNat / 8 ∉ s.me.watches ∧ 8 ≤ s.me.watches.length) ∧
    Ready .waita (held []) ∧ (held []).me.ready = false ∧ Ready .waita (on { thread with ready := true } []) := by decide +kernel

/-- Atomics: the forms are accepted; amo.cas meets its compare value, and does not. -/
theorem test_witness_atomics :
    (let s := held [(11, 0x100), (13, 0x3F800000)]
     s.me.loads < 255 ∧ s.me.stores < 255 ∧ (s.val 11).t = false ∧
     (∀ i ∈ [Instr.amoAdd 10 11 12, .amoAnd 10 11 12, .amoOr 10 11 12, .amoXor 10 11 12, .amoMin 10 11 12, .amoMax 10 11 12,
       .amoXchg 10 11 12, .amoCas 10 11 12, .redAdd 11 12, .redOr 11 12, .redMax 11 12, .redEw 12 11 13], Ready i s) ∧
     access (s.val 11).v 8 8 .atomic .plain (s.val 12).t s = .ok (scr 0x100, s) ∧ s.badWord (scr 0x100).pa 8 = none ∧
     (s.val 10).t = false ∧ windowExpOk ((s.val 12).v.extractLsb' 0 32).toInt = true ∧
     ((windowOf 64 0 (num32 0x3F800000)).2 &&& s.fctlNow.extractLsb' 16 5) = 0) ∧
    (∀ s ∈ [flying (.atomic .cas (scrBase 70 + 0x100) {} 0 false (some 5)) (some .loads),
        flying (.atomic .cas (scrBase 70 + 0x100) {} 1 false (some 5)) (some .loads)],
      s.op? s.ev.id = some (theOp s) ∧ (theOp s).live = true ∧ s.isFirst (theOp s) = true ∧
        s.badWord (scrBase 70 + 0x100) 8 = none ∧ s.read64 (scrBase 70 + 0x100) = 0) ∧
    (let s := flying (.red .add (scrBase 70 + 0x100) {} false) (some .stores)
     s.op? s.ev.id = some (theOp s) ∧ s.isFirst (theOp s) = true) := by decide +kernel

/-! ### Witnesses: waits, publish, migration, barriers, gangs, messages -/

/-- A deferred fault of a load that is not yet reported. -/
def fault : Pending := { order := 2, code := 0x12, val := 0x100, cls := .loads, seq := 1, sub := 1, major := 0, fn := 0 }

/-- Waits: counters at zero; one that stands in the way of each form; a pending fault that a limit of 0 covers, and one that a
limit of 14 does not; tlbinv of 0 and of an address; yield. -/
theorem test_witness_waits :
    (∀ i ∈ [Instr.fence 0, .acq 4, .rel 4, .wait 0 0 0 0, .wait 15 15 15 15, .ifence, .yield], Ready i (held [])) ∧
    (held []).waitMet 70 3 0 0 15 15 = true ∧ (held []).me.pend = [] ∧
    (let s := on { thread with loads := 1, stores := 1 } []
     s.waitMet 70 3 0 0 15 15 = false ∧ s.waitMet 70 3 0 15 15 15 = false ∧ s.waitMet 70 3 15 0 15 15 = false ∧
       s.waitMet 70 3 1 1 14 14 = true) ∧
    (let s := on { thread with pend := [fault] } []
     Ready (.wait 0 15 15 15) s ∧ s.waitMet 70 3 0 15 15 15 = true ∧ s.me.inHandler = false ∧
       s.me.pend.find? (fun q => covers0 0 15 15 15 q.cls) = some fault ∧
       s.me.pend.find? (fun q => covers0 14 15 15 15 q.cls) = none) ∧
    (∀ s ∈ [on { thread with level := .sup } [], on { thread with level := .sup } [(11, 0x1FFFFFFFFFFFF)]],
      Ready (.tlbinv 11) s ∧ (s.val 11).v.toNat < 2 ^ 49) ∧
    ((on { thread with level := .sup } []).val 11).v = 0 := by decide +kernel

/-- A publish descriptor of 4 KiB halves at 0x4000 in the scratch of core 70, with an operation. -/
def publishing (op : Byte) (shadow : Sparse Shadow) : State :=
  { on thread [(11, 0x100)] { shadow := shadow } with
    mem := [(scrBase 70 + 0x101, 0x40), (scrBase 70 + 0x105, 0x10)] ++ (if op = 0 then [] else [(scrBase 70 + 0x108, op)]) }

/-- Publish: a declare of a free entry, a flip and a retire of a used one, and a declare of a used one. -/
theorem test_witness_publish :
    (∀ e ∈ [((0 : Byte), ([] : Sparse Shadow), false), (1, [(0, { vbase := 0x4000, size := 0x1000 })], false),
        (2, [(0, { vbase := 0x4000, size := 0x1000 })], false), (0, [(0, { vbase := 0x4000, size := 0x1000 })], true)],
      let s := publishing e.1 e.2.1
      Ready (.publish 11) s ∧ (s.val 11).t = false ∧ (s.val 11).v.toNat % 32 = 0 ∧ (s.val 11).v.toNat + 32 ≤ 2 ^ 20 ∧
        access (s.val 11).v 32 32 .load .plain false s = .ok (scr 0x100, s) ∧ s.badWord (scr 0x100).pa 32 = none ∧
        s.waitMet 70 3 0 0 0 0 = true ∧ s.me.pend = [] ∧ (s.shadowDesc (scr 0x100).pa).op = e.1.toNat ∧
        (s.core 70).publishBad (s.shadowDesc (scr 0x100).pa) = e.2.2) := by decide +kernel

/-- Migration: to the core's own scratch, and to core 71's channel, carrying no cell and the whole window. -/
theorem test_witness_migration :
    (∀ s ∈ [held [(11, 0xFFFF8)],
        on thread [(11, 0x200000)] { ptroot := 1, tlb := [{ asid := 0, va := 0x200000, shift := 12, pa := chanBase 71, flags := 0x2D }] }],
      Ready (.mig 11 0) s ∧ Ready (.mig 11 128) s ∧ (128 : BitVec 8).toNat ≤ s.me.wlim.toNat ∧ (s.val 11).t = false ∧
        s.me.inHandler = false ∧ s.isKeystone 70 3 = false ∧ s.waitMet 70 3 0 0 0 0 = true ∧ s.me.pend = [] ∧
        (s.core 70).smpl.getLsbD 4 = false) ∧
    migTarget 0xFFFF8 (held [(11, 0xFFFF8)]) = .ok (70, held [(11, 0xFFFF8)]) ∧
    (let s := on thread [(11, 0x200000)] { ptroot := 1, tlb := [{ asid := 0, va := 0x200000, shift := 12, pa := chanBase 71, flags := 0x2D }] }
     migTarget (s.val 11).v s = .ok (71, s)) := by decide +kernel

/-- BarriersIssue: the instructions on an object of the core's own scratch; bar.init with the last scope, and with the first
code that is none; bar.twait with a limit and without. -/
theorem test_witness_barriers_issue :
    (let s := held [(10, 0x40001), (11, 0x100)]
     s.me.loads < 255 ∧ (s.val 11).t = false ∧ (s.val 11).v.toNat % 32 = 0 ∧
     access (s.val 11).v 32 32 .atomic .barrier false s = .ok (scr 0x100, s) ∧ (s.val 12).t = false ∧ (s.val 10).t = false ∧
     (∀ i ∈ [Instr.barJoin 11, .barInval 11, .barArrive 10 11, .barDrop 10 11, .barExpect 11 12, .barWait 11 12, .barTest 10 11 12,
       .barTwait 10 11 12, .barInit 10 11 12], Ready i s) ∧
     ((s.val 10).v.extractLsb' 16 3).toNat < 5 ∧ (s.val 10).v.extractLsb' 19 45 = 0) ∧
    5 ≤ (((held [(10, 0x50001)]).val 10).v.extractLsb' 16 3).toNat ∧
    (((held [(10, 0x80001)]).val 10).v.extractLsb' 19 45 ≠ 0) ∧
    ((held [(12, 0x500000000)]).val 12).v.extractLsb' 32 32 ≠ 0 := by decide +kernel

/-- A barrier operation in flight at an object with an expected count and arrivals. -/
def atBarrier (op : BarOp) (expect arrived : Byte) : State :=
  flying (.bar (scrBase 70 + 0x100) 0x100 op (some 5)) (some .loads) { held [] with
    mem := (if expect = 0 then [] else [(scrBase 70 + 0x104, expect)]) ++
      (if arrived = 0 then [] else [(scrBase 70 + 0x106, arrived)]) }

/-- BarriersApply: every operation at an object that passes its checks; the arrival that completes a phase, one that does not,
and one too many; an invalid object. -/
theorem test_witness_barriers_apply :
    (∀ op ∈ [BarOp.join, .arrive, .drop, .expect 4, .inval, .wait 0, .wait 1, .test 0, .twait 0 5, .init 0x40002 0],
      let s := atBarrier op 2 1
      let o := theOp s
      s.op? s.ev.id = some o ∧ (s.atUnit o).isSome = true ∧ s.heldBack o = false ∧ s.performedBefore o.g o.k o.id = true ∧
        s.barCheck (s.readBar (scrBase 70 + 0x100)) o.g (ownerOf (scrBase 70 + 0x100)) = none ∧
        (s.readBar (scrBase 70 + 0x100)).expect ≠ 0xFFFF ∧ s.heldBy 70 3 (scrBase 70 + 0x100) = [] ∧
        (s.slot 70 3).freeBmem ≠ none ∧ (s.readBar (scrBase 70 + 0x100)).arrived ≠ (s.readBar (scrBase 70 + 0x100)).expect ∧
        (s.readBar (scrBase 70 + 0x100)).phase = 0) ∧
    (let b := (atBarrier .arrive 2 2).readBar (scrBase 70 + 0x100)
     b.arrived = b.expect ∧ b.barr = b.bexp) ∧
    (let s := flying (.bar (scrBase 70 + 0x100) 0x100 .arrive none) none { held [] with mem := [(scrBase 70 + 0x102, 8)] }
     s.barCheck (s.readBar (scrBase 70 + 0x100)) 70 (ownerOf (scrBase 70 + 0x100)) = some 1) ∧
    (held []).covers ((0x40002 : Word).extractLsb' 16 3).toNat 70 (ownerOf (scrBase 70 + 0x100)) = true := by decide +kernel

/-- BarriersApply: a wait behind a store and behind a load of its slot, one of its object and one of another word. -/
theorem test_witness_barrier_order :
    ∀ e ∈ [(OpKind.store [wordWrite (scrBase 70 + 0x118) 8 5 false], CClass.stores, true),
        (.load (.scalar 8 false) [(scrBase 70 + 0x120, false)] none, .loads, false)],
      let s0 := atBarrier (.wait 0) 2 1
      let s := { s0 with ops := { anOp e.1 (some e.2.1) with id := 6 } :: s0.ops }
      let o := anOp (.bar (scrBase 70 + 0x100) 0x100 (.wait 0) none)
      o.live = true ∧ s.touchedBefore 70 3 7 (scrBase 70 + 0x100) 32 = e.2.2 ∧
        s.performedBefore 70 3 7 = false ∧ BarOp.isRelease (.wait 0) = false := by decide +kernel

/-- BarrierAnswers: each kind of answer, in time and at its limit. -/
theorem test_witness_barrier_answers :
    ∀ kind ∈ [OpKind.barAnswer 0x100 (.applied (some 1)) (some 5), .barAnswer 0x100 (.refused 4) none, .nodeAnswer,
      .barNotice 0x100 0 none (some 5), .barNotice 0x100 1 (some 0) (some 5), .barPending 0 0x100 0 (some 0) (some 5)],
      let s := flying kind
      s.op? s.ev.id = some (theOp s) ∧ (theOp s).live = true ∧ (s.core 70).cyc ≤ 0 ∧ 5 < numCells 70 := by decide +kernel

/-- A gang of slots 3 of cores 70 and 71, the first of which waits at its first sync. -/
def syncing : State :=
  { on { thread with gang := some (4, 0), syncs := 1, blocked := some .sync } [] with
    gangs := [{ id := 4, task := {}, cores := [70, 71], st := .bound, slot := 3, counts := [some 1, some 1] }]
    ev := { id := 4 } }

/-- GangSync: no gang, a member, and a release. -/
theorem test_witness_sync : Ready .sync (held []) ∧ (held []).me.gang = none ∧
    (let s := { syncing with cores := [(70, { slots := [(3, { thread with gang := some (4, 0) })] })] }
     Ready .sync s ∧ s.me.gang = some (4, 0)) ∧
    (let s := syncing
     (s.gangs.find? (fun b => b.id = s.ev.id)).isSome = true ∧ (s.gangSlots s.ev.id).Nodup ∧ (70, 3) ∈ s.gangSlots s.ev.id ∧
       (s.slot 70 3).blocked = some .sync ∧ s.performedBefore 70 3 s.nextId = true ∧
       (s.gangs.map (fun a => decide ((s.slot 70 3).syncs ≤ a.low))) = [true]) := by decide +kernel

/-- Mail for slot 3. -/
def letter : Mail := { slot := 3, payload := 5, header := 9 }

/-- Messages: a destination that may be named and one that may not; a message held, and none. -/
theorem test_witness_messages :
    (let s := held [(11, 0x01070003)]
     Ready (.smsg 11 12) s ∧ (s.val 11).t = false ∧ (s.val 12).t = false ∧ s.msgBad 70 (msgDest (s.val 11).v) = false ∧
       s.me.stores < 255) ∧
    (held []).msgBad 70 (msgDest 0x40) = true ∧ Ready (.smsg 11 12) (held [(11, 0x40)]) ∧
    (∀ i ∈ [Instr.rmsg 40, .wmsg 40, .mq 41], Ready i (held []) ∧ Ready i (on thread [] { mailbox := [letter] })) ∧
    ((on thread [] { mailbox := [letter] }).core 70).mailbox.filter (fun m => m.slot = 3) = [letter] ∧
    ((held []).core 70).mailbox.filter (fun m => m.slot = 3) = [] ∧ ((held []).core 70).mailbox.length ≤ mailCap 70 ∧
    (held []).me.drop < 2 ^ 16 := by decide +kernel

/-- Arrivals: a bound and a vacant slot; a full mailbox; a full queue; the host ring. -/
theorem test_witness_arrivals :
    (∀ e ∈ [(held [], true, true), (on thread [] { mailbox := List.replicate 256 letter }, true, false),
        (on { thread with bound := false } [], false, true)],
      let s := flying (.msg 70 3 5 9) none e.1
      let o := theOp s
      s.op? s.ev.id = some o ∧ s.heldBack o = false ∧ s.performedBefore o.g o.k o.id = true ∧ s.msgBehind o = false ∧ o.arr = none ∧ (s.mailQueue 70).all (fun q => !q.before o && !q.outranks o) = true ∧
        o.cls = none ∧ (s.slot 70 3).bound = e.2.1 ∧ decide ((s.core 70).mailbox.length < mailCap 70) = e.2.2) ∧
    (∀ n ∈ [3, 4],
      let s := flying (.portWord 70 3 2 { v := 5 }) none (on { thread with qe := List.replicate n {} } [])
      s.op? s.ev.id = some (theOp s) ∧ (s.slot 70 3).bound = true ∧ ((s.slot 70 3).queue 2).length = n ∧
        s.ops.all (fun p => !(p.id < (theOp s).id)) = true) ∧
    (let s := flying (.hostMsg 5 (some (1, 2)))
     s.op? s.ev.id = some (theOp s) ∧ s.partOf 70 = some 0 ∧ s.firstCore 0 = some 0) := by decide +kernel

/-! ### Witnesses: tasks, nodes, registers, saves, copies -/

/-- A task record at 0x100 of core 70's scratch: the bytes of its control word from bit 32 on. -/
def spawning (wcells flags : Byte) (c : Core := {}) : State :=
  { on thread [(11, 0x100)] c with
    mem := (if wcells = 0 then [] else [(scrBase 70 + 0x10C, wcells)]) ++ (if flags = 0 then [] else [(scrBase 70 + 0x10D, flags)]) }

/-- SpawnIssues: a record that fails a check, a plain one, a gang, and a deque level that is full. -/
theorem test_witness_spawn :
    (∀ s ∈ [spawning 7 0, spawning 8 0, spawning 128 1, spawning 8 4],
      Ready (.spawn 11) s ∧ Ready (.spawnh 11) s ∧ (s.val 11).t = false ∧
        access (s.val 11).v 64 64 .load .plain false s = .ok (scr 0x100, s) ∧ s.badWord (scr 0x100).pa 64 = none ∧
        s.levelRoom 70 (s.recAt (scr 0x100).pa).high = true ∧ (s.core 70).conts = []) ∧
    ((spawning 7 0).recAt (scr 0x100).pa).check 0x100 = .error ⟨cILL, 0x100, 0⟩ ∧
    (let r := (spawning 8 0).recAt (scr 0x100).pa
     r.check 0x100 = .ok () ∧ r.isGang = false) ∧
    (let r := (spawning 8 4).recAt (scr 0x100).pa
     r.check 0x100 = .ok () ∧ r.isGang = true) := by decide +kernel

/-- SpawnIssues: a deque level that is full. -/
theorem test_witness_full_level : (spawning 8 0 { dqNorm := List.replicate 1024 {} }).levelRoom 70 false = false := by
  have h : ((spawning 8 0 { dqNorm := List.replicate 1024 {} }).core 70).level false = List.replicate 1024 {} := rfl
  unfold State.levelRoom
  rw [h, List.length_replicate]
  exact decide_eq_false (by omega)

/-- EndsOfTasks: exit without and with a node, the node instructions, halt, and a stop of a vacant and of a bound slot. -/
theorem test_witness_ends :
    (let s := held [(11, 0x100)]
     Ready .exit s ∧ s.me.inHandler = false ∧ s.waitMet 70 3 0 0 0 0 = true ∧ s.me.pend = [] ∧ s.me.task = 0 ∧
       Ready (.cntInit 11 12) s ∧ Ready (.cntAdd 11 12) s ∧ (s.val 11).t = false ∧ (s.val 12).t = false ∧
       access (s.val 11).v 32 32 .atomic .node false s = .ok (scr 0x100, s)) ∧
    (let s := on { thread with task := 0x100 } []
     Ready .exit s ∧ s.me.task ≠ 0 ∧ access s.me.task 32 32 .atomic .node false s = .ok (scr 0x100, s)) ∧
    (let s := on { thread with level := .sup } [(11, 5)]
     Ready .halt s ∧ Ready (.pstop 11) s ∧ (s.val 11).v.toNat < 64 ∧ (s.val 11).v.toNat ≠ 3 ∧ (s.slot 70 5).bound = false ∧
       (s.slot 70 3).bound = true ∧ (s.slot 70 3).blocked = none ∧ s.busySlot 70 3 true = false ∧
       (s.core 70).smpl.getLsbD 4 = false) := by decide +kernel

/-- TaskBinding: the smallest and the largest window, the latter at the end of the register file. -/
theorem test_witness_binding : ∀ e ∈ [(({ ctl := 0x800000000 } : TaskRec), 0), ({ ctl := 0x8000000000 }, 240)],
    8 ≤ e.1.wcells ∧ e.1.wcells ≤ 128 ∧ 8 * e.2 + e.1.wcells ≤ numCells 70 := by decide +kernel

/-- A small task. -/
def small : TaskRec := { ctl := 0x800000000 }

/-- Core 70 of a partition of die 0 alone, for the event at hand. -/
def placing (c : Core := {}) (ops : List Op := []) : State :=
  { on thread [] c with
    parts := [(0, { dies := 1, st := .running })], ev := { id := 7, g := 70 }, ops := ops, nextId := 8 }

/-- TaskPlacing: a task to bind, a spawned task, a thief's request, its service, refusal and answer, a hinted task on its way
and at its target, and a continuation. -/
theorem test_witness_placing :
    (let s := placing { dqHigh := [small], dqNorm := [{}] }
     s.mayBind 70 = true ∧ s.migrantWaits 70 = false ∧
       ((s.core 70).level (!(s.core 70).dqHigh.isEmpty)).getLast? = some small ∧ s.freeSlot 70 = some 0 ∧
       s.firstFit 70 small.units = some 0) ∧
    (let s := placing {} [anOp (.spawn small)]
     s.op? s.ev.id = some (theOp s) ∧ s.heldBack (theOp s) = false ∧ s.performedBefore 70 3 7 = true) ∧
    (let s := placing {}
     s.partOf 70 = some 0 ∧ (s.part 0).st = .running ∧ s.isMasked 70 = false ∧ (s.core 70).frozen = none ∧
       (s.core 70).steal.asked = false ∧ (s.core 70).steal.retryAt = none ∧ (s.core 70).dqHigh = [] ∧ (s.core 70).dqNorm = [] ∧
       (s.freeSlot 70).isSome = true ∧ ((s.victims 70)[(s.core 70).steal.next]?).isSome = true) ∧
    (∀ run ∈ [0, 1],
      let s := placing { dqNorm := [small] } [anOp (.stealReq 70 run)]
      s.op? s.ev.id = some (theOp s) ∧ (s.core 70).level (!(s.core 70).dqHigh.isEmpty) = [small] ∧ (s.core 70).frozen = none ∧
        (small.units ≤ run ∨ run < small.units)) ∧
    (∀ kind ∈ [OpKind.stealAns (some small) false, .stealAns none false],
      let s := placing {} [anOp kind none false]
      s.op? s.ev.id = some (theOp s) ∧ (theOp s).live = false ∧ s.levelOpen 70 small.high = true ∧ (s.core 70).frozen = none) ∧
    (let s := placing { steal := { retryAt := some 0 } }
     (s.core 70).steal.retryAt = some 0 ∧ 0 ≤ (s.core 70).cyc) ∧
    (let s := placing {} [anOp (.hinted small 70 75 false) none false]
     s.op? s.ev.id = some (theOp s) ∧ small.radius < meshDist 70 75) ∧
    (let s := placing {} [anOp (.hinted small 70 70 false) none false]
     s.op? s.ev.id = some (theOp s) ∧ meshDist 70 70 ≤ small.radius ∧ s.partOf 70 = s.partOf (theOp s).g ∧ s.mayBind 70 = true ∧
       s.freeSlot 70 = some 0 ∧ s.firstFit 70 small.units = some 0) ∧
    (let s := placing { conts := [{ task := small, parent := some 0x100, err := false }] }
     (s.core 70).frozen = none ∧ (placing { frozen := some 4 } : State).migrantWaits 70 = false ∧
     (s.core 70).conts.find? (fun c => s.levelRoom 70 c.task.high) =
       some { task := small, parent := some 0x100, err := false }) := by decide +kernel

/-- TaskPlacing: the end of a sweep and its middle. -/
theorem test_witness_sweep :
    let s := placing { steal := { next := 254, asked := true } } [anOp (.stealAns none false) none false]
    (s.victims 70).length ≤ (s.core 70).steal.next + 1 ∧
      (({ placing {} with masked := [] } : State).core 70).steal.next + 1 < (s.victims 70).length := by decide +kernel

/-- A gang of cores 70 and 71 in a state of its admission. -/
def ganging (st : GangState) (heldAt : Sparse Nat) (g : Nat) (other : List Gang := []) : State :=
  { placing {} with
    gangs := other ++ [{ id := 7, task := small, cores := [70, 71], st := st, slot := 5, held := heldAt }], ev := { id := 7, g := g } }

/-- TaskPlacing, GangsAndMigrants: the slot and the window of a core in use, with a gang's reservation and a thread that falls
vacant in the cycle; a thread that waits with a window that does not fit. -/
theorem test_witness_room :
    (let s := { placing {} with
       cores := [(70, { slots := [(0, { thread with allocUnits := 2 })], freed := [(2, 1)] })]
       gangs := [{ id := 4, task := small, cores := [70], st := .reserving, slot := 1, held := [(70, 3)] }] }
     s.freeSlot 70 = some 2 ∧ s.firstFit 70 1 = some (3 + small.units)) ∧
    (let m : Migrant := { target := 70, pc := 0x400, level := .user, pred := 1, fctl := 0, prec := 64, vctl := 0, wlim := 9,
                          cells := [], task := 0, members := [], gang := none, syncs := 0 }
     (placing {} [anOp (.migrant m)]).migrantWaits 70 = true ∧ ((9 : BitVec 8).toNat + 7) / 8 = 2) := by decide +kernel

/-- GangsAndMigrants: a request of a spawn and of an exit; one behind a request of a lower slot, which arrives or still waits for a
store of its slot; a gang that one admitted before it goes ahead of, and one that a reserving gang blocks. -/
theorem test_witness_gang_order :
    (∀ live ∈ [true, false],
      let s := placing {} [anOp (.gangReq small [70, 71]) none live]
      s.op? s.ev.id = some (theOp s) ∧ s.partOf 70 = some 0 ∧ s.gangArrives (theOp s) = true ∧ s.gangBehind (theOp s) = false) ∧
    (∀ e ∈ [([], true), ([{ anOp (.store [wordWrite 0 8 0 false]) (some .stores) with id := 5, k := 2 }], false)],
      let s := placing {} (anOp (.gangReq small [70, 71]) :: { anOp (.gangReq small [70, 71]) with id := 6, k := 2 } :: e.1)
      s.op? s.ev.id = some (theOp s) ∧ s.gangBehind (theOp s) = e.2) ∧
    (∀ st ∈ [GangState.admitted, .reserving],
      let s := ganging .admitted [] 70 [{ id := 4, task := small, cores := [71], st := st }]
      let a : Gang := { id := 7, task := small, cores := [70, 71], st := .admitted, slot := 5 }
      s.gangs.find? (fun b => b.id = s.ev.id) = some a ∧ s.gangBlocked a = (st = .reserving) ∧ s.gangAhead a = (st = .admitted)) := by
  decide +kernel

/-- GangsAndMigrants: an admitted gang, a core to reserve, all reserved; and a thread that arrives. -/
theorem test_witness_gangs :
    (let s := ganging .admitted [] 70
     (s.gangs.find? (fun b => b.id = s.ev.id)).isSome = true ∧ s.gangs.all (fun b => b.id = 7) = true) ∧
    (let s := ganging .reserving [(70, 1)] 71
     s.ev.g ∈ [70, 71] ∧ Sparse.has [(70, 1)] s.ev.g = false ∧ (s.slot s.ev.g 5).bound = false ∧ (s.core s.ev.g).frozen = none ∧
       s.firstFit s.ev.g small.units = some 0) ∧
    (Sparse.has [(70, 1), (71, 0)] 70 = true ∧ Sparse.has [(70, 1), (71, 0)] 71 = true ∧ [70, 71].Nodup) ∧
    (let m : Migrant := { target := 71, pc := 0x400, level := .user, pred := 1, fctl := 0, prec := 64, vctl := 0, wlim := 8,
                          cells := [], task := 0, members := [], gang := none, syncs := 0 }
     let s := placing {} [anOp (.migrant m)]
     s.op? s.ev.id = some (theOp s) ∧ (theOp s).cls = none ∧ (s.core 71).frozen = none ∧ s.freeSlot 71 = some 0 ∧
       s.firstFit 71 ((m.wlim.toNat + 7) / 8) = some 0) := by decide +kernel

/-- CounterNodes: a count of 1, of 0, and operations that bring it to zero and not. -/
theorem test_witness_nodes :
    ∀ e ∈ [(NodeOp.init 5, false), (.add 5, false), (.add (-1), false), (.dec false, true), (.dec true, false)],
      ∀ count ∈ [([] : List Host.Cell), [(scrBase 70 + 0x100, 1)]],
      let s := flying (.node (scrBase 70 + 0x100) 0x100 e.1 e.2) none { held [] with mem := count }
      let o := theOp s
      s.op? s.ev.id = some o ∧ o.live = true ∧ s.atUnit o = some 70 ∧ s.unitBehind o = false ∧ s.frozenOut o = false ∧
        (s.core 70).conts.length < 16 ∧ s.badWord (scrBase 70 + 0x100) 8 = none ∧ s.badWord (scrBase 70 + 0x118) 8 = none ∧
        s.contHeld (scrBase 70 + 0x100) e.1 = false ∧
        ((s.progress 70).read64 (scrBase 70 + 0x100) = 0 ∨ (s.progress 70).read64 (scrBase 70 + 0x100) = 1) := by decide +kernel

/-- SpecialRegisters: the readable and the writable registers at supervisor level, and the values at the bounds of what PREC,
VCTL, FCTL, TCAUSE and SMPL admit. -/
theorem test_witness_registers :
    let s := on { thread with level := .sup } [(11, 0x600)]
    [0x000, 0x004, 0x008, 0x020, 0x100, 0x102, 0x113, 0x115].all (fun n => ready (.mfs 10 (BitVec.ofNat 12 n)) s) = true ∧
    ([0x004, 0x005, 0x006, 0x007, 0x008, 0x010, 0x011, 0x012, 0x013, 0x014, 0x015, 0x016, 0x017, 0x018, 0x019, 0x01A, 0x021, 0x040,
        0x100, 0x101, 0x102, 0x103, 0x104, 0x105, 0x106, 0x108, 0x109, 0x10A, 0x10B, 0x10C, 0x10D, 0x10E, 0x10F, 0x110, 0x111, 0x112,
        0x114, 0x116].all (fun n => ready (.mts 11 (BitVec.ofNat 12 n)) s) = true) ∧ (s.val 11).t = false ∧
    (8 ≤ (8 : Word).toNat % 2 ^ 10 ∧ (1000 : Word).toNat % 2 ^ 10 ≤ 1000 ∧ (7 : Word).toNat % 2 ^ 10 < 8 ∧
      1000 < (1001 : Word).toNat % 2 ^ 10) ∧
    ((8 : Word).toNat / 2 % 8 < 5 ∧ 5 ≤ (10 : Word).toNat / 2 % 8 ∧ (4 : Word).toNat % 8 < 5 ∧ 5 ≤ (5 : Word).toNat % 8) ∧
    ((0x200 : Word).toNat / 2 ^ 9 % 4 ≤ s.me.level.code ∧ s.me.level.code < (0x400 : Word).toNat / 2 ^ 9 % 4 ∧
      (0x600 : Word).toNat / 2 ^ 9 % 4 = 3) ∧
    (smplBad 0xC = true ∧ smplBad 0xA = false ∧ (0xA : Word).getLsbD 5 = false ∧ (s.core 70).dump = none) ∧
    [0x020, 0x113].all (fun n => ready (.mts 11 (BitVec.ofNat 12 n)) s) = true ∧ (Instr.mts 11 0x115).wf = true ∧
    (Instr.mfs 10 0x107).wf = true := by decide +kernel

/-- SpecialRegisters: SIGRES and KSTAT take writes on the Vrelell core, and so do FUSEA, the message, key and signature, and the
hash engine's addresses. -/
theorem test_witness_vrelell_registers : ∀ i ∈ [Instr.mts 11 0x207, .mts 11 0x20D, .mts 11 0x200, .mts 11 0x203, .mts 11 0x204,
    .mts 11 0x205, .mts 11 0x208, .mts 11 0x209, .mts 11 0x20A],
    Ready i (on { thread with level := .mgmt } [] {} vrNum) := by decide +kernel

/-! ### Witnesses: saves, copies, engines -/

/-- What a csave of core 70 left. -/
def image : SaveImage :=
  { core := {}, scratch := [], stags := [], seq := 1, coreValue := (held []).coreValue 70, seed := 0, key := none, written := [],
    nextId := 0, barPend := [] }

/-- CoreSaves: idle and busy engines; no image, one of another core, one written since, and a good one. -/
theorem test_witness_saves :
    (let s := on { thread with level := .sup } []
     Ready .csave s ∧ Ready .crest s ∧ s.enginesBusy 70 = false ∧ s.saves.find? (fun e => e.1 = 70) = none) ∧
    (let s := flying (.eng .accClr 0 0 0 0 none) (some .tiles) (on { thread with level := .sup } [])
     Ready .csave s ∧ s.enginesBusy 70 = true) ∧
    (∀ im ∈ [{ image with coreValue := 0 }, { image with written := [5] }, { image with key := some 5 }, image],
      let s := { on { thread with level := .sup } [] with saves := [(70, im)] }
      Ready .crest s ∧ (s.saves.find? (fun e => e.1 = 70)).isSome = true) ∧
    image.coreValue ≠ { image with coreValue := 0 }.coreValue ∧
    { image with key := some 5 }.key ≠ (Option.bind ((held []).partOf 70) fun p => ((held []).part p).key) ∧
    image.key = (Option.bind ((held []).partOf 70) fun p => ((held []).part p).key) := by decide +kernel

/-- A thread whose copy controls name one byte from 0x100 to 0x200 of scratch. -/
def copier : Slot := { thread with csrc := 0x100, cdst := 0x200, cdim := 1 }

/-- Copies: controls that fail and that pass, a free id and none; an id of the slot's own copy, of another's, of none, and
beyond the last. -/
theorem test_witness_copies :
    (held []).me.copyCtl.bad = some (cILL, 0x016) ∧ Ready (.mfs 10 0x01F) (held []) ∧
    (let s := on copier []
     Ready (.mfs 10 0x01F) s ∧ s.me.copyCtl.bad = none ∧ s.transfer 70 0 = none ∧ s.me.copies < 255) ∧
    (let s := { on copier [] with
       ops := (List.range 16).map (fun t => { anOp (.copy copier.copyCtl t) (some .copies) with id := t }) }
     (List.range 16).all (fun t => (s.transfer 70 t).isSome) = true) ∧
    (∀ live ∈ [true, false],
      let s := flying (.copy copier.copyCtl 15) (some .copies) (held [(11, 15)]) live
      Ready (.cpQ 10 11) s ∧ Ready (.cpKill 11) s ∧ (s.val 11).t = false ∧ (s.val 11).v.toNat < 16 ∧
        s.transfer 70 15 = some (theOp s) ∧ (theOp s).live = live ∧ s.transfer 70 14 = none) ∧
    (let s := held [(11, 16)]
     Ready (.cpQ 10 11) s ∧ Ready (.cpKill 11) s ∧ 16 ≤ (s.val 11).v.toNat) := by decide +kernel

/-- Copies: one that runs to its end, and one that stops at its first element: its source is no memory. -/
theorem test_witness_copy_ends :
    (let s := flying (.copy copier.copyCtl 2) (some .copies)
     s.op? s.ev.id = some (theOp s) ∧ (s.copyPayload (theOp s) copier.copyCtl).stop = none) ∧
    (let c := { copier with csrc := 0x200000 }.copyCtl
     let s := flying (.copy c 2) (some .copies)
     ((s.copyPayload (theOp s) c).stop.map (fun e => (e.1, e.2.1, e.2.2.1, e.2.2.2.1))) = some (0, 0, 0, cXLT)) := by decide +kernel

/-- R318: a copy of two bytes that is killed after the first: element 0 is written and element 1 is not, and CRES names
element 1 of transfer 2, with VALID. -/
theorem test_cp_kill_middle :
    (let c := { copier with cdim := 2 }.copyCtl
     let s := flying (.copy c 2) (some .copies)
     let s := { s with mem := Memory.put (Memory.put s.mem (scrBase 70 + 0x100) 7) (scrBase 70 + 0x101) 9 }
     let t := s.killCopy (theOp s) c 2 1
     (t.byte (scrBase 70 + 0x200), t.byte (scrBase 70 + 0x201), (t.slot 70 (theOp s).k).cres, t.op? (theOp s).id) =
       (7, 0, 0x8200000000000001, none)) := by decide +kernel

/-- MatrixEngine: the smallest product and the largest rectangle that fit, and what the engine meets. -/
theorem test_witness_matrix :
    (let s := on { thread with tshp := 0x0101 } [(11, 0x1000), (12, 0x2000)]
     s.room OpKind.isMatrix = true ∧ (s.val 11).t = false ∧ (s.val 12).t = false ∧ (s.val 50).t = false ∧
       (∀ i ∈ [Instr.mmaI8 50 11 12 0 0 0, .mmaF8 50 11 12 1 1 0, .mmaB16 50 11 12 2 0 0, .mmaQ4 50 11 12 0 0 1], Ready i s) ∧
       (∀ f ∈ [MmaFmt.i8, .f8, .b16, .q4],
         let h := mmaShape f 2 true (s.val 50).v (s.val 11).v (s.val 12).v s.me.tshp
         h.cols ≠ 0 ∧ h.steps ≠ 0 ∧ h.row0 + h.rows ≤ 64 ∧ h.col0 + h.cols ≤ 1024 ∧ 0x1000 + h.rows * h.len ≤ 2 ^ 20 ∧
           0x2000 + h.cols * h.len ≤ 2 ^ 20)) ∧
    (let s := held [(11, 0xC0000), (50, 0x3F3F000000)]
     Ready (.accClr 50) s ∧ Ready (.accRd 50 11 12) s ∧ Ready (.accWr 50 11) s ∧ accBad (s.val 50).v = false ∧
       (accRect (s.val 50).v).r = 64 ∧ (s.val 11).v.toNat % 64 = 0 ∧
       (s.val 11).v.toNat + 4 * (accRect (s.val 50).v).r * (accRect (s.val 50).v).c ≤ 2 ^ 20) := by decide +kernel

theorem test_witness_matrix_runs :
    (let s := flying (.eng (.mma .i8 0 true true) 0 0x1000 0x2000 0x0101 none) (some .tiles)
     let h := mmaShape .i8 0 true 0 0x1000 0x2000 0x0101
     s.op? s.ev.id = some (theOp s) ∧ s.oldestOf (theOp s) OpKind.isMatrix = true ∧ (s.core 70).acc = [] ∧
       (h.runs 0).findSome? (fun r => s.runFault 70 r.1 r.2) = none ∧ h.col0 + h.cols ≤ 1024 ∧
       (h.steps' 70 h.steps 0 ({ s with bad := [(scrBase 70 + 0x1000) / 8] })).2 = some (0, (cSOFT, 1))) ∧
    (let s := flying (.eng .accRd 0x100000000 0x1000 0 0 none) (some .tiles)
     let t := accRect 0x100000000
     t.col0 + t.c ≤ 1024 ∧ s.runFault 70 0x1000 (4 * t.r * t.c) = none ∧
       s.hitsReserve (scrBase 70 + 0x1000) (4 * t.r * t.c) = false) := by decide +kernel

/-- Crossbar: the instructions at tile 0, with blocks that end at the end of scratch. -/
theorem test_witness_crossbar :
    (let s := held [(11, 0xFF000), (50, 0xF0)]
     s.me.tiles < 255 ∧ Ready (.xprg 50 11) s ∧ (s.val 11).t = false ∧ (s.val 50).t = false ∧ (s.val 50).v &&& ~~~0xF3 = 0 ∧
       (s.val 11).v.toNat % 64 = 0 ∧ (s.val 11).v.toNat + 4096 ≤ 2 ^ 20 ∧ s.room (OpKind.onTile 0) = true ∧
       Ready (.xacc 10 11) s ∧ s.partOf 70 = some 0 ∧ Ready (.xstat 10) s) ∧
    (let s := held [(11, 0xFFC00), (50, 4)]
     Ready (.xcal 50 11 12) s ∧ (s.val 50).v &&& ~~~7 = 0 ∧ (s.val 11).v.toNat + 1024 ≤ 2 ^ 20) ∧
    (let s := held [(11, 0xFFF00), (50, 0xFFC00000)]
     Ready (.xmv 50 11 12) s ∧ Ready (.xmvt 50 11 12) s ∧ (s.val 50).v &&& ~~~0xFFFFF003 = 0 ∧
       (s.val 50).v.toNat / 2 ^ 12 % 2 ^ 20 % 64 = 0 ∧ (s.val 11).v.toNat + 256 ≤ 2 ^ 20 ∧
       (s.val 50).v.toNat / 2 ^ 12 % 2 ^ 20 + 1024 ≤ 2 ^ 20) ∧
    (let s := held [(50, 3)]
     Ready (.xswp 50) s ∧ (s.val 50).v.toNat < 4 ∧ s.room (OpKind.onTile 3) = true) := by decide +kernel

/-- A tile whose first bank is in a state. -/
def tiled (kind : OpKind) (st : BankState) (act : Bool) (mem : List Host.Cell := []) : State :=
  flying kind (some .tiles) { on thread [] { tiles := [(0, { bank0 := { st := st }, active := act })] } with mem := mem }

/-- Crossbar: what a tile finds: codes in range and not, a bank of each state. -/
theorem test_witness_tiles :
    (let s := tiled (.eng .xprg 0 0x1000 0 0 none) .unprog true [(scrBase 70 + 0x1000, 31)]
     s.op? s.ev.id = some (theOp s) ∧ s.oldestOf (theOp s) (OpKind.onTile 0) = true ∧ s.runFault 70 0x1000 4096 = none ∧
       (31 : Byte).toInt ≤ 31 ∧ 31 < (32 : Byte).toInt) ∧
    (∀ st ∈ [BankState.unprog, .prog, .cal, .drift],
      let s := tiled (.eng .xswp 0 0 0 0 none) st true
      s.op? s.ev.id = some (theOp s) ∧ ((s.tile 70 0).bank (!(s.tile 70 0).active)).st = st ∧
        s.oldestOf (theOp s) (OpKind.onTile 0) = true) ∧
    (let s := tiled (.eng .xcal 0 0x1000 0 0 none) .prog false
     ((s.tile 70 0).bank false).st ≠ .unprog ∧ s.runFault 70 0x1000 1024 = none) ∧
    (∀ st ∈ [BankState.unprog, .prog, .cal, .drift],
      let s := tiled (.eng .xmv 0x2000000 0x1000 0 0 none) st false
      ((s.tile 70 0).bank (s.tile 70 0).active).st = st ∧ (s.core 70).xcals.toNat % 2 ^ 16 ≠ 0 ∧
        s.productFault 70 0x1000 0x2000 = none) ∧
    (({ xcals := 0 } : Core).xcals.toNat % 2 ^ 16 = 0) := by decide +kernel

/-- RelationalUnit: the forms are accepted; an intersection of two empty lists ends, and a tree of zeros fails. -/
theorem test_witness_relational :
    (let s := held [(11, 0x100), (12, 0x200)]
     s.room OpKind.isRel = true ∧ (s.val 11).t = false ∧ (s.val 12).t = false ∧ (s.val 20).t = false ∧
       (∀ i ∈ [Instr.jlk 20 11 12, .jenum 20 11, .isect 20 11, .jexp 20 11, .jgs 20 11 12, .jdelta 20 11 12, .cleave 20 11 12,
         .jmul 20 11 12, .jstat 23], Ready i s) ∧ (s.val 20).v &&& ~~~0xFF = 0) ∧
    (let s := flying (.eng .isect 0x300 0x200 0 0 none) (some .tiles) { held [] with mem := [(scrBase 70 + 0x200, 2)] }
     s.op? s.ev.id = some (theOp s) ∧ s.oldestOf (theOp s) OpKind.isRel = true ∧
       (isectBody 0x300 0x200 { st := s, c := s.opCtx (theOp s) }).1 = .ok ()) ∧
    (let s := flying (.eng .isect 0x300 0x200 0 0 none) (some .tiles) { held [] with
        mem := [(0x200, 2), (0x201, 1), (0x209, 4), (0x210, 8), (0x211, 4), (0x228, 1), (0x22C, 1), (0x304, 1), (0x400, 3),
          (0x408, 2)].map (fun e => (scrBase 70 + e.1, e.2)) }
     let start : RelSt := { st := s, c := s.opCtx (theOp s) }
     let find := isectFind 0x300 0x200 start
     s.op? s.ev.id = some (theOp s) ∧ (theOp s).early = [] ∧ find.1.toOption.map (·.1) = some [[2, 0, 0, 0]] ∧
       (rd8 0x400 0 start).1 = .ok 3 ∧ (wrN 0x300 4 1 find.2).1 = .ok () ∧ (wr8 0x300 32 2 find.2).1 = .ok ()) ∧
    (let s := flying (.eng .jexp 0 0x100 0 0 none) (some .tiles)
     (jexpBody 0 0x100 { st := s, c := s.opCtx (theOp s) }).1 = .error (cRUF, 2)) ∧
    (let s := flying (.eng .jstat 0 0 0 0 (some 5)) (some .tiles)
     s.op? s.ev.id = some (theOp s) ∧ (theOp s).live = true ∧ 5 < numCells 70) := by decide +kernel

/-! ### Witnesses: parameter records, mason units, host, resets -/

/-- Memory in which a class-P leaf of the largest size maps core 70's addresses to the first 8 GiB, with a record at 0x200000
of H 16 whose header bytes at 0x10 on are given. -/
def records (hd : List (Nat × Byte)) : State :=
  { held [] with mem := hd.map (fun e => (0x200000 + e.1, e.2)) ++ [(0x200014, 16), (chanBase 70, 0xAD)] }

/-- A contribution of zeros. -/
def giving (off : Word) : OpKind := .contrib 0x200000 off (List.replicate 16 0)

/-- ParameterRecords: the instructions, and descriptors of parm and povl that pass their checks. -/
theorem test_witness_parameters :
    (let s := held [(11, 0x100), (12, 0x200)]
     s.me.stores < 255 ∧ s.me.loads < 255 ∧ Ready (.pct 20 11 24) s ∧ (s.vec 24).2.all (fun t => !t) = true ∧
       Ready (.prd 24 11 12) s ∧ (24 : Name).toNat + 1 ≤ s.me.wlim.toNat ∧ Ready (.pstat 10 11) s ∧ (s.val 11).t = false ∧
       (s.val 12).t = false ∧ (s.val 20).t = false ∧ Ready (.parm 11) s ∧ Ready (.povl 11) s) ∧
    (let s := { held [(11, 0x100)] with mem := [(scrBase 70 + 0x117, 4)] }
     access 0x100 32 32 .load .plain false s = .ok (scr 0x100, s) ∧ s.badWord (scr 0x100).pa 32 = none ∧
       (s.read64 (scrBase 70 + 0x110)).toNat / 2 ^ 48 = 1024 ∧ (s.read64 (scrBase 70 + 0x110)).extractLsb' 36 12 = 0) ∧
    (let s := { held [(11, 0x100)] with mem := [(scrBase 70 + 0x109, 4), (scrBase 70 + 0x130, 15)] }
     access 0x100 64 64 .copyRead .plain false s = .ok (scr 0x100, s) ∧ s.badWord (scr 0x100).pa 64 = none ∧
       (s.read32 (scrBase 70 + 0x108)).toNat = 1024 ∧ windowExpOk (s.read32 (scrBase 70 + 0x10C)).toInt = true ∧
       (s.read64 (scrBase 70 + 0x130)).toNat < 16) := by decide +kernel

/-- ParameterRecords: a contribution at a waiting and at a busy record, at the last element and beyond it. -/
theorem test_witness_contributions :
    (∀ e ∈ [(giving 0, ([] : List (Nat × Byte)), 0), (giving 16, [], 0), (giving 0, [(0x11, 1)], 1), (giving 0, [(0x11, 2)], 2)],
      let s := flying e.1 (some .stores) (records e.2.1)
      s.op? s.ev.id = some (theOp s) ∧ s.heldBack (theOp s) = false ∧
        s.recAccess (theOp s) 0x200000 true = .ok (0x200000, 2 ^ 33 - 0x200000) ∧ s.badWord 0x200000 64 = none ∧
        (s.record 0x200000).st = e.2.2 ∧ recHOk (s.record 0x200000).h = true ∧ (s.record 0x200000).h = 16 ∧
        windowExpOk (s.record 0x200000).e.toInt = true ∧ (s.mason (ownerOf 0x200000)).held = [] ∧
        s.badWord ((s.record 0x200000).acc 0) 128 = none) := by decide +kernel

/-- ParameterRecords: reads of the present generation, of the one before at a waiting and at a busy record, of an older one
and of one to come; a status. -/
theorem test_witness_record_reads :
    (∀ e ∈ [((1 : Nat), 0, 1), (0, 0, 0), (0, 1, 0), (2, 0, 2 ^ 54 - 1)],
      let s := flying (.eng .prd 0 0x200000 (BitVec.ofNat 64 (1024 * e.1)) 0 (some 8)) (some .loads)
        (records ([(0, 1)] ++ (if e.2.1 = 0 then [] else [(0x11, 1)])))
      s.op? s.ev.id = some (theOp s) ∧ s.recAccess (theOp s) 0x200000 false = .ok (0x200000, 2 ^ 33 - 0x200000) ∧
        s.recFault 0x200000 false = none ∧ (s.record 0x200000).gen = 1 ∧ (s.record 0x200000).st = e.2.1 ∧
        0 < (s.record 0x200000).h ∧ s.badWord ((s.record 0x200000).weight false 0) 64 = none) ∧
    ((1 + 2 ^ 54 - 1) % 2 ^ 54 = 0 ∧ (1 + 2 ^ 54 - 0) % 2 ^ 54 = 1 ∧ (2 + 2 ^ 54 - 0) % 2 ^ 54 = 2 ∧
      2 ^ 53 ≤ (1 + 2 ^ 54 - 2) % 2 ^ 54) ∧
    (let s := flying (.eng .pstat 0 0x200000 0 0 (some 8)) (some .loads) (records [])
     s.recAccess (theOp s) 0x200000 false = .ok (0x200000, 2 ^ 33 - 0x200000)) := by decide +kernel

/-- ParameterRecords: parm with its rule loaded, with none, and on a 4 KiB page that is too small; povl. -/
theorem test_witness_record_inits :
    (let s := flying (.parm 0x200000 0x300 0 0 16) (some .stores) (records [])
     s.op? s.ev.id = some (theOp s) ∧ s.recAccess (theOp s) 0x200000 true = .ok (0x200000, 2 ^ 33 - 0x200000) ∧
       s.srcWords (theOp s) 0x300 16 = .ok (List.replicate 16 0) ∧ (s.mason (ownerOf 0x200000)).run = none ∧
       (s.mason (ownerOf 0x200000)).queue = [] ∧ Sparse.has (s.mason (ownerOf 0x200000)).rules 0 = false ∧
       64 + 24 * 16 ≤ 2 ^ 33 - 0x200000) ∧
    (let s := flying (.parm 0x200000 0x300 0 0 1024) (some .stores)
       { held [] with
         mem := [(0x1000, 0xAD), (0x1002, 0x20), (0x8008, 0x03), (0x8009, 0x10), (chanBase 70, 0x03), (chanBase 70 + 1, 0x80)]
         masons := [(ownerOf 0x200000, { rules := [(0, {})] })] }
     s.recAccess (theOp s) 0x200000 true = .ok (0x200000, 4096) ∧ 4096 < 64 + 24 * 1024 ∧
       Sparse.has (s.mason (ownerOf 0x200000)).rules 0 = true) ∧
    (let s := flying (.povl 0x300 4 0 [] 0) (some .stores)
     s.op? s.ev.id = some (theOp s) ∧ s.imageWords (theOp s) 4 0x300 none = .ok (List.replicate 4 0) ∧
       (s.mason 70).run = none) := by decide +kernel

/-- ParameterRecords: a queued record whose rule is loaded, and a run at its limit of cycles. -/
theorem test_witness_updates :
    (let s := { records [(0x11, 1)] with ev := { g := 0 }, masons := [(0, { queue := [0x200000], rules := [(0, {})] })] }
     (s.mason s.ev.g).run = none ∧ (s.mason s.ev.g).queue = [0x200000] ∧ (s.record 0x200000).st = 1 ∧
       s.badWord 0x200000 (64 + 24 * (s.record 0x200000).h) = none ∧
       Sparse.has (s.mason s.ev.g).rules (s.record 0x200000).rule = true) ∧
    (let s := { held [] with masons := [(0, { run := some 0x200000, cycles := 2 ^ 24 })] }
     (s.mason s.ev.g).run = some 0x200000 ∧ 2 ^ 24 ≤ (s.mason s.ev.g).cycles) := by decide +kernel

/-- A mason unit of core 70's channel at work, its register x11 at an address. -/
def masonry (v : Nat) : State :=
  { held [] with
    cur := .mason 70, masons := [(70, { regs := [(11, BitVec.ofNat 64 v)], run := some 0x200000, image := [0, 0] })] }

/-- MasonWords: accesses at the end of the channel, a misaligned one, halt, and a word that a mason unit lacks. -/
theorem test_witness_mason :
    (let s := masonry (chanBase 70 + 2 ^ 29 - 8)
     (∀ i ∈ [Instr.ldB 10 11 0, .ldBu 10 11 0, .ldH 10 11 0, .ldHu 10 11 0, .ldW 10 11 0, .ldWu 10 11 0, .ldD 10 11 0, .stB 0 11 12,
       .stH 0 11 12, .stW 0 11 12, .stD 0 11 12, .halt], Ready i s) ∧ (s.val 11).t = false ∧
     region (s.val 11).v.toNat = .chan 70 (2 ^ 29 - 8) ∧ s.badWord (s.val 11).v.toNat 8 = none) ∧
    (masonry (chanBase 70 + 4)).cur = .mason 70 ∧ ((masonry (chanBase 70 + 4)).val 11).v.toNat % 8 ≠ 0 ∧
    Instr.sync.wf = true ∧ masonAllows (encode .sync) = false := by decide +kernel

/-- HostAccess: a partition of die 0 with function 5 bound, reached in its window and in its first and last channel; one that
is not exposed; dies, functions and groups to set. -/
theorem test_witness_host :
    (let s := { held [] with
       parts := [(0, { dies := 1, st := .running })], vfs := [(5, 0)], ev := { off := 0x20000000, v := 10, k := 5, opt := some 0 } }
     s.exposed 0 = true ∧ s.hdmTarget 0 (s.ev.off / 8 * 8) = some 0 ∧ s.inSealTable 0 8 = false ∧ s.hitsReserve 0 8 = false ∧
       s.badWord 0 8 = none ∧
       s.firstCore 0 = some 0 ∧ (s.partCores 0)[0]? = some 0 ∧ (s.partCores 0).length = 256 ∧
       s.hdmTarget 0 0x1000 = none ∧ (5, 0) ∈ s.vfs ∧ s.ev.v.extractLsb' 1 7 = 5 ∧ (6, 0) ∉ s.vfs ∧ (s.part 0).st = .running ∧
       s.vfs.find? (fun e => e.1 = 96) = none ∧ s.vfs.find? (fun e => e.1 = 5) = some (5, 0)) ∧
    ({ held [] with vfs := [] }.exposed 0 = false) ∧
    (let s := { held [] with parts := [(0, { dies := 1, st := .running })], ev := { p := 1, v := 0xFFFE } }
     s.heldInReset 1 = true ∧ s.parts.all (fun e => e.1 = 1 || e.2.dies &&& s.ev.v.setWidth 16 = 0) = true) := by decide +kernel

/-- HaltsAndResets: a running partition, a monitor at its limit, a halted partition that may be reset, one that waits for its
key with the debug port closed and open, and a load that a failing link strands. -/
theorem test_witness_halts :
    (let s := { held [] with parts := [(0, { dies := 1, st := .running })], monitor := [(0, 2 ^ 36)] }
     (s.part s.ev.p).st = .running ∧ s.monitor.any (fun e => (s.part s.ev.p).dies.getLsbD e.1 && 2 ^ 36 ≤ e.2) = true) ∧
    (let s := { held [] with
       parts := [(0, { dies := 1, st := .halted }), (1, { dies := 0xFFFE, st := .running })], vfs := [(5, 0)], ev := {} }
     (s.part 0).st = .halted ∧ (s.part 0).dies ≠ 0 ∧ s.vfs.any (fun e => e.2 = 0) = true ∧
       s.ev.v.extractLsb' 1 7 = (s.part 0).nvf ∧ (s.part 0).nvf = 0 ∧ Memory.wf s.mem = true ∧
       s.parts.Pairwise (fun x y => x.1 < y.1) ∧ s.parts.all (fun e => e.1 = 0 || e.2.dies &&& (s.part 0).dies = 0) = true) ∧
    (∀ dbg ∈ [true, false],
      let s := { held [] with parts := [(0, { dies := 1, starting := true })], vr := { lcs := 2, dbgOpen := dbg } }
      (s.part s.ev.p).starting = true ∧ s.needsKey s.ev.p = true ∧ s.vrBusy 2 = false ∧ s.vr.dbgOpen = dbg) ∧
    (let s := flying (.load (.scalar 8 false) [(2 ^ 47, false)] (some 5)) (some .loads)
     s.ops = [theOp s] ∧ inPackage s.ev.p (2 ^ 47) = true ∧ (theOp s).live = true ∧ 5 < numCells 70 ∧
       (s.slot (theOp s).g (theOp s).k).pend.length < 8) := by decide +kernel

/-! ### Witnesses: the Vrelell core, observation, stepping -/

/-- Slot 3 of the Vrelell core, its x11 holding a value. -/
def vrelell (v : Word) (vr : Vrelell := {}) (mem : List Host.Cell := []) : State :=
  { on { thread with level := .mgmt } [(11, v)] {} vrNum with vr := vr, mem := mem, ev := { d := 11 } }

/-- VrelellWrites: the lifecycle's first and last advance and one that skips, a fuse write before and after the fuses are
locked, and the writes of the key store. -/
theorem test_witness_vrelell :
    ([0x202, 0x201, 0x20C, 0x218, 0x206, 0x20B, 0x20E].all (fun n => ready (.mts 11 (BitVec.ofNat 12 n)) (vrelell 0)) = true) ∧
    (let s := vrelell 1
     (s.val s.ev.d).t = false ∧ (s.val s.ev.d).v.toNat = s.vr.lcs.toNat + 1 ∧ s.vr.lcs.toNat < 4 ∧ s.vrBusy 4 = false ∧
       s.vr.lcs.toNat < 2 ∧ s.vrBusy 2 = false ∧ s.vrBusy 3 = false ∧ s.vrBusy 0 = false ∧ s.vrBusy 1 = false) ∧
    (let s := vrelell 3 { lcs := 2, dbgOpen := true }
     (s.val s.ev.d).v.toNat = s.vr.lcs.toNat + 1 ∧ s.vr.dbgOpen = true ∧ 2 ≤ s.vr.lcs.toNat) ∧
    (let s := vrelell 2
     (s.val s.ev.d).v.toNat ≠ s.vr.lcs.toNat + 1) ∧
    (let s := vrelell 0x1FFFF
     (s.val s.ev.d).v.extractLsb' 17 3 = 0 ∧ (s.val s.ev.d).v.extractLsb' 46 18 = 0 ∧
       s.performedBefore vrNum 3 s.nextId = true) ∧
    (let s := vrelell 0x40000
     (s.val s.ev.d).v.extractLsb' 17 3 = 2 ∧ (s.val s.ev.d).v.extractLsb' 46 18 = 0) := by decide +kernel

/-- A seal of one page at 0x200000 with its table at 0x300000, whose descriptor at 0x40 names a root. -/
def sealing (root : List Byte) (size : Byte := 1) : State :=
  vrelell 0x400020000 {} ([(2 ^ 48 + 0x42, 0x20), (2 ^ 48 + 0x48, size), (2 ^ 48 + 0x52, 0x30)] ++
    (((List.range 32).map (2 ^ 48 + 0x60 + ·)).zip root).filter (fun e => e.2 ≠ 0))

/-- VrelellWrites: a seal of no page, one with another root, and one that holds. -/
theorem test_witness_seals :
    (let s := sealing [] 2
     (s.val s.ev.d).v.extractLsb' 17 3 = 1 ∧ (s.val s.ev.d).v.toNat / 2 ^ 28 % 2 ^ 18 = 0x40 ∧
       (s.val s.ev.d).v.extractLsb' 46 18 = 0) ∧
    (sealing [] 0).sealOk 0 ((sealing [] 0).sealDesc 0x40) = false ∧
    (let s := sealing [1]
     s.sealOk 0 (s.sealDesc 0x40) = true ∧ (s.sealDesc 0x40).root = 1 :: List.replicate 31 0) ∧
    (let s := sealing (shake256 (List.replicate 32 0) 32)
     s.sealOk 0 (s.sealDesc 0x40) = true ∧ (s.sealDesc 0x40).pages = 1 ∧ s.bytesAt (s.sealDesc 0x40).table 32 = List.replicate 32 0 ∧
       (s.sealDesc 0x40).root = shake256 (List.replicate 32 0) 32) := by decide +kernel

/-- VrelellWrites: an extend, a copy that ends at the end of scratch, a verify, a bound verify, a sign, a hash, and the port. -/
theorem test_witness_vrelell_engines :
    ((0x7000000C0 : Word).toNat % 64 = 0 ∧ (0x7000000C0 : Word).extractLsb' 18 14 = 0 ∧ (0x7000000C0 : Word).getLsbD 35 = false ∧
      (0x7000000C0 : Word).extractLsb' 38 25 = 0 ∧ (0x7000000C0 : Word).extractLsb' 36 2 = 0) ∧
    ((0x100003FE00 : Word).extractLsb' 36 2 = 1 ∧ (0x100003FE00 : Word).toNat % 2 ^ 18 + 512 ≤ 2 ^ 18 ∧
      (0x100003FE00 : Word).extractLsb' 18 14 = 0 ∧ (0x100003FE00 : Word).extractLsb' 38 25 = 0) ∧
    (let s := vrelell 2 { sigmsg := 0x2000000100, sigsig := 0x3FF8E, sigkey := 0x100000000 }
     s.vr.sigmsg.toNat / 2 ^ 32 % 2 ^ 11 = 32 ∧ s.vr.sigmsg.toNat % 2 ^ 18 + 32 ≤ 2 ^ 18 ∧ s.vr.sigsig.toNat % 2 ^ 18 + 114 ≤ 2 ^ 18 ∧
       s.vr.sigkey.toNat / 2 ^ 32 % 4 = 1) ∧
    ((0x3FFC7 : Word).toNat / 2 ^ 32 % 4 = 0 ∧ (0x3FFC7 : Word).toNat % 2 ^ 18 + 57 ≤ 2 ^ 18 ∧
      (0x200000000 : Word).toNat / 2 ^ 32 % 4 = 2) ∧
    (let s := vrelell 1 { shklen := 0x40000040000, shkin := 0, shkout := 0x3FC00 }
     s.vr.shklen.toNat % 2 ^ 19 ≤ 2 ^ 18 ∧ s.vr.shklen.toNat / 2 ^ 32 % 2 ^ 11 = 1024 ∧
       s.vr.shkin.toNat % 2 ^ 18 + s.vr.shklen.toNat % 2 ^ 19 ≤ 2 ^ 18 ∧ s.vr.shkout.toNat % 2 ^ 18 + 1024 ≤ 2 ^ 18) ∧
    (vrelell 1).unlockMissing = 0 ∧ (vrelell 1 { lcs := 2 }).unlockMissing ≠ 0 ∧ (vrelell 0 { dbgOpen := true }).vr.dbgOpen = true ∧
    (1 : Word).getLsbD 0 = true ∧ (0 : Word).getLsbD 0 = false := by decide +kernel

/-- VrelellEngines: each engine's operation at its end; a slot to bind; a probe with the port open and closed. -/
theorem test_witness_engine_ends :
    (∀ kind ∈ [OpKind.fuse, .wipe 0xFFFF true, .wipe 1 false, .measure 7 0 false, .measure 7 0 true, .verify false 0x100000000 0 0,
        .verify true 0x2000000000 0 0, .sign 0x100000000 0, .shake 0 0x100000000 0],
      let s := flying kind
      s.op? s.ev.id = some (theOp s) ∧ (theOp s).live = true ∧ s.performedBefore 70 3 7 = true ∧
        (List.range 16).all (fun q => !(s.part q).starting) = true) ∧
    (0x100000000 : Word).toNat / 2 ^ 32 % 2 ^ 11 ≠ 576 ∧
    (let s : State := { vrelell 0 with ev := { k := 1, off := 0x800000000 } }
     s.ev.k < 4 ∧ (s.slot vrNum s.ev.k).bound = false ∧ (s.slot vrNum 3).bound = true ∧
       ({ ctl := BitVec.ofNat 64 s.ev.off } : TaskRec).check 0 = .ok () ∧
       (s.firstFit vrNum ({ ctl := BitVec.ofNat 64 s.ev.off } : TaskRec).units).isSome = true) ∧
    (let s : State := { vrelell 0 { dbgOpen := true } with ev := { probe := .readMem 0x3FFF8 } }
     s.vr.dbgOpen = true ∧ (0x3FFF8 : Word).toNat % 8 = 0 ∧ (0x3FFF8 : Word).toNat < 2 ^ 18 ∧ s.bad = [] ∧
       (s.slot vrNum 3).bound = true) ∧ (vrelell 0).vr.dbgOpen = false := by decide +kernel

/-- Observation: no dump and one in progress; a sample that is due. -/
theorem test_witness_observation :
    (let s := { held [] with ev := { g := 70 } }
     s.ev.g < 4096 ∧ (s.core s.ev.g).dump = none ∧ Memory.wf s.mem = true) ∧
    (let s := { on thread [] { dump := some { cyc := 0, cls := [], hist := [] } } with ev := { g := 70 } }
     (s.core s.ev.g).dump = some { cyc := 0, cls := [], hist := [] }) ∧
    (let s := { on thread [] { sampleDue := some { named := some (3, 0x200000), cyc := 9 } } with ev := { g := 70 } }
     (s.core s.ev.g).sampleDue = some { named := some (3, 0x200000), cyc := 9 }) := by decide +kernel

/-- Core 70's turn with a word in its channel at the thread's program counter. -/
def turning (w : BitVec 32) : State :=
  { on thread [] { ptroot := 1, tlb := [{ asid := 0, va := 0x200000, shift := 12, pa := chanBase 70, flags := 0x35 }] } with
    agenda := [.core 70]
    mem := ((List.range 4).map (fun j => (chanBase 70 + j, w.extractLsb' (8 * j) 8))).filter (fun e => e.2 ≠ 0) }

/-- StepRuns: a slot's turn with an instruction and with a word that is none, a mason unit's turn, an event, and a masked core. -/
theorem test_witness_steps :
    (∀ e ∈ [((0x04A89151 : BitVec 32), some (Instr.div 21 9 10)), (0x00000000, none)].map (fun e => (turning e.1, e)),
      let r := { e.1 with agenda := [] }
      let u := (r.takeSample 70).reap 70
      e.1.agenda = [.core 70] ∧ 70 ≤ vrNum ∧ e.1.isMasked 70 = false ∧ (u.core 70).freezeNext = false ∧ u.turnSlot 70 = some 3 ∧
        (u.taking 70 3).fetch 70 3 = .word e.2.1 (chanBase 70) ∧ (u.slot 70 3).header = none ∧ decode e.2.1 = e.2.2) ∧
    (after (.div 21 9 10) (turning 0x04A89151)).isSome = true ∧
    (let s := { masonry 0 with agenda := [.mason 70], masons := [(70, { run := some 0x200000, image := [0x04A89151] })] }
     (s.mason 70).run = some 0x200000 ∧ (s.mason 70).cycles < 2 ^ 24 ∧ (s.mason 70).pc < 4096 ∧ (s.mason 70).pc % 4 = 0 ∧
       decode ((s.mason 70).image.getD ((s.mason 70).pc / 4) 0) = some (.div 21 9 10) ∧
       (after (.div 21 9 10) ({ s with agenda := [] }.masonTick 70)).isSome = true) ∧
    (Instr.approxClear.isWord = false ∧ (after .approxClear (held [])).isSome = true) ∧
    ({ held [] with masked := [70] }.isMasked 70 = true) := by decide +kernel

/-- StepKeepsMemory: memory in canonical form and a step that stores. DecodeEncode: a well-formed instruction. -/
theorem test_witness_step_stores : Memory.wf (turning 0x70009280).mem = true ∧
    (match step (turning 0x70009280) with | .next _ => true | _ => false) = true ∧ (Instr.stD 0 9 20).wf = true := by decide +kernel

/-! ### Witnesses: discarded words, wide loads, queues, barriers, stops -/

/-- CellWrites: a writer whose word is to be discarded, and one whose word is not. -/
theorem test_witness_discard : Name.isPort 2 = true ∧ ((on { thread with discard := true } []).slot 70 3).discard = true ∧
    ((held []).slot 70 3).discard = false ∧ (held []).portTo 70 2 = some 71 := by decide +kernel

/-- LoadCompletes: a nibble, a vector and a gather; and destinations that are name zero. -/
theorem test_witness_wide_loads :
    ∀ e ∈ [(LoadShape.nibble true, [(scrBase 70 + 0x100, false)]), (.vec true, [(scrBase 70 + 0x100, true)]),
        (.gather, List.replicate 16 (scrBase 70 + 0xFFFFC, false))], ∀ dst ∈ [some 5, none],
      let s := flying (.load e.1 e.2 dst) (some .loads)
      s.op? s.ev.id = some (theOp s) ∧ (theOp s).live = true ∧ (theOp s).cls = some .loads ∧ s.isFirst (theOp s) = true ∧
        e.2.all (fun p => (s.badWord p.1 e.1.bytes).isNone && (s.badWord p.1 64).isNone) = true ∧ 5 < numCells 70 := by
  decide +kernel

/-- LoadCompletes: a VF image at 0x100: of 1 at the largest and the smallest precision, and of 2^40 + 1, which 8 bits do not
hold, in and out of exact mode. -/
theorem test_witness_vf_loads :
    ∀ e ∈ [((0 : Word), (64 : BitVec 10), FNum.fin false 1 0), (0, 8, .fin false (2 ^ 40 + 1) 0), (1, 64, .fin false 1 0),
        (1, 8, .fin false (2 ^ 40 + 1) 0)], ∀ dst ∈ [some 5, none],
      let q := vfMemImage 64 e.2.2
      let bytes := leBytes (q.1.setWidth 64) |>.take 4
      let s := flying (.load (.vf 0x100 false) ((List.range 4).map (fun j => (scrBase 70 + 0x100 + j, false))) dst) (some .loads)
        { on { thread with vctl := e.1, prec := e.2.1, loads := 1 } [] with
          mem := (((List.range (4 + q.2.length)).map (scrBase 70 + 0x100 + ·)).zip (bytes ++ q.2)).filter (fun z => z.2 ≠ 0) }
      let h := s.read32 (scrBase 70 + 0x100)
      let nb := (vfHeadBytes h).getD 0
      let r := vfMemValue h ((List.range nb).map (fun j => s.byte (scrBase 70 + 0x104 + j)))
      s.op? s.ev.id = some (theOp s) ∧ s.isFirst (theOp s) = true ∧ (vfHeadBytes h).isSome = true ∧ 0x104 + nb ≤ 2 ^ 20 ∧
        (s.core 70).shadow = [] ∧ s.bad = [] ∧ (s.slot 70 3).vctl.getLsbD 0 = (e.1 = 1) ∧
        ((r.2 ||| (vfRound e.2.1.toNat 0 { x := r.1 }).2) &&& 7 = 0 ↔ e.2.1 = 64) := by decide +kernel

/-- LoadCompletes: the words of a vector load from a channel, in one event and word by word, and the lanes of a gather: one that has
been read ahead and one that has not, and one with an error. -/
theorem test_witness_words_ahead :
    ∀ e ∈ [(LoadShape.vec true, [(chanBase 70, false)]), (.vec false, [(chanBase 70, false)]),
        (.gather, (List.range 16).map (fun j => (chanBase 70 + 4 * j, false)))],
      let s0 := flying (.load e.1 e.2 (some 5)) (some .loads) { held [] with bad := [chanBase 70 / 8 + 1] }
      let s := { s0 with ops := s0.ops.map (fun (o : Op) => { o with got := [(chanBase 70, {})] }), ev := { s0.ev with opt := some 1 } }
      s.op? s.ev.id = some (theOp s) ∧ s.isFirst (theOp s) = true ∧ (theOp s).live = true ∧ e.2.all (fun p => p.1 % 4 = 0) = true ∧
        chanBase 70 % 8 = 0 ∧ ((theOp s).got.lookup (chanBase 70)).isSome = true ∧ (theOp s).got.lookup (chanBase 70 + 16) = none ∧
        (s.badWord (chanBase 70 + 8) 8).isSome = true ∧ s.badWord (chanBase 70 + 16) 8 = none := by decide +kernel

/-- LoadCompletes, StoresApply: an image whose words are read one by one, the first ahead; a store of two words, of which either is
applied ahead. -/
theorem test_witness_parts :
    (∀ e ∈ ([([], 0), ([(scrBase 70 + 0x100, {})], 1)] : List (List (Nat × Tagged) × Nat)),
      let s0 := flying (.load (.vf 0x106 false) ((List.range 4).map (fun j => (scrBase 70 + 0x106 + j, false))) none) (some .loads)
      let s := { s0 with ops := s0.ops.map (fun (o : Op) => { o with got := e.1 }), ev := { s0.ev with opt := some e.2 } }
      s.op? s.ev.id = some (theOp s) ∧ s.isFirst (theOp s) = true ∧ (theOp s).live = true ∧ 4 < (scrBase 70 + 0x106) % 8 ∧
        8 * ((scrBase 70 + 0x106) / 8) = scrBase 70 + 0x100 ∧ ((theOp s).got.lookup (scrBase 70 + 0x100)).isSome = (e.2 = 1) ∧
        (theOp s).got.lookup (scrBase 70 + 0x108) = none) ∧
    (∀ n ∈ [0, 1],
      let ws := [wordWrite (scrBase 70 + 0x100) 8 5 false, wordWrite (scrBase 70 + 0x108) 8 6 false]
      let s0 := flying (.store ws) (some .stores)
      let s := { s0 with ev := { s0.ev with opt := some n } }
      s.op? s.ev.id = some (theOp s) ∧ s.isFirst (theOp s) = true ∧ (ws[n]?).isSome = true ∧ 2 ≤ ws.length ∧
        (ws.getD 0 (wordWrite 0 8 0 false)).pa ≠ (ws.getD 1 (wordWrite 0 8 0 false)).pa) := by decide +kernel

/-- FullEmptyWords: the head of a word's queue, which can be applied and cannot. -/
theorem test_witness_queue :
    ∀ f ∈ [FullEmpty.ldFe, .ldFx, .stEf], ∀ tags ∈ [([] : Sparse (BitVec 3)), [((scrBase 70 + 0x100) / 8, 1)]],
      let s0 := flying (.fullEmpty f (scrBase 70 + 0x100) 0x100 {} none) none { held [] with tags := tags }
      let s := { s0 with ops := s0.ops.map (fun (o : Op) => { o with arr := some 1 }) }
      s.queueHead (scrBase 70 + 0x100) = some (theOp s) ∧ (s.endOp (theOp s)).ops = [] ∧
        f.canApply ((s.tagOf (scrBase 70 + 0x100)).getLsbD 0) = ((f = .stEf) = (tags = [])) := by decide +kernel

/-- Waits: a walk that tlbinv discards, and the access that waits for it. -/
theorem test_witness_discarded_walks :
    let s := flying (.walk 0x200000 .load) none (on { thread with blocked := some (.walk 7) } [])
    (s.ops.map (·.id)).Nodup ∧ s.walkFor 70 none (theOp s) = true ∧ s.walkFor 70 (some 0x200FFF) (theOp s) = true ∧
      s.walkFor 70 (some 0x201000) (theOp s) = false ∧ (s.slot 70 3).blocked = some (.walk 7) := by decide +kernel

/-- A membership of the object at 0x100 in BMEM0, and in BMEM0 and BMEM1. -/
def member (n : Nat) : Slot :=
  { thread with bmem0 := 0x8000000000000100, bmem1 := if n = 1 then 0 else 0x8000000000000100 }

/-- BarriersApply: an object held once, twice and, after a migration, in a fifth place. -/
theorem test_witness_memberships :
    (∀ e ∈ [(member 1, 1), (member 2, 2), ({ thread with moved := [scrBase 70 + 0x100] }, 1), (thread, 0)],
      (on e.1 []).timesHeld 70 3 (scrBase 70 + 0x100) = e.2 ∧ (on e.1 []).memberPas 70 3 = List.replicate e.2 (scrBase 70 + 0x100)) ∧
    (let s := on { thread with moved := [0, 32, 64, 96] } []
     s.timesHeld 70 3 (scrBase 70 + 0x100) = 0 ∧ 4 ≤ (s.memberPas 70 3).length) := by decide +kernel

/-- BarriersApply: what bar.init finds at an object: a wait, a test that is not answered, and a twait in time and past it. -/
theorem test_witness_notified :
    ∀ kind ∈ [OpKind.barPending (scrBase 70 + 0x100) 0x100 0 none (some 5), .barAnswer 0x100 (.tested (scrBase 70 + 0x100) 1) (some 5),
        .barPending (scrBase 70 + 0x100) 0x100 0 (some 0) none],
      theOp (flying kind) ∈ (flying kind).ops ∧ (theOp (flying kind)).kind = kind ∧
        ((flying kind).core 70).cyc ≤ 0 ∧ ¬ ((on thread [] { cyc := 1 }).core 70).cyc ≤ 0 := by decide +kernel

/-- BarrierAnswers: a test's answer; a refusal, a notice and an operation of a twait in time and past its limit; a word taken
from each port. -/
theorem test_witness_late_answers :
    (∀ kind ∈ [OpKind.barAnswer 0x100 (.tested (scrBase 70 + 0x100) 1) (some 5), .barAnswer 0x100 (.refusedBy 4 9) none,
        .barNotice 0x100 1 (some 9) (some 5), .barPending (scrBase 70 + 0x100) 0x100 0 (some 9) none,
        .bar (scrBase 70 + 0x100) 0x100 (.twait 0 9) (some 5)], ∀ cyc ∈ [9, 10],
      let s := flying kind none (on thread [] { cyc := cyc })
      s.op? s.ev.id = some (theOp s) ∧ (theOp s).live = true ∧ (if cyc = 9 then (s.core 70).cyc ≤ 9 else 9 < (s.core 70).cyc) ∧
        9 ≤ (s.core 70).cyc) ∧
    (∀ d ∈ [1, 4], ({ thread with taken := [(d, {})] } : Slot).taken = [(d, {})] ∧ 1 ≤ d ∧ d ≤ 4) := by decide +kernel

/-- Arrivals: a message that the host sends to Vrelell slot 0: room for it, and none. -/
theorem test_witness_host_mail :
    ∀ n ∈ [0, 63, 64],
      let s : State := { on thread [] { mailbox := List.replicate n letter, slots := [(0, thread)] } vrNum with
        cores := [(vrNum, { mailbox := List.replicate n letter, slots := [(0, thread)] })], ev := { g := vrNum } }
      s.op? s.ev.id = none ∧ s.ev.g = vrNum ∧ s.ev.k = 0 ∧ (s.slot vrNum 0).bound = true ∧
        (s.core vrNum).mailbox.length = n := by decide +kernel

/-- EndsOfTasks: an object to drop at a frozen and at another core; pstop of its own slot, of one that stops at once, and of
one that an engine still serves; what a stop finds. -/
theorem test_witness_stops :
    (let x := { thread with moved := [scrBase 71 + 0x100] }
     (on x []).dropsHeld 70 3 = false ∧
     ({ on x [] with cores := (on x []).cores ++ [(71, { frozen := some 4 })] } : State).dropsHeld 70 3 = true) ∧
    (let s := on { thread with level := .sup } [(11, 3)]
     Name.isPort 11 = false ∧ Ready (.pstop 11) s ∧ (s.val 11).t = false ∧ (s.val 11).v.toNat = 3 ∧
       s.waitMet 70 3 0 0 0 0 = true ∧ s.me.pend = []) ∧
    (let s := on { thread with level := .sup } [(11, 64)]
     Ready (.pstop 11) s ∧ 64 ≤ (s.val 11).v.toNat) ∧
    (∀ e ∈ [(([] : List Op), false), ([{ anOp (.eng .accClr 0 0 0 0 none) (some .tiles) with k := 5 }], true)],
      let s := { on { thread with level := .sup } [(11, 5)] with
        cores := [(70, { rf := cellsAt [(11, 5)], slots := [(3, { thread with level := .sup }), (5, thread)] })], ops := e.1 }
      Ready (.pstop 11) s ∧ (s.slot 70 5).bound = true ∧ ((s.stopSlot 70 5).slot 70 5).bound = e.2 ∧
        (s.abandon 70 5).busySlot 70 5 true = e.2) ∧
    (∀ b ∈ [none, some .sync, some (Block.dying false false), some (.stopping false)],
      ((on { thread with blocked := b } []).slot 70 3).bound = true) ∧
    ((on { thread with blocked := some (.stopOf 5) } []).slot 70 3).blocked = some (.stopOf 5) := by decide +kernel

/-! ### Witnesses: stealing, hints, saves, reserves, steps of an engine -/

/-- TaskPlacing: a dispatcher that acts before a request, a request behind another, one that is served; a refusal of an abandoned
sweep and of the present one. -/
theorem test_witness_steals :
    ((placing { dqHigh := [small] }).hintedReady 70 = false ∧ ((placing { dqHigh := [small] }).dispatchPick 70).isSome = true) ∧
    (let s := { placing { dqNorm := [small], boundThisCycle := true } with
       ops := [anOp (.stealReq 70 1), { anOp (.stealReq 70 1) with id := 6, g := 69 }] }
     s.op? 7 = some (theOp s) ∧ { anOp (.stealReq 70 1) with id := 6, g := 69 } ∈ s.ops ∧
       256 * dieOf 69 + localOf 69 < 256 * dieOf 70 + localOf 70) ∧
    (∀ c ∈ [({ dqNorm := [small], boundThisCycle := true } : Core), {}, { dqNorm := [small], frozen := some 4 }], ∀ run ∈ [0, 1],
      let s := placing c [anOp (.stealReq 70 run)]
      s.op? s.ev.id = some (theOp s) ∧ s.stealBehind (theOp s) 70 = false ∧ (small.units ≤ run ↔ run = 1)) ∧
    (∀ stale ∈ [true, false],
      let s := placing { steal := { asked := true, stale := stale } } [anOp (.stealAns none false) none false]
      s.op? s.ev.id = some (theOp s) ∧ (theOp s).live = false ∧ (s.core 70).steal.stale = stale) := by decide +kernel

/-- TaskPlacing: a hand-over that finds its level full. -/
theorem test_witness_full_hand_over :
    (placing { dqNorm := List.replicate 1024 {} } [anOp (.stealAns (some small) false) none false]).levelRoom 70 small.high = false := by
  have h : ((placing { dqNorm := List.replicate 1024 {} } [anOp (.stealAns (some small) false) none false]).core 70).level false =
    List.replicate 1024 {} := rfl
  have hs : small.high = false := by decide +kernel
  unfold State.levelRoom
  rw [hs, h, List.length_replicate]
  exact decide_eq_false (by omega)

/-- TaskPlacing: a hinted task, from the spawn and on its way: at a core that has no room for it, at one that takes it, and at
its target, in the last and the first of the ways that end there. -/
theorem test_witness_hints : ∀ first ∈ [true, false],
    (let s := placing {} [anOp (.hinted small 70 75 first) none first]
     s.op? s.ev.id = some (theOp s) ∧ (theOp s).live = first ∧ s.performedBefore 70 3 7 = true ∧ s.hintedRoom (theOp s) small 70 75 = none) ∧
    (let s := placing {} [anOp (.hinted small 70 70 first) none first]
     s.partOf 70 = s.partOf (theOp s).g ∧ meshDist 70 70 ≤ small.radius ∧ s.takesTasks 70 = true ∧ (s.core 70).boundThisCycle = false ∧
       s.migrantReady 70 = false ∧ s.freeSlot 70 = some 0 ∧ s.firstFit 70 small.units = some 0) ∧
    (let s := { placing {} [anOp (.hinted small 70 70 first) none first] with masked := [70] }
     s.takesTasks 70 = false ∧ s.hintedRoom (theOp s) small 70 70 = none ∧ (s.core 70).frozen = none ∧
       s.levelRoom 70 small.high = true) := by decide +kernel

/-- GangsAndMigrants: cores with a common vacant slot and without one; slot 63 of the first core; cores that are not frozen. -/
theorem test_witness_gang_slots :
    (let s := ganging .admitted [] 70
     (s.slot 70 0).bound = false ∧ (s.slot 71 0).bound = false ∧ s.isKeystone 70 63 = false ∧ (s.core 70).frozen = none ∧
       (s.core 71).frozen = none) ∧
    (let s := { placing {} with
       cores := [(70, { slots := (List.range 64).map (fun j => (j, thread)) })] }
     ∀ j < 64, (s.slot 70 j).bound = true) ∧
    (placing {}).isKeystone 0 63 = true := by decide +kernel

/-- CoreSaves: a wait at the core's barriers that a reset has discarded, and one that is still there. -/
theorem test_witness_saved_waits :
    (let im := { image with barPend := [anOp (.barPending 0 0x100 0 none none)] }
     let s := { on { thread with level := .sup } [] with saves := [(70, im)] }
     s.saves.find? (fun e => e.1 = 70) = some (70, im) ∧ im.coreValue = s.coreValue 70 ∧ im.written = [] ∧
       im.key = (s.partOf 70).bind (fun p => (s.part p).key) ∧ s.op? 7 = none ∧ im.core.slots = []) ∧
    ((flying (.barPending 0 0x100 0 none none)).op? 7).isSome = true := by decide +kernel

/-- Transfer 2 of slot 3, which copies from an address to 0x400, behind transfer 1, which copies to 0x200. -/
def behind (src : Word) : State :=
  let s := flying (.copy { copier with csrc := src, cdst := 0x400 }.copyCtl 2) (some .copies) (held [(11, 2)])
  { s with ops := s.ops ++ [{ anOp (.copy copier.copyCtl 1) (some .copies) with id := 6 }] }

/-- Copies: one that waits for an earlier one of its thread, whose write it reads, and one that does not. -/
theorem test_witness_copy_order :
    ((behind 0x200).op? 7 = some (theOp (behind 0x200)) ∧ (behind 0x200).transfer 70 2 = some (theOp (behind 0x200)) ∧
      (behind 0x200).copyBehind (theOp (behind 0x200)) { copier with csrc := 0x200, cdst := 0x400 }.copyCtl = true) ∧
    (behind 0x300).copyBehind (theOp (behind 0x300)) { copier with csrc := 0x300, cdst := 0x400 }.copyCtl = false := by
  decide +kernel

/-- A core with a reserve of 4 KiB at 0x5000. -/
def reserving : Core := { shadow := [(0, { vbase := 0x4000, size := 0x1000 })] }

/-- MatrixEngine: blocks that touch a reserve at their start, at their end and not at all. -/
theorem test_witness_reserves :
    (let s := on { thread with tshp := 0x0101 } [(11, 0x4F80), (12, 0x2000)] reserving
     Ready (.mmaI8 50 11 12 0 0 0) s ∧ s.hitsReserve (scrBase 70 + 0x4F80) 64 = false ∧ s.hitsReserve (scrBase 70 + 0x2000) 64 = false ∧
       s.hitsReserve (scrBase 70 + 0x4FC1) 64 = true ∧ s.hitsReserve (scrBase 70 + 0x5FFF) 1 = true ∧
       s.hitsReserve (scrBase 70 + 0x6000) 64 = false ∧ s.hitsReserve (scrBase 70 + 0x4000) 0x3000 = true) := by decide +kernel

/-- MatrixEngine: a step of each format at the last entry of a rectangle; group images of the length that a step reads; entries
that are integers, numbers and no numbers. -/
theorem test_witness_steps_of_mma :
    (∀ f ∈ [MmaFmt.i8, .f8, .b16, .q4],
      let h := mmaShape f 0 true 0 0x1000 0x2000 0x0101
      h.f = f ∧ h.bt = true ∧ 0 < h.rows ∧ 0 < h.cols ∧ h.col0 + h.cols ≤ 1024) ∧
    ((held []).core 70).acc = [] ∧ ((held []).bytesAt 0 136).length = 136 ∧ (0x7F : BitVec 8).toNat % 128 = 127 ∧
    (0x3F800000 : BitVec 32).extractLsb' 23 8 ≠ 255 ∧ (num32 0x7FC00000).isNan = true ∧ (num64 0x7FF8000000000000).isNan = true := by
  decide +kernel

/-- Crossbar: a block of xprg and of xcal at a reserve, with a bad word, and with none; a bank at the limit of its age, below it,
and with no limit. -/
theorem test_witness_tile_faults :
    (∀ e ∈ [(Eng.xprg, 4096), (.xcal, 1024)],
      let s := { flying (.eng e.1 0 0x5000 0 0 none) (some .tiles) (on thread [] reserving) with bad := [] }
      s.oldestOf (theOp s) (OpKind.onTile 0) = true ∧ s.hitsReserve (scrBase 70 + 0x5000) e.2 = true ∧
        (let s := tiled (.eng e.1 0 0x1000 0 0 none) .prog false
         s.hitsReserve (scrBase 70 + 0x1000) e.2 = false ∧ s.blockFault 70 0x1000 e.2 = none ∧
           ({ s with bad := [(scrBase 70 + 0x1000) / 8] }.runFault 70 0x1000 e.2).isSome = true ∧
           ((s.tile 70 0).bank false).st ≠ .unprog)) ∧
    (let s := { tiled (.eng .xmv 0x2000000 0x1000 0 1 none) .cal false with
       cores := [(70, { cyc := 2 ^ 20, tiles := [(0, { bank0 := { st := .cal } })] })] }
     (1 : Word).toNat % 2 ^ 16 ≠ 0 ∧ (1 : Word).toNat % 2 ^ 16 * 2 ^ 20 ≤ (s.core 70).cyc - 0 ∧
       (s.core 70).cyc - 0 < (2 : Word).toNat % 2 ^ 16 * 2 ^ 20 ∧ (0x10000 : Word).toNat % 2 ^ 16 = 0) := by decide +kernel

/-! ### Witnesses: what the relational unit reads -/

/-- What an operation of the relational unit answers, d when it fails. -/
def got {α : Type} (m : RM α) (r : RelSt) (d : α) : α := match (m r).1 with
  | .ok x => x
  | .error _ => d

/-- An operation of the relational unit answers a value and changes nothing. -/
def answers {α : Type} (m : RM α) (r : RelSt) : Bool :=
  (match (m r).1 with | .ok _ => true | .error _ => false) && (m r).2 = r

theorem answers_reads {α : Type} {m : RM α} {r : RelSt} (d : α) (h : answers m r = true) : Reads m r (got m r d) := by
  obtain ⟨h1, h2⟩ := Bool.and_eq_true_iff.mp h
  have h2 : (m r).2 = r := of_decide_eq_true h2
  unfold Reads got
  cases hm : m r with
  | mk x r' =>
    rw [hm] at h1 h2
    cases x with
    | ok x => simp only at h2; simp [h2]
    | error e => simp at h1

/-- The bytes of words at offsets of core 70's scratch. -/
def wordsAt (ws : List (Nat × Nat)) : List Host.Cell :=
  (ws.flatMap (fun e => ((List.range 8).map (scrBase 70 + e.1 + ·)).zip (leBytes (BitVec.ofNat 64 e.2)))).filter (fun e => e.2 ≠ 0)

/-- A join tree at 0x400 of two nodes of 16 lanes in the sum ring, its relations of two rows and the tables of each node; a
shard list at 0x1800 with its descriptor, a tuple tile at 0x1C00, and descriptors of jgs and jdelta. -/
def joined (flags : Nat) : RelSt :=
  let tile (v : Nat) : List (Nat × Nat) := [(v, 2 + 2 ^ 32), (v + 16, 64), (v + 24, 128 + 16 * 2 ^ 32)]
  let table (v : Nat) : List (Nat × Nat) := [(v, 1 + 96 * 2 ^ 32), (v + 8, 16 + 2 ^ 16 + 2 * 2 ^ 32)]
  { st := { held [] with mem := wordsAt (
      [(0x400, 2 + 16 * 2 ^ 32 + 2 ^ 48), (0x440, 0x800), (0x448, 0xFFFF + flags * 2 ^ 32 + 16 * 2 ^ 48), (0x450, 0x1000),
        (0x458, 0x1100), (0x460, 0x1200), (0x468, 0x1300), (0x470, 1 + 2 * 2 ^ 32), (0x480, 0xA00), (0x488, flags * 2 ^ 32 + 16 * 2 ^ 48),
        (0x490, 0x1400), (0x498, 0x1500), (0x4A0, 0x1600), (0x4A8, 0x1700), (0x4B0, if flags = 2 then 2 + 2 ^ 32 else 0)]
      ++ tile 0x800 ++ tile 0xA00 ++ [0x1000, 0x1100, 0x1200, 0x1400, 0x1500, 0x1600].flatMap table
      ++ [(0x1800, 2 + 2 * 2 ^ 32), (0x1900, 0x1800), (0x1908, 0x1A00), (0x1910, 2 ^ 32)] ++ table 0x1A00
      ++ [(0x1C00, 1 + 2 * 2 ^ 32), (0x1C08, 1), (0x1D00, 0x1C00), (0x1D08, 0x1E00), (0x1D10, 0x1F00), (0x2000, 0x2100),
        (0x2008, 0x2200), (0x2010, 0x2300), (0x2100, 1 + 96 * 2 ^ 32), (0x2108, 16 + 3 * 2 ^ 16 + 2 * 2 ^ 32)]
      ++ table 0x2200 ++ table 0x2300
      ++ [(0x2400, 2), (0x2408, 0x3000), (0x2410, 0x3000), (0x2428, 1 + 2 ^ 32), (0x2540, 2 ^ 32)]) }
    c := (held []).ctx 70 3 }

/-- A tree, a relation, a table and an element that stand for none. -/
def noTree : Tree := { va := 0, root := 0, h := 0, ring := 0, nodes := [] }
def noTile : Relation := { va := 0, rows := 0, nk := 0, skc := 0, uniq := false, koff := 0, poff := 0, h := 0 }
def noTable : Table := { va := 0, entries := 0, h := 0, cap := 0 }

/-- The tree of such a state, the relations of its nodes, and a table. -/
def theTree (flags : Nat) : Tree := got (readTree 0x400 (fun _ => true) 0x12) (joined flags) noTree
def theTile (flags n : Nat) : Relation := got (readTile (theTree flags) n) (joined flags) noTile
def theTable (va : Word) : Table := got (readTable va none none none) (joined 2) noTable

/-- RelationalUnit: a table whose lookup finds an entry and does not. -/
theorem test_witness_lookups :
    let t := theTable 0x1000
    let r := joined 2
    answers (readTable 0x1000 none none none) r && t.entries = 1 && answers (t.head 0) r && answers (t.elem false 0) r
      && answers (rd8 (t.entry 0) 8) r && answers (rdWords (t.entry 0 + 32) 8) r && answers (rdWords (t.entry 0) 12) r = true := by
  decide +kernel

/-- RelationalUnit: rows in their order, and equal keys of a relation whose keys are unique; the element of a row. -/
theorem test_witness_rows :
    let r := joined 2
    let x := theTile 2 0
    x.rows = 2 ∧ answers (x.key 0 x.skc) r = true ∧ answers (x.visit 1) r = true ∧ x.uniq = false ∧
      got (x.key 0 x.skc) r 1 = got (x.key 1 x.skc) r 2 ∧
      ({ x with uniq := true }.visit 1 r).1 = .error (cRUF, 6) ∧ answers (x.part 1) r = true ∧
      answers (mulLookups false x 1 [(0, theTable 0x1400)] (Elem.unit 16)) r = true := by decide +kernel

/-- RelationalUnit: groups at the root and at another node; shards; the number that SHARDS gives, and another. -/
theorem test_witness_shards :
    (∀ n ∈ [0, 1],
      let u : UpSrc := { tr := theTree 2, n := n, x := theTile 2 n, kids := [] }
      let gs := got (groupsFrom u.x (n = 0) 0 u.x.rows 0 []) (joined 2) []
      answers (groupsFrom u.x (n = 0) 0 u.x.rows 0 []) (joined 2) = true ∧ gs = [{ key := 0, first := 0, count := 2 }] ∧
        ((theTree 2).node n).cleave = n + 1 ∧ ((theTree 2).node n).shards = 2 - n ∧
        (gs.flatMap (Shard.split (n + 1))).length = 2 - n ∧ answers u.shards (joined 2) = true) ∧
    (let t := { theTree 2 with nodes := (theTree 2).nodes.map (fun e => { e with shards := 9 }) }
     let u : UpSrc := { tr := t, n := 0, x := theTile 2 0, kids := [] }
     (u.shards (joined 2)).1 = .error (cRUF, 0x0F)) := by decide +kernel

/-- RelationalUnit: jmul of the whole of a node, cleaved and not. -/
theorem test_witness_jmul_whole : ∀ flags ∈ [0, 2],
    let t := theTree flags
    let r1 := (counts 0x1000 12 32 96 (joined flags)).2
    let u := got (upSrc t 0) r1 { tr := noTree, n := 0, x := noTile, kids := [] }
    answers (readTree 0x400 (fun nodes => 0 < nodes && 0 ≠ 3) 0x12) (joined flags) = true ∧ (t.node 0).upt = 0x1000 ∧ t.h = 16 ∧
      (t.node 0).cleaved = (flags = 2) ∧ answers (upSrc t 0) r1 = true ∧ answers (t.output 0x1000) r1 = true ∧ u.x.rows = 2 ∧
      u.kids.length = 1 ∧ (∀ i < 2, answers (u.elem i) r1 = true ∧ answers (u.key i) r1 = true) ∧
      (flags = 2 → answers u.shards r1 = true ∧ (got u.shards r1 []).all (fun p => answers (u.shard p) r1) = true) := by decide +kernel

/-- RelationalUnit: jmul of one shard, and of the elements of all. -/
theorem test_witness_jmul_shards :
    let t := theTree 2
    let r := joined 2
    let u := got (upSrc t 0) r { tr := noTree, n := 0, x := noTile, kids := [] }
    let p := got (readShard 0x1800 0) r { key := 1, first := 9, count := 9 }
    let set := theTable 0x1A00
    answers (relDesc 0x1900) r = true ∧ (got (relDesc 0x1900) r []) = [0x1800, 0x1A00, 0x100000000, 0] ∧
      answers (upSrc t 0) r = true ∧ answers (readListHead 0x1800) r = true ∧ answers (t.output 0x1A00) r = true ∧
      answers u.shards r = true ∧ 0 + 1 ≤ (t.node 0).shards ∧ (t.node 0).shards ≤ set.cap ∧ answers (readShard 0x1800 0) r = true ∧
      p.first + p.count ≤ u.x.rows ∧ answers (u.shard p) r = true ∧
      (let r1 := (counts 0x1000 12 32 96 r).2
       answers (relDesc 0x1900) r1 = true ∧ answers (readTile t 0) r1 = true ∧ answers (t.table 0x1A00) r1 = true ∧
         answers (t.output 0x1000) r1 = true ∧
         answers (UpSrc.shards { tr := t, n := 0, x := theTile 2 0, kids := [] }) r1 = true ∧
         answers (set.all t.sq true 2) r1 = true) := by decide +kernel

/-- RelationalUnit: jexp: a down table, a context at the root and at another node, a gradient. -/
theorem test_witness_jexp :
    let t := theTree 0
    let r := joined 0
    answers (readTree 0x400 (fun nodes => 1 < nodes) 0x12) r = true ∧ (t.node 1).parent = t.root ∧ t.root = 0 ∧
      (let r1 := (counts 0x1500 12 32 96 r).2
       let x := theTile 0 0
       answers (readTile t 0) r1 = true ∧ answers (t.childTables ((t.children 0).filter (fun m => m ≠ 1))) r1 = true ∧
         answers (t.output 0x1500) r1 = true ∧ (∀ i < 2, answers (x.visit i) r1 = true ∧ answers (x.part i) r1 = true ∧
           answers (mulLookups t.sq x i [] (Elem.leaf t.sq (got (x.part i) r1 []))) r1 = true ∧ answers (x.key i 0) r1 = true)) ∧
      (∀ n ∈ [0, 1],
        let r1 := (counts (t.node n).ctxt 12 32 96 r).2
        answers (readTile t n) r1 = true ∧ answers (t.table (t.node n).dnt) r1 = true ∧ answers (t.childTables (t.children n)) r1 = true ∧
          answers (t.output (t.node n).ctxt) r1 = true ∧ (theTile 0 n).rows ≤ (theTable 0x1200).cap) ∧
      (let r1 : RelSt := { r with cnt := none, res := 0, slots := (0, 0, 0) }
       answers (t.table 0x1200) r1 = true ∧ (t.node 0).ctxt = 0x1200 ∧ (t.node 0).grad.toNat % 64 = 0 ∧
         answers ((theTable 0x1200).lookup t.sq 1) r1 = true) := by decide +kernel

/-- RelationalUnit: jenum of the tuples of a join, jgs of one tuple and its finishing form. -/
theorem test_witness_tuples :
    let t := theTree 0
    let r := joined 0
    let r1 : RelSt := { (counts 0x1C00 8 0x20 8 r).2 with tuples := true }
    t.preorder 2 0 = [0, 1] ∧ (t.node 1).parent = 0 ∧ answers (readTree 0x400 (fun _ => true) 0x12) r1 = true ∧
      answers (readTuples 0x1C00 2) r1 = true ∧ (∀ n ∈ [0, 1], answers (readTile t n) r1 = true ∧ answers (theTile 0 n).keys r1 = true) ∧
      answers (readTree 0x400 (fun nodes => 0 < nodes && windowExpOk 0) 0x0E) r = true ∧ answers (relDesc 0x1D00) r = true ∧
      got (relDesc 0x1D00) r [] = [0x1C00, 0x1E00, 0x1F00, 0] ∧ answers (readTile t 0) r = true ∧ answers (readTuples 0x1C00 2) r = true ∧
      answers (rdN (0x1C00 + 0x20) 4) r = true ∧ answers (rdWords 0x1F00 16) r = true ∧
      (∀ j < 16, answers (rdN (0x1E00 + BitVec.ofNat 64 (4 * j)) 4) r = true) ∧ (t.node 0).grad.toNat % 64 = 0 ∧
      (0x400 : Word).getLsbD 10 = true ∧ (0x400 : Word).toNat % 256 = 0 := by decide +kernel

/-- RelationalUnit: jdelta of a bag; of two levels, and the last one of them. -/
theorem test_witness_deltas :
    let t := theTree 0
    let r := joined 0
    let d := got (t.table 0x2100 true) r noTable
    ((theTree 1).node 0).bag = true ∧ (t.node 1).bag = false ∧ answers (rdWords 0x2000 4) r = true ∧
      got (rdWords 0x2000 4) r [] = [0x2100, 0x2200, 0x2300, 0] ∧ answers (t.table 0x2100 true) r = true ∧ d.entries = 1 ∧
      answers (disjointTables t d 0x2200 0x2300) r = true ∧
      (∀ n ∈ [0, 1],
        let up := got (t.table (t.node n).upt) r noTable
        answers (t.table (t.node n).upt) r = true ∧ answers (d.all t.sq false d.entries) r = true ∧
          answers (up.all t.sq false up.entries) r = true ∧ up.entries = 1 ∧ 1 ≤ up.cap) ∧
      answers (readTile t 0) r = true ∧ answers (t.output 0x2200) r = true ∧
      (∀ i < 2, answers ((theTile 0 0).visit i) r = true ∧ answers ((theTile 0 0).key i 0) r = true ∧
        answers ((theTile 0 0).part i) r = true) := by decide +kernel

/-- RelationalUnit: a level at the root and one below it. -/
theorem test_witness_levels_of_delta :
    let t := theTree 0
    let d := got (t.table 0x2100 true) (joined 0) noTable
    (match (deltaLevel t 0 d 0x2200 none (joined 0)).1 with | .ok none => true | _ => false) &&
      (match (deltaLevel t 1 d 0x2200 (some 0x2300) (joined 0)).1 with | .ok (some e) => e.1 = 0 | _ => false) = true := by decide +kernel

/-- RelationalUnit: cleave of a node without shards, of one whose shards the list holds, and of one whose shards it does not. -/
theorem test_witness_cleave :
    ((theTree 0).node 1).cleave = 0 ∧
    (∀ at' ∈ [0x1800, 0x1B00],
      let list := BitVec.ofNat 64 at'
      let r1 := (counts list 4 16 16 (joined 2)).2
      answers (readTile (theTree 2) 0) r1 = true ∧ answers (readListHead list) r1 = true ∧
        ((got (readListHead list) r1 (9, 9)).2 = if at' = 0x1800 then 2 else 0) ∧
        answers (groupsFrom (theTile 2 0) true 0 2 0 []) r1 = true) := by decide +kernel

/-- RelationalUnit: an intersection of two lists of one key, into an output with a place for it and into one without. -/
theorem test_witness_intersection : ∀ at' ∈ [0x2500, 0x2540],
    let out := BitVec.ofNat 64 at'
    let r1 := (counts out 4 32 32 (joined 0)).2
    answers (rdWords 0x2400 8) r1 = true ∧ (got (rdWords 0x2400 8) r1 []).getD 0 0 = 2 ∧ answers (rdWords out 4) r1 = true ∧
      (got (rdWords out 4) r1 []).getD 0 0 = (if at' = 0x2540 then 0x100000000 else 0) ∧
      answers (readList 0x3000 1 true) r1 = true ∧ got (readList 0x3000 1 true) r1 [] = [0] ∧ (keyRecords [[0], [0]]).length = 1 := by
  decide +kernel

/-! ### Witnesses: records, mason units, host, Vrelell, stepping -/

/-- ParameterRecords: a read that is first among its slot's accesses and one that is not; a record outside every locked table; a
queued record that can start. -/
theorem test_witness_record_order :
    (∀ e ∈ [Eng.prd, .pstat],
      let s := flying (.eng e 0 0x200000 0 0 (some 8)) (some .loads) (records [])
      s.isFirst (theOp s) = true ∧
        (let t := { s with ops := { anOp (.load (.scalar 8 false) [(0x200000, false)] none) (some .loads) with id := 6, seq := 0 } :: s.ops }
         t.op? 7 = some (theOp s) ∧ t.isFirst (theOp s) = false)) ∧
    (let s := records [(0x11, 1)]
     s.inSealTable 0x200000 (64 + 24 * 16) = false ∧ s.inSealTable ((s.record 0x200000).acc 0) 128 = false ∧
       s.startBad (s.record 0x200000) = false ∧ (s.record 0x200000).st = 1) := by decide +kernel

/-- MasonWords: a misaligned address of each width above a byte, addresses in another channel and in none, a bad word and a locked
table. -/
theorem test_witness_mason_faults :
    (∀ e ∈ [(Instr.ldHu 10 11 0, 2), (.ldWu 10 11 0, 4), (.ldD 10 11 0, 8), (.ldH 10 11 0, 2), (.ldW 10 11 0, 4), (.stH 0 11 12, 2),
        (.stW 0 11 12, 4), (.stD 0 11 12, 8)], Ready e.1 (masonry (chanBase 70 + 1)) ∧ ((masonry (chanBase 70 + 1)).val 11).v.toNat % e.2 ≠ 0) ∧
    (∀ i ∈ [Instr.ldB 10 11 0, .ldBu 10 11 0, .stB 0 11 12], Ready i (masonry (chanBase 71)) ∧ Ready i (masonry 0)) ∧
    region ((masonry (chanBase 71)).val 11).v.toNat = .chan 71 0 ∧ region ((masonry 0).val 11).v.toNat ≠ .chan 70 0 ∧
    (let s := { masonry (chanBase 70) with bad := [chanBase 70 / 8] }
     region (s.val 11).v.toNat = .chan 70 0 ∧ (s.flushBuf 70).badWord (s.val 11).v.toNat 8 ≠ none) ∧
    (let s := { masonry (chanBase 70) with seals := [{ part := 0, slot := 0, base := chanBase 70 + 4096, pages := 1, table := chanBase 70 }] }
     s.inSealTable (s.val 11).v.toNat 8 = true) ∧ (masonry (chanBase 70)).inSealTable (chanBase 70) 8 = false := by decide +kernel

/-- MasonWords: words that name a port or a register that the unit does not have, in each field. -/
theorem test_witness_mason_names :
    ∀ i ∈ [Instr.add 1 11 12, .add 10 2 12, .add 10 11 3, .add 40 11 12, .add 10 127 12, .add 10 11 40], i.wf = true ∧
      masonAllows (encode i) = true ∧ ∃ e ∈ [(i.roles.a, i.roles.ra), (i.roles.b, i.roles.rb), (i.roles.d, i.roles.rd)],
        e.2 ≠ .none ∧ (e.1.isPort = true ∨ 39 < e.1.toNat) := by decide +kernel

/-- HostAccess: a word of a locked table, and a word of a reserve in the window; a function of 0; streams that are torn down. -/
theorem test_witness_host_edges :
    (let s := { held [] with parts := [(0, { dies := 1, st := .running })], vfs := [(5, 0)], ev := { off := 0x20000000 }
                             seals := [{ part := 0, slot := 0, base := 4096, pages := 1, table := 0 }] }
     s.exposed 0 = true ∧ s.hdmTarget 0 (s.ev.off / 8 * 8) = some 0 ∧ s.inSealTable 0 8 = true) ∧
    (let s := { held [] with parts := [(0, { dies := 1, st := .running })], vfs := [(5, 0)], ev := { off := 0x10 }
                             cores := [(0, { shadow := [(0, { vbase := 0xFE000, size := 0x1000 })] })] }
     s.exposed 0 = true ∧ s.hdmTarget 0 (s.ev.off / 8 * 8) = some (scrBase 0 + 0xFF010) ∧
       s.hitsReserve (scrBase 0 + 0xFF010) 8 = true) ∧
    (let s := { held [] with parts := [(0, { dies := 1, st := .running })], vfs := [(5, 0)], ev := { off := 0x10 }
                             cores := [(0, { frozen := some 4 })] }
     s.exposed 0 = true ∧ s.hdmTarget 0 (s.ev.off / 8 * 8) = some (scrBase 0 + 0xFF010) ∧
       region (scrBase 0 + 0xFF010) = .scratch 0 0xFF010 ∧ (s.core 0).frozen ≠ none) ∧
    (let s := { held [] with parts := [(0, { dies := 1, st := .running, ideTorn := true })], vfs := [(5, 0)] }
     s.exposed 0 = false ∧ s.ev.v.extractLsb' 1 7 = 0) := by decide +kernel

/-- HaltsAndResets: a halted partition that a function reaches, its cores and mason units in order and settled; and what a halt
finds settled and not. -/
theorem test_witness_reset_state :
    (let s := { held [] with
       parts := [(0, { dies := 1, st := .halted }), (1, { dies := 0xFFFE, st := .running })], vfs := [(5, 0)], ev := {}
       cores := [(0, {}), (70, {}), (300, {})], masons := [(70, {}), (300, {})] }
     s.exposed 0 = true ∧ s.cores.Pairwise (fun x y => x.1 < y.1) ∧ s.masons.Pairwise (fun x y => x.1 < y.1) ∧
       (∀ e ∈ s.parts, e.1 ≠ 0 → e.2.dies &&& (s.part 0).dies = 0) ∧ s.partOf 70 = some 0 ∧ s.partOf 300 = some 1 ∧
       (∀ e ∈ s.cores, s.partOf e.1 = some 0 → e.2.recs = []) ∧ (∀ e ∈ s.masons, s.partOf e.1 = some 0 → e.2.buf = [])) ∧
    ((∀ lcs ∈ [0, 4], ({ held [] with vr := { lcs := BitVec.ofNat 3 lcs } } : State).vr.lcs.toNat = lcs) ∧
      Sparse.has (held []).parts 0 = true) := by decide +kernel

/-- VrelellWrites: engines that are free, none of them waited for; a slot that waits longer; accesses that are done and that are
not; and the advance that scraps the part, with two partitions. -/
theorem test_witness_vrelell_order :
    (∀ e ∈ [0, 1, 2, 3, 4], (vrelell 1).vrFree e = true) ∧
    (let s := vrelell 1
     { s with cores := [(vrNum, { slots := [(2, { thread with blocked := some (.vrEngine 2 0) }), (3, { thread with since := some 1 })] })] }.vrFree 2 = false) ∧
    (vrelell 1).accessesBefore vrNum 3 (vrelell 1).nextId = true ∧
    { vrelell 1 with ops := [{ anOp (.red .add 0 {} false) (some .stores) with g := vrNum }], nextId := 8 }.accessesBefore vrNum 3 8 = false ∧
    (let s := { vrelell 4 { lcs := 3 } with parts := [(0, { dies := 1, st := .running }), (1, { dies := 2 })] }
     (s.val s.ev.d).v.toNat = s.vr.lcs.toNat + 1 ∧ s.vr.lcs.toNat < 4 ∧ s.vr.lcs = 3 ∧ s.parts.Pairwise (fun x y => x.1 < y.1)) := by
  decide +kernel

/-- StepRuns: a word that has been fetched and not yet issued. -/
theorem test_witness_kept_word :
    let s := turning 0x04A89151
    let t := { s with agenda := [], cores := s.cores.map (fun (e : Nat × Core) => (e.1, { e.2 with
      slots := e.2.slots.map (fun (x : Nat × Slot) => (x.1, { x.2 with fetched := some 0x04A89151 })) })) }
    let u := (t.takeSample 70).reap 70
    (u.core 70).freezeNext = false ∧ u.turnSlot 70 = some 3 ∧ (u.taking 70 3).fetch 70 3 = .kept 0x04A89151 ∧
      (u.slot 70 3).header = none := by decide +kernel

/-- Observation: a sample that is due while the counter has gone on. -/
theorem test_witness_sample_rest :
    let s := { on thread [] { sampleDue := some { named := some (3, 0x200000), cyc := 9, rest := 2 } } with ev := { g := 70 } }
    (s.core s.ev.g).sampleDue = some { named := some (3, 0x200000), cyc := 9, rest := 2 } := by decide +kernel

/-- R26, R327: one step from reset leaves no partition assigned and no slot bound. -/
theorem test_reset : (match step State.reset with
    | .next t => decide (t.parts.all (fun e => e.2.dies = 0) = true ∧ (t.slot 70 3).bound = false ∧ t.mem = [])
    | _ => false) = true := by decide +kernel

/-! ### Witnesses: order of arrival, records held, counter nodes -/

/-- ComputeFrame: the float, vector and VF forms that are not in the lists above. -/
theorem test_witness_frame_forms : ∀ i ∈ [Instr.vfSub 26 24 25, .vfSqrt 26 24, .vfNeg 26 24, .vfToI 26 24, .vfMov 26 24,
    .vSubI32 16 24 32, .vMulI32 16 24 32, .vMaxI32 16 24 32, .vXor 16 24 32, .vSra 16 24 32, .vCmpltI32 16 24 32, .vMulF32 16 24 32,
    .vCmpltF32 16 24 32, .vCvtFi 16 24, .vCvtFb 16 24, .vMax0 16 24], Ready i (held []) ∧ (after i (held [])).isSome = true := by
  decide +kernel

/-- Two operations in flight, of which the event at hand is about the first, number 7 of slot 3; the second is that of another
number, slot and order of arrival. -/
def meeting (a b : OpKind) (aArr bArr : Option Nat) (k : Nat) (s : State := held []) : State :=
  { s with ev := { s.ev with id := 7, g := 70 }, nextId := 9,
           ops := [{ anOp a with arr := aArr }, { anOp b with id := 8, k := k, arr := bArr }] }

/-- FullEmptyWords: an operation that waits behind an earlier arrival and one that is the head; one that arrives in one cycle with
another of a lower and of a higher slot, at a full and at an empty word. -/
theorem test_witness_arrival_order :
    let w (f : FullEmpty) : OpKind := .fullEmpty f (scrBase 70 + 0x100) 0x100 {} none
    (let s := meeting (w .ldFe) (w .ldFe) (some 2) (some 1) 4
     s.op? s.ev.id = some (theOp s) ∧ s.isFirst (theOp s) = true ∧ s.queueHead (scrBase 70 + 0x100) ≠ some (theOp s)) ∧
    (let s := meeting (w .ldFe) (w .ldFe) (some 1) (some 2) 4
     s.queueHead (scrBase 70 + 0x100) = some (theOp s) ∧ (s.atWord (scrBase 70 + 0x100)).length = 2) ∧
    (∀ e ∈ [(2, true), (4, false)],
      let s := meeting (w .stFs) (w .ldFe) none none e.1
      (theOp s).arr = none ∧ (s.atWord (scrBase 70 + 0x100)).any (fun p => p.arr.isNone && p.outranks (theOp s)) = e.2) ∧
    (∀ f ∈ [FullEmpty.ldFe, .stEf], ∀ tags ∈ [([] : Sparse (BitVec 3)), [((scrBase 70 + 0x100) / 8, 1)]],
      let s := meeting (w f) .fuse none none 4 { held [] with tags := tags }
      s.queueHead (scrBase 70 + 0x100) = none ∧ (s.atWord (scrBase 70 + 0x100)).length = 1) := by decide +kernel

/-- Publish: an intersection of the partition that has begun, and one that has not. -/
theorem test_witness_publish_waits : ∀ parts ∈ [[0], []],
    let s0 := publishing 1 [(0, { vbase := 0x4000, size := 0x1000 })]
    let s := { s0 with ops := [{ anOp (.eng .isect 0x300 0x200 0 0 none) (some .tiles) with parts := parts, g := 71 }] }
    Ready (.publish 11) s ∧ s.waitMet 70 3 0 0 0 0 = true ∧ s.partOf 71 = s.partOf 70 ∧ s.anyBegun 70 = (parts = [0]) := by
  decide +kernel

/-- BarriersApply, BarrierAnswers: an object with an uncorrectable error, and the answer of SOFT. -/
theorem test_witness_barrier_soft :
    (let s := { atBarrier .join 2 1 with bad := [(scrBase 70 + 0x118) / 8] }
     s.badWord (scrBase 70 + 0x100) 32 = some (scrBase 70 + 0x118) ∧ region (scrBase 70 + 0x118) = .scratch 70 0x118 ∧
       s.heldBack (theOp s) = false) ∧
    (∀ kind ∈ [OpKind.barAnswer 0x100 (.soft 0x12 1 0x118) none, .nodeSoft 0x12 1 0x118],
      (flying kind).op? 7 = some (theOp (flying kind)) ∧ (theOp (flying kind)).live = true) := by decide +kernel

/-- Arrivals: a full mailbox: a message that waits already, and one that arrives with another of a lower and of a higher slot; room
behind and before such another; a message for a joined package. -/
theorem test_witness_mail_order :
    (∀ e ∈ [(256, some 1, 2), (256, none, 2), (256, none, 4), (0, none, 2), (0, none, 4)],
      let s := meeting (.msg 70 3 5 9) (.msg 70 3 6 9) e.2.1 none e.2.2 (on thread [] { mailbox := List.replicate e.1 letter })
      let o := theOp s
      s.op? s.ev.id = some o ∧ s.msgBehind o = false ∧ s.heldBack o = false ∧ s.performedBefore 70 3 7 = true ∧
        (decide ((s.core 70).mailbox.length < mailCap 70) = (e.1 = 0)) ∧ (s.mailQueue 70).length = 2 ∧
        ((s.mailQueue 70).any (fun q => q.arr.isNone && q.outranks o)) = (e.2.2 = 2) ∧
        ((s.mailQueue 70).any (·.before o)) = (e.2.2 = 2 && e.2.1.isNone)) ∧
    (let s := flying (.fabricMsg 1 70 3 5 9)
     s.op? s.ev.id = some (theOp s) ∧ s.msgBehind (theOp s) = false ∧ s.performedBefore 70 3 7 = true) := by decide +kernel

/-- SpawnIssues, ParameterRecords: a record into which a store of the slot is in flight, and one with none; a load of it, and a prd;
CoreSaves' frozen core. -/
theorem test_witness_record_held :
    (∀ e ∈ [(3, true), (4, false)],
      let s := { spawning 8 0 with nextId := 8, ops := [{ anOp (.store [wordWrite (scrBase 70 + 0x138) 8 5 false]) with k := e.1 }] }
      Ready (.spawn 11) s ∧ access (s.val 11).v 64 64 .load .plain false s = .ok (scr 0x100, s) ∧
        s.recordHeld 70 3 (scrBase 70 + 0x100) 64 = e.2) ∧
    ({ spawning 8 0 with cores := [(71, { frozen := some 1 })] } : State).recordHeld 70 3 (scrBase 71 + 0x100) 64 = true ∧
    (spawning 8 0 { conts := [{ task := { ctl := 0x800000000 }, parent := none, err := false }] }).levelOpen 70 false = false ∧
    (∀ kind ∈ [OpKind.store [wordWrite (scrBase 70 + 0x108) 8 5 false], .load (.scalar 8 true) [(scrBase 70 + 0x118, false)] (some 5),
        .eng .prd 0 0x200000 0 0 (some 5)],
      let s := { held [(11, 0x100)] with nextId := 8, ops := [anOp kind] }
      Ready (.parm 11) s ∧ Ready (.povl 11) s ∧ access 0x100 32 32 .load .plain false s = .ok (scr 0x100, s) ∧
        access 0x100 64 64 .copyRead .plain false s = .ok (scr 0x100, s) ∧
        s.recordHeld 70 3 (scrBase 70 + 0x100) 32 = true ∧ s.recordHeld 70 3 (scrBase 70 + 0x100) 64 = true) := by decide +kernel

/-- EndsOfTasks: the exit of a task whose node's count holds an uncorrectable error, and one whose object's unit applies another
operation first. -/
theorem test_witness_exit_waits :
    (let s := { on { thread with task := 0x100 } [] with bad := [(scrBase 70 + 0x100) / 8] }
     Ready .exit s ∧ s.me.task ≠ 0 ∧ access s.me.task 32 32 .atomic .node false s = .ok (scr 0x100, s) ∧
       s.badWord (scr 0x100).pa 8 = some (scrBase 70 + 0x100)) ∧
    (∀ e ∈ [(2, true), (4, false)],
      let s := { on { thread with bmem0 := 0x8000000000000100 } [] with ops := [{ anOp (.bar (scrBase 70 + 0x100) 0x100 .join none) with k := e.1 }] }
      Ready .exit s ∧ s.me.task = 0 ∧ s.dropsHeld 70 3 = e.2) := by decide +kernel

/-- CounterNodes: a unit that holds 16 continuations, at which an operation waits already or arrives with another of a lower and of a
higher slot; an error in the words that the operation reads; a record of CONT with a frozen core. -/
theorem test_witness_node_waits :
    let n (op : NodeOp) : OpKind := .node (scrBase 70 + 0x100) 0x100 op false
    let full : State := on thread [] { conts := List.replicate 16 { task := {}, parent := none, err := false } }
    (∀ e ∈ [(some 1, 4), (none, 2), (none, 4)],
      let s := meeting (n (.add 1)) (n (.add 1)) e.1 none e.2 full
      s.op? s.ev.id = some (theOp s) ∧ s.atUnit (theOp s) = some 70 ∧ 16 ≤ (s.core 70).conts.length ∧
        (s.ops.any (fun p => s.atUnit p = some 70 && p.kind.isNode && p.arr.isNone && p.outranks (theOp s))) = (e.2 = 2)) ∧
    (let s := meeting (n (.add 1)) (n (.add 1)) none none 2
     ¬ 16 ≤ (s.core 70).conts.length ∧ s.unitBehind (theOp s) = true) ∧
    (let s := { flying (n (.add 1)) with bad := [(scrBase 70 + 0x118) / 8] }
     [scrBase 70 + 0x100, scrBase 70 + 0x118].find? (fun c => (s.badWord c 8).isSome) = some (scrBase 70 + 0x118) ∧
       s.unitBehind (theOp s) = false) ∧
    (let s := { flying (n (.add (-1))) with
       cores := [(70, { slots := [(3, thread)] }), (71, { frozen := some 1 })]
       mem := [(scrBase 70 + 0x100, 1), (scrBase 70 + 0x112, 0x17), (scrBase 70 + 0x115, 0x10)] }
     s.read64 (scrBase 70 + 0x100) = 1 ∧ s.read64 (scrBase 70 + 0x110) = 0x100000170000) ∧
    (let s := flying (n (.add 1))
     s.frozenOut (theOp s) = false ∧
       (on thread [] { frozen := some 1 }).frozenOut { anOp (n (.add 1)) with g := 71 } = true) := by decide +kernel

/-- A node of core 70 at 0x100 of scratch with the words PARENT, CONT and EVENTS. -/
def node (parent cont ev : Nat) (task : List (Nat × Byte) := []) : State :=
  { held [] with mem := wordsAt [(0x108, parent), (0x110, cont), (0x118, ev)]
      ++ task.map (fun e => (scrBase 70 + 0x200 + e.1, e.2)) }

/-- CounterNodes: nodes with a continuation of a plain task, of a gang, with one that fails its checks and with none; with a parent,
a misaligned one and none; and what EVENTS asks for. -/
theorem test_witness_node_actions :
    (∀ e ∈ [(node 0x180 0x200 7 [(0xC, 8)], true, true, false), (node 0x180 0x200 0 [(0xC, 8), (0xD, 4)], true, true, true),
        (node 0x184 0x200 0 [(0xC, 7)], false, false, false), (node 0 0 2, false, false, false)],
      let s := e.1
      let c : Ctx := { s.ctx 70 0 with level := .sup }
      let cont := s.read64 (scrBase 70 + 0x110)
      let parent := s.read64 (scrBase 70 + 0x108)
      s.badWord (scrBase 70 + 0x110) 8 = none ∧ s.badWord (scrBase 70 + 0x108) 8 = none ∧ cont.toNat % 64 = 0 ∧
        (cont ≠ 0 → s.engAccess c cont 64 .load = .ok (scr 0x200) ∧ ((s.recAt (scr 0x200).pa).check cont = .ok () ↔ e.2.2.1 = true) ∧
          (s.recAt (scr 0x200).pa).isGang = e.2.2.2) ∧
        (decide (parent ≠ 0 ∧ parent.toNat % 32 = 0) = e.2.1) ∧
        (e.2.1 = true → s.engAccess c parent 32 .atomic .node = .ok (scr 0x180)) ∧
        s.levelOpen 70 false = true ∧ s.partOf 70 = some 0 ∧ s.firstCore 0 = some 0) ∧
    ((node 0 0 7).read64 (scrBase 70 + 0x118)).getLsbD 2 = true ∧ ((node 0 0 2).read64 (scrBase 70 + 0x118)).getLsbD 2 = false ∧
    (on thread [] { conts := [{ task := small, parent := none, err := false }] }).levelOpen 70 small.high = false := by decide +kernel

/-- SpecialRegisters: a core and the Vrelell core; the fuse words that read as zero and their neighbours. -/
theorem test_witness_register_values :
    (70 : Nat) < 4096 ∧ vrNum = 4096 ∧ (∀ n ∈ [24, 31], 24 ≤ (BitVec.ofNat 6 n).toNat ∧ (BitVec.ofNat 6 n).toNat ≤ 31) ∧
    (∀ n ∈ [23, 32], (BitVec.ofNat 6 n).toNat < 24 ∨ 31 < (BitVec.ofNat 6 n).toNat) ∧ (held []).vr.sigres.getLsbD 0 = false ∧
    (held []).vr.mext.getLsbD 63 = false ∧ ((held []).core 70).smpl.getLsbD 5 = false ∧
    ((held []).sregValue 70 3 0x001).toNat = 0x01060016 := by decide +kernel

/-! ### Witnesses: what copies write, products, the relational unit -/

/-- Copies: a copy whose rows stand already, with and without an earlier copy that has rows to write; one whose byte post waits for
a frozen core, and one whose flag word is in no scratch; a copy that a kill waits for. -/
theorem test_witness_copy_parts :
    (∀ e ∈ [([] : List Nat), [0]],
      let s0 := behind 0x300
      let s := { s0 with ops := s0.ops.map (fun (o : Op) => if o.id = 7 then { o with parts := [0] } else { o with parts := e }) }
      s.op? 7 = some (theOp s) ∧ (theOp s).parts ≠ [] ∧ s.copyOlder (theOp s) = (e = []) ∧ Ready (.cpKill 11) s ∧
        s.transfer 70 2 = some (theOp s) ∧ (s.copyEnd (theOp s) { copier with csrc := 0x300, cdst := 0x400 }.copyCtl).stop = none) ∧
    (let c := { copier with cdone := 0x200000 }.copyCtl
     let s := flying (.copy c 2) (some .copies)
     let a := s.copyPayload (theOp s) c
     s.copyBehind (theOp s) c = false ∧ a.stop = none ∧
       ((a.st.copyEnd (theOp s) c).stop.map (fun e => (e.1, e.2.1, e.2.2.1, e.2.2.2.1))) = some (1, 0, 0, cXLT)) ∧
    (let c := { copier with cbnd := 0x200000 }.copyCtl
     let s := flying (.copy c 2) (some .copies) { held [(11, 2)] with
       mem := [(chanBase 70, 0x3D), (chanBase 70 + 5, 0x10)], cores := [(2, { frozen := some 1 }), (70, { slots := [(3, thread)] })] }
     ((s.copyPayload (theOp s) c).st.copyEnd (theOp s) c).stop = some (1, 0, 0, (0, 0)) ∧
       s.engAccess (s.opCtx (theOp s)) 0x200000 1 .copyRead = .ok { pa := scrBase 2, cls := 0 } ∧ s.meshHeld 70 (scrBase 2) = true) ∧
    (flying .fuse).op? 6 = none ∧ (flying .fuse).op? 7 ≠ none := by decide +kernel

/-- Copies: a copy of two bytes that passes its checks, and one whose second source byte is past the end of scratch. -/
theorem test_witness_copied : ∀ e ∈ ([(0x100, 2), (0xFFFFF, 1)] : List (Word × Nat)),
    let c : CopyCtl := { copier with cdim := 2, csrc := e.1 }.copyCtl
    let s := flying (.copy c 2) (some .copies)
    let o := theOp s
    let pa (j : Nat) : Nat := scrBase 70 + 0x200 + j
    o.parts = [] ∧ c.bad = none ∧ c.n0 * c.n1 * c.n2 = 2 ∧ e.2 ≤ 2 ∧
    (∀ j ∈ List.range e.2, c.validAt j ∧ ((s.copyRows o c (j / c.n0) 0).st).copyElem (s.opCtx o) (c.srcAt j) (fmtSize c.sf) none = .ok (0, false, none) ∧
      ((s.copyRows o c (j / c.n0) 0).st).engReach (s.opCtx o) (c.dstAt j) (fmtSize c.df) .copyWrite .plain false =
        .ok { pa := pa j, cls := 0 } ∧
      pa j % fmtSize c.df = 0 ∧ s.storage (8 * (pa j / 8)) true % 8 = 0) ∧
    (s.engByte (pa 0) + fmtSize c.df ≤ s.engByte (pa 1)) ∧
    (e.2 = 1 → c.validAt 1 ∧ s.copyElem (s.opCtx o) (c.srcAt 1) (fmtSize c.sf) none = .error (cXLT, 0)) := by decide +kernel

/-- Copies: an element that is not read and whose place cannot be written. -/
theorem test_witness_copied_fill :
    let c := { copier with cdim := 2, cval := 1, cdst := 0xFFFFF }.copyCtl
    let s := flying (.copy c 2) (some .copies)
    ¬ c.validAt 1 ∧ c.validAt 0 ∧ s.engReach (s.opCtx (theOp s)) (c.dstAt 1) 1 .copyWrite .plain false = .error (cXLT, 0) := by
  decide +kernel

/-- Copies: elements that the read refuses, that a seal does not admit, and with an uncorrectable error; numbers to convert. -/
theorem test_witness_copy_elements :
    (let s := { held [] with mem := [(chanBase 70, 0xFD)], bad := [(scrBase 70 + 0x100) / 8] }
     let c : Ctx := { s.ctx 70 3 with ptroot := BitVec.ofNat 64 (chanBase 70 + 1) }
     (match s.engAccess c 0x200000 1 .copyRead with | .ok t => t.cls = 3 | .error _ => false) = true ∧ s.sealHolds 0x200000 = false ∧
       (match s.engAccess { c with ptroot := 0 } 0x200000 1 .copyRead with | .ok _ => false | .error _ => true) = true ∧
       s.engAccess c 0x100 1 .copyRead = .ok (scr 0x100) ∧ s.meshHeld 70 (scr 0x100).pa = false ∧
       s.badWord (scr 0x100).pa 1 = some (scrBase 70 + 0x100) ∧ s.badWord (scr 0x108).pa 1 = none) ∧
    num32 0x7FC00000 = .nan ∧ num32 0xFF800000 = .inf true ∧ num32 0x3F800000 = .fin false 0x800000 (-23) := by decide +kernel

/-- Copies: a flag word and a barrier object in scratch: the unit is free, or applies another operation first; the object holds, and
has an uncorrectable error, and is none. -/
theorem test_witness_copy_end :
    let c := { copier with cdone := 0x300, cbnd := 0x100 }.copyCtl
    (let s := flying (.copy c 2) (some .copies) (atBarrier .join 2 1)
     let o := theOp s
     s.engReach (s.opCtx o) c.cdone 8 .atomic .flag = .ok (scr 0x300) ∧ s.storage (scr 0x300).pa false % 8 = 0 ∧
       s.engReach (s.opCtx o) c.cbnd 32 .atomic .barrier = .ok (scr 0x100) ∧ s.postBehind (theOp s) 70 = false ∧
       s.badWord (scr 0x100).pa 32 = none ∧ s.barCheck (s.readBar (scr 0x100).pa) 70 70 = none) ∧
    (let s := { flying (.copy c 2) (some .copies) (atBarrier .join 2 1) with
       bad := [(scrBase 70 + 0x100) / 8], ops := [anOp (.copy c 2) (some .copies), { anOp (.bar (scrBase 70 + 0x100) 0x100 .join none) with id := 8, k := 2 }] }
     s.badWord (scr 0x100).pa 32 ≠ none ∧ s.postBehind (theOp s) 70 = true) ∧
    (let s := { held [] with mem := [(scrBase 70 + 0x102, 8)] }
     s.barCheck (s.readBar (scr 0x100).pa) 70 70 ≠ none) ∧
    { c with cdone := 0 }.cdone = 0 ∧ c.cbnd ≠ 0 ∧ copier.copyCtl.cbnd = 0 := by decide +kernel

/-- Copies: a word that an update has overwritten, which the thread of the prd may read as it was, but no other thread and, once it is
written again, nobody; a copy that has read it ahead. -/
theorem test_witness_copy_ahead :
    (∀ e ∈ [((70, 3), 6, true), ((70, 2), 6, false), ((70, 3), 7, false)],
      let s := { flying (.copy copier.copyCtl 2) (some .copies) { held [] with mem := [(0x300000, 6)] } with
        masons := [(0, { stale := some { record := 0x200000, reader := some e.1, words := [(0x300000, 5, e.2.1)] } })]
        ev := { id := 7, opt := some 0x300000 } }
      s.op? s.ev.id = some (theOp s) ∧ ownerOf 0x300000 = 0 ∧ (theOp s).live = true ∧ (theOp s).parts = [] ∧
        ((s.mason 0).stale.bind (fun x => if x.reader = some (70, 3) then x.words.lookup 0x300000 else none)
          = some (5, s.read64 0x300000)) = e.2.2) ∧
    ([((0x300000 : Word), (5 : Word))].lookup (BitVec.ofNat 64 (8 * (0x300002 / 8))) = some 5 ∧
      [((0x300000 : Word), (5 : Word))].lookup (BitVec.ofNat 64 (8 * (0x300008 / 8))) = none) := by decide +kernel

/-- Crossbar: a scale that is finite and one that is not; a product of no code lies in the range. -/
theorem test_witness_product : (0x3F800000 : BitVec 32).toNat % 2 ^ 31 < 0x7F800000 ∧ ¬ (0x7F800000 : BitVec 32).toNat % 2 ^ 31 < 0x7F800000 ∧
    ∀ c : ℚ, |c * ((0 : Int) : ℚ)| ≤ (2 ^ 24 - 1) * 2 ^ 104 :=
  ⟨by decide, by decide, fun c => by norm_num⟩

/-- RelationalUnit: an intersection that has begun, by a word read ahead for its sums, for its records, and by one written, and one
that has not, while a publish waits; a word that has been read for the records and one that has not; the writes of its one record of
keys, and one number too many. -/
theorem test_witness_isect_parts :
    (∀ e ∈ ([([], [], [0]), ([(0x400, 3)], [], []), ([], [(0x400, 3)], []), ([], [], [])] :
        List (List (Word × Word) × List (Word × Word) × List Nat)),
      let s0 := flying (.eng .isect 0x300 0x200 0 0 none) (some .tiles) { held [] with
        mem := [(0x200, 2), (0x201, 1), (0x209, 4), (0x210, 8), (0x211, 4), (0x228, 1), (0x22C, 1), (0x304, 1), (0x400, 3),
          (0x408, 2)].map (fun e => (scrBase 70 + e.1, e.2)) }
      let s := { s0 with
        cores := s0.cores ++ [(71, { slots := [(0, { thread with blocked := some .begun })] })]
        ops := s0.ops.map (fun (o : Op) => { o with early := e.1, found := e.2.1, parts := e.2.2 }) }
      let o := theOp s
      let start : RelSt := { st := s, c := s.opCtx o, early := o.early, found := o.found, parts := o.parts }
      let find := isectFind 0x300 0x200 start
      s.op? s.ev.id = some o ∧ s.oldestOf o OpKind.isRel = true ∧ s.publishWaits 70 = true ∧
        find.1.toOption.map (·.1) = some [[2, 0, 0, 0]] ∧ (rd8 0x400 0 { start with early := [] }).1 = .ok 3 ∧
        ((o.found.lookup 0x400).isSome = (e.2.1 ≠ [])) ∧
        (1 ∉ o.parts) ∧ (wr8 0x300 32 2 find.2).1 = .ok () ∧ 4 * ([[2, 0, 0, 0]] : List (List Word)).length < 5 ∧
        (e.2.2 = [] → (wrN 0x300 4 1 find.2).1 = .ok ())) ∧
    (0x1908 : Word).toNat % 32 ≠ 0 ∧ (0x1900 : Word).toNat % 32 = 0 := by decide +kernel

/-- RelationalUnit: a delta table and two work tables that lie apart, and one work table named twice; the entries that a level keeps. -/
theorem test_witness_work_tables :
    let t := theTree 0
    let r := joined 0
    let d := got (t.table 0x2100 true) r noTable
    let up := got (t.table (t.node 1).upt) r noTable
    answers (t.output 0x2200) r = true ∧ answers (t.output 0x2300) r = true ∧ answers (disjointTables t d 0x2200 0x2300) r = true ∧
      (disjointTables t d 0x2200 0x2200 r).1 = .error (cRUF, 9) ∧ up.entries = 1 ∧
      answers (rdWords (up.entry 0) (up.esize / 8)) r = true ∧ 1 ≠ t.root := by decide +kernel

/-! ### Witnesses: records, updates, mason units -/

/-- A record's bytes lie in one channel. -/
theorem test_witness_record_run : RecordRun 0x200000 (64 + 24 * 16) := ⟨by decide, 0, 0x200000, by decide +kernel, by decide⟩

/-- ParameterRecords: a contribution at a record that is busy with 64 held and with fewer, and at one that others are held for. -/
theorem test_witness_held_contributions :
    let c : Contribution := { pa := 0x200000, off := 0, g := [], op := 3 }
    ∀ e ∈ [(1, 64), (1, 63), (0, 1), (0, 0)],
      let s := { flying (giving 0) (some .stores) (records (if e.1 = 1 then [(0x11, 1)] else [])) with
        masons := [(0, { held := List.replicate e.2 c })] }
      s.op? s.ev.id = some (theOp s) ∧ s.heldBack (theOp s) = false ∧ ownerOf 0x200000 = 0 ∧ (s.mason 0).held.length = e.2 ∧
        s.recAccess (theOp s) 0x200000 true = .ok (0x200000, 2 ^ 33 - 0x200000) ∧ (s.record 0x200000).st = e.1 ∧
        s.badWord 0x200000 64 = none ∧ c.op ≠ (theOp s).id ∧ s.heldAt (theOp s).id = none := by decide +kernel

/-- ParameterRecords: a contribution that is held itself; what an update has overwritten, before the first prd and after it. -/
theorem test_witness_stale :
    (let s := { flying (giving 0) (some .stores) (records []) with masons := [(0, { held := [{ pa := 0x200000, off := 0, g := [], op := 7 }] })] }
     s.op? s.ev.id = some (theOp s) ∧ s.heldBack (theOp s) = false ∧ s.heldAt 7 = some 0x200000) ∧
    (∀ reader ∈ [none, some (70, 3)],
      let x : Stale := { record := 0x200000, reader := reader, words := [] }
      let s := { records [] with masons := [(0, { stale := some x })] }
      (s.mason (ownerOf 0x200000)).stale = some x ∧ x.record = 0x200000 ∧ x.record ≠ 0x300000) := by decide +kernel

/-- ParameterRecords: what a contribution finds: a locked table over the header and over ACC, a bad word in either, a record that is
none, one that is FAULTED, one to which it can be added with EXPECT reached and not. -/
theorem test_witness_contribute :
    let lock (t : Nat) : Seal := { part := 0, slot := 0, base := 0, pages := 1, table := t }
    (∀ e ∈ [(0x200000, true, false), (0x200140, false, true)],
      let s := { records [] with seals := [lock e.1] }
      s.inSealTable 0x200000 64 = e.2.1 ∧ s.inSealTable ((s.record 0x200000).acc 0) 128 = e.2.2) ∧
    (∀ e ∈ [(0x200000 / 8, true, false), (0x200148 / 8, false, true)],
      let s := { records [] with bad := [e.1] }
      (s.badWord 0x200000 64).isSome = e.2.1 ∧ (s.badWord ((s.record 0x200000).acc 0) 128).isSome = e.2.2) ∧
    (let s := { held [] with mem := [(0x200014, 8)] }
     recHOk (s.record 0x200000).h = false) ∧
    (let s := records [(0x11, 0x33)]
     3 ≤ (s.record 0x200000).st ∧ recHOk (s.record 0x200000).h = true ∧ windowExpOk (s.record 0x200000).e.toInt = true) ∧
    (∀ expect ∈ [1, 2],
      let s := records [(0x08, expect)]
      (s.record 0x200000).st < 3 ∧ (decide ((s.record 0x200000).arrived + 1 = (s.record 0x200000).expect) = (expect = 1)) ∧
        (s.record 0x200000).expect ≠ 0) ∧ (List.replicate 16 (0 : BitVec 32)).length = 16 := by decide +kernel

/-- ParameterRecords: the held contributions of a record: a parm that waits, a busy record, one that is in flight and one that is not. -/
theorem test_witness_release_held :
    (∀ e ∈ [(OpKind.parm 0x200000 0x300 0 0 16, true), (giving 0, false)],
      let s := flying e.1 (some .stores) (records [])
      s.parmWaits 0x200000 = e.2 ∧ (s.op? 7).isSome = true ∧ s.op? 8 = none ∧ (s.record 0x200000).st = 0) ∧
    (records [(0x11, 1)]).recBusy 0x200000 = true ∧ (records [(0x11, 1)]).inSealTable 0x200000 64 = false := by decide +kernel

/-- ParameterRecords: parm on a locked record, on one that is updated or queued, and on one that it initialises. -/
theorem test_witness_parm_waits :
    let parm : OpKind := .parm 0x200000 0x300 0 0 16
    (∀ e ∈ ([({ run := some 0x200000 }, true), ({ queue := [0x200000] }, true), ({ rules := [(0, {})] }, false)] : List (Mason × Bool)),
      let s := { flying parm (some .stores) (records []) with masons := [(0, e.1)] }
      s.recAccess (theOp s) 0x200000 true = .ok (0x200000, 2 ^ 33 - 0x200000) ∧ s.inSealTable 0x200000 (64 + 24 * 16) = false ∧
        s.srcWords (theOp s) 0x300 16 = .ok (List.replicate 16 0) ∧
        ((s.mason 0).run = some 0x200000 || (s.mason 0).queue.contains 0x200000) = e.2 ∧ (e.2 = false → Sparse.has (s.mason 0).rules 0 = true)) ∧
    recHOk 16 = true ∧ 64 + 24 * 16 ≤ 2 ^ 33 - 0x200000 ∧
    (let s := { flying parm (some .stores) (records []) with seals := [{ part := 0, slot := 0, base := 0, pages := 1, table := 0x200100 }] }
     s.recAccess (theOp s) 0x200000 true = .ok (0x200000, 2 ^ 33 - 0x200000) ∧ s.inSealTable 0x200000 (64 + 24 * 16) = true) := by
  decide +kernel

/-- ParameterRecords: a unit that runs, one with an empty queue, a record that is no longer QUEUED, and the ways in which a start
fails and in which it does not. -/
theorem test_witness_starts :
    let unit (m : Mason) (hd : List (Nat × Byte)) : State := { records hd with ev := { g := 0 }, masons := [(0, m)] }
    let q : Mason := { queue := [0x200000] }
    let q1 := [((0x11 : Nat), (1 : Byte))]
    (unit { q with run := some 64 } q1).mason 0 ≠ {} ∧ ((unit {} []).mason 0).queue = [] ∧
    (let s := unit q []
     (s.mason 0).queue = [0x200000] ∧ (s.mason 0).run = none ∧ (s.record 0x200000).st ≠ 1) ∧
    (∀ e ∈ [(unit q q1, 5), ({ unit q q1 with bad := [0x200010 / 8] }, 7),
        ({ unit q q1 with seals := [{ part := 0, slot := 0, base := 0, pages := 1, table := 0x200000 }] }, 2)],
      let s := e.1
      let r := s.record 0x200000
      r.st = 1 ∧ (s.mason 0).buf = [] ∧ (s.mason 0).held = [] ∧ s.recLocked r = (e.2 = 2) ∧ (e.2 ≠ 2 → s.startBad r = (e.2 = 7)) ∧
        Sparse.has (s.mason 0).rules r.rule = false) ∧
    (let s := unit { q with rules := [(0, {})] } q1
     s.recLocked (s.record 0x200000) = false ∧ s.startBad (s.record 0x200000) = false ∧ Sparse.has (s.mason 0).rules (s.record 0x200000).rule = true) ∧
    ¬ 2 ^ 24 ≤ (({} : Mason)).cycles := by decide +kernel

/-- MasonWords: jumps to the first word of the image, to one past it, and to a misaligned address; a counter past the image; pskip. -/
theorem test_witness_mason_jumps :
    (∀ e ∈ [(0, true), (4092, true), (4096, false), (2, false)],
      let s := masonry e.1
      (∀ i ∈ [Instr.bp 0 0 0, .bp 1 0 0, .br 0, .bl 1, .jr 11, .jlr 10 11], Ready i s) ∧ s.predBit 0 = true ∧
        decide ((s.val 11).v.toNat < 4096 ∧ (s.val 11).v.toNat % 4 = 0) = e.2) ∧
    (Instr.pskip 1 0 1).wf = true ∧
    (let s := { masonry 0 with masons := [(70, { run := some 0x200000, pc := 4096 })] }
     (s.mason 70).run = some 0x200000 ∧ (s.mason 70).cycles < 2 ^ 24 ∧ 4096 ≤ (s.mason 70).pc) := by decide +kernel

/-- MasonWords: the end of an update whose record is locked, whose store is, and of one that neither is. -/
theorem test_witness_mason_end :
    ∀ e ∈ [(0x200000, true), (0x300000, true), (0x400000, false)],
      let s := { records [(0x11, 2)] with
        cur := .mason 0, masons := [(0, { run := some 0x200000, buf := [wordWrite 0x300000 8 5 false] })]
        seals := [{ part := 0, slot := 0, base := 0, pages := 1, table := e.1 }] }
      Ready .halt s ∧ (s.mason 0).run = some 0x200000 ∧ (s.mason 0).buf = [] ++ [wordWrite 0x300000 8 5 false] ∧
        ((s.flushBuf 0).recLocked ((s.flushBuf 0).record 0x200000) || (s.mason 0).buf.any (fun w => s.inSealTable w.pa 8)) = e.2 ∧
        ((s.flushBuf 0).record 0x200000).h = 16 := by decide +kernel

/-! ### Witnesses: host, key store, signatures, observation -/

/-- HostAccess: a partition whose reset runs, one whose streams are torn down, one that no function is bound to, and one that the
host reaches; a word with an error. -/
theorem test_witness_host_reset :
    (∀ e ∈ [(true, false, [(5, 0)]), (false, true, [(5, 0)]), (false, false, []), (false, false, [(5, 0)])],
      let s := { held [] with
        parts := [(0, { dies := 1, st := .running, starting := e.1, ideTorn := e.2.1 })], vfs := e.2.2, ev := { off := 0x20000000 } }
      (s.part 0).starting = e.1 ∧ (s.part 0).ideTorn = e.2.1 ∧ s.exposed 0 = (!e.2.1 && e.2.2 ≠ []) ∧
        s.hdmTarget 0 (s.ev.off / 8 * 8) = some 0) ∧
    ({ held [] with bad := [0] }.badWord 0 8 ≠ none) := by decide +kernel

/-- HaltsAndResets: a start that reaches the key store after an open check that still waits there, and before it. -/
theorem test_witness_key_order : ∀ e ∈ [(9, true), (3, false)],
    let s := { held [] with
      parts := [(0, { dies := 1, starting := true, reached := e.1 })], vr := { lcs := 2 }
      cores := [(vrNum, { slots := [(1, { thread with blocked := some (.vrEngine 2 5) })] })] }
    (s.part 0).starting = true ∧ s.needsKey 0 = true ∧ s.vrBusy 2 = false ∧ s.vr.dbgOpen = false ∧
      ((s.core vrNum).slots.any (fun x => match x.2.blocked with
        | some (.vrEngine 2 u) => u < (s.part 0).reached
        | _ => false)) = e.2 := by decide +kernel

/-- VrelellEngines: a signature that holds, of a message that is bound and with the fused key: the key and R are the neutral point,
and S is 0. -/
theorem test_witness_bound_verify :
    let s0 := flying (.verify true 0x2000000100 0x100000000 0x400)
    let s := { s0 with vr := { fuses := [(8, 1)] }, mem := [(2 ^ 48 + 0x400, 1)] }
    s.accessesBefore 70 3 7 = true ∧ s.op? 7 = some (theOp s) ∧
      edVerify (s.sigPublic 0x100000000) (s.bytesAt (2 ^ 48 + 0x100) 32) (s.bytesAt (2 ^ 48 + 0x400) 114) = 0 ∧
      s.read64 (2 ^ 48 + 0x100) = s.fuse 0 ∧ s.byte (2 ^ 48 + 0x108) = s.vr.lcs.setWidth 8 ∧
      s.read64 (2 ^ 48 + 0x110) = s.vr.nonce.setWidth 64 ∧ (0x100000000 : Word).toNat / 2 ^ 32 % 4 = 1 := by decide +kernel

/-- VrelellEngines: a report of 576 bytes that holds, and one that does not. -/
theorem test_witness_report : ∀ dbg ∈ [true, false],
    let s0 := flying (.sign 0x24000000100 0x400)
    let s := { s0 with vr := { dbgOpen := dbg } }
    (0x24000000100 : Word).toNat / 2 ^ 32 % 2 ^ 11 = 576 ∧ s.read64 (2 ^ 48 + 0x100) = s.fuse 0 ∧
      s.byte (2 ^ 48 + 0x108) = s.vr.lcs.setWidth 8 ∧ (s.byte (2 ^ 48 + 0x109) = 0) ∧ s.vr.dbgOpen = dbg ∧
      s.bytesAt (2 ^ 48 + 0x140) 512 = s.measBytes := by decide +kernel

/-- Observation: TRACE set and clear, and records of a cycle in the order of their slots. -/
theorem test_witness_trace :
    ((on thread [] { smpl := 0x10 }).core 70).smpl.getLsbD 4 = true ∧ ((held []).core 70).smpl.getLsbD 4 = false ∧
    [((3 : Nat), ((1 : Word), (2 : Word))), (3, (1, 2)), (63, (0, 0))].Pairwise (fun x y => x.1 ≤ y.1) ∧ (held []).bad = [] ∧
    (let s := { on thread [] { sampleDue := some { named := some (3, 0x200000), cyc := 9, event := 2, rest := 1 } } with ev := { g := 70 } }
     (s.core s.ev.g).sampleDue = some { named := some (3, 0x200000), cyc := 9, event := 2, rest := 1 }) := by decide +kernel

/-! ### Witnesses: special values, tags, errors, orders of arrival -/

/-- FloatValues, VfResults: sums that are zero, of like and of opposite signs; a NaN beside a product of zero and an infinity. -/
theorem test_witness_zero_sums :
    (∀ e ∈ [((FNum.fin false 3 0), FNum.fin true 3 0), (.fin true 0 5, .fin true 0 0)], e.1.rat + e.2.rat = 0) ∧
    ((num32 0).isNan || (num32 0x7F800000).isNan || (num32 0x7FC00000).isNan) = true := by
  refine ⟨?_, by decide +kernel⟩
  intro e he
  rcases List.mem_cons.mp he with rfl | he
  · norm_num [FNum.rat]
  · rcases List.mem_cons.mp he with rfl | he
    · norm_num [FNum.rat]
    · cases he

/-- StoresApply: a scratch word, a word of a channel, and a word with an uncorrectable error. -/
theorem test_witness_store_tags : (region (scr 0x100).pa).tagged = true ∧ (region (chanBase 70)).tagged = false ∧
    (let s := { held [] with bad := [(scr 0x100).pa / 8] }
     (scr 0x100).pa / 8 ∈ s.bad) := by decide +kernel

/-- FullEmptyWords: a reading form that would apply to a word with an uncorrectable error, at the head of the queue and just
arrived. -/
theorem test_witness_full_empty_soft : ∀ arr ∈ [some 1, none],
    let s0 := flying (.fullEmpty .ldFe (scrBase 70 + 0x100) 0x100 {} none) none { on thread [] { tvec := 1 } with
      tags := [((scrBase 70 + 0x100) / 8, 1)], bad := [(scrBase 70 + 0x100) / 8] }
    let s := { s0 with ops := s0.ops.map (fun (o : Op) => { o with arr := arr }) }
    s.op? s.ev.id = some (theOp s) ∧ (theOp s).live = true ∧ s.isFirst (theOp s) = true ∧ s.badWord (scrBase 70 + 0x100) 8 ≠ none ∧
      (s.tagOf (scrBase 70 + 0x100)).getLsbD 0 = true ∧ (s.slot 70 3).inHandler = false ∧ (s.core 70).tvec.getLsbD 0 = true ∧
      (s.queueHead (scrBase 70 + 0x100) = if arr = none then none else some (theOp s)) ∧
      (s.atWord (scrBase 70 + 0x100)).all (fun p => !p.outranks (theOp s)) = true := by decide +kernel

/-- Atomics: exponents that name no window, flags that are enabled, a word with an uncorrectable error, and no destination. -/
theorem test_witness_atomic_faults :
    (0xFFFFFBB3 : BitVec 32).toInt = -1101 ∧ (1001 : BitVec 32).toInt = 1001 ∧ (0xFFFFFBB4 : BitVec 32).toInt = -1100 ∧
    (let s := on { thread with fctl := 0x1F0000 } [(11, 0x100), (12, 0), (13, 0x7FC00000)]
     Ready (.redEw 12 11 13) s ∧ (s.val 13).t = false ∧ (s.val 12).t = false ∧
       access (s.val 11).v 8 8 .atomic .plain false s = .ok (scr 0x100, s) ∧ s.badWord (scr 0x100).pa 8 = none ∧
       (windowOf 64 0 (num32 0x7FC00000)).2 &&& s.fctlNow.extractLsb' 16 5 ≠ 0) ∧
    (∀ kind ∈ [OpKind.atomic .cas (scrBase 70 + 0x100) {} 0 false none, .red .add (scrBase 70 + 0x100) {} false],
      let s := flying kind none { held [] with bad := [(scrBase 70 + 0x100) / 8] }
      s.op? s.ev.id = some (theOp s) ∧ s.isFirst (theOp s) = true ∧ s.badWord (scrBase 70 + 0x100) 8 = some (scrBase 70 + 0x100)) := by
  decide +kernel

/-- Waits: an address of more than 49 bits; pending faults in order of issue, one to join them, and the earliest that is covered. -/
theorem test_witness_fault_order :
    (let s := on { thread with level := .sup } [(11, 0x2000000000000)]
     Ready (.tlbinv 11) s ∧ 2 ^ 49 ≤ (s.val 11).v.toNat) ∧
    (let ps := [{ fault with order := 1, cls := .stores }, fault, { fault with order := 4 }]
     let s := on { thread with pend := ps } []
     Ready (.wait 0 15 15 15) s ∧ s.waitMet 70 3 0 15 15 15 = true ∧ ps.Pairwise (fun x y => x.order < y.order) ∧ fault ∈ s.me.pend ∧
       covers0 0 15 15 15 fault.cls = true ∧ (∀ q ∈ s.me.pend, covers0 0 15 15 15 q.cls = true → fault.order ≤ q.order) ∧
       (∀ q ∈ ps, q.order ≠ 3)) := by decide +kernel

/-- Migration: a membership that a BMEM register names. -/
theorem test_witness_carried :
    let s := on { thread with bmem2 := 0x8000000000000100 } [] {}
    s.me.bmem2.getLsbD 63 = true ∧
      s.engAccess { s.ctx 70 3 with level := .sup } (BitVec.ofNat 64 (s.me.bmem2.toNat % 2 ^ 49)) 32 .atomic .barrier = .ok (scr 0x100) := by
  decide +kernel

/-- BarriersApply: a scope whose instance at the owner leaves out the issuing core. -/
theorem test_witness_init_scope : (held []).covers ((0x2 : Word).extractLsb' 16 3).toNat 71 70 = false := by decide +kernel

/-- Arrivals: a vacant slot that an smsg names; a queue of three words, of which a blocked instruction has taken one more, and a
full one. -/
theorem test_witness_port_held :
    (let s := flying (.msg 71 3 5 9) (some .stores)
     s.op? s.ev.id = some (theOp s) ∧ (theOp s).live = true ∧ (s.slot 71 3).bound = false ∧ s.heldBack (theOp s) = false ∧
       s.performedBefore 70 3 7 = true ∧ s.msgBehind (theOp s) = false) ∧
    (∀ n ∈ [2, 3],
      let s := flying (.portWord 70 3 2 { v := 5 }) none
        (on { thread with qe := List.replicate n {}, taken := [(2, {})], blocked := some (.answer 5) } [])
      s.op? s.ev.id = some (theOp s) ∧ (s.slot 70 3).bound = true ∧ (s.slot 70 3).portHeld 2 = n + 1) := by decide +kernel

/-- SpawnIssues: a misaligned image and node, a bad field; a hint to a core of the partition, to a masked one and to one of no
partition. -/
theorem test_witness_record_checks :
    (∀ e ∈ [(({ small with image := 0x20 } : TaskRec), (0x04, (0x20 : Word))), ({ small with node := 0x10 }, (0x04, 0x10)),
        ({ small with hint := 0x4000 }, (0x01, 0x100)), ({ small with ctl := 0x20800000000 }, (0x01, 0x100))],
      e.1.check 0x100 = .error ⟨e.2.1, e.2.2, 0⟩) ∧ small.check 0x100 = .ok () ∧
    (let s := { placing {} with masked := [71] }
     s.partOf 70 = some 0 ∧ s.partOf 75 = some 0 ∧ s.isMasked 75 = false ∧ s.isMasked 71 = true ∧ s.partOf 4000 ≠ some 0 ∧
       s.partCores 0 ≠ [] ∧ s.hintTarget 70 7 1 = 7) := by decide +kernel

/-- EndsOfTasks: a kill that sends its node's operation, one whose operation is in flight and one whose is not; a copy of a blocked
slot, a stop of the blocked instruction's operation, and an operation of a vacated slot; halt and exit on the Vrelell core. -/
theorem test_witness_kills :
    (let s := on { thread with task := 0x100 } []
     let u := s.dropAll 70 3
     (s.slot 70 3).task ≠ 0 ∧ (s.slot 70 3).task.toNat % 32 = 0 ∧
       u.engAccess { u.ctx 70 3 with level := (s.slot 70 3).level } 0x100 32 .atomic .node = .ok (scr 0x100)) ∧
    (∀ id ∈ [7, 6],
      let s := flying (.node (scrBase 70 + 0x100) 0x100 (.dec true) false) none
        (on { thread with blocked := some (.killNode id false false) } [])
      (s.slot 70 3).blocked = some (.killNode id false false) ∧ (s.core 70).frozen = none ∧ (s.op? id).isSome = (id = 7)) ∧
    (∀ id ∈ [7, 6],
      let s := flying (.copy copier.copyCtl 1) (some .copies) (on { thread with blocked := some (.answer id) } [])
      (s.slot 70 3).blocked = some (.answer id) ∧ (s.abandon 70 3).busySlot 70 3 true = (id = 6)) ∧
    (flying .fuse none (held []) false).op? 7 = some (theOp (flying .fuse none (held []) false)) ∧
    (∀ i ∈ [Instr.halt, .exit],
      let s := on { thread with level := .mgmt } [] {} vrNum
      Ready i s ∧ s.waitMet vrNum 3 0 0 0 0 = true ∧ s.me.pend = []) := by decide +kernel

/-- GangsAndMigrants: a member's window; a thread that cannot bind: one that waits already, one that arrives with another of a lower
and of a higher slot; the window of one that binds. -/
theorem test_witness_migrant_order :
    (8 ≤ small.wcells ∧ small.wcells ≤ 128 ∧ 8 * Sparse.get 0 [(70, 1), (71, 0)] 70 + small.wcells ≤ numCells 70) ∧
    (let m : OpKind := .migrant { target := 71, pc := 0x400, level := .user, pred := 1, fctl := 0, prec := 64, vctl := 0, wlim := 8,
                                  cells := [], task := 0, members := [], gang := none, syncs := 0 }
     ∀ e ∈ [(some 2, some 1, 4, true), (none, none, 2, true), (none, none, 4, false)],
      let s := meeting m m e.1 e.2.1 e.2.2.1 { placing {} with cores := [(71, { frozen := if e.2.2.2 then none else some 1 })] }
      s.op? s.ev.id = some (theOp s) ∧ (s.migrants 71).length = 2 ∧ (s.migrants 71).any (·.before (theOp s)) = e.2.2.2 ∧
        (s.migrants 71).any (fun q => q.arr.isNone && q.outranks (theOp s)) = (e.2.2.1 = 2) ∧
        ((s.core 71).frozen.isSome = !e.2.2.2)) ∧
    8 * 0 + (8 : BitVec 8).toNat ≤ numCells 71 := by decide +kernel

/-- CoreSaves: slots that are not blocked; an image with a record of a slot that had operations in flight, of this save and of one
before a reset; scratch bytes and tags of the core. -/
theorem test_witness_restored :
    (let x : Slot := { thread with loads := 2, stores := 1, pend := [fault] }
     let im : SaveImage := { image with core := { slots := [(3, x), (4, thread)] }, scratch := [(scrBase 70 + 8, 5)],
                                        stags := [((scrBase 70 + 8) / 8, 4)] }
     im.core.slots.Pairwise (fun x y => x.1 < y.1) ∧ (3, x) ∈ im.core.slots ∧ x.count .loads ≠ 0 ∧ x.count .stores ≠ 0 ∧
       x.pend.length < 7 ∧ thread.loads = 0 ∧ thread.stores = 0 ∧ Memory.wf im.scratch = true ∧
       (∀ e ∈ im.scratch, scrBase 70 ≤ e.1 ∧ e.1 < scrBase 70 + 2 ^ 20) ∧ im.stags.Pairwise (fun x y => x.1 < y.1) ∧
       (∀ e ∈ im.stags, scrBase 70 ≤ 8 * e.1 ∧ 8 * e.1 < scrBase 70 + 2 ^ 20)) ∧
    image.seq = ({ saveSeq := 1 } : Core).saveSeq ∧ image.seq ≠ ({} : Core).saveSeq ∧
    ((on { thread with level := .sup } []).core 70).slots.all (fun e => e.2.blocked.isNone) = true := by decide +kernel

/-- Copies, MatrixEngine: an earlier prd of the thread; an acc.rd of one row, which has and has not begun, and its lanes. -/
theorem test_witness_prd_ahead :
    (let s0 := flying (.copy copier.copyCtl 1) (some .copies)
     let s := { s0 with ops := s0.ops ++ [{ anOp (.eng .prd 0 0x200000 0 0 (some 5)) (some .loads) with id := 6 }] }
     s.copyBehind (theOp s) copier.copyCtl = true ∧ (theOp s).parts = [] ∧ s.oldestOf (theOp s) OpKind.isMatrix = false) ∧
    (∀ parts ∈ [[], [3]],
      let s0 := flying (.eng .accRd 0x100000000 0x1000 0 0 none) (some .tiles)
      let s := { s0 with ops := s0.ops.map (fun (o : Op) => { o with parts := parts }), ev := { s0.ev with opt := some 3 } }
      let t := accRect 0x100000000
      s.op? s.ev.id = some (theOp s) ∧ s.oldestOf (theOp s) OpKind.isMatrix = true ∧ 3 < t.r * t.c ∧ t.r * t.c ≤ 16 ∧
        ((theOp s).parts.contains 3 = (parts = [3])) ∧ s.publishWaits 70 = false ∧ (s.core 70).shadow = [] ∧ Memory.wf s.mem = true ∧
        (0x1000 : Word).toNat % 64 = 0 ∧ (0x1000 : Word).toNat + 4 * (t.r * t.c) ≤ 2 ^ 20) ∧
    (let s := flying (.eng .accRd 0x100000000 0x1000 0 0 none) (some .tiles)
       { held [] with cores := [(71, { slots := [(0, { thread with blocked := some .begun })] })] }
     s.publishWaits 70 = true ∧ (theOp s).parts = [] ∧ (theOp s).early = []) := by decide +kernel

/-- Crossbar: no deviation since the read, one as large as the largest, and a larger one beyond saturation. -/
theorem test_witness_peak :
    ((on thread [] {}).core 70).peak = none ∧ ((on thread [] { peak := some 0x10000 }).core 70).peak = some 0x10000 ∧
      (0x10000 : Nat) ≤ 0x10000 ∧ (0x10000 : Nat) < 0x10001 := by decide +kernel

/-- ParameterRecords: the generation before the first; a record that cannot be reached, weights that cannot be read; held
contributions at records that are busy, and at ones that are not. -/
theorem test_witness_record_ends :
    (let s := flying (.eng .prd 0 0x200000 (BitVec.ofNat 64 (1024 * (2 ^ 54 - 1))) 0 (some 8)) (some .loads) (records [])
     (s.record 0x200000).gen = 0 ∧ (0 + 2 ^ 54 - (2 ^ 54 - 1)) % 2 ^ 54 = 1) ∧
    (let s := flying (.parm 0x200000 0x300 0 0 16) (some .stores)
     (match s.recAccess (theOp s) 0x200000 true with | .error _ => true | .ok _ => false) = true) ∧
    (let s := flying (.parm 0x200000 0x300 0 0 16) (some .stores) { records [] with bad := [(scrBase 70 + 0x308) / 8] }
     s.inSealTable 0x200000 (64 + 24 * 16) = false ∧
       (match s.srcWords (theOp s) 0x300 16 with | .error e => decide (e.1 ≠ 0) | .ok _ => false) = true) ∧
    (let c : Contribution := { pa := 0x300000, off := 0, g := [], op := 3 }
     let s := { flying (giving 0) (some .stores) { records [] with mem := (records []).mem ++ [] } with masons := [(0, { held := [c] })] }
     let b := { s with mem := [(0x200014, 16), (0x300011, 1), (chanBase 70, 0xAD)] }
     s.masons.flatMap (fun e => e.2.held.map (·.pa)) = [0x300000] ∧ (s.record 0x300000).st = 0 ∧
       0x200000 + 64 + 24 * 16 ≤ c.pa ∧ (b.record 0x300000).st = 1 ∧ b.inSealTable 0x300000 64 = false) := by decide +kernel

/-- VrelellWrites: an advance to RMA with the port closed. -/
theorem test_witness_closed_port :
    let s := vrelell 3 { lcs := 2 }
    (s.val s.ev.d).v = 3 ∧ s.vr.dbgOpen = false ∧ s.vr.lcs = 2 ∧ (s.val s.ev.d).v.toNat = s.vr.lcs.toNat + 1 := by decide +kernel

/-- StepRuns: the first word of an image whose version is 1, of one whose version is not, and of one that cannot be fetched. -/
theorem test_witness_first_word : ∀ version ∈ [(1 : Byte), 2],
    let s0 := turning 0x04A89151
    let s := { s0 with mem := s0.mem ++ [(chanBase 70 + 64, version)], cores := s0.cores.map (fun (e : Nat × Core) => (e.1, { e.2 with
      slots := e.2.slots.map (fun (x : Nat × Slot) => (x.1, { x.2 with header := some 0x200040 })) })) }
    let r := { s with agenda := [] }
    let u := (r.takeSample 70).reap 70
    (u.slot 70 3).header = some 0x200040 ∧ (u.slot 70 3).inHandler = false ∧ u.turnSlot 70 = some 3 ∧
      (let v := ((u.taking 70 3).cacheWord 70 (chanBase 70) 0x04A89151).holdWord 70 3 0x04A89151
       v.versionBad 70 (u.slot 70 3).level 0x200040 = .ok (version = 2) ∧
         v.versionBad 70 (u.slot 70 3).level 0x40000000000 = .error ⟨cXLT, 0x40000000000, 0⟩ ∧
         (v.tlbFind 70 0x200040).map (v.checkLeaf { v.ctx 70 0 with level := .user } 0x200040 2 .fetch .plain false) =
           some (.ok { pa := chanBase 70 + 64, cls := 0 }) ∧ v.badWord (chanBase 70 + 64) 2 = none) := by decide +kernel

end Sys2Proof.Tests
end

