-- ==== Sys2Proof/Proofs/ResetState.lean ====
section
/-! SUPPORT. Sys2Proof/Proofs/ResetState.lean: the package reset field by field, and the machine right after reset (O60). -/

namespace Sys2Proof.Organisation
open Sys2Proof.Machine

/-! ### What the package reset leaves (R354, R363) -/

theorem packageReset_cores (s : State) : s.packageReset.cores = [] := rfl

theorem packageReset_ops (s : State) : s.packageReset.ops = [] := rfl

theorem packageReset_agenda (s : State) : s.packageReset.agenda = s.agenda := rfl

theorem packageReset_lcs (s : State) : s.packageReset.vr.lcs = s.vr.lcs := rfl

/-- The nonce is the next free value. -/
theorem packageReset_nonce (s : State) : s.packageReset.vr.nonce = Config.freeNonce s.free := rfl

theorem packageReset_mem_of_nil {s : State} (h : s.mem = []) : s.packageReset.mem = [] := by
  show List.filter _ s.mem = []
  rw [h, List.filter_nil]

theorem packageReset_parts_of_nil {s : State} (h : s.parts = []) : s.packageReset.parts = [] := by
  show List.map _ s.parts = []
  rw [h, List.map_nil]

/-- Where no core is listed, every slot is as a vacant one is. -/
theorem slot_of_no_cores {s : State} (h : s.cores = []) (g k : Nat) : s.slot g k = {} := by
  unfold State.slot State.core
  rw [h]; rfl

/-- A turn that the agenda names first and that is an event without an encoding is that event, run with its arguments. -/
theorem step_event {s t : State} {i : Instr} {a : EvArg} {rest : List Turn} (hs : s.agenda = .event i a :: rest)
    (hi : i.isWord = false)
    (h : exec i { s with agenda := rest, ev := a, cur := .slot a.g a.k } = .next t) :
    step s = .next { t with ev := s.ev, cur := s.cur } := by
  unfold step State.runOne State.runEvent
  rw [hs]
  simp only [hi, h, Bool.false_eq_true, if_false]

/-- Settles O60: every table is empty at reset, so each read gives its default; the first step is the package reset. -/
theorem resetState : Obligations.ResetState := by
  unfold Obligations.ResetState
  refine ⟨rfl, fun _ => rfl, fun _ _ => ⟨rfl, rfl, rfl, rfl⟩, fun _ => ⟨rfl, rfl, rfl, rfl⟩, fun _ => ⟨rfl, rfl, rfl⟩, ?_⟩
  let u : State := { State.reset with agenda := [], ev := {}, cur := .slot 0 0 }
  refine ⟨_, step_event (t := u.packageReset) rfl rfl rfl, ?_⟩
  exact ⟨packageReset_mem_of_nil rfl, packageReset_parts_of_nil rfl, packageReset_agenda u, packageReset_ops u,
    packageReset_lcs u, packageReset_nonce u,
    fun g k => congrArg Slot.bound (slot_of_no_cores (packageReset_cores u) g k)⟩

end Sys2Proof.Organisation
end

