-- ==== Sys2Proof/Proofs/IssueHolds.lean ====
section
/-! SUPPORT. Sys2Proof/Proofs/IssueHolds.lean: how the checks before issue fail at a port, how the steps of an instruction answer
on a slot, and what keeps an instruction from issuing (O19). -/

namespace Sys2Proof.Organisation
open Sys2Proof.Machine

/-! ### The executing slot -/

theorem gk_of_slot {s : State} {g k : Nat} (h : s.cur = .slot g k) : s.gk = (g, k) := by
  unfold State.gk; rw [h]

theorem me_of_slot {s : State} {g k : Nat} (h : s.cur = .slot g k) : s.me = s.slot g k := by
  unfold State.me; rw [gk_of_slot h]

theorem onMason_of_slot {s : State} {g k : Nat} (h : s.cur = .slot g k) : s.onMason = false := by
  unfold State.onMason; rw [h]

theorem seen_of_slot {s : State} {g k : Nat} (h : s.cur = .slot g k) : s.seen = s := by
  unfold State.seen; rw [h]

/-! ### Operands and checks that answer -/

/-- A name that is no port reads its value and changes nothing. -/
theorem readName_of_notPort {s : State} {a : Name} (h : a.isPort = false) : readName a s = .ok (s.val a, s) := by
  rw [readName_of_holds (holds_of_notPort h), took_of_notPort h]

/-- R98: an operand with a clear tag gives its value. -/
theorem ctlOperand_of_clear {s t : State} {a : Name} {x : Tagged} (hr : readName a s = .ok (x, t)) (hx : x.t = false) :
    ctlOperand a s = .ok (x.v, t) := by
  rw [ctlOperand, M.bind_ok hr, if_neg (by simp [hx])]
  rfl

theorem softCheck_of_good {s : State} {g k pa n : Nat} {va : Word} (hc : s.cur = .slot g k)
    (h : s.badWord pa n = none) : softCheck pa n va s = .ok ((), s) := by
  unfold softCheck; rw [seen_of_slot hc, h]

/-! ### Instructions that end early -/

/-- R180: with the counter of its class at 255, an operation is not issued. -/
theorem emit_of_full {s : State} {i : Instr} {c : CClass} {kind : OpKind} (h : 255 ≤ s.me.count c) :
    emit i c kind s = .error .forfeit :=
  M.bind_error (if_pos h)

theorem finish_forfeit {s : State} {g k : Nat} (h : s.cur = .slot g k) (w : BitVec 32) :
    s.finish w (.error .forfeit) = { s with turn := .forfeited } := by
  unfold State.finish; rw [h]

theorem finish_block {s : State} {g k : Nat} (h : s.cur = .slot g k) (w : BitVec 32) (b : Block) :
    s.finish w (.error (.block b)) = s.blockedOn g k b := by
  unfold State.finish; rw [h]; rfl

/-- An instruction that passes the checks before the ports ends as these say. -/
theorem preCheck_of_portCheck_error {i : Instr} {s : State} {g k : Nat} {l : Level} {e : Exc} (hc : s.cur = .slot g k)
    (hw : i.wf = true) (hg : g ≠ vrNum) (hl : needLevel g i = some l) (hm : s.me.level.meets l = true)
    (hwin : windowed i s = true) (hp : s.portCheck (encode i) i.roles = .error e) : preCheck i s = .error e := by
  unfold windowed at hwin
  unfold preCheck
  simp only [hc]
  rw [if_neg (by simp [hw, hg])]
  simp only [hl, hm, hwin, hp, Bool.not_true, Bool.false_eq_true, if_false]

/-! ### The ports of addi (R26, R178) -/

/-- The fields of addi that are looked at for ports. -/
theorem addi_ports (d a : Name) :
    [(a, Role.src), ((0 : Name), Role.none), (d, Role.dst)].filter
        (fun e => e.1.isPort && e.2 ≠ .none && e.2 ≠ .late && e.2 ≠ .lateInOut) =
      (if a.isPort then [(a, .src)] else []) ++ if d.isPort then [(d, .dst)] else [] := by
  cases ha : a.isPort <;> cases hd : d.isPort <;> simp [ha, hd]

/-- No operand tag of addi traps: its source belongs to a result cell (R98). -/
theorem addi_tagTraps (s : State) (d a : Name) (im : BitVec 12) :
    s.tagTraps (encode (.addi d a im)) (Instr.addi d a im).roles = false := by
  have hm : majorOf (encode (.addi d a im)) = 3 := congrArg BitVec.toNat (Laws.encI_26 0x03 d a im)
  simp [State.tagTraps, trapFields, hm, Instr.roles]

/-- R26: a port that leads nowhere fails the check with MSGF. -/
theorem addi_portCheck_unconnected {s : State} {g k : Nat} {d a : Name} {im : BitVec 12} (hc : s.cur = .slot g k)
    (h : (a.isPort = true ∧ s.portTo g a.toNat = none) ∨ (d.isPort = true ∧ s.portTo g d.toNat = none)) :
    s.portCheck (encode (.addi d a im)) (Instr.addi d a im).roles
      = .error (.trap cMSGF ((encode (.addi d a im)).setWidth 64) 0) := by
  unfold State.portCheck
  rw [addi_tagTraps, gk_of_slot hc]
  simp only [Instr.roles, addi_ports]
  rcases h with ⟨hp, hn⟩ | ⟨hp, hn⟩ <;> simp [hp, hn]

/-- R178: the read of an empty port waits for a word. -/
theorem addi_portCheck_empty {s : State} {g k : Nat} {d a : Name} {im : BitVec 12} (hc : s.cur = .slot g k)
    (ha : a.isPort = true) (hna : (s.portTo g a.toNat).isSome = true)
    (hnd : d.isPort = true → (s.portTo g d.toNat).isSome = true) (hq : (s.slot g k).queue a.toNat = []) :
    s.portCheck (encode (.addi d a im)) (Instr.addi d a im).roles = .error (.block (.portRead a.toNat)) := by
  unfold State.portCheck
  rw [gk_of_slot hc, me_of_slot hc]
  simp only [Instr.roles, addi_ports]
  cases hd : d.isPort
  · simp [ha, Option.isSome_iff_ne_none.1 hna, readsPort, hq]
  · simp [ha, Option.isSome_iff_ne_none.1 hna, Option.isSome_iff_ne_none.1 (hnd hd), readsPort, hq]

/-- Every slot meets the level that addi needs. -/
theorem meets_user (l : Level) : l.meets .user = true := by
  simp [Level.meets, Level.code]

/-! ### Loads and stores with a full counter (R180) -/

theorem loadOp_of_full {i : Instr} {s : State} {g k n : Nat} {d a : Name} {off : BitVec 12} {sg : Bool} {t : Target}
    (hc : s.cur = .slot g k) (ha : a.isPort = false) (ht : (s.val a).t = false) (hf : 255 ≤ s.me.loads)
    (hx : access ((s.val a).v + off.signExtend 64) n n .load .plain false s = .ok (t, s)) (hb : s.badWord t.pa n = none) :
    loadOp i d a off n sg s = .error .forfeit := by
  rw [loadOp, M.bind_ok (ctlOperand_of_clear (readName_of_notPort ha) ht)]
  simp only
  rw [M.bind_ok hx, M.bind_ok (softCheck_of_good hc hb), M.bind_ok (M.get_apply _), onMason_of_slot hc]
  exact M.bind_error (emit_of_full (c := .loads) hf)

theorem storeOp_of_full {i : Instr} {s : State} {g k n : Nat} {a b : Name} {off : BitVec 12} {t : Target}
    (hc : s.cur = .slot g k) (ha : a.isPort = false) (hb : b.isPort = false) (ht : (s.val a).t = false)
    (hf : 255 ≤ s.me.stores)
    (hx : access ((s.val a).v + off.signExtend 64) n n .store .plain (s.val b).t s = .ok (t, s)) :
    storeOp i off a b n s = .error .forfeit := by
  rw [storeOp, M.bind_ok (ctlOperand_of_clear (readName_of_notPort ha) ht), M.bind_ok (readName_of_notPort hb)]
  simp only
  rw [M.bind_ok hx, M.bind_ok (M.get_apply _), onMason_of_slot hc]
  exact M.bind_error (emit_of_full (c := .stores) hf)

/-- Settles O19: the port check of addi fails as said and no earlier check does; a load or store whose counter stands at
255 passes its checks and forfeits where its counter would rise. -/
theorem issueHolds : Obligations.IssueHolds := by
  unfold Obligations.IssueHolds
  refine ⟨fun s g k d a im hc hg hw hwin => ?_, fun s g k d a b off t hc ha hb ht => ⟨fun hr hf hx hbad => ?_, fun hr hf hx => ?_⟩⟩
  · have fails {e : Exc} (hp : s.portCheck (encode (.addi d a im)) (Instr.addi d a im).roles = .error e) :
        exec (.addi d a im) s = .next (s.finish (encode (.addi d a im)) (.error e)) :=
      issue_of_fails (preCheck_of_portCheck_error hc hw (by unfold vrNum; omega) rfl (meets_user _) hwin hp) _
    refine ⟨fun h => ?_, fun hp hna hnd hq => ?_⟩
    · rw [fails (addi_portCheck_unconnected hc h), finish_trap hc]; rfl
    · rw [fails (addi_portCheck_empty hc hp hna hnd hq), finish_block hc]
  · show issue _ _ s = _
    rw [issue_of_ready hr, loadOp_of_full hc ha ht hf hx hbad, finish_forfeit hc]
  · show issue _ _ s = _
    rw [issue_of_ready hr, storeOp_of_full hc ha hb ht hf hx, finish_forfeit hc]

end Sys2Proof.Organisation
end

