-- ==== Sys2Proof/Proofs/Arrivals.lean ====
section
/-! SUPPORT. Sys2Proof/Proofs/Arrivals.lean: what the end of an operation leaves of its slot and core, what becomes of a message
at its mailbox, and the arrivals of messages, port words and host messages (O36). -/

namespace Sys2Proof.Organisation
open Sys2Proof.Machine

/-! ### The operation at hand -/

theorem onOp_of_inFlight {s : State} {o : Op} (h : InFlight s o) (f : Op → State) : s.onOp f = .next (f o) := by
  unfold State.onOp; rw [show s.op? s.ev.id = some o from h]

theorem inFlight_op? {s : State} {o : Op} (h : InFlight s o) : s.op? o.id = some o := by
  have h' : s.op? s.ev.id = some o := h
  have hid : o.id = s.ev.id := by simpa using List.find?_some h'
  rw [hid]; exact h'

/-- A change that keeps numbers is found under the number. -/
theorem op?_mapOp {s : State} {id : Nat} {o : Op} {f : Op → Op} (hf : ∀ p, (f p).id = p.id) (h : s.op? id = some o) :
    (s.mapOp id f).op? id = some (f o) := by
  unfold State.op? at h ⊢
  have hid : o.id = id := by simpa using List.find?_some h
  have hp : (fun p : Op => decide (p.id = id)) ∘ (fun p => if p.id = id then f p else p) = fun p => decide (p.id = id) := by
    funext p
    by_cases hp : p.id = id <;> simp [hp, hf]
  show List.find? _ (List.map _ _) = _
  rw [List.find?_map, hp, h, Option.map_some, if_pos hid]

/-! ### What the end of an operation leaves (R180) -/

/-- Everything of a core but its slots is as before. -/
theorem core_endOp (s : State) (o : Op) (g : Nat) :
    { (s.endOp o).core g with slots := [] } = { s.core g with slots := [] } := by
  unfold State.endOp
  simp only
  split
  · rw [core_setSlot]
    by_cases h : g = o.g
    · subst h; simp
    · simp [h]
  · rfl

@[simp] theorem mailbox_endOp (s : State) (o : Op) (g : Nat) : ((s.endOp o).core g).mailbox = (s.core g).mailbox := by
  have h := congrArg Core.mailbox (core_endOp s o g)
  exact h

/-- The slot with its counters apart is as before. -/
theorem slot_endOp_apart (s : State) (o : Op) (g k : Nat) :
    (s.endOp o).slot g k = s.slot g k ∨ ∃ c, o.cls = some c ∧ o.live = true ∧ g = o.g ∧ k = o.k ∧
      (s.endOp o).slot g k = (s.slot g k).setCount c ((s.slot g k).count c - 1) := by
  rw [slot_endOp]
  split
  · rename_i c hc hl
    split
    · rename_i h
      obtain ⟨rfl, rfl⟩ := h
      exact .inr ⟨c, hc, hl, rfl, rfl, rfl⟩
    · exact .inl rfl
  · exact .inl rfl

@[simp] theorem setCount_bound (x : Slot) (c : CClass) (n : Nat) : (x.setCount c n).bound = x.bound := by
  cases c <;> rfl

@[simp] theorem setCount_drop (x : Slot) (c : CClass) (n : Nat) : (x.setCount c n).drop = x.drop := by
  cases c <;> rfl

@[simp] theorem count_setCount (x : Slot) (c : CClass) (n : Nat) : (x.setCount c n).count c = n := by
  cases c <;> rfl

@[simp] theorem bound_endOp (s : State) (o : Op) (g k : Nat) : ((s.endOp o).slot g k).bound = (s.slot g k).bound := by
  rcases slot_endOp_apart s o g k with h | ⟨c, -, -, -, -, h⟩ <;> rw [h]
  exact setCount_bound _ _ _

@[simp] theorem drop_endOp (s : State) (o : Op) (g k : Nat) : ((s.endOp o).slot g k).drop = (s.slot g k).drop := by
  rcases slot_endOp_apart s o g k with h | ⟨c, -, -, -, -, h⟩ <;> rw [h]
  exact setCount_drop _ _ _

/-- R180: the counter that the operation holds falls by one. -/
theorem count_endOp {s : State} {o : Op} {c : CClass} (hc : o.cls = some c) (hl : o.live = true) :
    ((s.endOp o).slot o.g o.k).count c = (s.slot o.g o.k).count c - 1 := by
  rw [slot_endOp, hc, hl]
  simp

/-- An operation without a counter, of a vacated slot, or of another slot leaves a slot as it is. -/
theorem slot_endOp_other {s : State} {o : Op} {g k : Nat} (h : o.cls = none ∨ o.live = false ∨ (o.g, o.k) ≠ (g, k)) :
    (s.endOp o).slot g k = s.slot g k := by
  rcases slot_endOp_apart s o g k with h' | ⟨c, hc, hl, rfl, rfl, -⟩
  · exact h'
  · simp [hc, hl] at h

@[simp] theorem partOf_endOp (s : State) (o : Op) (g : Nat) : (s.endOp o).partOf g = s.partOf g := by
  obtain ⟨c, p, h⟩ := endOp_eq s o; rw [h]; rfl

@[simp] theorem firstCore_endOp (s : State) (o : Op) (p : Nat) : (s.endOp o).firstCore p = s.firstCore p := by
  obtain ⟨c, ps, h⟩ := endOp_eq s o; rw [h]; rfl

/-! ### A mailbox entry (R177) -/

/-- For a bound slot the message is the newest entry, and nothing else of the operations and memory changes. -/
theorem mailPut_bound {s : State} {g k : Nat} (h : (s.slot g k).bound = true) (p v : Word) :
    s.mailPut g k p v = s.setCore g { s.core g with
      mailbox := (s.core g).mailbox ++ [{ slot := k, payload := p, header := v }] } := by
  unfold State.mailPut; simp [h]

/-- For a vacant slot the message is counted as dropped. -/
theorem mailPut_vacant {s : State} {g k : Nat} (h : (s.slot g k).bound = false) (p v : Word) :
    s.mailPut g k p v = s.setSlot g k { s.slot g k with drop := min ((s.slot g k).drop + 1) 65535 } := by
  unfold State.mailPut; simp [h]

theorem mailFull_of_vacant {s : State} {g k : Nat} (h : (s.slot g k).bound = false) : s.mailFull g k = false := by
  unfold State.mailFull; simp [h]

theorem mailFull_of_room {s : State} {g k : Nat} (h : (s.core g).mailbox.length < mailCap g) : s.mailFull g k = false := by
  unfold State.mailFull; simp [h]

theorem mailFull_of_full {s : State} {g k : Nat} (hb : (s.slot g k).bound = true)
    (h : mailCap g ≤ (s.core g).mailbox.length) : s.mailFull g k = true := by
  unfold State.mailFull; simp [hb, h]

/-- R177: with room, a message that no other goes before takes its entry. -/
theorem mailArrive_room {s : State} {o : Op} {g k : Nat} (h : (s.core g).mailbox.length < mailCap g)
    (hq : ∀ q ∈ s.mailQueue g, q.before o = false) (p v : Word) :
    s.mailArrive o g k p v = (s.endOp o).mailPut g k p v := by
  unfold State.mailArrive
  rw [if_neg (by simp [mailFull_of_room h]), if_neg]
  simpa using fun _ => hq

/-- R177: with room, a message waits for those that go before it. -/
theorem mailArrive_behind {s : State} {o : Op} {g k : Nat} (hb : (s.slot g k).bound = true)
    (h : (s.core g).mailbox.length < mailCap g) (hq : ∃ q ∈ s.mailQueue g, q.before o = true) (p v : Word) :
    s.mailArrive o g k p v = s := by
  unfold State.mailArrive
  rw [if_neg (by simp [mailFull_of_room h]), if_pos]
  simpa [hb] using hq

/-- R177: at a full mailbox a message that has its place of arrival, or that another of the cycle outranks, stays as it is. -/
theorem mailArrive_full_keeps {s : State} {o : Op} {g k : Nat} (hf : s.mailFull g k = true)
    (h : o.arr ≠ none ∨ ∃ q ∈ s.mailQueue g, q.arr = none ∧ q.outranks o = true) (p v : Word) :
    s.mailArrive o g k p v = s := by
  unfold State.mailArrive
  rw [if_pos hf, if_pos]
  rw [Bool.or_eq_true, List.any_eq_true]
  rcases h with h | ⟨q, hq, ha, hr⟩
  · exact .inl (Option.isSome_iff_ne_none.2 h)
  · exact .inr ⟨q, hq, by simp [ha, hr]⟩

/-- R177: at a full mailbox a message that arrives takes its place in the order of arrival. -/
theorem mailArrive_full_waits {s : State} {o : Op} {g k : Nat} (hf : s.mailFull g k = true) (ha : o.arr = none)
    (h : ∀ q ∈ s.mailQueue g, q.arr = none → q.outranks o = false) (p v : Word) :
    s.mailArrive o g k p v = s.arrived o := by
  unfold State.mailArrive
  rw [if_pos hf, if_neg]
  simpa [ha] using h

/-- R40, R177: a message for a vacant slot is discarded. -/
theorem mailArrive_vacant {s : State} {o : Op} {g k : Nat} (hb : (s.slot g k).bound = false) (p v : Word) :
    s.mailArrive o g k p v = (s.endOp o).mailPut g k p v := by
  unfold State.mailArrive
  rw [if_neg (by simp [mailFull_of_vacant hb]), if_neg (by simp [hb])]

/-! ### The events -/

/-- A message of the host for Vrelell slot 0, with room in its mailbox, is held with some header that is valid (log 52). -/
theorem hostMail_room {s : State} (hb : (s.slot vrNum 0).bound = true) (h : (s.core vrNum).mailbox.length < 64) (v : Word) :
    ∃ hd : Word, hd.getLsbD 63 = true ∧ s.hostMail v = ({ s with free := s.free + 1 } : State).setCore vrNum
      { s.core vrNum with mailbox := (s.core vrNum).mailbox ++ [{ slot := 0, payload := v, header := hd }] } := by
  refine ⟨(Config.freeWord s.free &&& headerMask) ||| 0x8000000000000000, by simp, ?_⟩
  unfold State.hostMail
  rw [if_neg (by simp [mailFull_of_room (show (s.core vrNum).mailbox.length < mailCap vrNum from h)])]
  exact mailPut_bound (s := { s with free := s.free + 1 }) hb _ _

/-- A message that has passed all that R177, R265 and R285 put before it has reached its mailbox. -/
theorem mailHere_of {s : State} {o : Op} (hh : s.heldBack o = false) (hp : s.performedBefore o.g o.k o.id = true)
    (hm : s.msgBehind o = false) : s.mailHere o = true := by
  simp [State.mailHere, hh, hp, hm]

/-- The arrival of an operation in flight is the event of its own kind. -/
theorem mailboxArrival_of_inFlight {s : State} {o : Op} (h : InFlight s o) : exec .mailboxArrival s =
    s.onOp (fun o =>
      match o.kind with
      | .msg tg tk payload header =>
        if !s.mailHere o then s else s.mailArrive o tg tk payload header
      | .fabricMsg pkg tg tk payload header =>
        if !s.mailHere o then s
        else
          let s1 := s.endOp o
          { s1 with fabricOut := s1.fabricOut ++ [((pkg, tg), { slot := tk, payload := payload, header := header })] }
      | _ => s) := by
  have h' : s.op? s.ev.id = some o := h
  show execMailboxArrival s = _
  unfold execMailboxArrival
  exact if_neg (by simp [h'])

/-- A message that has reached its mailbox does there what `mailArrive` says. -/
theorem msg_arrival {s : State} {o : Op} {g k : Nat} {p v : Word} (h : InFlight s o) (hk : o.kind = .msg g k p v)
    (hm : s.mailHere o = true) : exec .mailboxArrival s = .next (s.mailArrive o g k p v) := by
  rw [mailboxArrival_of_inFlight h, onOp_of_inFlight h]
  simp [hk, hm]

/-- A message for a joined package leaves. -/
theorem fabricMsg_arrival {s : State} {o : Op} {pkg g k : Nat} {p v : Word} (h : InFlight s o)
    (hk : o.kind = .fabricMsg pkg g k p v) (hm : s.mailHere o = true) : exec .mailboxArrival s =
      .next { s.endOp o with fabricOut := s.fabricOut ++ [((pkg, g), { slot := k, payload := p, header := v })] } := by
  rw [mailboxArrival_of_inFlight h, onOp_of_inFlight h]
  simp [hk, hm]

/-- A port word that no earlier one goes before does at its queue what `portArrive` says. -/
theorem portWord_arrival {s : State} {o : Op} {g k dir : Nat} {w : Tagged} (h : InFlight s o)
    (hk : o.kind = .portWord g k dir w) (hh : s.heldBack o = false) (hp : s.performedBefore o.g o.k o.id = true)
    (he : ∀ p ∈ s.ops, p.id < o.id → ∀ v, p.kind ≠ .portWord g k dir v) :
    exec .portWordArrival s = .next (s.portArrive o g k dir w) := by
  show s.onOp _ = _
  rw [onOp_of_inFlight h]
  simp only [hk, hh, hp]
  rw [if_neg]
  simp only [Bool.not_true, Bool.or_false, Bool.false_or, List.any_eq_true, not_exists, not_and, Bool.and_eq_true,
    decide_eq_true_eq]
  intro p hp' hlt
  cases hkp : p.kind with
  | portWord ug uk e v =>
    simp only [Bool.and_eq_true, decide_eq_true_eq, not_and]
    intro hgk hdir
    obtain ⟨rfl, rfl⟩ := hgk
    subst hdir
    exact he p hp' hlt v hkp
  | _ => simp

/-- The delivery of a message to the host endpoint that nothing holds back. -/
theorem hostMsg_deliver {s : State} {o : Op} {vec : Nat} {e : Option (Word × Word)} (h : InFlight s o)
    (hk : o.kind = .hostMsg vec e) (hh : s.heldBack o = false) (hp : s.performedBefore o.g o.k o.id = true) :
    exec .hostMessageDeliver s = .next (s.hostDeliver o vec e) := by
  show s.onOp _ = _
  rw [onOp_of_inFlight h]
  simp [hk, hh, hp]

/-- Settles O36: each arrival is the lemma of its case above; the rest is what the end of the operation leaves. -/
theorem arrivals : Obligations.Arrivals := by
  unfold Obligations.Arrivals
  refine ⟨fun s ho hg hk hb => ?_, fun s o hf hh hp => ⟨fun tg tk p h hkind hmb => ?_, fun pkg tg tk p h hkind hmb => ?_,
    fun tg tk dir w hkind _ he => ?_, fun vec p h q f hkind hg hq hfc => ?_⟩⟩
  · have hx : exec .mailboxArrival s = .next (s.hostMail s.ev.v) := if_pos (by simp [ho, hg, hk])
    rw [hx]
    refine ⟨fun hroom => ?_, fun hfull => ?_⟩
    · obtain ⟨hd, hv, e⟩ := hostMail_room hb hroom s.ev.v
      exact ⟨_, hd, rfl, hv, by rw [e, core_setCore, if_pos rfl], by rw [e]; rfl, by rw [e]; rfl⟩
    · unfold State.hostMail
      rw [if_pos (mailFull_of_full hb hfull)]
  · rw [msg_arrival hf hkind (mailHere_of hh hp hmb)]
    refine ⟨fun hb hroom => ⟨fun hq => ?_, fun hq => ?_⟩, fun hb hfull => ?_, fun hb => ?_⟩
    · rw [mailArrive_room hroom hq, mailPut_bound (by rw [bound_endOp]; exact hb)]
      exact ⟨_, rfl, by simp, op?_endOp s o, by simp⟩
    · rw [mailArrive_behind hb hroom hq]
    · have hF := mailFull_of_full hb hfull
      refine ⟨fun ha => ?_, fun _ hq => ?_, fun ha hq => ?_⟩
      · rw [mailArrive_full_keeps hF (.inl ha)]
      · rw [mailArrive_full_keeps hF (.inr hq)]
      · rw [mailArrive_full_waits hF ha hq]
        exact ⟨_, rfl, op?_mapOp (s := s) (fun _ => rfl) (inFlight_op? hf), rfl, rfl⟩
    · rw [mailArrive_vacant hb, mailPut_vacant (by rw [bound_endOp]; exact hb)]
      refine ⟨_, rfl, op?_endOp s o, by simp, fun g => ?_, by simp, fun ho => ?_, fun c hc hl => ?_⟩
      · rw [core_setSlot]
        split <;> simp_all
      · rw [slot_setSlot, if_pos ⟨rfl, rfl⟩, slot_endOp_other ho]
      · rw [slot_setSlot, ← count_endOp hc hl]
        split
        · rename_i e
          obtain ⟨e1, e2⟩ := e
          rw [← e1, ← e2]
          cases c <;> rfl
        · rfl
  · rw [fabricMsg_arrival hf hkind (mailHere_of hh hp hmb)]
    exact ⟨_, rfl, op?_endOp s o, State.endOp_mem s o, rfl⟩
  · rw [portWord_arrival hf hkind hh hp he]
    unfold State.portArrive Slot.portHeld
    refine ⟨fun hb hroom => ?_, fun hb hfull => ?_, fun hb => ?_⟩
    · simp only [hb, Bool.not_true, Bool.false_eq_true, if_false]
      rw [if_neg (by omega)]
    · simp only [hb, Bool.not_true, Bool.false_eq_true, if_false]
      rw [if_pos hfull]
    · simp only [hb, Bool.not_false, if_true]
  · rw [hostMsg_deliver hf hkind hh hp]
    unfold State.hostDeliver
    rw [if_neg (by unfold vrNum; omega)]
    simp only [partOf_endOp, firstCore_endOp, hq, hfc]

end Sys2Proof.Organisation
end

