-- ==== Sys2Proof/Proofs/SpecialRegisterValues.lean ====
section
/-! SUPPORT. Sys2Proof/Proofs/SpecialRegisterValues.lean: the bits of CSTAT and KSTAT, the value of CORE, and which
values SMPL refuses. -/

namespace Sys2Proof.Organisation
open Sys2Proof.Machine

/-- The sum of the powers of two of the numbers below n that a test picks is below 2^n, and its bits are the test's answers. -/
theorem bits_of_sum (p : Nat → Bool) (n : Nat) :
    (List.range n).foldl (fun a t => if p t then a + 2 ^ t else a) 0 < 2 ^ n ∧
      ∀ i, ((List.range n).foldl (fun a t => if p t then a + 2 ^ t else a) 0).testBit i = (decide (i < n) && p i) := by
  induction n with
  | zero => simp
  | succ n ih =>
    obtain ⟨hlt, hbit⟩ := ih
    rw [List.range_succ, List.foldl_append]
    simp only [List.foldl_cons, List.foldl_nil]
    generalize (List.range n).foldl (fun a t => if p t then a + 2 ^ t else a) 0 = a at hlt hbit
    by_cases hp : p n = true
    · rw [if_pos hp]
      refine ⟨by rw [pow_succ]; omega, fun i => ?_⟩
      have e : a + 2 ^ n = 2 ^ n * 1 + a := by omega
      rw [e, Nat.testBit_two_pow_mul_add _ hlt, hbit]
      rcases Nat.lt_trichotomy i n with h | h | h
      · simp [h, Nat.lt_succ_of_lt h]
      · subst h; simp [hp]
      · have hs : Nat.testBit 1 (i - n) = false := by
          rw [← Nat.pow_zero 2, Nat.testBit_two_pow]; simp; omega
        simp [show ¬ i < n by omega, show ¬ i < n + 1 by omega, hs]
    · rw [if_neg hp]
      refine ⟨by rw [pow_succ]; omega, fun i => ?_⟩
      rw [hbit]
      rcases Nat.lt_trichotomy i n with h | h | h
      · simp [h, Nat.lt_succ_of_lt h]
      · subst h; simp [hp]
      · simp [show ¬ i < n by omega, show ¬ i < n + 1 by omega]

/-- A low part below 2^n and a part above it, read back. -/
theorem testBit_low {a n : Nat} (h : a < 2 ^ n) (c : Nat) {i : Nat} (hi : i < n) : (a + c * 2 ^ n).testBit i = a.testBit i := by
  rw [show a + c * 2 ^ n = 2 ^ n * c + a by rw [Nat.mul_comm]; omega, Nat.testBit_two_pow_mul_add _ h, if_pos hi]

/-! ### CSTAT and KSTAT (R135, R352) -/

/-- Whether a transfer id of a core stands for a copy of a slot. -/
def ownsTransfer (s : State) (g k t : Nat) : Bool :=
  match s.transfer g t with
  | some o => o.live && o.k = k
  | none => false

theorem ownsTransfer_iff (s : State) (g k t : Nat) :
    ownsTransfer s g k t = true ↔ ∃ o, s.transfer g t = some o ∧ o.live = true ∧ o.k = k := by
  unfold ownsTransfer
  split
  · rename_i o h; simp [h]
  · rename_i h; simp [h]

theorem inflight_eq (s : State) (g k : Nat) :
    s.inflight g k = (List.range 16).foldl (fun a t => if ownsTransfer s g k t then a + 2 ^ t else a) 0 := by
  unfold State.inflight
  rw [List.foldl_filter]
  rfl

theorem inflight_lt (s : State) (g k : Nat) : s.inflight g k < 2 ^ 16 := by
  rw [inflight_eq]; exact (bits_of_sum _ 16).1

theorem testBit_inflight (s : State) (g k : Nat) {i : Nat} (hi : i < 16) :
    (s.inflight g k).testBit i = ownsTransfer s g k i := by
  rw [inflight_eq, (bits_of_sum _ 16).2 i]; simp [hi]

/-- The partitions that hold a key, as KSTAT gives them. -/
def keyBits (s : State) : Nat := (List.range 16).foldl (fun a p => if (s.part p).key.isSome then a + 2 ^ p else a) 0

theorem keyBits_lt (s : State) : keyBits s < 2 ^ 16 := (bits_of_sum (fun p => (s.part p).key.isSome) 16).1

theorem testBit_keyBits (s : State) {p : Nat} (hp : p < 16) : (keyBits s).testBit p = (s.part p).key.isSome := by
  unfold keyBits
  rw [(bits_of_sum (fun p => (s.part p).key.isSome) 16).2 p]
  simp [hp]

/-- KSTAT above its key bits. -/
def keyFlags (s : State) : Nat := (s.vrBusy 2).toNat + 2 * s.vr.swept.toNat + 4 * s.vr.extd.toNat + 8 * s.vr.kerr.toNat

theorem keyFlags_lt (s : State) : keyFlags s < 2 ^ 6 := by
  unfold keyFlags
  have h1 := (s.vrBusy 2).toNat_lt
  have h2 := s.vr.swept.toNat_lt
  have h3 := s.vr.extd.toNat_lt
  have h4 := s.vr.kerr.isLt
  omega

theorem kstat_eq (s : State) : s.kstat = BitVec.ofNat 64 (keyBits s + keyFlags s * 2 ^ 16) := by
  unfold State.kstat keyFlags
  congr 1
  show keyBits s + _ + _ + _ + _ = _
  omega

theorem getLsbD_ofNat_low {a n : Nat} (h : a < 2 ^ n) (hn : n ≤ 64) (c : Nat) {i : Nat} (hi : i < n) :
    (BitVec.ofNat 64 (a + c * 2 ^ n)).getLsbD i = a.testBit i := by
  rw [BitVec.getLsbD_ofNat, testBit_low h c hi]
  simp [show i < 64 by omega]

/-- R18: CORE of a core of the mesh. -/
theorem coreValue_of_mesh (s : State) {g : Nat} (hg : g < 4096) : (s.coreValue g).toNat =
    16 * (g / 64 % 16) + g % 16 + (4 * (g / 1024) + g % 64 / 16) * 2 ^ 8 + g % 64 * 2 ^ 16 + g / 64 * 2 ^ 24
      + s.pkgId.toNat * 2 ^ 32 := by
  have hp := s.pkgId.isLt
  unfold State.coreValue localOf dieOf coreX coreY
  simp only [show g ≠ vrNum by unfold vrNum; omega, if_false]
  have h1 : g / 1024 = g / 64 / 16 := by omega
  have h2 : g % 64 % 16 = g % 16 := by omega
  rw [BitVec.toNat_ofNat, h1, h2, Nat.mod_eq_of_lt (by omega)]

/-- R211: the Vrelell core reads CORE as core (0, 0). -/
theorem coreValue_of_vrelell (s : State) : (s.coreValue 4096).toNat = s.pkgId.toNat * 2 ^ 32 := by
  have hp := s.pkgId.isLt
  have h0 : s.coreValue 4096 = BitVec.ofNat 64 (0 + s.pkgId.toNat * 2 ^ 32) := rfl
  rw [h0, BitVec.toNat_ofNat]
  omega

theorem vfCells_le (p : BitVec 10) : vfCells p.toNat ≤ 17 := by
  have := p.isLt
  unfold vfCells
  split <;> omega

/-- A word with one bit of its own ORed in. -/
theorem getLsbD_or_bit (x : Word) (b : Bool) (n i : Nat) (hn : n < 64) :
    (x ||| BitVec.ofNat 64 (b.toNat * 2 ^ n)).getLsbD i = (x.getLsbD i || (b && decide (i = n))) := by
  rw [BitVec.getLsbD_or, BitVec.getLsbD_ofNat]
  cases b
  · simp
  · simp only [Bool.toNat_true, Nat.one_mul, Nat.testBit_two_pow, Bool.true_and]
    by_cases h : i = n
    · subst h; simp [hn]
    · simp [h, Ne.symm h]

/-- R342: which values SMPL refuses. -/
theorem smplBad_iff (v : Word) : smplBad v = true ↔ 6 ≤ v.toNat / 2 % 8 ∨
    (v.getLsbD 0 = true ∧ v.toNat / 2 ^ 16 % 2 ^ 32 < if v.toNat / 2 % 8 = 3 ∨ v.toNat / 2 % 8 = 4 then 64 else 1) := by
  have h1 : (v.extractLsb' 1 3).toNat = v.toNat / 2 % 8 := by
    rw [BitVec.extractLsb'_toNat, Nat.shiftRight_eq_div_pow]
  have h2 : (v.extractLsb' 16 32).toNat = v.toNat / 2 ^ 16 % 2 ^ 32 := by
    rw [BitVec.extractLsb'_toNat, Nat.shiftRight_eq_div_pow]
  simp [smplBad, h1, h2]

end Sys2Proof.Organisation
end

