-- ==== Sys2Proof/Proofs/SpecialRegisterTable.lean ====
section
/-! SUPPORT. Sys2Proof/Proofs/SpecialRegisterTable.lean: the special registers as a table of fields, and what the write of
one field leaves of the others. -/

namespace Sys2Proof.Organisation
open Sys2Proof.Machine

/-! ### The special registers as a table (R211) -/

/-- The registers that are each a field of their own: of the slot, of its core, of the Vrelell core; with CSTAT, whose low bits
are the copies in flight. -/
def regTable (infl : Nat) (x : Slot) (c : Core) (r : Vrelell) : List (Nat × Word) :=
  [(0x003, BitVec.ofNat 64 (x.wbase.toNat + x.wlim.toNat * 2 ^ 16)), (0x004, precValue x.prec), (0x005, x.vctl),
    (0x006, x.fctl), (0x007, x.tshp), (0x008, x.pred.setWidth 64),
    (0x010, x.csrc), (0x011, x.cdst), (0x012, x.cstr1), (0x013, x.cstr2), (0x014, x.cdstr1), (0x015, x.cdstr2),
    (0x016, x.cdim), (0x017, x.cbnd), (0x018, x.ccvt), (0x019, x.cdone), (0x01A, x.cval), (0x020, x.cres),
    (0x021, BitVec.ofNat 64 (infl + x.cflags.toNat * 2 ^ 16)),
    (0x030, x.bmem0), (0x031, x.bmem1), (0x032, x.bmem2), (0x033, x.bmem3), (0x040, x.task),
    (0x100, x.wbase.setWidth 64), (0x101, x.wlim.setWidth 64), (0x103, x.tcause), (0x104, x.tval), (0x105, x.tepc),
    (0x106, x.tstat), (0x108, x.ks0), (0x109, x.ks1), (0x10A, x.ks2), (0x10B, x.ks3), (0x10C, x.ks4), (0x10D, x.ks5),
    (0x10E, x.ks6), (0x10F, x.ks7),
    (0x002, BitVec.ofNat 64 c.cyc), (0x102, c.tvec), (0x110, c.ptroot), (0x111, c.asid), (0x112, c.xcals), (0x113, c.xbnd),
    (0x114, c.smpl ||| BitVec.ofNat 64 (c.dump.isSome.toNat * 2 ^ 5)), (0x115, c.spc), (0x116, c.pstop),
    (0x200, r.fusea.setWidth 64), (0x203, r.sigmsg), (0x204, r.sigkey), (0x205, r.sigsig), (0x208, r.shkin),
    (0x209, r.shklen), (0x20A, r.shkout)]

/-- The table of a slot of a state. -/
def regsOf (s : State) (g k : Nat) : List (Nat × Word) := regTable (s.inflight g k) (s.slot g k) (s.core g) s.vr

/-- The registers outside the table: the slot's number, the core's place, and what the Vrelell engines show. -/
def restReg (s : State) (g k n : Nat) : Word :=
  match n with
  | 0x000 => BitVec.ofNat 64 k
  | 0x001 => s.coreValue g
  | 0x201 => s.fusedValue
  | 0x202 => s.vr.lcs.setWidth 64
  | 0x207 => s.sigresValue
  | 0x20B => BitVec.ofNat 64 (s.vrBusy 1).toNat
  | 0x20C => s.vr.kwipe
  | 0x20D => s.kstat
  | 0x20E => BitVec.ofNat 64 (s.vr.dbgOpen.toNat + s.vr.nonce.toNat * 2 ^ 16)
  | 0x218 => s.vr.mext ||| BitVec.ofNat 64 ((s.vrBusy 3).toNat * 2 ^ 63)
  | _ => if 0x210 ≤ n && n ≤ 0x217 then (Sparse.get 0 s.vr.meas (n - 0x210)).setWidth 64 else 0

/-- R211: a special register reads as the table lists it, or as one of the rest. -/
theorem sregValue_eq (s : State) (g k n : Nat) :
    s.sregValue g k n = ((regsOf s g k).lookup n).getD (restReg s g k n) := by
  unfold State.sregValue
  simp only
  split
  case h_50 =>
    unfold State.vrSreg
    split
    case h_16 =>
      have hn : (regsOf s g k).lookup n = none := by
        rw [List.lookup_eq_none_iff]
        simp only [regsOf, regTable, List.forall_mem_cons, bne_iff_ne, List.not_mem_nil, IsEmpty.forall_iff, implies_true,
          and_true]
        repeat' apply And.intro
        all_goals assumption
      rw [hn, Option.getD_none]
      simp only [restReg, *]
    all_goals rfl
  all_goals rfl

/-! ### A register replaced in the table -/

/-- The table with the value of one register replaced. -/
def putReg (n : Nat) (w : Word) (l : List (Nat × Word)) : List (Nat × Word) :=
  l.map (fun e => if e.1 = n then (e.1, w) else e)

theorem lookup_putReg (n m : Nat) (w : Word) (l : List (Nat × Word)) :
    (putReg n w l).lookup m = (l.lookup m).map (fun v => if m = n then w else v) := by
  induction l with
  | nil => rfl
  | cons e l ih =>
    obtain ⟨j, v⟩ := e
    unfold putReg at ih ⊢
    rw [List.map_cons]
    rw [show (if j = n then (j, w) else (j, v)) = (j, if j = n then w else v) by split <;> rfl]
    by_cases hm : m = j
    · subst hm; simp [List.lookup]
    · have hb : (m == j) = false := by simp [hm]
      simp only [List.lookup, hb, ih]

/-- t is s after an mts has given register n of slot k the value w: that register reads so, every other reads as before (but WIN
after WBASE and WLIM, and FUSED after FUSEA), and memory, operations in flight, cells and the other slots are as before. -/
def Wrote (g k : Nat) (n : BitVec 12) (w : Word) (s t : State) : Prop :=
  t.sregValue g k n.toNat = w ∧
  (∀ m, m ≠ n.toNat → ¬ (m = 0x003 ∧ (n = 0x100 ∨ n = 0x101)) → ¬ (m = 0x201 ∧ n = 0x200) →
    t.sregValue g k m = s.sregValue g k m) ∧
  t.mem = s.mem ∧ t.tags = s.tags ∧ t.ops = s.ops ∧ (∀ h c, t.cell h c = s.cell h c) ∧
  (∀ h j, ¬ (h = g ∧ j = k) → t.slot h j = s.slot h j)

/-- Whether an mts of register n may change register m as well. -/
def Follows (n : BitVec 12) (m : Nat) : Prop := (m = 0x003 ∧ (n = 0x100 ∨ n = 0x101)) ∨ (m = 0x201 ∧ n = 0x200)

/-- The values that the registers read follow from the table and the rest. -/
theorem wrote_of_lookup {s t : State} {g k : Nat} {n : BitVec 12} {w : Word}
    (hn : (regsOf t g k).lookup n.toNat = some w)
    (hm : ∀ m, m ≠ n.toNat → ¬ Follows n m → (regsOf t g k).lookup m = (regsOf s g k).lookup m)
    (hrest : ∀ m, ¬ Follows n m → restReg t g k m = restReg s g k m)
    (hmem : t.mem = s.mem) (htags : t.tags = s.tags) (hops : t.ops = s.ops) (hcell : ∀ h c, t.cell h c = s.cell h c)
    (hslot : ∀ h j, ¬ (h = g ∧ j = k) → t.slot h j = s.slot h j) : Wrote g k n w s t := by
  refine ⟨?_, fun m hne h3 h201 => ?_, hmem, htags, hops, hcell, hslot⟩
  · rw [sregValue_eq, hn, Option.getD_some]
  · have hf : ¬ Follows n m := fun h => h.elim h3 h201
    rw [sregValue_eq, sregValue_eq, hm m hne hf, hrest m hf]

theorem inflight_congr {s t : State} (h : t.ops = s.ops) (g k : Nat) : t.inflight g k = s.inflight g k := by
  unfold State.inflight State.transfer; rw [h]

theorem vrBusy_congr {s t : State} (h : t.ops = s.ops) (e : Nat) : t.vrBusy e = s.vrBusy e := by
  unfold State.vrBusy; rw [h]

/-- The rest of the registers depends on the package, the partitions, the Vrelell registers and the operations in flight. -/
theorem restReg_congr {s t : State} {g k m : Nat} (hp : t.pkgId = s.pkgId) (hparts : t.parts = s.parts) (hops : t.ops = s.ops)
    (hvr : t.vr = s.vr) : restReg t g k m = restReg s g k m := by
  have h1 : t.coreValue g = s.coreValue g := by unfold State.coreValue; rw [hp]
  have h2 : t.fusedValue = s.fusedValue := by unfold State.fusedValue State.fuse; rw [hvr]
  have h3 : t.sigresValue = s.sigresValue := by unfold State.sigresValue; rw [hvr, vrBusy_congr hops]
  have h4 : t.kstat = s.kstat := by unfold State.kstat State.part; rw [hvr, vrBusy_congr hops, hparts]
  simp only [restReg, h1, h2, h3, h4, hvr, vrBusy_congr hops]

/-! ### What a read of a field leaves -/

/-- t differs from s in nothing that a special register shows, nor in memory, operations, cells and the other slots. -/
structure SameRegs (g k : Nat) (s t : State) : Prop where
  value : ∀ m, t.sregValue g k m = s.sregValue g k m
  mem : t.mem = s.mem
  tags : t.tags = s.tags
  ops : t.ops = s.ops
  cell : ∀ h c, t.cell h c = s.cell h c
  slot : ∀ h j, ¬ (h = g ∧ j = k) → t.slot h j = s.slot h j

theorem Wrote.of_sameRegs {g k : Nat} {n : BitVec 12} {w : Word} {s u t : State} (h : SameRegs g k s u)
    (hw : Wrote g k n w u t) : Wrote g k n w s t := by
  obtain ⟨hv, hm, hmem, htags, hops, hcell, hslot⟩ := hw
  exact ⟨hv, fun m h1 h2 h3 => (hm m h1 h2 h3).trans (h.value m), hmem.trans h.mem, htags.trans h.tags, hops.trans h.ops,
    fun a c => (hcell a c).trans (h.cell a c), fun a j hne => (hslot a j hne).trans (h.slot a j hne)⟩

theorem regTable_setQueue (infl : Nat) (x : Slot) (c : Core) (r : Vrelell) (d : Nat) (q : List Tagged) (ws) :
    regTable infl { x.setQueue d q with taken := ws } c r = regTable infl x c r := by
  unfold Slot.setQueue; split <;> rfl

/-- A slot's registers where only the slot is replaced. -/
theorem regsOf_setSlot (s : State) (g k : Nat) (y : Slot) :
    regsOf (s.setSlot g k y) g k = regTable (s.inflight g k) y (s.core g) s.vr := by
  unfold regsOf
  rw [inflight_congr (State.setSlot_ops s g k y), slot_setSlot, if_pos ⟨rfl, rfl⟩, core_setSlot, if_pos rfl]
  rfl

theorem sameRegs_took {s : State} {g k : Nat} (hc : s.cur = .slot g k) (a : Name) : SameRegs g k s (s.took a) := by
  rcases took_cases s a with h | ⟨g', k', q, ws, hc', h⟩
  · rw [h]; exact ⟨fun _ => rfl, rfl, rfl, rfl, fun _ _ => rfl, fun _ _ _ => rfl⟩
  · obtain ⟨rfl, rfl⟩ : g' = g ∧ k' = k := by rw [hc] at hc'; injection hc' with h1 h2; exact ⟨h1.symm, h2.symm⟩
    rw [h]
    refine ⟨fun m => ?_, rfl, rfl, rfl, fun _ _ => cell_setSlot .., fun a j hne => ?_⟩
    · rw [sregValue_eq, sregValue_eq, regsOf_setSlot, regTable_setQueue]
      exact congrArg _ (restReg_congr rfl rfl rfl rfl)
    · rw [slot_setSlot, if_neg hne]

end Sys2Proof.Organisation
end

