-- ==== Sys2Proof/Proofs/SpecialRegisterWrites.lean ====
section
/-! SUPPORT. Sys2Proof/Proofs/SpecialRegisterWrites.lean: an mts of each special register, by the entry of the
table that it replaces, and the values that a register refuses. -/

namespace Sys2Proof.Organisation
open Sys2Proof.Machine

/-! ### An mts that writes one register -/

@[simp] theorem setMine_apply (f : Slot → Slot) (s : State) : setMine f s = .ok (.next, s.setMe (f s.me)) := rfl

@[simp] theorem setOwn_apply (f : Core → Core) (s : State) :
    setOwn f s = .ok (.next, s.setCore s.gk.1 (f (s.core s.gk.1))) := rfl

@[simp] theorem vrSet_apply (f : Vrelell → Vrelell) (s : State) : vrSet f s = .ok (.next, { s with vr := f s.vr }) := rfl

theorem setMe_of_slot {s : State} {g k : Nat} (h : s.cur = .slot g k) (x : Slot) : s.setMe x = s.setSlot g k x := by
  unfold State.setMe; rw [gk_of_slot h]

/-- A ready mts of a clear cell ends as the write of its register does. -/
theorem mts_of_ready {s : State} {a : Name} {n : BitVec 12} (h : Ready (.mts a n) s) (ht : (s.val a).t = false) :
    exec (.mts a n) s =
      .next (s.finish (encode (.mts a n)) (sregWrite (.mts a n) n.toNat (s.val a).v (s.took a))) := by
  show issue _ _ s = _
  have hr : ctlOperand a s = .ok ((s.val a).v, s.took a) := ctlOperand_of_clear (readName_of_holds (holds_a h rfl)) ht
  rw [issue_of_ready h, mtsOp, M.bind_ok hr]

/-- An mts of a value that its register does not admit raises ILL with the word in TVAL. -/
theorem mts_illegal {s : State} {g k : Nat} (hc : s.cur = .slot g k) {a : Name} (ht : (s.val a).t = false) {n : BitVec 12}
    (hw : sregWrite (.mts a n) n.toNat (s.val a).v (s.took a) = (illWord (.mts a n) : M Ctl) (s.took a))
    (h : Ready (.mts a n) s) :
    exec (.mts a n) s = .next (s.trapped g k (.mts a n) 0x01 ((encode (.mts a n)).setWidth 64)) := by
  rw [mts_of_ready h ht, hw]
  exact congrArg _ (finish_trap hc _ _ _ _)

/-- An mts that its register ignores leaves only the read of its cell. -/
theorem mts_ignored {s : State} {a : Name} (ht : (s.val a).t = false) {n : BitVec 12}
    (hw : sregWrite (.mts a n) n.toNat (s.val a).v (s.took a) = .ok (.next, s.took a))
    (h : Ready (.mts a n) s) : exec (.mts a n) s = .next (s.done (s.took a)) := by
  rw [mts_of_ready h ht, hw, finish_next]

theorem lookup_after_putReg {l l' : List (Nat × Word)} {n : Nat} {w : Word} (h : l' = putReg n w l)
    (hin : (l.lookup n).isSome = true) : l'.lookup n = some w ∧ ∀ m, m ≠ n → l'.lookup m = l.lookup m := by
  subst h
  refine ⟨?_, fun m hm => ?_⟩
  · obtain ⟨v, hv⟩ := Option.isSome_iff_exists.1 hin
    simp [lookup_putReg, hv]
  · simp [lookup_putReg, hm]

/-- The slot written: its table is the old one with the register replaced, and with WIN after it for WBASE and WLIM. -/
theorem wrote_setSlot {u : State} {g k : Nat} {n : BitVec 12} {w : Word} {y : Slot}
    (hn : (regTable (u.inflight g k) y (u.core g) u.vr).lookup n.toNat = some w)
    (hm : ∀ m, m ≠ n.toNat → ¬ Follows n m →
      (regTable (u.inflight g k) y (u.core g) u.vr).lookup m = (regsOf u g k).lookup m) :
    Wrote g k n w u (u.setSlot g k y) := by
  rw [← regsOf_setSlot] at hn hm
  exact wrote_of_lookup hn hm (fun _ _ => restReg_congr rfl rfl rfl rfl) rfl rfl rfl (fun _ _ => cell_setSlot ..)
    (fun a j hne => by rw [slot_setSlot, if_neg hne])

/-- The core written, but for its cells and slots. -/
theorem wrote_setCore {u : State} {g k : Nat} {n : BitVec 12} {w : Word} {c : Core} (hrf : c.rf = (u.core g).rf)
    (hsl : c.slots = (u.core g).slots)
    (htab : regTable (u.inflight g k) (u.slot g k) c u.vr = putReg n.toNat w (regsOf u g k))
    (hin : ((regsOf u g k).lookup n.toNat).isSome = true) : Wrote g k n w u (u.setCore g c) := by
  have hslot : ∀ h j, (u.setCore g c).slot h j = u.slot h j := fun h j => by
    unfold State.slot
    rw [core_setCore]
    split
    · rename_i e; rw [e, hsl]
    · rfl
  have hcell : ∀ h j, (u.setCore g c).cell h j = u.cell h j := fun h j => by
    unfold State.cell
    rw [core_setCore]
    split
    · rename_i e; rw [e, hrf]
    · rfl
  have hregs : regsOf (u.setCore g c) g k = putReg n.toNat w (regsOf u g k) := by
    rw [← htab]
    unfold regsOf
    rw [inflight_congr (State.setCore_ops u g c), hslot, core_setCore, if_pos rfl]
    rfl
  obtain ⟨hn, hm⟩ := lookup_after_putReg hregs hin
  exact wrote_of_lookup hn (fun m h _ => hm m h) (fun _ _ => restReg_congr rfl rfl rfl rfl) rfl rfl rfl hcell
    (fun h j _ => hslot h j)

/-- A Vrelell register written. -/
theorem wrote_setVr {u : State} {g k : Nat} {n : BitVec 12} {w : Word} {r : Vrelell}
    (htab : regTable (u.inflight g k) (u.slot g k) (u.core g) r = putReg n.toNat w (regsOf u g k))
    (hin : ((regsOf u g k).lookup n.toNat).isSome = true)
    (hrest : ∀ m, ¬ Follows n m → restReg { u with vr := r } g k m = restReg u g k m) :
    Wrote g k n w u { u with vr := r } := by
  have hregs : regsOf { u with vr := r } g k = putReg n.toNat w (regsOf u g k) := htab
  obtain ⟨hn, hm⟩ := lookup_after_putReg hregs hin
  exact wrote_of_lookup hn (fun m h _ => hm m h) hrest rfl rfl rfl (fun _ _ => rfl) (fun _ _ _ => rfl)

/-- A read of a field changes nothing of the cores but slots. -/
theorem core_took (s : State) (a : Name) (g : Nat) :
    (s.took a).core g = { s.core g with slots := ((s.took a).core g).slots } := by
  rcases took_cases s a with h | ⟨g', k', q, ws, -, h⟩ <;> rw [h]
  rw [core_setSlot]
  split
  · rename_i e; rw [e]
  · rfl

theorem took_vr (s : State) (a : Name) : (s.took a).vr = s.vr := by
  rcases took_cases s a with h | ⟨g', k', q, ws, -, h⟩ <;> rw [h]
  rfl

section
variable {s : State} {g k : Nat} {a : Name} (hc : s.cur = .slot g k) (ht : (s.val a).t = false)
include hc ht

/-- What an mts of a register comes to where its write of the register leaves t. -/
theorem mts_writes {n : BitVec 12} {w : Word} {t : State}
    (hw : sregWrite (.mts a n) n.toNat (s.val a).v (s.took a) = .ok (.next, t)) (hwrote : Wrote g k n w (s.took a) t)
    (h : Ready (.mts a n) s) : ∃ t, exec (.mts a n) s = .next (s.done t) ∧ Wrote g k n w s t :=
  ⟨t, by rw [mts_of_ready h ht, hw, finish_next], hwrote.of_sameRegs (sameRegs_took hc a)⟩

/-- An mts of a register of the slot, with what its table then lists. -/
theorem mts_slot {n : BitVec 12} {w : Word} {f : Slot → Slot}
    (hf : sregWrite (.mts a n) n.toNat (s.val a).v (s.took a) = setMine f (s.took a))
    (htab : ∀ x c r, let l := regTable (s.inflight g k) x c r
      let l' := regTable (s.inflight g k) (f x) c r
      l'.lookup n.toNat = some w ∧ ∀ m, m ≠ n.toNat → ¬ Follows n m → l'.lookup m = l.lookup m)
    (h : Ready (.mts a n) s) : ∃ t, exec (.mts a n) s = .next (s.done t) ∧ Wrote g k n w s t := by
  have hcu : (s.took a).cur = .slot g k := (took_cur s a).trans hc
  obtain ⟨hn, hm⟩ := htab ((s.took a).slot g k) ((s.took a).core g) (s.took a).vr
  rw [← inflight_congr (sameRegs_took hc a).ops] at hn hm
  refine mts_writes hc ht (hf.trans ?_) (wrote_setSlot hn hm) h
  rw [setMine_apply, me_of_slot hcu, setMe_of_slot hcu]

/-- An mts of a register of the slot that no other register follows. -/
theorem mts_mine {n : BitVec 12} {w w' : Word} {f : Slot → Slot}
    (hf : sregWrite (.mts a n) n.toNat (s.val a).v (s.took a) = setMine f (s.took a)) (hww : w' = w)
    (htab : ∀ x c r, regTable (s.inflight g k) (f x) c r = putReg n.toNat w' (regTable (s.inflight g k) x c r) := by
      intros; rfl)
    (hin : ∀ infl x c r, ((regTable infl x c r).lookup n.toNat).isSome = true := by intros; rfl) (h : Ready (.mts a n) s) :
    ∃ t, exec (.mts a n) s = .next (s.done t) ∧ Wrote g k n w s t := by
  subst hww
  refine mts_slot hc ht hf (fun x c r => ?_) h
  obtain ⟨hn, hm⟩ := lookup_after_putReg (htab x c r) (hin _ _ _ _)
  exact ⟨hn, fun m hne _ => hm m hne⟩

/-- An mts of WBASE or WLIM, after which WIN reads otherwise too. -/
theorem mts_window {n : BitVec 12} (h3 : Follows n 0x003) {w w' : Word} {f : Slot → Slot}
    (hf : sregWrite (.mts a n) n.toNat (s.val a).v (s.took a) = setMine f (s.took a)) (hww : w' = w)
    (htab : ∀ x c r, ∃ win, regTable (s.inflight g k) (f x) c r =
      putReg n.toNat w' (putReg 0x003 win (regTable (s.inflight g k) x c r)) := by exact fun _ _ _ => ⟨_, rfl⟩)
    (hin : ∀ infl x c r win, ((putReg 0x003 win (regTable infl x c r)).lookup n.toNat).isSome = true := by intros; rfl)
    (h : Ready (.mts a n) s) : ∃ t, exec (.mts a n) s = .next (s.done t) ∧ Wrote g k n w s t := by
  subst hww
  refine mts_slot hc ht hf (fun x c r => ?_) h
  obtain ⟨win, e⟩ := htab x c r
  obtain ⟨hn, hm⟩ := lookup_after_putReg e (hin _ _ _ _ _)
  refine ⟨hn, fun m hne hnf => (hm m hne).trans ?_⟩
  have hm3 : m ≠ 0x003 := fun e => hnf (e ▸ h3)
  simp [lookup_putReg, hm3]

/-- An mts of a register of the core. -/
theorem mts_own {n : BitVec 12} {w w' : Word} {f : Core → Core}
    (hf : sregWrite (.mts a n) n.toNat (s.val a).v (s.took a) = setOwn f (s.took a))
    (hww : w' = w)
    (hrf : ∀ c, (f c).rf = c.rf := by intros; rfl) (hsl : ∀ c, (f c).slots = c.slots := by intros; rfl)
    (htab : ∀ l x r, let c : Core := { s.core g with slots := l }
      regTable (s.inflight g k) x (f c) r = putReg n.toNat w' (regTable (s.inflight g k) x c r) := by intros; rfl)
    (hin : ∀ infl x c r, ((regTable infl x c r).lookup n.toNat).isSome = true := by intros; rfl) (h : Ready (.mts a n) s) :
    ∃ t, exec (.mts a n) s = .next (s.done t) ∧ Wrote g k n w s t := by
  subst hww
  have hcu : (s.took a).cur = .slot g k := (took_cur s a).trans hc
  have e := htab ((s.took a).core g).slots ((s.took a).slot g k) (s.took a).vr
  simp only at e
  rw [← core_took, ← inflight_congr (sameRegs_took hc a).ops] at e
  refine mts_writes hc ht (hf.trans ?_) (wrote_setCore (hrf _) (hsl _) e (hin _ _ _ _)) h
  rw [setOwn_apply, gk_of_slot hcu]

/-- An mts of a plain register of the Vrelell core. -/
theorem mts_vr {n : BitVec 12} {w w' : Word} {f : Vrelell → Vrelell}
    (hf : sregWrite (.mts a n) n.toNat (s.val a).v (s.took a) = vrSet f (s.took a)) (hww : w' = w)
    (htab : ∀ infl x c r, regTable infl x c (f r) = putReg n.toNat w' (regTable infl x c r) := by intros; rfl)
    (hin : ∀ infl x c r, ((regTable infl x c r).lookup n.toNat).isSome = true := by intros; rfl)
    (hrest : ∀ (u : State) m, ¬ Follows n m → restReg { u with vr := f u.vr } g k m = restReg u g k m := by
      intros; rfl)
    (h : Ready (.mts a n) s) : ∃ t, exec (.mts a n) s = .next (s.done t) ∧ Wrote g k n w s t := by
  subst hww
  exact mts_writes hc ht hf (wrote_setVr (htab _ _ _ _) (hin _ _ _ _) (hrest _)) h

end

/-! ### The values that registers keep -/

theorem setWidth_setWidth_eq_and (v : Word) (n : Nat) (hn : n ≤ 64) :
    (v.setWidth n).setWidth 64 = v &&& BitVec.ofNat 64 (2 ^ n - 1) := by
  apply BitVec.eq_of_toNat_eq
  have h1 : 2 ^ n ≤ 2 ^ 64 := Nat.pow_le_pow_right (by omega) hn
  have h2 := v.isLt
  have h3 := Nat.pos_of_ne_zero (NeZero.ne (2 ^ n))
  rw [BitVec.toNat_setWidth, BitVec.toNat_setWidth, BitVec.toNat_and, BitVec.toNat_ofNat,
    Nat.mod_eq_of_lt (show 2 ^ n - 1 < 2 ^ 64 by omega), Nat.and_two_pow_sub_one_eq_mod]
  exact Nat.mod_eq_of_lt (lt_of_lt_of_le (Nat.mod_lt _ h3) h1)

theorem and_all (v : Word) : v = v &&& 0xFFFFFFFFFFFFFFFF := (BitVec.and_allOnes).symm

/-! ### The registers with a check of their own -/

theorem sregWrite_prec (i : Instr) {v : Word} (h : 8 ≤ v.toNat % 2 ^ 10 ∧ v.toNat % 2 ^ 10 ≤ 1000) (u : State) :
    sregWrite i 0x004 v u = setMine (fun x => { x with prec := v.setWidth 10 }) u := by
  show (if _ then _ else _ : M Ctl) u = _
  rw [if_neg (by simp; omega)]

theorem sregWrite_prec_illegal (i : Instr) {v : Word} (h : v.toNat % 2 ^ 10 < 8 ∨ 1000 < v.toNat % 2 ^ 10) (u : State) :
    sregWrite i 0x004 v u = (illWord i : M Ctl) u := by
  show (if _ then _ else _ : M Ctl) u = _
  rw [if_pos (by simp; omega)]
  rfl

theorem sregWrite_vctl (i : Instr) {v : Word} (h : v.toNat / 2 % 8 < 5) (u : State) :
    sregWrite i 0x005 v u = setMine (fun x => { x with vctl := v &&& 0xF0F }) u := by
  show (if _ then _ else _ : M Ctl) u = _
  rw [if_neg (by simp; omega)]

theorem sregWrite_vctl_illegal (i : Instr) {v : Word} (h : 5 ≤ v.toNat / 2 % 8) (u : State) :
    sregWrite i 0x005 v u = (illWord i : M Ctl) u := by
  show (if _ then _ else _ : M Ctl) u = _
  rw [if_pos (by simp; omega)]
  rfl

theorem sregWrite_fctl (i : Instr) {v : Word} (h : v.toNat % 8 < 5) (u : State) :
    sregWrite i 0x006 v u = setMine (fun x => { x with fctl := v &&& 0x1F1F07 }) u := by
  show (if _ then _ else _ : M Ctl) u = _
  rw [if_neg (by simp; omega)]

theorem sregWrite_fctl_illegal (i : Instr) {v : Word} (h : 5 ≤ v.toNat % 8) (u : State) :
    sregWrite i 0x006 v u = (illWord i : M Ctl) u := by
  show (if _ then _ else _ : M Ctl) u = _
  rw [if_pos (by simp; omega)]
  rfl

/-- R372: PLEV of TCAUSE is at most the slot's own level. -/
theorem sregWrite_tcause (i : Instr) {v : Word} {u : State} {g k : Nat} (hc : u.cur = .slot g k)
    (h : v.toNat / 2 ^ 9 % 4 ≤ (u.slot g k).level.code ∧ v.toNat / 2 ^ 9 % 4 ≠ 3) :
    sregWrite i 0x103 v u =
      setMine (fun x => { x with tcause := if g = 4096 then (v &&& 0x9FF) ||| 0x400 else v &&& 0xFFF }) u := by
  show (if _ then _ else _ : M Ctl) u = _
  rw [if_neg (by rw [me_of_slot hc]; simp; omega), gk_of_slot hc]
  rfl

theorem sregWrite_tcause_illegal (i : Instr) {v : Word} {u : State} {g k : Nat} (hc : u.cur = .slot g k)
    (h : v.toNat / 2 ^ 9 % 4 = 3 ∨ (u.slot g k).level.code < v.toNat / 2 ^ 9 % 4) :
    sregWrite i 0x103 v u = (illWord i : M Ctl) u := by
  show (if _ then _ else _ : M Ctl) u = _
  rw [if_pos (by rw [me_of_slot hc]; simp; omega)]
  rfl

theorem sregWrite_smpl (i : Instr) {v : Word} (h : smplBad v = false) (h5 : v.getLsbD 5 = false) (u : State) :
    sregWrite i 0x114 v u = setOwn (fun c => { c with
      smpl := v &&& 0x0000FFFFFFFF001F
      sampleCount := if v.getLsbD 0 then 0 else c.sampleCount
      smplAt := some c.cyc }) u := by
  show (if _ then _ else _ : M Ctl) u = _
  rw [if_neg (by simp [h])]
  show Except.ok (Ctl.next, u.smplWrite u.gk.1 v) = _
  unfold State.smplWrite
  rw [h5]
  rfl

theorem sregWrite_smpl_illegal (i : Instr) {v : Word} (h : smplBad v = true) (u : State) :
    sregWrite i 0x114 v u = (illWord i : M Ctl) u := by
  show (if _ then _ else _ : M Ctl) u = _
  rw [if_pos h]
  rfl

/-- A read of a field leaves the level. -/
theorem took_level {s : State} {g k : Nat} (a : Name) : ((s.took a).slot g k).level = (s.slot g k).level := by
  rcases took_cases s a with h | ⟨g', k', q, ws, -, h⟩ <;> rw [h]
  rw [slot_setSlot]
  split
  · rename_i e; obtain ⟨rfl, rfl⟩ := e
    unfold Slot.setQueue; split <;> rfl
  · rfl

/-! ### The registers that keep a value under a mask (R8, R211) -/

/-- The registers that an mts writes under a mask, with their masks. -/
def maskedRegs : List (BitVec 12 × Word) :=
  let m49 : Word := 0x0001FFFFFFFFFFFF
  let all : Word := 0xFFFFFFFFFFFFFFFF
  [(0x007, 0xFF3F), (0x010, m49), (0x011, m49), (0x012, all), (0x013, all), (0x014, all),
    (0x015, all), (0x016, 0x00FFFFFFFFFFFFFF), (0x017, m49), (0x018, 0x7FF), (0x019, m49), (0x01A, 0x00FFFFFFFFFFFFFF),
    (0x040, m49), (0x100, 0x7FF), (0x101, 0xFF), (0x102, 0x0001FFFFFFFFFFFD), (0x104, all), (0x105, m49),
    (0x106, 0x0000FFFF07FF03FF), (0x108, all), (0x109, all), (0x10A, all), (0x10B, all), (0x10C, all), (0x10D, all),
    (0x10E, all), (0x10F, all), (0x110, 0x0000FFFFFFF80001), (0x111, 0xFFFF), (0x112, 0xFFFF), (0x200, 0x3F),
    (0x203, 0x000007FF0003FFFF), (0x204, 0x000000030003FFFF), (0x205, 0x3FFFF), (0x208, 0x3FFFF),
    (0x209, 0x000007FF0007FFFF), (0x20A, 0x3FFFF)]

/-- FUSEA written: the rest of the registers but FUSED is as before. -/
theorem restReg_fusea (u : State) (w : BitVec 6) (g k m : Nat) (h : ¬ Follows 0x200 m) :
    restReg { u with vr := { u.vr with fusea := w } } g k m = restReg u g k m := by
  have h201 : m ≠ 0x201 := fun e => h (.inr ⟨e, rfl⟩)
  unfold restReg
  split
  case h_3 => exact absurd rfl h201
  all_goals rfl

section
variable {s : State} {g k : Nat} {a : Name} (hc : s.cur = .slot g k) (ht : (s.val a).t = false)
include hc ht

/-- Each of them is a field of the slot, of its core or of the Vrelell core, and an mts writes that field alone. -/
theorem mts_masked : ∀ e ∈ maskedRegs, Ready (.mts a e.1) s →
    ∃ t, exec (.mts a e.1) s = .next (s.done t) ∧ Wrote g k e.1 ((s.val a).v &&& e.2) s t := by
  have all := and_all (s.val a).v
  have low (n : Nat) (hn : n ≤ 64) := setWidth_setWidth_eq_and (s.val a).v n hn
  simp only [maskedRegs, List.forall_mem_cons]
  exact ⟨mts_mine hc ht (f := fun x => { x with tshp := _ }) rfl rfl,
    mts_mine hc ht (f := fun x => { x with csrc := _ }) rfl rfl,
    mts_mine hc ht (f := fun x => { x with cdst := _ }) rfl rfl,
    mts_mine hc ht (f := fun x => { x with cstr1 := _ }) rfl all,
    mts_mine hc ht (f := fun x => { x with cstr2 := _ }) rfl all,
    mts_mine hc ht (f := fun x => { x with cdstr1 := _ }) rfl all,
    mts_mine hc ht (f := fun x => { x with cdstr2 := _ }) rfl all,
    mts_mine hc ht (f := fun x => { x with cdim := _ }) rfl rfl,
    mts_mine hc ht (f := fun x => { x with cbnd := _ }) rfl rfl,
    mts_mine hc ht (f := fun x => { x with ccvt := _ }) rfl rfl,
    mts_mine hc ht (f := fun x => { x with cdone := _ }) rfl rfl,
    mts_mine hc ht (f := fun x => { x with cval := _ }) rfl rfl,
    mts_mine hc ht (f := fun x => { x with task := _ }) rfl rfl,
    mts_window hc ht (.inl ⟨rfl, .inl rfl⟩) (f := fun x => { x with wbase := _ }) rfl (low 11 (by omega)),
    mts_window hc ht (.inl ⟨rfl, .inr rfl⟩) (f := fun x => { x with wlim := _ }) rfl (low 8 (by omega)),
    mts_own hc ht (f := fun c => { c with tvec := _ }) rfl rfl,
    mts_mine hc ht (f := fun x => { x with tval := _ }) rfl all,
    mts_mine hc ht (f := fun x => { x with tepc := _ }) rfl rfl,
    mts_mine hc ht (f := fun x => { x with tstat := _ }) rfl rfl,
    mts_mine hc ht (f := fun x => { x with ks0 := _ }) rfl all,
    mts_mine hc ht (f := fun x => { x with ks1 := _ }) rfl all,
    mts_mine hc ht (f := fun x => { x with ks2 := _ }) rfl all,
    mts_mine hc ht (f := fun x => { x with ks3 := _ }) rfl all,
    mts_mine hc ht (f := fun x => { x with ks4 := _ }) rfl all,
    mts_mine hc ht (f := fun x => { x with ks5 := _ }) rfl all,
    mts_mine hc ht (f := fun x => { x with ks6 := _ }) rfl all,
    mts_mine hc ht (f := fun x => { x with ks7 := _ }) rfl all,
    mts_own hc ht (f := fun c => { c with ptroot := _ }) rfl rfl,
    mts_own hc ht (f := fun c => { c with asid := _ }) rfl rfl,
    mts_own hc ht (f := fun c => { c with xcals := _ }) rfl rfl,
    mts_vr hc ht (f := fun r => { r with fusea := _ }) rfl (low 6 (by omega)) (hrest := fun u m => restReg_fusea u _ g k m),
    mts_vr hc ht (f := fun r => { r with sigmsg := _ }) rfl rfl,
    mts_vr hc ht (f := fun r => { r with sigkey := _ }) rfl rfl,
    mts_vr hc ht (f := fun r => { r with sigsig := _ }) rfl rfl,
    mts_vr hc ht (f := fun r => { r with shkin := _ }) rfl rfl,
    mts_vr hc ht (f := fun r => { r with shklen := _ }) rfl rfl,
    mts_vr hc ht (f := fun r => { r with shkout := _ }) rfl rfl,
    nofun⟩

end

end Sys2Proof.Organisation
end

