-- ==== Sys2Proof/Proofs/SpecialRegisters.lean ====
section
/-! SUPPORT. Sys2Proof/Proofs/SpecialRegisters.lean: which registers an access at no level
reaches, the value of every register, and mfs and mts of each (O43). -/

namespace Sys2Proof.Organisation
open Sys2Proof.Machine

/-- What follows from either branch of an option follows from the choice. -/
theorem of_ite_eq_some {α : Type} {c p : Prop} [Decidable c] {a b : Option α} {i : α} (ha : c → a = some i → p)
    (hb : b = some i → p) : (if c then a else b) = some i → p := by
  split
  · exact ha ‹_›
  · exact hb

/-- The registers that mts writes at no level. -/
theorem sregInfo_readOnly {x : Nat} {i : SregInfo}
    (hx : x ≤ 3 ∨ x = 0x01F ∨ (0x030 ≤ x ∧ x ≤ 0x033) ∨ x = 0x115 ∨ (0x210 ≤ x ∧ x ≤ 0x217)) :
    sregInfo x = some i → i.wr = none := by
  unfold sregInfo
  extract_lets mk u sv
  iterate 15
    refine of_ite_eq_some (fun c h => ?_) ?_
    · simp -failIfUnchanged only [Bool.or_eq_true, Bool.and_eq_true, decide_eq_true_eq] at c
      first | omega | exact (congrArg SregInfo.wr (Option.some.inj h)).symm
  nofun

/-- Which numbers have a register, on the cores and on the Vrelell core. -/
theorem sregInfo_present {x : Nat} {i : SregInfo} : sregInfo x = some i →
    ¬ (x = 9 ∨ (0x00A ≤ x ∧ x ≤ 0x00F) ∨ (0x01B ≤ x ∧ x ≤ 0x01E) ∨ (0x022 ≤ x ∧ x ≤ 0x02F) ∨ (0x034 ≤ x ∧ x ≤ 0x03F) ∨
      (0x041 ≤ x ∧ x ≤ 0x0FF) ∨ x = 0x107 ∨ (0x117 ≤ x ∧ x ≤ 0x1FF) ∨ x = 0x20F ∨ 0x219 ≤ x) ∧
    (0x200 ≤ x ∧ x ≤ 0x218 → i.onCore = false) ∧
    ((x = 4 ∨ x = 5 ∨ x = 7 ∨ (0x010 ≤ x ∧ x ≤ 0x021) ∨ x = 0x040 ∨ (0x110 ≤ x ∧ x ≤ 0x116)) → i.onVrelell = false) := by
  unfold sregInfo
  extract_lets mk u sv
  iterate 15
    refine of_ite_eq_some (fun c h => ?_) ?_
    · simp -failIfUnchanged only [Bool.or_eq_true, Bool.and_eq_true, decide_eq_true_eq] at c
      obtain rfl := Option.some.inj h
      refine ⟨by omega, fun hv => ?_, fun hv => ?_⟩ <;> first | rfl | omega
  nofun

/-- R211, R281: mts of a register that cannot be written has no level. -/
theorem sregLevel_readOnly (g : Nat) {x : Nat}
    (hx : x ≤ 3 ∨ x = 0x01F ∨ (0x030 ≤ x ∧ x ≤ 0x033) ∨ x = 0x115 ∨ (0x210 ≤ x ∧ x ≤ 0x217)) :
    sregLevel g x true = none := by
  unfold sregLevel
  cases h : sregInfo x with
  | none => rfl
  | some i => simp [sregInfo_readOnly hx h]

/-- R211, R281: an access to a number without a register, or whose register the core does not have, has no level. -/
theorem sregLevel_absent (g : Nat) {x : Nat} (write : Bool)
    (hx : x = 9 ∨ (0x00A ≤ x ∧ x ≤ 0x00F) ∨ (0x01B ≤ x ∧ x ≤ 0x01E) ∨ (0x022 ≤ x ∧ x ≤ 0x02F) ∨ (0x034 ≤ x ∧ x ≤ 0x03F) ∨
      (0x041 ≤ x ∧ x ≤ 0x0FF) ∨ x = 0x107 ∨ (0x117 ≤ x ∧ x ≤ 0x1FF) ∨ x = 0x20F ∨ 0x219 ≤ x ∨
      (g ≠ 4096 ∧ 0x200 ≤ x ∧ x ≤ 0x218) ∨
      (g = 4096 ∧ (x = 4 ∨ x = 5 ∨ x = 7 ∨ (0x010 ≤ x ∧ x ≤ 0x021) ∨ x = 0x040 ∨ (0x110 ≤ x ∧ x ≤ 0x116)))) :
    sregLevel g x write = none := by
  unfold sregLevel
  cases h : sregInfo x with
  | none => rfl
  | some i =>
    obtain ⟨hno, hcore, hvr⟩ := sregInfo_present h
    refine if_neg ?_
    by_cases hg : g = 4096
    · have hv := hvr (by omega)
      simp [vrNum, hg, hv]
    · have hv := hcore (by omega)
      simp [vrNum, hg, hv]

/-! ### The values of the registers (R18, R79, R91, R135, R350 to R364) -/

theorem toNat_ofNat_add {a b m n : Nat} (ha : a < 2 ^ m) (hb : b < 2 ^ n) (h : m + n ≤ 64) :
    (BitVec.ofNat 64 (a + b * 2 ^ m)).toNat = a + b * 2 ^ m := by
  rw [BitVec.toNat_ofNat]
  refine Nat.mod_eq_of_lt (lt_of_lt_of_le ?_ (Nat.pow_le_pow_right (by omega) h))
  rw [pow_add]
  have : (b + 1) * 2 ^ m ≤ 2 ^ n * 2 ^ m := Nat.mul_le_mul_right _ hb
  nlinarith

theorem win_value (s : State) (g k : Nat) : (s.sregValue g k 0x003).toNat =
    (s.slot g k).wbase.toNat + (s.slot g k).wlim.toNat * 2 ^ 16 := by
  have h1 := (s.slot g k).wbase.isLt
  have h2 := (s.slot g k).wlim.isLt
  exact toNat_ofNat_add (m := 16) (n := 8) (by omega) h2 (by omega)

theorem prec_value (s : State) (g k : Nat) : (s.sregValue g k 0x004).toNat =
    (s.slot g k).prec.toNat + vfCells (s.slot g k).prec.toNat * 2 ^ 16 := by
  have h1 := (s.slot g k).prec.isLt
  have h2 := vfCells_le (s.slot g k).prec
  exact toNat_ofNat_add (m := 16) (n := 8) (by omega) (by omega) (by omega)

theorem cstat_value (s : State) (g k : Nat) :
    s.sregValue g k 0x021 = BitVec.ofNat 64 (s.inflight g k + (s.slot g k).cflags.toNat * 2 ^ 16) := rfl

theorem cstat_copies (s : State) (g k : Nat) {i : Nat} (hi : i < 16) :
    (s.sregValue g k 0x021).getLsbD i = true ↔ ∃ o, s.transfer g i = some o ∧ o.live = true ∧ o.k = k := by
  rw [cstat_value, getLsbD_ofNat_low (inflight_lt s g k) (by omega) _ hi, testBit_inflight s g k hi, ownsTransfer_iff]

theorem cstat_flags (s : State) (g k : Nat) : (s.sregValue g k 0x021).toNat / 2 ^ 16 = (s.slot g k).cflags.toNat := by
  have h1 := inflight_lt s g k
  rw [cstat_value, toNat_ofNat_add (n := 4) h1 (s.slot g k).cflags.isLt (by omega)]
  omega

theorem smpl_value (s : State) (g k i : Nat) : (s.sregValue g k 0x114).getLsbD i =
    ((s.core g).smpl.getLsbD i || ((s.core g).dump.isSome && decide (i = 5))) := getLsbD_or_bit _ _ 5 i (by omega)

theorem sigres_value (s : State) (g k i : Nat) : (s.sregValue g k 0x207).getLsbD i =
    ((s.vr.sigres.setWidth 64).getLsbD i || (s.vrBusy 0 && decide (i = 0))) := by
  have h : s.sregValue g k 0x207 = s.vr.sigres.setWidth 64 ||| BitVec.ofNat 64 ((s.vrBusy 0).toNat * 2 ^ 0) := by
    rw [pow_zero, Nat.mul_one]; rfl
  rw [h, getLsbD_or_bit _ _ _ _ (by omega)]

theorem mext_value (s : State) (g k i : Nat) : (s.sregValue g k 0x218).getLsbD i =
    (s.vr.mext.getLsbD i || (s.vrBusy 3 && decide (i = 63))) := getLsbD_or_bit _ _ 63 i (by omega)

theorem fused_value (s : State) (g k : Nat) : s.sregValue g k 0x201 =
    if 24 ≤ s.vr.fusea.toNat ∧ s.vr.fusea.toNat ≤ 31 then 0 else s.fuse s.vr.fusea.toNat := by
  show s.fusedValue = _
  unfold State.fusedValue
  simp

theorem kstat_keys (s : State) (g k : Nat) {p : Nat} (hp : p < 16) :
    (s.sregValue g k 0x20D).getLsbD p = (s.part p).key.isSome := by
  show s.kstat.getLsbD p = _
  rw [kstat_eq, getLsbD_ofNat_low (keyBits_lt s) (by omega) _ hp, testBit_keyBits s hp]

theorem kstat_flags (s : State) (g k : Nat) : (s.sregValue g k 0x20D).toNat / 2 ^ 16 =
    (s.vrBusy 2).toNat + 2 * s.vr.swept.toNat + 4 * s.vr.extd.toNat + 8 * s.vr.kerr.toNat := by
  show s.kstat.toNat / 2 ^ 16 = keyFlags s
  have h1 := keyBits_lt s
  rw [kstat_eq, toNat_ofNat_add h1 (keyFlags_lt s) (by omega)]
  omega

theorem nonce_value (s : State) (g k : Nat) :
    (s.sregValue g k 0x20E).toNat = s.vr.dbgOpen.toNat + s.vr.nonce.toNat * 2 ^ 16 := by
  have h1 := s.vr.dbgOpen.toNat_lt
  have h2 := s.vr.nonce.isLt
  exact toNat_ofNat_add (m := 16) (n := 48) (by omega) (by omega) (by omega)

theorem measurement_value (s : State) (g k : Nat) {n : Nat} (hn : n < 8) :
    (s.sregValue g k (0x210 + n)).toNat = (Sparse.get 0 s.vr.meas n).toNat % 2 ^ 64 := by
  have h : s.sregValue g k (0x210 + n) = (Sparse.get 0 s.vr.meas n).setWidth 64 := by interval_cases n <;> rfl
  rw [h, BitVec.toNat_setWidth]

/-! ### mfs (R281) -/

/-- A ready mfs of a register whose read has no effect. -/
theorem mfs_plain {s : State} {g k : Nat} (hc : s.cur = .slot g k) {d : Name} {n : BitVec 12} (h : Ready (.mfs d n) s)
    (h1F : n ≠ 0x01F) (h113 : n ≠ 0x113) :
    exec (.mfs d n) s = .next (s.done (s.writeName d { v := s.sregValue g k n.toNat, t := false })) := by
  have e1 : n.toNat ≠ 0x01F := fun e => h1F (BitVec.eq_of_toNat_eq e)
  have e2 : n.toNat ≠ 0x113 := fun e => h113 (BitVec.eq_of_toNat_eq e)
  show issue _ _ s = _
  rw [issue_of_ready h, mfsOp, if_neg e1, if_neg e2, M.bind_ok (M.get_apply _), gk_of_slot hc,
    M.bind_ok (writeName_apply _ _ _), M.pure_apply, finish_next]

/-- R149: a ready mfs of XBND clears it. -/
theorem mfs_xbnd {s : State} {g k : Nat} (hc : s.cur = .slot g k) {d : Name} (h : Ready (.mfs d 0x113) s) :
    exec (.mfs d 0x113) s = .next (s.done ((s.setCore g { s.core g with xbnd := 0, peak := none }).writeName d
      { v := (s.core g).xbnd, t := false })) := by
  have hx : xbndRead s = .ok ((s.core g).xbnd, s.setCore g { s.core g with xbnd := 0, peak := none }) := by
    unfold xbndRead; rw [gk_of_slot hc]
  show issue _ _ s = _
  rw [issue_of_ready h, mfsOp, if_neg (by decide), if_pos (by decide), M.bind_ok hx, M.bind_ok (writeName_apply _ _ _),
    M.pure_apply, finish_next]

/-- R211, R281: an instruction that no level allows raises ILL with the word in TVAL. -/
theorem exec_of_no_level {i : Instr} {s : State} {g k : Nat} (hc : s.cur = .slot g k) {body : M Ctl}
    (hx : exec i s = issue i body s) (hl : needLevel g i = none) :
    exec i s = .next (s.trapped g k i 0x01 ((encode i).setWidth 64)) := by
  have hp : preCheck i s = .error (.trap cILL ((encode i).setWidth 64) 0) := by
    unfold preCheck
    simp only [hc, hl]
    split <;> rfl
  rw [hx, issue_of_fails hp, finish_trap hc]
  rfl

section
variable {s : State} {g k : Nat} {a : Name} (hc : s.cur = .slot g k) (ht : (s.val a).t = false)
include hc ht

/-- PREC reads with CELLS above the precision written. -/
theorem mts_prec (h : 8 ≤ (s.val a).v.toNat % 2 ^ 10 ∧ (s.val a).v.toNat % 2 ^ 10 ≤ 1000) (hr : Ready (.mts a 0x004) s) :
    ∃ t, exec (.mts a 0x004) s = .next (s.done t) ∧ Wrote g k 0x004 (BitVec.ofNat 64
      ((s.val a).v.toNat % 2 ^ 10 + vfCells ((s.val a).v.toNat % 2 ^ 10) * 2 ^ 16)) s t :=
  mts_mine hc ht (n := 0x004) (f := fun x => { x with prec := _ }) (sregWrite_prec _ h _)
    (w' := precValue ((s.val a).v.setWidth 10)) (by rw [precValue, BitVec.toNat_setWidth]) (h := hr)

theorem mts_vctl (h : (s.val a).v.toNat / 2 % 8 < 5) (hr : Ready (.mts a 0x005) s) :
    ∃ t, exec (.mts a 0x005) s = .next (s.done t) ∧ Wrote g k 0x005 ((s.val a).v &&& 0xF0F) s t :=
  mts_mine hc ht (n := 0x005) (f := fun x => { x with vctl := _ }) (sregWrite_vctl _ h _) rfl (h := hr)

theorem mts_fctl (h : (s.val a).v.toNat % 8 < 5) (hr : Ready (.mts a 0x006) s) :
    ∃ t, exec (.mts a 0x006) s = .next (s.done t) ∧ Wrote g k 0x006 ((s.val a).v &&& 0x1F1F07) s t :=
  mts_mine hc ht (n := 0x006) (f := fun x => { x with fctl := _ }) (sregWrite_fctl _ h _) rfl (h := hr)

/-- R227: predicate 0 stays true. -/
theorem mts_pred (hr : Ready (.mts a 0x008) s) :
    ∃ t, exec (.mts a 0x008) s = .next (s.done t) ∧ Wrote g k 0x008 (((s.val a).v &&& 0xFF) ||| 1) s t := by
  refine mts_mine hc ht (n := 0x008) (f := fun x => { x with pred := _ }) rfl
    (w' := ((s.val a).v.setWidth 8 ||| 1).setWidth 64) ?_ (h := hr)
  rw [BitVec.setWidth_or, setWidth_setWidth_eq_and _ 8 (by omega)]
  rfl

/-- R372: on the Vrelell core the saved level is the core's own. -/
theorem mts_tcause (h : (s.val a).v.toNat / 2 ^ 9 % 4 ≤ s.me.level.code) (h3 : (s.val a).v.toNat / 2 ^ 9 % 4 ≠ 3)
    (hr : Ready (.mts a 0x103) s) : ∃ t, exec (.mts a 0x103) s = .next (s.done t) ∧
      Wrote g k 0x103 (if g = 4096 then ((s.val a).v &&& 0x9FF) ||| 0x400 else (s.val a).v &&& 0xFFF) s t := by
  rw [me_of_slot hc, ← took_level a] at h
  exact mts_mine hc ht (n := 0x103) (f := fun x => { x with tcause := _ })
    (sregWrite_tcause _ ((took_cur s a).trans hc) ⟨h, h3⟩) rfl (h := hr)

theorem mts_tcause_illegal (h : (s.val a).v.toNat / 2 ^ 9 % 4 = 3 ∨ s.me.level.code < (s.val a).v.toNat / 2 ^ 9 % 4)
    (hr : Ready (.mts a 0x103) s) :
    exec (.mts a 0x103) s = .next (s.trapped g k (.mts a 0x103) 0x01 ((encode (.mts a 0x103)).setWidth 64)) := by
  rw [me_of_slot hc, ← took_level a] at h
  exact mts_illegal hc ht (sregWrite_tcause_illegal _ ((took_cur s a).trans hc) h) hr

/-- R135: CSTAT keeps its flags and none of the bits of the copies. -/
theorem mts_cstat (hr : Ready (.mts a 0x021) s) : ∃ t, exec (.mts a 0x021) s = .next (s.done t) ∧
    Wrote g k 0x021 (BitVec.ofNat 64 (s.inflight g k + (s.val a).v.toNat / 2 ^ 16 % 16 * 2 ^ 16)) s t := by
  refine mts_mine hc ht (n := 0x021) (f := fun x => { x with cflags := _ }) rfl (w' := BitVec.ofNat 64
    (s.inflight g k + ((s.val a).v.extractLsb' 16 4).toNat * 2 ^ 16)) ?_ (h := hr)
  rw [BitVec.extractLsb'_toNat, Nat.shiftRight_eq_div_pow]

/-- R342: SMPL without the request of a dump. -/
theorem mts_smpl (hb : smplBad (s.val a).v = false) (h5 : (s.val a).v.getLsbD 5 = false) (hd : (s.core g).dump = none)
    (hr : Ready (.mts a 0x114) s) : ∃ t, exec (.mts a 0x114) s = .next (s.done t) ∧
      Wrote g k 0x114 ((s.val a).v &&& 0x0000FFFFFFFF001F) s t := by
  refine mts_own hc ht (n := 0x114) (f := fun c => { c with
      smpl := _, sampleCount := if (s.val a).v.getLsbD 0 then 0 else c.sampleCount, smplAt := some c.cyc })
    (sregWrite_smpl _ hb h5 _)
    (w' := ((s.val a).v &&& 0x0000FFFFFFFF001F) ||| BitVec.ofNat 64 ((s.core g).dump.isSome.toNat * 2 ^ 5)) ?_ (h := hr)
  rw [hd]
  exact BitVec.or_zero

/-- R346: PSTOP keeps its word and takes its top bit. -/
theorem mts_pstop (hr : Ready (.mts a 0x116) s) : ∃ t, exec (.mts a 0x116) s = .next (s.done t) ∧
    Wrote g k 0x116 (((s.val a).v &&& 0x8000000000000000) ||| ((s.core g).pstop &&& 0x7FFFFFFFFFFFFFFF)) s t :=
  mts_own hc ht (n := 0x116) (f := fun c => { c with pstop := ((s.val a).v &&& 0x8000000000000000) ||| (c.pstop &&& 0x7FFFFFFFFFFFFFFF) })
    rfl rfl (h := hr)

end

/-- R8, R211: the registers that ignore an mts. -/
theorem mts_ignores {s : State} {a : Name} (ht : (s.val a).t = false) :
    ∀ n ∈ [(0x020 : BitVec 12), 0x113, 0x207, 0x20D], Ready (.mts a n) s → exec (.mts a n) s = .next (s.done (s.took a)) := by
  simp only [List.forall_mem_cons]
  exact ⟨mts_ignored ht rfl, mts_ignored ht rfl, mts_ignored ht rfl, mts_ignored ht rfl, nofun⟩

/-- Settles O43: the registers are a table of fields, of which an mts replaces one entry. -/
theorem specialRegisters : Obligations.SpecialRegisters := by
  unfold Obligations.SpecialRegisters
  refine ⟨fun s g k => ⟨List.map_inj_left.1 rfl, fun h => coreValue_of_mesh s h, ?_, win_value s g k, prec_value s g k,
    fun i hi => cstat_copies s g k hi, cstat_flags s g k, ?_, ?_, ?_, ?_, ?_, ?_, ?_, ?_, ?_, fun p hp => kstat_keys s g k hp,
    kstat_flags s g k, nonce_value s g k, fun n hn => measurement_value s g k hn, ?_, ?_⟩, fun _ => rfl, smplBad_iff,
    fun s g k hc => ⟨fun d n hr => ⟨mfs_plain hc hr, ?_⟩, fun a ht => ?_, fun d a n => ⟨fun hx _ => ?_, fun hx => ?_⟩⟩⟩
  · rintro rfl; exact coreValue_of_vrelell s
  · intro i hi; simp [smpl_value, hi]
  · intro h; rw [smpl_value, h]; simp
  · exact (BitVec.toNat_setWidth ..).trans (Nat.mod_eq_of_lt (by omega))
  · exact (BitVec.toNat_setWidth ..).trans (Nat.mod_eq_of_lt (by omega))
  · intro h1 h2; simp [fused_value, h1, h2]
  · intro h; rw [fused_value, if_neg (by omega)]
  · intro i h1 _; simp [sigres_value, show i ≠ 0 by omega]
  · intro h; rw [sigres_value, BitVec.getLsbD_setWidth, h]; simp
  · exact (BitVec.toNat_ofNat ..).trans (Nat.mod_eq_of_lt (lt_trans (Bool.toNat_lt _) (by decide)))
  · intro i hi; simp [mext_value, show i ≠ 63 by omega]
  · intro h; rw [mext_value, h]; simp
  · rintro rfl; exact mfs_xbnd hc hr
  · exact ⟨mts_masked hc ht, fun h1 h2 => mts_prec hc ht ⟨h1, h2⟩, fun h => mts_illegal hc ht (sregWrite_prec_illegal _ h _),
      mts_vctl hc ht, fun h => mts_illegal hc ht (sregWrite_vctl_illegal _ h _), mts_fctl hc ht,
      fun h => mts_illegal hc ht (sregWrite_fctl_illegal _ h _), mts_pred hc ht, mts_tcause hc ht,
      mts_tcause_illegal hc ht, mts_cstat hc ht, fun h => mts_illegal hc ht (sregWrite_smpl_illegal _ h _),
      mts_smpl hc ht, mts_pstop hc ht, mts_ignores ht⟩
  · exact exec_of_no_level hc rfl (sregLevel_readOnly g hx)
  · exact ⟨fun _ => exec_of_no_level hc rfl (sregLevel_absent g false hx),
      fun _ => exec_of_no_level hc rfl (sregLevel_absent g true hx)⟩

end Sys2Proof.Organisation
end

