-- ==== Sys2Proof/Proofs/Vacancies.lean ====
section
/-! SUPPORT. Sys2Proof/Proofs/Vacancies.lean: what the vacancy of a slot, a trace record, the record of a stop and the
release of those that wait for a stop leave, and so what the end of a stop and of a kill leaves. -/

namespace Sys2Proof.Organisation
open Sys2Proof.Machine

/-! ### What the parts of a vacancy leave (R40, R175, R179) -/

/-- R60: only tags change when words are watched no more. -/
theorem unwatchWords_keeps (s : State) (g : Nat) (ws : List Nat) :
    (s.unwatchWords g ws).cores = s.cores ∧ (s.unwatchWords g ws).mem = s.mem ∧ (s.unwatchWords g ws).ops = s.ops := by
  unfold State.unwatchWords
  refine List.foldlRecOn (motive := fun t : State => t.cores = s.cores ∧ t.mem = s.mem ∧ t.ops = s.ops) ws _
    ⟨rfl, rfl, rfl⟩ fun t ht w _ => ?_
  split
  · exact ht
  · exact ht

/-- R12: no port of a core leads back to it. -/
theorem portTarget_ne {g d h : Nat} (hp : portTarget g d = some h) : h ≠ g := by
  unfold portTarget coreX coreY at hp
  split at hp
  case h_5 => contradiction
  all_goals
    split at hp
    · contradiction
    · have := Option.some.inj hp
      omega

/-- R179: the slots of other cores may change when the writers to a slot's queues are freed. -/
theorem freeWriters_keeps (s : State) (g k : Nat) :
    (s.freeWriters g k).core g = s.core g ∧ (s.freeWriters g k).mem = s.mem ∧ (s.freeWriters g k).ops = s.ops := by
  unfold State.freeWriters
  refine List.foldlRecOn (motive := fun t : State => t.core g = s.core g ∧ t.mem = s.mem ∧ t.ops = s.ops)
    [1, 2, 3, 4] _ ⟨rfl, rfl, rfl⟩ fun t ht d _ => ?_
  simp only
  split
  · rename_i h hp
    split
    · rw [core_setSlot, if_neg (portTarget_ne hp).symm]
      exact ht
    · exact ht
  · exact ht

/-- The core of a slot that falls vacant. -/
theorem core_vacate (s : State) (g k : Nat) : (s.vacate g k).core g = { s.core g with
    slots := Sparse.put (s.core g).slots k (s.slot g k).kept
    mailbox := (s.core g).mailbox.filter (fun m => m.slot ≠ k)
    freed := (s.core g).freed ++ [((s.slot g k).allocBase, (s.slot g k).allocUnits)] } := by
  unfold State.vacate
  simp only
  rw [(freeWriters_keeps ..).1, core_of_cores (unwatchWords_keeps ..).1]
  show ((s.setSlot g k _).setCore g _).core g = _
  rw [core_setCore, if_pos rfl, core_setSlot, if_pos rfl]

@[simp] theorem vacate_mem (s : State) (g k : Nat) : (s.vacate g k).mem = s.mem := by
  unfold State.vacate
  simp only
  rw [(freeWriters_keeps ..).2.1, (unwatchWords_keeps ..).2.1]
  rfl

/-- R287: what a vacated slot has in flight belongs to no thread. -/
theorem vacate_ops (s : State) (g k : Nat) :
    (s.vacate g k).ops = s.ops.map (fun o => if o.g = g ∧ o.k = k then { o with live := false } else o) := by
  unfold State.vacate
  simp only
  rw [(freeWriters_keeps ..).2.2, (unwatchWords_keeps ..).2.2]
  simp

@[simp] theorem slot_vacate (s : State) (g k j : Nat) :
    (s.vacate g k).slot g j = if j = k then (s.slot g k).kept else s.slot g j := by
  unfold State.slot
  rw [core_vacate, Sparse.get_put]
  rfl

@[simp] theorem pstop_vacate (s : State) (g k : Nat) : ((s.vacate g k).core g).pstop = (s.core g).pstop := by
  rw [core_vacate]

/-! ### What a trace record and the record of a stop leave (R345, R346) -/

/-- A trace record waits in its core for the end of the cycle. -/
theorem trace_cases (s : State) (g kind k pc detail : Nat) : s.trace g kind k pc detail = s ∨
    ∃ r, s.trace g kind k pc detail = s.setCore g { s.core g with recs := r } := by
  unfold State.trace
  simp only
  split
  · exact .inl rfl
  · exact .inr ⟨_, rfl⟩

@[simp] theorem trace_mem (s : State) (g kind k pc detail : Nat) : (s.trace g kind k pc detail).mem = s.mem := by
  rcases trace_cases s g kind k pc detail with h | ⟨r, h⟩ <;> rw [h]
  rfl

@[simp] theorem trace_ops (s : State) (g kind k pc detail : Nat) : (s.trace g kind k pc detail).ops = s.ops := by
  rcases trace_cases s g kind k pc detail with h | ⟨r, h⟩ <;> rw [h]
  rfl

/-- A core with its records or its record of a stop replaced has the slots it had. -/
theorem slot_setCore_of_slots {s : State} {g : Nat} {c : Core} (h : c.slots = (s.core g).slots) (h' j : Nat) :
    (s.setCore g c).slot h' j = s.slot h' j := by
  unfold State.slot
  rw [core_setCore]
  split
  · rename_i e; rw [e, h]
  · rfl

@[simp] theorem slot_trace (s : State) (g kind k pc detail h j : Nat) : (s.trace g kind k pc detail).slot h j = s.slot h j := by
  rcases trace_cases s g kind k pc detail with e | ⟨r, e⟩ <;> rw [e]
  exact slot_setCore_of_slots (by rfl) h j

@[simp] theorem pstop_trace (s : State) (g kind k pc detail : Nat) :
    ((s.trace g kind k pc detail).core g).pstop = (s.core g).pstop := by
  rcases trace_cases s g kind k pc detail with e | ⟨r, e⟩ <;> rw [e]
  rw [core_setCore, if_pos rfl]

@[simp] theorem recordStop_mem (s : State) (g k : Nat) (pc : Word) (b h : Bool) : (s.recordStop g k pc b h).mem = s.mem := by
  unfold State.recordStop; split <;> rfl

@[simp] theorem recordStop_ops (s : State) (g k : Nat) (pc : Word) (b h : Bool) : (s.recordStop g k pc b h).ops = s.ops := by
  unfold State.recordStop; split <;> rfl

@[simp] theorem slot_recordStop (s : State) (g k : Nat) (pc : Word) (b h : Bool) (h' j : Nat) :
    (s.recordStop g k pc b h).slot h' j = s.slot h' j := by
  unfold State.recordStop
  split
  · rfl
  · exact slot_setCore_of_slots (by rfl) h' j

@[simp] theorem pstop_recordStop (s : State) (g k : Nat) (pc : Word) (b h : Bool) :
    ((s.recordStop g k pc b h).core g).pstop = if g = vrNum then (s.core g).pstop else pstopWord pc k b h := by
  unfold State.recordStop
  split
  · rfl
  · rw [core_setCore, if_pos rfl]

/-! ### The slots that wait for a stop (R287) -/

/-- A slot that differs from a vacant one is listed. -/
theorem mem_keys_of_get_ne {α : Type} {d : α} {m : Sparse α} {n : Nat} (h : Sparse.get d m n ≠ d) : n ∈ m.map (·.1) := by
  induction m with
  | nil => exact absurd rfl h
  | cons e t ih =>
    obtain ⟨a, v⟩ := e
    by_cases ha : n = a
    · exact List.mem_cons.2 (.inl ha)
    · refine List.mem_cons_of_mem _ (ih ?_)
      rw [Sparse.get, if_neg ha] at h
      by_cases hlt : n < a
      · rw [if_pos hlt] at h; exact absurd rfl h
      · rwa [if_neg hlt] at h

theorem mem_slots_of_blocked {s : State} {g j : Nat} {b : Block} (h : (s.slot g j).blocked = some b) :
    j ∈ (s.core g).slots.map (·.1) :=
  mem_keys_of_get_ne (d := {}) fun e => by
    have : (s.slot g j).blocked = none := congrArg Slot.blocked e
    simp [this] at h

/-- The slots of a list that wait for the stop of slot k go on. -/
theorem slot_foldl_releaseStops (g k j : Nat) (l : List Nat) (s : State) :
    (l.foldl (fun s j => if (s.slot g j).blocked = some (.stopOf k) then s.release g j else s) s).slot g j =
      if j ∈ l ∧ (s.slot g j).blocked = some (.stopOf k) then
        { s.slot g j with blocked := none, pc := (s.slot g j).pc + 4 } else s.slot g j := by
  induction l generalizing s with
  | nil => simp
  | cons i l ih =>
    rw [List.foldl_cons, ih]
    by_cases hi : (s.slot g i).blocked = some (.stopOf k)
    · rw [if_pos hi]
      by_cases hj : j = i
      · subst hj; simp [State.release, hi]
      · simp [State.release, hj]
    · rw [if_neg hi]
      by_cases hj : j = i
      · subst hj; simp [hi]
      · simp [hj]

theorem slot_releaseStops (s : State) (g k j : Nat) : (s.releaseStops g k).slot g j =
    if (s.slot g j).blocked = some (.stopOf k) then
      { s.slot g j with blocked := none, pc := (s.slot g j).pc + 4 } else s.slot g j := by
  unfold State.releaseStops
  rw [slot_foldl_releaseStops]
  by_cases h : (s.slot g j).blocked = some (.stopOf k)
  · rw [if_pos ⟨mem_slots_of_blocked h, h⟩, if_pos h]
  · rw [if_neg (fun e => h e.2), if_neg h]

theorem releaseStops_keeps (s : State) (g k : Nat) : (s.releaseStops g k).mem = s.mem ∧
    (s.releaseStops g k).ops = s.ops ∧ ((s.releaseStops g k).core g).pstop = (s.core g).pstop := by
  unfold State.releaseStops
  refine List.foldlRecOn (motive := fun t : State => t.mem = s.mem ∧ t.ops = s.ops ∧ (t.core g).pstop = (s.core g).pstop) _ _
    ⟨rfl, rfl, rfl⟩ fun t ht j _ => ?_
  split
  · refine ⟨ht.1, ht.2.1, ?_⟩
    rw [State.release, core_setSlot, if_pos rfl]
    exact ht.2.2
  · exact ht

/-! ### The end of a stop and of a kill (R346, R377) -/

section
variable (s : State) (g k : Nat) (pc : Word) (b : Bool)

theorem stopEnd_slot : (s.stopEnd g k pc b).slot g k = (s.slot g k).kept := by
  unfold State.stopEnd
  rw [slot_releaseStops]
  simp [Slot.kept]

theorem stopEnd_slot_other {j : Nat} (h : j ≠ k) : (s.stopEnd g k pc b).slot g j =
    if (s.slot g j).blocked = some (.stopOf k) then
      { s.slot g j with blocked := none, pc := (s.slot g j).pc + 4 } else s.slot g j := by
  unfold State.stopEnd
  rw [slot_releaseStops]
  simp [h]

theorem stopEnd_mem : (s.stopEnd g k pc b).mem = s.mem := by
  unfold State.stopEnd
  rw [(releaseStops_keeps ..).1]
  simp

theorem stopEnd_ops : (s.stopEnd g k pc b).ops =
    s.ops.map (fun o => if o.g = g ∧ o.k = k then { o with live := false } else o) := by
  unfold State.stopEnd
  rw [(releaseStops_keeps ..).2.1]
  simp [vacate_ops]

theorem stopEnd_pstop : ((s.stopEnd g k pc b).core g).pstop =
    if g = vrNum then (s.core g).pstop else pstopWord pc k b (s.slot g k).inHandler := by
  unfold State.stopEnd
  rw [(releaseStops_keeps ..).2.2]
  simp

theorem leaveGang_cases : s.leaveGang g k = s ∨ ∃ gs, s.leaveGang g k = { s with gangs := gs } := by
  unfold State.leaveGang
  split
  · exact .inr ⟨_, rfl⟩
  · exact .inl rfl

@[simp] theorem leaveGang_mem : (s.leaveGang g k).mem = s.mem := by
  rcases leaveGang_cases s g k with h | ⟨gs, h⟩ <;> rw [h]

@[simp] theorem slot_leaveGang (h j : Nat) : (s.leaveGang g k).slot h j = s.slot h j := by
  rcases leaveGang_cases s g k with e | ⟨gs, e⟩ <;> rw [e]
  rfl

theorem killDone_mem : (s.killDone g k b).mem = s.mem := by
  unfold State.killDone State.depart
  rw [(releaseStops_keeps ..).1]
  cases b <;> simp

theorem killDone_slot : (s.killDone g k b).slot g k = (s.slot g k).kept := by
  unfold State.killDone State.depart
  rw [slot_releaseStops]
  cases b <;> simp [Slot.kept]

theorem killDone_slot_other {j : Nat} (h : j ≠ k) (hb : (s.slot g j).blocked = none) :
    (s.killDone g k b).slot g j = s.slot g j := by
  unfold State.killDone State.depart
  rw [slot_releaseStops]
  cases b <;> simp [h, hb]

end

end Sys2Proof.Organisation
end

