-- ==== Sys2Proof/Proofs/EndsOfTasks.lean ====
section
/-! SUPPORT. Sys2Proof/Proofs/EndsOfTasks.lean: the stop of a slot, the instructions that end tasks, the
operations of a vacated slot, and the end of a kill (O38). -/

namespace Sys2Proof.Organisation
open Sys2Proof.Machine

/-! ### A stop abandons the blocked instruction (R173, R287) -/

/-- The operation that a blocked slot waits for, which a stop takes away. -/
def Abandons (b : Option Block) (id : Nat) : Prop := b = some (.answer id) ∨ b = some (.walk id)

theorem unsync_keeps (s : State) (g k : Nat) : (s.unsync g k).mem = s.mem ∧ (s.unsync g k).ops = s.ops ∧
    (s.unsync g k).core g = (s.setSlot g k { s.slot g k with syncs := (s.slot g k).syncs - 1 }).core g := by
  unfold State.unsync
  simp only
  split <;> exact ⟨rfl, rfl, rfl⟩

/-- What is left of the slot's core: at most the count of syncs has changed. -/
theorem abandon_keeps (s : State) (g j : Nat) : (s.abandon g j).mem = s.mem ∧
    ((s.abandon g j).core g = s.core g ∨ ∃ n, (s.abandon g j).core g = (s.setSlot g j { s.slot g j with syncs := n }).core g) := by
  unfold State.abandon
  split
  · exact ⟨rfl, .inl rfl⟩
  · exact ⟨rfl, .inl rfl⟩
  · exact ⟨(unsync_keeps s g j).1, .inr ⟨_, (unsync_keeps s g j).2.2⟩⟩
  · exact ⟨rfl, .inl rfl⟩

/-- What stays in flight: every operation but the one that the slot waits for. -/
theorem mem_abandon_ops (s : State) (g j : Nat) (o : Op) :
    o ∈ (s.abandon g j).ops ↔ o ∈ s.ops ∧ ¬ Abandons (s.slot g j).blocked o.id := by
  unfold State.abandon Abandons
  split
  case h_1 id h => rw [h]; simp [State.dropOp]; grind
  case h_2 id h => rw [h]; simp [State.dropOp]; grind
  case h_3 h => rw [h, (unsync_keeps s g j).2.1]; simp
  case h_4 h1 h2 h3 => simp only [iff_self_and]; rintro - (h | h); exacts [h1 _ h, h2 _ h]

theorem slot_of_core {s t : State} {g : Nat} (h : t.core g = s.core g) (k : Nat) : t.slot g k = s.slot g k := by
  unfold State.slot; rw [h]

theorem slot_abandon_other (s : State) {g j k : Nat} (h : k ≠ j) : (s.abandon g j).slot g k = s.slot g k := by
  rcases (abandon_keeps s g j).2 with e | ⟨n, e⟩
  · exact slot_of_core e k
  · rw [slot_of_core e, slot_setSlot, if_neg (fun h' => h h'.2)]

theorem slot_abandon_self (s : State) (g j : Nat) : ∃ n, (s.abandon g j).slot g j = { s.slot g j with syncs := n } := by
  rcases (abandon_keeps s g j).2 with e | ⟨n, e⟩
  · exact ⟨(s.slot g j).syncs, slot_of_core e j⟩
  · exact ⟨n, by rw [slot_of_core e, slot_setSlot, if_pos ⟨rfl, rfl⟩]⟩

/-- R287: which operations of a slot its stop waits for. -/
theorem busySlot_engines_iff (s : State) (g j : Nat) : s.busySlot g j true = true ↔ ∃ o ∈ s.ops, o.live = true ∧ o.g = g ∧
    o.k = j ∧ ((∃ c n, o.kind = .copy c n) ∨ ∃ f d x y z dst, o.kind = .eng f d x y z dst ∧ f ≠ .prd ∧ f ≠ .pstat) := by
  unfold State.busySlot
  rw [List.any_eq_true]
  refine exists_congr fun o => and_congr_right fun _ => ?_
  simp only [Bool.and_eq_true, decide_eq_true_eq, and_assoc]
  refine and_congr_right fun _ => and_congr_right fun _ => and_congr_right fun _ => ?_
  cases o.kind <;> simp

/-! ### The stop of another slot (R287, R346) -/

/-- The state in which a slot's instruction is abandoned and its stop waits. -/
def stopping (s : State) (g j : Nat) : State :=
  let u := s.abandon g j
  u.setSlot g j { u.slot g j with blocked := some (.stopping (s.slot g j).blocked.isSome) }

/-- The stop of a slot that no kill and no stop has reached: it waits for the slot's engine operations, or ends at once. -/
def freshStop (s : State) (g j : Nat) : State :=
  if (s.abandon g j).busySlot g j true = true then stopping s g j
  else (stopping s g j).stopEnd g j (s.slot g j).pc (s.slot g j).blocked.isSome

theorem freshStop_busy {s : State} {g j : Nat} (h : (s.abandon g j).busySlot g j true = true) :
    freshStop s g j = stopping s g j := if_pos h

theorem freshStop_idle {s : State} {g j : Nat} (h : (s.abandon g j).busySlot g j true = false) :
    freshStop s g j = (stopping s g j).stopEnd g j (s.slot g j).pc (s.slot g j).blocked.isSome := if_neg (by simp [h])

theorem stopSlot_fresh {s : State} {g j : Nat} (h1 : ∀ d e, (s.slot g j).blocked ≠ some (.dying d e))
    (h2 : ∀ id d e, (s.slot g j).blocked ≠ some (.killNode id d e)) (h3 : ∀ d, (s.slot g j).blocked ≠ some (.stopping d)) :
    s.stopSlot g j = freshStop s g j := by
  unfold State.stopSlot
  extract_lets x
  split
  case h_1 h => exact absurd h (h1 _ _)
  case h_2 h => exact absurd h (h2 _ _ _)
  case h_3 h => exact absurd h (h3 _)
  case h_4 => rfl

theorem stopping_slot_self (s : State) (g j : Nat) : ∃ n, (stopping s g j).slot g j =
    { s.slot g j with syncs := n, blocked := some (.stopping (s.slot g j).blocked.isSome) } := by
  obtain ⟨n, hn⟩ := slot_abandon_self s g j
  exact ⟨n, by unfold stopping; simp only; rw [slot_setSlot, if_pos ⟨rfl, rfl⟩, hn]⟩

theorem stopping_slot_other (s : State) {g j k : Nat} (h : k ≠ j) : (stopping s g j).slot g k = s.slot g k := by
  unfold stopping
  simp only
  rw [slot_setSlot, if_neg (fun e => h e.2), slot_abandon_other s h]

theorem stopping_ops (s : State) (g j : Nat) : (stopping s g j).ops = (s.abandon g j).ops := rfl

theorem stopping_mem (s : State) (g j : Nat) : (stopping s g j).mem = s.mem := (abandon_keeps s g j).1

/-- No operation in flight has a number that none of the list has. -/
theorem op?_eq_none_of {s : State} {id : Nat} (h : ∀ o ∈ s.ops, o.id ≠ id) : s.op? id = none := by
  unfold State.op?
  rw [List.find?_eq_none]
  simpa using h

/-- A stop leaves every operation, those of the slot perhaps without its thread. -/
theorem freshStop_ops (s : State) (g j : Nat) : (freshStop s g j).ops =
    if (s.abandon g j).busySlot g j true = true then (s.abandon g j).ops
    else (s.abandon g j).ops.map (fun o => if o.g = g ∧ o.k = j then { o with live := false } else o) := by
  unfold freshStop
  split
  · exact stopping_ops s g j
  · rw [stopEnd_ops, stopping_ops]

/-- The number of an operation does not change when its thread goes. -/
theorem id_of_released (g j : Nat) (o : Op) : (if o.g = g ∧ o.k = j then { o with live := false } else o).id = o.id := by
  split <;> rfl

/-- The operation that the stopped slot waited for is in flight no more. -/
theorem freshStop_op?_abandoned {s : State} {g j id : Nat} (h : Abandons (s.slot g j).blocked id) :
    (freshStop s g j).op? id = none := by
  have gone : ∀ o ∈ (s.abandon g j).ops, o.id ≠ id := fun o ho e => ((mem_abandon_ops s g j o).1 ho).2 (e ▸ h)
  refine op?_eq_none_of ?_
  rw [freshStop_ops]
  split
  · exact gone
  · simp only [List.mem_map, forall_exists_index, and_imp, forall_apply_eq_imp_iff₂, id_of_released]
    exact gone

/-! ### The instructions that end tasks -/

theorem waitFor_of_clear {s : State} {l st c t : Nat} {b : Block} (h : Clear s l st c t) : waitFor l st c t b s = .ok ((), s) := by
  obtain ⟨hw, hp⟩ := h
  unfold waitFor
  rw [hw]
  by_cases hh : s.me.inHandler = true
  · rw [if_neg (by decide), if_pos hh]
  · have hf : s.me.pend.find? (fun p => covers0 l st c t p.cls) = none := by
      rw [List.find?_eq_none]
      intro p hp'
      simp [hp.resolve_left hh p hp']
    rw [if_neg (by decide), if_neg hh, hf]

/-- R287, R288: halt and a pstop of the own slot. -/
theorem haltSlot_of_clear {s : State} {g k : Nat} (hc : s.cur = .slot g k) (h : Clear s 0 0 0 0) :
    haltSlot s = .ok (.stay, s.stopEnd g k (s.me.pc + 4) false) := by
  unfold haltSlot
  rw [M.bind_ok (waitFor_of_clear h), M.bind_ok (M.get_apply _), M.bind_ok (M.set_apply _ _), gk_of_slot hc]
  rfl

theorem halt_of_clear {s : State} {g k : Nat} (hc : s.cur = .slot g k) (h : Clear s 0 0 0 0) (hr : Ready .halt s) :
    exec .halt s = .next (State.stays (s.stopEnd g k (s.me.pc + 4) false)) := by
  have ho : haltOp s = haltSlot s := by
    rw [haltOp, M.bind_ok (M.get_apply _)]
    simp only [hc]
  show issue _ haltOp s = _
  rw [issue_of_ready hr, ho, haltSlot_of_clear hc h, finish_stay]

theorem softCheck_of_bad {s : State} {g k pa n a : Nat} {va : Word} (hc : s.cur = .slot g k) (h : s.badWord pa n = some a) :
    softCheck pa n va s = .error (.trap (softCause pa).1 (va + BitVec.ofNat 64 (a - pa)) (softCause pa).2) := by
  unfold softCheck; rw [seen_of_slot hc, h]

theorem ne_vrNum {g : Nat} (h : g < 4096) : g ≠ vrNum := by unfold vrNum; omega

/-- R288: an exit on the Vrelell core acts as halt. -/
theorem exit_on_vrelell {s : State} {k : Nat} (hc : s.cur = .slot vrNum k) (h : Clear s 0 0 0 0) (hr : Ready .exit s) :
    exec .exit s = .next (State.stays (s.stopEnd vrNum k (s.me.pc + 4) false)) := by
  have ho : exitOp .exit s = haltSlot s := by
    rw [exitOp, M.bind_ok (M.get_apply _)]
    simp only [gk_of_slot hc, if_true]
  show issue _ (exitOp .exit) s = _
  rw [issue_of_ready hr, ho, haltSlot_of_clear hc h, finish_stay]

/-- R278: what an exit does once its counters are at zero. -/
def exitTail (g k : Nat) (s : State) : M Ctl :=
  if s.me.task = 0 then do
    if s.dropsHeld g k then halt' (.block .drops)
    set (((s.dropAll g k).trace g 2 k s.me.pc.toNat 0).depart g k)
    return .stay
  else do
    let t ← access s.me.task 32 32 .atomic .node
    softCheck t.pa 8 s.me.task
    softCheck (t.pa + 24) 8 (s.me.task + 24)
    if s.dropsHeld g k then halt' (.block .drops)
    modify (fun s => s.dropAll g k)
    let id ← emitFree .exit (.node t.pa s.me.task (.dec false) true)
    awaitAnswer id

theorem exit_of_clear {s : State} {g k : Nat} (hc : s.cur = .slot g k) (hg : g ≠ vrNum) (hh : s.me.inHandler = false)
    (h : Clear s 0 0 0 0) (hr : Ready .exit s) : exec .exit s = .next (s.finish (encode .exit) (exitTail g k s s)) := by
  have ho : exitOp .exit s = exitTail g k s s := by
    rw [exitOp, M.bind_ok (M.get_apply _)]
    simp only [gk_of_slot hc, hg, hh, if_false, Bool.false_eq_true]
    rw [M.bind_ok (waitFor_of_clear h)]
    rfl
  show issue _ (exitOp .exit) s = _
  rw [issue_of_ready hr, ho]

section
variable {s : State} {g k : Nat} (hc : s.cur = .slot g k) (hg : g ≠ vrNum) (hh : s.me.inHandler = false)
  (h : Clear s 0 0 0 0) (hr : Ready .exit s)
include hc hg hh h hr

/-- R278: a task without a node departs after its drops. -/
theorem exit_departs (ht : s.me.task = 0) (hd : s.dropsHeld g k = false) : exec .exit s =
    .next (State.stays (((s.dropAll g k).trace g 2 k s.me.pc.toNat 0).depart g k)) := by
  rw [exit_of_clear hc hg hh h hr, exitTail, if_pos ht, hd]
  rfl

/-- R169, R285: its drops may have to wait. -/
theorem exit_waits (ht : s.me.task = 0) (hd : s.dropsHeld g k = true) : exec .exit s = .next (s.blockedOn g k .drops) := by
  have he : exitTail g k s s = .error (.block .drops) := by rw [exitTail, if_pos ht, hd]; rfl
  rw [exit_of_clear hc hg hh h hr, he, finish_block hc]

variable {t : Target} (ht : s.me.task ≠ 0) (ha : access s.me.task 32 32 .atomic .node false s = .ok (t, s))
include ht ha

/-- R61: an uncorrectable error in COUNT of its node is found before the drops (log 81). -/
theorem exit_softNode {a : Nat} (hb : s.badWord t.pa 8 = some a) : exec .exit s = .next (s.trapped g k .exit
    (softCause t.pa).1 (s.me.task + BitVec.ofNat 64 (a - t.pa)) (softCause t.pa).2) := by
  have he : exitTail g k s s = .error (.trap (softCause t.pa).1 (s.me.task + BitVec.ofNat 64 (a - t.pa)) (softCause t.pa).2) := by
    rw [exitTail, if_neg ht, M.bind_ok ha]
    exact M.bind_error (softCheck_of_bad hc hb)
  rw [exit_of_clear hc hg hh h hr, he, finish_trap hc]

variable (hb : s.badWord t.pa 8 = none) (hb' : s.badWord (t.pa + 24) 8 = none)
include hb hb'

/-- R278: the decrement of its node goes out after the drops, and the exit waits for it. -/
theorem exit_decrements (hd : s.dropsHeld g k = false) : let u := s.dropAll g k
    exec .exit s = .next (State.stays
      ((u.acceptFree .exit (.node t.pa s.me.task (.dec false) true)).awaiting u.nextId)) := by
  have he : exitTail g k s s = .ok (.stay, ((s.dropAll g k).acceptFree .exit
      (.node t.pa s.me.task (.dec false) true)).awaiting (s.dropAll g k).nextId) := by
    rw [exitTail, if_neg ht, M.bind_ok ha, M.bind_ok (softCheck_of_good hc hb), M.bind_ok (softCheck_of_good hc hb'), hd]
    rfl
  rw [exit_of_clear hc hg hh h hr, he, finish_stay]

theorem exit_with_node_waits (hd : s.dropsHeld g k = true) : exec .exit s = .next (s.blockedOn g k .drops) := by
  have he : exitTail g k s s = .error (.block .drops) := by
    rw [exitTail, if_neg ht, M.bind_ok ha, M.bind_ok (softCheck_of_good hc hb), M.bind_ok (softCheck_of_good hc hb'), hd]
    rfl
  rw [exit_of_clear hc hg hh h hr, he, finish_block hc]

end

/-! ### Counter nodes and pstop (R279, R287) -/

/-- R279: a cnt instruction sends its operation and waits for it. -/
theorem cntOp_sends {s : State} {i : Instr} {a b : Name} {op : Word → NodeOp} {t : Target} (ha : a.isPort = false)
    (hb : b.isPort = false) (hta : (s.val a).t = false) (htb : (s.val b).t = false)
    (hx : access (s.val a).v 32 32 .atomic .node false s = .ok (t, s)) : cntOp i a b op s =
      .ok (.stay, (s.acceptFree i (.node t.pa (s.val a).v (op (s.val b).v) false)).awaiting s.nextId) := by
  rw [cntOp, M.bind_ok (ctlOperand_of_clear (readName_of_notPort ha) hta),
    M.bind_ok (ctlOperand_of_clear (readName_of_notPort hb) htb), M.bind_ok hx]
  rfl

/-- Which slot numbers pstop refuses. -/
theorem pstop_number_bad_iff (v : Word) : v.extractLsb' 6 58 ≠ 0 ↔ 64 ≤ v.toNat := by
  have := v.isLt
  rw [Ne, ← BitVec.toNat_inj, BitVec.extractLsb'_toNat, Nat.shiftRight_eq_div_pow, Nat.mod_eq_of_lt (by omega)]
  show ¬ v.toNat / 2 ^ 6 = 0 ↔ _
  omega

/-- What pstop does to the slot that it names. -/
def stopNamed (s : State) (g k j : Nat) : M Ctl :=
  if j = k then haltSlot
  else if (s.slot g j).bound = false then return .next
  else
    let t := s.stopSlot g j
    if (t.slot g j).bound = true then do
      set (t.setMe { t.me with blocked := some (.stopOf j) })
      return .stay
    else do
      set t
      return .next

section
variable {s : State} {g k : Nat} (hc : s.cur = .slot g k) {a : Name} (ha : a.isPort = false) (hr : Ready (.pstop a) s)
  (ht : (s.val a).t = false)
include hc ha hr ht

theorem pstop_bad_number (h : 64 ≤ (s.val a).v.toNat) :
    exec (.pstop a) s = .next (s.trapped g k (.pstop a) 0x01 (s.val a).v) := by
  have he : pstopOp a s = .error (.trap cILL (s.val a).v 0) := by
    rw [pstopOp, M.bind_ok (ctlOperand_of_clear (readName_of_notPort ha) ht), if_pos ((pstop_number_bad_iff _).2 h)]
    rfl
  show issue _ (pstopOp a) s = _
  rw [issue_of_ready hr, he, finish_trap hc]
  rfl

theorem pstop_of_number (h : (s.val a).v.toNat < 64) : exec (.pstop a) s =
    .next (s.finish (encode (.pstop a)) (stopNamed s g k (s.val a).v.toNat s)) := by
  have hn : ¬ (s.val a).v.extractLsb' 6 58 ≠ 0 := fun e => absurd ((pstop_number_bad_iff _).1 e) (by omega)
  show issue _ (pstopOp a) s = _
  rw [issue_of_ready hr, pstopOp, M.bind_ok (ctlOperand_of_clear (readName_of_notPort ha) ht), if_neg hn]
  show Host.Outcome.next (s.finish _ ((if _ = s.gk.2 then _ else _ : M Ctl) s)) = _
  rw [gk_of_slot hc, stopNamed]
  cases (s.slot g (s.val a).v.toNat).bound <;> rfl

end

theorem pstop_self {s : State} {g k : Nat} (hc : s.cur = .slot g k) (h : Clear s 0 0 0 0) (w : BitVec 32) :
    s.finish w (stopNamed s g k k s) = State.stays (s.stopEnd g k (s.me.pc + 4) false) := by
  rw [stopNamed, if_pos rfl, haltSlot_of_clear hc h, finish_stay]

section
variable {s : State} {g k j : Nat} (hne : j ≠ k) (w : BitVec 32)
include hne

theorem pstop_vacant (hb : (s.slot g j).bound = false) : s.finish w (stopNamed s g k j s) = s.done s := by
  rw [stopNamed, if_neg hne, if_pos hb, M.pure_apply, finish_next]

variable (hb : (s.slot g j).bound = true)
include hb

theorem pstop_ends (hv : ((s.stopSlot g j).slot g j).bound = false) :
    s.finish w (stopNamed s g k j s) = s.done (s.stopSlot g j) := by
  rw [stopNamed, if_neg hne, if_neg (by simp [hb]), if_neg (by simp [hv]), M.bind_ok (M.set_apply _ _), M.pure_apply,
    finish_next]

theorem pstop_waits (hv : ((s.stopSlot g j).slot g j).bound = true) : let t := s.stopSlot g j
    s.finish w (stopNamed s g k j s) = State.stays (t.setMe { t.me with blocked := some (.stopOf j) }) := by
  rw [stopNamed, if_neg hne, if_neg (by simp [hb]), if_pos hv, M.bind_ok (M.set_apply _ _), M.pure_apply, finish_stay]

end

/-! ### The record of a stop (R346) -/

theorem pstopWord_eq (pc : Word) (k : Nat) (b h : Bool) : pstopWord pc k b h = BitVec.ofNat 64 (pc.toNat % 2 ^ 49 +
    k % 64 * 2 ^ 49 + (if b then 2 ^ 55 else 0) + (if h then 2 ^ 56 else 0) + 2 ^ 63) := by
  unfold pstopWord
  cases b <;> cases h <;> simp

/-- What halt records: the address after it, and a slot that was not blocked. -/
theorem pstopWord_of_halt (pc : Word) (k : Nat) (h : Bool) : (pstopWord (pc + 4) k false h).toNat =
    (pc.toNat + 4) % 2 ^ 49 + k % 64 * 2 ^ 49 + (if h then 2 ^ 56 else 0) + 2 ^ 63 := by
  have hpc : (pc + 4).toNat % 2 ^ 49 = (pc.toNat + 4) % 2 ^ 49 := by
    rw [BitVec.toNat_add, show (4 : Word).toNat = 4 from rfl]
    omega
  have hh : h.toNat * 2 ^ 56 = if h then 2 ^ 56 else 0 := by cases h <;> rfl
  have hb := h.toNat_lt
  rw [← hh, ← hpc, pstopWord, Bool.toNat_false, Nat.zero_mul, Nat.add_zero, BitVec.toNat_ofNat]
  exact Nat.mod_eq_of_lt (by omega)

/-- R287, R346: what a stop that need not wait leaves of its core and of memory. -/
theorem freshStop_ends {s : State} {g j k : Nat} (hg : g < 4096) (h : (s.abandon g j).busySlot g j true = false) :
    let t := freshStop s g j
    let b := (s.slot g j).blocked
    (t.slot g j).bound = false ∧ t.slot g j = (s.slot g j).kept ∧
      (t.core g).pstop = BitVec.ofNat 64 ((s.slot g j).pc.toNat % 2 ^ 49 + j % 64 * 2 ^ 49 +
        (if b.isSome then 2 ^ 55 else 0) + (if (s.slot g j).inHandler then 2 ^ 56 else 0) + 2 ^ 63) ∧
      (k ≠ j → (s.slot g k).blocked ≠ some (.stopOf j) → t.slot g k = s.slot g k) ∧
      (k ≠ j → (s.slot g k).blocked = some (.stopOf j) →
        t.slot g k = { s.slot g k with blocked := none, pc := (s.slot g k).pc + 4 }) ∧ t.mem = s.mem := by
  intro t b
  obtain ⟨n, hn⟩ := stopping_slot_self s g j
  have ht : t = (stopping s g j).stopEnd g j (s.slot g j).pc b.isSome := freshStop_idle h
  have hself : t.slot g j = (s.slot g j).kept := by rw [ht, stopEnd_slot, hn]; rfl
  rw [hself, ht]
  refine ⟨rfl, rfl, ?_, fun hk hb => ?_, fun hk hb => ?_, ?_⟩
  · rw [stopEnd_pstop, if_neg (ne_vrNum hg), pstopWord_eq, hn]
  · rw [stopEnd_slot_other _ _ _ _ _ hk, stopping_slot_other s hk, if_neg hb]
  · rw [stopEnd_slot_other _ _ _ _ _ hk, stopping_slot_other s hk, if_pos hb]
  · rw [stopEnd_mem, stopping_mem]

/-! ### Operations of a vacated slot (R287) -/

theorem endOp_of_released {s : State} {o : Op} (h : o.live = false) : s.endOp o = s.dropOp o.id := by
  unfold State.endOp
  rw [h]
  cases o.cls <;> rfl

theorem failOp_of_released {s : State} {o : Op} (h : o.live = false) (code sub : Nat) (val : Word) :
    s.failOp o code val sub = s.dropOp o.id := by
  unfold State.failOp
  rw [endOp_of_released h, h]
  rfl

theorem arrive_of_released {s : State} {o : Op} (h : o.live = false) (dst : Option Nat) (xs : List Tagged) :
    s.arrive o dst xs = s := by
  unfold State.arrive
  rw [h]
  cases dst <;> rfl

/-! ### Kills (R377) -/

/-- R377: the kill of a task with a node that can be reached sends the decrement and waits for it. -/
theorem killEnd_sends {s : State} {g k : Nat} {stopped byExit : Bool} {a : Target} (ht : (s.slot g k).task ≠ 0)
    (hal : (s.slot g k).task.toNat % 32 = 0) (ha : (s.dropAll g k).engAccess
      { (s.dropAll g k).ctx g k with level := (s.slot g k).level } (s.slot g k).task 32 .atomic .node = .ok a) :
    let u := s.dropAll g k
    s.killEnd g k stopped byExit = (u.addFree g k (.node a.pa (s.slot g k).task (.dec true) false)).setSlot g k
      { u.slot g k with blocked := some (.killNode u.nextId stopped byExit) } := by
  unfold State.killEnd
  simp only
  have hn : ¬ ((decide ((s.slot g k).task = 0) || decide ((s.slot g k).task.toNat % 32 ≠ 0)) = true) := by
    simp only [ht, hal]; decide
  rw [if_neg hn, ha]

/-- One slot's part of `State.reap`. -/
def reapOne (g : Nat) (s : State) (k : Nat) : State :=
  match (s.slot g k).blocked with
  | some (.dying stopped e) =>
    if s.frozenSlot g k || s.busySlot g k false || s.dropsHeld g k then s else s.killEnd g k stopped e
  | some (.killNode id stopped _) => if s.frozenSlot g k || (s.op? id).isSome then s else s.killDone g k stopped
  | some (.stopping was) => if s.busySlot g k true then s else s.stopEnd g k (s.slot g k).pc was
  | _ => s

theorem reap_eq (s : State) (g : Nat) : s.reap g = ((s.core g).slots.map (·.1)).foldl (reapOne g) s := rfl

theorem reapOne_of_unblocked {g : Nat} {s : State} {k : Nat} (h : (s.slot g k).blocked = none) : reapOne g s k = s := by
  unfold reapOne; rw [h]

theorem reapOne_of_killNode {g : Nat} {s : State} {k id : Nat} {stopped e : Bool}
    (h : (s.slot g k).blocked = some (.killNode id stopped e)) : reapOne g s k =
      if s.frozenSlot g k || (s.op? id).isSome then s else s.killDone g k stopped := by
  unfold reapOne; rw [h]

/-- Slots that are not blocked are passed over. -/
theorem foldl_reapOne_of_unblocked {g : Nat} {s : State} {l : List Nat} (h : ∀ j ∈ l, (s.slot g j).blocked = none) :
    l.foldl (reapOne g) s = s := by
  induction l with
  | nil => rfl
  | cons j l ih =>
    rw [List.foldl_cons, reapOne_of_unblocked (h j List.mem_cons_self)]
    exact ih fun i hi => h i (List.mem_cons_of_mem _ hi)

/-- One slot among unblocked ones, listed, has its part, and what that leaves unblocked is passed over. -/
theorem foldl_reapOne {g k : Nat} {s t : State} {l : List Nat} (hk : k ∈ l) (ht : reapOne g s k = t)
    (hs : ∀ j, j ≠ k → (s.slot g j).blocked = none) (hdone : ∀ j, reapOne g t j = t) : l.foldl (reapOne g) s = t := by
  induction l with
  | nil => exact absurd hk List.not_mem_nil
  | cons j l ih =>
    rw [List.foldl_cons]
    by_cases hj : j = k
    · rw [hj, ht]
      exact List.foldl_fixed' hdone l
    · rw [reapOne_of_unblocked (hs j hj)]
      exact ih ((List.mem_cons.1 hk).resolve_left (Ne.symm hj))

section
variable {s : State} {g k id : Nat} {stopped e : Bool} (hb : (s.slot g k).blocked = some (.killNode id stopped e))
  (hf : (s.core g).frozen = none ∨ (s.core g).frozen = some k) (hs : ∀ j, j ≠ k → (s.slot g j).blocked = none)
include hb hs

/-- R377: a kill waits for the operation on its node. -/
theorem reap_kill_waits (hi : (s.op? id).isSome = true) : s.reap g = s := by
  have hk : reapOne g s k = s := by rw [reapOne_of_killNode hb, if_pos (by simp [hi])]
  refine foldl_reapOne (mem_slots_of_blocked hb) hk hs fun j => ?_
  by_cases hj : j = k
  · rw [hj, hk]
  · exact reapOne_of_unblocked (hs j hj)

include hf

/-- R377, step 4: and ends once it has been applied. -/
theorem reap_kill_ends (hi : (s.op? id).isSome = false) : s.reap g = s.killDone g k stopped := by
  have hfz : s.frozenSlot g k = false := by
    unfold State.frozenSlot
    rcases hf with h | h <;> simp [h]
  refine foldl_reapOne (mem_slots_of_blocked hb) (by rw [reapOne_of_killNode hb, if_neg (by simp [hi, hfz])]) hs fun j => ?_
  refine reapOne_of_unblocked ?_
  by_cases hj : j = k
  · rw [hj, killDone_slot]; rfl
  · rw [killDone_slot_other s g k stopped hj (hs j hj), hs j hj]

end

/-- Settles O38: a stop and a kill end in the vacancy of their slot, which leaves the other slots and memory, and the instructions
that end tasks come to one of them. -/
theorem endsOfTasks : Obligations.EndsOfTasks := by
  unfold Obligations.EndsOfTasks
  refine ⟨fun s g k hc hg => ?_, fun s g k j hg hb => ?_, fun s o dst xs code sub val hl => ?_, fun s k hc h => ?_,
    fun s g k stopped byExit a => ?_, fun s g k id stopped e hb hf hs => ?_⟩
  · have hv := ne_vrNum hg
    refine ⟨fun hr hh h => ⟨exit_departs hc hv hh h hr, exit_waits hc hv hh h hr, fun t ht ha =>
        ⟨fun a hb => exit_softNode hc hv hh h hr ht ha hb, fun hb hb' => ⟨exit_decrements hc hv hh h hr ht ha hb hb',
          exit_with_node_waits hc hv hh h hr ht ha hb hb'⟩⟩⟩,
      fun a b t ha hb hta htb hx => ⟨fun hr => ?_, fun hr => ?_⟩, fun hr h => ⟨halt_of_clear hc h hr, stopEnd_slot .., ?_⟩,
      fun a ha hr ht => ⟨pstop_bad_number hc ha hr ht, fun hj hjk h => ?_, fun hj hjk hb => ?_,
        fun hj hjk hb => ⟨fun hv => ?_, fun hv => ?_⟩⟩⟩
    · show issue _ _ s = _
      rw [issue_of_ready hr, cntOp_sends ha hb hta htb hx, finish_stay]
    · show issue _ _ s = _
      rw [issue_of_ready hr, cntOp_sends ha hb hta htb hx, finish_stay]
    · rw [stopEnd_pstop, if_neg hv, pstopWord_of_halt, me_of_slot hc]
    · rw [pstop_of_number hc ha hr ht hj, hjk, pstop_self hc h]
    · rw [pstop_of_number hc ha hr ht hj, pstop_vacant hjk _ hb]
    · rw [pstop_of_number hc ha hr ht hj, pstop_ends hjk _ hb hv]
    · rw [pstop_of_number hc ha hr ht hj, pstop_waits hjk _ hb hv]
  · refine ⟨fun d e h => ?_, fun id d e h => ?_, fun d h => ?_, fun h1 h2 h3 => ?_⟩
    · simp only [State.stopSlot, h]
    · simp only [State.stopSlot, h]
    · simp only [State.stopSlot, h]
    · rw [stopSlot_fresh h1 h2 h3]
      refine ⟨fun id => freshStop_op?_abandoned, ?_, fun o ho hng => ⟨fun hbusy => ?_, fun hidle => ?_⟩, freshStop_busy,
        fun hidle => ?_⟩
      · rw [busySlot_engines_iff]
        simp only [mem_abandon_ops]
        exact exists_congr fun o => ⟨fun ⟨⟨ho, hng⟩, hl, hog, hok, hk⟩ => ⟨ho, hl, hog, hok, hng, hk⟩,
          fun ⟨ho, hl, hog, hok, hng, hk⟩ => ⟨⟨ho, hng⟩, hl, hog, hok, hk⟩⟩
      · rw [freshStop_ops, if_pos hbusy]
        exact (mem_abandon_ops ..).2 ⟨ho, hng⟩
      · rw [freshStop_ops, if_neg (by simp [hidle])]
        exact List.mem_map_of_mem ((mem_abandon_ops ..).2 ⟨ho, hng⟩)
      · exact freshStop_ends hg hidle
  · exact ⟨arrive_of_released hl dst xs, endOp_of_released hl, failOp_of_released hl code sub val⟩
  · intro i hi hr
    refine ⟨?_, stopEnd_slot .., ?_, stopEnd_mem ..⟩
    · rcases List.mem_pair.1 hi with rfl | rfl
      · exact halt_of_clear hc h hr
      · exact exit_on_vrelell hc h hr
    · rw [stopEnd_pstop, if_pos rfl]
  · intro x u t ht hal ha
    have e : t = _ := killEnd_sends ht hal ha
    rw [e, slot_setSlot, if_pos ⟨rfl, rfl⟩]
    exact ⟨rfl, rfl, _, rfl, rfl, rfl⟩
  · exact ⟨reap_kill_waits hb hs, fun hi => ⟨reap_kill_ends hb hf hs hi, killDone_slot .., killDone_mem ..⟩⟩

end Sys2Proof.Organisation
end

