-- ==== Sys2Proof/Proofs/CellWrites.lean ====
section
/-! SUPPORT. Sys2Proof/Proofs/CellWrites.lean: what a write of a name, a port or a predicate leaves, and the cell that the
index of rdx and wrx reaches (O14). -/

namespace Sys2Proof.Threads
open Sys2Proof.Machine Sys2Proof.Organisation

/-! ### Writes of names (R30, R178) -/

/-- R178: a name from 8 up is a cell of the window. -/
theorem writeName_cell {s : State} {g k : Nat} (hc : s.cur = .slot g k) {n : Name} (h : 8 ≤ n.toNat) (x : Tagged) :
    s.writeName n x = s.setCell g (s.physCell g k n.toNat) x := by
  have h0 : n ≠ 0 := fun e => by simp [e] at h
  have hp : ¬ n.isPort = true := fun e => by have := (isPort_iff n).1 e; omega
  unfold State.writeName
  rw [hc]
  simp only
  rw [if_neg h0, if_neg hp]

theorem writeName_zero {s : State} {g k : Nat} (hc : s.cur = .slot g k) (x : Tagged) : s.writeName 0 x = s := by
  unfold State.writeName
  rw [hc]
  exact if_pos rfl

theorem ne_zero_of_isPort {n : Name} (h : n.isPort = true) : n ≠ 0 := fun e => by
  rw [e] at h; exact absurd h (by decide)

/-- R179: the word of a writer that the vacancy of its target released is discarded. -/
theorem writeName_discarded {s : State} {g k : Nat} (hc : s.cur = .slot g k) {n : Name} (hp : n.isPort = true)
    (hd : (s.slot g k).discard = true) (x : Tagged) :
    s.writeName n x = s.setSlot g k { s.slot g k with discard := false } := by
  unfold State.writeName
  rw [hc]
  simp only
  rw [if_neg (ne_zero_of_isPort hp), if_pos hp, if_pos hd]

theorem writeName_port {s : State} {g k h : Nat} (hc : s.cur = .slot g k) {n : Name} (hp : n.isPort = true)
    (hd : (s.slot g k).discard = false) (ht : s.portTo g n.toNat = some h) (x : Tagged) :
    s.writeName n x = s.addOp g k none 0 0 (.portWord h k (oppositeDir n.toNat) x) := by
  unfold State.writeName
  rw [hc]
  simp only
  rw [if_neg (ne_zero_of_isPort hp), if_pos hp, if_neg (by simp [hd]), ht]

/-- R30: the write of a cell changes that cell of its core, and nothing else. -/
theorem keepsRest_setCell (s : State) (g k c : Nat) (x : Tagged) : KeepsRest g k [c] s (s.setCell g c x) where
  mem := rfl
  tags := rfl
  bad := rfl
  masons := rfl
  parts := rfl
  gangs := rfl
  saves := rfl
  seals := rfl
  vr := rfl
  irqs := rfl
  cell h d hn := by rw [cell_setCell, if_neg (by simpa using hn)]
  slot h j _ := slot_setCell ..
  core h := by
    rw [State.setCell, core_setCore]
    split
    · rename_i e; rw [e]
    · rfl
  own := by rw [slot_setCell]

/-- R178: an operation that enters flight changes nothing else. -/
theorem keepsRest_addOp (s : State) (g k : Nat) (c : Option CClass) (q : Nat) (w : BitVec 32) (kind : OpKind) :
    KeepsRest g k [] s (s.addOp g k c q w kind) where
  mem := rfl
  tags := rfl
  bad := rfl
  masons := rfl
  parts := rfl
  gangs := rfl
  saves := rfl
  seals := rfl
  vr := rfl
  irqs := rfl
  cell _ _ _ := rfl
  slot _ _ _ := rfl
  core _ := rfl
  own := rfl

/-! ### Writes of predicates (R210, R216) -/

/-- The predicates with one replaced. -/
def setBit (p : BitVec 8) (n : Nat) (v : Bool) : BitVec 8 :=
  if v then p ||| (1 <<< n) else p &&& ~~~((1 : BitVec 8) <<< n)

theorem getLsbD_setBit (p : BitVec 8) (n m : BitVec 3) (v : Bool) :
    (setBit p n.toNat v).getLsbD m.toNat = if m = n then v else p.getLsbD m.toNat := by
  have hone : ∀ n m : BitVec 3, ((1 <<< n.toNat : Nat) : BitVec 8).getLsbD m.toNat = decide (m = n) ∧
      (~~~((1 : BitVec 8) <<< n.toNat)).getLsbD m.toNat = decide (m ≠ n) := by decide
  obtain ⟨hset, hclear⟩ := hone n m
  unfold setBit
  cases v
  · rw [if_neg (by simp), BitVec.getLsbD_and, hclear]
    by_cases h : m = n <;> simp [h]
  · rw [if_pos rfl, BitVec.getLsbD_or, hset]
    by_cases h : m = n <;> simp [h]

theorem preds_setPred (s : State) {n : BitVec 3} (h : n ≠ 0) (v : Bool) :
    (s.setPred n v).preds = setBit s.preds n.toNat v := by
  unfold State.setPred State.preds setBit
  rw [if_neg h]
  cases hc : s.cur <;> simp [hc]

/-- R216: predicate n holds the value, a write to p0 is discarded, and every other predicate is as before. -/
theorem predBit_setPred (s : State) (n m : BitVec 3) (v : Bool) :
    (s.setPred n v).predBit m = (if m = n ∧ n ≠ 0 then v else s.predBit m) := by
  by_cases hn : n = 0
  · rw [if_neg (by simp [hn])]
    simp [State.setPred, hn]
  · unfold State.predBit
    rw [preds_setPred s hn, getLsbD_setBit]
    by_cases hm : m = n
    · rw [if_pos hm, if_pos ⟨hm, hn⟩, hm, decide_eq_false hn, Bool.false_or]
    · rw [if_neg hm, if_neg (fun e => hm e.1)]

/-- On a slot only its PRED changes. -/
theorem setPred_slot {s : State} {g k : Nat} (hc : s.cur = .slot g k) (n : BitVec 3) (v : Bool) :
    ∃ p, s.setPred n v = s.setSlot g k { s.slot g k with pred := p } ∨ s.setPred n v = s := by
  unfold State.setPred
  by_cases hn : n = 0
  · exact ⟨0, .inr (if_pos hn)⟩
  · rw [if_neg hn, hc]
    exact ⟨_, .inl rfl⟩

/-! ### rdx and wrx (R238) -/

theorem setQueue_window (x : Slot) (d : Nat) (q : List Tagged) :
    (x.setQueue d q).wbase = x.wbase ∧ (x.setQueue d q).wlim = x.wlim := by
  unfold Slot.setQueue; split <;> exact ⟨rfl, rfl⟩

/-- The read of a field leaves the window of every slot. -/
theorem took_window (s : State) (a : Name) (g k : Nat) :
    ((s.took a).slot g k).wbase = (s.slot g k).wbase ∧ ((s.took a).slot g k).wlim = (s.slot g k).wlim := by
  rcases took_cases s a with h | ⟨g', k', q, ws, -, h⟩ <;> rw [h]
  · exact ⟨rfl, rfl⟩
  · rw [slot_setSlot]
    split
    · rename_i e
      rw [e.1, e.2]
      exact setQueue_window ..
    · exact ⟨rfl, rfl⟩

@[simp] theorem cell_took (s : State) (a : Name) (g c : Nat) : (s.took a).cell g c = s.cell g c := by
  rcases took_cases s a with h | ⟨g', k', q, ws, -, h⟩ <;> rw [h]
  exact cell_setSlot ..

section
variable {s : State} {g k : Nat} (hc : s.cur = .slot g k) {a : Name} (ha : s.holds a) (ht : (s.val a).t = false)
  {im : BitVec 12}
include hc ha ht

/-- R238, log 14: an index within the window reaches its cell, past the last cell of the core the first. -/
theorem indexOp_of_inside (h : ((s.val a).v + im.signExtend 64).toNat < (s.slot g k).wlim.toNat) : indexOp a im s =
    .ok (((s.slot g k).wbase.toNat + ((s.val a).v + im.signExtend 64).toNat) % numCells g, s.took a) := by
  have hc' : (s.took a).cur = .slot g k := by rw [took_cur, hc]
  obtain ⟨hb, hl⟩ := took_window s a g k
  rw [indexOp, M.bind_ok (ctlOperand_of_clear (readName_of_holds ha) ht)]
  simp only
  rw [M.bind_ok (M.get_apply _), me_of_slot hc', gk_of_slot hc', hb, hl, if_neg (by omega)]
  rfl

/-- R238: an index beyond the window raises WBND with TVAL the index. -/
theorem indexOp_of_outside (h : (s.slot g k).wlim.toNat ≤ ((s.val a).v + im.signExtend 64).toNat) :
    indexOp a im s = .error (.trap cWBND ((s.val a).v + im.signExtend 64) 0) := by
  have hc' : (s.took a).cur = .slot g k := by rw [took_cur, hc]
  obtain ⟨-, hl⟩ := took_window s a g k
  rw [indexOp, M.bind_ok (ctlOperand_of_clear (readName_of_holds ha) ht)]
  simp only
  rw [M.bind_ok (M.get_apply _), me_of_slot hc', hl, if_pos h]
  rfl

end

section
variable {s : State} {g k : Nat} (hc : s.cur = .slot g k) {d a b : Name} (ht : (s.val a).t = false) {im : BitVec 12}
include hc ht

theorem rdx_inside (hr : Ready (.rdx d a im) s)
    (h : ((s.val a).v + im.signExtend 64).toNat < (s.slot g k).wlim.toNat) : exec (.rdx d a im) s =
      .next (s.done ((s.took a).writeName d (s.cell g
        (((s.slot g k).wbase.toNat + ((s.val a).v + im.signExtend 64).toNat) % numCells g)))) := by
  have hc' : (s.took a).cur = .slot g k := by rw [took_cur, hc]
  show issue _ (rdxOp d a im) s = _
  have ha : s.holds a := holds_a hr rfl
  rw [issue_of_ready hr, rdxOp, M.bind_ok (indexOp_of_inside hc ha ht h), M.bind_ok (M.get_apply _),
    M.bind_ok (writeName_apply _ _ _), M.pure_apply, finish_next, gk_of_slot hc', cell_took]

theorem wrx_inside (hr : Ready (.wrx im a b) s)
    (h : ((s.val a).v + im.signExtend 64).toNat < (s.slot g k).wlim.toNat) : exec (.wrx im a b) s =
      .next (s.done (((s.took a).took b).setCell g
        (((s.slot g k).wbase.toNat + ((s.val a).v + im.signExtend 64).toNat) % numCells g) ((s.took a).val b))) := by
  have hc' : ((s.took a).took b).cur = .slot g k := by rw [took_cur, took_cur, hc]
  show issue _ (wrxOp im a b) s = _
  have ha : s.holds a := holds_a hr rfl
  have hb : (s.took a).holds b := holds_took hr rfl rfl
  rw [issue_of_ready hr, wrxOp, M.bind_ok (indexOp_of_inside hc ha ht h), M.bind_ok (readName_of_holds hb),
    M.bind_ok (M.modify_apply _ _), M.pure_apply, finish_next,
    gk_of_slot hc']

/-- What follows the index is not reached. -/
theorem index_traps {i : Instr} {body : Nat → M Ctl} (hx : exec i s = issue i (indexOp a im >>= body) s) (hr : Ready i s)
    (hi : i.roles.ra = .src) (ea : i.roles.a = a)
    (h : (s.slot g k).wlim.toNat ≤ ((s.val a).v + im.signExtend 64).toNat) :
    exec i s = .next (s.trapped g k i cWBND ((s.val a).v + im.signExtend 64)) := by
  subst ea
  rw [hx, issue_of_ready hr, M.bind_error (indexOp_of_outside hc (holds_a hr hi) ht h), finish_trap hc]

end

/-- Settles O14: each case of the write of a name is one update of the state; rdx and wrx go through the index that they compute. -/
theorem cellWrites : Obligations.CellWrites := by
  unfold Obligations.CellWrites
  refine ⟨fun s g k n x hc => ⟨fun hn => ?_, fun hn => ?_, fun hp hd => writeName_discarded hc hp hd x, fun h hp ht hd => ?_⟩,
    fun s n m v => ⟨predBit_setPred s n m v, fun g k hc => ?_⟩, fun s g k d a b im hc ht => ⟨fun hr h => rdx_inside hc ht hr h,
    fun hr h => wrx_inside hc ht hr h, fun i hi hr h => ?_⟩⟩
  · rw [hn, writeName_zero hc]
  · rw [writeName_cell hc hn]
    exact ⟨by simp, keepsRest_setCell .., rfl⟩
  · rw [writeName_port hc hp hd ht]
    exact ⟨_, rfl, rfl, rfl, rfl, rfl, keepsRest_addOp ..⟩
  · obtain ⟨p, e | e⟩ := setPred_slot hc n v <;> rw [e]
    · exact ⟨by rw [slot_setSlot, if_pos ⟨rfl, rfl⟩], rfl, rfl, rfl⟩
    · exact ⟨rfl, rfl, rfl, rfl⟩
  · rcases List.mem_pair.1 hi with rfl | rfl
    · exact index_traps hc ht rfl hr rfl rfl h
    · exact index_traps hc ht rfl hr rfl rfl h

end Sys2Proof.Threads
end

