-- ==== Sys2Proof/Proofs/Migration.lean ====
section
/-! SUPPORT. Sys2Proof/Proofs/Migration.lean: mig past its checks, what a slot's memberships are, and the thread that leaves
(O30). -/

namespace Sys2Proof.Threads
open Sys2Proof.Machine Sys2Proof.Organisation

/-! ### mig (R50, R51, R270) -/

/-- What mig does once its checks have passed and its counters are at zero: the thread stays with its owner, or leaves. -/
def migTail (i : Instr) (g k n : Nat) (s : State) (h : Nat) : Ctl × State :=
  if h = g then (.next, s)
  else (.stay, ((s.trace g 6 k s.me.pc.toNat 0).addOp g k none 0 (encode i) (.migrant (s.migrantOf g k n h))).vacate g k)

theorem migOp_of_passes {i : Instr} {s : State} {g k h : Nat} {a : Name} {n : BitVec 8} (hc : s.cur = .slot g k) (hg : g < 4096)
    (ha : a.isPort = false) (ht : (s.val a).t = false) (hh : s.me.inHandler = false) (hk : s.isKeystone g k = false)
    (hn : n.toNat ≤ s.me.wlim.toNat) (hm : migTarget (s.val a).v s = .ok (h, s)) (hclear : Clear s 0 0 0 0) :
    migOp i a n s = .ok (migTail i g k n.toNat s h) := by
  rw [migOp, M.bind_ok (ctlOperand_of_clear (readName_of_notPort ha) ht), M.bind_ok (M.get_apply _)]
  simp only [gk_of_slot hc, ne_vrNum hg, hh, hk, Nat.not_lt.2 hn, if_false, Bool.or_self, Bool.false_eq_true]
  rw [M.bind_ok hm, M.bind_ok (waitFor_of_clear hclear)]
  unfold migTail
  split <;> rfl

theorem mig_of_passes {s : State} {g k h : Nat} {a : Name} {n : BitVec 8} (hc : s.cur = .slot g k) (hg : g < 4096)
    (ha : a.isPort = false) (hr : Ready (.mig a n) s) (ht : (s.val a).t = false) (hh : s.me.inHandler = false)
    (hk : s.isKeystone g k = false) (hn : n.toNat ≤ s.me.wlim.toNat) (hm : migTarget (s.val a).v s = .ok (h, s))
    (hclear : Clear s 0 0 0 0) :
    exec (.mig a n) s = .next (s.finish (encode (.mig a n)) (.ok (migTail (.mig a n) g k n.toNat s h))) := by
  show issue _ (migOp _ a n) s = _
  rw [issue_of_ready hr, migOp_of_passes hc hg ha ht hh hk hn hm hclear]

@[simp] theorem trace_nextId (s : State) (g kind k pc detail : Nat) : (s.trace g kind k pc detail).nextId = s.nextId := by
  rcases trace_cases s g kind k pc detail with h | ⟨r, h⟩ <;> rw [h]
  rfl

/-- R172: the address that a membership register holds is its lower 49 bits. -/
theorem membership_address (b : Word) : (b.extractLsb' 0 49).setWidth 64 = BitVec.ofNat 64 (b.toNat % 2 ^ 49) := by
  apply BitVec.eq_of_toNat_eq
  rw [BitVec.toNat_setWidth, BitVec.extractLsb'_toNat, BitVec.toNat_ofNat, Nat.shiftRight_zero]

theorem bmemPa_eq_some_iff (s : State) (g k pa : Nat) (b : Word) : s.bmemPa g k b = some pa ↔ b.getLsbD 63 = true ∧
    ∃ x, s.engAccess { s.ctx g k with level := .sup } (BitVec.ofNat 64 (b.toNat % 2 ^ 49)) 32 .atomic .barrier = .ok x ∧
      x.pa = pa := by
  unfold State.bmemPa
  rw [membership_address]
  cases b.getLsbD 63
  · simp
  · rw [if_neg (by decide)]
    cases s.engAccess _ (BitVec.ofNat 64 (b.toNat % 2 ^ 49)) 32 .atomic .barrier with
    | ok t => simp
    | error e => simp

/-- R51, R172: a slot's memberships are the objects that its BMEM registers name and those that migrated with the thread. -/
theorem mem_memberPas_iff (s : State) (g k pa : Nat) : pa ∈ s.memberPas g k ↔ pa ∈ (s.slot g k).moved ∨
    ∃ b ∈ (s.slot g k).bmems, s.bmemPa g k b = some pa := by
  unfold State.memberPas
  rw [List.mem_append, List.mem_filterMap, or_comm]

/-- R287: an operation that a thread sends as it leaves its slot is in flight after it. -/
theorem exists_sent_of_vacate (s : State) (g k : Nat) (w : BitVec 32) (kind : OpKind) :
    ∃ o ∈ ((s.addOp g k none 0 w kind).vacate g k).ops, o.id = s.nextId ∧ o.kind = kind := by
  rw [vacate_ops]
  refine ⟨_, List.mem_map_of_mem (List.mem_append.2 (.inr List.mem_cons_self)), ?_⟩
  rw [if_pos ⟨rfl, rfl⟩]
  exact ⟨rfl, rfl⟩

/-- Settles O30: past its checks mig completes or leaves its slot, and the operation in flight is the thread as it stood. -/
theorem migration : Obligations.Migration := by
  unfold Obligations.Migration
  intro s g k a n h hc hg ha hr ht hh hk hn hm hclear
  rw [mig_of_passes hc hg ha hr ht hh hk hn hm hclear]
  refine ⟨fun e => ?_, fun e _ => ?_⟩
  · rw [migTail, if_pos e, finish_next]
  · rw [migTail, if_neg e, finish_stay]
    obtain ⟨o, ho, hid, hkind⟩ := exists_sent_of_vacate (s.trace g 6 k s.me.pc.toNat 0) g k (encode (.mig a n))
      (.migrant (s.migrantOf g k n.toNat h))
    refine ⟨_, rfl, (slot_vacate ..).trans ?_, (vacate_mem ..).trans ?_, o, ho, hid.trans (trace_nextId ..), _, hkind,
      rfl, rfl, rfl, rfl, rfl, rfl, rfl, rfl, rfl, rfl, rfl, rfl, fun pa => ?_⟩
    · simp
    · simp
    · exact (mem_memberPas_iff ..).trans (or_congr_right (exists_congr fun b => and_congr_right fun _ => bmemPa_eq_some_iff ..))

end Sys2Proof.Threads
end

