-- ==== Sys2Proof/Proofs/SpawnIssues.lean ====
section
/-! SUPPORT. Sys2Proof/Proofs/SpawnIssues.lean: the checks of a task record, the core that a hint steers to, and spawn and
spawnh (O37). -/

namespace Sys2Proof.Threads
open Sys2Proof.Machine Sys2Proof.Organisation

/-! ### The checks of a record (R34) -/

theorem extractLsb'_toNat_eq (v : Word) (i n : Nat) : (v.extractLsb' i n).toNat = v.toNat / 2 ^ i % 2 ^ n := by
  rw [BitVec.extractLsb'_toNat, Nat.shiftRight_eq_div_pow]

/-- The bits from a position up are zero where the number is below that power of two. -/
theorem extractLsb'_top_ne_zero_iff (v : Word) {i n : Nat} (h : i + n = 64) : v.extractLsb' i n ≠ 0 ↔ v.toNat / 2 ^ i ≠ 0 := by
  have hlt : v.toNat / 2 ^ i < 2 ^ n := by
    refine Nat.div_lt_of_lt_mul ?_
    rw [← Nat.pow_add, h]
    exact v.isLt
  rw [Ne, ← BitVec.toNat_inj, extractLsb'_toNat_eq, Nat.mod_eq_of_lt hlt]
  exact Iff.rfl

/-- R34: what a record must not have once its two addresses are aligned. -/
def BadRecord (r : TaskRec) : Prop :=
  let w := r.ctl.toNat / 2 ^ 32 % 2 ^ 8
  let x := r.hint.toNat % 2 ^ 8
  let y := r.hint.toNat / 2 ^ 8 % 2 ^ 8
  w % 8 ≠ 0 ∨ w < 8 ∨ 128 < w ∨ 2 ≤ r.ctl.toNat / 2 ^ 40 % 4 ∨
    (r.ctl.getLsbD 42 = true ∧ 4 ≤ r.ctl.toNat / 2 ^ 43 % 8) ∨ 63 < x ∨ 63 < y ∨ r.ctl.toNat / 2 ^ 46 ≠ 0 ∨
    r.hint.toNat / 2 ^ 24 ≠ 0

theorem hint_x (v : Word) : (v.extractLsb' 0 8).toNat = v.toNat % 2 ^ 8 := by
  rw [extractLsb'_toNat_eq, Nat.pow_zero, Nat.div_one]

theorem hint_y (v : Word) : (v.extractLsb' 8 8).toNat = v.toNat / 2 ^ 8 % 2 ^ 8 := extractLsb'_toNat_eq ..

section
variable {r : TaskRec} (va : Word)

theorem check_image (h : r.image.toNat % 64 ≠ 0) : r.check va = .error ⟨cALN, r.image, 0⟩ := if_pos h

theorem check_node (hi : r.image.toNat % 64 = 0) (h : r.node.toNat % 32 ≠ 0) : r.check va = .error ⟨cALN, r.node, 0⟩ := by
  unfold TaskRec.check
  rw [if_neg (by omega), if_pos h]

/-- R34: past the alignment of the two addresses, a record fails with ILL where it is bad, and passes where it is not. -/
theorem check_rest (hi : r.image.toNat % 64 = 0) (hn : r.node.toNat % 32 = 0) :
    (BadRecord r → r.check va = .error ⟨cILL, va, 0⟩) ∧ (¬ BadRecord r → r.check va = .ok ()) := by
  have hw : r.wcells = r.ctl.toNat / 2 ^ 32 % 2 ^ 8 := extractLsb'_toNat_eq ..
  have hs : r.gscope = r.ctl.toNat / 2 ^ 43 % 8 := extractLsb'_toNat_eq ..
  have hl : (r.ctl.extractLsb' 40 2).toNat = r.ctl.toNat / 2 ^ 40 % 4 := extractLsb'_toNat_eq ..
  unfold TaskRec.check BadRecord
  rw [if_neg (by omega), if_neg (by omega)]
  simp only [hw, hs, hl, hint_x, hint_y, TaskRec.isGang, Bool.or_eq_true, Bool.and_eq_true, decide_eq_true_eq,
    extractLsb'_top_ne_zero_iff r.ctl (show 46 + 18 = 64 from rfl), extractLsb'_top_ne_zero_iff r.hint (show 24 + 40 = 64 from rfl)]
  constructor <;> intro h <;> grind

end

/-! ### The target of a hint (R44) -/

theorem foldl_least (key : Nat → Nat) (c0 : Nat) (cs : List Nat) :
    let m := cs.foldl (fun b c => if key c < key b then c else b) c0
    m ∈ c0 :: cs ∧ ∀ c ∈ c0 :: cs, key m ≤ key c := by
  induction cs generalizing c0 with
  | nil => simp
  | cons c cs ih =>
    simp only [List.foldl_cons]
    split
    · rename_i h
      obtain ⟨hm, hle⟩ := ih c
      refine ⟨List.mem_cons_of_mem _ hm, fun d hd => ?_⟩
      rcases List.mem_cons.1 hd with rfl | hd
      · exact (hle c List.mem_cons_self).trans h.le
      · exact hle d hd
    · rename_i h
      obtain ⟨hm, hle⟩ := ih c0
      refine ⟨?_, fun d hd => ?_⟩
      · rcases List.mem_cons.1 hm with e | hm
        · rw [e]; exact List.mem_cons_self
        · exact List.mem_cons_of_mem _ (List.mem_cons_of_mem _ hm)
      · rcases List.mem_cons.1 hd with rfl | hd
        · exact hle d List.mem_cons_self
        · rcases List.mem_cons.1 hd with rfl | hd
          · exact (hle c0 List.mem_cons_self).trans (not_lt.1 h)
          · exact hle d (List.mem_cons_of_mem _ hd)

theorem coreAt_lt {die loc : Nat} (hd : die < 16) (hl : loc < 256) : coreAt die loc < 4096 := by
  unfold coreAt; omega

theorem lt_of_mem_partCores {s : State} {p c : Nat} (h : c ∈ s.partCores p) : c < 4096 := by
  unfold State.partCores at h
  obtain ⟨d, hd, h⟩ := List.mem_flatMap.1 h
  split at h
  · obtain ⟨l, hl, rfl⟩ := List.mem_map.1 (List.mem_filter.1 h).1
    exact coreAt_lt (List.mem_range.1 hd) (List.mem_range.1 hl)
  · exact absurd h List.not_mem_nil

theorem hintTarget_named {s : State} {g x y p : Nat} (hp : s.partOf g = some p) (h : s.partOf (64 * y + x) = some p)
    (hm : s.isMasked (64 * y + x) = false) : s.hintTarget g x y = 64 * y + x := by
  unfold State.hintTarget
  exact if_pos (by simp [hp, h, hm])

/-- R44: the unmasked core of the partition that is nearest, the lowest of those. -/
theorem hintTarget_nearest {s : State} {g x y p : Nat} (hp : s.partOf g = some p)
    (h : s.partOf (64 * y + x) ≠ some p ∨ s.isMasked (64 * y + x) = true) (hne : s.partCores p ≠ []) :
    let t := s.hintTarget g x y
    t ∈ s.partCores p ∧ ∀ c ∈ s.partCores p, meshDist t (64 * y + x) < meshDist c (64 * y + x) ∨
      (meshDist t (64 * y + x) = meshDist c (64 * y + x) ∧ t ≤ c) := by
  obtain ⟨c0, cs, hcs⟩ := List.exists_cons_of_ne_nil hne
  let key (c : Nat) : Nat := meshDist c (64 * y + x) * 4096 + c
  have ht : s.hintTarget g x y = cs.foldl (fun b c => if key c < key b then c else b) c0 := by
    unfold State.hintTarget
    have hn : ¬ ((decide (s.partOf (64 * y + x) = s.partOf g) && !s.isMasked (64 * y + x)) = true) := by
      rcases h with h | h <;> simp [hp, h]
    simp only [hp] at hn ⊢
    rw [if_neg hn, hcs]
  rw [ht]
  obtain ⟨hm, hle⟩ := foldl_least key c0 cs
  rw [← hcs] at hm hle
  refine ⟨hm, fun c hc => ?_⟩
  have hk : _ * 4096 + _ ≤ _ * 4096 + _ := hle c hc
  have h1 := lt_of_mem_partCores hm
  have h2 := lt_of_mem_partCores hc
  omega

/-! ### spawn and spawnh (R277) -/

theorem touchedBefore_iff (s : State) (g k id pa n : Nat) : s.touchedBefore g k id pa n = true ↔
    ∃ o ∈ s.ops, o.g = g ∧ o.k = k ∧ o.id < id ∧ o.kind.touches pa n = true := by
  simp [State.touchedBefore, and_assoc]

theorem recordHeld_iff (s : State) (g k pa n : Nat) : s.recordHeld g k pa n = true ↔ s.meshHeld g pa = true ∨
    ∃ o ∈ s.ops, o.g = g ∧ o.k = k ∧ o.id < s.nextId ∧ o.kind.touches pa n = true := by
  rw [State.recordHeld, Bool.or_eq_true, touchedBefore_iff]

theorem recordReady_held {s : State} {g k pa n : Nat} (hc : s.cur = .slot g k) (h : s.recordHeld g k pa n = true) :
    recordReady pa n s = .error .forfeit := by
  unfold recordReady; rw [gk_of_slot hc, if_pos h]

theorem recordReady_free {s : State} {g k pa n : Nat} (hc : s.cur = .slot g k) (h : s.recordHeld g k pa n = false) :
    recordReady pa n s = .ok ((), s) := by
  unfold recordReady; rw [gk_of_slot hc, if_neg (by simp [h])]

theorem orTrap_ok {α : Type} (x : α) (s : State) : orTrap (.ok x) s = .ok (x, s) := rfl

theorem orTrap_error {α : Type} (e : AccErr) (s : State) : (orTrap (.error e) : M α) s = .error (.trap e.code e.val e.sub) := rfl

theorem levelOpen_iff (s : State) (g : Nat) (high : Bool) : s.levelOpen g high = true ↔
    s.levelRoom g high = true ∧ ∀ c ∈ (s.core g).conts, c.task.high ≠ high := by
  simp [State.levelOpen]

/-- What spawn and spawnh do with a record that has passed its checks. -/
def placeTask (i : Instr) (s : State) (g target : Nat) (r : TaskRec) (hinted : Bool) : M Ctl :=
  if r.isGang then do
    let id ← emitFree i (.gangReq r (s.gangCores r.gscope (if hinted then target else g)))
    awaitAnswer id
  else if hinted then do
    let id ← emitFree i (.hinted r g target true)
    awaitAnswer id
  else do
    if !s.levelOpen g r.high then halt' .forfeit
    let id ← emitFree i (.spawn r)
    awaitAnswer id

section
variable {i : Instr} {s : State} {g k : Nat} {a : Name} {t : Target} (hinted : Bool) (hc : s.cur = .slot g k)
  (ha : a.isPort = false) (ht : (s.val a).t = false) (hx : access (s.val a).v 64 64 .load .plain false s = .ok (t, s))
include hc ha ht hx

theorem spawnOp_of_held (h : s.recordHeld g k t.pa 64 = true) : spawnOp i a hinted s = .error .forfeit := by
  rw [spawnOp, M.bind_ok (ctlOperand_of_clear (readName_of_notPort ha) ht), M.bind_ok hx]
  exact M.bind_error (recordReady_held hc h)

variable (hb : s.badWord t.pa 64 = none) (h : s.recordHeld g k t.pa 64 = false)
include hb h

theorem spawnOp_of_bad {e : AccErr} (he : (s.recAt t.pa).check (s.val a).v = .error e) :
    spawnOp i a hinted s = .error (.trap e.code e.val e.sub) := by
  rw [spawnOp, M.bind_ok (ctlOperand_of_clear (readName_of_notPort ha) ht), M.bind_ok hx, M.bind_ok (recordReady_free hc h),
    M.bind_ok (softCheck_of_good hc hb), M.bind_ok (M.get_apply _), he]
  rfl

theorem spawnOp_of_good (hr : (s.recAt t.pa).check (s.val a).v = .ok ()) : let r := s.recAt t.pa
    spawnOp i a hinted s =
      placeTask i s g (s.hintTarget g (r.hint.extractLsb' 0 8).toNat (r.hint.extractLsb' 8 8).toNat) r hinted s := by
  rw [spawnOp, M.bind_ok (ctlOperand_of_clear (readName_of_notPort ha) ht), M.bind_ok hx, M.bind_ok (recordReady_free hc h),
    M.bind_ok (softCheck_of_good hc hb), M.bind_ok (M.get_apply _), hr, M.bind_ok (orTrap_ok _ _), gk_of_slot hc]
  rfl

end

section
variable {i : Instr} {s : State} {g target : Nat} {r : TaskRec}

theorem placeTask_gang (hinted : Bool) (h : r.isGang = true) : placeTask i s g target r hinted s = .ok (.stay, (s.acceptFree i
    (.gangReq r (s.gangCores r.gscope (if hinted then target else g)))).awaiting s.nextId) := by
  rw [placeTask, if_pos h]; rfl

theorem placeTask_hinted (h : r.isGang = false) : placeTask i s g target r true s =
    .ok (.stay, (s.acceptFree i (.hinted r g target true)).awaiting s.nextId) := by
  rw [placeTask, if_neg (by simp [h])]; rfl

theorem placeTask_local (h : r.isGang = false) (ho : s.levelOpen g r.high = true) : placeTask i s g target r false s =
    .ok (.stay, (s.acceptFree i (.spawn r)).awaiting s.nextId) := by
  rw [placeTask, if_neg (by simp [h]), if_neg (by simp), ho]; rfl

theorem placeTask_full (h : r.isGang = false) (ho : s.levelOpen g r.high = false) :
    placeTask i s g target r false s = .error .forfeit := by
  rw [placeTask, if_neg (by simp [h]), if_neg (by simp), ho]; rfl

end

/-- Settles O37: the two instructions are one meaning, which reads the record, checks it and places the task. -/
theorem spawnIssues : Obligations.SpawnIssues := by
  unfold Obligations.SpawnIssues
  intro s g k a t hc ha ht hx hb r target sent
  have two {P : Instr → Prop} (h : ∀ i hinted, exec i s = issue i (spawnOp i a hinted) s → P i) :
      ∀ i ∈ [Instr.spawn a, .spawnh a], P i := fun i hi => by
    rcases List.mem_pair.1 hi with rfl | rfl
    · exact h _ false rfl
    · exact h _ true rfl
  refine ⟨fun h => two fun i hinted he hr => ?_, recordHeld_iff .., ⟨check_image _, check_node _, fun hi hn => (check_rest _ hi hn).1,
    fun hi hn => (check_rest _ hi hn).2, fun p hp => ⟨fun h hm => ?_, fun h hne => ?_⟩⟩, fun h => ⟨fun e he => two fun i hinted hi hr => ?_,
    fun hr hready => ⟨fun hg => ?_, fun hg hroom hcont => ?_, fun hg hfull => ?_⟩, fun hr hready => ⟨fun hg => ?_, fun hg => ?_⟩⟩⟩
  · rw [he, issue_of_ready hr, spawnOp_of_held hinted hc ha ht hx h, finish_forfeit hc]
  · exact (congrArg₂ (s.hintTarget g) (hint_x _) (hint_y _)).trans (hintTarget_named hp h hm)
  · have e : target = s.hintTarget g (r.hint.toNat % 2 ^ 8) (r.hint.toNat / 2 ^ 8 % 2 ^ 8) :=
      congrArg₂ (s.hintTarget g) (hint_x _) (hint_y _)
    rw [e]
    exact hintTarget_nearest hp h hne
  · rw [hi, issue_of_ready hr, spawnOp_of_bad hinted hc ha ht hx hb h he, finish_trap hc]
  · show issue _ (spawnOp _ a false) s = _
    rw [issue_of_ready hready, spawnOp_of_good _ hc ha ht hx hb h hr, placeTask_gang _ hg, if_neg (by decide), finish_stay]
  · show issue _ (spawnOp _ a false) s = _
    rw [issue_of_ready hready, spawnOp_of_good _ hc ha ht hx hb h hr, placeTask_local hg ((levelOpen_iff ..).2 ⟨hroom, hcont⟩), finish_stay]
  · have ho : s.levelOpen g r.high = false := by
      rw [Bool.eq_false_iff, Ne, levelOpen_iff]
      rintro ⟨h1, h2⟩
      rcases hfull with h | ⟨c, hc, h⟩
      · simp [h1] at h
      · exact h2 c hc h
    show issue _ (spawnOp _ a false) s = _
    rw [issue_of_ready hready, spawnOp_of_good _ hc ha ht hx hb h hr, placeTask_full hg ho, finish_forfeit hc]
  · show issue _ (spawnOp _ a true) s = _
    rw [issue_of_ready hready, spawnOp_of_good _ hc ha ht hx hb h hr, placeTask_gang _ hg, if_pos rfl, finish_stay]
  · show issue _ (spawnOp _ a true) s = _
    rw [issue_of_ready hready, spawnOp_of_good _ hc ha ht hx hb h hr, placeTask_hinted hg, finish_stay]

end Sys2Proof.Threads
end

