-- ==== Sys2Proof/Proofs/TaskBinding.lean ====
section
/-! SUPPORT. Sys2Proof/Proofs/TaskBinding.lean: runs of cells written and read back, and what the binding of a task leaves
(O39). -/

namespace Sys2Proof.Threads
open Sys2Proof.Machine Sys2Proof.Organisation

/-! ### Runs of cells (R30, R37) -/

/-- A run of cells is written from its first to its last. -/
theorem setCells_concat (s : State) (g c : Nat) (xs : List Tagged) (x : Tagged) : s.setCells g c (xs ++ [x]) =
    (s.setCells g c xs).setCell g ((c + xs.length) % numCells g) x := by
  unfold State.setCells
  rw [List.length_append, List.length_singleton, List.range_succ, List.zip_append (by simp), List.foldl_append]
  rfl

/-- R30: a run that ends within the core's register file is read back cell by cell. -/
theorem cell_setCells {s : State} {g c : Nat} {xs : List Tagged} (hn : c + xs.length ≤ numCells g) (h d : Nat) :
    (s.setCells g c xs).cell h d =
      if h = g ∧ c ≤ d ∧ d < c + xs.length then xs.getD (d - c) {} else s.cell h d := by
  induction xs using List.reverseRecOn with
  | nil =>
    rw [if_neg (by simp only [List.length_nil]; omega)]
    rfl
  | append_singleton xs x ih =>
    rw [List.length_append, List.length_singleton] at hn ⊢
    rw [setCells_concat, cell_setCell, Nat.mod_eq_of_lt (by omega), ih (by omega)]
    by_cases hd : h = g ∧ d = c + xs.length
    · rw [if_pos hd, if_pos ⟨hd.1, by omega⟩, hd.2, Nat.add_sub_cancel_left]
      simp
    · rw [if_neg hd]
      by_cases hi : h = g ∧ c ≤ d ∧ d < c + xs.length
      · rw [if_pos hi, if_pos ⟨hi.1, by omega⟩, List.getD_append _ _ _ _ (by omega)]
      · rw [if_neg hi, if_neg (by omega)]

/-- R37: a window is filled with the cells given, and with zeros beyond them. -/
theorem cell_fillWindow {s : State} {g c n : Nat} {xs : List Tagged} (hn : c + n ≤ numCells g) (h d : Nat) :
    (s.fillWindow g c n xs).cell h d = if h = g ∧ c ≤ d ∧ d < c + n then xs.getD (d - c) {} else s.cell h d := by
  have hlen : (xs.take n ++ List.replicate (n - xs.length) ({} : Tagged)).length = n := by simp; omega
  unfold State.fillWindow
  rw [cell_setCells (by omega), hlen]
  refine ite_congr rfl (fun hd => ?_) fun _ => rfl
  simp only [List.getD_eq_getElem?_getD, List.getElem?_append, List.getElem?_take, List.length_take, List.getElem?_replicate]
  grind

theorem core_setCells_other {s : State} {g h : Nat} (hh : h ≠ g) (c : Nat) (xs : List Tagged) :
    (s.setCells g c xs).core h = s.core h := by
  induction xs using List.reverseRecOn with
  | nil => rfl
  | append_singleton xs x ih => rw [setCells_concat, State.setCell, core_setCore, if_neg hh, ih]

@[simp] theorem slot_fillWindow (s : State) (g c n : Nat) (xs : List Tagged) (h k : Nat) :
    (s.fillWindow g c n xs).slot h k = s.slot h k := slot_setCells ..

@[simp] theorem fillWindow_mem (s : State) (g c n : Nat) (xs : List Tagged) : (s.fillWindow g c n xs).mem = s.mem :=
  State.setCells_mem ..

@[simp] theorem fillWindow_ops (s : State) (g c n : Nat) (xs : List Tagged) : (s.fillWindow g c n xs).ops = s.ops :=
  State.setCells_ops ..

@[simp] theorem cell_trace (s : State) (g kind k pc detail h c : Nat) : (s.trace g kind k pc detail).cell h c = s.cell h c := by
  rcases trace_cases s g kind k pc detail with e | ⟨r, e⟩ <;> rw [e]
  unfold State.cell
  rw [core_setCore]
  split
  · rename_i e; rw [e]
  · rfl

theorem core_trace_other {s : State} {g h : Nat} (hh : h ≠ g) (kind k pc detail : Nat) :
    (s.trace g kind k pc detail).core h = s.core h := by
  rcases trace_cases s g kind k pc detail with e | ⟨r, e⟩ <;> rw [e]
  rw [core_setCore, if_neg hh]

/-! ### The binding of a task (R37) -/

/-- R37, R377: what a slot is when a task has been bound to it. -/
def boundSlot (x : Slot) (r : TaskRec) (base : Nat) (level : Level) (gang : Option (Nat × Nat)) : Slot :=
  { x.kept with
    bound := true, pc := r.image + 64 + BitVec.ofNat 64 (4 * r.entry), level := level, wbase := BitVec.ofNat 11 (8 * base),
    wlim := BitVec.ofNat 8 r.wcells, allocBase := base, allocUnits := r.units, task := (r.node.extractLsb' 0 49).setWidth 64,
    gang := gang, header := some r.image }

/-- R37: the first cells of a bound task's window. -/
def taskCells (r : TaskRec) (member : Option (Nat × Nat × Nat)) : List Tagged :=
  [({} : Tagged), { v := r.a0 }, { v := r.a1 }, { v := r.a2 }, { v := r.a3 }] ++ match member with
    | some m => [{ v := BitVec.ofNat 64 m.2.1 }, { v := BitVec.ofNat 64 m.2.2 }]
    | none => []

section
variable (s : State) (g k : Nat) (r : TaskRec) (base : Nat) (lv : Level) (m : Option (Nat × Nat × Nat))

theorem bindTask_eq : s.bindTask g k r base lv m = ((s.setSlot g k
    (boundSlot (s.slot g k) r base lv (m.map (fun m => (m.1, m.2.1))))).fillWindow g (8 * base) r.wcells
      (taskCells r m)).trace g 1 k (r.image + 64 + BitVec.ofNat 64 (4 * r.entry)).toNat 0 := by
  cases m <;> rfl

theorem slot_bindTask (h j : Nat) : (s.bindTask g k r base lv m).slot h j = if h = g ∧ j = k then
    boundSlot (s.slot g k) r base lv (m.map (fun m => (m.1, m.2.1))) else s.slot h j := by
  rw [bindTask_eq]
  simp

theorem cell_bindTask (hn : 8 * base + r.wcells ≤ numCells g) (h c : Nat) : (s.bindTask g k r base lv m).cell h c =
    if h = g ∧ 8 * base ≤ c ∧ c < 8 * base + r.wcells then (taskCells r m).getD (c - 8 * base) {} else s.cell h c := by
  rw [bindTask_eq, cell_trace, cell_fillWindow hn, cell_setSlot]

@[simp] theorem bindTask_mem : (s.bindTask g k r base lv m).mem = s.mem := by
  rw [bindTask_eq]
  simp

@[simp] theorem bindTask_ops : (s.bindTask g k r base lv m).ops = s.ops := by
  rw [bindTask_eq]
  simp

theorem core_bindTask_other {h : Nat} (hh : h ≠ g) : (s.bindTask g k r base lv m).core h = s.core h := by
  rw [bindTask_eq, core_trace_other hh, State.fillWindow, core_setCells_other hh, core_setSlot, if_neg hh]

end

/-- R37: the address of a task's first instruction. -/
theorem entry_address (r : TaskRec) :
    r.image + 64 + BitVec.ofNat 64 (4 * r.entry) = r.image + 64 + 4 * (r.ctl &&& 0xFFFFFFFF) := by
  have h : r.ctl &&& 0xFFFFFFFF = BitVec.ofNat 64 r.entry := by
    unfold TaskRec.entry
    rw [BitVec.ofNat_toNat, ← BitVec.setWidth_eq_extractLsb' (by decide)]
    exact (setWidth_setWidth_eq_and r.ctl 32 (by decide)).symm
  rw [h, BitVec.ofNat_mul]
  rfl

/-- R37: the node's address without its upper bits. -/
theorem node_address (r : TaskRec) : (r.node.extractLsb' 0 49).setWidth 64 = r.node &&& 0x1FFFFFFFFFFFF := by
  rw [← BitVec.setWidth_eq_extractLsb' (by decide)]
  exact setWidth_setWidth_eq_and r.node 49 (by decide)

/-- Settles O39: the slot starts from what a vacant one keeps, and the window from the task's first cells. -/
theorem taskBinding : Obligations.TaskBinding := by
  unfold Obligations.TaskBinding
  intro s g k base r lv m h8 h128 hn t y
  have hcell (c : Nat) (hc : c < r.wcells) : t.cell g (8 * base + c) = (taskCells r m).getD c {} := by
    rw [cell_bindTask _ _ _ _ _ _ _ hn, if_pos ⟨rfl, by omega⟩, Nat.add_sub_cancel_left]
  refine ⟨?_, ?_, fun n i c hm => ⟨?_, ?_⟩, fun j hj hjw => ?_, fun h c hc => ?_, fun h j hj => ?_, bindTask_mem .., bindTask_ops ..⟩
  · rw [slot_bindTask, if_pos ⟨rfl, rfl⟩, boundSlot, entry_address, node_address]
    rfl
  · refine (List.map_congr_left (g := fun j => (taskCells r m).getD j {}) fun j hj => hcell j ?_).trans rfl
    have := List.mem_range.1 hj
    omega
  · rw [hcell 5 (by omega), hm]; rfl
  · rw [hcell 6 (by omega), hm]; rfl
  · rw [hcell j hjw]
    refine List.getD_eq_default _ _ ?_
    cases m <;> simpa [taskCells] using hj
  · rw [cell_bindTask _ _ _ _ _ _ _ hn, if_neg hc]
  · rw [slot_bindTask, if_neg hj]

end Sys2Proof.Threads
end

