-- ==== Sys2Proof/Proofs/StepRuns.lean ====
section
/-! SUPPORT. Sys2Proof/Proofs/StepRuns.lean: the turn of a slot from its word to the end of the cycle, and the turn of a
mason unit (O58). -/

namespace Sys2Proof.Threads
open Sys2Proof.Machine Sys2Proof.Organisation

/-! ### The turn of a slot (R27, R36, R202, R207, R217) -/

theorem step_core {s : State} {g : Nat} {rest : List Turn} (h : s.agenda = .core g :: rest) (hg : g ≤ vrNum) :
    step s = ({ s with agenda := rest } : State).coreCycle g := by
  unfold step
  rw [h]
  exact if_neg (by omega)

theorem step_mason {s : State} {g : Nat} {rest : List Turn} (h : s.agenda = .mason g :: rest) (hg : g < 4096) :
    step s = ({ s with agenda := rest } : State).masonCycle g := by
  unfold step
  rw [h]
  exact if_neg (by omega)

/-- R27: the slot whose turn it is runs, and then the cycle ends. -/
theorem coreCycle_of_turn {r t : State} {g k : Nat} (hm : r.isMasked g = false)
    (hf : (((r.takeSample g).reap g).core g).freezeNext = false) (ht : ((r.takeSample g).reap g).turnSlot g = some k)
    (hrun : ((r.takeSample g).reap g).runTurn g k = .next t) : let u := (r.takeSample g).reap g
    r.coreCycle g = .next (t.endCycle g ((r.takeSample g).startClasses g) (u.eligibles g).length
      (some (k, (u.slot g k).pc)) (u.core g).smpl (u.core g).sampleCount) := by
  unfold State.coreCycle
  simp only [hm, hf, ht, hrun, Bool.false_eq_true, if_false]

/-- The word that a slot runs is the one it has kept, or the one it fetches, which it then holds and caches. -/
theorem runTurn_eq {u v : State} {g k : Nat} {w : BitVec 32}
    (h : (∃ pa, (u.taking g k).fetch g k = .word w pa ∧ v = ((u.taking g k).cacheWord g pa w).holdWord g k w) ∨
      ((u.taking g k).fetch g k = .kept w ∧ v = u.taking g k)) : u.runTurn g k = v.runWord g k w := by
  unfold State.runTurn
  rcases h with ⟨pa, hf, rfl⟩ | ⟨hf, rfl⟩
  · simp only [hf]
  · simp only [hf]

@[simp] theorem slot_cacheWord (s : State) (g pa : Nat) (w : BitVec 32) (h k : Nat) : (s.cacheWord g pa w).slot h k = s.slot h k := by
  unfold State.cacheWord
  simp only
  split
  · exact slot_setCore_of_slots (by rfl) h k
  · exact slot_setCore_of_slots (s := s.draw.2) (by rfl) h k

/-- What the slot that runs a word keeps of itself: whether its header is to be checked, and whether it is in its handler. -/
theorem running_header {u v : State} {g k : Nat} {w : BitVec 32}
    (h : (∃ pa, (u.taking g k).fetch g k = .word w pa ∧ v = ((u.taking g k).cacheWord g pa w).holdWord g k w) ∨
      ((u.taking g k).fetch g k = .kept w ∧ v = u.taking g k)) :
    (v.slot g k).header = (u.slot g k).header ∧ (v.slot g k).inHandler = (u.slot g k).inHandler := by
  have ht : ((u.taking g k).slot g k).header = (u.slot g k).header ∧
      ((u.taking g k).slot g k).inHandler = (u.slot g k).inHandler := by
    have e : (u.taking g k).slot g k = (u.setSlot g k _).slot g k := rfl
    rw [e, slot_setSlot, if_pos ⟨rfl, rfl⟩]
    exact ⟨rfl, rfl⟩
  rcases h with ⟨pa, -, rfl⟩ | ⟨-, rfl⟩
  · rw [State.holdWord, slot_setSlot, if_pos ⟨rfl, rfl⟩, slot_cacheWord]
    exact ht
  · exact ht

theorem runDecoded_some {s : State} {g k : Nat} {w : BitVec 32} {i : Instr} (h : decode w = some i) :
    s.runDecoded g k w = exec i s := by
  unfold State.runDecoded; rw [h]

theorem runDecoded_none {s : State} {g k : Nat} {w : BitVec 32} (h : decode w = none) :
    s.runDecoded g k w = s.wordTrap g k ⟨cILL, w.setWidth 64, 0⟩ w := by
  unfold State.runDecoded; rw [h]

section
variable {v : State} {g k : Nat} (w : BitVec 32)

theorem runWord_unchecked (h : (v.slot g k).header = none ∨ (v.slot g k).inHandler = true) :
    v.runWord g k w = v.runDecoded g k w := by
  have e : (if (v.slot g k).inHandler then none else (v.slot g k).header) = none := by
    rcases h with h | h <;> simp [h]
  unfold State.runWord
  simp only [e]

variable {a : Word} (ha : (v.slot g k).header = some a) (hh : (v.slot g k).inHandler = false)
include ha hh

/-- R36, log 44: a header that cannot be fetched. -/
theorem runWord_header_fault {e : AccErr} (h : v.versionBad g (v.slot g k).level a = .error e) :
    v.runWord g k w = v.wordTrap g k e w := by
  unfold State.runWord
  simp only [ha, hh, h, Bool.false_eq_true, if_false]

/-- R217: an image of another version. -/
theorem runWord_other_version (h : v.versionBad g (v.slot g k).level a = .ok true) : v.runWord g k w =
    (v.setSlot g k { v.slot g k with header := none }).wordTrap g k ⟨cILL, w.setWidth 64, 0⟩ w := by
  unfold State.runWord
  simp only [ha, hh, h, Bool.false_eq_true, if_false]

/-- R36: an image of version 1. -/
theorem runWord_version (h : v.versionBad g (v.slot g k).level a = .ok false) :
    v.runWord g k w = (v.setSlot g k { v.slot g k with header := none }).runDecoded g k w := by
  unfold State.runWord
  simp only [ha, hh, h, Bool.false_eq_true, if_false]

end

/-- R36, log 44: where the image's header can be fetched through the translation buffer, its version is read. -/
theorem versionBad_of_buffer {v : State} {g : Nat} {lv : Level} {a : Word} {t : Target} (ha : 2 ^ 20 ≤ a.toNat) (hg : g ≠ vrNum)
    (hl : (v.tlbFind g a.toNat).map (v.checkLeaf { v.ctx g 0 with level := lv } a.toNat 2 .fetch .plain false) = some (.ok t))
    (hc : t.cls ≠ 3) (hb : v.badWord t.pa 2 = none) : v.versionBad g lv a = .ok (decide (v.readN t.pa 2 ≠ 1)) := by
  obtain ⟨l, hf, hl⟩ := Option.map_eq_some_iff.1 hl
  unfold State.versionBad
  have hn : ¬ ((decide (g = vrNum) || decide (a.toNat < 2 ^ 20)) = true) := by simp [hg]; omega
  simp only [if_neg hn, hf, hl, hb, hc, decide_false, Bool.false_and, Bool.false_eq_true, if_false]

/-! ### The turn of a mason unit (R157) -/

theorem masonCycle_of_word {r t : State} {g rec' : Nat} {i : Instr} (hrun : (r.mason g).run = some rec')
    (hcyc : (r.mason g).cycles < 2 ^ 24) (hpc : (r.mason g).pc < 4096) (hal : (r.mason g).pc % 4 = 0)
    (hi : decode ((r.mason g).image.getD ((r.mason g).pc / 4) 0) = some i) (hx : exec i (r.masonTick g) = .next t) :
    r.masonCycle g = .next (t.afterRun g (some rec')) := by
  have hw : decode (r.mason g).word = some i := hi
  unfold State.masonCycle
  simp only [hrun, hw, hx]
  rw [if_neg (by simp; omega), if_neg (by simp; omega)]

/-- Settles O58: a step is the turn that the agenda names, and the turn of a slot runs its word as the header of its image lets it. -/
theorem stepRuns : Obligations.StepRuns := by
  unfold Obligations.StepRuns
  intro s rest r
  refine ⟨?_, fun g rec' i t hs hg hrun hcyc hpc hal hi hx => ?_,
    fun i a t hs hi hx => step_event hs hi hx, fun g hs hm hg => ?_⟩
  · intro g k hs hg hm u hf ht w v hv ends traps runs x
    obtain ⟨hhead, hhand⟩ := running_header hv
    have runsTo {t : State} (h : v.runWord g k w = .next t) : step s = .next (ends t) := by
      rw [step_core hs hg]
      exact coreCycle_of_turn hm hf ht ((runTurn_eq hv).trans h)
    have hpc : (x.slot g k).pc = (v.slot g k).pc := by rw [slot_setSlot, if_pos ⟨rfl, rfl⟩]
    have trapsOf {y : State} {e : AccErr} (hy : (y.slot g k).pc = (v.slot g k).pc) (h : v.runWord g k w = y.wordTrap g k e w) :
        traps y e := by
      rw [State.wordTrap, hy] at h
      exact runsTo h
    have runsOf {y : State} (hy : (y.slot g k).pc = (v.slot g k).pc) (h : v.runWord g k w = y.runDecoded g k w) : runs y :=
      ⟨fun i t hi hx => runsTo (h.trans ((runDecoded_some hi).trans hx)), fun hn => trapsOf hy (h.trans (runDecoded_none hn))⟩
    refine ⟨fun h => runsOf rfl (runWord_unchecked w (by rwa [hhead, hhand])), fun a ha hh => ?_,
      fun lv a t ha hv' hl hc hb => versionBad_of_buffer ha hv' hl hc hb⟩
    have ha' := hhead.trans ha
    have hh' := hhand.trans hh
    exact ⟨fun h => runsOf hpc (runWord_version w ha' hh' h), fun h => trapsOf hpc (runWord_other_version w ha' hh' h),
      fun e h => trapsOf rfl (runWord_header_fault w ha' hh' h)⟩
  · rw [step_mason hs hg]
    exact masonCycle_of_word hrun hcyc hpc hal hi hx
  · rw [step_core hs hg]
    exact if_pos hm

end Sys2Proof.Threads
end

