-- ==== Sys2Proof/Proofs/Placing.lean ====
section
/-! SUPPORT. Sys2Proof/Proofs/Placing.lean: slots, windows and deques: which slot and which window a task may take, and what
a level holds once a task has joined it. -/

namespace Sys2Proof.Threads
open Sys2Proof.Machine Sys2Proof.Organisation

/-! ### Slots (R39, R46, R52) -/

/-- The first number of a range that passes a test. -/
theorem find?_range_iff {n k : Nat} {p : Nat → Bool} {P : Nat → Prop} (h : ∀ j, P j ↔ j < n ∧ p j = true) :
    (List.range n).find? p = some k ↔ P k ∧ ∀ j < k, ¬ P j := by
  rw [List.find?_range_eq_some, h k, List.mem_range]
  constructor
  · rintro ⟨hp, hk, hj⟩
    exact ⟨⟨hk, hp⟩, fun j hlt hP => by simpa [((h j).1 hP).2] using hj j hlt⟩
  · rintro ⟨⟨hk, hp⟩, hj⟩
    exact ⟨hp, hk, fun j hlt => by simpa using fun e => hj j hlt ((h j).2 ⟨hlt.trans hk, e⟩)⟩

theorem isKeystone_iff (s : State) (g k : Nat) : s.isKeystone g k = true ↔
    k = 63 ∧ ∃ p, s.partOf g = some p ∧ s.firstCore p = some g := by
  unfold State.isKeystone
  cases s.partOf g <;> simp

theorem gangReserved_iff (s : State) (g k : Nat) : s.gangReserved g k = true ↔
    ∃ a ∈ s.gangs, a.st = .reserving ∧ a.slot = k ∧ g ∈ a.cores := by
  simp [State.gangReserved, and_assoc]

/-- R39, R46, R52: a slot that a task may take: vacant, no keystone's, and none that a gang is reserving on the core. -/
def OpenSlot (s : State) (g k : Nat) : Prop :=
  k < (if g = 4096 then 4 else 64) ∧ (s.slot g k).bound = false ∧
    ¬ (k = 63 ∧ ∃ p, s.partOf g = some p ∧ s.firstCore p = some g) ∧
    ∀ a ∈ s.gangs, a.st = .reserving → a.slot = k → g ∉ a.cores

theorem freeSlot_eq_some_iff (s : State) (g k : Nat) :
    s.freeSlot g = some k ↔ OpenSlot s g k ∧ ∀ j < k, ¬ OpenSlot s g j := by
  refine find?_range_iff fun j => ?_
  have hr : (!s.gangReserved g j) = true ↔ ∀ a ∈ s.gangs, a.st = .reserving → a.slot = j → g ∉ a.cores := by
    rw [Bool.not_eq_true', Bool.eq_false_iff, Ne, gangReserved_iff]
    simp only [not_exists, not_and]
  have hk : (!s.isKeystone g j) = true ↔ ¬ (j = 63 ∧ ∃ p, s.partOf g = some p ∧ s.firstCore p = some g) := by
    rw [Bool.not_eq_true', Bool.eq_false_iff, Ne, isKeystone_iff]
  rw [Bool.and_eq_true, Bool.and_eq_true, hr, hk, Bool.not_eq_true', and_assoc]
  rfl

/-! ### Windows (R30, R40) -/

/-- A run of units is free where none of its units lies in a run in use. -/
theorem runFree_iff (used : List (Nat × Nat)) (b : Nat) {n : Nat} (hn : 1 ≤ n) : runFree used b n = true ↔
    ∀ u, b ≤ u → u < b + n → ¬ ∃ e ∈ used, e.1 ≤ u ∧ u < e.1 + e.2 := by
  simp only [runFree, List.all_eq_true, Bool.or_eq_true, decide_eq_true_eq]
  constructor
  · rintro h u hb hu ⟨e, he, h1, h2⟩
    have := h e he
    omega
  · intro h e he
    by_contra hne
    have h1 := h (max b e.1) (by omega) (by omega)
    exact h1 ⟨e, he, by omega, by omega⟩

/-- R30, R32, R40, R46: a unit that is allocated, held for a gang or freed in this cycle. -/
def TakenUnit (s : State) (g u : Nat) : Prop :=
  (∃ e ∈ (s.core g).slots, e.2.bound = true ∧ e.2.allocBase ≤ u ∧ u < e.2.allocBase + e.2.allocUnits) ∨
    (∃ a ∈ s.gangs, a.st = .reserving ∧ Sparse.has a.held g = true ∧ Sparse.get 0 a.held g ≤ u ∧
      u < Sparse.get 0 a.held g + a.task.units) ∨
    ∃ e ∈ (s.core g).freed, e.1 ≤ u ∧ u < e.1 + e.2

theorem takenUnit_iff (s : State) (g u : Nat) :
    TakenUnit s g u ↔ ∃ e ∈ s.usedUnits g ++ (s.core g).freed, e.1 ≤ u ∧ u < e.1 + e.2 := by
  simp only [TakenUnit, State.usedUnits, List.mem_append, List.mem_map, List.mem_filter, Bool.and_eq_true, decide_eq_true_eq]
  constructor
  · rintro (⟨e, he, hb, hu⟩ | ⟨a, ha, hst, hh, hu⟩ | ⟨e, he, hu⟩)
    · exact ⟨_, .inl (.inl ⟨e, ⟨he, hb⟩, rfl⟩), hu⟩
    · exact ⟨_, .inl (.inr ⟨a, ⟨ha, hst, hh⟩, rfl⟩), hu⟩
    · exact ⟨e, .inr he, hu⟩
  · rintro ⟨_, (⟨e, ⟨he, hb⟩, rfl⟩ | ⟨a, ⟨ha, hst, hh⟩, rfl⟩) | he, hu⟩
    · exact .inl ⟨e, he, hb, hu⟩
    · exact .inr (.inl ⟨a, ha, hst, hh, hu⟩)
    · exact .inr (.inr ⟨_, he, hu⟩)

/-- R30: a window of n units that may begin at a unit. -/
def FitsAt (s : State) (g n b : Nat) : Prop :=
  b + n ≤ (if g = 4096 then 64 else 256) ∧ ∀ u, b ≤ u → u < b + n → ¬ TakenUnit s g u

theorem numUnits_eq (g : Nat) : numUnits g = if g = 4096 then 64 else 256 := by
  unfold numUnits numCells vrNum
  split <;> rfl

theorem firstFit_eq_some_iff (s : State) (g : Nat) {n : Nat} (hn : 1 ≤ n) (b : Nat) :
    s.firstFit g n = some b ↔ FitsAt s g n b ∧ ∀ c < b, ¬ FitsAt s g n c := by
  refine find?_range_iff fun c => ?_
  rw [runFree_iff _ _ hn]
  simp only [← takenUnit_iff]
  refine and_congr_left fun _ => ?_
  rw [numUnits_eq]
  omega

/-! ### Deques (R38, R48) -/

theorem levelRoom_iff (s : State) (g : Nat) (high : Bool) :
    s.levelRoom g high = true ↔ ((s.core g).level high).length + s.places g high < 1024 := decide_eq_true_iff

theorem core_setLevel (s : State) (g : Nat) (high : Bool) (q : List TaskRec) (h : Nat) : (s.setLevel g high q).core h =
    if h = g then (if high then { s.core g with dqHigh := q } else { s.core g with dqNorm := q }) else s.core h := by
  unfold State.setLevel
  cases high <;> exact core_setCore ..

/-- A replaced level reads as it was written, and the other as before. -/
@[simp] theorem level_setLevel (s : State) (g : Nat) (high : Bool) (q : List TaskRec) (l : Bool) :
    ((s.setLevel g high q).core g).level l = if l = high then q else (s.core g).level l := by
  rw [core_setLevel, if_pos rfl]
  cases high <;> cases l <;> rfl

/-- R38: a task that joins a level is its newest. -/
theorem level_pushTask (s : State) (g : Nat) (r : TaskRec) (l : Bool) : ((s.pushTask g r).core g).level l =
    if l = r.high then (s.core g).level r.high ++ [r] else (s.core g).level l := level_setLevel ..

/-- What of a core a task that joins one of its levels leaves. -/
theorem core_pushTask (s : State) (g : Nat) (r : TaskRec) (h : Nat) :
    { (s.pushTask g r).core h with dqHigh := [], dqNorm := [] } = { s.core h with dqHigh := [], dqNorm := [] } := by
  rw [State.pushTask, core_setLevel]
  split
  · rename_i e
    rw [e]
    cases r.high <;> rfl
  · rfl

@[simp] theorem slot_pushTask (s : State) (g : Nat) (r : TaskRec) (h k : Nat) : (s.pushTask g r).slot h k = s.slot h k := by
  have e := congrArg Core.slots (core_pushTask s g r h)
  exact congrArg (Sparse.get {} · k) e

@[simp] theorem conts_pushTask (s : State) (g : Nat) (r : TaskRec) (h : Nat) : ((s.pushTask g r).core h).conts = (s.core h).conts := by
  have e := congrArg Core.conts (core_pushTask s g r h)
  exact e

/-- All that a task that joins a level can change. -/
theorem pushTask_eq (s : State) (g : Nat) (r : TaskRec) : ∃ c, s.pushTask g r = { s with cores := c } := by
  unfold State.pushTask State.setLevel
  cases r.high <;> exact ⟨_, rfl⟩

@[simp] theorem pushTask_mem (s : State) (g : Nat) (r : TaskRec) : (s.pushTask g r).mem = s.mem := by
  obtain ⟨c, h⟩ := pushTask_eq s g r; rw [h]

@[simp] theorem pushTask_ops (s : State) (g : Nat) (r : TaskRec) : (s.pushTask g r).ops = s.ops := by
  obtain ⟨c, h⟩ := pushTask_eq s g r; rw [h]

@[simp] theorem op?_pushTask (s : State) (g : Nat) (r : TaskRec) (id : Nat) : (s.pushTask g r).op? id = s.op? id := by
  unfold State.op?; rw [pushTask_ops]

/-- Everything of a core but its slots is as before its operation's end. -/
theorem level_endOp (s : State) (o : Op) (g : Nat) (l : Bool) : ((s.endOp o).core g).level l = (s.core g).level l := by
  have e := congrArg (Core.level · l) (core_endOp s o g)
  cases l <;> exact e

/-! ### A slot that goes on (R264) -/

@[simp] theorem slot_release (s : State) (g k h j : Nat) : (s.release g k).slot h j =
    if h = g ∧ j = k then { s.slot g k with blocked := none, pc := (s.slot g k).pc + 4 } else s.slot h j := slot_setSlot ..

@[simp] theorem op?_release (s : State) (g k id : Nat) : (s.release g k).op? id = s.op? id := rfl

theorem level_release (s : State) (g k h : Nat) (l : Bool) : ((s.release g k).core h).level l = (s.core h).level l := by
  rw [State.release, core_setSlot]
  split
  · rename_i e
    rw [e]
    cases l <;> rfl
  · rfl

theorem spawned_of_live {s : State} {o : Op} (h : o.live = true) : s.spawned o = (s.endOp o).release o.g o.k := if_pos h

theorem level_spawned (s : State) (o : Op) (g : Nat) (l : Bool) : ((s.spawned o).core g).level l = (s.core g).level l := by
  unfold State.spawned
  simp only
  split
  · rw [level_release, level_endOp]
  · exact level_endOp ..

@[simp] theorem op?_spawned (s : State) (o : Op) : (s.spawned o).op? o.id = none := by
  unfold State.spawned
  simp only
  split
  · rw [op?_release, op?_endOp]
  · exact op?_endOp ..

@[simp] theorem spawned_mem (s : State) (o : Op) : (s.spawned o).mem = s.mem := by
  unfold State.spawned
  simp only
  split <;> simp

end Sys2Proof.Threads
end

