-- ==== Sys2Proof/Proofs/VictimOrder.lean ====
section
/-! SUPPORT. Sys2Proof/Proofs/VictimOrder.lean: the cores of a partition, their distances, and the order in which a thief
asks its victims. -/

namespace Sys2Proof.Threads
open Sys2Proof.Machine Sys2Proof.Organisation

/-! ### The cores of a partition and the victims of a thief (R2, R41, R329) -/

theorem dieOf_lt {c : Nat} (h : c < 4096) : dieOf c < 16 := by
  unfold dieOf coreX coreY; omega

theorem localOf_lt (c : Nat) : localOf c < 256 := by
  unfold localOf coreX coreY; omega

/-- R2: a core is found again by its die and its local index. -/
theorem coreAt_dieOf_localOf (c : Nat) : coreAt (dieOf c) (localOf c) = c := by
  unfold coreAt dieOf localOf coreX coreY; omega

theorem dieOf_coreAt {d l : Nat} (hl : l < 256) : dieOf (coreAt d l) = d := by
  unfold coreAt dieOf coreX coreY; omega

theorem localOf_coreAt {d l : Nat} (hl : l < 256) : localOf (coreAt d l) = l := by
  unfold coreAt localOf coreX coreY; omega

theorem mem_partCores_iff (s : State) (p v : Nat) : v ∈ s.partCores p ↔
    v < 4096 ∧ (s.part p).dies.getLsbD (dieOf v) = true ∧ s.isMasked v = false := by
  unfold State.partCores
  rw [List.mem_flatMap]
  constructor
  · rintro ⟨d, hd, h⟩
    split at h
    · rename_i hdies
      obtain ⟨hm, hmask⟩ := List.mem_filter.1 h
      obtain ⟨l, hl, rfl⟩ := List.mem_map.1 hm
      have hl := List.mem_range.1 hl
      exact ⟨coreAt_lt (List.mem_range.1 hd) hl, by rwa [dieOf_coreAt hl], by simpa using hmask⟩
    · exact absurd h List.not_mem_nil
  · rintro ⟨hv, hdies, hmask⟩
    refine ⟨dieOf v, List.mem_range.2 (dieOf_lt hv), ?_⟩
    rw [if_pos hdies, List.mem_filter]
    exact ⟨List.mem_map.2 ⟨localOf v, List.mem_range.2 (localOf_lt v), coreAt_dieOf_localOf v⟩, by simpa using hmask⟩

theorem nodup_partCores (s : State) (p : Nat) : (s.partCores p).Nodup := by
  unfold State.partCores
  rw [List.nodup_flatMap]
  refine ⟨fun d _ => ?_, List.nodup_range.imp fun {d e} hde => ?_⟩
  · split
    · refine List.Nodup.filter _ (List.Nodup.map_on (fun a ha b hb hab => ?_) List.nodup_range)
      rw [← localOf_coreAt (d := d) (List.mem_range.1 ha), hab, localOf_coreAt (List.mem_range.1 hb)]
    · exact List.nodup_nil
  · have die {x f : Nat} (h : x ∈ (if (s.part p).dies.getLsbD f then
        ((List.range 256).map (coreAt f)).filter (fun g => !s.isMasked g) else [])) : dieOf x = f := by
      split at h
      · obtain ⟨l, hl, rfl⟩ := List.mem_map.1 (List.mem_filter.1 h).1
        exact dieOf_coreAt (List.mem_range.1 hl)
      · exact absurd h List.not_mem_nil
    exact fun x hd he => hde ((die hd).symm.trans (die he))

theorem insertByKey_eq (key : Nat → Nat) (x : Nat) (l : List Nat) :
    insertByKey key x l = l.orderedInsert (fun a b => key a < key b) x := by
  induction l with
  | nil => rfl
  | cons y t ih => rw [insertByKey, List.orderedInsert, ih]

theorem sortByKey_eq (key : Nat → Nat) (l : List Nat) :
    sortByKey key l = l.insertionSort (fun a b => key a < key b) := by
  induction l with
  | nil => rfl
  | cons x t ih =>
    show insertByKey key x (sortByKey key t) = _
    rw [insertByKey_eq, ih]
    rfl

theorem sortByKey_perm (key : Nat → Nat) (l : List Nat) : (sortByKey key l).Perm l := by
  rw [sortByKey_eq]
  exact List.perm_insertionSort ..

theorem insertByKey_sorted (key : Nat → Nat) (x : Nat) {l : List Nat} (h : l.Pairwise fun a b => key a ≤ key b) :
    (insertByKey key x l).Pairwise fun a b => key a ≤ key b := by
  induction l with
  | nil => exact List.pairwise_singleton ..
  | cons y t ih =>
    obtain ⟨hy, ht⟩ := List.pairwise_cons.1 h
    rw [insertByKey]
    split
    · rename_i hlt
      refine List.pairwise_cons.2 ⟨fun z hz => ?_, h⟩
      rcases List.mem_cons.1 hz with rfl | hz
      · exact hlt.le
      · exact hlt.le.trans (hy z hz)
    · rename_i hge
      refine List.pairwise_cons.2 ⟨fun z hz => ?_, ih ht⟩
      rw [insertByKey_eq, List.mem_orderedInsert] at hz
      rcases hz with rfl | hz
      · exact not_lt.1 hge
      · exact hy z hz

theorem sortByKey_sorted (key : Nat → Nat) (l : List Nat) : (sortByKey key l).Pairwise fun a b => key a ≤ key b := by
  induction l with
  | nil => exact .nil
  | cons x t ih => exact insertByKey_sorted key x ih

/-- R41: where a core stands among the victims of a thief: its die first, then by distance, die and local index. -/
def victimPlace (g c : Nat) : List Nat := [if dieOf c = dieOf g then 0 else 1, meshDist c g, dieOf c, localOf c]

/-- The place as one number. -/
def victimKey (g c : Nat) : Nat :=
  ((if dieOf c = dieOf g then 0 else 1) * 256 + meshDist c g) * 4096 + dieOf c * 256 + localOf c

theorem meshDist_lt {c g : Nat} (hc : c < 4096) (hg : g < 4096) : meshDist c g < 256 := by
  unfold meshDist coreX coreY; omega

theorem victimPlace_lt_of {g c d : Nat} (hg : g < 4096) (hc : c < 4096) (hd : d < 4096)
    (h : victimKey g c < victimKey g d) : victimPlace g c < victimPlace g d := by
  have h1 := meshDist_lt hc hg
  have h2 := meshDist_lt hd hg
  have h3 := dieOf_lt hc
  have h4 := dieOf_lt hd
  have h5 := localOf_lt c
  have h6 := localOf_lt d
  unfold victimKey at h
  unfold victimPlace
  simp only [List.cons_lt_cons_iff]
  generalize (if dieOf c = dieOf g then 0 else 1) = a at *
  generalize (if dieOf d = dieOf g then 0 else 1) = b at *
  omega

theorem victimKey_injOn {g c d : Nat} (hg : g < 4096) (hc : c < 4096) (hd : d < 4096)
    (h : victimKey g c = victimKey g d) : c = d := by
  have h1 := meshDist_lt hc hg
  have h2 := meshDist_lt hd hg
  have h3 := dieOf_lt hc
  have h4 := dieOf_lt hd
  have h5 := localOf_lt c
  have h6 := localOf_lt d
  unfold victimKey at h
  rw [← coreAt_dieOf_localOf c, ← coreAt_dieOf_localOf d, show dieOf c = dieOf d by omega, show localOf c = localOf d by omega]

theorem lt_of_partOf {s : State} {g p : Nat} (h : s.partOf g = some p) : g < 4096 := by
  unfold State.partOf at h
  split at h
  · contradiction
  · omega

theorem victims_eq {s : State} {g p : Nat} (h : s.partOf g = some p) :
    s.victims g = sortByKey (victimKey g) ((s.partCores p).filter (fun c => c ≠ g)) := by
  unfold State.victims
  rw [h]
  rfl

theorem mem_victims_iff {s : State} {g p : Nat} (h : s.partOf g = some p) (v : Nat) :
    v ∈ s.victims g ↔ v ∈ s.partCores p ∧ v ≠ g := by
  rw [victims_eq h, (sortByKey_perm ..).mem_iff, List.mem_filter, decide_eq_true_iff]

/-- R41: the victims in their order, no two of which have one place. -/
theorem victims_sorted {s : State} {g p : Nat} (h : s.partOf g = some p) :
    (s.victims g).Pairwise fun c d => victimPlace g c < victimPlace g d := by
  have hg := lt_of_partOf h
  have bound : ∀ c ∈ s.victims g, c < 4096 := fun c hc => lt_of_mem_partCores ((mem_victims_iff h c).1 hc).1
  have hnd : (s.victims g).Nodup := by
    rw [victims_eq h, (sortByKey_perm ..).nodup_iff]
    exact (nodup_partCores s p).filter _
  have hle : (s.victims g).Pairwise fun c d => victimKey g c ≤ victimKey g d := by
    rw [victims_eq h]
    exact sortByKey_sorted ..
  refine (hle.and hnd).imp_of_mem fun {c d} hc hd hcd => ?_
  have hc' := bound c hc
  have hd' := bound d hd
  exact victimPlace_lt_of hg hc' hd' (lt_of_le_of_ne hcd.1 fun e => hcd.2 (victimKey_injOn hg hc' hd' e))

/-- R41: the distance of two cores in the mesh. -/
theorem meshDist_eq (c d : Nat) : meshDist c d =
    ((c % 64 : Nat) - (d % 64 : Nat) : Int).natAbs + ((c / 64 : Nat) - (d / 64 : Nat) : Int).natAbs := by
  unfold meshDist coreX coreY; omega

end Sys2Proof.Threads
end

