-- ==== Sys2Proof/Proofs/TaskPlacing.lean ====
section
/-! SUPPORT. Sys2Proof/Proofs/TaskPlacing.lean: the events that place tasks (O40). -/

namespace Sys2Proof.Threads
open Sys2Proof.Machine Sys2Proof.Organisation

/-! ### The dispatcher and spawned tasks (R38, R39, R277) -/

theorem berth_of {s : State} {g n k b : Nat} (hk : s.freeSlot g = some k) (hb : s.firstFit g n = some b) :
    s.berth g n = some (k, b) := by
  unfold State.berth; rw [hk, hb]

theorem dispatchPick_of {s : State} {g k b : Nat} {r : TaskRec} (hm : s.mayBind g = true) (hw : s.migrantWaits g = false)
    (hh : s.hintedReady g = false) (hr : ((s.core g).level (!(s.core g).dqHigh.isEmpty)).getLast? = some r)
    (hk : s.freeSlot g = some k) (hb : s.firstFit g r.units = some b) :
    s.dispatchPick g = some (!(s.core g).dqHigh.isEmpty, r, k, b) := by
  unfold State.dispatchPick
  simp only [hm, hw, hh, hr, berth_of hk hb, Bool.not_true, Bool.or_self, Bool.false_eq_true, if_false, Option.map_some]

theorem dispatch_of {s : State} {g k b : Nat} {high : Bool} {r : TaskRec} (h : s.dispatchPick g = some (high, r, k, b)) :
    s.dispatch g = ((s.setLevel g high ((s.core g).level high).dropLast).bindTask g k r b .user none).boundNow g := by
  unfold State.dispatch; rw [h]

theorem dispatchPick_of_migrant {s : State} {g : Nat} (h : s.migrantWaits g = true) : s.dispatchPick g = none := by
  unfold State.dispatchPick
  exact if_pos (by simp [h])

theorem dispatch_of_none {s : State} {g : Nat} (h : s.dispatchPick g = none) : s.dispatch g = s := by
  unfold State.dispatch; rw [h]

theorem spawnEnqueue_of_ready {s : State} {o : Op} {r : TaskRec} (h : InFlight s o) (hk : o.kind = .spawn r)
    (hh : s.heldBack o = false) (hp : s.performedBefore o.g o.k o.id = true) :
    exec .spawnEnqueue s = .next ((s.spawned o).pushTask o.g r) := by
  show s.onOp _ = _
  rw [onOp_of_inFlight h]
  simp only [hk, hh, hp, Bool.not_true, Bool.or_self, Bool.false_eq_true, if_false]

/-- R277: the slot of a spawn whose task is placed goes on. -/
theorem slot_spawned {s : State} {o : Op} (h : o.live = true) : (s.spawned o).slot o.g o.k =
    { (s.endOp o).slot o.g o.k with blocked := none, pc := ((s.endOp o).slot o.g o.k).pc + 4 } := by
  rw [spawned_of_live h, slot_release, if_pos ⟨rfl, rfl⟩]

@[simp] theorem setCount_pc (x : Slot) (c : CClass) (n : Nat) : (x.setCount c n).pc = x.pc := by
  cases c <;> rfl

@[simp] theorem pc_endOp (s : State) (o : Op) (g k : Nat) : ((s.endOp o).slot g k).pc = (s.slot g k).pc := by
  rcases slot_endOp_apart s o g k with h | ⟨c, -, -, -, -, h⟩ <;> rw [h]
  exact setCount_pc ..

/-! ### Stealing (R41, R42) -/

theorem stealAsk_of {s : State} {g p v : Nat} (hp : s.partOf g = some p) (hrun : (s.part p).st = .running)
    (hm : s.isMasked g = false) (hf : (s.core g).frozen = none) (ha : (s.core g).steal.asked = false)
    (hr : (s.core g).steal.retryAt = none) (hh : (s.core g).dqHigh = []) (hn : (s.core g).dqNorm = [])
    (hk : (s.freeSlot g).isSome = true) (hv : (s.victims g)[(s.core g).steal.next]? = some v) :
    s.stealAsk g = (s.addFree g 0 (.stealReq v (s.longestRun g))).setCore g
      { s.core g with steal := { (s.core g).steal with asked := true } } := by
  unfold State.stealAsk
  simp [hp, hrun, hm, hf, ha, hr, hh, hn, Option.isSome_iff_ne_none.1 hk, hv]

theorem stealServe_event {s : State} {o : Op} {v run : Nat} (h : InFlight s o) (hk : o.kind = .stealReq v run) :
    exec .stealServe s = .next (s.stealServe o v run) := by
  show s.onOp _ = _
  rw [onOp_of_inFlight h, hk]

theorem stealServe_behind {s : State} {o : Op} {v run : Nat} (h : s.stealBehind o v = true) : s.stealServe o v run = s := by
  unfold State.stealServe
  exact if_pos h

/-- R42: the owner's dispatcher acts first, and a thief of a lower die and local index before one of a higher. -/
theorem stealBehind_iff (s : State) (o : Op) (v : Nat) : s.stealBehind o v = true ↔ (s.dispatchPick v).isSome = true ∨
    ∃ q ∈ s.ops, 256 * dieOf q.g + localOf q.g < 256 * dieOf o.g + localOf o.g ∧ ∃ n, q.kind = .stealReq v n := by
  unfold State.stealBehind
  rw [Bool.or_eq_true, List.any_eq_true]
  refine or_congr_right (exists_congr fun q => and_congr_right fun _ => ?_)
  rw [Bool.and_eq_true, decide_eq_true_iff]
  refine and_congr_right fun _ => ?_
  cases q.kind <;> simp

theorem stealServe_hands {s : State} {o : Op} {v run : Nat} {r : TaskRec} {rest : List TaskRec}
    (hb : s.stealBehind o v = false) (hl : (s.core v).level (!(s.core v).dqHigh.isEmpty) = r :: rest)
    (hf : (s.core v).frozen = none) (hu : r.units ≤ run) : let high := !(s.core v).dqHigh.isEmpty
    s.stealServe o v run = (s.setLevel v high rest).setKind o.id (.stealAns (some r) high) := by
  unfold State.stealServe
  simp only [hb, hl, hf, Bool.false_eq_true, if_false]
  exact if_neg (by simp; omega)

theorem stealServe_refuses {s : State} {o : Op} {v run : Nat} (hb : s.stealBehind o v = false)
    (h : (s.core v).level (!(s.core v).dqHigh.isEmpty) = [] ∨ (s.core v).frozen ≠ none ∨
      (∀ r, ((s.core v).level (!(s.core v).dqHigh.isEmpty)).head? = some r → run < r.units)) :
    s.stealServe o v run = s.setKind o.id (.stealAns none (!(s.core v).dqHigh.isEmpty)) := by
  unfold State.stealServe
  simp only [hb, Bool.false_eq_true, if_false]
  cases hl : (s.core v).level (!(s.core v).dqHigh.isEmpty) with
  | nil => rfl
  | cons r rest =>
    refine if_pos ?_
    rw [Bool.or_eq_true, decide_eq_true_iff, Option.isSome_iff_ne_none]
    rcases h with h | h | h
    · rw [hl] at h; contradiction
    · exact .inl h
    · exact .inr (h r (by rw [hl]; rfl))

theorem stealReply_event {s : State} {o : Op} {task : Option TaskRec} {hi : Bool} (h : InFlight s o)
    (hk : o.kind = .stealAns task hi) : exec .stealReply s = .next (s.stealTake o task) := by
  show s.onOp _ = _
  rw [onOp_of_inFlight h, hk]

theorem stealTake_takes {s : State} {o : Op} {r : TaskRec} (hl : s.levelOpen o.g r.high = true)
    (hf : (s.core o.g).frozen = none) : let u := (s.endOp o).pushTask o.g r
    s.stealTake o (some r) = u.setCore o.g { u.core o.g with steal := {} } := by
  unfold State.stealTake
  exact if_neg (by simp [hl, hf])

theorem stealTake_waits {s : State} {o : Op} {r : TaskRec}
    (h : s.levelOpen o.g r.high = false ∨ (s.core o.g).frozen ≠ none) : s.stealTake o (some r) = s := by
  unfold State.stealTake
  refine if_pos ?_
  rw [Bool.or_eq_true, Bool.not_eq_true', Option.isSome_iff_ne_none]
  exact h

/-- What a thief makes of a refusal: an abandoned sweep is over, the last victim's ends the sweep, and another's moves it on. -/
def refusedSteal (s : State) (g : Nat) : Steal :=
  let n := (s.core g).steal.next + 1
  if (s.core g).steal.stale then {}
  else if (s.victims g).length ≤ n then { next := 0, asked := false, retryAt := some ((s.core g).cyc + 256) }
  else { next := n, asked := false, retryAt := none }

theorem stealTake_refused {s : State} {o : Op} (hl : o.live = false) : s.stealTake o none =
    (s.dropOp o.id).setCore o.g { s.core o.g with steal := refusedSteal s o.g } := by
  unfold State.stealTake
  rw [endOp_of_released hl]
  rfl

/-! ### Hinted tasks (R43, R277) -/

/-- R277: the spawn that sent a hinted task goes on with the task's first move. -/
def goesOn (first : Bool) (o : Op) (u : State) : State := if first then u.release o.g o.k else u

theorem hintedTaskHop_event {s : State} {o : Op} {r : TaskRec} {pos target : Nat} {first : Bool} (h : InFlight s o)
    (hk : o.kind = .hinted r pos target first) (hp : first = true → s.performedBefore o.g o.k o.id = true) :
    exec .hintedTaskHop s = .next (s.hintedHop o r pos target first) := by
  show s.onOp _ = _
  rw [onOp_of_inFlight h, hk]
  refine congrArg _ (if_neg ?_)
  cases first with
  | false => simp
  | true => simp [hp rfl]

theorem hintedRoom_of {s : State} {o : Op} {r : TaskRec} {pos target k b : Nat} (hp : s.partOf pos = s.partOf o.g)
    (hd : meshDist pos target ≤ r.radius) (ht : s.takesTasks pos = true) (hk : s.freeSlot pos = some k)
    (hb : s.firstFit pos r.units = some b) : s.hintedRoom o r pos target = some (k, b) := by
  unfold State.hintedRoom
  rw [if_pos (by simp [hp, hd, ht]), berth_of hk hb]

/-- R43: where one of its conditions fails, a hinted task does not bind. -/
theorem hintedRoom_none {s : State} {o : Op} {r : TaskRec} {pos target : Nat} (h : s.partOf pos ≠ s.partOf o.g ∨
    r.radius < meshDist pos target ∨ s.takesTasks pos = false ∨ s.freeSlot pos = none ∨ s.firstFit pos r.units = none) :
    s.hintedRoom o r pos target = none := by
  unfold State.hintedRoom
  split
  · rename_i hc
    simp only [Bool.and_eq_true, decide_eq_true_eq] at hc
    obtain ⟨⟨hp, hd⟩, ht⟩ := hc
    unfold State.berth
    rcases h with h | h | h | h | h
    · exact absurd hp h
    · omega
    · simp [ht] at h
    · rw [h]
    · rw [h]
      cases s.freeSlot pos <;> rfl
  · rfl

section
variable {s : State} {o : Op} {r : TaskRec} {pos target : Nat} {first : Bool} (hl : o.live = first)
include hl

theorem hintedHop_binds {k b : Nat} (hr : s.hintedRoom o r pos target = some (k, b)) (hb : (s.core pos).boundThisCycle = false)
    (hm : s.migrantReady pos = false) :
    s.hintedHop o r pos target first = ((goesOn first o (s.endOp o)).bindTask pos k r b .user none).boundNow pos := by
  unfold State.hintedHop
  simp only [hr, hb, hm, hl, Bool.or_self, Bool.and_self, Bool.false_eq_true, if_false]
  rfl

variable (hr : s.hintedRoom o r pos target = none)
include hr

theorem hintedHop_passes (hne : pos ≠ target) : s.hintedHop o r pos target first =
    goesOn first o (s.setKind o.id (.hinted r (nextHop pos target) target false)) := by
  unfold State.hintedHop
  simp only [hr, hl, Bool.and_self, if_pos hne]
  rfl

theorem hintedHop_joins (he : pos = target) (hf : (s.core target).frozen = none) (ho : s.levelOpen target r.high = true) :
    s.hintedHop o r pos target first = (goesOn first o (s.endOp o)).pushTask target r := by
  subst he
  unfold State.hintedHop
  simp only [hr, hl, hf, ho, Bool.and_self, ne_eq, not_true_eq_false, if_false, Option.isNone_none, if_true]
  rfl

theorem hintedHop_waits (he : pos = target) (ho : s.levelOpen target r.high = false) : s.hintedHop o r pos target first =
    if first then goesOn first o (s.setKind o.id (.hinted r target target false)) else s := by
  subst he
  unfold State.hintedHop
  simp only [hr, hl, ho, Bool.and_self, ne_eq, not_true_eq_false, if_false, Bool.and_false, Bool.false_eq_true]
  rfl

end

theorem level_goesOn (first : Bool) (o : Op) (u : State) (g : Nat) (l : Bool) :
    ((goesOn first o u).core g).level l = (u.core g).level l := by
  unfold goesOn
  split
  · exact level_release ..
  · rfl

theorem slot_goesOn (first : Bool) (o : Op) (u : State) : (goesOn first o u).slot o.g o.k =
    if first then { u.slot o.g o.k with blocked := none, pc := (u.slot o.g o.k).pc + 4 } else u.slot o.g o.k := by
  unfold goesOn
  split
  · rw [slot_release, if_pos ⟨rfl, rfl⟩]
  · rfl

/-! ### Held continuations (R48) -/

theorem placeHeld_frozen {s : State} {g : Nat} (h : (s.core g).frozen ≠ none) : s.placeHeld g = s := by
  unfold State.placeHeld
  rw [if_pos (Option.isSome_iff_ne_none.2 h)]

theorem placeHeld_of {s : State} {g : Nat} {c : HeldCont} (hf : (s.core g).frozen = none)
    (hc : (s.core g).conts.find? (fun c => s.levelRoom g c.task.high) = some c) :
    s.placeHeld g = ((s.setCore g { s.core g with conts := (s.core g).conts.erase c }).pushTask g c.task).parentDec g
      c.parent c.err := by
  unfold State.placeHeld
  rw [if_neg (by simp [hf]), hc]

@[simp] theorem core_parentDec (s : State) (srv : Nat) (q : Option Nat) (e : Bool) (g : Nat) :
    (s.parentDec srv q e).core g = s.core g := by
  unfold State.parentDec; cases q <;> rfl

theorem parentDec_ops (s : State) (srv : Nat) (q : Nat) (e : Bool) :
    ∃ o ∈ (s.parentDec srv (some q) e).ops, o.kind = .node q 0 (.dec e) false :=
  ⟨_, List.mem_append.2 (.inr List.mem_cons_self), rfl⟩

/-- Settles O40: each event is the operation of its lemma above, and slots, windows and levels are what their `iff` lemmas say. -/
theorem taskPlacing : Obligations.TaskPlacing := by
  unfold Obligations.TaskPlacing
  intro s g hg
  refine ⟨fun p hp => ⟨mem_victims_iff hp, victims_sorted hp, mem_partCores_iff s p, meshDist_eq⟩,
    fun r k b hm hw hh hr hk hb => ?_, fun o r h hk hh hp hl => ?_, fun p v hp hrun hm hf ha hr hh hn hk hv => ?_,
    fun o v run h hk => ⟨fun hd => ?_, fun q hq n hn hlt => ?_, fun hb => ⟨fun r rest hl hf hu => ?_, fun hl => ?_⟩⟩,
    fun o hi h hl => ⟨fun r hk ho hf => ?_, fun r hk ho => ?_, fun hk hst => ?_, fun hk hst hlen => ?_, fun hk hst hlen => ?_⟩,
    fun c hc hle => ?_, fun o r pos target first h hk hl hp => ?_, fun hf => ?_, fun c hf hc => ?_, freeSlot_eq_some_iff s g,
    fun n hn => firstFit_eq_some_iff s g hn, fun hw => ?_, fun high => ⟨levelOpen_iff .., levelRoom_iff ..⟩⟩
  · show Host.Outcome.next (s.dispatch s.ev.g) = _
    rw [hg, dispatch_of (dispatchPick_of hm hw hh hr hk hb)]
  · refine ⟨_, spawnEnqueue_of_ready h hk hh hp, ?_, ?_, ?_, ?_, ?_⟩
    · rw [level_pushTask, if_pos rfl, level_spawned]
    · rw [slot_pushTask, slot_spawned hl]
    · rw [slot_pushTask, slot_spawned hl, pc_endOp]
    · rw [op?_pushTask, op?_spawned]
    · rw [pushTask_mem, spawned_mem]
  · refine ⟨_, rfl, ?_⟩
    show ((s.stealAsk s.ev.g).core g).steal.asked = true ∧ _
    rw [hg, stealAsk_of hp hrun hm hf ha hr hh hn hk hv]
    exact ⟨by rw [core_setCore, if_pos rfl], rfl, _, List.mem_append.2 (.inr List.mem_cons_self), rfl, rfl, rfl⟩
  · rw [stealServe_event h hk, stealServe_behind ((stealBehind_iff ..).2 (.inl hd))]
  · rw [stealServe_event h hk, stealServe_behind ((stealBehind_iff ..).2 (.inr ⟨q, hq, hlt, n, hn⟩))]
  · rw [stealServe_event h hk, stealServe_hands hb hl hf hu]
  · rw [stealServe_event h hk, stealServe_refuses hb hl]
  · refine ⟨_, stealReply_event h hk, ?_⟩
    rw [stealTake_takes ho hf]
    refine ⟨?_, by rw [core_setCore, if_pos rfl], ?_⟩
    · have e := level_pushTask (s.endOp o) o.g r r.high
      rw [if_pos rfl, level_endOp] at e
      rw [core_setCore, if_pos rfl, ← e]
      cases r.high <;> rfl
    · exact (op?_pushTask ..).trans (op?_endOp s o)
  · rw [stealReply_event h hk, stealTake_waits ho]
  · refine ⟨_, stealReply_event h hk, ?_⟩
    rw [stealTake_refused hl, core_setCore, if_pos rfl]
    exact ⟨if_pos hst, op?_dropOp s o.id⟩
  · refine ⟨_, stealReply_event h hk, ?_⟩
    rw [stealTake_refused hl, core_setCore, if_pos rfl]
    exact (if_neg (by simp [hst])).trans (if_pos hlen)
  · refine ⟨_, stealReply_event h hk, ?_⟩
    rw [stealTake_refused hl, core_setCore, if_pos rfl]
    exact (if_neg (by simp [hst])).trans (if_neg (by omega))
  · show Host.Outcome.next (match (s.core s.ev.g).steal.retryAt with
      | some t => if t ≤ (s.core s.ev.g).cyc then s.setCore s.ev.g { s.core s.ev.g with steal := {} } else s
      | none => s) = _
    rw [hg, hc]
    exact congrArg _ (if_pos hle)
  · rw [hintedTaskHop_event h hk hp]
    refine ⟨fun hr hne => ?_, fun k b hpart hd ht hb hm hk hfit => ?_, fun hr he hf ho => ⟨?_, ?_⟩, fun hr he ho => ?_, hintedRoom_none,
      slot_goesOn first o s⟩
    · rw [hintedHop_passes hl hr hne]
      rfl
    · rw [hintedHop_binds hl (hintedRoom_of hpart hd ht hk hfit) hb hm]
      rfl
    · rw [hintedHop_joins hl (he ▸ hr) he hf ho]
      rfl
    · refine (level_pushTask ..).trans ((if_pos rfl).trans ?_)
      exact congrArg (· ++ [r]) ((level_goesOn first o (s.endOp o) target r.high).trans (level_endOp ..))
    · rw [hintedHop_waits hl (he ▸ hr) he ho]
      rfl
  · show Host.Outcome.next (s.placeHeld s.ev.g) = _
    rw [hg, placeHeld_frozen hf]
  · refine ⟨_, rfl, ?_⟩
    show ((s.placeHeld s.ev.g).core g).conts = _ ∧ _
    rw [hg, placeHeld_of hf hc]
    refine ⟨?_, ?_, fun q hq => ?_⟩
    · rw [core_parentDec, conts_pushTask, core_setCore, if_pos rfl]
    · rw [core_parentDec, level_pushTask, if_pos rfl, core_setCore, if_pos rfl]
      cases c.task.high <;> rfl
    · rw [hq]
      exact parentDec_ops ..
  · show Host.Outcome.next (s.dispatch s.ev.g) = _
    rw [hg, dispatch_of_none (dispatchPick_of_migrant hw)]

end Sys2Proof.Threads
end

