-- ==== Sys2Proof/Proofs/Gangs.lean ====
section
/-! SUPPORT. Sys2Proof/Proofs/Gangs.lean: the admission, the reservation and the binding of gangs, and the arrival of
migrating threads (O41). -/

namespace Sys2Proof.Threads
open Sys2Proof.Machine Sys2Proof.Organisation

/-! ### Admission (R46, step 1, R265, R285, R416) -/

/-- R265, R285: a request that nothing holds back before the pkg node. -/
def Arrives (s : State) (q : Op) : Prop :=
  s.frozenOut q = false ∧ (q.live = true → s.performedBefore q.g q.k q.id = true)

theorem gangArrives_iff (s : State) (q : Op) :
    s.gangArrives q = true ↔ Arrives s q ∧ ∃ r c, q.kind = .gangReq r c := by
  unfold State.gangArrives Arrives
  cases q.kind <;> cases q.live <;> simp

/-- R416: no request that arrives with it goes before. -/
theorem gangBehind_eq_false_iff (s : State) (o : Op) : s.gangBehind o = false ↔ ∀ q ∈ s.ops, s.partOf q.g = s.partOf o.g →
    (∃ r c, q.kind = .gangReq r c) → Arrives s q → q.outranks o = false := by
  simp only [State.gangBehind, List.any_eq_false, Bool.and_eq_true, decide_eq_true_eq, gangArrives_iff]
  refine forall₂_congr fun q _ => ?_
  cases q.outranks o <;> simp
  tauto

section
variable {s : State} {o : Op} {r : TaskRec} {cores : List Nat} (h : InFlight s o) (hk : o.kind = .gangReq r cores)
include h hk

theorem gangAdmit_event : exec .gangAdmit s =
    .next (if !s.gangArrives o || s.gangBehind o then s else s.gangAdmitted o r cores) := by
  show s.onOp _ = _
  rw [onOp_of_inFlight h, hk]

theorem gangAdmit_held (hn : ¬ (Arrives s o ∧ s.gangBehind o = false)) : exec .gangAdmit s = .next s := by
  rw [gangAdmit_event h hk, if_pos]
  rw [Bool.or_eq_true, Bool.not_eq_true', Bool.eq_false_iff, Ne, gangArrives_iff, ← Bool.not_eq_false]
  by_contra hc
  exact hn ⟨by_contra fun ha => hc (.inl fun e => ha e.1), by_contra fun hb => hc (.inr hb)⟩

theorem gangAdmit_of {p : Nat} (hp : s.partOf o.g = some p) (ha : Arrives s o) (hb : s.gangBehind o = false) :
    exec .gangAdmit s = .next { s.spawned o with
      gangs := (s.spawned o).gangs ++ [{ id := o.id, task := r, cores := cores, part := p }] } := by
  rw [gangAdmit_event h hk, if_neg (by simp [hb, (gangArrives_iff s o).2 ⟨ha, r, cores, hk⟩]), State.gangAdmitted, hp]

end

theorem spawned_gangs (s : State) (o : Op) : (s.spawned o).gangs = s.gangs := by
  unfold State.spawned
  simp only
  split <;> simp

/-! ### Reservation (R46, steps 2 to 4) -/

/-- Two gangs have a core in common. -/
def Share (x y : Gang) : Prop := ∃ c ∈ x.cores, c ∈ y.cores

theorem meets_iff (x y : Gang) : x.meets y = true ↔ Share x y := by
  simp only [Gang.meets, Share, List.any_eq_true, List.contains_iff_mem]
  exact exists_congr fun _ => and_comm

/-- No gang that is reserving shares a core with it. -/
def Unblocked (s : State) (x : Gang) : Prop := ∀ b ∈ s.gangs, b.id ≠ x.id → b.st = .reserving → ¬ Share x b

theorem gangBlocked_eq_false_iff (s : State) (x : Gang) : s.gangBlocked x = false ↔ Unblocked s x := by
  simp only [State.gangBlocked, Unblocked, List.any_eq_false, Bool.and_eq_true, decide_eq_true_eq, meets_iff, not_and]
  exact forall₂_congr fun b _ => ⟨fun h hne hst => h ⟨hne, hst⟩, fun h ⟨hne, hst⟩ => h hne hst⟩

/-- A gang admitted before it, which nothing blocks, shares a core with it (log 102). -/
def Ahead (s : State) (a : Gang) : Prop :=
  ∃ b ∈ s.gangs.takeWhile (fun b => b.id ≠ a.id), b.st = .admitted ∧ Share a b ∧ Unblocked s b

theorem gangAhead_iff (s : State) (a : Gang) : s.gangAhead a = true ↔ Ahead s a := by
  simp only [State.gangAhead, Ahead, List.any_eq_true, Bool.and_eq_true, decide_eq_true_eq, meets_iff, Bool.not_eq_true',
    gangBlocked_eq_false_iff, and_assoc]

/-- The lowest of n slot numbers that is vacant on all of some cores, 0 where there is none. -/
def gangSlot (s : State) (cores : List Nat) (n : Nat) : Nat :=
  ((List.range n).find? (fun k => cores.all (fun c => !(s.slot c k).bound))).getD 0

/-- R46, step 3: what the slot number of a gang is. -/
theorem gangSlot_spec (s : State) (cores : List Nat) {n : Nat} (hn : 0 < n) : let k := gangSlot s cores n
    k < n ∧ (∀ j < k, ∃ c ∈ cores, (s.slot c j).bound = true) ∧
      ((∃ j < n, ∀ c ∈ cores, (s.slot c j).bound = false) → ∀ c ∈ cores, (s.slot c k).bound = false) ∧
      ((∀ j < n, ∃ c ∈ cores, (s.slot c j).bound = true) → k = 0) := by
  have hall (j : Nat) : cores.all (fun c => !(s.slot c j).bound) = true ↔ ∀ c ∈ cores, (s.slot c j).bound = false := by
    simp
  have hnot (j : Nat) : (¬ ∀ c ∈ cores, (s.slot c j).bound = false) ↔ ∃ c ∈ cores, (s.slot c j).bound = true := by simp
  unfold gangSlot
  cases hf : (List.range n).find? (fun k => cores.all (fun c => !(s.slot c k).bound)) with
  | some k =>
    obtain ⟨⟨hk, hv⟩, hlow⟩ := (find?_range_iff (P := fun j => j < n ∧ ∀ c ∈ cores, (s.slot c j).bound = false)
      fun j => and_congr_right fun _ => (hall j).symm).1 hf
    refine ⟨hk, fun j hj => (hnot j).1 fun e => hlow j hj ⟨hj.trans hk, e⟩, fun _ => hv, fun h => ?_⟩
    exact absurd hv ((hnot k).2 (h k hk))
  | none =>
    rw [List.find?_range_eq_none] at hf
    refine ⟨hn, fun j hj => absurd hj (Nat.not_lt_zero j), fun ⟨j, hj, h⟩ => ?_, fun _ => rfl⟩
    have := hf j hj
    rw [(hall j).2 h] at this
    contradiction

/-- R39, R46: how many slot numbers a gang may take. -/
def gangSlots (s : State) (cores : List Nat) : Nat := if cores.any (fun c => s.isKeystone c 63) then 63 else 64

theorem gangSlots_bounds (s : State) (cores : List Nat) : 0 < gangSlots s cores ∧ gangSlots s cores ≤ 64 := by
  unfold gangSlots
  split <;> omega

section
variable {s : State} {a : Gang} (ha : s.gangs.find? (fun b => b.id = s.ev.id) = some a)
include ha

theorem gang_id : a.id = s.ev.id := by simpa using List.find?_some ha

theorem gangReserve_held (h : ¬ Unblocked s a ∨ Ahead s a) : exec .gangReserve s = .next s := by
  show Host.Outcome.next (s.gangStart s.ev.id) = _
  unfold State.gangStart
  rw [ha]
  refine congrArg _ (if_pos ?_)
  rw [Bool.or_eq_true, Bool.or_eq_true, gangAhead_iff, ← Bool.not_eq_false (s.gangBlocked a), gangBlocked_eq_false_iff]
  tauto

theorem gangReserve_of (hst : a.st = .admitted) (hu : Unblocked s a) (hh : ¬ Ahead s a) : exec .gangReserve s = .next { s with
    gangs := s.gangs.map (fun b => if b.id = a.id then
      { b with st := .reserving, slot := gangSlot s a.cores (gangSlots s a.cores) } else b) } := by
  show Host.Outcome.next (s.gangStart s.ev.id) = _
  unfold State.gangStart
  rw [ha, gang_id ha]
  refine congrArg _ ((if_neg ?_).trans rfl)
  rw [Bool.or_eq_true, Bool.or_eq_true, gangAhead_iff, (gangBlocked_eq_false_iff s a).2 hu]
  simp [hst, hh]

theorem gangCoreReserve_of {b : Nat} (hst : a.st = .reserving) (hm : s.ev.g ∈ a.cores) (hh : Sparse.has a.held s.ev.g = false)
    (hb : (s.slot s.ev.g a.slot).bound = false) (hf : (s.core s.ev.g).frozen = none)
    (hfit : s.firstFit s.ev.g a.task.units = some b) : exec .gangCoreReserve s = .next { s with
      gangs := s.gangs.map (fun c => if c.id = a.id then { c with held := Sparse.put c.held s.ev.g b } else c) } := by
  show Host.Outcome.next (s.gangHold s.ev.id s.ev.g) = _
  unfold State.gangHold
  rw [ha, gang_id ha]
  simp only [hst, hh, hb, hf, hfit, ne_eq, not_true_eq_false, decide_false, List.contains_iff_mem.2 hm, Bool.not_true,
    Bool.or_self, Option.isSome_none, Bool.false_eq_true, if_false]

end

/-! ### The binding of all members (R46, step 5) -/

/-- The binding of one member of a gang. -/
def bindMember (a : Gang) (s : State) (e : Nat × Nat) : State :=
  s.bindTask e.2 a.slot a.task (Sparse.get 0 a.held e.2) .user (some (a.id, e.1, a.cores.length))

theorem foldl_bindMember_other (a : Gang) {l : List (Nat × Nat)} {c : Nat} (h : ∀ e ∈ l, e.2 ≠ c) (s : State) :
    (l.foldl (bindMember a) s).core c = s.core c := by
  induction l generalizing s with
  | nil => rfl
  | cons e l ih =>
    rw [List.foldl_cons, ih fun f hf => h f (List.mem_cons_of_mem _ hf)]
    exact core_bindTask_other _ _ _ _ _ _ _ (h e List.mem_cons_self).symm

/-- Where no core stands twice, a member's core is what its own binding leaves. -/
theorem foldl_bindMember_self (a : Gang) {l : List (Nat × Nat)} (hnd : (l.map (·.2)).Nodup) {e : Nat × Nat} (he : e ∈ l)
    (s : State) : ∃ u : State, u.core e.2 = s.core e.2 ∧ (l.foldl (bindMember a) s).core e.2 = (bindMember a u e).core e.2 := by
  induction l generalizing s with
  | nil => exact absurd he List.not_mem_nil
  | cons f l ih =>
    obtain ⟨hf, hnd⟩ := List.nodup_cons.1 hnd
    rw [List.foldl_cons]
    by_cases hfe : f.2 = e.2
    · have hother : ∀ d ∈ l, d.2 ≠ e.2 := fun d hd hde => hf (List.mem_map.2 ⟨d, hd, hde.trans hfe.symm⟩)
      obtain rfl : e = f := (List.mem_cons.1 he).resolve_right fun h => hother e h rfl
      exact ⟨s, rfl, foldl_bindMember_other a hother _⟩
    · obtain ⟨u, hu, h⟩ := ih hnd ((List.mem_cons.1 he).resolve_left fun h => hfe (by rw [h])) (bindMember a s f)
      exact ⟨u, hu.trans (core_bindTask_other _ _ _ _ _ _ _ (Ne.symm hfe)), h⟩

theorem cell_of_core {s t : State} {g : Nat} (h : t.core g = s.core g) (c : Nat) : t.cell g c = s.cell g c := by
  unfold State.cell; rw [h]

section
variable {s : State} {a : Gang} (ha : s.gangs.find? (fun b => b.id = s.ev.id) = some a)
include ha

theorem gangBind_of (hst : a.st = .reserving) (hne : a.cores ≠ []) (hheld : ∀ c ∈ a.cores, Sparse.has a.held c = true)
    (hf : ∀ c ∈ a.cores, (s.core c).frozen = none) : ∃ gs, exec .gangBind s =
      .next (((List.range a.cores.length).zip a.cores).foldl (bindMember a) { s with gangs := gs }) := by
  refine ⟨s.gangs.map (fun b => if b.id = a.id then
    { b with st := .bound, counts := List.replicate a.cores.length (some 0) } else b), ?_⟩
  show Host.Outcome.next (s.gangBindAll s.ev.id) = _
  unfold State.gangBindAll
  rw [ha]
  refine congrArg _ ((if_neg ?_).trans ?_)
  · simp only [Bool.or_eq_true, decide_eq_true_eq, Bool.not_eq_true', List.isEmpty_iff, hst, hne, List.any_eq_true]
    rintro (((h | h) | h) | ⟨c, hc, h⟩)
    · exact h rfl
    · exact h
    · rw [List.all_eq_true.2 hheld] at h
      contradiction
    · rw [hf c hc] at h
      contradiction
  · rw [← gang_id ha]
    rfl

/-- R46, step 5: the slot and the cells of each member. -/
theorem gangBind_member (hst : a.st = .reserving) (hne : a.cores ≠ []) (hheld : ∀ c ∈ a.cores, Sparse.has a.held c = true)
    (hnd : a.cores.Nodup) (hf : ∀ c ∈ a.cores, (s.core c).frozen = none) : ∃ t, exec .gangBind s = .next t ∧
      ∀ j c, a.cores[j]? = some c → let b := Sparse.get 0 a.held c
        t.slot c a.slot = boundSlot (s.slot c a.slot) a.task b .user (some (a.id, j)) ∧
        (8 * b + a.task.wcells ≤ numCells c → ∀ i < a.task.wcells, t.cell c (8 * b + i) =
          (taskCells a.task (some (a.id, j, a.cores.length))).getD i {}) := by
  obtain ⟨gs, h⟩ := gangBind_of ha hst hne hheld hf
  refine ⟨_, h, fun j c hj => ?_⟩
  have hmem : (j, c) ∈ (List.range a.cores.length).zip a.cores := by
    obtain ⟨hlt, hc⟩ := List.getElem?_eq_some_iff.1 hj
    exact List.mem_iff_getElem.2 ⟨j, by simpa using hlt, by simp [hc]⟩
  have hnd' : (((List.range a.cores.length).zip a.cores).map (·.2)).Nodup := by
    rw [List.map_snd_zip (by simp)]
    exact hnd
  obtain ⟨u, hu, ht⟩ := foldl_bindMember_self a hnd' hmem { s with gangs := gs }
  refine ⟨?_, fun hn i hi => ?_⟩
  · rw [slot_of_core ht, bindMember, slot_bindTask, if_pos ⟨rfl, rfl⟩, slot_of_core hu]
    rfl
  · rw [cell_of_core ht, bindMember, cell_bindTask _ _ _ _ _ _ _ hn, if_pos ⟨rfl, by omega⟩, Nat.add_sub_cancel_left]

end

/-! ### Migrating threads (R51, R271) -/

theorem migArrival_event {s : State} {o : Op} {m : Migrant} (h : InFlight s o) (hk : o.kind = .migrant m) :
    exec .migArrival s = .next (s.migrantBind o m) := by
  show s.onOp _ = _
  rw [onOp_of_inFlight h, hk]

theorem mem_migrants_iff (s : State) (g : Nat) (q : Op) :
    q ∈ s.migrants g ↔ q ∈ s.ops ∧ ∃ m, q.kind = .migrant m ∧ m.target = g := by
  unfold State.migrants
  rw [List.mem_filter]
  refine and_congr_right fun _ => ?_
  cases q.kind <;> simp

theorem berth_none {s : State} {g n : Nat} (h : s.freeSlot g = none ∨ s.firstFit g n = none) : s.berth g n = none := by
  unfold State.berth
  rcases h with h | h <;> rw [h]
  cases s.freeSlot g <;> rfl

/-- R271: a thread that cannot bind takes its place among those that wait. -/
theorem migrantBind_waits {s : State} {o : Op} {m : Migrant} (h : (s.core m.target).frozen ≠ none ∨
    (∃ q ∈ s.migrants m.target, q.before o = true) ∨ s.freeSlot m.target = none ∨
    s.firstFit m.target ((m.wlim.toNat + 7) / 8) = none) : s.migrantBind o m = s.migrantWait o m.target := by
  unfold State.migrantBind
  simp only
  split
  · rfl
  · rename_i hn
    simp only [Bool.or_eq_true, not_or, List.any_eq_true, Bool.not_eq_true, Option.isSome_eq_false_iff, Option.isNone_iff_eq_none] at hn
    rw [berth_none ((h.resolve_left fun e => e hn.1).resolve_left hn.2)]

theorem migrantWait_keeps {s : State} {o : Op} {g : Nat}
    (h : o.arr ≠ none ∨ ∃ q ∈ s.migrants g, q.arr = none ∧ q.outranks o = true) : s.migrantWait o g = s := by
  unfold State.migrantWait
  refine if_pos ?_
  rw [Bool.or_eq_true, Option.isSome_iff_ne_none, List.any_eq_true]
  simpa using h

theorem migrantWait_arrives {s : State} {o : Op} {g : Nat} (ha : o.arr = none)
    (h : ∀ q ∈ s.migrants g, q.arr = none → q.outranks o = false) : s.migrantWait o g = s.arrived o := by
  unfold State.migrantWait
  refine if_neg ?_
  rw [ha, Bool.or_eq_true, List.any_eq_true]
  simpa using h

/-- R51: what a slot is when a migrated thread has bound to it. -/
def arrivedSlot (x : Slot) (m : Migrant) (b : Nat) : Slot :=
  { x.kept with
    bound := true, pc := m.pc, level := m.level, wbase := BitVec.ofNat 11 (8 * b), wlim := m.wlim, allocBase := b,
    allocUnits := (m.wlim.toNat + 7) / 8, pred := m.pred, prec := m.prec, vctl := m.vctl, fctl := m.fctl,
    task := m.task, moved := m.members, gang := m.gang, syncs := m.syncs }

theorem migrantBind_binds {s : State} {o : Op} {m : Migrant} {k b : Nat} (hf : (s.core m.target).frozen = none)
    (hq : ∀ q ∈ s.migrants m.target, q.before o = false) (hk : s.freeSlot m.target = some k)
    (hb : s.firstFit m.target ((m.wlim.toNat + 7) / 8) = some b) : s.migrantBind o m =
      (((s.endOp o).setSlot m.target k (arrivedSlot ((s.endOp o).slot m.target k) m b)).fillWindow m.target (8 * b)
        m.wlim.toNat m.cells).trace m.target 7 k m.pc.toNat 0 := by
  unfold State.migrantBind
  simp only [berth_of hk hb]
  refine if_neg ?_
  rw [hf, Bool.or_eq_true, List.any_eq_true]
  simpa using hq

theorem op?_of_ops {s t : State} (h : t.ops = s.ops) (id : Nat) : t.op? id = s.op? id := by
  unfold State.op?; rw [h]

/-- R271: the order of those that wait at a core. -/
theorem outranks_iff (p o : Op) : p.outranks o = true ↔ 64 * p.g + p.k < 64 * o.g + o.k ∨
    (64 * p.g + p.k = 64 * o.g + o.k ∧ p.id < o.id) := by
  simp only [Op.outranks, Bool.or_eq_true, Bool.and_eq_true, decide_eq_true_eq]
  rfl

/-- Settles O41: admission, reservation, binding and arrival are each one operation of the model, under the conditions above. -/
theorem gangsAndMigrants : Obligations.GangsAndMigrants := by
  unfold Obligations.GangsAndMigrants
  intro s
  refine ⟨fun o r cores p h hk hp => ⟨fun hn => ?_, fun ha hb => ?_⟩, fun a ha => ⟨fun hst hn => gangReserve_held ha hn,
    fun hst hu hh => ?_, fun b hst hm hh hb hf hfit => gangCoreReserve_of ha hst hm hh hb hf hfit, fun hst hne hheld hnd hf => ?_⟩,
    ?_, fun p o => ⟨fun a b hpa hob => ?_, fun hpa hob => ?_, fun hpa hob => ?_, fun hpa hob => ?_⟩,
    fun o m k b h hk hcls hf hq hslot hfit => ?_⟩
  · exact gangAdmit_held h hk fun e => hn ⟨e.1, (gangBehind_eq_false_iff s o).1 e.2⟩
  · refine ⟨_, gangAdmit_of h hk hp ha ((gangBehind_eq_false_iff s o).2 hb), op?_spawned s o, spawned_mem s o, ?_, ?_⟩
    · rw [spawned_gangs]
    · show (s.spawned o).slot o.g o.k = _
      cases hl : o.live
      · simp [State.spawned, hl]
      · exact (slot_spawned hl).trans (if_pos rfl).symm
  · obtain ⟨hpos, hle⟩ := gangSlots_bounds s a.cores
    obtain ⟨hk, hlow, hv, hz⟩ := gangSlot_spec s a.cores hpos
    exact ⟨_, _, gangReserve_of ha hst hu hh, rfl, hk.trans_le hle, hlow, ⟨fun h => ⟨hk, hv h⟩, hz⟩, rfl, rfl⟩
  · obtain ⟨t, ht, hall⟩ := gangBind_member ha hst hne hheld hnd hf
    refine ⟨t, ht, fun j c hj => ?_⟩
    obtain ⟨hslot, hcell⟩ := hall j c hj
    rw [hslot]
    refine ⟨rfl, rfl, rfl, node_address a.task, fun h8 h128 hn => ⟨entry_address a.task, rfl, rfl, ?_, fun i hi hiw => ?_⟩⟩
    · refine (List.map_congr_left fun i hi => hcell hn i ?_).trans rfl
      have := List.mem_range.1 hi
      omega
    · exact (hcell hn i hiw).trans (List.getD_eq_default _ _ hi)
  · intro o m h hk here hn
    have hw : s.migrantBind o m = s.migrantWait o m.target := by
      refine migrantBind_waits (hn.imp_right (.imp_left ?_))
      exact fun ⟨q, hq, hb⟩ => ⟨q, (mem_migrants_iff ..).2 hq, hb⟩
    rw [migArrival_event h hk, hw]
    refine ⟨fun ha => ?_, fun ha ⟨q, hq, hqa, hr⟩ => ?_, fun ha hq => ?_⟩
    · rw [migrantWait_keeps (.inl ha)]
    · rw [migrantWait_keeps (.inr ⟨q, (mem_migrants_iff ..).2 hq, hqa, hr⟩)]
    · rw [migrantWait_arrives ha fun q hm => hq q ((mem_migrants_iff ..).1 hm)]
      exact ⟨_, rfl, op?_mapOp (s := s) (fun _ => rfl) (inFlight_op? h), rfl, rfl, rfl⟩
  · simp [Op.before, hpa, hob]
  · obtain ⟨a, ha⟩ := Option.ne_none_iff_exists'.1 hpa
    simp [Op.before, ha, hob]
  · obtain ⟨b, hb⟩ := Option.ne_none_iff_exists'.1 hob
    simp [Op.before, hpa, hb]
  · rw [← outranks_iff]
    simp [Op.before, hpa, hob]
  · have hbind := (migArrival_event h hk).trans (congrArg _ (migrantBind_binds hf (fun q hm => by
      obtain ⟨ho, m', hkind, htg⟩ := (mem_migrants_iff ..).1 hm
      exact hq q ho m' hkind htg) hslot hfit))
    refine ⟨fun hn => ⟨_, hbind, fun i hi => ?_⟩, _, hbind, ?_, ?_⟩
    · rw [cell_trace, cell_fillWindow hn, if_pos ⟨rfl, by omega⟩, Nat.add_sub_cancel_left]
    · rw [op?_of_ops ((trace_ops ..).trans (fillWindow_ops ..))]
      exact op?_endOp s o
    · rw [slot_trace, slot_fillWindow, slot_setSlot, if_pos ⟨rfl, rfl⟩]
      exact ⟨rfl, rfl, rfl, rfl, rfl, rfl, rfl, rfl, rfl, rfl, rfl, rfl, rfl, rfl, rfl, rfl, rfl, rfl, rfl⟩

end Sys2Proof.Threads
end

