-- ==== Sys2Proof/Proofs/CounterNodes.lean ====
section
/-! SUPPORT. Sys2Proof/Proofs/CounterNodes.lean: a state in which a fence record does not read as it was written (O42). -/

namespace Sys2Proof.Threads
open Sys2Proof.Machine Sys2Proof.Organisation

/-! ### A state that lists a byte of memory twice

O42 speaks of every state, also of those whose memory is not canonical. In the one below the byte that a fence record's NUMBER
begins at is listed twice, so that writing a 0 to it takes the one entry out and leaves the other to be read. -/

/-- The place of the first fence record's NUMBER in the host block of core 0 (R332). -/
def numberAt : Nat := chanBase 0 + 0x1FDF0000 + 0x40 + 24

/-- A node at 0 whose EVENTS has FENCE alone, in the partition of die 0, and the byte at the number's place twice. -/
def twiceListed : State := { mem := [(24, 4), (numberAt, 1), (numberAt, 1)], parts := [(0, { dies := 1 })] }

/-- The node names no continuation and no parent, and its actions write a record. -/
theorem twiceListed_node : twiceListed.read64 8 = 0 ∧ twiceListed.read64 16 = 0 ∧ twiceListed.read64 24 = 4 ∧
    twiceListed.partOf 0 = some 0 ∧ twiceListed.firstCore 0 = some 0 ∧ twiceListed.read64 (chanBase 0 + 0x1FDF0000) = 0 := by
  decide +kernel

/-- The record's number is to be 0, and the byte is read as before. -/
theorem twiceListed_number : (twiceListed.nodeActions 0 0).read64 numberAt = 1 := by
  decide +kernel

/-- Refutes O42: in `twiceListed`, whose memory is not canonical, the fence record's NUMBER, which is to be 0, reads as 1. -/
theorem not_counterNodes : ¬ Obligations.CounterNodes := by
  unfold Obligations.CounterNodes
  intro h
  obtain ⟨hparent, hcont, hev, hpart, hfirst, hcount⟩ := twiceListed_node
  obtain ⟨-, -, -, -, -, -, hfence⟩ := h.2 twiceListed 0 0 none none
    (fun x => iff_of_false (Option.some_ne_none x).symm fun hc => hc.1 hcont)
    (fun x => iff_of_false (Option.some_ne_none x).symm fun hp => hp.1 hparent)
  have hbit : (twiceListed.read64 (0 + 24)).getLsbD 2 = true := by rw [hev]; rfl
  have herr : ((twiceListed.read64 (0 + 24)).getLsbD 63 || (decide (twiceListed.read64 (0 + 16) ≠ 0) &&
      (none : Option TaskRec).isNone) || (decide (twiceListed.read64 (0 + 8) ≠ 0) && (none : Option Nat).isNone)) = false := by
    rw [hev, hcont, hparent]; rfl
  obtain ⟨-, -, -, hnumber, -⟩ := hfence 0 0 hbit hpart hfirst
  simp only [herr, Bool.false_eq_true, if_false, hcount] at hnumber
  exact absurd (twiceListed_number.symm.trans hnumber) (by decide)

end Sys2Proof.Threads
end

