-- ==== Sys2Proof/Proofs/CoreSaves.lean ====
section
/-! SUPPORT. Sys2Proof/Proofs/CoreSaves.lean: a state in which csave records another program counter than A + 4 (O44). -/

namespace Sys2Proof.Threads
open Sys2Proof.Machine Sys2Proof.Organisation

/-! ### A csave of a slot that stands as one that waits

O44 asks of the slot that issues csave only that the instruction may issue, and not that the slot is unblocked. In the state below
the slot waits for the stop of another one whose kill csave ends as it withdraws it: the end of that stop lets the slot go on by
4, and the record that csave writes is at A + 8. -/

/-- Slot 0 of core 0, at a csave, waits for the stop of slot 1, of whose kill only the vacancy is left. -/
def stoppedSaver : State :=
  { cores := [(0, { slots := [(0, { bound := true, level := .sup, blocked := some (.stopOf 1) }),
                              (1, { bound := true, blocked := some (.killNode 0 false false) })] })], cur := .slot 0 0 }

theorem stoppedSaver_ready : Ready .csave stoppedSaver ∧ (stoppedSaver.slot 0 0).bound = true ∧
    stoppedSaver.enginesBusy 0 = false ∧ (stoppedSaver.slot 0 0).pc = 0 := by
  decide +kernel

/-- The PC in the record of slot 0 in the save area of core 0. -/
def savedPc (s : State) : Option Word :=
  (s.saves.find? (fun e => e.1 = 0)).map (fun e => (Sparse.get {} e.2.core.slots 0).pc)

/-- The save area is as before when an instruction completes. -/
theorem savedPc_done (s t : State) : savedPc (s.done t) = savedPc t := by
  unfold savedPc State.done State.goto
  cases t.cur <;> rfl

theorem stoppedSaver_saves : ∃ t, exec .csave stoppedSaver = .next t ∧ savedPc t = some 8 :=
  ⟨_, rfl, by decide +kernel⟩

/-- Refutes O44: in `stoppedSaver` csave records a PC of A + 8. -/
theorem not_coreSaves : ¬ Obligations.CoreSaves := by
  unfold Obligations.CoreSaves
  intro h
  obtain ⟨hready, hbound, hidle, hpc⟩ := stoppedSaver_ready
  obtain ⟨t, hexec, -, -, im, him, -, -, -, -, -, -, -, hsaved⟩ := ((h stoppedSaver 0 0 rfl).1 hready hbound).2 hidle
  obtain ⟨u, hu, h8⟩ := stoppedSaver_saves
  obtain rfl : stoppedSaver.done t = u := Host.Outcome.next.inj (hexec.symm.trans hu)
  rw [savedPc_done, savedPc, him, Option.map_some, hsaved, hpc] at h8
  exact absurd h8 (by decide)

end Sys2Proof.Threads
end

