-- ==== Sys2Proof/Proofs/Publish.lean ====
section
/-! SUPPORT. Sys2Proof/Proofs/Publish.lean: an engine operation that has begun by what it has found, and a publish that waits for it
(refutes O29). -/

namespace Sys2Proof.Accesses
open Sys2Proof.Machine Sys2Proof.Organisation

/-- An intersection of core 0 that has read one word for its records, and has neither read for its sums nor written. -/
def readingIsect : Op :=
  { id := 0, g := 0, k := 1, live := true, cls := some .tiles, seq := 0, major := 0, fn := 0, ptroot := 0, level := .user,
    kind := .eng .isect 0 0 0 0 none, found := [(0x200, 0)] }

/-- Slot 0 of core 0 at a publish that declares entry 0, of halves of 4 KiB at 0x4000, while that intersection is in flight. -/
def declaring : State :=
  { cores := [(0, { slots := [(0, { bound := true, wlim := 1 })], rf := [(0, { v := 0x100 })] })],
    mem := [(scrBase 0 + 0x101, 0x40), (scrBase 0 + 0x105, 0x10)], ops := [readingIsect], cur := .slot 0 0 }

theorem declaring_ready :
    Ready (.publish 8) declaring ∧ (declaring.val 8).t = false ∧ (declaring.val 8).v = 0x100 ∧
      access (declaring.val 8).v 32 32 .load .plain false declaring = .ok ({ pa := scrBase 0 + 0x100, cls := 0 }, declaring) ∧
      declaring.badWord (scrBase 0 + 0x100) 32 = none ∧ Clear declaring 0 0 0 0 ∧
      (declaring.shadowDesc (scrBase 0 + 0x100)).op = 0 ∧
      (declaring.core 0).publishBad (declaring.shadowDesc (scrBase 0 + 0x100)) = false := by
  unfold Clear
  decide +kernel

theorem declaring_blocks : exec (.publish 8) declaring = .next (declaring.blockedOn 0 0 .begun) := by
  rfl

/-- Refutes O29: publish waits for an intersection that has read for its records alone, which the statement takes as not begun. -/
theorem not_publish : ¬ Obligations.Publish := by
  unfold Obligations.Publish
  intro h
  obtain ⟨hready, htag, hva, haccess, hgood, hclear, hop, hbad⟩ := declaring_ready
  obtain ⟨-, -, -, hdone⟩ := h declaring 0 0 8 _ rfl rfl hready htag (by rw [hva]; decide) (by rw [hva]; decide) haccess hgood hclear
  have hexec := (hdone (by decide) hbad).1 hop
  rw [declaring_blocks] at hexec
  have hturn := congrArg State.turn (Host.Outcome.next.inj hexec)
  exact absurd hturn (by decide)

end Sys2Proof.Accesses
end

