-- ==== Sys2Proof/Proofs/Copies.lean ====
section
/-! SUPPORT. Sys2Proof/Proofs/Copies.lean: a copy's flag word in a memory that is not canonical (refutes O45). -/

namespace Sys2Proof.Accesses
open Sys2Proof.Machine Sys2Proof.Organisation

/-- The copy controls of one flag word at 8 and no byte post; the count of bytes is 0. -/
def flagOnly : CopyCtl :=
  { csrc := 0, cdst := 0, cstr1 := 0, cstr2 := 0, cdstr1 := 0, cdstr2 := 0, cdim := 0, cbnd := 0, ccvt := 0, cdone := 8, cval := 0 }

/-- A copy of core 0 whose rows are written. -/
def endingCopy : Op :=
  { id := 0, g := 0, k := 0, live := true, cls := some .copies, seq := 0, major := 0, fn := 0, ptroot := 0, level := .user,
    kind := .copy flagOnly 0, parts := [0] }

/-- A memory that lists the first byte of the flag word twice, so that the write of a zero there uncovers the second entry; the word
is full, so that no queue runs. -/
def twiceListed : State :=
  { mem := [(scrBase 0 + 8, 1), (scrBase 0 + 8, 1)], tags := [((scrBase 0 + 8) / 8, 1)] }

theorem twiceListed_flag :
    twiceListed.engReach (twiceListed.opCtx endingCopy) flagOnly.cdone 8 .atomic .flag
      = .ok { pa := scrBase 0 + 8, cls := 0 } ∧
    twiceListed.storage (scrBase 0 + 8) false = scrBase 0 + 8 ∧ (twiceListed.tagOf (scrBase 0 + 8)).getLsbD 0 = true ∧
    ((twiceListed.copyEnd endingCopy flagOnly).st.rawByte (scrBase 0 + 8)) = 1 := by
  decide +kernel

/-- Refutes O45: in `twiceListed`, which is not canonical, the flag word's first byte reads as 1 after the count 0 is written. -/
theorem not_copies : ¬ Obligations.Copies := by
  unfold Obligations.Copies
  intro h
  obtain ⟨-, -, -, -, -, -, -, -, hend⟩ := h
  obtain ⟨hreach, hstored, hfull, hbyte⟩ := twiceListed_flag
  obtain ⟨-, -, hflag, -⟩ := hend twiceListed endingCopy flagOnly
  obtain ⟨w, ⟨hcount, -⟩, hst, -⟩ := hflag _ (by decide) hreach (by rw [hstored]; decide)
  rw [hst rfl] at hbyte
  simp only [hfull, if_true] at hbyte
  have h0 := hcount 0 (by decide)
  rw [hstored, Nat.add_zero, hbyte] at h0
  exact absurd h0 (by decide)

end Sys2Proof.Accesses
end

