-- ==== Sys2Proof/Proofs/DataAccess.lean ====
section
/-! SUPPORT. Sys2Proof/Proofs/DataAccess.lean: what an access to the own scratch and through the translation buffer comes to, and the
two ends of a walk (O20). -/

namespace Sys2Proof.Accesses
open Sys2Proof.Machine Sys2Proof.Organisation

/-! ### The own scratch of a core -/

/-- R2: the core at the die and the local index of a core is that core. -/
theorem coreAt_dieOf (g : Nat) : coreAt (dieOf g) (localOf g) = g := by
  unfold coreAt dieOf localOf coreX coreY; omega

/-- R56: an offset in the scratch window of a core lies in that core's scratch. -/
theorem region_scrBase {g off : Nat} (hg : g < 4096) (ho : off < 2 ^ 20) : region (scrBase g + off) = .scratch g off := by
  have hd : dieOf g < 16 := by unfold dieOf coreX coreY; omega
  have hl : localOf g < 256 := by unfold localOf coreX coreY; omega
  have hb : scrBase g = 2 ^ 44 + dieOf g * 2 ^ 28 + localOf g * 2 ^ 20 := if_neg (by unfold vrNum; omega)
  unfold region
  rw [if_neg (by omega), if_neg (by omega), if_neg (by omega), if_neg (by omega), if_pos (by omega),
    show (scrBase g + off) / 2 ^ 28 % 16 = dieOf g by omega, show (scrBase g + off) / 2 ^ 20 % 256 = localOf g by omega,
    show (scrBase g + off) % 2 ^ 20 = off by omega, coreAt_dieOf g]

theorem hitsReserve_of_no_shadow {s : State} {g off n pa : Nat} (hr : region pa = .scratch g off) (h : (s.core g).shadow = []) :
    s.hitsReserve pa n = false := by
  unfold State.hitsReserve; rw [hr]; simp only [h, List.any_nil]

theorem inSealTable_of_no_seals {s : State} (h : s.seals = []) (pa n : Nat) : s.inSealTable pa n = false := by
  unfold State.inSealTable; rw [h]; rfl

/-! ### What an access comes to (R55, R65, R73) -/

section
variable {s : State} {g k : Nat} {va : Word} {n al : Nat} {kind : Access} {tg : Bool} (hc : s.cur = .slot g k)

theorem access_misaligned (ha : va.toNat % al ≠ 0) : access va n al kind .plain tg s = .error (.trap cALN va 0) := if_pos ha

include hc

/-- R55: an aligned access below 2^20 comes to what the checks of the local range say. -/
theorem access_local (hg : g < 4096) (ha : va.toNat % al = 0) (hva : va.toNat < 2 ^ 20) :
    access va n al kind .plain tg s = match s.checkLocal (s.ctx g k) va.toNat n kind .plain tg with
      | .ok t => .ok (t, s)
      | .error e => .error (.trap e.code e.val e.sub) := by
  unfold access
  simp only [ha, hc, ne_eq, not_true_eq_false, if_false]
  rw [if_neg (by omega), if_neg (by unfold vrNum; omega), if_pos hva]
  cases s.checkLocal (s.ctx g k) va.toNat n kind .plain tg <;> rfl

/-- R73: an aligned access from 2^20 up comes to what the checks of its leaf say, or waits for a walk. -/
theorem access_translated (hg : g < 4096) (ha : va.toNat % al = 0) (hlo : 2 ^ 20 ≤ va.toNat) (hhi : va.toNat < 2 ^ 49) :
    access va n al kind .plain tg s = match s.tlbFind g va.toNat with
      | none => .error (.walk va.toNat kind)
      | some l => match s.checkLeaf (s.ctx g k) va.toNat n kind .plain tg l with
        | .ok t => .ok (t, s)
        | .error e => .error (.trap e.code e.val e.sub) := by
  unfold access
  simp only [ha, hc, ne_eq, not_true_eq_false, if_false]
  rw [if_neg (by omega), if_neg (by unfold vrNum; omega), if_neg (by omega)]
  cases s.tlbFind g va.toNat with
  | none => rfl
  | some l => simp only [Option.map_some]; cases s.checkLeaf (s.ctx g k) va.toNat n kind .plain tg l <;> rfl

end

theorem checkLocal_outside {s : State} {c : Ctx} {va : Word} {n : Nat} {kind : Access} {tg : Bool} (hk : kind ≠ .fetch)
    (h : 2 ^ 20 < va.toNat + n) : s.checkLocal c va.toNat n kind .plain tg = .error ⟨cXLT, va, 0⟩ := by
  unfold State.checkLocal; rw [if_neg hk, if_pos h, BitVec.ofNat_toNat, BitVec.setWidth_eq]

/-- R55, R63: an access of n bytes of the own scratch, with no reserve and no seal, passes. -/
theorem checkLocal_inside {s : State} {c : Ctx} {va n : Nat} {kind : Access} {tg : Bool} (hg : c.g < 4096)
    (hk : kind ≠ .fetch) (hn : 1 ≤ n) (h : va + n ≤ 2 ^ 20) (hsh : (s.core c.g).shadow = []) (hse : s.seals = []) :
    s.checkLocal c va n kind .plain tg = .ok { pa := scrBase c.g + va, cls := 0 } := by
  have hr := region_scrBase hg (show va < 2 ^ 20 by omega)
  unfold State.checkLocal State.checkClass
  rw [if_neg hk, if_neg (by omega), hitsReserve_of_no_shadow hr hsh, inSealTable_of_no_seals hse, hr]
  simp [classDenies, Region.tagged]

section
variable {s : State} {c : Ctx} {va : Word} {n : Nat} {kind : Access} {l : Leaf}

/-- R71: a leaf that leads to reachable memory but whose permissions fail. -/
theorem checkLeaf_denied (hr : s.reachable c.g (l.pa + va.toNat % 2 ^ l.shift) n = true)
    (hp : permFails l.flags kind c.level = true) :
    s.checkLeaf c va.toNat n kind .plain false l = .error ⟨cPERM, va, 0⟩ := by
  simp [State.checkLeaf, hr, hp]

/-- A check before x that passes leaves what x says. -/
theorem ok_of_ite {p : Prop} [Decidable p] {α β : Type} {e : α} {x : Except α β} {t : β}
    (h : (if p then .error e else x) = .ok t) : x = .ok t := by
  split at h
  · cases h
  · exact h

theorem checkClass_ok {pa cls : Nat} {t : Target} {use : Purpose} {tg : Bool} (h : s.checkClass va pa n cls kind use tg = .ok t) :
    t = { pa := pa, cls := cls } ∧ classDenies cls kind = false := by
  cases hd : classDenies cls kind with
  | true => rw [State.checkClass, if_pos hd] at h; cases h
  | false =>
    -- each of the seven checks has passed
    have h := ok_of_ite (ok_of_ite (ok_of_ite (ok_of_ite (ok_of_ite (ok_of_ite (ok_of_ite h))))))
    exact ⟨(Except.ok.inj h).symm, rfl⟩

/-- R71: what a leaf whose checks all pass leads to. -/
theorem checkLeaf_ok {t : Target} (h : s.checkLeaf c va.toNat n kind .plain false l = .ok t) :
    s.reachable c.g (l.pa + va.toNat % 2 ^ l.shift) n = true ∧ permFails l.flags kind c.level = false ∧
      t = { pa := l.pa + va.toNat % 2 ^ l.shift, cls := (l.flags.extractLsb' 6 2).toNat } ∧
      classDenies (l.flags.extractLsb' 6 2).toNat kind = false := by
  unfold State.checkLeaf at h
  simp only [reduceCtorEq, decide_false, Bool.false_and, Bool.false_eq_true, if_false] at h
  split at h
  · cases h
  next hr =>
    split at h
    · cases h
    next hp =>
      split at h
      · cases h
      next hx =>
        cases h
        obtain ⟨ht, hd⟩ := checkClass_ok hx
        simp only [Bool.not_eq_true, Bool.or_eq_false_iff] at hp
        exact ⟨by simpa using hr, hp.1, ht, hd⟩

end

/-! ### The end of a walk (R73) -/

theorem pageWalk_of {s : State} {o : Op} {va : Nat} {kind : Access} (h : InFlight s o) (hk : o.kind = .walk va kind) :
    exec .pageWalk s = .next (s.finishWalk o va) := by
  show s.onOp _ = _
  rw [onOp_of_inFlight h]; simp only [hk]

theorem finishWalk_leaf {s : State} {o : Op} {va : Nat} {l : Leaf} (hl : o.live = true) (hw : s.walk o.g o.ptroot va = .ok l) :
    s.finishWalk o va = ((s.endOp o).tlbFill o.g o.asid va l).setSlot o.g o.k
      { ((s.endOp o).tlbFill o.g o.asid va l).slot o.g o.k with blocked := none } := by
  unfold State.finishWalk; simp [hl, hw]

theorem finishWalk_fault {s : State} {o : Op} {va : Nat} {e : AccErr} (hl : o.live = true)
    (hw : s.walk o.g o.ptroot va = .error e) : s.finishWalk o va = (s.endOp o).releaseTrap o e.code e.val e.sub := by
  unfold State.finishWalk; simp [hl, hw]

theorem tlb_endOp (s : State) (o : Op) (g : Nat) : ((s.endOp o).core g).tlb = (s.core g).tlb := by
  have h := congrArg Core.tlb (core_endOp s o g)
  exact h

/-- Settles O20: the checks of an access in their order, by the range of its address, and the two ends of a walk. -/
theorem dataAccess : Obligations.DataAccess := by
  unfold Obligations.DataAccess
  refine ⟨fun s g k va n al kind tg hc hg hk => ⟨access_misaligned, fun ha hva hn => ?_, fun ha hn hva hsh hse => ?_⟩,
    fun s g k va n al kind hc hg ha hlo hhi => ?_, fun s o va kind hf hk hl => ⟨fun l hw hcls => ?_, fun e hw => ?_⟩⟩
  · rw [access_local hc hg ha hva, checkLocal_outside hk hn]; rfl
  · rw [access_local hc hg ha (by omega), checkLocal_inside (c := s.ctx g k) hg hk hn hva hsh hse]; rfl
  · simp only [access_translated hc hg ha hlo hhi]
    refine ⟨fun hn => by rw [hn], fun l hs hr hp => ?_, fun l t hs hx => ?_⟩
    · rw [hs]; simp only; rw [checkLeaf_denied (c := s.ctx g k) hr hp]; rfl
    · rw [hs] at hx
      simp only at hx
      split at hx
      next t' ht =>
        cases hx
        obtain ⟨hr, hp, rfl, hd⟩ := checkLeaf_ok ht
        exact ⟨rfl, hr, hp, rfl, hd⟩
      · cases hx
  · rw [pageWalk_of hf hk, finishWalk_leaf hl hw]
    refine ⟨_, rfl, by simp, op?_endOp s o, State.endOp_mem s o, ?_⟩
    rw [core_setSlot, if_pos rfl]
    simp only [State.tlbFill, core_setCore, if_true, tlb_endOp]
  · rw [pageWalk_of hf hk, finishWalk_fault hl hw]

end Sys2Proof.Accesses
end

