-- ==== Sys2Proof/Proofs/HostAccess.lean ====
section
/-! SUPPORT. Sys2Proof/Proofs/HostAccess.lean: the host's writes and reads by what holds them back and what they reach, and the
firmware's assignments and bindings (O51). -/

namespace Sys2Proof.Accesses
open Sys2Proof.Machine Sys2Proof.Organisation

/-! ### Who reaches a partition, and what holds a host access back (R285, R327, R353, R395) -/

theorem exposed_iff (s : State) (p : Nat) : s.exposed p = true ↔ (s.part p).ideTorn = false ∧ ∃ e ∈ s.vfs, e.2 = p := by
  simp [State.exposed, and_comm]

/-- R327, R353: a partition with no bound function, and one whose streams are torn down, is not exposed. -/
theorem not_exposed_of {s : State} {p : Nat} (h : (s.part p).ideTorn = true ∨ ∀ e ∈ s.vfs, e.2 ≠ p) : s.exposed p = false := by
  rw [← Bool.not_eq_true, exposed_iff]
  rintro ⟨ht, e, he, hp⟩
  rcases h with h | h
  · rw [h] at ht; exact absurd ht (by decide)
  · exact h e he hp

/-- R285: the word that a host access names lies in scratch of a core that csave has frozen. -/
def FrozenBefore (s : State) (p off : Nat) : Prop :=
  ∃ pa f o, s.exposed p = true ∧ s.hdmTarget p (off / 8 * 8) = some pa ∧ region pa = .scratch f o ∧ (s.core f).frozen ≠ none

theorem hostHeld_iff (s : State) (p off : Nat) : s.hostHeld p off = true ↔ FrozenBefore s p off := by
  unfold State.hostHeld FrozenBefore
  cases ht : s.hdmTarget p (off / 8 * 8) with
  | none => simp
  | some pa =>
    simp only [scratchOwner, Option.some.injEq, Bool.and_eq_true]
    constructor
    · rintro ⟨he, hf⟩
      split at hf
      next f o hr => exact ⟨pa, f, o, he, rfl, hr, by simpa [Option.isSome_iff_ne_none] using hf⟩
      · cases hf
    · rintro ⟨_, f, o, he, rfl, hr, hf⟩
      exact ⟨he, by simpa [hr, Option.isSome_iff_ne_none] using hf⟩

section
variable {s : State} {p off : Nat} {v : Word} {en : BitVec 16}

theorem hostWrite_of_held (h : (s.part p).starting = true ∨ FrozenBefore s p off) : s.hostWrite p off v en = s := by
  unfold State.hostWrite State.resetRuns
  rcases h with h | h
  · simp [h]
  · simp [(hostHeld_iff s p off).mpr h]

theorem hostRead_of_held (h : (s.part p).starting = true ∨ FrozenBefore s p off) : s.hostRead p off = s := by
  unfold State.hostRead State.resetRuns
  rcases h with h | h
  · simp [h]
  · simp [(hostHeld_iff s p off).mpr h]

theorem hostRead_of_free (hs : (s.part p).starting = false) (hf : ¬ FrozenBefore s p off) :
    s.hostRead p off = { s with hostReads := s.hostData p off :: s.hostReads } := by
  rw [← hostHeld_iff, Bool.not_eq_true] at hf
  simp [State.hostRead, State.resetRuns, hs, hf]

theorem hostWrite_of_not_exposed (h : s.exposed p = false) : s.hostWrite p off v en = s := by
  simp [State.hostWrite, h]

theorem hostWrite_of_unmapped (h : s.hdmTarget p (off / 8 * 8) = none) : s.hostWrite p off v en = s := by
  unfold State.hostWrite
  rw [h, ite_self]

/-- An access to an offset that reaches nothing waits for no core. -/
theorem not_frozenBefore (h : s.exposed p = false ∨ s.hdmTarget p (off / 8 * 8) = none) : ¬ FrozenBefore s p off := by
  rintro ⟨pa, f, o, he, ht, -⟩
  rcases h with h | h
  · rw [h] at he; cases he
  · rw [h] at ht; cases ht

/-- R329: a read that reaches nothing answers at once, whatever is frozen. -/
theorem hostRead_of_unreached {d : HostData} (hs : (s.part p).starting = false)
    (h : s.exposed p = false ∨ s.hdmTarget p (off / 8 * 8) = none) (hd : s.hostData p off = d) :
    s.hostRead p off = { s with hostReads := d :: s.hostReads } := by
  rw [hostRead_of_free hs (not_frozenBefore h), hd]

theorem hostData_of_torn (h : (s.part p).ideTorn = true) : s.hostData p off = .unsupported := if_pos h

theorem hostData_of_unreached (ht : (s.part p).ideTorn = false)
    (h : s.exposed p = false ∨ s.hdmTarget p (off / 8 * 8) = none) : s.hostData p off = .poison := by
  unfold State.hostData
  rcases h with h | h <;> simp [ht, h]

variable {pa : Nat} (he : s.exposed p = true) (ht : s.hdmTarget p (off / 8 * 8) = some pa)
include he ht

/-- R329, R360: a write that reaches a word writes it, but for a locked table and a reserve. -/
theorem hostWrite_of_reached (hs : (s.part p).starting = false) (hf : ¬ FrozenBefore s p off) :
    s.hostWrite p off v en = if s.inSealTable pa 8 || s.hitsReserve pa 8 then s
      else s.write none { pa := pa, data := v, en := en, tag := false } := by
  rw [← hostHeld_iff, Bool.not_eq_true] at hf
  simp [State.hostWrite, State.resetRuns, he, hs, hf, ht]

/-- R329, R392: what a read that reaches a word answers. -/
theorem hostData_of_reached :
    s.hostData p off = if (s.badWord pa 8).isSome || s.hitsReserve pa 8 then .poison else .word (s.read64 pa) := by
  simp [State.hostData, ((exposed_iff s p).mp he).1, he, ht]

end

/-! ### PARTCTL and the firmware's bindings (R327, R328) -/

theorem nvfWrite_taken {s : State} {p : Nat} {n : BitVec 7} (h : n = 0 ∨ (n.toNat, p) ∈ s.vfs) :
    s.nvfWrite p n = s.setPart p { s.part p with nvf := n } := by
  unfold State.nvfWrite
  rw [if_pos (by simpa using h)]

theorem nvfWrite_ignored {s : State} {p : Nat} {n : BitVec 7} (h0 : n ≠ 0) (h : (n.toNat, p) ∉ s.vfs) : s.nvfWrite p n = s := by
  unfold State.nvfWrite
  rw [if_neg (by simpa using ⟨h0, h⟩)]

theorem unbindVf_unbound {s : State} {f : Nat} (h : s.vfs.find? (fun e => e.1 = f) = none) : s.unbindVf f = s := by
  unfold State.unbindVf; rw [h]

theorem bindVf_free {s : State} {f q : Nat} (h1 : 1 ≤ f) (h2 : f ≤ 96) (hq : q < 16)
    (h : s.vfs.find? (fun e => e.1 = f) = none) : s.bindVf f (some q) = { s with vfs := Sparse.put s.vfs f q } := by
  unfold State.bindVf
  rw [if_neg (by simp; omega), h, if_neg (by simp), unbindVf_unbound h]
  exact if_pos hq

theorem bindVf_none {s : State} {f q : Nat} (h1 : 1 ≤ f) (h2 : f ≤ 96)
    (h : s.vfs.find? (fun e => e.1 = f) = some (f, q)) : s.bindVf f none = s.unbindVf f := by
  unfold State.bindVf
  rw [if_neg (by simp; omega), h, if_neg (by simp)]

/-- R328: what the unbinding of a function leaves: NVF of its partition no longer names it. -/
theorem unbindVf_bound {s : State} {f q : Nat} (h : s.vfs.find? (fun e => e.1 = f) = some (f, q)) :
    (s.unbindVf f).vfs = Sparse.del s.vfs f ∧
      ((s.unbindVf f).part q).nvf = (if (s.part q).nvf.toNat = f then 0 else (s.part q).nvf) ∧ (s.unbindVf f).mem = s.mem := by
  unfold State.unbindVf
  rw [h]
  by_cases hn : (s.part q).nvf.toNat = f
  · have hn' : (({ s with vfs := Sparse.del s.vfs f } : State).part q).nvf.toNat = f := hn
    simp only [hn', hn, if_true]
    refine ⟨rfl, ?_, rfl⟩
    simp [State.part, State.setPart, Sparse.get_put]
  · have hn' : ¬ (({ s with vfs := Sparse.del s.vfs f } : State).part q).nvf.toNat = f := hn
    rw [if_neg hn]
    simp only [hn', if_false]
    exact ⟨trivial, rfl, trivial⟩

theorem assignDies_held {s : State} {p : Nat} {dies : BitVec 16} (hp : p < 16) (hh : s.heldInReset p = true)
    (hd : ∀ e ∈ s.parts, e.1 ≠ p → e.2.dies &&& dies = 0) :
    s.assignDies p dies = s.setPart p { s.part p with dies := dies, st := if s.vr.lcs = 4 then .halted else (s.part p).st } := by
  unfold State.assignDies
  have ha : s.parts.any (fun e => e.1 ≠ p && e.2.dies &&& dies ≠ 0) = false := by
    simpa [List.any_eq_false] using fun a b he hne => hd (a, b) he hne
  rw [ha, hh, if_neg (by simpa using hp)]

theorem assignDies_running {s : State} {p : Nat} {dies : BitVec 16} (h : (s.part p).st = .running) : s.assignDies p dies = s := by
  unfold State.assignDies State.heldInReset
  simp [h]

/-- Settles O51: each host and firmware turn by what holds it back, what it reaches and what it discards. -/
theorem hostAccess : Obligations.HostAccess := by
  unfold Obligations.HostAccess
  intro s p answers before
  have hans : ∀ d, s.hostRead p s.ev.off = { s with hostReads := d :: s.hostReads } → answers d :=
    fun d h => congrArg Host.Outcome.next h
  have hwr : ∀ t, s.hostWrite p s.ev.off s.ev.v s.ev.en = t → exec .hostMemoryWrite s = .next t :=
    fun t h => congrArg Host.Outcome.next h
  refine ⟨fun h => ⟨hwr _ (hostWrite_of_held h), congrArg Host.Outcome.next (hostRead_of_held h)⟩, fun h => ?_, fun ht h => ?_,
    exposed_iff s p, fun he hs hb pa ht => ⟨fun h1 h2 => ?_, fun h => ?_, fun h => ?_, fun h1 h2 => ?_⟩, fun f o hf ho => ?_,
    fun i g o hg ho => ?_, fun he => ?_, ⟨fun he h => ?_, fun h0 h => ?_⟩, fun he i hi => ?_, fun hp hh hd => ?_, fun h => ?_,
    fun q h1 h2 hq ho h => ?_, fun q h1 h2 ho h => ?_, fun hk hp => ?_, rfl⟩
  · have he := not_exposed_of (p := p) (.inl h)
    exact ⟨hwr _ (hostWrite_of_not_exposed he), fun hs => hans _ (hostRead_of_unreached hs (.inl he) (hostData_of_torn h))⟩
  · have hr : s.exposed p = false ∨ s.hdmTarget p (s.ev.off / 8 * 8) = none := h.imp_left fun h => not_exposed_of (.inr h)
    exact ⟨hwr _ (hr.elim hostWrite_of_not_exposed hostWrite_of_unmapped),
      fun hs => hans _ (hostRead_of_unreached hs hr (hostData_of_unreached ht hr))⟩
  · exact hwr _ (by rw [hostWrite_of_reached he ht hs hb, h1, h2]; rfl)
  · exact hwr _ (by rw [hostWrite_of_reached he ht hs hb, if_pos (by simpa using h)])
  · exact hans _ (by rw [hostRead_of_free hs hb, hostData_of_reached he ht,
      if_pos (by simpa [Option.isSome_iff_ne_none] using h)])
  · exact hans _ (by rw [hostRead_of_free hs hb, hostData_of_reached he ht, h1, h2]; rfl)
  · unfold State.hdmTarget; rw [if_pos ho, hf]; rfl
  · unfold saveOff at ho
    unfold State.hdmTarget
    rw [if_neg (by omega), if_neg (by omega), show (2 ^ 29 * (i + 1) + o) / 2 ^ 29 - 1 = i by omega, hg]
    simp only [show (2 ^ 29 * (i + 1) + o) % 2 ^ 29 = o by omega, saveOff]
    rw [if_pos ho]
  · exact congrArg Host.Outcome.next (if_pos he)
  · exact congrArg Host.Outcome.next ((if_pos he).trans (nvfWrite_taken h))
  · exact congrArg Host.Outcome.next (by rw [nvfWrite_ignored h0 h, ite_self])
  · have hne : ¬ s.exposed p = true := by rw [he]; decide
    simp only [List.mem_cons, List.not_mem_nil, or_false] at hi
    rcases hi with rfl | rfl | rfl
    · exact congrArg Host.Outcome.next (if_neg hne)
    · exact congrArg Host.Outcome.next (if_neg hne)
    · exact congrArg Host.Outcome.next (if_pos (by simp only [p] at he; simp [he]))
  · exact congrArg Host.Outcome.next (assignDies_held hp hh hd)
  · exact congrArg Host.Outcome.next (assignDies_running h)
  · exact congrArg Host.Outcome.next (by rw [ho, bindVf_free h1 h2 hq h])
  · obtain ⟨hv, hn, hm⟩ := unbindVf_bound h
    exact ⟨_, congrArg Host.Outcome.next (by rw [ho, bindVf_none h1 h2 h]), hv, hn, hm⟩
  · exact congrArg Host.Outcome.next (if_neg (by simpa using ⟨hk, hp⟩))

end Sys2Proof.Accesses
end

