-- ==== Sys2Proof/Proofs/Accepting.lean ====
section
/-! SUPPORT. Sys2Proof/Proofs/Accepting.lean: an operation that is issued with room in its counter, what the read of a field leaves of the
other fields and of the slot, and the third source of an instruction. -/

namespace Sys2Proof.Accesses
open Sys2Proof.Machine Sys2Proof.Organisation Sys2Proof.Threads

/-! ### An operation is issued (R180, R374) -/

theorem put_put {α : Type} (m : Sparse α) (n : Nat) (x y : α) : Sparse.put (Sparse.put m n x) n y = Sparse.put m n y := by
  induction m with
  | nil => simp [Sparse.put]
  | cons e t ih =>
    obtain ⟨k, v⟩ := e
    unfold Sparse.put
    by_cases h1 : n = k
    · simp [h1, Sparse.put]
    · by_cases h2 : n < k
      · simp [h1, h2, Sparse.put]
      · simp [h1, h2, Sparse.put, ih]

theorem setSlot_setSlot (s : State) (g k : Nat) (x y : Slot) : (s.setSlot g k x).setSlot g k y = s.setSlot g k y := by
  unfold State.setSlot
  rw [core_setCore, if_pos rfl]
  unfold State.setCore
  simp only [put_put]

theorem cur_setMe (s : State) (x : Slot) : (s.setMe x).cur = s.cur := rfl

/-- With room in the counter of its class an operation is accepted. -/
theorem emit_of_room {s : State} {g k : Nat} (hc : s.cur = .slot g k) {c : CClass} (h : s.me.count c < 255) (i : Instr)
    (kind : OpKind) : emit i c kind s = .ok (s.nextId, s.accept i c kind) := by
  have hr : raise c s = .ok ((), s.setMe (s.me.setCount c (s.me.count c + 1))) := if_neg (by omega)
  have hm : (s.setMe (s.me.setCount c (s.me.count c + 1))).me = s.me.setCount c (s.me.count c + 1) := by
    rw [me_of_slot (by rw [cur_setMe, hc]), setMe_of_slot hc, slot_setSlot, if_pos ⟨rfl, rfl⟩]
  have hs : ∀ x y, (s.setMe x).setMe y = s.setMe y := fun x y => by
    rw [setMe_of_slot (by rw [cur_setMe, hc]), setMe_of_slot hc, setMe_of_slot hc, setSlot_setSlot]
  rw [emit, M.bind_ok hr, M.bind_ok (show nextSeq _ = .ok (_, _) from rfl), hm, hs]
  have hq : (s.me.setCount c (s.me.count c + 1)).seq = s.me.seq := by cases c <;> rfl
  simp only [hq]
  rfl

/-! ### What the read of a field leaves (R178) -/

theorem me_took (s : State) (n : Name) :
    ∃ q ws, (s.took n).me = { s.me.setQueue n.toNat q with taken := ws } ∨ (s.took n).me = s.me := by
  rcases took_cases s n with h | ⟨g, k, q, ws, hc, h⟩ <;> rw [h]
  · exact ⟨[], [], .inr rfl⟩
  · exact ⟨q, ws, .inl (by rw [me_of_slot (s := s.setSlot ..) (by simpa using hc), slot_setSlot, if_pos ⟨rfl, rfl⟩, me_of_slot hc])⟩

@[simp] theorem count_setQueue (x : Slot) (d : Nat) (q : List Tagged) (ws : List (Nat × Tagged)) (c : CClass) :
    ({ x.setQueue d q with taken := ws } : Slot).count c = x.count c := by
  unfold Slot.setQueue; split <;> cases c <;> rfl

@[simp] theorem count_took (s : State) (n : Name) (c : CClass) : (s.took n).me.count c = s.me.count c := by
  obtain ⟨q, ws, h | h⟩ := me_took s n <;> rw [h]
  exact count_setQueue ..

@[simp] theorem gk_took (s : State) (n : Name) : (s.took n).gk = s.gk := by
  unfold State.gk; rw [took_cur]

@[simp] theorem physCell_took (s : State) (a : Name) (g k n : Nat) : (s.took a).physCell g k n = s.physCell g k n := by
  unfold State.physCell; rw [(took_window s a g k).1]

@[simp] theorem lateDst_took (s : State) (a n : Name) : (s.took a).lateDst n = s.lateDst n := by
  unfold State.lateDst; rw [gk_took, physCell_took]

/-- Only a port gives another value after another field has been read. -/
theorem val_took {s : State} {g k : Nat} (hc : s.cur = .slot g k) {n : Name} (hn : n.isPort = false) (a : Name) :
    (s.took a).val n = s.val n := by
  unfold State.val
  simp only [took_cur, hc, hn, Bool.false_eq_true, if_false, physCell_took, cell_took]

/-- A read takes one word of its own port at most. -/
theorem queue_took {s : State} {g k : Nat} (hc : s.cur = .slot g k) (n : Name) {e : Nat} (he : 1 ≤ e ∧ e ≤ 4) :
    ((s.took n).slot g k).queue e = if n.isPort = true ∧ n.toNat = e then ((s.slot g k).queue e).tail else (s.slot g k).queue e := by
  unfold State.took
  simp only [hc]
  by_cases hp : n.isPort = true
  · simp only [hp, if_true, slot_setSlot, and_self, queue_taken, true_and]
    rw [queue_setQueue _ _ _ _ ((isPort_iff n).1 hp) he]
    by_cases h : n.toNat = e
    · simp [h]
    · rw [if_neg (fun h' => h h'.symm), if_neg h]
  · simp [hp]

/-- How many words the read of a field takes from the queue of a port. -/
def takes (n : Name) (e : Nat) : Nat := if n.isPort = true ∧ n.toNat = e then 1 else 0

theorem length_queue_took {s : State} {g k : Nat} (hc : s.cur = .slot g k) (n : Name) {e : Nat} (he : 1 ≤ e ∧ e ≤ 4) :
    (((s.took n).slot g k).queue e).length = ((s.slot g k).queue e).length - takes n e := by
  rw [queue_took hc n he]
  unfold takes
  split
  · rw [List.length_tail]
  · rfl

/-- Three sources read a port as often as they name it. -/
theorem count_reads (a b d : Name) (e : Nat) :
    ((([(a, Role.src), (b, .src), (d, .src)].filter
      (fun e => e.1.isPort && e.2 ≠ .none && e.2 ≠ .late && e.2 ≠ .lateInOut)).filter (fun e => readsPort e.2)).map
        (fun e => e.1.toNat)).count e = takes a e + takes b e + takes d e := by
  unfold takes
  cases ha : a.isPort <;> cases hb : b.isPort <;> cases hd : d.isPort <;>
    simp [ha, hb, hd, readsPort, List.count_cons, Nat.add_comm, Nat.add_left_comm]

/-- The third source of a ready instruction finds its word after the other two have been read. -/
theorem holds_third {i : Instr} {s : State} {g k : Nat} (hc : s.cur = .slot g k) (h : Ready i s) (ha : i.roles.ra = .src)
    (hb : i.roles.rb = .src) (hd : i.roles.rd = .src) : ((s.took i.roles.a).took i.roles.b).holds i.roles.d := by
  unfold State.holds
  simp only [took_cur, hc]
  intro hp hq
  have he := (isPort_iff i.roles.d).1 hp
  have hcnt := portCheck_counts (h.onSlot hc).2.2.2.1 hp (ro := .src) rfl (by simp [hd])
  rw [ha, hb, hd, count_reads, me_of_slot hc] at hcnt
  have hlen := congrArg List.length hq
  rw [length_queue_took (by rw [took_cur, hc]) _ he, length_queue_took hc _ he, List.length_nil] at hlen
  have hone : takes i.roles.d i.roles.d.toNat = 1 := if_pos ⟨hp, rfl⟩
  omega

end Sys2Proof.Accesses
end

