-- ==== Sys2Proof/Proofs/Atomics.lean ====
section
/-! SUPPORT. Sys2Proof/Proofs/Atomics.lean: the issue of atomics and reductions, and their one event at the owning unit (O27). -/

namespace Sys2Proof.Accesses
open Sys2Proof.Machine Sys2Proof.Organisation Sys2Proof.Threads

/-! ### The issue of atomics and reductions (R239, R240) -/

section
variable {i : Instr} {s : State} {g k : Nat} {d a b : Name} {t : Target} (hc : s.cur = .slot g k)
  (ra : readName a s = .ok (s.val a, s.took a)) (rb : readName b (s.took a) = .ok ((s.took a).val b, (s.took a).took b))
  (hta : (s.val a).t = false)
include hc ra rb hta

/-- R239: an atomic whose checks pass is accepted, with the compare value that it has read. -/
theorem amoOp_of_reached {f : Amo} {cas : Bool} {c : Word}
    (hcmp : (if cas then ctlOperand d else pure 0 : M Word) ((s.took a).took b) = .ok (c, (s.took a).took b))
    (hl : s.me.loads < 255)
    (hx : access (s.val a).v 8 8 .atomic .plain ((s.took a).val b).t ((s.took a).took b) = .ok (t, (s.took a).took b))
    (hb : ((s.took a).took b).badWord t.pa 8 = none) :
    amoOp i f d a b cas s = .ok (.next, ((s.took a).took b).accept i .loads
      (.atomic f t.pa ((s.took a).val b) c (t.cls = 1) (s.lateDst d))) := by
  have hc' : ((s.took a).took b).cur = .slot g k := by rw [took_cur, took_cur, hc]
  have hl' : ((s.took a).took b).me.count .loads < 255 := by rw [count_took, count_took]; exact hl
  have compared (f : Word → M Ctl) : (if cas = true then ctlOperand d >>= f else (pure 0 : M Word) >>= f) ((s.took a).took b)
      = f c ((s.took a).took b) := by
    cases cas
    · exact M.bind_ok hcmp
    · exact M.bind_ok hcmp
  rw [amoOp, M.bind_ok (ctlOperand_of_clear ra hta), M.bind_ok rb]
  refine (compared _).trans ?_
  beta_reduce
  rw [M.bind_ok hx, M.bind_ok (softCheck_of_good hc' hb), M.bind_ok (M.get_apply _), M.bind_ok (emit_of_room hc' hl' _ _), M.pure_apply,
    lateDst_took, lateDst_took]

/-- R240: a reduction whose checks pass is accepted. -/
theorem redOp_of_reached {f : Red} (hl : s.me.stores < 255)
    (hx : access (s.val a).v 8 8 .atomic .plain ((s.took a).val b).t ((s.took a).took b) = .ok (t, (s.took a).took b))
    (hb : ((s.took a).took b).badWord t.pa 8 = none) :
    redOp i f a b s = .ok (.next, ((s.took a).took b).accept i .stores (.red f t.pa ((s.took a).val b) (t.cls = 1))) := by
  have hc' : ((s.took a).took b).cur = .slot g k := by rw [took_cur, took_cur, hc]
  have hl' : ((s.took a).took b).me.count .stores < 255 := by rw [count_took, count_took]; exact hl
  rw [redOp, M.bind_ok (ctlOperand_of_clear ra hta), M.bind_ok rb, M.bind_ok hx, M.bind_ok (softCheck_of_good hc' hb),
    M.bind_ok (emit_of_room hc' hl' _ _), M.pure_apply]

variable (rd : readName d ((s.took a).took b) = .ok (((s.took a).took b).val d, ((s.took a).took b).took d))
  (htb : ((s.took a).val b).t = false) (htd : (((s.took a).took b).val d).t = false)
include rd htb htd

omit hc in
/-- R240: red.ew of an exponent that names no window. -/
theorem redEwOp_of_no_window (he : windowExpOk ((((s.took a).took b).val d).v.extractLsb' 0 32).toInt = false) :
    redEwOp i d a b s
      = .error (.trap cILL (BitVec.ofInt 64 ((((s.took a).took b).val d).v.extractLsb' 0 32).toInt) 0) := by
  rw [redEwOp, M.bind_ok (ctlOperand_of_clear ra hta), M.bind_ok (ctlOperand_of_clear rb htb),
    M.bind_ok (ctlOperand_of_clear rd htd)]
  simp only [he, Bool.not_false, if_true]
  rfl

/-- R240: red.ew of a window, up to the flags of its conversion. -/
theorem redEwOp_of_window (he : windowExpOk ((((s.took a).took b).val d).v.extractLsb' 0 32).toInt = true)
    (hx : access (s.val a).v 8 8 .atomic .plain false (((s.took a).took b).took d) = .ok (t, ((s.took a).took b).took d))
    (hb : (((s.took a).took b).took d).badWord t.pa 8 = none) :
    let r := windowOf 64 ((((s.took a).took b).val d).v.extractLsb' 0 32).toInt (num32 (((s.took a).val b).v.extractLsb' 0 32))
    redEwOp i d a b s = (do
      raiseFl r.2
      let _ ← emit i .stores (.red .add t.pa { v := BitVec.ofInt 64 r.1, t := false } (t.cls = 1))
      return .next : M Ctl) (((s.took a).took b).took d) := by
  intro r
  have hc' : (((s.took a).took b).took d).cur = .slot g k := by rw [took_cur, took_cur, took_cur, hc]
  rw [redEwOp, M.bind_ok (ctlOperand_of_clear ra hta), M.bind_ok (ctlOperand_of_clear rb htb),
    M.bind_ok (ctlOperand_of_clear rd htd)]
  simp only [he, Bool.not_true, Bool.false_eq_true, if_false]
  rw [M.bind_ok hx, M.bind_ok (softCheck_of_good hc' hb)]

end


theorem windowExpOk_iff (e : Int) : windowExpOk e = true ↔ -1100 ≤ e ∧ e ≤ 1000 := by
  simp [windowExpOk]

/-! ### The owning unit applies them (R61, R239, R240) -/

theorem sle_iff (x y : Word) : x.sle y = true ↔ x.toInt ≤ y.toInt := by
  simp [BitVec.sle]

/-- The state after an operation whose word takes a new value, or none. -/
def written (s : State) (o : Op) (pa : Nat) (n : Option Tagged) : State :=
  match n with
  | some n => (s.endOp o).write (some (o.g, o.k)) { pa := pa, data := n.v, en := 0xFFFF, tag := n.t }
  | none => s.endOp o

section
variable {s : State} {o : Op} {pa : Nat} {y : Tagged} (h : InFlight s o) (hf : s.isFirst o = true)
include h hf

theorem atomicApply_bad {a cmp} {f : Amo} {cb : Bool} {dst : Option Nat} (hb : s.badWord pa 8 = some a)
    (hk : o.kind = .atomic f pa y cmp cb dst) :
    exec .atomicApply s = .next ((s.failOp o (softCause a).1 0 (softCause a).2).arrive o dst [{}]) := by
  show s.onOp _ = _
  rw [onOp_of_inFlight h]
  simp only [hk, hf, hb, Bool.not_true, Bool.false_eq_true, if_false]

theorem reductionApply_bad {a} {f : Red} {cb : Bool} (hb : s.badWord pa 8 = some a) (hk : o.kind = .red f pa y cb) :
    exec .reductionApply s = .next (s.failOp o (softCause a).1 0 (softCause a).2) := by
  show s.onOp _ = _
  rw [onOp_of_inFlight h]
  simp only [hk, hf, hb, Bool.not_true, Bool.false_eq_true, if_false]

/-- R239: the word takes what the atomic makes of it, and the old value arrives. -/
theorem atomicApply_good {cmp} {f : Amo} {cb : Bool} {dst : Option Nat} (hb : s.badWord pa 8 = none)
    (hk : o.kind = .atomic f pa y cmp cb dst) :
    exec .atomicApply s = .next ((written s o pa (f.apply (s.valueAt o.g 8 (pa, cb)) y cmp)).arrive o dst
      [s.valueAt o.g 8 (pa, cb)]) := by
  rw [show exec .atomicApply s = s.onOp _ from rfl, onOp_of_inFlight h]
  simp only [hk, hf, hb, Bool.not_true, Bool.false_eq_true, if_false]
  exact congrArg (fun t : State => Host.Outcome.next (t.arrive o dst [s.valueAt o.g 8 (pa, cb)])) rfl

theorem reductionApply_good {f : Red} {cb : Bool} (hb : s.badWord pa 8 = none) (hk : o.kind = .red f pa y cb) :
    exec .reductionApply s = .next ((s.endOp o).write (some (o.g, o.k))
      { pa := pa, data := (f.apply (s.valueAt o.g 8 (pa, cb)) y).v, en := 0xFFFF,
        tag := (f.apply (s.valueAt o.g 8 (pa, cb)) y).t }) := by
  show s.onOp _ = _
  rw [onOp_of_inFlight h]
  simp only [hk, hf, hb, Bool.not_true, Bool.false_eq_true, if_false]

end

theorem arrive_some {s : State} {o : Op} {c : Nat} (hl : o.live = true) (xs : List Tagged) :
    s.arrive o (some c) xs = s.setCells o.g c xs := if_pos hl

/-- The reads of the first two sources of a ready instruction. -/
theorem reads_two {i : Instr} {s : State} {a b : Name} (h : Ready i s) (ha : i.roles.ra = .src) (hb : i.roles.rb = .src)
    (ea : i.roles.a = a) (eb : i.roles.b = b) :
    readName a s = .ok (s.val a, s.took a) ∧ readName b (s.took a) = .ok ((s.took a).val b, (s.took a).took b) := by
  subst ea eb
  exact ⟨readName_of_holds (holds_a h ha), readName_of_holds (holds_took h ha hb)⟩

/-- R205: amo.cas takes no port as its destination. -/
theorem amoCas_notPort {s : State} {d a b : Name} (h : Ready (.amoCas d a b) s) : d.isPort = false := by
  have hn := h.wf
  simp only [Instr.wf, Instr.namesOk, Bool.and_eq_true] at hn
  have hallow : Role.lateInOut.allows d = true := hn.1.2.2
  rw [← Bool.not_eq_true, isPort_iff]
  simp only [Role.allows, Bool.or_eq_true, decide_eq_true_eq] at hallow
  rcases hallow with rfl | h8
  · decide
  · omega

/-- The compare value of amo.cas is read last, and from no port. -/
theorem amoCas_compare {s : State} {g k : Nat} {d a b : Name} (hc : s.cur = .slot g k) (h : Ready (.amoCas d a b) s)
    (ht : (s.val d).t = false) : ctlOperand d ((s.took a).took b) = .ok ((s.val d).v, (s.took a).took b) := by
  have hd := amoCas_notPort h
  have hv : ((s.took a).took b).val d = s.val d := by rw [val_took (by rw [took_cur, hc]) hd, val_took hc hd]
  have hr := readName_of_notPort (s := (s.took a).took b) hd
  rw [hv] at hr
  exact ctlOperand_of_clear hr ht

/-- The reads of the three sources of red.ew. -/
theorem redEw_reads {s : State} {g k : Nat} {d a b : Name} (hc : s.cur = .slot g k) (h : Ready (.redEw d a b) s) :
    readName a s = .ok (s.val a, s.took a) ∧ readName b (s.took a) = .ok ((s.took a).val b, (s.took a).took b) ∧
      readName d ((s.took a).took b) = .ok (((s.took a).took b).val d, ((s.took a).took b).took d) := by
  have hd : ((s.took a).took b).holds d := holds_third (i := .redEw d a b) hc h rfl rfl rfl
  obtain ⟨ra, rb⟩ := reads_two (a := a) (b := b) h rfl rfl rfl rfl
  exact ⟨ra, rb, readName_of_holds hd⟩

theorem orFctl_cur (s : State) (fl : Fl) : (s.orFctl fl).cur = s.cur := by
  unfold State.orFctl; split <;> rfl

theorem count_orFctl {s : State} {g k : Nat} (hc : s.cur = .slot g k) (fl : Fl) (c : CClass) :
    (s.orFctl fl).me.count c = s.me.count c := by
  rw [me_of_slot (by rw [orFctl_cur, hc]), me_of_slot hc]
  unfold State.orFctl
  simp only [hc]
  rw [slot_setSlot, if_pos ⟨rfl, rfl⟩]
  cases c <;> rfl

/-- R239: what the word of an atomic becomes, form by form. -/
theorem written_amo (s : State) (o : Op) (pa : Nat) (f : Amo) (x y : Tagged) (cmp : Word) :
    let put (v : Word) (tg : Bool) : State :=
      (s.endOp o).write (some (o.g, o.k)) { pa := pa, data := v, en := 0xFFFF, tag := tg }
    written s o pa (f.apply x y cmp) = match f with
      | .add => put (x.v + y.v) (x.t || y.t)
      | .and => put (x.v &&& y.v) (x.t || y.t)
      | .or => put (x.v ||| y.v) (x.t || y.t)
      | .xor => put (x.v ^^^ y.v) (x.t || y.t)
      | .min => put (if x.v.toInt ≤ y.v.toInt then x.v else y.v) (x.t || y.t)
      | .max => put (if y.v.toInt ≤ x.v.toInt then x.v else y.v) (x.t || y.t)
      | .xchg => put y.v y.t
      | .cas => if x.v = cmp then put y.v y.t else s.endOp o := by
  intro put
  cases f with
  | add | and | or | xor | xchg => rfl
  | min => simp only [Amo.apply, sle_iff]; rfl
  | max => simp only [Amo.apply, sle_iff]; rfl
  | cas =>
    unfold Amo.apply
    by_cases h : x.v = cmp
    · simp only [h, if_true]; rfl
    · simp only [h, if_false]; rfl

/-- Settles O27: the issue of each form by what its operands give, and its one event by what the word becomes. -/
theorem atomics : Obligations.Atomics := by
  unfold Obligations.Atomics
  refine ⟨fun s g k hc hl hs d a b t hta => ⟨fun e he hr hx hb => ?_, fun hr htd hx hb => ?_, fun e he hr hx hb => ?_,
    fun hr htb htd he hx hb hq => ?_, fun hr htb htd => ⟨fun he => ?_, fun h1 h2 hx hb hq => ?_⟩⟩,
    fun s o pa a y h hf hb => ⟨fun f cmp cb dst hk => atomicApply_bad h hf hb hk, fun f cb hk => reductionApply_bad h hf hb hk⟩,
    fun s o pa y h hl hf hb => ⟨fun f cmp cb dst hk => ?_, fun f cb hk => ?_⟩⟩
  · have accepted (i : Instr) (f : Amo) (h : Ready i s) (ha : i.roles.ra = .src) (hb' : i.roles.rb = .src)
        (ea : i.roles.a = a) (eb : i.roles.b = b) :
        issue i (amoOp i f d a b false) s = .next (s.done (((s.took a).took b).accept i .loads
          (.atomic f t.pa ((s.took a).val b) 0 (t.cls = 1) (s.lateDst d)))) := by
      obtain ⟨ra, rb⟩ := reads_two h ha hb' ea eb
      rw [issue_of_ready h, amoOp_of_reached hc ra rb hta rfl hl hx hb, finish_next]
    fin_cases he <;> exact accepted _ _ hr rfl rfl rfl rfl
  · obtain ⟨ra, rb⟩ := reads_two (a := a) (b := b) hr rfl rfl rfl rfl
    show issue _ _ s = _
    rw [issue_of_ready hr, amoOp_of_reached hc ra rb hta (cas := true) (amoCas_compare hc hr htd) hl hx hb, finish_next]
  · have accepted (i : Instr) (f : Red) (h : Ready i s) (ha : i.roles.ra = .src) (hb' : i.roles.rb = .src)
        (ea : i.roles.a = a) (eb : i.roles.b = b) :
        issue i (redOp i f a b) s = .next (s.done (((s.took a).took b).accept i .stores
          (.red f t.pa ((s.took a).val b) (t.cls = 1)))) := by
      obtain ⟨ra, rb⟩ := reads_two h ha hb' ea eb
      rw [issue_of_ready h, redOp_of_reached hc ra rb hta hs hx hb, finish_next]
    fin_cases he <;> exact accepted _ _ hr rfl rfl rfl rfl
  · obtain ⟨ra, rb, rd⟩ := redEw_reads hc hr
    have hc' : (((s.took a).took b).took d).cur = .slot g k := by rw [took_cur, took_cur, took_cur, hc]
    show issue _ _ s = _
    rw [issue_of_ready hr, redEwOp_of_window hc ra rb hta rd htb htd he hx hb,
      M.bind_ok (raiseFl_quiet (by rw [quiet_took, quiet_took, quiet_took]; exact hq)),
      M.bind_ok (emit_of_room (by rw [orFctl_cur, hc']) (by rw [count_orFctl hc', count_took, count_took, count_took]; exact hs) _ _),
      M.pure_apply, finish_next]
  · obtain ⟨ra, rb, rd⟩ := redEw_reads hc hr
    show issue _ _ s = _
    rw [issue_of_ready hr, redEwOp_of_no_window ra rb hta rd htb htd (by rw [← Bool.not_eq_true, windowExpOk_iff]; omega),
      finish_trap hc]
  · obtain ⟨ra, rb, rd⟩ := redEw_reads hc hr
    show issue _ _ s = _
    rw [issue_of_ready hr, redEwOp_of_window hc ra rb hta rd htb htd ((windowExpOk_iff _).mpr ⟨h1, h2⟩) hx hb,
      M.bind_error (raiseFl_loud (by rw [quiet_took, quiet_took, quiet_took]; exact hq)), finish_fpx hc]
  · rw [atomicApply_good h hf hb hk, written_amo s o pa f]
    refine ⟨fun c hd => ?_, fun hd => ?_⟩
    · rw [hd, arrive_some hl]
      cases f <;> rfl
    · rw [hd]
      cases f <;> rfl
  · rw [reductionApply_good h hf hb hk]
    cases f with
    | add | or => rfl
    | max => simp only [Red.apply, sle_iff]; rfl

end Sys2Proof.Accesses
end

