-- ==== Sys2Proof/Proofs/StoresApply.lean ====
section
/-! SUPPORT. Sys2Proof/Proofs/StoresApply.lean: the bytes, tags and errors that the write of a word leaves, and a store as the fold of its
writes (O24). -/

namespace Sys2Proof.Accesses
open Sys2Proof.Machine Sys2Proof.Organisation

/-! ### What decides where an address is stored, and what it holds -/

/-- The half of a shadow view in which an address is stored depends on the shadow entries alone. -/
theorem storage_of_shadow {s t : State} (h : ∀ g, (t.core g).shadow = (s.core g).shadow) (a : Nat) (hid : Bool) :
    t.storage a hid = s.storage a hid := by
  unfold State.storage Core.viewOf
  cases region a with
  | scratch g off => simp only [h g]
  | chan g off => rfl
  | host => rfl
  | fabric q f => rfl
  | hole => rfl

/-- What an address holds depends on memory and on the save areas alone. -/
theorem rawByte_of_mem {s t : State} (hm : t.mem = s.mem) (hs : t.saves = s.saves) (a : Nat) : t.rawByte a = s.rawByte a := by
  unfold State.rawByte; rw [hm, hs]

theorem shadow_write (s : State) (b : Option (Nat × Nat)) (w : WordWrite) (h : Bool) (g : Nat) :
    ((s.write b w h).core g).shadow = (s.core g).shadow := by
  have e := congrArg Core.shadow (core_wake (s.putWord w h) w.pa b g)
  rw [core_of_cores (State.putWord_cores s w h)] at e
  exact e

theorem storage_write (s : State) (b : Option (Nat × Nat)) (w : WordWrite) (h : Bool) (a : Nat) (hid : Bool) :
    (s.write b w h).storage a hid = s.storage a hid := storage_of_shadow (shadow_write s b w h) a hid

theorem shadow_endOp (s : State) (o : Op) (g : Nat) : ((s.endOp o).core g).shadow = (s.core g).shadow := by
  have e := congrArg Core.shadow (core_endOp s o g)
  exact e

theorem storage_endOp (s : State) (o : Op) (a : Nat) (hid : Bool) : (s.endOp o).storage a hid = s.storage a hid :=
  storage_of_shadow (shadow_endOp s o) a hid

theorem rawByte_endOp (s : State) (o : Op) (a : Nat) : (s.endOp o).rawByte a = s.rawByte a :=
  rawByte_of_mem (State.endOp_mem s o) (State.endOp_saves s o) a

/-! ### The bytes of a word that is written (R69) -/

/-- A byte with its enabled nibbles replaced. -/
def nibbles (old v : Byte) (lo hi : Bool) : Byte :=
  (if hi then v.extractLsb' 4 4 else old.extractLsb' 4 4) ++ (if lo then v.extractLsb' 0 4 else old.extractLsb' 0 4)

theorem nibbles_none (old v : Byte) : nibbles old v false false = old := by
  unfold nibbles
  simp only [Bool.false_eq_true, if_false]
  ext i hi
  simp only [BitVec.getElem_append, BitVec.getElem_extractLsb']
  split
  · simp [BitVec.getLsbD_eq_getElem (show i < 8 from hi)]
  · rw [show 4 + (i - 4) = i by omega, BitVec.getLsbD_eq_getElem (show i < 8 from hi)]

/-- R74: the ciphertext that a save area shows at an address in place of what memory holds. -/
def cipherAt (saves : Sparse SaveImage) (a : Nat) : Option Byte :=
  match region a with
  | .chan g off =>
    if off < saveOff then none
    else (saves.find? (fun e => e.1 = g)).bind (fun e =>
      if e.2.written.contains a then none else some (Config.cipherByte e.2.seed a))
  | _ => none

theorem rawByte_eq (s : State) (a : Nat) : s.rawByte a = (cipherAt s.saves a).getD (Memory.get s.mem a) := by
  unfold State.rawByte cipherAt
  cases region a with
  | chan g off =>
    simp only
    by_cases ho : off < saveOff
    · simp only [ho, if_true, Option.getD_none]
    · simp only [ho, if_false]
      cases s.saves.find? (fun e => e.1 = g) with
      | none => rfl
      | some e =>
        simp only [Option.bind_some]
        split <;> rfl
  | scratch g off => rfl
  | host => rfl
  | fabric q f => rfl
  | hole => rfl

/-- A byte of a save area that has been written shows what memory holds. -/
theorem cipherAt_note {saves : Sparse SaveImage} {pa g off : Nat} (hr : region pa = .chan g off) (a : Nat) :
    cipherAt (saves.map (fun e => if e.1 = g then (e.1, { e.2 with written := pa :: e.2.written }) else e)) a
      = if a = pa then none else cipherAt saves a := by
  unfold cipherAt
  cases hra : region a with
  | chan h o =>
    simp only
    by_cases ho : o < saveOff
    · simp only [ho, if_true, ite_self]
    · have hkey : (fun e : Nat × SaveImage => decide (e.1 = h)) ∘
          (fun e => if e.1 = g then (e.1, { e.2 with written := pa :: e.2.written }) else e) = fun e => decide (e.1 = h) := by
        funext e; simp only [Function.comp_apply]; split <;> rfl
      have hg : a = pa → h = g := fun e => by rw [e, hr] at hra; cases hra; rfl
      simp only [ho, if_false, List.find?_map, hkey]
      cases hf : saves.find? (fun e => e.1 = h) with
      | none => simp
      | some e =>
        have he : e.1 = h := by simpa using List.find?_some hf
        by_cases hgh : e.1 = g
        · by_cases ha : a = pa
          · simp [hgh, ha]
          · simp [hgh, ha]
        · rw [if_neg (fun ha => hgh (he.trans (hg ha)))]
          simp [hgh]
  | scratch h o => exact (ite_self _).symm
  | host => exact (ite_self _).symm
  | fabric q f => exact (ite_self _).symm
  | hole => exact (ite_self _).symm

/-- The write of a byte makes it plain in a save area, and leaves memory's other bytes. -/
theorem putByte_cases (s : State) (pa : Nat) (v : Byte) {lo hi : Bool} (h : (lo || hi) = true) :
    (s.putByte pa v lo hi).mem = Memory.put s.mem pa (nibbles (s.rawByte pa) v lo hi) ∧
      ∀ a, cipherAt (s.putByte pa v lo hi).saves a = if a = pa then none else cipherAt s.saves a := by
  have plain (hn : cipherAt s.saves pa = none) (a : Nat) :
      cipherAt s.saves a = if a = pa then none else cipherAt s.saves a := by
    split
    · subst_vars; exact hn
    · rfl
  unfold State.putByte
  rw [if_pos h]
  simp only
  cases hr : region pa with
  | chan g off =>
    simp only
    by_cases ho : off < saveOff
    · rw [if_pos ho]
      exact ⟨rfl, plain (by simp [cipherAt, hr, ho])⟩
    · rw [if_neg ho]
      exact ⟨rfl, cipherAt_note hr⟩
  | scratch g off => exact ⟨rfl, plain (by simp [cipherAt, hr])⟩
  | host => exact ⟨rfl, plain (by simp [cipherAt, hr])⟩
  | fabric q f => exact ⟨rfl, plain (by simp [cipherAt, hr])⟩
  | hole => exact ⟨rfl, plain (by simp [cipherAt, hr])⟩

/-- R69, R74: the write of a byte gives it its enabled nibbles, and leaves every other byte. -/
theorem rawByte_putByte {s : State} (h : Memory.wf s.mem = true) (pa : Nat) (v : Byte) (lo hi : Bool) (a : Nat) :
    (s.putByte pa v lo hi).rawByte a = if a = pa then nibbles (s.rawByte pa) v lo hi else s.rawByte a := by
  cases he : lo || hi with
  | false =>
    simp only [Bool.or_eq_false_iff] at he
    rw [he.1, he.2, nibbles_none, State.putByte, if_neg (by decide)]
    split
    · subst_vars; rfl
    · rfl
  | true =>
    obtain ⟨hm, hs⟩ := putByte_cases s pa v he
    rw [rawByte_eq, hm, hs a, Memory.get_put h]
    by_cases ha : a = pa
    · simp only [ha, if_true, Option.getD_none]
    · simp only [ha, if_false, rawByte_eq s a]

/-- R69: the bytes from j on of a word that is written, and all others. -/
theorem rawByte_putBytes (pa : Nat) (v : Word) (en : BitVec 16) : ∀ (n : Nat) {s : State}, n ≤ 8 → Memory.wf s.mem = true →
    (∀ a, ¬ (pa + (8 - n) ≤ a ∧ a < pa + 8) → (s.putBytes pa v en n).rawByte a = s.rawByte a) ∧
    ∀ j, 8 - n ≤ j → j < 8 → (s.putBytes pa v en n).rawByte (pa + j)
      = nibbles (s.rawByte (pa + j)) (v.extractLsb' (8 * j) 8) (en.getLsbD (2 * j)) (en.getLsbD (2 * j + 1))
  | 0, s, _, _ => ⟨fun _ _ => rfl, fun j h1 h2 => by omega⟩
  | n + 1, s, hn, hw => by
    obtain ⟨hrest, hbytes⟩ := rawByte_putBytes pa v en n
      (s := s.putByte (pa + (7 - n)) (v.extractLsb' (8 * (7 - n)) 8) (en.getLsbD (2 * (7 - n))) (en.getLsbD (2 * (7 - n) + 1)))
      (by omega) (wf_putByte hw _ _ _ _)
    refine ⟨fun a ha => ?_, fun j h1 h2 => ?_⟩
    · rw [State.putBytes, hrest a (by omega), rawByte_putByte hw, if_neg (by omega)]
    · rw [State.putBytes]
      by_cases hj : j = 7 - n
      · rw [hrest (pa + j) (by omega), rawByte_putByte hw, if_pos (by omega), hj]
      · rw [hbytes j (by omega) h2, rawByte_putByte hw, if_neg (by omega)]

/-! ### The write of a word -/

theorem rawByte_write_eq (s : State) (b : Option (Nat × Nat)) (w : WordWrite) (hid : Bool) (a : Nat) :
    (s.write b w hid).rawByte a = (s.putBytes (s.storage w.pa hid) w.data w.en 8).rawByte a := by
  obtain ⟨c, h⟩ := wake_eq (s.putWord w hid) w.pa b
  unfold State.write
  rw [h]
  unfold State.putWord
  simp only
  split <;> split <;> rfl

/-- R60, R69: the bytes of other words than the one that is written. -/
theorem rawByte_write_other {s : State} (h : Memory.wf s.mem = true) (b : Option (Nat × Nat)) (w : WordWrite) (hid : Bool) {a : Nat}
    (ha : ¬ (s.storage w.pa hid ≤ a ∧ a < s.storage w.pa hid + 8)) : (s.write b w hid).rawByte a = s.rawByte a := by
  rw [rawByte_write_eq, (rawByte_putBytes _ _ _ 8 le_rfl h).1 a (by omega)]

theorem rawByte_write_same {s : State} (h : Memory.wf s.mem = true) (b : Option (Nat × Nat)) (w : WordWrite) (hid : Bool) {j : Nat}
    (hj : j < 8) : (s.write b w hid).rawByte (s.storage w.pa hid + j) = nibbles (s.rawByte (s.storage w.pa hid + j))
      (w.data.extractLsb' (8 * j) 8) (w.en.getLsbD (2 * j)) (w.en.getLsbD (2 * j + 1)) := by
  rw [rawByte_write_eq, (rawByte_putBytes _ _ _ 8 le_rfl h).2 j (by omega) hj]

theorem extract_nibble (x : Word) (j n : Nat) (h : n + 4 ≤ 8) :
    (x.extractLsb' (8 * j) 8).extractLsb' n 4 = x.extractLsb' (8 * j + n) 4 := by
  ext i hi
  simp only [BitVec.getElem_extractLsb', BitVec.getLsbD_extractLsb', Nat.add_assoc]
  simp [show n + i < 8 by omega]

/-- R60: the tags after the write of a word. -/
theorem tags_write (s : State) (b : Option (Nat × Nat)) (w : WordWrite) (hid : Bool) :
    (s.write b w hid).tags = if (region w.pa).tagged = true
      then Sparse.put s.tags (s.storage w.pa hid / 8) (storeTag (Sparse.get 0 s.tags (s.storage w.pa hid / 8)) w.en w.tag)
      else s.tags := by
  obtain ⟨c, h⟩ := wake_eq (s.putWord w hid) w.pa b
  obtain ⟨m, x, hb⟩ := putBytes_eq (s.storage w.pa hid) w.data w.en 8 s
  unfold State.write
  rw [h]
  unfold State.putWord
  simp only [hb]
  cases (region w.pa).tagged <;> by_cases he : w.en = 0xFFFF <;> simp only [he, Bool.false_eq_true, if_true, if_false]

/-- R60: the tags of another word than the one that is written. -/
theorem tags_write_other (s : State) (b : Option (Nat × Nat)) (w : WordWrite) (hid : Bool) {a : Nat}
    (h : a ≠ s.storage w.pa hid / 8 ∨ (region w.pa).tagged = false) :
    Sparse.get 0 (s.write b w hid).tags a = Sparse.get 0 s.tags a := by
  rw [tags_write]
  split
  next ht =>
    rw [Sparse.get_put, if_neg (h.resolve_right (by simp [ht]))]
  · rfl

theorem bound_of_parts : ∀ (b : Bool) (old : BitVec 3), (BitVec.ofBool b ++ old.extractLsb' 0 2).getLsbD 2 = b := by decide

theorem states_of_parts : ∀ (b : Bool) (old : BitVec 3),
    (BitVec.ofBool b ++ old.extractLsb' 0 2).extractLsb' 0 2 = old.extractLsb' 0 2 := by decide

theorem storeTag_bound (old : BitVec 3) (en : BitVec 16) (t : Bool) :
    (storeTag old en t).getLsbD 2 = (t || (en ≠ 0xFFFF && old.getLsbD 2)) := by
  unfold storeTag
  rw [bound_of_parts]
  by_cases h : en = 0xFFFF
  · simp [h]
  · rw [if_neg h, Bool.or_comm, decide_eq_true h, Bool.true_and]

theorem storeTag_states (old : BitVec 3) (en : BitVec 16) (t : Bool) :
    (storeTag old en t).extractLsb' 0 2 = old.extractLsb' 0 2 :=
  states_of_parts _ _

/-- R392: a write of a whole word clears its error, and no other. -/
theorem mem_bad_write (s : State) (b : Option (Nat × Nat)) (w : WordWrite) (hid : Bool) (a : Nat) :
    a ∈ (s.write b w hid).bad ↔ a ∈ s.bad ∧ ¬ (w.en = 0xFFFF ∧ a = s.storage w.pa hid / 8) := by
  obtain ⟨c, h⟩ := wake_eq (s.putWord w hid) w.pa b
  obtain ⟨m, x, hb⟩ := putBytes_eq (s.storage w.pa hid) w.data w.en 8 s
  unfold State.write
  rw [h]
  unfold State.putWord
  simp only [hb]
  cases (region w.pa).tagged <;> by_cases he : w.en = 0xFFFF <;>
    simp only [he, Bool.false_eq_true, if_true, if_false] <;> simp


/-! ### A store is applied -/

theorem stores_write (s : State) (b : Option (Nat × Nat)) (w : WordWrite) (hid : Bool) (g k : Nat) :
    ((s.write b w hid).slot g k).stores = (s.slot g k).stores := by
  rcases slot_write s b w hid g k with h | h <;> rw [h]

theorem op?_write (s : State) (b : Option (Nat × Nat)) (w : WordWrite) (hid : Bool) (id : Nat) :
    (s.write b w hid).op? id = s.op? id := by
  unfold State.op?; rw [State.write_ops]

/-- What a run of writes leaves: the count of stores, the operations and cells, where addresses are stored, and the words that none
of them names. -/
structure Stored (s t : State) (pas : List Nat) : Prop where
  stores : ∀ g k, (t.slot g k).stores = (s.slot g k).stores
  op : ∀ id, t.op? id = s.op? id
  cell : ∀ g c, t.cell g c = s.cell g c
  bytes : ∀ a, (∀ p ∈ pas, ¬ (s.storage p false ≤ a ∧ a < s.storage p false + 8)) → t.rawByte a = s.rawByte a
  tags : ∀ a, (∀ p ∈ pas, s.storage p false / 8 ≠ a) → Sparse.get 0 t.tags a = Sparse.get 0 s.tags a

theorem stored_writes (b : Option (Nat × Nat)) : ∀ (ws : List WordWrite) {s : State}, Memory.wf s.mem = true →
    Stored s (ws.foldl (fun u w => u.write b w) s) (ws.map (·.pa))
  | [], _, _ => ⟨fun _ _ => rfl, fun _ => rfl, fun _ _ => rfl, fun _ _ => rfl, fun _ _ => rfl⟩
  | w :: ws, s, h => by
    have ih := stored_writes b ws (s := s.write b w) (wf_write h b w false)
    refine ⟨fun g k => ?_, fun id => ?_, fun g c => ?_, fun a ha => ?_, fun a ha => ?_⟩
    · exact (ih.stores g k).trans (stores_write ..)
    · exact (ih.op id).trans (op?_write ..)
    · exact (ih.cell g c).trans (cell_write ..)
    · simp only [List.map_cons, List.forall_mem_cons] at ha
      exact (ih.bytes a (by simpa only [storage_write] using ha.2)).trans (rawByte_write_other h b w false ha.1)
    · simp only [List.map_cons, List.forall_mem_cons] at ha
      exact (ih.tags a (by simpa only [storage_write] using ha.2)).trans (tags_write_other s b w false (.inl (Ne.symm ha.1)))

section
variable {s : State} {o : Op} {ws : List WordWrite} (h : InFlight s o) (hk : o.kind = .store ws) (hf : s.isFirst o = true)
include h hk hf

theorem storeApply_whole (hn : s.ev.opt = none) :
    exec .storeApply s = .next (ws.foldl (fun u w => u.write (some (o.g, o.k)) w) (s.endOp o)) := by
  rw [show exec .storeApply s = s.onOp _ from rfl, onOp_of_inFlight h]
  simp only [hk, hf, hn, Bool.not_true, Bool.false_eq_true, if_false]

/-- R233, R237, R255: one word of several, the first at its address. -/
theorem storeApply_part {n : Nat} {w : WordWrite} (hn : s.ev.opt = some n) (hw : ws[n]? = some w) (h2 : 2 ≤ ws.length)
    (hfirst : ∀ i < n, ∀ x, ws[i]? = some x → x.pa ≠ w.pa) :
    exec .storeApply s = .next ((s.write (some (o.g, o.k)) w).setKind o.id (.store (ws.eraseIdx n))) := by
  have hnone : (ws.take n).any (fun u => u.pa = w.pa) = false := by
    rw [List.any_eq_false]
    intro x hx
    obtain ⟨i, hi, rfl⟩ := List.mem_take_iff_getElem.mp hx
    simpa using hfirst i (by omega) _ (List.getElem?_eq_getElem (by omega))
  rw [show exec .storeApply s = s.onOp _ from rfl, onOp_of_inFlight h]
  simp only [hk, hf, hn, Bool.not_true, Bool.false_eq_true, if_false]
  unfold State.storePart
  simp only [hw, hnone]
  rw [if_neg (by simp; omega)]

end

/-- Settles O24: the write of a word byte by byte, and a store as the fold of its writes. -/
theorem storesApply : Obligations.StoresApply := by
  unfold Obligations.StoresApply
  refine ⟨fun s b w hid hw => ⟨fun a ha => rawByte_write_other hw b w hid ha, fun j hj => ?_, storage_write s b w hid,
    wf_write hw b w hid, fun ht => ?_, fun a ha => tags_write_other s b w hid ha, mem_bad_write s b w hid⟩,
    fun s o ws h hk hl hcls hf hw => ⟨fun n w hn hwn h2 hfirst => ⟨storeApply_part h hk hf hn hwn h2 hfirst, ?_, fun a ha => ?_⟩,
      fun hn => ⟨_, storeApply_whole h hk hf hn, rfl, ?_⟩⟩⟩
  · rw [rawByte_write_same hw b w hid hj, nibbles, extract_nibble _ _ _ (by omega), extract_nibble _ _ _ (by omega)]
    rfl
  · rw [tags_write, if_pos ht, Sparse.get_put, if_pos rfl, storeTag_bound, storeTag_states]
    exact ⟨rfl, rfl⟩
  · rw [slot_setKind, stores_write]
  · exact rawByte_write_other hw _ w false ha
  · have st := stored_writes (some (o.g, o.k)) ws (s := s.endOp o) (by rw [State.endOp_mem]; exact hw)
    have hcount := count_endOp (s := s) hcls hl
    refine ⟨(st.stores o.g o.k).trans hcount, (st.op o.id).trans (op?_endOp s o), fun g c => (st.cell g c).trans (cell_endOp ..),
      fun a ha => ?_, fun a ha => ?_⟩
    · rw [st.bytes a (by simpa [storage_endOp] using ha), rawByte_endOp]
    · rw [st.tags a (by simpa [storage_endOp] using ha), State.endOp_tags]

end Sys2Proof.Accesses
end

