-- ==== Sys2Proof/Proofs/FullEmptyWords.lean ====
section
/-! SUPPORT. Sys2Proof/Proofs/FullEmptyWords.lean: the issue of full and empty instructions, what a trap of one keeps, the queue at a word, and
an operation that arrives, waits or applies there (O25). -/

namespace Sys2Proof.Accesses
open Sys2Proof.Machine Sys2Proof.Organisation Sys2Proof.Threads

/-! ### The issue of full and empty instructions (R234) -/

section
variable {i : Instr} {s : State} {g k : Nat} {d a b : Name} {f : FullEmpty} {t : Target} (hc : s.cur = .slot g k)
  (ra : readName a s = .ok (s.val a, s.took a)) (hta : (s.val a).t = false)
include hc ra hta

/-- R219, R234: a reading form holds the loads counter, and its slot waits. -/
theorem fullEmptyOp_reads (hl : s.me.loads < 255)
    (hx : access (s.val a).v 8 8 .atomic .fullEmpty false (s.took a) = .ok (t, s.took a))
    (hb : (s.took a).badWord t.pa 8 = none) :
    fullEmptyOp i f a b d true s = .ok (.stay, ((s.took a).accept i .loads
      (.fullEmpty f t.pa (s.val a).v {} (s.lateDst d))).awaiting (s.took a).nextId) := by
  have hc' : (s.took a).cur = .slot g k := by rw [took_cur, hc]
  have hl' : (s.took a).me.count .loads < 255 := by rw [count_took]; exact hl
  rw [fullEmptyOp, M.bind_ok (ctlOperand_of_clear ra hta)]
  simp only [if_true]
  rw [M.bind_ok (M.pure_apply _ _), M.bind_ok hx, M.bind_ok (softCheck_of_good hc' hb), M.bind_ok (M.get_apply _),
    M.bind_ok (emit_of_room hc' hl' _ _), lateDst_took]
  rfl

omit hc in
/-- R234: a writing form raises no counter, and its slot waits. -/
theorem fullEmptyOp_writes (rb : readName b (s.took a) = .ok ((s.took a).val b, (s.took a).took b))
    (hx : access (s.val a).v 8 8 .atomic .fullEmpty false ((s.took a).took b) = .ok (t, (s.took a).took b)) :
    fullEmptyOp i f a b d false s = .ok (.stay, (((s.took a).took b).acceptFree i
      (.fullEmpty f t.pa (s.val a).v ((s.took a).val b) none)).awaiting ((s.took a).took b).nextId) := by
  rw [fullEmptyOp, M.bind_ok (ctlOperand_of_clear ra hta)]
  simp only [Bool.false_eq_true, if_false]
  rw [M.bind_ok rb, M.bind_ok hx, M.bind_ok (M.get_apply _)]
  rfl

end

/-! ### A trap of the waiting instruction keeps memory and its tags (R61, R264) -/

theorem tagOf_of_shadow {s t : State} (ht : t.tags = s.tags) (h : ∀ g, (t.core g).shadow = (s.core g).shadow) (pa : Nat) :
    t.tagOf pa = s.tagOf pa := by
  unfold State.tagOf; rw [ht, storage_of_shadow h]

theorem shadow_setSlot (s : State) (g k : Nat) (x : Slot) (h : Nat) : ((s.setSlot g k x).core h).shadow = (s.core h).shadow := by
  rw [core_setSlot]
  split
  · subst_vars; rfl
  · rfl

theorem shadow_trace (s : State) (g kind k pc detail h : Nat) : ((s.trace g kind k pc detail).core h).shadow = (s.core h).shadow := by
  rcases trace_cases s g kind k pc detail with e | ⟨r, e⟩ <;> rw [e]
  rw [core_setCore]
  split
  · subst_vars; rfl
  · rfl

theorem inHandler_setQueue (x : Slot) (d : Nat) (q : List Tagged) : (x.setQueue d q).inHandler = x.inHandler := by
  unfold Slot.setQueue; split <;> rfl

theorem inHandler_putBack (s : State) (g k : Nat) : ((s.putBack g k).slot g k).inHandler = (s.slot g k).inHandler := by
  have back (l : List (Nat × Tagged)) (x : Slot) :
      (l.foldr (fun e y => y.setQueue e.1 (e.2 :: y.queue e.1)) x).inHandler = x.inHandler := by
    induction l with
    | nil => rfl
    | cons e l ih => rw [List.foldr_cons, inHandler_setQueue, ih]
  unfold State.putBack
  simp only
  split
  · rfl
  · rw [slot_setSlot, if_pos ⟨rfl, rfl⟩]
    exact back _ _

/-- The words that go back to the ports change their slot alone. -/
theorem putBack_cases (s : State) (g k : Nat) : s.putBack g k = s ∨ ∃ x, s.putBack g k = s.setSlot g k x := by
  unfold State.putBack
  simp only
  split
  · exact .inl rfl
  · exact .inr ⟨_, rfl⟩

/-- What the trap of a slot with a handler that it is not in keeps. -/
theorem takeTrap_keeps {s : State} {g k : Nat} (hi : (s.slot g k).inHandler = false) (ht : (s.core g).tvec.getLsbD 0 = true)
    (code : Nat) (df : Bool) (v st epc : Word) :
    (s.takeTrap g k code df v st epc).mem = s.mem ∧ (s.takeTrap g k code df v st epc).tags = s.tags ∧
      ∀ h, ((s.takeTrap g k code df v st epc).core h).shadow = (s.core h).shadow := by
  unfold State.takeTrap
  simp only [hi, ht, Bool.not_true, Bool.or_self, Bool.false_eq_true, if_false]
  refine ⟨trace_mem .., ?_, fun h => ?_⟩
  · rcases trace_cases s g 3 k epc.toNat code with e | ⟨r, e⟩ <;> rw [e] <;> rfl
  · rw [shadow_setSlot, shadow_trace]

theorem tvec_setSlot (s : State) (g k : Nat) (x : Slot) (h : Nat) : ((s.setSlot g k x).core h).tvec = (s.core h).tvec := by
  rw [core_setSlot]
  split
  · subst_vars; rfl
  · rfl

theorem tvec_endOp (s : State) (o : Op) (g : Nat) : ((s.endOp o).core g).tvec = (s.core g).tvec := by
  have e := congrArg Core.tvec (core_endOp s o g)
  exact e

theorem inHandler_endOp (s : State) (o : Op) (g k : Nat) : ((s.endOp o).slot g k).inHandler = (s.slot g k).inHandler := by
  rcases slot_endOp_apart s o g k with h | ⟨c, -, -, -, -, h⟩ <;> rw [h]
  cases c <;> rfl

/-- R264: an operation that ends in a trap of the waiting instruction leaves memory, its tags and the shadow entries. -/
theorem endTrap_keeps {s : State} {o : Op} (hi : (s.slot o.g o.k).inHandler = false) (ht : (s.core o.g).tvec.getLsbD 0 = true)
    (code : Nat) (v : Word) (sub : Nat) :
    ((s.endOp o).releaseTrap o code v sub).mem = s.mem ∧ ((s.endOp o).releaseTrap o code v sub).tags = s.tags ∧
      ∀ h, (((s.endOp o).releaseTrap o code v sub).core h).shadow = (s.core h).shadow := by
  have hback : (((s.endOp o).putBack o.g o.k).slot o.g o.k).inHandler = false := by rw [inHandler_putBack, inHandler_endOp, hi]
  rcases putBack_cases (s.endOp o) o.g o.k with e | ⟨x, e⟩ <;> rw [e] at hback
  · have hv : ((s.endOp o).core o.g).tvec.getLsbD 0 = true := by rw [tvec_endOp, ht]
    obtain ⟨hm, htags, hsh⟩ := takeTrap_keeps hback hv code false v (tstatOf sub 0 o.major o.fn 0) ((s.endOp o).slot o.g o.k).pc
    unfold State.releaseTrap
    rw [e]
    exact ⟨hm.trans (State.endOp_mem s o), htags.trans (State.endOp_tags s o), fun h => (hsh h).trans (shadow_endOp s o h)⟩
  · have hv : (((s.endOp o).setSlot o.g o.k x).core o.g).tvec.getLsbD 0 = true := by rw [tvec_setSlot, tvec_endOp, ht]
    obtain ⟨hm, htags, hsh⟩ := takeTrap_keeps hback hv code false v (tstatOf sub 0 o.major o.fn 0) ((s.endOp o).slot o.g o.k).pc
    unfold State.releaseTrap
    rw [e]
    exact ⟨hm.trans (State.endOp_mem s o), htags.trans (State.endOp_tags s o),
      fun h => (hsh h).trans ((shadow_setSlot ..).trans (shadow_endOp s o h))⟩

/-! ### The queue at a word (R174) -/

/-- Only an operation that waits at the word is at the head of its queue. -/
theorem queueHead_some {s : State} {pa : Nat} {p : Op} (h : s.queueHead pa = some p) :
    p ∈ s.atWord pa ∧ p.arr.isSome = true ∧ ∀ q ∈ s.atWord pa, q.before p = false := by
  have hm := List.mem_of_find?_eq_some h
  have hp := List.find?_some h
  rw [List.mem_filter] at hm
  exact ⟨hm.1, hm.2, by simpa using hp⟩

theorem before_of_arrived {p q : Op} {a b : Nat} (hp : p.arr = some a) (hq : q.arr = some b) : q.before p = decide (b < a) := by
  unfold Op.before; rw [hp, hq]

/-- Where no operation in flight names a word, its queue does not run. -/
theorem runQueue_of_none {t : State} {pa : Nat} (h : ∀ p ∈ t.ops, ∀ f v y d, p.kind ≠ .fullEmpty f pa v y d) (n : Nat) :
    t.runQueue pa n = t := by
  have hw : t.atWord pa = [] := by
    unfold State.atWord
    rw [List.filter_eq_nil_iff]
    intro p hp hk
    simp only [Bool.and_eq_true] at hk
    have hk := hk.1
    split at hk
    next f q v y d he =>
      have hq : q = pa := by simpa using hk
      exact h p hp f v y d (hq ▸ he)
    · cases hk
  have hh : t.queueHead pa = none := by unfold State.queueHead; rw [hw]; rfl
  cases n with
  | zero => rfl
  | succ n => unfold State.runQueue; rw [hh]

section
variable {t : State} {pa : Nat} {p : Op} {f : FullEmpty} {va : Word} {y : Tagged} {dst : Option Nat}
  (hh : t.queueHead pa = some p) (hk : p.kind = .fullEmpty f pa va y dst)
include hh hk

theorem runQueue_applies (n : Nat) (hf : f.canApply ((t.tagOf pa).getLsbD 0) = true) :
    t.runQueue pa (n + 1) = (t.applyFullEmpty p f pa va y dst).runQueue pa n := by
  rw [State.runQueue, hh]
  simp only [hk, hf, if_true]

theorem runQueue_stops (n : Nat) (hf : f.canApply ((t.tagOf pa).getLsbD 0) = false) : t.runQueue pa (n + 1) = t := by
  rw [State.runQueue, hh]
  simp only [hk, hf, Bool.false_eq_true, if_false]

end


/-! ### An operation at its word (R61, R174, R234) -/

/-- What the word and the slot become when an operation applies. -/
def afterFullEmpty (s : State) (o : Op) (f : FullEmpty) (pa : Nat) (y : Tagged) (dst : Option Nat) : State :=
  let e := s.endOp o
  let put := e.write (some (o.g, o.k)) { pa := pa, data := y.v, en := 0xFFFF, tag := y.t }
  let old : List Tagged := [{ v := s.read64 pa, t := s.loadTag o.g pa 8 false }]
  match f with
  | .ldFe => ((e.setTagBit pa 0 false).arrive o dst old).release o.g o.k
  | .ldFx => (e.arrive o dst old).release o.g o.k
  | .stEf | .stFs => (put.setTagBit pa 0 true).release o.g o.k
  | .stFc => (put.setTagBit pa 0 false).release o.g o.k

section
variable {s : State} {o : Op} {f : FullEmpty} {pa : Nat} (va : Word) (y : Tagged) (dst : Option Nat)

theorem applyFullEmpty_cannot (h : f.canApply ((s.tagOf pa).getLsbD 0) = false) : s.applyFullEmpty o f pa va y dst = s := by
  unfold State.applyFullEmpty
  simp only [h, Bool.not_false, if_true]

theorem applyFullEmpty_sound (hl : o.live = true) (h : f.canApply ((s.tagOf pa).getLsbD 0) = true)
    (hb : f.reads = true → s.badWord pa 8 = none) : s.applyFullEmpty o f pa va y dst = afterFullEmpty s o f pa y dst := by
  have hsoft : (f.reads && (s.badWord pa 8).isSome) = false := by
    cases hr : f.reads with
    | false => rfl
    | true => rw [hb hr]; rfl
  unfold State.applyFullEmpty
  simp only [h, hsoft, hl, Bool.not_true, Bool.false_eq_true, if_false, if_true]
  cases f <;> rfl

theorem applyFullEmpty_soft (hl : o.live = true) (h : f.canApply ((s.tagOf pa).getLsbD 0) = true) (hr : f.reads = true)
    (hb : s.badWord pa 8 ≠ none) :
    s.applyFullEmpty o f pa va y dst = (s.endOp o).releaseTrap o (softCause pa).1 va (softCause pa).2 := by
  unfold State.applyFullEmpty
  simp only [h, hr, Option.isSome_iff_ne_none.mpr hb, hl, Bool.not_true, Bool.and_self, Bool.false_eq_true, if_false, if_true]

variable {va y dst} (h : InFlight s o) (hk : o.kind = .fullEmpty f pa va y dst) (hf : s.isFirst o = true)
include h hk hf

theorem fullEmptyApply_eq : exec .fullEmptyApply s = .next (s.fullEmptyArrive o f pa va y dst) := by
  rw [show exec .fullEmptyApply s = s.onOp _ from rfl, onOp_of_inFlight h]
  simp only [hk, hf, Bool.not_true, Bool.false_eq_true, if_false]

theorem fullEmptyApply_head (hh : s.queueHead pa = some o) :
    exec .fullEmptyApply s = .next (s.fullEmptyStep o f pa va y dst) := by
  rw [fullEmptyApply_eq h hk hf, State.fullEmptyArrive, if_pos (queueHead_some hh).2.1, if_pos hh]

theorem fullEmptyApply_behind {n : Nat} (ha : o.arr = some n) (hh : s.queueHead pa ≠ some o) :
    exec .fullEmptyApply s = .next s := by
  rw [fullEmptyApply_eq h hk hf, State.fullEmptyArrive, if_pos (by rw [ha]; rfl), if_neg hh]

variable (ha : o.arr = none)
include ha

theorem fullEmptyApply_outranked (hp : ∃ p ∈ s.atWord pa, p.arr = none ∧ p.outranks o = true) :
    exec .fullEmptyApply s = .next s := by
  obtain ⟨p, hp, hpa, hpo⟩ := hp
  rw [fullEmptyApply_eq h hk hf, State.fullEmptyArrive, if_neg (by simp [ha]),
    if_pos (List.any_eq_true.mpr ⟨p, hp, by simp [hpa, hpo]⟩)]

/-- R174, R416: one that nothing goes before applies if it can, st.ef, ld.fe and ld.fx at a word with no queue; otherwise it joins. -/
theorem fullEmptyApply_arrives (hp : ∀ p ∈ s.atWord pa, p.arr = none → p.outranks o = false) :
    exec .fullEmptyApply s = .next
      (if f.canApply ((s.tagOf pa).getLsbD 0) && ((f.canApply true && f.canApply false) || (s.queueHead pa).isNone)
        then s.fullEmptyStep o f pa va y dst else s.arrived o) := by
  have hnone : (s.atWord pa).any (fun p => p.arr.isNone && p.outranks o) = false := by
    rw [List.any_eq_false]
    intro p hm hc
    simp only [Bool.and_eq_true, Option.isNone_iff_eq_none] at hc
    rw [hp p hm hc.1] at hc
    exact absurd hc.2 (by decide)
  rw [fullEmptyApply_eq h hk hf, State.fullEmptyArrive, if_neg (by simp [ha]), if_neg (by simp [hnone])]

end

theorem canApply_iff (f : FullEmpty) (full : Bool) :
    f.canApply full = true ↔ (f = .stFs ∨ f = .stFc) ∨ (f = .stEf ∧ full = false) ∨ ((f = .ldFe ∨ f = .ldFx) ∧ full = true) := by
  cases f <;> cases full <;> decide

/-- Settles O25: the issue of each form; an operation at its word by whether it arrives, waits or is at the head, and by whether it
can apply; and the queue by its head. -/
theorem fullEmptyWords : Obligations.FullEmptyWords := by
  unfold Obligations.FullEmptyWords
  refine ⟨fun s g k hc hl d a b t hta => ⟨fun e he hr hx hb => ?_, fun e he hr hx => ?_⟩,
    fun s o f pa va y dst h hk hl hf => ?_,
    fun s pa p q a b hp hq ha hb => ?_,
    fun t pa n p f va y dst hh hk => ⟨runQueue_applies hh hk n, runQueue_stops hh hk n⟩⟩
  · have accepted (i : Instr) (f : FullEmpty) (h : Ready i s) (ha : i.roles.ra = .src) (ea : i.roles.a = a) :
        issue i (fullEmptyOp i f a 0 d true) s = .next (State.stays (((s.took a).accept i .loads
          (.fullEmpty f t.pa (s.val a).v {} (s.lateDst d))).awaiting (s.took a).nextId)) := by
      subst ea
      rw [issue_of_ready h, fullEmptyOp_reads hc (readName_of_holds (holds_a h ha)) hta hl hx hb, finish_stay]
    fin_cases he <;> exact accepted _ _ hr rfl rfl
  · have accepted (i : Instr) (f : FullEmpty) (h : Ready i s) (ha : i.roles.ra = .src) (hb : i.roles.rb = .src)
        (ea : i.roles.a = a) (eb : i.roles.b = b) :
        issue i (fullEmptyOp i f a b 0 false) s = .next (State.stays ((((s.took a).took b).acceptFree i
          (.fullEmpty f t.pa (s.val a).v ((s.took a).val b) none)).awaiting ((s.took a).took b).nextId)) := by
      obtain ⟨ra, rb⟩ := reads_two h ha hb ea eb
      rw [issue_of_ready h, fullEmptyOp_writes ra hta rb hx, finish_stay]
    fin_cases he <;> exact accepted _ _ hr rfl rfl rfl rfl
  · intro full e put old t applies applicable sound trap
    have ht : t = if f.canApply full then afterFullEmpty s o f pa y dst else s := by
      simp only [t]
      clear_value full
      cases f <;> cases full <;> rfl
    have hreads : f.reads = true ↔ f = .ldFe ∨ f = .ldFx := by cases f <;> decide
    have hstep : sound → s.fullEmptyStep o f pa va y dst = applies := by
      intro hs
      have happly : s.applyFullEmpty o f pa va y dst = t := by
        rw [ht]
        cases hcan : f.canApply full with
        | true => exact applyFullEmpty_sound va y dst hl hcan (fun hr => hs (hreads.mp hr))
        | false => exact applyFullEmpty_cannot va y dst hcan
      unfold State.fullEmptyStep
      rw [happly]
    have hcan : applicable ↔ (f.canApply full && ((f.canApply true && f.canApply false) || (s.queueHead pa).isNone)) = true := by
      simp only [applicable]
      clear_value full
      cases f <;> cases full <;> simp [FullEmpty.canApply]
    refine ⟨fun n ha => ⟨fun hh hs => ?_, fullEmptyApply_behind h hk hf ha⟩, fun hbad hfull hi htv hor => ?_,
      fun ha => fullEmptyApply_outranked h hk hf ha, fun ha hp => ⟨fun happ hs => ?_, fun hnot => ?_⟩⟩
    · rw [fullEmptyApply_head h hk hf hh, hstep hs]
    · have hcan : f.canApply ((s.tagOf pa).getLsbD 0) = true := by
        rw [canApply_iff]
        exact .inr (.inr ⟨by by_contra hn; exact hbad (fun hr => absurd hr hn), hfull⟩)
      have hsoft : f.reads = true ∧ s.badWord pa 8 ≠ none := by
        rw [hreads]
        exact Classical.not_imp.mp hbad
      obtain ⟨hm, htags, hsh⟩ := endTrap_keeps hi htv (softCause pa).1 va (softCause pa).2
      have hstepped : s.fullEmptyStep o f pa va y dst = trap := by
        unfold State.fullEmptyStep
        rw [applyFullEmpty_soft va y dst hl hcan hsoft.1 hsoft.2]
        exact if_pos (by rw [tagOf_of_shadow htags hsh])
      refine ⟨?_, hm, htags⟩
      rcases hor with hh | ⟨ha, hh, hp⟩
      · rw [fullEmptyApply_head h hk hf hh, hstepped]
      · rw [fullEmptyApply_arrives h hk hf ha hp, if_pos (by rw [hcan, hh]; simp), hstepped]
    · have he : exec .fullEmptyApply s = .next applies := by
        rw [fullEmptyApply_arrives h hk hf ha hp, if_pos (hcan.mp happ), hstep hs]
      refine ⟨he, fun hnone => ?_⟩
      rw [he]
      simp only [applies]
      rw [runQueue_of_none hnone, ite_self]
    · rw [fullEmptyApply_arrives h hk hf ha hp, if_neg (fun hc => hnot (hcan.mpr hc))]
      exact ⟨_, rfl, op?_mapOp (f := fun p => { p with arr := some s.nextId }) (fun _ => rfl) (inFlight_op? h), rfl, rfl, rfl⟩
  · have := before_of_arrived ha hb
    rw [(queueHead_some hp).2.2 q hq] at this
    simpa using this.symm

end Sys2Proof.Accesses
end

