-- ==== Sys2Proof/Proofs/BarriersApply.lean ====
section
/-! SUPPORT. Sys2Proof/Proofs/BarriersApply.lean: the end of a phase and its notices, an operation at a barrier unit, and what each does to
its object (O32). -/

namespace Sys2Proof.Accesses
open Sys2Proof.Machine Sys2Proof.Organisation Sys2Proof.Threads

/-! ### Phases and their report codes (R168, R170) -/

theorem test_incomplete {b : BarObj} (h : ¬ (b.arrived = b.expect ∧ b.barr = b.bexp)) : b.test = (b, false) := by
  unfold BarObj.test; rw [if_neg (by simpa using h)]

theorem test_complete {b : BarObj} (ha : b.arrived = b.expect) (hb : b.barr = b.bexp) : b.test =
    ({ b with phase := b.phase + 1, expect := b.expect - b.drops, arrived := 0, drops := 0, barr := 0 }, true) := by
  unfold BarObj.test; rw [if_pos (by simp [ha, hb])]

theorem barCode_zero_iff (phase token : BitVec 16) : barCode phase token = 0 ↔ phase = token := by
  unfold barCode
  simp only
  constructor
  · intro h
    split at h
    · bv_omega
    · split at h <;> cases h
  · rintro rfl
    simp

/-- R170: the code of a token: 0 of the phase itself, 1 of the one before it, 2 of every other. -/
theorem barCode_eq (phase token : BitVec 16) :
    barCode phase token = if phase = token then 0 else if phase = token + 1 then 1 else 2 := by
  by_cases h0 : phase = token
  · rw [if_pos h0, (barCode_zero_iff _ _).mpr h0]
  · have hd : (phase - token).toNat ≠ 0 := by bv_omega
    have h1 : (phase - token).toNat = 1 ↔ phase = token + 1 := by constructor <;> intro h <;> bv_omega
    unfold barCode
    simp only [if_neg hd, if_neg h0, h1]

/-! ### The phase that completes, and the waits at an object (R168, R170, R274) -/

theorem barFinish_incomplete (s : State) (pa : Nat) {b : BarObj} (h : ¬ (b.arrived = b.expect ∧ b.barr = b.bexp)) :
    s.barFinish pa b = s.writeBar pa b := by
  unfold State.barFinish; rw [test_incomplete h]; rfl

theorem barFinish_complete (s : State) (pa : Nat) {b : BarObj} (ha : b.arrived = b.expect) (hb : b.barr = b.bexp) :
    s.barFinish pa b = (s.writeBar pa
      { b with phase := b.phase + 1, expect := b.expect - b.drops, arrived := 0, drops := 0, barr := 0 }).barNotify pa
        (b.phase + 1) false := by
  unfold State.barFinish; rw [test_complete ha hb]; rfl

/-- What a phase change, or a bar.init or bar.inval, makes of one operation in flight. -/
def notified (s : State) (pa : Nat) (phase : BitVec 16) (broken : Bool) (o : Op) : Op :=
  match o.kind with
  | .barPending q va token dl dst =>
    if q = pa then
      if broken then
        match dl with
        | none => { o with kind := .barAnswer va (.refused 0x06) dst }
        | some t => if (s.core o.g).cyc ≤ t then { o with kind := .barAnswer va (.refusedBy 0x06 t) dst } else o
      else if barCode phase token = 0 then o
      else { o with kind := .barNotice va (barCode phase token) dl dst }
    else o
  | .barAnswer va (.tested q _) dst =>
    if q = pa && broken then { o with kind := .barAnswer va (.refused 0x06) dst } else o
  | _ => o

theorem ops_barNotify (s : State) (pa : Nat) (phase : BitVec 16) (broken : Bool) :
    (s.barNotify pa phase broken).ops = s.ops.map (notified s pa phase broken) := rfl

section
variable {s : State} {pa : Nat} {ph : BitVec 16} {o : Op} {va : Word} {dst : Option Nat}

theorem notified_wait {v : BitVec 16} (h : o.kind = .barPending pa va v none dst) :
    notified s pa ph true o = { o with kind := .barAnswer va (.refused 6) dst } := by
  unfold notified; rw [h]; simp

theorem notified_test {w : Word} (h : o.kind = .barAnswer va (.tested pa w) dst) :
    notified s pa ph true o = { o with kind := .barAnswer va (.refused 6) dst } := by
  unfold notified; rw [h]; simp

theorem notified_twait {v : BitVec 16} {l : Nat} (h : o.kind = .barPending pa va v (some l) dst) :
    notified s pa ph true o = if (s.core o.g).cyc ≤ l then { o with kind := .barAnswer va (.refusedBy 6 l) dst } else o := by
  unfold notified; rw [h]; simp

end

/-- A wait that stands after a phase change is one for the new phase. -/
theorem pending_of_notified {s : State} {pa : Nat} {ph : BitVec 16} {o : Op} {va : Word} {t : BitVec 16} {dl : Option Nat}
    {dst : Option Nat} (h : (notified s pa ph false o).kind = .barPending pa va t dl dst) : t = ph := by
  unfold notified at h
  split at h
  next q va' token dl' dst' hk =>
    split at h
    · simp only [Bool.false_eq_true, if_false] at h
      split at h
      next hcode =>
        rw [hk] at h
        cases h
        exact ((barCode_zero_iff _ _).mp hcode).symm
      · cases h
    next hq =>
      rw [hk] at h
      cases h
      exact absurd rfl hq
  next hk =>
    simp only [Bool.and_false, Bool.false_eq_true, if_false] at h
    rw [hk] at h
    cases h
  next hne _ => exact absurd h (hne _ _ _ _ _)

/-- After bar.init and bar.inval no wait without a limit and no bar.test is left at the object. -/
theorem notified_broken (s : State) (pa : Nat) (ph : BitVec 16) (o : Op) (va : Word) (v : BitVec 16) (w : Word) (dst : Option Nat) :
    (notified s pa ph true o).kind ≠ .barPending pa va v none dst ∧ (notified s pa ph true o).kind ≠ .barAnswer va (.tested pa w) dst := by
  unfold notified
  split
  next q va' token dl dst' hk =>
    by_cases hq : q = pa
    · rw [if_pos hq, if_pos rfl]
      cases dl with
      | none => exact ⟨nofun, nofun⟩
      | some l =>
        simp only
        split
        · exact ⟨nofun, nofun⟩
        · rw [hk]; exact ⟨nofun, nofun⟩
    · rw [if_neg hq, hk]
      exact ⟨fun h => by cases h; exact hq rfl, nofun⟩
  next va' q w' dst' hk =>
    by_cases hq : q = pa
    · rw [if_pos (by simp [hq])]
      exact ⟨nofun, nofun⟩
    · rw [if_neg (by simp [hq]), hk]
      exact ⟨nofun, fun h => by cases h; exact hq rfl⟩
  next h1 h2 => exact ⟨h1 _ _ _ _ _, h2 _ _ _ _⟩

/-! ### An operation at its unit (R61, R167, R168, R187) -/

section
variable {s : State} {o : Op} {pa : Nat} {va : Word} {op : BarOp} {dst : Option Nat} (h : InFlight s o)
  (hk : o.kind = .bar pa va op dst)
include h hk

/-- R187: an operation waits for the earlier accesses of its slot to the object. -/
theorem barrierApply_waits (hl : o.live = true) (ht : s.touchedBefore o.g o.k o.id pa 32 = true) :
    exec .barrierOperationApply s = .next s := by
  have hu : s.atUnit o = none := by unfold State.atUnit; simp [hk, hl, ht]
  rw [show exec .barrierOperationApply s = s.onOp _ from rfl, onOp_of_inFlight h]
  simp only [hk, hu, Option.isNone_none, Bool.true_or, if_true]

theorem barrierApply_reached (hu : s.atUnit o ≠ none) (hh : s.heldBack o = false)
    (hp : op.isRelease = true → s.performedBefore o.g o.k o.id = true) :
    exec .barrierOperationApply s = .next (s.applyBar o pa va op dst) := by
  rw [show exec .barrierOperationApply s = s.onOp _ from rfl, onOp_of_inFlight h]
  simp only [hk]
  rw [if_neg]
  simp only [Bool.or_eq_true, Option.isNone_iff_eq_none, Bool.and_eq_true, Bool.not_eq_true', not_or, not_and]
  exact ⟨⟨hu, by simp [hh]⟩, fun hr => by simp [hp hr]⟩

end

section
variable {s : State} {o : Op} {pa : Nat} {va : Word} {op : BarOp} {dst : Option Nat}
  (hop : ∀ c bexp, op ≠ .init c bexp)
include hop

/-- R61: an object with an uncorrectable error is left as it is. -/
theorem applyBar_soft {a : Nat} (hb : s.badWord pa 32 = some a) : s.applyBar o pa va op dst =
    s.setKind o.id (.barAnswer va (.soft (softCause a).1 (softCause a).2 (va + BitVec.ofNat 64 (a - pa))) dst) := by
  cases op with
  | init c bexp => exact absurd rfl (hop c bexp)
  | _ => unfold State.applyBar; simp only [hb]; rfl

theorem applyBar_passed (hb : s.badWord pa 32 = none) (hc : s.barCheck (s.readBar pa) o.g (ownerOf pa) = none) :
    s.applyBar o pa va op dst = s.barEffect o pa va op dst (s.readBar pa) := by
  cases op with
  | init c bexp => exact absurd rfl (hop c bexp)
  | _ => unfold State.applyBar; simp only [hb, hc]

/-- R167: the first check that fails refuses the operation. -/
theorem applyBar_refused {sub : Nat} (ht : ∀ t l, op ≠ .twait t l) (hb : s.badWord pa 32 = none)
    (hc : s.barCheck (s.readBar pa) o.g (ownerOf pa) = some sub) :
    s.applyBar o pa va op dst = s.setKind o.id (.barAnswer va (.refused sub) dst) := by
  cases op with
  | init c bexp => exact absurd rfl (hop c bexp)
  | twait t l => exact absurd rfl (ht t l)
  | _ => unfold State.applyBar; simp only [hb, hc]; rfl

end

theorem applyBar_twait_refused {s : State} {o : Op} {pa : Nat} {va : Word} {t : BitVec 16} {l : Nat} {dst : Option Nat} {sub : Nat}
    (hb : s.badWord pa 32 = none) (hc : s.barCheck (s.readBar pa) o.g (ownerOf pa) = some sub) :
    s.applyBar o pa va (.twait t l) dst = s.setKind o.id (.barAnswer va (.refusedBy sub l) dst) := by
  unfold State.applyBar; simp only [hb, hc]; rfl


/-! ### What each operation does to its object (R168, R170) -/

/-- R168: whether the phase is complete is tested after an operation that only reads, too. -/
def afterReading (b : BarObj) (pa : Nat) (u : State) : State :=
  if b.arrived = b.expect ∧ b.barr = b.bexp then u.barFinish pa b else u

theorem test_iff (b : BarObj) : b.test.2 = true ↔ b.arrived = b.expect ∧ b.barr = b.bexp := by
  by_cases h : b.arrived = b.expect ∧ b.barr = b.bexp
  · rw [test_complete h.1 h.2]; simp [h]
  · rw [test_incomplete h]; simp [h]

theorem after_eq (b : BarObj) (pa : Nat) (u : State) : (if b.test.2 then u.barFinish pa b else u) = afterReading b pa u := by
  unfold afterReading; simp only [test_iff]

section
variable (s : State) (o : Op) (pa : Nat) (va : Word) (dst : Option Nat) (b : BarObj)

theorem barEffect_wait (t : BitVec 16) : s.barEffect o pa va (.wait t) dst b = afterReading b pa (s.setKind o.id
    (if b.phase = t then .barPending pa va t none dst else .barAnswer va (.applied none) dst)) := by
  unfold State.barEffect State.barReply
  simp only [after_eq, barCode_zero_iff]
  by_cases h : b.phase = t
  · rw [if_pos h, if_pos h]
  · rw [if_neg h, if_neg h]

theorem barEffect_test (t : BitVec 16) : s.barEffect o pa va (.test t) dst b = afterReading b pa (s.setKind o.id
    (.barAnswer va (.tested pa (if b.phase = t then 0 else if b.phase = t + 1 then 1 else 2)) dst)) := by
  unfold State.barEffect State.barReply
  simp only [after_eq, barCode_eq]
  congr 5
  split
  · rfl
  · split <;> rfl

theorem barEffect_twait (t : BitVec 16) (l : Nat) : s.barEffect o pa va (.twait t l) dst b = afterReading b pa (s.setKind o.id
    (if b.phase = t then .barPending pa va t (some l) dst
      else .barNotice va (if b.phase = t + 1 then 1 else 2) (some l) dst)) := by
  unfold State.barEffect
  simp only [after_eq, barCode_zero_iff]
  by_cases h : b.phase = t
  · rw [if_pos h, if_pos h]
  · rw [if_neg h, if_neg h, barCode_eq, if_neg h]

variable {s o pa va dst b}

/-- R168: a join that finds no room in its object or in its slot. -/
theorem barEffect_join_full (h : b.expect = 0xFFFF) :
    s.barEffect o pa va .join dst b = s.setKind o.id (.barAnswer va (.refused 7) dst) := if_pos h

theorem barEffect_join_held (h : b.expect ≠ 0xFFFF) (hr : s.timesHeld o.g o.k pa ≠ 0 ∨ 4 ≤ (s.memberPas o.g o.k).length ∨
    (s.slot o.g o.k).freeBmem = none) : s.barEffect o pa va .join dst b = s.setKind o.id (.barAnswer va (.refused 5) dst) :=
  (if_neg h).trans (if_pos (by simpa [or_assoc] using hr))

theorem barEffect_join (h : b.expect ≠ 0xFFFF) (ht : s.timesHeld o.g o.k pa = 0) (hm : (s.memberPas o.g o.k).length < 4)
    (hf : (s.slot o.g o.k).freeBmem ≠ none) : s.barEffect o pa va .join dst b =
      ((s.joinBmem o.g o.k va).barFinish pa { b with expect := b.expect + 1 }).setKind o.id (.barAnswer va (.applied none) dst) :=
  (if_neg h).trans (if_neg (by simp [ht, hf, hm]))

theorem barEffect_arrive (h : b.arrived ≠ b.expect) : s.barEffect o pa va .arrive dst b =
    (s.barFinish pa { b with arrived := b.arrived + 1 }).setKind o.id (.barAnswer va (.applied (some (b.phase.setWidth 64))) dst) :=
  if_neg h

theorem barEffect_arrive_full (h : b.arrived = b.expect) :
    s.barEffect o pa va .arrive dst b = s.setKind o.id (.barAnswer va (.refused 3) dst) := if_pos h

theorem barEffect_drop_full (h : b.arrived = b.expect) :
    s.barEffect o pa va .drop dst b = s.setKind o.id (.barAnswer va (.refused 3) dst) := if_pos h

theorem barEffect_drop_held (h : b.arrived ≠ b.expect) (ht : 1 < s.timesHeld o.g o.k pa) :
    s.barEffect o pa va .drop dst b = s.setKind o.id (.barAnswer va (.refused 5) dst) := (if_neg h).trans (if_pos ht)

theorem barEffect_drop (h : b.arrived ≠ b.expect) (ht : s.timesHeld o.g o.k pa ≤ 1) : s.barEffect o pa va .drop dst b =
    ((s.dropBmem o.g o.k pa).barFinish pa { b with arrived := b.arrived + 1, drops := b.drops + 1 }).setKind o.id
      (.barAnswer va (.applied (some (b.phase.setWidth 64))) dst) :=
  (if_neg h).trans (if_neg (by omega))

end

/-- Settles O32: when an operation waits and when it is refused; what each kind does to an object that passes; a phase's end; and
what becomes of the waits at an object. -/
theorem barriersApply : Obligations.BarriersApply := by
  unfold Obligations.BarriersApply
  refine ⟨fun s o pa va op dst h hk => ⟨barrierApply_waits h hk, fun hu hh hp => ?_⟩,
    fun s pa b => ⟨barFinish_incomplete s pa, fun ha hb => ⟨barFinish_complete s pa ha hb, fun o ho va t dl dst hk => ?_⟩⟩,
    fun s pa ph => ⟨fun o ho va dst hk => ?_, fun o ho va v l dst hk => ?_, fun o ho va v w dst => ?_⟩⟩
  · have hrun := barrierApply_reached h hk hu hh hp
    intro b reply refuse token run
    have hpass (hop : ∀ c bexp, op ≠ .init c bexp) (hb : s.badWord pa 32 = none) (hc : s.barCheck b o.g (ownerOf pa) = none)
        {u : State} (he : s.barEffect o pa va op dst b = u) : run = .next u := by
      rw [← he, ← applyBar_passed hop hb hc]; exact hrun
    refine ⟨fun c bexp hop hcov => ?_, fun c bexp hop hcov => ?_, fun a g off hop hb hr => ?_, fun sub hop ht hb hc => ?_,
      fun sub t l hop hb hc => ?_, fun hb hc => ?_⟩
    · subst hop; exact hrun.trans (congrArg Host.Outcome.next (if_neg (by rw [hcov]; decide)))
    · subst hop; exact hrun.trans (congrArg Host.Outcome.next (if_pos (by rw [hcov]; rfl)))
    · rw [show run = _ from hrun, applyBar_soft hop hb]
      simp only [softCause, hr]
    · rw [show run = _ from hrun, applyBar_refused hop ht hb hc]
    · subst hop; rw [show run = _ from hrun, applyBar_twait_refused hb hc]
    · intro after
      refine ⟨fun hop he => ?_, fun hop he hr => ?_, fun hop he ht hm hf => ?_, fun hop he => ?_, fun hop he => ?_, fun hop he => ?_,
        fun hop he ht => ?_, fun hop he ht => ?_, fun n hop => ?_, fun hop => ?_, fun t hop he => ?_, fun t hop he => ?_,
        fun t hop => ?_, fun t l hop he => ?_, fun t l hop he => ?_⟩ <;> subst hop
      · exact hpass nofun hb hc (barEffect_join_full he)
      · exact hpass nofun hb hc (barEffect_join_held he hr)
      · exact hpass nofun hb hc (barEffect_join he ht hm hf)
      · exact hpass nofun hb hc (barEffect_arrive he)
      · exact hpass nofun hb hc (barEffect_arrive_full he)
      · exact hpass nofun hb hc (barEffect_drop_full he)
      · exact hpass nofun hb hc (barEffect_drop_held he ht)
      · exact hpass nofun hb hc (barEffect_drop he ht)
      · exact hpass nofun hb hc rfl
      · exact hpass nofun hb hc rfl
      · exact hpass nofun hb hc (by rw [barEffect_wait, if_pos he]; rfl)
      · exact hpass nofun hb hc (by rw [barEffect_wait, if_neg he]; rfl)
      · exact hpass nofun hb hc (barEffect_test ..)
      · exact hpass nofun hb hc (by rw [barEffect_twait, if_pos he]; rfl)
      · exact hpass nofun hb hc (by rw [barEffect_twait, if_neg he]; rfl)
  · rw [barFinish_complete s pa ha hb, ops_barNotify] at ho
    obtain ⟨p, -, rfl⟩ := List.mem_map.mp ho
    exact pending_of_notified hk
  · refine List.mem_map.mpr ⟨o, ho, ?_⟩
    rcases hk with ⟨v, hk⟩ | ⟨w, hk⟩
    · exact notified_wait hk
    · exact notified_test hk
  · exact List.mem_map.mpr ⟨o, ho, notified_twait hk⟩
  · obtain ⟨p, -, rfl⟩ := List.mem_map.mp ho
    exact notified_broken s pa ph p va v w dst

end Sys2Proof.Accesses
end

