-- ==== Sys2Proof/Proofs/Rounding32.lean ====
section
/-! SUPPORT. Sys2Proof/Proofs/Rounding32.lean: rounding to the nearest multiple of a power of two, and to binary32: what it is off by. -/

namespace Sys2Proof.Accesses
open Sys2Proof.Machine

/-! ### Powers of two and the length of a number -/

theorem bitLen_le_iff (m n : Nat) : bitLen m ≤ n ↔ m < 2 ^ n := by
  unfold bitLen
  by_cases h : m = 0
  · simp [h]
  · rw [if_neg h, Nat.add_one_le_iff, Nat.log2_lt h]

theorem pow_bitLen_le {m : Nat} (h : m ≠ 0) : 2 ^ (bitLen m - 1) ≤ m := by
  unfold bitLen
  rw [if_neg h, Nat.add_sub_cancel]
  exact Nat.log2_self_le h

theorem bitLen_pos {m : Nat} (h : m ≠ 0) : 1 ≤ bitLen m := by
  unfold bitLen; rw [if_neg h]; omega

theorem two_zpow_pos (e : Int) : (0 : ℚ) < 2 ^ e := zpow_pos (by norm_num) e

/-- A power of two as a natural multiple of a smaller one. -/
theorem two_zpow_split {e q : Int} (h : q ≤ e) : (2 : ℚ) ^ e = ((2 ^ (e - q).toNat : Nat) : ℚ) * 2 ^ q := by
  rw [Nat.cast_pow, Nat.cast_ofNat, ← zpow_natCast, ← zpow_add₀ (by norm_num)]
  congr 1; omega

/-! ### Rounding to the nearest multiple of a power of two (R81) -/

/-- The nearest count of units of 2^sh in m, the even one of two as near. -/
def nearest (m sh : Nat) : Nat :=
  if 2 ^ sh < 2 * (m % 2 ^ sh) ∨ (2 * (m % 2 ^ sh) = 2 ^ sh ∧ m / 2 ^ sh % 2 = 1) then m / 2 ^ sh + 1 else m / 2 ^ sh

theorem quantize_fine {neg : Bool} {m : Nat} {e q : Int} (h : q ≤ e) :
    (quantize 0 neg m e false q).1 = m * 2 ^ (e - q).toNat := by
  unfold quantize; rw [if_pos h]

theorem quantize_coarse {neg : Bool} {m : Nat} {e q : Int} (h : e < q) :
    (quantize 0 neg m e false q).1 = nearest m (q - e).toNat := by
  obtain ⟨k, hk⟩ : ∃ k, (q - e).toNat = k + 1 := ⟨(q - e).toNat - 1, by omega⟩
  unfold quantize nearest
  rw [if_neg (by omega)]
  simp only [hk, Nat.add_sub_cancel, Nat.pow_succ]
  congr 1
  simp only [Bool.and_false, Bool.or_false, Bool.not_false, Bool.and_true, Bool.or_eq_true, Bool.and_eq_true, decide_eq_true_eq,
    eq_iff_iff]
  constructor <;> rintro (h | h) <;> [left; right; left; right] <;> omega

/-- The rounding is off by half a unit at most. -/
theorem nearest_error (m sh : Nat) : 2 * |((nearest m sh * 2 ^ sh : Nat) : Int) - m| ≤ (2 ^ sh : Nat) := by
  have hdiv := Nat.div_add_mod m (2 ^ sh)
  have hlt := Nat.mod_lt m (Nat.two_pow_pos sh)
  have hmul : m / 2 ^ sh * 2 ^ sh = 2 ^ sh * (m / 2 ^ sh) := Nat.mul_comm _ _
  rw [← abs_two, ← abs_mul]
  unfold nearest
  rw [abs_le]
  split
  · rw [Nat.add_mul, Nat.one_mul]; omega
  · omega

theorem nearest_le {m sh n : Nat} (h : m ≤ n * 2 ^ sh) : nearest m sh ≤ n := by
  have hpos := Nat.two_pow_pos sh
  have hlo : m / 2 ^ sh ≤ n := Nat.div_le_of_le_mul (by rw [Nat.mul_comm]; exact h)
  unfold nearest
  split
  next hup =>
    refine Nat.lt_of_le_of_ne hlo (fun he => ?_)
    have hdiv := Nat.div_add_mod m (2 ^ sh)
    rw [he, Nat.mul_comm] at hdiv
    omega
  · exact hlo

theorem le_nearest {m sh n : Nat} (h : n * 2 ^ sh ≤ m) : n ≤ nearest m sh := by
  have h1 : n ≤ m / 2 ^ sh := (Nat.le_div_iff_mul_le (Nat.two_pow_pos sh)).mpr h
  unfold nearest
  split <;> omega


/-! ### The same over the rationals -/

section
variable (neg : Bool) (m : Nat) (e q : Int)

theorem coarse_units (h : e < q) : (2 : ℚ) ^ q = ((2 ^ (q - e).toNat : Nat) : ℚ) * 2 ^ e := two_zpow_split h.le

theorem quantize_error : |((quantize 0 neg m e false q).1 : ℚ) * 2 ^ q - m * 2 ^ e| ≤ 2 ^ q / 2 := by
  rcases le_or_gt q e with h | h
  · rw [quantize_fine h, two_zpow_split h, Nat.cast_mul, mul_assoc, sub_self, abs_zero]
    exact (half_pos (two_zpow_pos q)).le
  · have hint := nearest_error m (q - e).toNat
    rw [quantize_coarse h, coarse_units e q h, ← mul_assoc, ← Nat.cast_mul, ← sub_mul, abs_mul, abs_of_pos (two_zpow_pos e),
      le_div_iff₀ (by norm_num), mul_right_comm]
    refine mul_le_mul_of_nonneg_right ?_ (two_zpow_pos e).le
    rw [mul_comm]
    exact_mod_cast hint

variable {neg m e q}

theorem quantize_le {n : Nat} (h : (m : ℚ) * 2 ^ e ≤ n * 2 ^ q) : (quantize 0 neg m e false q).1 ≤ n := by
  rcases le_or_gt q e with hq | hq
  · rw [quantize_fine hq]
    rw [two_zpow_split hq, ← mul_assoc] at h
    exact_mod_cast le_of_mul_le_mul_right h (two_zpow_pos q)
  · rw [quantize_coarse hq]
    rw [coarse_units e q hq, ← mul_assoc] at h
    exact nearest_le (by exact_mod_cast le_of_mul_le_mul_right h (two_zpow_pos e))

theorem le_quantize {n : Nat} (h : (n : ℚ) * 2 ^ q ≤ m * 2 ^ e) : n ≤ (quantize 0 neg m e false q).1 := by
  rcases le_or_gt q e with hq | hq
  · rw [quantize_fine hq]
    rw [two_zpow_split hq, ← mul_assoc] at h
    exact_mod_cast le_of_mul_le_mul_right h (two_zpow_pos q)
  · rw [quantize_coarse hq]
    rw [coarse_units e q hq, ← mul_assoc] at h
    exact le_nearest (by exact_mod_cast le_of_mul_le_mul_right h (two_zpow_pos e))

end

/-! ### The bits of a binary32 value (R78) -/

theorem num32_eq (x : BitVec 32) : num32 x =
    if x.toNat / 2 ^ 23 % 256 = 255 then
      (if x.toNat % 2 ^ 23 = 0 then .inf (x.toNat / 2 ^ 31 % 2 = 1) else .nan)
    else if x.toNat / 2 ^ 23 % 256 = 0 then .fin (x.toNat / 2 ^ 31 % 2 = 1) (x.toNat % 2 ^ 23) (-149)
    else .fin (x.toNat / 2 ^ 31 % 2 = 1) (2 ^ 23 + x.toNat % 2 ^ 23) ((x.toNat / 2 ^ 23 % 256 : Nat) - 1 + -126 - 24 + 1) := rfl

/-- The bits of a sign, an exponent field and a fraction. -/
def bits32 (neg : Bool) (ex fr : Nat) : Nat := (if neg then 2 ^ 31 else 0) + (ex * 2 ^ 23 + fr)

theorem num_bits32 {ex fr : Nat} (neg : Bool) (he : ex < 255) (hf : fr < 2 ^ 23) :
    num32 (BitVec.ofNat 32 (bits32 neg ex fr)) =
      if ex = 0 then .fin neg fr (-149) else .fin neg (2 ^ 23 + fr) ((ex : Int) - 150) := by
  have hx : (BitVec.ofNat 32 (bits32 neg ex fr)).toNat = bits32 neg ex fr := by
    rw [BitVec.toNat_ofNat, Nat.mod_eq_of_lt]
    unfold bits32
    split <;> omega
  have hex : bits32 neg ex fr / 2 ^ 23 % 256 = ex := by unfold bits32; split <;> omega
  have hfr : bits32 neg ex fr % 2 ^ 23 = fr := by unfold bits32; split <;> omega
  have hneg : decide (bits32 neg ex fr / 2 ^ 31 % 2 = 1) = neg := by
    unfold bits32
    cases neg
    · simp; omega
    · simp; omega
  rw [num32_eq, hx, hex, hfr, hneg, if_neg (by omega)]
  congr 2
  omega

/-- A value is finite exactly where its number is. -/
theorem finite_iff (x : BitVec 32) : x.toNat % 2 ^ 31 < 0x7F800000 ↔ ∃ neg m e, num32 x = .fin neg m e := by
  have hx := x.isLt
  have hd : x.toNat % 2 ^ 31 < 0x7F800000 ↔ x.toNat / 2 ^ 23 % 256 ≠ 255 := by omega
  rw [hd, num32_eq]
  constructor
  · intro h
    rw [if_neg h]
    split
    · exact ⟨_, _, _, rfl⟩
    · exact ⟨_, _, _, rfl⟩
  · rintro ⟨neg, m, e, h⟩ hex
    rw [if_pos hex] at h
    split at h <;> cases h

/-! ### Rounding to binary32 (R81) -/

/-- The exponent of the unit that a number is rounded to. -/
def unit32 (m : Nat) (e : Int) : Int := max (e + bitLen m - 24) (-149)

/-- The rounded significand. -/
def signif32 (neg : Bool) (m : Nat) (e : Int) : Nat := (quantize 0 neg m e false (unit32 m e)).1

theorem round32_eq {neg : Bool} {m : Nat} {e : Int} (hm : m ≠ 0) (hr : unit32 m e + bitLen (signif32 neg m e) ≤ 128) :
    (fmt32.round 0 { x := .fin neg m e }).1 =
      let c := if signif32 neg m e = 2 ^ 24 then 2 ^ 23 else signif32 neg m e
      if c < 2 ^ 23 then bits32 neg 0 c
      else bits32 neg (unit32 m e + bitLen (signif32 neg m e) + 126).toNat (c - 2 ^ 23) := by
  have hq : (if e + Int.ofNat (bitLen m) - 1 - Int.ofNat 24 + 1 < -126 - Int.ofNat 24 + 1 then -126 - Int.ofNat 24 + 1
      else e + Int.ofNat (bitLen m) - 1 - Int.ofNat 24 + 1) = unit32 m e := by
    unfold unit32
    simp only [Int.ofNat_eq_natCast]
    split <;> omega
  unfold Fmt.round fmt32
  simp only [hm, if_false, hq]
  rw [show (quantize 0 neg m e false (unit32 m e)).1 = signif32 neg m e from rfl,
    if_neg (by simp only [Int.ofNat_eq_natCast]; omega)]
  have htop : (unit32 m e + Int.ofNat (bitLen (signif32 neg m e)) - 1 - -126 + 1).toNat
      = (unit32 m e + bitLen (signif32 neg m e) + 126).toNat := by
    simp only [Int.ofNat_eq_natCast]; congr 1; omega
  rw [htop]
  simp only [bits32, Fmt.signBits, Nat.zero_mul, Nat.zero_add]
  split
  · rfl
  · exact apply_ite Prod.fst (signif32 neg m e < 2 ^ 23) _ _

section
variable (neg : Bool) {m : Nat} {e : Int} (hm : m ≠ 0)
include hm

omit hm in
theorem below_bitLen (e : Int) : (m : ℚ) * 2 ^ e < 2 ^ (e + bitLen m) := by
  have h : (m : ℚ) < 2 ^ bitLen m := by exact_mod_cast (bitLen_le_iff m _).mp le_rfl
  rw [zpow_add₀ (by norm_num), zpow_natCast, mul_comm]
  exact mul_lt_mul_of_pos_left h (two_zpow_pos e)

theorem above_bitLen (e : Int) : (2 : ℚ) ^ (e + bitLen m - 1) ≤ m * 2 ^ e := by
  have h : (2 : ℚ) ^ (bitLen m - 1) ≤ m := by exact_mod_cast pow_bitLen_le hm
  have hl := bitLen_pos hm
  rw [show e + bitLen m - 1 = e + ((bitLen m - 1 : Nat) : Int) by omega, zpow_add₀ (by norm_num), zpow_natCast, mul_comm]
  exact mul_le_mul_of_nonneg_right h (two_zpow_pos e).le

omit hm in
/-- The significand has 24 bits at most, or is 2^24. -/
theorem signif32_le : signif32 neg m e ≤ 2 ^ 24 := by
  refine quantize_le ((below_bitLen e).le.trans ?_)
  rw [show e + bitLen m = 24 + (e + bitLen m - 24) by omega, zpow_add₀ (by norm_num)]
  push_cast
  exact mul_le_mul_of_nonneg_left (zpow_le_zpow_right₀ (by norm_num) (le_max_left _ _)) (by norm_num)

/-- Above the subnormal range it has 24 bits. -/
theorem signif32_ge (h : unit32 m e ≠ -149) : 2 ^ 23 ≤ signif32 neg m e := by
  have hq : unit32 m e = e + bitLen m - 24 := by unfold unit32 at h ⊢; omega
  refine le_quantize ?_
  rw [hq]
  refine le_trans (le_of_eq ?_) (above_bitLen hm e)
  push_cast
  rw [show e + bitLen m - 1 = 23 + (e + bitLen m - 24) by omega, zpow_add₀ (by norm_num)]
  rfl

variable (hmax : (m : ℚ) * 2 ^ e ≤ (2 ^ 24 - 1) * 2 ^ 104)
include hmax

theorem bitLen_of_max : e + bitLen m ≤ 128 := by
  have h : (2 : ℚ) ^ (e + bitLen m - 1) < 2 ^ (128 : Int) :=
    ((above_bitLen hm e).trans hmax).trans_lt (by norm_num)
  have := (zpow_lt_zpow_iff_right₀ (by norm_num : (1 : ℚ) < 2)).mp h
  omega

theorem unit32_le : unit32 m e ≤ 104 := by
  have := bitLen_of_max hm hmax
  unfold unit32; omega

/-- A number up to the largest does not round beyond it. -/
theorem unit32_signif32 : unit32 m e + bitLen (signif32 neg m e) ≤ 128 := by
  have hq := unit32_le hm hmax
  have hc := signif32_le neg (m := m) (e := e)
  rcases hq.lt_or_eq with hq | hq
  · have : bitLen (signif32 neg m e) ≤ 25 := (bitLen_le_iff _ _).mpr (by omega)
    omega
  · have hc' : signif32 neg m e ≤ 2 ^ 24 - 1 := by
      refine quantize_le (hmax.trans (le_of_eq ?_))
      rw [hq]
      norm_num
    have : bitLen (signif32 neg m e) ≤ 24 := (bitLen_le_iff _ _).mpr (by omega)
    omega

/-- What a number up to the largest rounds to: a finite number of as many units. -/
theorem num_round32 : ∃ m' e', num32 (rnd32 0 { x := .fin neg m e }).1 = .fin neg m' e' ∧
    (m' : ℚ) * 2 ^ e' = signif32 neg m e * 2 ^ unit32 m e := by
  have hr := unit32_signif32 neg hm hmax
  have hc := signif32_le neg (m := m) (e := e)
  have hq : -149 ≤ unit32 m e := le_max_right _ _
  unfold rnd32
  simp only [round32_eq hm hr]
  rcases hc.lt_or_eq with hlt | heq
  · rw [if_neg hlt.ne]
    by_cases hsub : signif32 neg m e < 2 ^ 23
    · have hunit : unit32 m e = -149 := by
        by_contra h
        exact absurd (signif32_ge neg hm h) (by omega)
      rw [if_pos hsub, num_bits32 neg (by norm_num) hsub, if_pos rfl, hunit]
      exact ⟨_, _, rfl, rfl⟩
    · have hlen : bitLen (signif32 neg m e) = 24 := by
        have h1 : bitLen (signif32 neg m e) ≤ 24 := (bitLen_le_iff _ _).mpr hlt
        have h2 : ¬ bitLen (signif32 neg m e) ≤ 23 := by rw [bitLen_le_iff]; exact hsub
        omega
      rw [if_neg hsub, hlen, num_bits32 neg (by omega) (by omega), if_neg (by omega)]
      refine ⟨_, _, rfl, ?_⟩
      rw [Nat.add_sub_cancel' (by omega)]
      congr 2
      omega
  · have hlen : bitLen (signif32 neg m e) = 25 := by rw [heq]; decide +kernel
    rw [if_pos heq, if_neg (by norm_num), hlen, num_bits32 neg (by omega) (by norm_num), if_neg (by omega)]
    refine ⟨_, _, rfl, ?_⟩
    rw [heq, show (((unit32 m e + (25 : Nat) + 126).toNat : Nat) : Int) - 150 = 1 + unit32 m e by omega, zpow_add₀ (by norm_num)]
    push_cast
    ring

/-- R81: the rounding of a number up to the largest is off by one part in 2^24, or by half of the least unit. -/
theorem rat_round32_error : ∃ m' e', num32 (rnd32 0 { x := .fin neg m e }).1 = .fin neg m' e' ∧
    (|(m' : ℚ) * 2 ^ e' - m * 2 ^ e| ≤ m * 2 ^ e / 2 ^ 24 ∨ |(m' : ℚ) * 2 ^ e' - m * 2 ^ e| ≤ 2 ^ (-150 : Int)) := by
  obtain ⟨m', e', hnum, hval⟩ := num_round32 neg hm hmax
  have herr := quantize_error neg m e (unit32 m e)
  refine ⟨m', e', hnum, ?_⟩
  rw [hval]
  by_cases hu : unit32 m e = -149
  · right
    refine le_trans herr (le_of_eq ?_)
    rw [hu]; norm_num
  · left
    have hq : unit32 m e = e + bitLen m - 24 := by unfold unit32 at hu ⊢; omega
    refine le_trans herr ?_
    have ha := above_bitLen hm e
    rw [show e + bitLen m - 1 = 23 + unit32 m e by omega, zpow_add₀ (by norm_num)] at ha
    norm_num at ha ⊢
    linarith

end

end Sys2Proof.Accesses
end

