-- ==== Sys2Proof/Proofs/ProductBound.lean ====
section
/-! SUPPORT. Sys2Proof/Proofs/ProductBound.lean: finite numbers over the rationals, the bound of a product, and an output within it. -/

namespace Sys2Proof.Accesses
open Sys2Proof.Machine

/-! ### Finite numbers over the rationals -/

/-- The sign of a number. -/
def sgn (neg : Bool) : ℚ := if neg then -1 else 1

theorem rat_fin (neg : Bool) (m : Nat) (e : Int) : (FNum.fin neg m e).rat = sgn neg * m * 2 ^ e := rfl

theorem sgn_xor (a b : Bool) : sgn (a ^^ b) = sgn a * sgn b := by cases a <;> cases b <;> norm_num [sgn]

theorem abs_sgn (a : Bool) : |sgn a| = 1 := by cases a <;> norm_num [sgn]

theorem sgn_natAbs (n : Int) : sgn (decide (n < 0)) * (n.natAbs : ℚ) = n := by
  rw [Nat.cast_natAbs, Int.cast_abs]
  unfold sgn
  by_cases h : n < 0
  · rw [if_pos (by simpa using h), abs_of_neg (by exact_mod_cast h)]; ring
  · rw [if_neg (by simpa using h), abs_of_nonneg (by exact_mod_cast not_lt.mp h)]; ring

/-- A finite number as a count of a power of two at or below its own. -/
theorem intAt_rat (neg : Bool) (m : Nat) {e q : Int} (h : q ≤ e) : (intAt neg m e q : ℚ) * 2 ^ q = (FNum.fin neg m e).rat := by
  rw [rat_fin, two_zpow_split h]
  unfold intAt sgn
  cases neg
  · simp [mul_assoc]
  · simp [mul_assoc]

theorem natAbs_intAt_rat (neg : Bool) (m : Nat) {e q : Int} (h : q ≤ e) :
    ((intAt neg m e q).natAbs : ℚ) * 2 ^ q = |(FNum.fin neg m e).rat| := by
  rw [← intAt_rat neg m h, abs_mul, abs_of_pos (two_zpow_pos q), Nat.cast_natAbs, Int.cast_abs]

theorem rat_mul (a b : Bool) (m n : Nat) (e f : Int) :
    (FNum.fin a m e).rat * (FNum.fin b n f).rat = (FNum.fin (a ^^ b) (m * n) (e + f)).rat := by
  simp only [rat_fin, sgn_xor, Nat.cast_mul, zpow_add₀ (show (2 : ℚ) ≠ 0 by norm_num)]
  ring

/-- The reference of a product: the number k times an integer sum. -/
theorem rat_times_int (neg : Bool) (m : Nat) (e : Int) (sum : Int) :
    (FNum.fin (neg ^^ decide (sum < 0)) (m * sum.natAbs) e).rat = (FNum.fin neg m e).rat * sum := by
  simp only [rat_fin, sgn_xor, Nat.cast_mul]
  rw [← sgn_natAbs sum]
  ring

theorem abs_rat (neg : Bool) (m : Nat) (e : Int) : |(FNum.fin neg m e).rat| = m * 2 ^ e := by
  rw [rat_fin, abs_mul, abs_mul, abs_sgn, one_mul, abs_of_pos (two_zpow_pos e), Nat.abs_cast]

/-! ### The bound of a product (R97, R147) -/

/-- A value within the bound of the reference is as near to it as R97 says. -/
theorem withinBound_rat {v : FNum} {mk : Nat} {neg : Bool} {ek sum : Int} {mag : Nat} (h : withinBound v mk neg ek sum mag = true) :
    (∃ nv mv ev, v = .fin nv mv ev) ∧
      |v.rat - (FNum.fin neg mk ek).rat * sum| ≤ |(FNum.fin neg mk ek).rat| * (mag / 128 + 4) := by
  cases v with
  | nan => cases h
  | inf n => cases h
  | fin nv mv ev =>
    refine ⟨⟨_, _, _, rfl⟩, ?_⟩
    have hq : (if ev < ek - 7 then ev else ek - 7) ≤ ev ∧ (if ev < ek - 7 then ev else ek - 7) ≤ ek - 7 := by split <;> omega
    unfold withinBound at h
    simp only [decide_eq_true_eq] at h
    generalize (if ev < ek - 7 then ev else ek - 7) = q at h hq
    have h' := mul_le_mul_of_nonneg_right (Nat.cast_le (α := ℚ).mpr h) (two_zpow_pos q).le
    rw [natAbs_intAt_rat _ _ hq.2, Nat.cast_natAbs, Int.cast_abs, ← abs_of_pos (two_zpow_pos q), ← abs_mul, Int.cast_sub, sub_mul,
      intAt_rat _ _ hq.1, intAt_rat _ _ (show q ≤ ek by omega), rat_times_int, abs_rat] at h'
    refine h'.trans (le_of_eq ?_)
    rw [abs_rat, show ek = ek - 7 + 7 by omega, zpow_add₀ (by norm_num), Int.add_sub_cancel]
    push_cast
    ring

/-- The rounding of the reference is within the bound too, or off by half of the least unit. -/
theorem rounded_within {neg : Bool} {mk : Nat} {ek sum : Int} {mag : Nat} (hmag : sum.natAbs ≤ mag)
    (hmax : |(FNum.fin neg mk ek).rat * sum| ≤ (2 ^ 24 - 1) * 2 ^ 104) :
    let y := (rnd32 0 { x := .fin (neg ^^ decide (sum < 0)) (mk * sum.natAbs) ek }).1
    (∃ ny my ey, num32 y = .fin ny my ey) ∧
      (|(num32 y).rat - (FNum.fin neg mk ek).rat * sum| ≤ |(FNum.fin neg mk ek).rat| * (mag / 128 + 4) ∨
        |(num32 y).rat - (FNum.fin neg mk ek).rat * sum| ≤ 2 ^ (-150 : Int)) := by
  intro y
  rw [← rat_times_int] at hmax ⊢
  rcases eq_or_ne (mk * sum.natAbs) 0 with h0 | h0
  · have hy : num32 y = .fin (neg ^^ decide (sum < 0)) 0 (-149) := by
      simp only [y, h0]
      exact (num_bits32 (ex := 0) (fr := 0) _ (by norm_num) (by norm_num)).trans (if_pos rfl)
    refine ⟨⟨_, _, _, hy⟩, .inr ?_⟩
    rw [hy, h0, rat_fin, rat_fin]
    norm_num
  · obtain ⟨m', e', hy, herr⟩ := rat_round32_error (neg ^^ decide (sum < 0)) (e := ek) h0 (by rwa [abs_rat] at hmax)
    have hoff : |(num32 y).rat - (FNum.fin (neg ^^ decide (sum < 0)) (mk * sum.natAbs) ek).rat|
        = |(m' : ℚ) * 2 ^ e' - (mk * sum.natAbs : Nat) * 2 ^ ek| := by
      rw [show num32 y = _ from hy, rat_fin, rat_fin, mul_assoc, mul_assoc, ← mul_sub, abs_mul, abs_sgn, one_mul]
    refine ⟨⟨_, _, _, hy⟩, ?_⟩
    rw [hoff]
    refine herr.imp_left (fun h => h.trans ?_)
    have hk : (0 : ℚ) ≤ mk * 2 ^ ek := mul_nonneg (Nat.cast_nonneg _) (two_zpow_pos ek).le
    have hs : (sum.natAbs : ℚ) ≤ mag := by exact_mod_cast hmag
    rw [abs_rat, Nat.cast_mul, mul_right_comm, mul_div_assoc]
    refine mul_le_mul_of_nonneg_left ?_ hk
    have h1 : (sum.natAbs : ℚ) / 2 ^ 24 ≤ sum.natAbs / 128 :=
      div_le_div_of_nonneg_left (Nat.cast_nonneg _) (by norm_num) (by norm_num)
    linarith

/-! ### One output (R97) -/

theorem deliver_free_of_not_finite {draw : Nat} {sx sw : BitVec 32} {sum : Int} {mag : Nat}
    (h : ¬ ((∃ a m e, num32 sx = .fin a m e) ∧ ∃ b n f, num32 sw = .fin b n f)) :
    deliver draw sx sw sum mag = Config.freeOutput draw := by
  unfold deliver
  simp only
  split
  next hx hw => exact absurd ⟨⟨_, _, _, hx⟩, ⟨_, _, _, hw⟩⟩ h
  · rfl

section
variable {draw : Nat} {sx sw : BitVec 32} {sum : Int} {mag : Nat} {a b : Bool} {m n : Nat} {e f : Int}
  (hx : num32 sx = .fin a m e) (hw : num32 sw = .fin b n f)
include hx hw

/-- The test of what binary32 holds is one of magnitudes. -/
theorem deliver_of_finite : deliver draw sx sw sum mag =
    if (2 ^ 24 - 1) * 2 ^ 104 < |(num32 sx).rat * (num32 sw).rat * sum| then Config.freeOutput draw
    else if withinBound (num32 (Config.freeOutput draw)) (m * n) (a ^^ b) (e + f) sum mag then Config.freeOutput draw
    else (rnd32 0 { x := .fin ((a ^^ b) ^^ decide (sum < 0)) (m * n * sum.natAbs) (e + f) }).1 := by
  have hq : (if e + f < 104 then e + f else 104) ≤ e + f ∧ (if e + f < 104 then e + f else 104) ≤ 104 := by split <;> omega
  have htest : (intAt false f32Max 104 (if e + f < 104 then e + f else 104)).natAbs
        < (intAt false (m * n * sum.natAbs) (e + f) (if e + f < 104 then e + f else 104)).natAbs ↔
      (2 ^ 24 - 1) * 2 ^ 104 < |(num32 sx).rat * (num32 sw).rat * sum| := by
    generalize (if e + f < 104 then e + f else 104) = q at hq
    rw [← Nat.cast_lt (α := ℚ), ← mul_lt_mul_iff_left₀ (two_zpow_pos q), natAbs_intAt_rat _ _ hq.2, natAbs_intAt_rat _ _ hq.1, hx, hw,
      rat_mul, ← rat_times_int, abs_rat, abs_rat, abs_rat]
    norm_num [f32Max]
  unfold deliver
  rw [hx, hw]
  simp only [FNum.mul]
  rw [hx, hw] at htest
  simp only [htest]

end

/-- R97: an output whose reference binary32 holds is finite and near it; every other one is free. -/
theorem deliver_spec {draw : Nat} {sx sw : BitVec 32} {sum : Int} {mag : Nat} (hmag : sum.natAbs ≤ mag) :
    let y := deliver draw sx sw sum mag
    let c : ℚ := (num32 sx).rat * (num32 sw).rat
    let finite (v : BitVec 32) : Prop := v.toNat % 2 ^ 31 < 0x7F800000
    let promised : Prop := finite sx ∧ finite sw ∧ |c * sum| ≤ (2 ^ 24 - 1) * 2 ^ 104
    let off := |(num32 y).rat - c * sum|
    (promised → finite y ∧ (off ≤ |c| * (mag / 128 + 4) ∨ off ≤ 2 ^ (-150 : Int))) ∧ (¬ promised → y = Config.freeOutput draw) := by
  intro y c finite promised off
  by_cases hfin : (∃ a m e, num32 sx = .fin a m e) ∧ ∃ b n f, num32 sw = .fin b n f
  · obtain ⟨⟨a, m, e, hx⟩, b, n, f, hw⟩ := hfin
    have hc : c = (FNum.fin (a ^^ b) (m * n) (e + f)).rat := by rw [← rat_mul, ← hx, ← hw]
    have hy : y = _ := deliver_of_finite hx hw
    refine ⟨fun hp => ?_, fun hn => ?_⟩
    · have hmax : |c * sum| ≤ (2 ^ 24 - 1) * 2 ^ 104 := hp.2.2
      rw [if_neg (not_lt.mpr hmax)] at hy
      by_cases hin : withinBound (num32 (Config.freeOutput draw)) (m * n) (a ^^ b) (e + f) sum mag = true
      · rw [if_pos hin] at hy
        obtain ⟨hf, hoff⟩ := withinBound_rat hin
        rw [← hc, ← hy] at hoff
        rw [← hy] at hf
        exact ⟨(finite_iff y).mpr hf, .inl hoff⟩
      · rw [if_neg hin] at hy
        rw [hc] at hmax
        obtain ⟨hf, hoff⟩ := rounded_within hmag hmax
        rw [← hc, ← hy] at hoff
        rw [← hy] at hf
        exact ⟨(finite_iff y).mpr hf, hoff⟩
    · have hbig : ¬ |c * sum| ≤ (2 ^ 24 - 1) * 2 ^ 104 := fun h =>
        hn ⟨(finite_iff sx).mpr ⟨_, _, _, hx⟩, (finite_iff sw).mpr ⟨_, _, _, hw⟩, h⟩
      rw [hy, if_pos (not_le.mp hbig)]
  · refine ⟨fun hp => absurd ⟨(finite_iff sx).mp hp.1, (finite_iff sw).mp hp.2.1⟩ hfin, fun _ => deliver_free_of_not_finite hfin⟩

/-! ### The 256 outputs (R145, R147) -/

/-- A sum over pairs of a list and a table is one over the places of the table. -/
theorem zip_sum {β : Type} [AddCommMonoid β] (g : Int → Int → β) (hg : ∀ y, g 0 y = 0) : ∀ (n : Nat) (f : Nat → Int) (xs : List Int),
    ((xs.zip ((List.range n).map f)).map (fun e => g e.1 e.2)).sum = ∑ i ∈ Finset.range n, g (xs.getD i 0) (f i)
  | 0, f, xs => by simp
  | n + 1, f, [] => by simp [hg]
  | n + 1, f, x :: xs => by
    rw [List.range_succ_eq_map, List.map_cons, List.map_map, List.zip_cons_cons, List.map_cons, List.sum_cons,
      zip_sum g hg n (f ∘ Nat.succ) xs, Finset.sum_range_succ', add_comm]
    rfl

theorem intDot_eq_sum (xs : List Int) (f : Nat → Int) :
    intDot xs ((List.range 256).map f) = ∑ i ∈ Finset.range 256, xs.getD i 0 * f i := by
  unfold intDot
  rw [← List.sum_eq_foldl, zip_sum (fun x y => x * y) (fun y => zero_mul y)]

theorem magnitudes_eq_sum (xs : List Int) (f : Nat → Int) :
    ((((xs.zip ((List.range 256).map f)).map (fun e => e.1.natAbs * e.2.natAbs)).foldl (· + ·) 0 : Nat) : ℚ)
      = ((∑ i ∈ Finset.range 256, |xs.getD i 0| * |f i| : Int) : ℚ) := by
  rw [← List.sum_eq_foldl, zip_sum (fun x y => x.natAbs * y.natAbs) (fun y => by simp)]
  push_cast [Nat.cast_natAbs]
  rfl

/-- A sum is no larger than the sum of the magnitudes. -/
theorem natAbs_intDot_le (xs : List Int) (f : Nat → Int) : (intDot xs ((List.range 256).map f)).natAbs ≤
    ((xs.zip ((List.range 256).map f)).map (fun e => e.1.natAbs * e.2.natAbs)).foldl (· + ·) 0 := by
  rw [intDot_eq_sum, ← List.sum_eq_foldl, zip_sum (fun x y => x.natAbs * y.natAbs) (fun y => by simp)]
  zify
  refine (Finset.abs_sum_le_sum_abs _ _).trans (le_of_eq ?_)
  simp only [abs_mul]

end Sys2Proof.Accesses
end

