-- ==== Sys2Proof/Proofs/Crossbar.lean ====
section
/-! SUPPORT. Sys2Proof/Proofs/Crossbar.lean: the largest deviation, the issue of crossbar instructions, what a tile's operations do, and the outputs of
a product (O47). -/

namespace Sys2Proof.Accesses
open Sys2Proof.Machine Sys2Proof.Organisation Sys2Proof.Threads

/-- R97, R145, R147: each of the 256 outputs is delivered from its line of codes. -/
theorem outputs_spec (k : Bank) (trans : Bool) (n : Nat) (sx : BitVec 32) (xs : List Int) :
    (k.outputs trans n sx xs).length = 256 ∧ ∀ j < 256, (k.outputs trans n sx xs).getD j 0 =
      deliver (n + j) sx (if trans then k.swt else k.scales.getD j 0) (intDot xs (k.line trans j))
        (((xs.zip (k.line trans j)).map (fun e => e.1.natAbs * e.2.natAbs)).foldl (· + ·) 0) := by
  unfold Bank.outputs
  refine ⟨by rw [List.length_map, List.length_range], fun j hj => ?_⟩
  rw [List.getD_eq_getElem?_getD, List.getElem?_map, List.getElem?_range hj]
  rfl

/-! ### The largest deviation (R149) -/

theorem notePeak_kept {s : State} {g t dev m : Nat} {b : Bool} (hm : (s.core g).peak = some m) (hd : dev ≤ m) :
    s.notePeak g t b dev = s := by
  unfold State.notePeak
  simp only [hm, Option.any_some, decide_eq_true hd, if_true]

theorem notePeak_raised {s : State} {g t dev : Nat} {b : Bool} (h : ∀ m, (s.core g).peak = some m → m < dev) :
    s.notePeak g t b dev = s.setCore g { s.core g with
      peak := some dev, xbnd := BitVec.ofNat 64 (Nat.min dev 0xFFFF + t * 2 ^ 16 + b.toNat * 2 ^ 18) } := by
  unfold State.notePeak
  refine if_neg ?_
  cases hp : (s.core g).peak with
  | none => simp
  | some m => simpa using h m hp

/-! ### The issue of crossbar instructions (R289, R295) -/

/-- R205: a control field is no port. -/
theorem notPort_of_ctl {i : Instr} {s : State} {d : Name} (h : Ready i s) (hr : i.roles.rd = .ctl) (ed : i.roles.d = d) :
    d.isPort = false := by
  subst ed
  have hn := h.wf
  simp only [Instr.wf, Instr.namesOk, Bool.and_eq_true] at hn
  have hallow := hn.1.2.2
  rw [hr] at hallow
  simp only [Role.allows, Bool.or_eq_true, decide_eq_true_eq] at hallow
  rw [← Bool.not_eq_true, isPort_iff]
  rcases hallow with h0 | h8
  · rw [h0]; decide
  · omega

theorem low_bits (c : Word) : (c.extractLsb' 0 2).toNat = c.toNat % 4 := by simp [BitVec.extractLsb'_toNat]

theorem out_offset (c : Word) : ((c.extractLsb' 12 20).setWidth 64).toNat = c.toNat / 2 ^ 12 % 2 ^ 20 := by
  rw [BitVec.toNat_setWidth, BitVec.extractLsb'_toNat, Nat.shiftRight_eq_div_pow]
  omega

theorem localRun_within {va : Word} {n : Nat} (h : va.toNat + n ≤ 2 ^ 20) (s : State) : localRun va n s = .ok ((), s) := by
  unfold localRun; rw [if_neg (by omega)]; rfl

/-- R295: a crossbar instruction whose operands pass their checks is accepted while its tile's queue has room. -/
theorem xbarOp_of_passed {i : Instr} {f : Eng} {d a : Name} {mask x y c : Word} {n : Nat} {out : Bool} {b : M Word}
    {s s1 s2 t : State} {g k : Nat} (ra : ctlOperand a s = .ok (x, s1)) (rb : b s1 = .ok (y, s2)) (rd : ctlOperand d s2 = .ok (c, t))
    (hc : t.cur = .slot g k) (hmask : c &&& ~~~mask = 0) (hx : x.toNat % 64 = 0) (hn : x.toNat + n ≤ 2 ^ 20)
    (ho : out = true → c.toNat / 2 ^ 12 % 2 ^ 20 % 64 = 0 ∧ c.toNat / 2 ^ 12 % 2 ^ 20 + 1024 ≤ 2 ^ 20)
    (hroom : t.room (OpKind.onTile (c.toNat % 4)) = true) :
    xbarOp i f d a mask n out b s
      = .ok (.next, t.accept i .tiles (.eng f c x y (if out then (t.core g).xcals else 0) none)) := by
  unfold State.room at hroom
  simp only [Bool.and_eq_true, decide_eq_true_eq] at hroom
  have hacc : accept (OpKind.onTile (c.toNat % 4)) 8 t = .ok ((), t) := if_neg (by omega)
  rw [xbarOp, M.bind_ok ra, M.bind_ok rb, M.bind_ok rd]
  simp only [xctlBad, hmask, hx, low_bits, ne_eq, not_true_eq_false, decide_false, Bool.false_eq_true, if_false, out_offset]
  cases out with
  | false =>
    simp only [Bool.false_and, Bool.false_eq_true, if_false]
    rw [M.bind_ok (localRun_within hn t), M.bind_ok hacc, M.bind_ok (M.get_apply _), M.bind_ok (emit_of_room hc (c := .tiles) hroom.2 _ _)]
    rfl
  | true =>
    obtain ⟨ho1, ho2⟩ := ho rfl
    simp only [ho1, Bool.true_and, not_true_eq_false, decide_false, Bool.false_eq_true, if_false, if_true]
    rw [M.bind_ok (localRun_within hn t), M.bind_ok (localRun_within (by rw [out_offset]; exact ho2) t), M.bind_ok hacc,
      M.bind_ok (M.get_apply _), M.bind_ok (emit_of_room hc (c := .tiles) hroom.2 _ _), gk_of_slot hc]
    rfl

theorem ops_took (s : State) (n : Name) : (s.took n).ops = s.ops := by
  rcases took_cases s n with h | ⟨g, k, q, ws, -, h⟩ <;> rw [h]
  rfl

@[simp] theorem room_took (s : State) (n : Name) (mine : OpKind → Bool) : (s.took n).room mine = s.room mine := by
  have hc := count_took s n .tiles
  unfold State.room
  rw [ops_took, gk_took, show (s.took n).me.tiles = s.me.tiles from hc]

@[simp] theorem xcals_took (s : State) (n : Name) (g : Nat) : ((s.took n).core g).xcals = (s.core g).xcals := by
  rcases took_cases s n with h | ⟨h', k, q, ws, -, h⟩ <;> rw [h]
  rw [core_setSlot]
  split
  · subst_vars; rfl
  · rfl

theorem xswpOp_of_passed {i : Instr} {s : State} {d : Name} {c : Word} {g k : Nat} (hc : s.cur = .slot g k)
    (rd : ctlOperand d s = .ok (c, s)) (h4 : c.toNat < 4) (hroom : s.room (OpKind.onTile (c.toNat % 4)) = true) :
    xswpOp i d s = .ok (.next, (s.setMe { s.me with seq := s.me.seq + 1 }).addOp g k none s.me.seq.toNat (encode i)
      (.eng .xswp c 0 0 0 none)) := by
  unfold State.room at hroom
  simp only [Bool.and_eq_true, decide_eq_true_eq] at hroom
  have hacc : accept (OpKind.onTile (c.toNat % 4)) 8 s = .ok ((), s) := if_neg (by omega)
  have hmask : c &&& ~~~(3 : Word) = 0 := by
    have hcases : c = 0 ∨ c = 1 ∨ c = 2 ∨ c = 3 := by bv_omega
    rcases hcases with rfl | rfl | rfl | rfl <;> decide
  rw [xswpOp, M.bind_ok rd]
  simp only [xctlBad, hmask, low_bits, ne_eq, not_true_eq_false, decide_false, Bool.false_eq_true, if_false]
  rw [M.bind_ok hacc, M.bind_ok (show nextSeq s = .ok (s.me.seq.toNat, s.setMe { s.me with seq := s.me.seq + 1 }) from rfl),
    M.bind_ok (M.modify_apply _ _)]
  rw [gk_of_slot (show (s.setMe { s.me with seq := s.me.seq + 1 }).cur = .slot g k from hc)]
  rfl


theorem partOf_took (s : State) (n : Name) (g : Nat) : (s.took n).partOf g = s.partOf g ∧ ∀ p, (s.took n).part p = s.part p := by
  rcases took_cases s n with h | ⟨h', k, q, ws, -, h⟩ <;> rw [h] <;> exact ⟨rfl, fun _ => rfl⟩

/-- R298: xacc clears the tag and sets the partition's status. -/
theorem xaccOp_of_partition {s : State} {g k p : Nat} {d a : Name} (hc : s.cur = .slot g k) (ra : readName a s = .ok (s.val a, s.took a))
    (hp : s.partOf g = some p) : xaccOp d a s = .ok (.next, ((s.took a).setPart p
      { s.part p with approx := true, approxFence := true }).writeName d { v := (s.val a).v, t := false }) := by
  rw [xaccOp, M.bind_ok ra, M.bind_ok (M.modify_apply _ _), M.bind_ok (writeName_apply _ _ _), M.pure_apply]
  simp only [gk_took, gk_of_slot hc, (partOf_took s a g).1, hp, (partOf_took s a g).2]

/-! ### xstat (R149, R298) -/

theorem code_le (b : BankState) : b.code ≤ 3 := by cases b <;> decide

theorem tileByte_lt (s : State) (g t : Nat) : s.tileByte g t < 256 := by
  have h0 := code_le (s.tile g t).bank0.st
  have h1 := code_le (s.tile g t).bank1.st
  have h2 := Bool.toNat_le (s.tile g t).active
  have h3 := Bool.toNat_le (s.ops.any (fun o => o.g = g && o.kind.onTile t))
  unfold State.tileByte
  simp only
  omega

/-- The word of xstat holds a byte for each tile. -/
theorem xstat_byte (b : Nat → Nat) (hb : ∀ t, b t < 256) {t : Nat} (ht : t < 4) :
    (BitVec.ofNat 64 (b 0 + 2 ^ 8 * b 1 + 2 ^ 16 * b 2 + 2 ^ 24 * b 3)).toNat / 2 ^ (8 * t) % 256 = b t := by
  have h0 := hb 0; have h1 := hb 1; have h2 := hb 2; have h3 := hb 3
  have hsum : b 0 + 2 ^ 8 * b 1 + 2 ^ 16 * b 2 + 2 ^ 24 * b 3 < 2 ^ 64 := by omega
  rw [BitVec.toNat_ofNat, Nat.mod_eq_of_lt hsum]
  interval_cases t <;> norm_num <;> omega

theorem xstatOp_apply (s : State) (d : Name) {g k : Nat} (hc : s.cur = .slot g k) : xstatOp d s = .ok (.next, s.writeName d
    { v := BitVec.ofNat 64 (s.tileByte g 0 + 2 ^ 8 * s.tileByte g 1 + 2 ^ 16 * s.tileByte g 2 + 2 ^ 24 * s.tileByte g 3), t := false }) := by
  rw [xstatOp, M.bind_ok (M.get_apply _), gk_of_slot hc]
  rfl

/-! ### A tile runs its oldest operation (R145, R146, R148, R296, R297) -/

theorem row_group (d : Word) : (d.extractLsb' 4 4).toNat = d.toNat / 16 % 16 := by
  simp [BitVec.extractLsb'_toNat, Nat.shiftRight_eq_div_pow]

theorem out_block (d : Word) : (d.extractLsb' 12 20).toNat = d.toNat / 2 ^ 12 % 2 ^ 20 := by
  simp [BitVec.extractLsb'_toNat, Nat.shiftRight_eq_div_pow]

theorem lifetime (z : Word) : (z.extractLsb' 0 16).toNat = z.toNat % 2 ^ 16 := by simp [BitVec.extractLsb'_toNat]

theorem blockFault_reserve {s : State} {g off n : Nat} (h : s.hitsReserve (scrBase g + off) n = true) :
    s.blockFault g off n = some (0x07, 0) := if_pos h

theorem blockFault_run {s : State} {g off n : Nat} (h : s.hitsReserve (scrBase g + off) n = false) :
    s.blockFault g off n = s.runFault g off n := if_neg (by rw [h]; decide)

section
variable {s : State} {o : Op} {d a b z : Word} {dst : Option Nat} (h : InFlight s o)
  (ho : s.oldestOf o (OpKind.onTile (d.toNat % 4)) = true)
include h ho

theorem xprgComplete_runs (hk : o.kind = .eng .xprg d a b z dst) : exec .xprgComplete s = .next (s.runXprg o d a) := by
  rw [show exec .xprgComplete s = s.onOp _ from rfl, onOp_of_inFlight h]
  simp only [hk, low_bits, ho, Bool.not_true, Bool.false_eq_true, if_false]

theorem xswpApply_runs (hk : o.kind = .eng .xswp d a b z dst) : exec .xswpApply s = .next (s.runXswp o d) := by
  rw [show exec .xswpApply s = s.onOp _ from rfl, onOp_of_inFlight h]
  simp only [hk, low_bits, ho, Bool.not_true, Bool.false_eq_true, if_false]

theorem xcalComplete_runs (hk : o.kind = .eng .xcal d a b z dst) : exec .xcalComplete s = .next (s.runXcal o d a b) := by
  rw [show exec .xcalComplete s = s.onOp _ from rfl, onOp_of_inFlight h]
  simp only [hk, low_bits, ho, Bool.not_true, Bool.false_eq_true, if_false]

theorem xmvComplete_runs {trans : Bool} (hk : o.kind = .eng (if trans then .xmvt else .xmv) d a b z dst) :
    exec .xmvProductComplete s = .next (s.runProduct o trans d a b z) := by
  rw [show exec .xmvProductComplete s = s.onOp _ from rfl, onOp_of_inFlight h]
  cases trans
  · simp only [Bool.false_eq_true, if_false] at hk
    simp only [hk, low_bits, ho, Bool.not_true, Bool.false_eq_true, if_false]
  · simp only [if_true] at hk
    simp only [hk, low_bits, ho, Bool.not_true, Bool.false_eq_true, if_false]

end

section
variable (s : State) (o : Op) {d a b z : Word}

theorem runXprg_fault {q : EngErr} (hq : s.blockFault o.g a.toNat 4096 = some q) : s.runXprg o d a = s.failOp o q.1 0 q.2 := by
  unfold State.runXprg; simp only [hq]

theorem runXcal_fault {q : EngErr} (hk : ((s.tile o.g (d.toNat % 4)).bank (d.getLsbD 2)).st ≠ .unprog)
    (hq : s.blockFault o.g a.toNat 1024 = some q) : s.runXcal o d a b = s.failOp o q.1 0 q.2 := by
  unfold State.runXcal; simp only [low_bits, hk, if_false, hq]

/-- R296: codes from -31 to 31 enter the inactive bank. -/
theorem runXprg_writes (hq : s.blockFault o.g a.toNat 4096 = none)
    (hcodes : ∀ c ∈ s.bytesAt (scrBase o.g + a.toNat) 4096, -31 ≤ c.toInt ∧ c.toInt ≤ 31) :
    let x := s.tile o.g (d.toNat % 4)
    let k := x.bank (!x.active)
    s.runXprg o d a = (s.setBank o.g (d.toNat % 4) (!x.active) { k with
      st := .prog, codes := Sparse.put (if k.st = .unprog then [] else k.codes) (d.toNat / 16 % 16)
        (s.bytesAt (scrBase o.g + a.toNat) 4096) }).endOp o := by
  have hany : (s.bytesAt (scrBase o.g + a.toNat) 4096).any (fun c => c.toInt < -31 || 31 < c.toInt) = false := by
    rw [List.any_eq_false]
    intro c hc
    have := hcodes c hc
    simp only [Bool.or_eq_true, decide_eq_true_eq]
    omega
  unfold State.runXprg
  simp only [low_bits, row_group, hq, hany, Bool.false_eq_true, if_false]

theorem runXprg_code_fault (hq : s.blockFault o.g a.toNat 4096 = none)
    (hcodes : ∃ c ∈ s.bytesAt (scrBase o.g + a.toNat) 4096, c.toInt < -31 ∨ 31 < c.toInt) :
    s.runXprg o d a = s.failOp o 0x0C 0 4 := by
  have hany : (s.bytesAt (scrBase o.g + a.toNat) 4096).any (fun c => c.toInt < -31 || 31 < c.toInt) = true := by
    obtain ⟨c, hc, hb⟩ := hcodes
    exact List.any_eq_true.mpr ⟨c, hc, by simpa using hb⟩
  unfold State.runXprg
  simp only [hq, hany, if_true]
  rfl

/-- R296: only a calibrated inactive bank becomes active. -/
theorem runXswp_eq : let x := s.tile o.g (d.toNat % 4)
    s.runXswp o d = if (x.bank (!x.active)).st = .cal then (s.setTile o.g (d.toNat % 4) { x with active := !x.active }).endOp o
      else s.failOp o 0x0C 0 2 := by
  unfold State.runXswp
  simp only [low_bits]
  rfl

/-- R146: the scales are set, and the references decide between CAL and DRIFT. -/
theorem runXcal_checked (hk : ((s.tile o.g (d.toNat % 4)).bank (d.getLsbD 2)).st ≠ .unprog)
    (hq : s.blockFault o.g a.toNat 1024 = none) :
    let n := d.getLsbD 2
    let dev := Config.freeDeviation s.free
    let u := ({ s with free := s.free + 1 } : State).notePeak o.g (d.toNat % 4) n dev
    let k1 : Bank := { (s.tile o.g (d.toNat % 4)).bank n with scales := s.words32 o.g a.toNat 256, swt := b.extractLsb' 0 32 }
    s.runXcal o d a b = if dev ≤ 512 then (u.setBank o.g (d.toNat % 4) n { k1 with st := .cal, date := (s.core o.g).cyc }).endOp o
      else (u.setBank o.g (d.toNat % 4) n { k1 with st := .drift }).failOp o 0x0B 0 3 := by
  intro n dev u k1
  unfold State.runXcal
  simp only [low_bits, hk, if_false, hq, State.draw]
  by_cases hd : dev ≤ 512
  · rw [if_pos hd, if_pos (by simpa [deviationOk] using hd)]
  · rw [if_neg hd, if_neg (by simpa [deviationOk] using hd)]
    rfl

theorem runXcal_unprogrammed (hk : ((s.tile o.g (d.toNat % 4)).bank (d.getLsbD 2)).st = .unprog) :
    s.runXcal o d a b = s.failOp o 0x0C 0 3 := by
  unfold State.runXcal; simp only [low_bits, hk, if_true]; rfl

variable {trans : Bool} {k : Bank} (hk : k = (s.tile o.g (d.toNat % 4)).bank (s.tile o.g (d.toNat % 4)).active)
include hk

/-- R145, R297: a bank that is not calibrated delivers no product. -/
theorem runProduct_rejected {code sub : Nat} {drifts : Bool} (hf : s.bankFault o.g k z = some (code, sub, drifts)) :
    s.runProduct o trans d a b z = (if drifts then s.setBank o.g (d.toNat % 4) (s.tile o.g (d.toNat % 4)).active { k with st := .drift }
      else s).failOp o code 0 sub := by
  subst hk
  unfold State.runProduct
  simp only [low_bits, hf]

/-- R147, R148, R297: the references decide whether the outputs are written. -/
theorem runProduct_checked (hf : s.bankFault o.g k z = none) (hp : s.productFault o.g a.toNat (d.toNat / 2 ^ 12 % 2 ^ 20) = none) :
    let x := s.tile o.g (d.toNat % 4)
    let dev := Config.freeDeviation s.free
    let u := ({ s with free := s.free + 257 } : State).notePeak o.g (d.toNat % 4) x.active dev
    let ys := k.outputs trans (s.free + 1) (b.extractLsb' 0 32) ((s.bytesAt (scrBase o.g + a.toNat) 256).map (fun c => c.toInt))
    s.runProduct o trans d a b z = if dev ≤ 512
      then (u.engWrites ((List.range 128).map (fun j =>
        { pa := scrBase o.g + d.toNat / 2 ^ 12 % 2 ^ 20 + 8 * j, data := ys.getD (2 * j + 1) 0 ++ ys.getD (2 * j) 0,
          en := 0xFFFF, tag := true }))).endOp o
      else (u.setBank o.g (d.toNat % 4) x.active { k with st := .drift }).failOp o 0x0B 0 1 := by
  subst hk
  intro x dev u ys
  unfold State.runProduct
  simp only [low_bits, out_block, hf, hp]
  by_cases hd : dev ≤ 512
  · rw [if_pos hd, if_neg (by simpa [deviationOk] using hd)]
  · rw [if_neg hd, if_pos (by simpa [deviationOk] using hd)]
    rfl

end

section
variable {s : State} {g : Nat} {k : Bank} {z : Word}

theorem bankFault_raw (h : k.st = .unprog ∨ k.st = .prog) : s.bankFault g k z = some (0x0C, 1, false) := by
  unfold State.bankFault
  rcases h with h | h <;> rw [h] <;> rfl

theorem bankFault_drift (h : k.st = .drift) : s.bankFault g k z = some (0x0B, 4, false) := by
  unfold State.bankFault; rw [h]; rfl

/-- R145: the limit of the calibration's age, where one is set. -/
theorem bankFault_old (h : k.st = .cal) (h0 : z.toNat % 2 ^ 16 ≠ 0) (hage : z.toNat % 2 ^ 16 * 2 ^ 20 ≤ (s.core g).cyc - k.date) :
    s.bankFault g k z = some (0x0B, 2, true) := by
  unfold State.bankFault
  rw [h]
  simp only [lifetime]
  exact if_pos (by simpa using ⟨h0, hage⟩)

theorem bankFault_good (h : k.st = .cal) (hage : z.toNat % 2 ^ 16 = 0 ∨ (s.core g).cyc - k.date < z.toNat % 2 ^ 16 * 2 ^ 20) :
    s.bankFault g k z = none := by
  unfold State.bankFault
  rw [h]
  simp only [lifetime]
  refine if_neg ?_
  simp only [Bool.and_eq_true, decide_eq_true_eq, not_and, not_le]
  intro h0
  exact hage.resolve_left h0

end


/-- The code that place i of output j is formed with. -/
def lineCode (k : Bank) (trans : Bool) (j i : Nat) : Int := if trans then k.code j i else k.code i j

theorem line_eq (k : Bank) (trans : Bool) (j : Nat) : k.line trans j = (List.range 256).map (lineCode k trans j) := rfl

theorem done_of_issued {i : Instr} {s t : State} {body : M Ctl} (hr : Ready i s) (h : body s = .ok (.next, t)) :
    issue i body s = .next (s.done t) := by
  rw [issue_of_ready hr, h, finish_next]

/-- Settles O47: the outputs by the bound of R97, the largest deviation, the issue of each form, and each operation of a tile. -/
theorem crossbar : Obligations.Crossbar := by
  unfold Obligations.Crossbar
  refine ⟨fun k trans n sx xs => ?_, fun s g t dev b ht => ⟨fun m hm hd => notePeak_kept hm hd, fun h => ?_⟩,
    fun s g k d a b hc htiles => ?_, fun s o d a b z dst h => ?_⟩
  · obtain ⟨hlen, houts⟩ := outputs_spec k trans n sx xs
    refine ⟨hlen, fun j hj => ?_⟩
    have hspec := deliver_spec (draw := n + j) (sx := sx) (sw := if trans then k.swt else k.scales.getD j 0)
      (natAbs_intDot_le xs (lineCode k trans j))
    rw [← line_eq, ← houts j hj, line_eq, intDot_eq_sum, magnitudes_eq_sum] at hspec
    exact hspec
  · rw [notePeak_raised h, core_setCore, if_pos rfl]
    refine ⟨rfl, ?_, rfl, rfl, rfl⟩
    have hb := Bool.toNat_le b
    exact (BitVec.toNat_ofNat ..).trans (Nat.mod_eq_of_lt (by have : Nat.min dev 0xFFFF ≤ 0xFFFF := Nat.min_le_right _ _; omega))
  · intro x u y v c e oa
    refine ⟨fun hr hta htc hmask hx hn hroom => ?_, fun hr hta htb htc hmask hx hn hroom => ?_,
      fun i hi hr hta htc hmask hx ho hn ho2 hroom => ?_, fun hr htd h4 hroom => ?_, fun p hr hp => ?_, fun hr => ?_⟩
    · have ra : readName a s = .ok (s.val a, u) := readName_of_holds (holds_a (i := .xprg d a) hr rfl)
      have rd : readName d u = .ok (u.val d, u.took d) := readName_of_holds (holds_of_notPort (notPort_of_ctl hr rfl rfl))
      exact done_of_issued hr (xbarOp_of_passed (g := g) (k := k) (ctlOperand_of_clear ra hta) (M.pure_apply _ _) (ctlOperand_of_clear rd htc)
        (by simp only [u, took_cur, hc]) hmask hx hn nofun (by simp only [u, room_took]; exact hroom))
    · obtain ⟨ra, rb⟩ := reads_two (a := a) (b := b) hr rfl rfl rfl rfl
      have rd : readName d v = .ok (v.val d, v.took d) := readName_of_holds (holds_of_notPort (notPort_of_ctl hr rfl rfl))
      exact done_of_issued hr (xbarOp_of_passed (g := g) (k := k) (ctlOperand_of_clear ra hta) (ctlOperand_of_clear rb htb) (ctlOperand_of_clear rd htc)
        (by simp only [v, u, took_cur, hc]) hmask hx hn nofun (by simp only [v, u, room_took]; exact hroom))
    · have accepted (j : Instr) (f : Eng) (h : Ready j s) (ha : j.roles.ra = .src) (hb : j.roles.rb = .src) (hd : j.roles.rd = .ctl)
          (ea : j.roles.a = a) (eb : j.roles.b = b) (ed : j.roles.d = d) :
          issue j (xbarOp j f d a 0xFFFFF003 256 true (anyOperand b)) s
            = .next (s.done ((v.took d).accept j .tiles (.eng f e x y (s.core g).xcals none))) := by
        obtain ⟨ra, rb⟩ := reads_two h ha hb ea eb
        have rd : readName d v = .ok (v.val d, v.took d) := readName_of_holds (holds_of_notPort (notPort_of_ctl h hd ed))
        have hpass := xbarOp_of_passed (i := j) (f := f) (mask := 0xFFFFF003) (n := 256) (out := true) (b := anyOperand b) (y := y) (g := g)
          (k := k)
          (ctlOperand_of_clear ra hta) (M.bind_ok rb) (ctlOperand_of_clear rd htc)
          (by simp only [v, u, took_cur, hc]) hmask hx hn (fun _ => ⟨ho, ho2⟩) (by simp only [v, u, room_took]; exact hroom)
        rw [if_pos rfl, show ((v.took d).core g).xcals = (s.core g).xcals by simp only [v, u, xcals_took]] at hpass
        exact done_of_issued h hpass
      fin_cases hi <;> exact accepted _ _ hr rfl rfl rfl rfl rfl rfl
    · have hd : d.isPort = false := notPort_of_ctl hr rfl rfl
      rw [took_of_notPort (s := s) hd]
      exact done_of_issued hr (xswpOp_of_passed hc (ctlOperand_of_clear (readName_of_notPort hd) htd) h4 hroom)
    · exact done_of_issued hr (xaccOp_of_partition hc (readName_of_holds (holds_a (i := .xacc d a) hr rfl)) hp)
    · exact ⟨_, done_of_issued hr (xstatOp_apply s d hc), fun t ht => xstat_byte (s.tileByte g) (tileByte_lt s g) ht⟩
  · intro t x ho
    refine ⟨fun e he hk hst => ?_, fun hk hq => ⟨fun hcodes => ?_, fun hcodes => ?_⟩, fun hk => ⟨fun hst => ?_, fun hst => ?_⟩,
      fun hk => ⟨fun hst => ?_, fun hst hq => ?_⟩, fun e he hk => ?_⟩
    · fin_cases he
      · have hrun (q : EngErr) (hq : s.blockFault o.g a.toNat 4096 = some q) : exec .xprgComplete s = .next (s.failOp o q.1 0 q.2) := by
          rw [xprgComplete_runs h ho hk, runXprg_fault s o hq]
        exact ⟨fun hres => hrun _ (blockFault_reserve hres), fun hres q hq => hrun q ((blockFault_run hres).trans hq)⟩
      · have hrun (q : EngErr) (hq : s.blockFault o.g a.toNat 1024 = some q) : exec .xcalComplete s = .next (s.failOp o q.1 0 q.2) := by
          rw [xcalComplete_runs h ho hk, runXcal_fault s o (hst rfl) hq]
        exact ⟨fun hres => hrun _ (blockFault_reserve hres), fun hres q hq => hrun q ((blockFault_run hres).trans hq)⟩
    · rw [xprgComplete_runs h ho hk, runXprg_writes s o hq hcodes]
    · rw [xprgComplete_runs h ho hk, runXprg_code_fault s o hq hcodes]
    · rw [xswpApply_runs h ho hk, runXswp_eq, if_pos hst]
    · rw [xswpApply_runs h ho hk, runXswp_eq, if_neg hst]
    · rw [xcalComplete_runs h ho hk, runXcal_unprogrammed s o hst]
    · rw [xcalComplete_runs h ho hk, runXcal_checked s o hst hq]
    · intro k
      have hk' : o.kind = .eng (if e.2 then .xmvt else .xmv) d a b z dst := by fin_cases he <;> exact hk
      have hrun := xmvComplete_runs h ho hk'
      refine ⟨fun hst => ?_, fun hst => ?_, fun hst h0 hage => ?_, fun hst hage hp => ?_⟩
      · rw [hrun, runProduct_rejected s o (k := k) rfl (bankFault_raw hst)]; rfl
      · rw [hrun, runProduct_rejected s o (k := k) rfl (bankFault_drift hst)]; rfl
      · rw [hrun, runProduct_rejected s o (k := k) rfl (bankFault_old hst h0 hage)]; rfl
      · rw [hrun, runProduct_checked s o (k := k) rfl (bankFault_good hst hage) hp]

end Sys2Proof.Accesses
end

