-- ==== Sys2Proof/Proofs/Rounding.lean ====
section
/-! SUPPORT. Sys2Proof/Proofs/Rounding.lean: rounding to a multiple of a power of two in every mode, and to a binary format: the bits of a
format, and what a number rounds to (R78, R80, R81, R95). -/

namespace Sys2Proof.Formats
open Sys2Proof.Machine Sys2Proof.Accesses

/-! ### Rounding to a multiple of a power of two (R81) -/

theorem quantize_exact {mode : Nat} {neg st : Bool} {m : Nat} {e q : Int} (h : q ≤ e) :
    quantize mode neg m e st q = (m * 2 ^ (e - q).toNat, st) := if_pos h

/-- Whether a count between lo and lo + 1 units goes up, from what is left of lo units of 2 * half. -/
def goesUp (mode : Nat) (neg st : Bool) (lo r half : Nat) : Bool :=
  let inexact := r ≠ 0 || st
  let above := half < r || (r = half && st)
  let tie := r = half && !st
  match mode with
  | 0 => above || (tie && lo % 2 = 1)
  | 1 => false
  | 2 => inexact && !neg
  | 3 => inexact && neg
  | _ => inexact && lo % 2 = 0

theorem quantize_split {mode : Nat} {neg st : Bool} {m : Nat} {e q : Int} {k : Nat} (h : (q - e).toNat = k + 1) :
    quantize mode neg m e st q =
      (if goesUp mode neg st (m / 2 ^ (k + 1)) (m % 2 ^ (k + 1)) (2 ^ k) then m / 2 ^ (k + 1) + 1 else m / 2 ^ (k + 1),
        decide (m % 2 ^ (k + 1) ≠ 0) || st) := by
  unfold quantize
  rw [if_neg (by omega), h]
  rfl

theorem exists_shift {e q : Int} (h : e < q) : ∃ k, (q - e).toNat = k + 1 := ⟨(q - e).toNat - 1, by omega⟩

/-- A count of coarser units is the quotient or one more. -/
theorem quantize_coarse_cases (mode : Nat) (neg st : Bool) (m : Nat) {e q : Int} (h : e < q) :
    (quantize mode neg m e st q).1 = m / 2 ^ (q - e).toNat ∨ (quantize mode neg m e st q).1 = m / 2 ^ (q - e).toNat + 1 := by
  obtain ⟨k, hk⟩ := exists_shift h
  rw [quantize_split hk, hk]
  split
  · exact .inr rfl
  · exact .inl rfl

/-- R81, the table: what is left of the quotient decides, mode by mode. -/
theorem quantize_table {mode : Nat} (neg st : Bool) (m : Nat) {e q : Int} (hmode : mode ≤ 4) (h : e < q) :
    let c := (quantize mode neg m e st q).1
    let inexact := (quantize mode neg m e st q).2
    let u := 2 ^ (q - e).toNat
    let lo := m / u
    (inexact = true ↔ m % u ≠ 0 ∨ st = true) ∧ (inexact = false → c = lo) ∧
      (inexact = true →
        (mode = 0 → (2 * (m % u) < u → c = lo) ∧ (u < 2 * (m % u) → c = lo + 1) ∧
          (2 * (m % u) = u → st = true → c = lo + 1) ∧
          (2 * (m % u) = u → st = false → c % 2 = 0 ∧ (c = lo ∨ c = lo + 1))) ∧
        (mode = 1 → c = lo) ∧ (mode = 2 → c = if neg then lo else lo + 1) ∧ (mode = 3 → c = if neg then lo + 1 else lo) ∧
        (mode = 4 → c % 2 = 1 ∧ (c = lo ∨ c = lo + 1))) := by
  obtain ⟨k, hk⟩ := exists_shift h
  intro c inexact u lo
  have hu : u = 2 * 2 ^ k := by simp only [u, hk, Nat.pow_succ, Nat.mul_comm]
  have hc : c = if goesUp mode neg st lo (m % u) (2 ^ k) then lo + 1 else lo := by
    simp only [c, quantize_split hk, lo, u, hk]
  have hi : inexact = (decide (m % u ≠ 0) || st) := by simp only [inexact, quantize_split hk, u, hk]
  have hpos := Nat.two_pow_pos k
  clear_value c inexact u lo
  generalize m % u = r at *
  generalize 2 ^ k = half at *
  subst hu
  have hinx : inexact = true ↔ r ≠ 0 ∨ st = true := by simp [hi]
  refine ⟨hinx, fun hf => ?_, fun ht => ⟨?_, ?_, ?_, ?_, ?_⟩⟩
  · have hno : r = 0 ∧ st = false := by simpa [hi] using hf
    obtain ⟨rfl, rfl⟩ := hno
    rw [hc, if_neg]
    interval_cases mode <;> simp [goesUp, hpos.ne]
  · rintro rfl
    have hup : goesUp 0 neg st lo r half = true ↔ half < r ∨ (r = half ∧ st = true) ∨ (r = half ∧ st = false ∧ lo % 2 = 1) := by
      simp [goesUp, or_assoc, and_assoc]
    refine ⟨fun hlt => ?_, fun hgt => ?_, fun heq hs => ?_, fun heq hs => ?_⟩
    · rw [hc, if_neg (by rw [hup]; omega)]
    · rw [hc, if_pos (by rw [hup]; omega)]
    · rw [hc, if_pos (by rw [hup]; exact .inr (.inl ⟨by omega, hs⟩))]
    · by_cases hodd : lo % 2 = 1
      · rw [hc, if_pos (by rw [hup]; exact .inr (.inr ⟨by omega, hs, hodd⟩))]; omega
      · rw [hc, if_neg (by rw [hup, hs]; simp; omega)]; omega
  · rintro rfl; simp [hc, goesUp]
  · rintro rfl
    cases neg <;> simp [hc, goesUp, hinx.mp ht]
  · rintro rfl
    cases neg <;> simp [hc, goesUp, hinx.mp ht]
  · rintro rfl
    have hup : goesUp 4 neg st lo r half = decide (lo % 2 = 0) := by simp [goesUp, hinx.mp ht]
    rw [hc, hup]
    by_cases heven : lo % 2 = 0
    · simp [heven]; omega
    · simp [heven]; omega

/-! ### How large a count is -/

section
variable (mode : Nat) (neg st : Bool) {m : Nat} {e q : Int}

/-- A number below 2^n units is at most 2^n units. -/
theorem quantize_le_pow {n : Nat} (h : e + bitLen m ≤ q + n) : (quantize mode neg m e st q).1 ≤ 2 ^ n := by
  rcases le_or_gt q e with hq | hq
  · rw [quantize_exact hq]
    rcases eq_or_ne m 0 with rfl | hm
    · simp
    · have hlt : m < 2 ^ bitLen m := (bitLen_le_iff m _).mp le_rfl
      calc m * 2 ^ (e - q).toNat ≤ 2 ^ bitLen m * 2 ^ (e - q).toNat := Nat.mul_le_mul_right _ hlt.le
        _ = 2 ^ (bitLen m + (e - q).toNat) := (Nat.pow_add ..).symm
        _ ≤ 2 ^ n := Nat.pow_le_pow_right (by norm_num) (by omega)
  · have hlt : m < 2 ^ n * 2 ^ (q - e).toNat := by
      rw [← Nat.pow_add, ← bitLen_le_iff]; omega
    have hlo : m / 2 ^ (q - e).toNat < 2 ^ n := Nat.div_lt_of_lt_mul (by rwa [Nat.mul_comm] at hlt)
    rcases quantize_coarse_cases mode neg st m hq with hc | hc <;> omega

/-- A number of 2^n units or more is 2^n units at least. -/
theorem pow_le_quantize (hm : m ≠ 0) {n : Nat} (h : q + n + 1 ≤ e + bitLen m) : 2 ^ n ≤ (quantize mode neg m e st q).1 := by
  have hle := pow_bitLen_le hm
  have hpos := bitLen_pos hm
  rcases le_or_gt q e with hq | hq
  · rw [quantize_exact hq]
    calc 2 ^ n ≤ 2 ^ (bitLen m - 1 + (e - q).toNat) := Nat.pow_le_pow_right (by norm_num) (by omega)
      _ = 2 ^ (bitLen m - 1) * 2 ^ (e - q).toNat := Nat.pow_add ..
      _ ≤ m * 2 ^ (e - q).toNat := Nat.mul_le_mul_right _ hle
  · have hlo : 2 ^ n ≤ m / 2 ^ (q - e).toNat := by
      rw [Nat.le_div_iff_mul_le (Nat.two_pow_pos _), ← Nat.pow_add]
      exact (Nat.pow_le_pow_right (by norm_num) (by omega)).trans hle
    rcases quantize_coarse_cases mode neg st m hq with hc | hc <;> omega

end

/-- A number and a power of two, by lengths. -/
theorem lt_zpow_iff {m : Nat} (hm : m ≠ 0) (e n : Int) : (m : ℚ) * 2 ^ e < 2 ^ n ↔ e + bitLen m ≤ n := by
  refine ⟨fun h => ?_, fun h => (below_bitLen e).trans_le (zpow_le_zpow_right₀ (by norm_num) h)⟩
  have := (zpow_lt_zpow_iff_right₀ (by norm_num : (1 : ℚ) < 2)).mp ((above_bitLen hm e).trans_lt h)
  omega

theorem zpow_le_iff {m : Nat} (hm : m ≠ 0) (e n : Int) : (2 : ℚ) ^ n ≤ m * 2 ^ e ↔ n < e + bitLen m := by
  rw [← not_lt, lt_zpow_iff hm, not_le]

theorem bitLen_two_pow (n : Nat) : bitLen (2 ^ n) = n + 1 := by
  have h1 : bitLen (2 ^ n) ≤ n + 1 := (bitLen_le_iff _ _).mpr (Nat.pow_lt_pow_right (by norm_num) (by omega))
  have h2 : ¬ bitLen (2 ^ n) ≤ n := by rw [bitLen_le_iff]; exact lt_irrefl _
  omega

/-- The length of a number between two powers of two. -/
theorem bitLen_eq {m n : Nat} (h1 : 2 ^ n ≤ m) (h2 : m < 2 ^ (n + 1)) : bitLen m = n + 1 := by
  have h3 : bitLen m ≤ n + 1 := (bitLen_le_iff _ _).mpr h2
  have h4 : ¬ bitLen m ≤ n := by rw [bitLen_le_iff]; omega
  omega

/-! ### The bits of a format (R78, R80, R95) -/

/-- A binary format with its exponents as they lie in a field of w bits, and a fraction of one bit at least. -/
structure Binary (f : Fmt) : Prop where
  frac : 2 ≤ f.p
  field : 2 ≤ f.w
  range : f.emax - f.emin + 3 = (2 ^ f.w : Nat)

theorem binary_of_mem {f : Fmt} (h : f ∈ [fmt32, fmtBF16, fmt64]) : Binary f := by
  simp only [List.mem_cons, List.not_mem_nil, or_false] at h
  rcases h with rfl | rfl | rfl
  · exact ⟨by decide, by decide, by decide⟩
  · exact ⟨by decide, by decide, by decide⟩
  · exact ⟨by decide, by decide, by decide⟩

/-- The bits of a sign, an exponent field and a fraction. -/
def bitsOf (f : Fmt) (neg : Bool) (ex fr : Nat) : Nat := f.signBits neg + (ex * 2 ^ (f.p - 1) + fr)

theorem four_le_field {f : Fmt} (hf : Binary f) : 4 ≤ 2 ^ f.w :=
  (show 4 = 2 ^ 2 by norm_num) ▸ Nat.pow_le_pow_right (by norm_num) hf.field

/-- The fields read back. -/
theorem fields_bitsOf (f : Fmt) (neg : Bool) {ex fr : Nat} (he : ex < 2 ^ f.w) (hr : fr < 2 ^ (f.p - 1)) :
    decide (bitsOf f neg ex fr / 2 ^ (f.p - 1 + f.w) % 2 = 1) = neg ∧ bitsOf f neg ex fr / 2 ^ (f.p - 1) % 2 ^ f.w = ex ∧
      bitsOf f neg ex fr % 2 ^ (f.p - 1) = fr := by
  have hsign : f.signBits neg = 2 ^ (f.p - 1) * (neg.toNat * 2 ^ f.w) := by
    unfold Fmt.signBits
    cases neg
    · simp
    · simp [Nat.pow_add]
  have hform : bitsOf f neg ex fr = 2 ^ (f.p - 1) * (neg.toNat * 2 ^ f.w + ex) + fr := by
    unfold bitsOf; rw [hsign]; ring
  have hdiv : bitsOf f neg ex fr / 2 ^ (f.p - 1) = neg.toNat * 2 ^ f.w + ex := by
    rw [hform, Nat.mul_add_div (Nat.two_pow_pos _), Nat.div_eq_of_lt hr, Nat.add_zero]
  refine ⟨?_, ?_, ?_⟩
  · rw [Nat.pow_add, ← Nat.div_div_eq_div_mul, hdiv, Nat.mul_comm, Nat.mul_add_div (Nat.two_pow_pos _), Nat.div_eq_of_lt he]
    cases neg <;> rfl
  · rw [hdiv, Nat.mul_comm, Nat.mul_add_mod, Nat.mod_eq_of_lt he]
  · rw [hform, Nat.mul_add_mod, Nat.mod_eq_of_lt hr]

theorem num_bitsOf (f : Fmt) (neg : Bool) {ex fr : Nat} (he : ex < 2 ^ f.w) (hr : fr < 2 ^ (f.p - 1)) :
    f.num (bitsOf f neg ex fr) =
      if ex = 2 ^ f.w - 1 then (if fr = 0 then .inf neg else .nan)
      else if ex = 0 then .fin neg fr (f.emin - f.p + 1)
      else .fin neg (2 ^ (f.p - 1) + fr) (ex - 1 + f.emin - f.p + 1) := by
  obtain ⟨h1, h2, h3⟩ := fields_bitsOf f neg he hr
  unfold Fmt.num
  simp only [h1, h2, h3]
  rfl

/-! ### Rounding to a format (R78, R81) -/

theorem inf_bitsOf (f : Fmt) (neg : Bool) : f.signBits neg + f.infBits = bitsOf f neg (2 ^ f.w - 1) 0 := rfl

theorem round_inf (f : Fmt) (mode : Nat) (neg st : Bool) :
    f.num (f.round mode { x := .inf neg, sticky := st }).1 = .inf neg ∧ (f.round mode { x := .inf neg, sticky := st }).2 = 0 := by
  refine ⟨?_, rfl⟩
  show f.num (f.signBits neg + f.infBits) = _
  rw [inf_bitsOf, num_bitsOf f neg (Nat.sub_lt (Nat.two_pow_pos _) (by norm_num)) (Nat.two_pow_pos _), if_pos rfl, if_pos rfl]

theorem round_zero (f : Fmt) (mode : Nat) (neg st : Bool) (e : Int) :
    f.round mode { x := .fin neg 0 e, sticky := st } = (if neg then 2 ^ (f.p - 1 + f.w) else 0, 0) := rfl

theorem round_nan {f : Fmt} (hf : Binary f) (mode : Nat) (st : Bool) :
    f.round mode { x := .nan, sticky := st } = (2 ^ (f.p - 1 + f.w) - 2 ^ (f.p - 2), 0) := by
  show (f.nanBits, (0 : Fl)) = _
  have hp := hf.frac
  have h1 : 2 ^ (f.p - 1) = 2 * 2 ^ (f.p - 2) := by rw [← Nat.pow_succ']; congr 1; omega
  have h2 : (2 ^ f.w - 1) * 2 ^ (f.p - 1) + 2 ^ (f.p - 1) = 2 ^ (f.p - 1 + f.w) := by
    rw [← Nat.succ_mul, Nat.succ_eq_add_one, Nat.sub_add_cancel Nat.one_le_two_pow, Nat.mul_comm, Nat.pow_add]
  unfold Fmt.nanBits Fmt.infBits
  congr 1
  omega

section
variable {f : Fmt} (hf : Binary f) {m : Nat} {e qn q : Int} (hm : m ≠ 0) (hqn : qn = e + bitLen m - f.p)
  (hq : q = max qn (f.emin - f.p + 1))

include hm hqn hq in
/-- The model's round, with the units named. -/
theorem round_eq (mode : Nat) (neg st : Bool) :
    let c := quantize mode neg m e st q
    let un := (quantize mode neg m e st qn).1
    let fl : Fl := (if c.2 then flNX else 0) ||| (if qn + bitLen un - 1 < f.emin && c.2 then flUF else 0)
    let c' := if c.1 = 2 ^ f.p then 2 ^ (f.p - 1) else c.1
    f.round mode { x := .fin neg m e, sticky := st } =
      if f.emax < q + bitLen c.1 - 1 then
        (f.signBits neg + (if overflowToMax mode neg then f.infBits - 1 else f.infBits), flOF ||| flNX)
      else if c' < 2 ^ (f.p - 1) then (f.signBits neg + c', fl)
      else (f.signBits neg + ((q + bitLen c.1 - 1 - f.emin + 1).toNat * 2 ^ (f.p - 1) + (c' - 2 ^ (f.p - 1))), fl) := by
  have hn : e + Int.ofNat (bitLen m) - 1 - Int.ofNat f.p + 1 = qn := by rw [hqn]; simp only [Int.ofNat_eq_natCast]; omega
  have hs : (if qn < f.emin - Int.ofNat f.p + 1 then f.emin - Int.ofNat f.p + 1 else qn) = q := by
    rw [hq]; simp only [Int.ofNat_eq_natCast]; split <;> omega
  unfold Fmt.round
  simp only [hm, if_false, hn, hs]
  rfl

include hqn hq in
/-- The count has p bits at most, or is 2^p. -/
theorem count_le (mode : Nat) (neg st : Bool) : (quantize mode neg m e st q).1 ≤ 2 ^ f.p :=
  quantize_le_pow mode neg st (by omega)

include hf hm hqn in
/-- The count that an exponent without bounds would give has p bits. -/
theorem unbounded_ge (mode : Nat) (neg st : Bool) : 2 ^ (f.p - 1) ≤ (quantize mode neg m e st qn).1 :=
  pow_le_quantize mode neg st hm (by have := hf.frac; omega)

include hf hm hqn hq in
/-- Above the subnormal range the count has p bits. -/
theorem count_ge (mode : Nat) (neg st : Bool) (h : q ≠ f.emin - f.p + 1) : 2 ^ (f.p - 1) ≤ (quantize mode neg m e st q).1 := by
  have : q = qn := by omega
  rw [this]
  exact unbounded_ge hf hm hqn mode neg st

include hf hm hqn hq in
/-- R78, R81: a count below the overflow threshold is what the bits hold, a carry to 2^p and a subnormal number included. -/
theorem num_round_within (mode : Nat) (neg st : Bool)
    (hle : q + bitLen (quantize mode neg m e st q).1 - 1 ≤ f.emax) :
    ∃ k h, f.num (f.round mode { x := .fin neg m e, sticky := st }).1 = .fin neg k h ∧
      (k : ℚ) * 2 ^ h = (quantize mode neg m e st q).1 * 2 ^ q := by
  have hc := count_le hqn hq mode neg st
  have hge := count_ge hf hm hqn hq mode neg st
  have hp := hf.frac
  have hrange := hf.range
  have hfield := four_le_field hf
  have hpow : 2 ^ f.p = 2 * 2 ^ (f.p - 1) := by rw [← Nat.pow_succ']; congr 1; omega
  have hpos := Nat.two_pow_pos (f.p - 1)
  have hqs : f.emin - f.p + 1 ≤ q := by omega
  rw [round_eq hm hqn hq mode neg st]
  generalize (quantize mode neg m e st q).1 = c at *
  rw [if_neg (by omega)]
  by_cases hcarry : c = 2 ^ f.p
  · have hlen : bitLen c = f.p + 1 := by rw [hcarry, bitLen_two_pow]
    have hnum := num_bitsOf f neg (ex := (q + f.p - f.emin + 1).toNat) (fr := 0) (by omega) hpos
    rw [if_neg (by omega), if_neg (by omega)] at hnum
    rw [if_pos hcarry, if_neg (lt_irrefl _), hlen, Nat.sub_self,
      show (q + ((f.p + 1 : Nat) : Int) - 1 - f.emin + 1).toNat = (q + f.p - f.emin + 1).toNat by congr 1; omega]
    refine ⟨_, _, hnum, ?_⟩
    rw [show (((q + f.p - f.emin + 1).toNat : Nat) : Int) - 1 + f.emin - f.p + 1 = 1 + q by omega, zpow_add₀ (by norm_num), hcarry, hpow]
    push_cast
    ring
  · rw [if_neg hcarry]
    by_cases hsub : c < 2 ^ (f.p - 1)
    · have hq' : q = f.emin - f.p + 1 := by
        by_contra h
        exact absurd (hge h) (by omega)
      have hnum := num_bitsOf f neg (ex := 0) (by omega) hsub
      rw [if_neg (by omega), if_pos rfl, bitsOf, Nat.zero_mul, Nat.zero_add] at hnum
      rw [if_pos hsub]
      exact ⟨_, _, hnum, by rw [hq']⟩
    · have hlen : bitLen c = f.p := by rw [bitLen_eq (n := f.p - 1) (by omega) (by rw [Nat.pow_succ]; omega)]; omega
      have hnum := num_bitsOf f neg (ex := (q + f.p - f.emin).toNat) (fr := c - 2 ^ (f.p - 1)) (by omega) (by omega)
      rw [if_neg (by omega), if_neg (by omega)] at hnum
      rw [if_neg hsub, hlen, show (q + (f.p : Int) - 1 - f.emin + 1).toNat = (q + f.p - f.emin).toNat by congr 1; omega]
      refine ⟨_, _, hnum, ?_⟩
      rw [show (((q + f.p - f.emin).toNat : Nat) : Int) - 1 + f.emin - f.p + 1 = q by omega, Nat.add_sub_cancel' (by omega)]

include hf hm hqn hq in
/-- R81: beyond the largest number the mode decides between it and an infinity. -/
theorem round_beyond (mode : Nat) (neg st : Bool) (hgt : f.emax < q + bitLen (quantize mode neg m e st q).1 - 1) :
    (f.round mode { x := .fin neg m e, sticky := st }).2 = flOF ||| flNX ∧
      f.num (f.round mode { x := .fin neg m e, sticky := st }).1 =
        if overflowToMax mode neg then .fin neg (2 ^ f.p - 1) (f.emax - f.p + 1) else .inf neg := by
  have hp := hf.frac
  have hrange := hf.range
  have hfield := four_le_field hf
  have hpow : 2 ^ f.p = 2 * 2 ^ (f.p - 1) := by rw [← Nat.pow_succ']; congr 1; omega
  have hpos := Nat.two_pow_pos (f.p - 1)
  rw [round_eq hm hqn hq mode neg st]
  rw [if_pos hgt]
  refine ⟨rfl, ?_⟩
  cases overflowToMax mode neg with
  | false =>
    simp only [Bool.false_eq_true, if_false]
    rw [inf_bitsOf, num_bitsOf f neg (by omega) hpos, if_pos rfl, if_pos rfl]
  | true =>
    simp only [if_true]
    have hbits : f.signBits neg + (f.infBits - 1) = bitsOf f neg (2 ^ f.w - 2) (2 ^ (f.p - 1) - 1) := by
      have hmul : (2 ^ f.w - 1) * 2 ^ (f.p - 1) = (2 ^ f.w - 2) * 2 ^ (f.p - 1) + 2 ^ (f.p - 1) := by
        rw [← Nat.succ_mul]; congr 1; omega
      unfold bitsOf Fmt.infBits
      omega
    rw [hbits, num_bitsOf f neg (by omega) (by omega), if_neg (by omega), if_neg (by omega)]
    congr 1
    · omega
    · omega

include hm hqn hq in
theorem round_flags (mode : Nat) (neg st : Bool) (hle : q + bitLen (quantize mode neg m e st q).1 - 1 ≤ f.emax) :
    (f.round mode { x := .fin neg m e, sticky := st }).2 =
      (if (quantize mode neg m e st q).2 then flNX else 0) |||
        (if qn + bitLen (quantize mode neg m e st qn).1 - 1 < f.emin && (quantize mode neg m e st q).2 then flUF else 0) := by
  rw [round_eq hm hqn hq mode neg st]
  rw [if_neg (by omega)]
  exact (apply_ite Prod.snd _ _ _).trans (ite_self _)

/-- Which of the flags of a number in range are set. -/
theorem range_flags (inexact tiny : Bool) :
    let fl : Fl := (if inexact then flNX else 0) ||| (if tiny && inexact then flUF else 0)
    fl.getLsbD 4 = inexact ∧ fl.getLsbD 2 = false ∧ (fl.getLsbD 3 = true ↔ inexact = true ∧ tiny = true) := by
  cases inexact <;> cases tiny <;> decide

end

theorem overflowToMax_iff {mode : Nat} (h : mode ≤ 4) (neg : Bool) :
    overflowToMax mode neg = false ↔ mode = 0 ∨ (mode = 2 ∧ neg = false) ∨ (mode = 3 ∧ neg = true) := by
  interval_cases mode <;> cases neg <;> decide

/-- R78, R79, R81: a number rounded to a format: the count of the last place that holds it, and the flags. -/
theorem round_number {f : Fmt} (hf : Binary f) {mode : Nat} (neg sticky : Bool) {m : Nat} (e : Int) (hmode : mode ≤ 4) (hm : m ≠ 0) :
    let qn : Int := e + bitLen m - f.p
    let q := max qn (f.emin - f.p + 1)
    let c := quantize mode neg m e sticky q
    let un := (quantize mode neg m e sticky qn).1
    let r := f.round mode { x := .fin neg m e, sticky := sticky }
    ((c.1 : ℚ) * 2 ^ q < 2 ^ (f.emax + 1) →
      (∃ k h, f.num r.1 = .fin neg k h) ∧ (f.num r.1).rat = (if neg then -1 else 1) * (c.1 : ℚ) * 2 ^ q ∧
      r.2.getLsbD 4 = c.2 ∧ r.2.getLsbD 2 = false ∧
      (r.2.getLsbD 3 = true ↔ c.2 = true ∧ (un : ℚ) * 2 ^ qn < 2 ^ f.emin)) ∧
    ((2 : ℚ) ^ (f.emax + 1) ≤ c.1 * 2 ^ q → r.2 = flOF ||| flNX ∧
      f.num r.1 = if mode = 0 ∨ (mode = 2 ∧ neg = false) ∨ (mode = 3 ∧ neg = true) then .inf neg
        else .fin neg (2 ^ f.p - 1) (f.emax - f.p + 1)) := by
  intro qn q c un r
  have hqn : qn = e + bitLen m - f.p := rfl
  have hq : q = max qn (f.emin - f.p + 1) := rfl
  refine ⟨fun hlt => ?_, fun hge => ?_⟩
  · have hle : q + bitLen c.1 - 1 ≤ f.emax := by
      rcases eq_or_ne c.1 0 with h0 | h0
      · have hsub : q = f.emin - f.p + 1 := by
          by_contra h
          have hge := count_ge hf hm hqn hq mode neg sticky h
          have := Nat.two_pow_pos (f.p - 1)
          simp only [c] at h0
          omega
        have := hf.range
        have := four_le_field hf
        have := hf.frac
        rw [h0]
        simp only [bitLen, if_true, Nat.cast_zero]
        omega
      · have := (lt_zpow_iff h0 q (f.emax + 1)).mp hlt
        omega
    obtain ⟨k, h, hnum, hval⟩ := num_round_within hf hm hqn hq mode neg sticky hle
    have hun : un ≠ 0 := by
      have := unbounded_ge hf hm hqn mode neg sticky
      have := Nat.two_pow_pos (f.p - 1)
      simp only [un]
      omega
    have hfl : r.2 = _ := round_flags hm hqn hq mode neg sticky hle
    obtain ⟨h4, h2, h3⟩ := range_flags c.2 (decide (qn + bitLen un - 1 < f.emin))
    rw [← hfl] at h4 h2 h3
    refine ⟨⟨k, h, hnum⟩, ?_, h4, h2, ?_⟩
    · rw [show f.num r.1 = _ from hnum, rat_fin, mul_assoc, hval, ← mul_assoc]
      rfl
    · rw [h3, lt_zpow_iff hun, decide_eq_true_eq, Int.sub_lt_iff, Int.add_one_le_iff.symm]
      constructor <;> rintro ⟨h, h'⟩ <;> exact ⟨h, by omega⟩
  · have hc0 : c.1 ≠ 0 := by
      intro h0
      rw [h0, Nat.cast_zero, zero_mul] at hge
      exact absurd hge (not_le.mpr (two_zpow_pos _))
    have hgt : f.emax < q + bitLen c.1 - 1 := by
      have := (zpow_le_iff hc0 q (f.emax + 1)).mp hge
      omega
    obtain ⟨hfl, hnum⟩ := round_beyond hf hm hqn hq mode neg sticky hgt
    refine ⟨hfl, hnum.trans ?_⟩
    by_cases ho : overflowToMax mode neg = false
    · rw [if_neg (by simp [ho]), if_pos ((overflowToMax_iff hmode neg).mp ho)]
    · rw [if_pos (by simpa using ho), if_neg (fun h => ho ((overflowToMax_iff hmode neg).mpr h))]

/-- A number of no more bits than the format has, in its range, rounds to itself. -/
theorem rat_round_exact {f : Fmt} (hf : Binary f) (mode : Nat) (neg : Bool) {m : Nat} {e : Int} (hm : m ≠ 0) (hbits : bitLen m ≤ f.p)
    (hlo : f.emin - f.p + 1 ≤ e) (hhi : e + bitLen m ≤ f.emax + 1) :
    (∃ k h, f.num (f.round mode { x := .fin neg m e }).1 = .fin neg k h) ∧
      (f.num (f.round mode { x := .fin neg m e }).1).rat = (FNum.fin neg m e).rat := by
  obtain ⟨q, hq⟩ : ∃ q, q = max (e + bitLen m - f.p) (f.emin - f.p + 1) := ⟨_, rfl⟩
  have hqe : q ≤ e := by omega
  have hval : ((quantize mode neg m e false q).1 : ℚ) * 2 ^ q = m * 2 ^ e := by
    rw [quantize_exact hqe, two_zpow_split hqe, Nat.cast_mul, mul_assoc]
  have hc0 : (quantize mode neg m e false q).1 ≠ 0 := by
    rw [quantize_exact hqe]
    exact Nat.mul_ne_zero hm (Nat.two_pow_pos _).ne'
  have hle : q + bitLen (quantize mode neg m e false q).1 ≤ f.emax + 1 := by
    rw [← lt_zpow_iff hc0, hval, lt_zpow_iff hm]
    exact hhi
  obtain ⟨k, h, hnum, hk⟩ := num_round_within hf hm rfl hq mode neg false (by omega)
  refine ⟨⟨k, h, hnum⟩, ?_⟩
  rw [hnum, rat_fin, rat_fin, mul_assoc, hk, hval, mul_assoc]

end Sys2Proof.Formats
end

