-- ==== Sys2Proof/Proofs/FloatValues.lean ====
section
/-! SUPPORT. Sys2Proof/Proofs/FloatValues.lean: the bits of binary32 values and their order, NaN operands, exact arithmetic on numbers, and the
rounding of every result (O7). -/

namespace Sys2Proof.Formats
open Sys2Proof.Machine Sys2Proof.Accesses

/-! ### The bits of a binary32 value (R78) -/

/-- The bits below the sign. -/
def body (x : BitVec 32) : Nat := x.toNat % 2 ^ 31

theorem body_lt (x : BitVec 32) : body x < 2 ^ 31 := Nat.mod_lt _ (by norm_num)

/-- The magnitude of a finite value as a count of 2^-149. -/
def units (b : Nat) : Nat := if b < 2 ^ 23 then b else (2 ^ 23 + b % 2 ^ 23) * 2 ^ (b / 2 ^ 23 - 1)

theorem sign_eq (x : BitVec 32) : decide (x.toNat / 2 ^ 31 % 2 = 1) = x.getLsbD 31 := by
  rw [BitVec.getLsbD, Nat.testBit_eq_decide_div_mod_eq]

/-- What a value is, by the bits below its sign. -/
theorem num32_cases (x : BitVec 32) :
    (0x7F800000 < body x ∧ num32 x = .nan) ∨ (body x = 0x7F800000 ∧ num32 x = .inf (x.getLsbD 31)) ∨
      (body x < 0x7F800000 ∧ ∃ m e, num32 x = .fin (x.getLsbD 31) m e ∧ -149 ≤ e ∧ m * 2 ^ (e + 149).toNat = units (body x)) := by
  have hx := x.isLt
  have hb : body x = x.toNat % 2 ^ 31 := rfl
  rw [num32_eq, sign_eq]
  unfold units
  by_cases h1 : x.toNat / 2 ^ 23 % 256 = 255
  · by_cases h2 : x.toNat % 2 ^ 23 = 0
    · right; left
      exact ⟨by omega, by rw [if_pos h1, if_pos h2]⟩
    · left
      exact ⟨by omega, by rw [if_pos h1, if_neg h2]⟩
  · right; right
    refine ⟨by omega, ?_⟩
    rw [if_neg h1]
    by_cases h2 : x.toNat / 2 ^ 23 % 256 = 0
    · rw [if_pos h2, if_pos (by omega)]
      exact ⟨_, _, rfl, le_rfl, by simp; omega⟩
    · rw [if_neg h2, if_neg (by omega)]
      refine ⟨_, _, rfl, by omega, ?_⟩
      congr 2
      · omega
      · omega

theorem units_step {b : Nat} (h : 2 ^ 23 ≤ b) : 2 ^ 23 * 2 ^ (b / 2 ^ 23 - 1) ≤ units b ∧ units b < 2 ^ 24 * 2 ^ (b / 2 ^ 23 - 1) := by
  unfold units
  rw [if_neg (by omega)]
  exact ⟨Nat.mul_le_mul_right _ (by omega), Nat.mul_lt_mul_of_pos_right (by omega) (Nat.two_pow_pos _)⟩

/-- The magnitude grows with the bits. -/
theorem units_strictMono : StrictMono units := by
  refine strictMono_nat_of_lt_succ (fun b => ?_)
  by_cases h1 : b + 1 < 2 ^ 23
  · unfold units
    rw [if_pos (by omega), if_pos h1]
    omega
  by_cases h2 : b + 1 = 2 ^ 23
  · obtain rfl : b = 2 ^ 23 - 1 := by omega
    decide
  by_cases h3 : (b + 1) / 2 ^ 23 = b / 2 ^ 23
  · unfold units
    rw [if_neg (by omega), if_neg (by omega), h3]
    exact Nat.mul_lt_mul_of_pos_right (by omega) (Nat.two_pow_pos _)
  · refine (units_step (by omega)).2.trans_le (le_trans (le_of_eq ?_) (units_step (by omega)).1)
    rw [show (b + 1) / 2 ^ 23 - 1 = b / 2 ^ 23 - 1 + 1 by omega, Nat.pow_succ]
    ring

theorem units_lt_iff {b c : Nat} : units b < units c ↔ b < c := units_strictMono.lt_iff_lt

theorem units_eq_iff {b c : Nat} : units b = units c ↔ b = c := units_strictMono.injective.eq_iff

theorem units_zero : units 0 = 0 := rfl

/-! ### The order of values (R226) -/

/-- A magnitude with a sign. -/
def signed (neg : Bool) (n : Nat) : Int := if neg then -(n : Int) else n

theorem signed_units_lt (a b : Bool) (m n : Nat) : signed a (units m) < signed b (units n) ↔ signed a m < signed b n := by
  have h1 := units_lt_iff (b := m) (c := n)
  have h2 := units_lt_iff (b := n) (c := m)
  have h3 := units_lt_iff (b := 0) (c := m)
  have h4 := units_lt_iff (b := 0) (c := n)
  rw [units_zero] at h3 h4
  unfold signed
  cases a <;> cases b <;> simp only [Bool.false_eq_true, if_false, if_true] <;> omega

theorem signed_units_eq (a b : Bool) (m n : Nat) : signed a (units m) = signed b (units n) ↔ signed a m = signed b n := by
  have h1 := signed_units_lt a b m n
  have h2 := signed_units_lt b a n m
  omega

/-- The place of two values in the order, as the compares code it. -/
def placeOf (x y : Int) : Nat := if x < y then 0 else if x = y then 1 else 2

section
variable {x y : Int}

theorem placeOf_of_lt (h : x < y) : placeOf x y = 0 := if_pos h

theorem placeOf_of_gt (h : y < x) : placeOf x y = 2 := by unfold placeOf; rw [if_neg (by omega), if_neg (by omega)]

theorem placeOf_eq_zero_iff : placeOf x y = 0 ↔ x < y := by unfold placeOf; split_ifs <;> simp <;> omega

theorem placeOf_eq_one_iff : placeOf x y = 1 ↔ x = y := by unfold placeOf; split_ifs <;> simp <;> omega

theorem placeOf_ne_two_iff : placeOf x y ≠ 2 ↔ x ≤ y := by unfold placeOf; split_ifs <;> simp <;> omega

end

theorem intAt_scaled (neg : Bool) (m : Nat) {e q : Int} (hq : q ≤ e) (h : -149 ≤ q) :
    intAt neg m e q * (2 ^ (q + 149).toNat : Nat) = signed neg (m * 2 ^ (e + 149).toNat) := by
  have hsum : (e + 149).toNat = (e - q).toNat + (q + 149).toNat := by omega
  unfold intAt signed
  rw [hsum, Nat.pow_add, ← Nat.mul_assoc]
  cases neg <;> simp

theorem cmp_finite {a b : Bool} {m n : Nat} {e f : Int} (he : -149 ≤ e) (hf : -149 ≤ f) : (FNum.fin a m e).cmp (.fin b n f) =
    placeOf (signed a (m * 2 ^ (e + 149).toNat)) (signed b (n * 2 ^ (f + 149).toNat)) := by
  have hq : (if e < f then e else f) ≤ e ∧ (if e < f then e else f) ≤ f ∧ -149 ≤ (if e < f then e else f) := by split <;> omega
  unfold FNum.cmp placeOf
  simp only
  generalize (if e < f then e else f) = q at hq
  obtain ⟨h1, h2, h3⟩ := hq
  have hpos : (0 : Int) < (2 ^ (q + 149).toNat : Nat) := by exact_mod_cast Nat.two_pow_pos _
  rw [← intAt_scaled a m h1 h3, ← intAt_scaled b n h2 h3]
  simp only [mul_lt_mul_iff_left₀ hpos, mul_left_inj' hpos.ne']

/-- R226: values that are no NaN compare as their signed bits. -/
theorem cmp_num32 {x y : BitVec 32} (hx : (num32 x).isNan = false) (hy : (num32 y).isNan = false) :
    (num32 x).cmp (num32 y) = placeOf (signed (x.getLsbD 31) (body x)) (signed (y.getLsbD 31) (body y)) := by
  have hplace : placeOf (signed (x.getLsbD 31) (body x)) (signed (y.getLsbD 31) (body y)) =
      placeOf (signed (x.getLsbD 31) (units (body x))) (signed (y.getLsbD 31) (units (body y))) := by
    unfold placeOf
    simp only [signed_units_lt, signed_units_eq]
  rcases num32_cases x with ⟨-, ex⟩ | ⟨bx, ex⟩ | ⟨bx, m, e, ex, he, hm⟩
  · rw [ex] at hx; cases hx
  · rcases num32_cases y with ⟨-, ey⟩ | ⟨bey, ey⟩ | ⟨bey, n, f, ey, hf, hn⟩
    · rw [ey] at hy; cases hy
    · rw [ex, ey, bx, bey]
      cases x.getLsbD 31 <;> cases y.getLsbD 31 <;> rfl
    · rw [ex, ey]
      unfold signed
      cases x.getLsbD 31
      · exact (placeOf_of_gt (by simp only [Bool.false_eq_true, if_false]; split <;> omega)).symm
      · exact (placeOf_of_lt (by simp only [if_true]; split <;> omega)).symm
  · rcases num32_cases y with ⟨-, ey⟩ | ⟨bey, ey⟩ | ⟨bey, n, f, ey, hf, hn⟩
    · rw [ey] at hy; cases hy
    · rw [ex, ey]
      unfold signed
      cases y.getLsbD 31
      · exact (placeOf_of_lt (by simp only [Bool.false_eq_true, if_false]; split <;> omega)).symm
      · exact (placeOf_of_gt (by simp only [if_true]; split <;> omega)).symm
    · rw [ex, ey, cmp_finite he hf, hm, hn, hplace]

theorem isNan_iff (x : BitVec 32) : (num32 x).isNan = true ↔ 0x7F800000 < body x := by
  rcases num32_cases x with ⟨hb, ex⟩ | ⟨hb, ex⟩ | ⟨hb, m, e, ex, -, -⟩
  · simp only [ex, FNum.isNan, true_iff]; exact hb
  · simp only [ex, FNum.isNan, Bool.false_eq_true, false_iff]; omega
  · simp only [ex, FNum.isNan, Bool.false_eq_true, false_iff]; omega

theorem exponent_toNat (x : BitVec 32) : (x.extractLsb' 23 8).toNat = x.toNat / 2 ^ 23 % 256 := by
  simp [BitVec.extractLsb'_toNat, Nat.shiftRight_eq_div_pow]

theorem fraction_toNat (x : BitVec 32) : (x.extractLsb' 0 23).toNat = x.toNat % 2 ^ 23 := by
  simp [BitVec.extractLsb'_toNat]

theorem exponent_eq_max_iff (x : BitVec 32) : x.extractLsb' 23 8 = 255 ↔ x.toNat / 2 ^ 23 % 256 = 255 := by
  rw [← exponent_toNat, ← BitVec.toNat_inj]; rfl

/-- A NaN by its fields. -/
theorem isNan_fields (x : BitVec 32) :
    (num32 x).isNan = (decide (x.extractLsb' 23 8 = 255) && decide (x.extractLsb' 0 23 ≠ 0)) := by
  have hx := x.isLt
  have hb : body x = x.toNat % 2 ^ 31 := rfl
  have hf : x.extractLsb' 0 23 = 0 ↔ x.toNat % 2 ^ 23 = 0 := by rw [← fraction_toNat, ← BitVec.toNat_inj]; rfl
  rw [Bool.eq_iff_iff, isNan_iff, Bool.and_eq_true, decide_eq_true_eq, decide_eq_true_eq, exponent_eq_max_iff, ne_eq, hf]
  omega

section
variable {x y : BitVec 32}

theorem numEq_iff : numEq (num32 x) (num32 y) = true ↔ (num32 x).isNan = false ∧ (num32 y).isNan = false ∧
    signed (x.getLsbD 31) (body x) = signed (y.getLsbD 31) (body y) := by
  unfold numEq
  rw [Bool.and_eq_true, Bool.and_eq_true, Bool.not_eq_true', Bool.not_eq_true', decide_eq_true_eq, and_assoc]
  refine and_congr_right (fun hx => and_congr_right (fun hy => ?_))
  rw [cmp_num32 hx hy, placeOf_eq_one_iff]

theorem numLt_iff : numLt (num32 x) (num32 y) = true ↔ (num32 x).isNan = false ∧ (num32 y).isNan = false ∧
    signed (x.getLsbD 31) (body x) < signed (y.getLsbD 31) (body y) := by
  unfold numLt
  rw [Bool.and_eq_true, Bool.and_eq_true, Bool.not_eq_true', Bool.not_eq_true', decide_eq_true_eq, and_assoc]
  refine and_congr_right (fun hx => and_congr_right (fun hy => ?_))
  rw [cmp_num32 hx hy, placeOf_eq_zero_iff]

theorem numLe_iff : numLe (num32 x) (num32 y) = true ↔ (num32 x).isNan = false ∧ (num32 y).isNan = false ∧
    signed (x.getLsbD 31) (body x) ≤ signed (y.getLsbD 31) (body y) := by
  unfold numLe
  rw [Bool.and_eq_true, Bool.and_eq_true, Bool.not_eq_true', Bool.not_eq_true', decide_eq_true_eq, and_assoc]
  refine and_congr_right (fun hx => and_congr_right (fun hy => ?_))
  rw [cmp_num32 hx hy, placeOf_ne_two_iff]

end

/-- The value of a finite binary32 number by its fields. -/
theorem rat_num32 {x : BitVec 32} (h : x.extractLsb' 23 8 ≠ 255) :
    (num32 x).rat = (if x.getLsbD 31 then -1 else 1) *
      (((x.extractLsb' 0 23).toNat + (if (x.extractLsb' 23 8).toNat = 0 then 0 else 2 ^ 23) : Nat) : ℚ)
        * 2 ^ ((max (x.extractLsb' 23 8).toNat 1 : Nat) - 150 : Int) := by
  rw [ne_eq, exponent_eq_max_iff] at h
  rw [num32_eq, sign_eq, if_neg h, exponent_toNat, fraction_toNat]
  by_cases h0 : x.toNat / 2 ^ 23 % 256 = 0
  · rw [if_pos h0, if_pos h0, h0]
    rfl
  · rw [if_neg h0, if_neg h0, rat_fin, Nat.add_comm, max_eq_left (by omega),
      show ((x.toNat / 2 ^ 23 % 256 : Nat) : Int) - 1 + -126 - 24 + 1 = (x.toNat / 2 ^ 23 % 256 : Nat) - 150 by omega]
    rfl

/-! ### NaN operands (R78, R245) -/

theorem isNan_neg (x : FNum) : x.neg.isNan = x.isNan := by cases x <;> rfl

theorem eq_nan_of_isNan {x : FNum} (h : x.isNan = true) : x = .nan := by
  cases x with
  | nan => rfl
  | inf a => cases h
  | fin a m e => cases h

section
variable {x y : FNum} (h : (x.isNan || y.isNan) = true)
include h

theorem eq_nan_or : x = .nan ∨ y = .nan := (Bool.or_eq_true _ _ ▸ h).imp eq_nan_of_isNan eq_nan_of_isNan

theorem add_of_isNan (mode : Nat) : x.add mode y = (.nan, false) := by
  rcases eq_nan_or h with rfl | rfl
  · rfl
  · cases x <;> rfl

theorem mul_of_isNan : x.mul y = (.nan, false) := by
  rcases eq_nan_or h with rfl | rfl
  · rfl
  · cases x <;> rfl

theorem div_of_isNan (p : Nat) : FNum.div p x y = ({ x := .nan }, 0) := by
  rcases eq_nan_or h with rfl | rfl
  · rfl
  · cases x <;> rfl

end

theorem rnd32_nan (mode : Nat) (fl : Fl) : rnd32With mode { x := .nan } fl = (0x7FC00000, fl) :=
  congrArg (Prod.mk _) (BitVec.zero_or)

theorem gathered2 (a b : Bool) : nvIf false ||| (if a then flNV else 0) ||| (if b then flNV else 0) = if a || b then flNV else 0 := by
  cases a <;> cases b <;> rfl

theorem gathered3 (v a b c : Bool) : nvIf v ||| (if a then flNV else 0) ||| (if b then flNV else 0) ||| (if c then flNV else 0)
    = if a || b || c || v then flNV else 0 := by
  cases v <;> cases a <;> cases b <;> cases c <;> rfl

/-- R78, R245: a NaN operand of a sum, difference, product or quotient. -/
theorem nan_results (m : Nat) {x y : BitVec 32} (h : ((num32 x).isNan || (num32 y).isNan) = true) :
    ∀ f ∈ [fAdd, fSub, fMul, fDiv],
      f m x y = (0x7FC00000, if fmt32.signals x.toNat || fmt32.signals y.toNat then flNV else 0) := by
  have hflags := gathered2 (fmt32.signals x.toNat) (fmt32.signals y.toNat)
  have hneg : ((num32 x).isNan || (num32 y).neg.isNan) = true := by rw [isNan_neg]; exact h
  intro f hf
  simp only [List.mem_cons, List.not_mem_nil, or_false] at hf
  rcases hf with rfl | rfl | rfl | rfl
  · unfold fAdd; simp only [add_of_isNan h, rnd32_nan]; rw [← hflags]; rfl
  · unfold fSub; simp only [add_of_isNan hneg, rnd32_nan]; rw [← hflags]; rfl
  · unfold fMul; simp only [mul_of_isNan h, rnd32_nan]; rw [← hflags]; rfl
  · unfold fDiv; simp only [div_of_isNan h, rnd32_nan]; rw [← hflags]; rfl

theorem zero_iff {x : BitVec 32} {n : Bool} {m : Nat} {e : Int} (h : num32 x = .fin n m e) : m = 0 ↔ body x = 0 := by
  rcases num32_cases x with ⟨-, ex⟩ | ⟨-, ex⟩ | ⟨-, k, f, ex, -, hk⟩
  · rw [ex] at h; cases h
  · rw [ex] at h; cases h
  · rw [ex] at h
    cases h
    rw [← units_eq_iff (b := body x), units_zero, ← hk]
    simp

/-- R245: a product is invalid where zero meets an infinity. -/
theorem mul_invalid_iff (x y : BitVec 32) : ((num32 x).mul (num32 y)).2 = true ↔
    (body x = 0 ∧ body y = 0x7F800000) ∨ (body y = 0 ∧ body x = 0x7F800000) := by
  rcases num32_cases x with ⟨bx, ex⟩ | ⟨bx, ex⟩ | ⟨bx, m, e, ex, -, -⟩
  · rw [ex, mul_of_isNan rfl]
    simp only [Bool.false_eq_true, false_iff]; omega
  · rcases num32_cases y with ⟨bey, ey⟩ | ⟨bey, ey⟩ | ⟨bey, n, f, ey, -, -⟩
    · rw [ex, ey, mul_of_isNan rfl]
      simp only [Bool.false_eq_true, false_iff]; omega
    · rw [ex, ey]
      simp only [FNum.mul, Bool.false_eq_true, false_iff]; omega
    · have hz := zero_iff ey
      rw [ex, ey]
      by_cases hn : n = 0
      · simp only [FNum.mul, hn, if_true, true_iff]; omega
      · simp only [FNum.mul, hn, if_false, Bool.false_eq_true, false_iff]; omega
  · have hz := zero_iff ex
    rcases num32_cases y with ⟨bey, ey⟩ | ⟨bey, ey⟩ | ⟨bey, n, f, ey, -, -⟩
    · rw [ex, ey, mul_of_isNan rfl]
      simp only [Bool.false_eq_true, false_iff]; omega
    · rw [ex, ey]
      by_cases hm : m = 0
      · simp only [FNum.mul, hm, if_true, true_iff]; omega
      · simp only [FNum.mul, hm, if_false, Bool.false_eq_true, false_iff]; omega
    · rw [ex, ey]
      simp only [FNum.mul, Bool.false_eq_true, false_iff]; omega

theorem fma_of_invalid {mode : Nat} {x y z : FNum} (h : (x.mul y).2 = true) : FNum.fma mode x y z = (.nan, true) := if_pos h

theorem fma_of_valid {mode : Nat} {x y z : FNum} (h : (x.mul y).2 = false) : FNum.fma mode x y z = (x.mul y).1.add mode z :=
  if_neg (by rw [h]; decide)

/-- R78, R245: a NaN operand of f.fma, beside which zero times infinity is invalid all the same. -/
theorem nan_fma (m : Nat) {x y z : BitVec 32} (h : ((num32 x).isNan || (num32 y).isNan || (num32 z).isNan) = true) :
    fFma m x y z = (0x7FC00000, if fmt32.signals x.toNat || fmt32.signals y.toNat || fmt32.signals z.toNat ||
      ((num32 x).mul (num32 y)).2 then flNV else 0) := by
  have hfma : FNum.fma m (num32 x) (num32 y) (num32 z) = (.nan, ((num32 x).mul (num32 y)).2) := by
    cases hv : ((num32 x).mul (num32 y)).2 with
    | true => exact fma_of_invalid hv
    | false =>
      rw [fma_of_valid hv]
      refine add_of_isNan ?_ m
      by_cases hxy : ((num32 x).isNan || (num32 y).isNan) = true
      · rw [mul_of_isNan hxy]; rfl
      · rw [Bool.not_eq_true] at hxy
        rw [hxy, Bool.false_or] at h
        rw [h, Bool.or_true]
  unfold fFma
  simp only [hfma, rnd32_nan]
  rw [← gathered3]
  rfl

/-! ### Exact arithmetic (R81, R245, R251) -/

theorem rat_zero (neg : Bool) (e : Int) : (FNum.fin neg 0 e).rat = 0 := by simp [rat_fin]

theorem rat_eq_zero_iff (neg : Bool) (m : Nat) (e : Int) : (FNum.fin neg m e).rat = 0 ↔ m = 0 := by
  rw [← abs_eq_zero, abs_rat, mul_eq_zero, Nat.cast_eq_zero, or_iff_left (two_zpow_pos e).ne']

theorem rat_same_sign {a : Bool} {m n : Nat} {e f : Int} (h : (FNum.fin a m e).rat + (FNum.fin a n f).rat = 0) : m = 0 ∧ n = 0 := by
  have hm : (0 : ℚ) ≤ m * 2 ^ e := mul_nonneg (Nat.cast_nonneg _) (two_zpow_pos e).le
  have hn : (0 : ℚ) ≤ n * 2 ^ f := mul_nonneg (Nat.cast_nonneg _) (two_zpow_pos f).le
  have hsum : (m : ℚ) * 2 ^ e + n * 2 ^ f = 0 := by
    rw [rat_fin, rat_fin, mul_assoc, mul_assoc, ← mul_add] at h
    refine (mul_eq_zero.mp h).resolve_left (fun h0 => ?_)
    have := abs_sgn a
    rw [h0] at this
    norm_num at this
  have hm0 : (m : ℚ) * 2 ^ e = 0 := by linarith
  have hn0 : (n : ℚ) * 2 ^ f = 0 := by linarith
  rw [mul_eq_zero, Nat.cast_eq_zero, or_iff_left (two_zpow_pos _).ne'] at hm0 hn0
  exact ⟨hm0, hn0⟩

/-- The sum of two numbers in units of the finer one. -/
theorem add_fin {a b : Bool} {m n : Nat} {e f : Int} (hm : m ≠ 0) (hn : n ≠ 0) (mode : Nat) :
    ∃ (s : Int) (q : Int), (FNum.fin a m e).add mode (.fin b n f) =
        (if s = 0 then (.fin (mode = 3) 0 0, false) else (.fin (decide (s < 0)) s.natAbs q, false)) ∧
      (s : ℚ) * 2 ^ q = (FNum.fin a m e).rat + (FNum.fin b n f).rat := by
  have hq : (if e < f then e else f) ≤ e ∧ (if e < f then e else f) ≤ f := by split <;> omega
  refine ⟨intAt a m e (if e < f then e else f) + intAt b n f (if e < f then e else f), if e < f then e else f, ?_, ?_⟩
  · unfold FNum.add
    simp only [hm, hn, decide_false, Bool.false_and, Bool.false_eq_true, if_false]
  · rw [Int.cast_add, add_mul, intAt_rat a m hq.1, intAt_rat b n hq.2]

theorem add_exact (mode : Nat) (a b : Bool) (m n : Nat) (e f : Int) : ∃ d k h, (FNum.fin a m e).add mode (.fin b n f) = (.fin d k h, false) ∧
    (FNum.fin d k h).rat = (FNum.fin a m e).rat + (FNum.fin b n f).rat := by
  by_cases hm : m = 0
  · by_cases hn : n = 0
    · refine ⟨if a = b then a else decide (mode = 3), 0, 0, by simp [FNum.add, hm, hn], ?_⟩
      rw [hm, hn]; simp only [rat_zero, add_zero]
    · exact ⟨b, n, f, by simp [FNum.add, hm, hn], by rw [hm, rat_zero, zero_add]⟩
  · by_cases hn : n = 0
    · exact ⟨a, m, e, by simp [FNum.add, hm, hn], by rw [hn, rat_zero, add_zero]⟩
    · obtain ⟨s, q, hadd, hval⟩ := add_fin (a := a) (b := b) (e := e) (f := f) hm hn mode
      rw [hadd, ← hval]
      by_cases hs : s = 0
      · exact ⟨_, _, _, by rw [if_pos hs], by rw [rat_zero, hs]; simp⟩
      · exact ⟨_, _, _, by rw [if_neg hs], by rw [rat_fin, sgn_natAbs]⟩

/-- R81, R245: the sign of a sum that is exactly zero. -/
theorem add_zero_sum {mode : Nat} {a b : Bool} {m n : Nat} {e f : Int} (h : (FNum.fin a m e).rat + (FNum.fin b n f).rat = 0) :
    (FNum.fin a m e).add mode (.fin b n f) = (.fin (if a = b then a else decide (mode = 3)) 0 0, false) := by
  by_cases hm : m = 0
  · have hn : n = 0 := by rwa [hm, rat_zero, zero_add, rat_eq_zero_iff] at h
    simp [FNum.add, hm, hn]
  · have hn : n ≠ 0 := fun hn => hm (by rwa [hn, rat_zero, add_zero, rat_eq_zero_iff] at h)
    have hab : a ≠ b := by
      rintro rfl
      exact hm (rat_same_sign h).1
    obtain ⟨s, q, hadd, hval⟩ := add_fin (a := a) (b := b) (e := e) (f := f) hm hn mode
    have hs : s = 0 := by
      rw [h, mul_eq_zero, or_iff_left (two_zpow_pos q).ne'] at hval
      exact_mod_cast hval
    rw [hadd, if_pos hs, if_neg hab]

theorem mul_exact (a b : Bool) (m n : Nat) (e f : Int) :
    (FNum.fin a m e).mul (.fin b n f) = (.fin (a ^^ b) (m * n) (e + f), false) := rfl

theorem fma_exact (mode : Nat) (a b c : Bool) (m n l : Nat) (e f g : Int) : ∃ d k h,
    FNum.fma mode (.fin a m e) (.fin b n f) (.fin c l g) = (.fin d k h, false) ∧
      (FNum.fin d k h).rat = (FNum.fin a m e).rat * (FNum.fin b n f).rat + (FNum.fin c l g).rat := by
  rw [rat_mul]
  exact add_exact mode (a ^^ b) c (m * n) l (e + f) g

/-- R251: a quotient down to its last place, which a remainder exceeds. -/
theorem div_exact (p : Nat) (a b : Bool) {m n : Nat} (e f : Int) (hm : m ≠ 0) (hn : n ≠ 0) : ∃ k h st,
    FNum.div p (.fin a m e) (.fin b n f) = ({ x := .fin (a ^^ b) k h, sticky := st }, 0) ∧ 2 ^ (p + 2) ≤ k ∧
      (k : ℚ) * 2 ^ h ≤ |(FNum.fin a m e).rat| / |(FNum.fin b n f).rat| ∧
      |(FNum.fin a m e).rat| / |(FNum.fin b n f).rat| < ((k + 1 : Nat) : ℚ) * 2 ^ h ∧
      (st = true ↔ (k : ℚ) * 2 ^ h ≠ |(FNum.fin a m e).rat| / |(FNum.fin b n f).rat|) := by
  have hn' : (0 : ℚ) < n := by exact_mod_cast Nat.pos_of_ne_zero hn
  generalize hj : p + 3 + bitLen n = j
  have hval : |(FNum.fin a m e).rat| / |(FNum.fin b n f).rat| = ((m * 2 ^ j : Nat) : ℚ) / n * 2 ^ (e - f - j) := by
    rw [abs_rat, abs_rat, zpow_sub₀ (by norm_num), zpow_sub₀ (by norm_num), zpow_natCast]
    push_cast
    field_simp
  have hdiv := Nat.div_add_mod (m * 2 ^ j) n
  have hlt := Nat.mod_lt (m * 2 ^ j) (Nat.pos_of_ne_zero hn)
  refine ⟨m * 2 ^ j / n, e - f - j, decide (m * 2 ^ j % n ≠ 0), ?_, ?_, ?_, ?_, ?_⟩
  · unfold FNum.div
    simp only [hm, hn, if_false, hj]
    rfl
  · rw [Nat.le_div_iff_mul_le (Nat.pos_of_ne_zero hn)]
    have hlen : n < 2 ^ bitLen n := (bitLen_le_iff n _).mp le_rfl
    calc 2 ^ (p + 2) * n ≤ 2 ^ (p + 3) * 2 ^ bitLen n := Nat.mul_le_mul (Nat.pow_le_pow_right (by norm_num) (by omega)) hlen.le
      _ = 2 ^ j := by rw [← Nat.pow_add, hj]
      _ ≤ m * 2 ^ j := Nat.le_mul_of_pos_left _ (Nat.pos_of_ne_zero hm)
  · rw [hval]
    refine mul_le_mul_of_nonneg_right ?_ (two_zpow_pos _).le
    rw [le_div_iff₀ hn']
    exact_mod_cast Nat.div_mul_le_self _ _
  · rw [hval]
    refine mul_lt_mul_of_pos_right ?_ (two_zpow_pos _)
    rw [div_lt_iff₀ hn']
    exact_mod_cast (Nat.div_lt_iff_lt_mul (Nat.pos_of_ne_zero hn)).mp (Nat.lt_succ_self _)
  · rw [decide_eq_true_iff, hval, ne_eq, ne_eq, mul_left_inj' (two_zpow_pos _).ne', eq_div_iff hn'.ne', not_iff_not, ← Nat.cast_mul,
      Nat.cast_inj, Nat.mul_comm _ n]
    omega

/-- The square root, from a bound of its remaining bits. -/
theorem isqrtFrom_spec (n : Nat) : ∀ i r, r * r ≤ n → n < (r + 2 ^ i) * (r + 2 ^ i) →
    isqrtFrom n i r * isqrtFrom n i r ≤ n ∧ n < (isqrtFrom n i r + 1) * (isqrtFrom n i r + 1)
  | 0, r, h1, h2 => ⟨h1, h2⟩
  | i + 1, r, h1, h2 => by
    rw [isqrtFrom]
    by_cases ht : (r + 2 ^ i) * (r + 2 ^ i) ≤ n
    · refine isqrtFrom_spec n i _ (by simp [ht]) ?_
      rw [if_pos ht, Nat.add_assoc, ← Nat.two_mul, ← Nat.pow_succ']
      exact h2
    · refine isqrtFrom_spec n i _ (by simpa [ht] using h1) ?_
      rw [if_neg ht]
      omega

theorem isqrt_spec (n : Nat) : isqrtFrom n ((bitLen n + 1) / 2) 0 * isqrtFrom n ((bitLen n + 1) / 2) 0 ≤ n ∧
    n < (isqrtFrom n ((bitLen n + 1) / 2) 0 + 1) * (isqrtFrom n ((bitLen n + 1) / 2) 0 + 1) := by
  refine isqrtFrom_spec n _ 0 (Nat.zero_le _) ?_
  have hlen : n < 2 ^ bitLen n := (bitLen_le_iff n _).mp le_rfl
  rw [Nat.zero_add, ← Nat.pow_add]
  exact hlen.trans_le (Nat.pow_le_pow_right (by norm_num) (by omega))

/-- The radicand with an even exponent. -/
def evened (m : Nat) (e : Int) : Nat × Int := if e % 2 ≠ 0 then (2 * m, e - 1) else (m, e)

theorem evened_spec (m : Nat) (e : Int) : (evened m e).2 = (evened m e).2 / 2 + (evened m e).2 / 2 ∧ m ≤ (evened m e).1 ∧
    ((evened m e).1 : ℚ) * 2 ^ (evened m e).2 = m * 2 ^ e := by
  unfold evened
  by_cases h : e % 2 ≠ 0
  · rw [if_pos h]
    refine ⟨by simp only; omega, by simp only; omega, ?_⟩
    rw [show e = 1 + (e - 1) by omega, zpow_add₀ (by norm_num), zpow_one]
    push_cast
    rw [show 1 + (e - 1) - 1 = e - 1 by omega]
    ring
  · rw [if_neg h]
    exact ⟨by simp only; omega, le_rfl, rfl⟩

/-- R251: a square root down to its last place, which a remainder exceeds. -/
theorem sqrt_exact (p : Nat) {m : Nat} (e : Int) (hm : m ≠ 0) : ∃ k h st,
    FNum.sqrt p (.fin false m e) = ({ x := .fin false k h, sticky := st }, false) ∧ 2 ^ (p + 2) ≤ k ∧
      ((k : ℚ) * 2 ^ h) ^ 2 ≤ (FNum.fin false m e).rat ∧ (FNum.fin false m e).rat < (((k + 1 : Nat) : ℚ) * 2 ^ h) ^ 2 ∧
      (st = true ↔ ((k : ℚ) * 2 ^ h) ^ 2 ≠ (FNum.fin false m e).rat) := by
  obtain ⟨heven, hle, hval⟩ := evened_spec m e
  generalize hm1 : (evened m e).1 = m1 at hle hval
  generalize he1 : (evened m e).2 = e1 at heven hval
  generalize hn : m1 * 2 ^ (2 * (p + 3)) = n
  obtain ⟨hlo, hhi⟩ := isqrt_spec n
  generalize hr : isqrtFrom n ((bitLen n + 1) / 2) 0 = r at hlo hhi
  have hrat : (FNum.fin false m e).rat = (n : ℚ) * (2 ^ (e1 / 2 - (p + 3 : Nat))) ^ 2 := by
    have hpow : ((2 : ℚ) ^ (e1 / 2 - (p + 3 : Nat))) ^ 2 = 2 ^ e1 / 2 ^ (2 * (p + 3)) := by
      rw [← zpow_natCast, ← zpow_mul, ← zpow_natCast, ← zpow_sub₀ (by norm_num)]
      congr 1
      omega
    rw [rat_fin, hpow, ← hn]
    unfold sgn
    push_cast
    rw [mul_assoc (m1 : ℚ), mul_div_cancel₀ _ (by positivity), hval]
    simp
  have hscale : (0 : ℚ) < (2 ^ (e1 / 2 - (p + 3 : Nat))) ^ 2 := pow_pos (two_zpow_pos _) 2
  refine ⟨r, e1 / 2 - (p + 3 : Nat), decide (r * r ≠ n), ?_, ?_, ?_, ?_, ?_⟩
  · have h1 : (if e % 2 ≠ 0 then 2 * m else m) = m1 := by rw [← hm1]; unfold evened; split <;> rfl
    have h2 : (if e % 2 ≠ 0 then e - 1 else e) = e1 := by rw [← he1]; unfold evened; split <;> rfl
    unfold FNum.sqrt
    simp only [hm, if_false, Bool.false_eq_true, h1, h2, hn, hr]
    rfl
  · by_contra hk
    have hsmall : (r + 1) * (r + 1) ≤ 2 ^ (p + 2) * 2 ^ (p + 2) := Nat.mul_le_mul (by omega) (by omega)
    have hbig : 2 ^ (p + 2) * 2 ^ (p + 2) ≤ n := by
      rw [← hn, ← Nat.pow_add]
      exact (Nat.pow_le_pow_right (by norm_num) (by omega)).trans (Nat.le_mul_of_pos_left _ (by omega))
    omega
  · rw [hrat, mul_pow]
    refine mul_le_mul_of_nonneg_right ?_ hscale.le
    rw [pow_two]
    exact_mod_cast hlo
  · rw [hrat, mul_pow]
    refine mul_lt_mul_of_pos_right ?_ hscale
    rw [pow_two]
    exact_mod_cast hhi
  · rw [decide_eq_true_iff, hrat, mul_pow, ne_eq, ne_eq, mul_left_inj' hscale.ne', pow_two, not_iff_not]
    exact_mod_cast Iff.rfl

/-! ### Each result is rounded once (R242, R245) -/

theorem signals_eq (x : BitVec 32) : fmt32.signals x.toNat =
    (decide (x.toNat / 2 ^ 23 % 256 = 255) && decide (x.toNat % 2 ^ 23 ≠ 0) && decide (x.toNat % 2 ^ 23 < 2 ^ 22)) := rfl

theorem snan32_of_number {x : BitVec 32} (h : (num32 x).isNan = false) : snan32 x = 0 := by
  refine if_neg (fun hs => ?_)
  have hn : ¬ 0x7F800000 < body x := by rw [← isNan_iff, h]; decide
  have hb : body x = x.toNat % 2 ^ 31 := rfl
  rw [signals_eq, Bool.and_eq_true, Bool.and_eq_true, decide_eq_true_eq, decide_eq_true_eq] at hs
  omega

theorem rnd32With_zero (mode : Nat) (r : Exact) : rnd32With mode r 0 = rnd32 mode r := congrArg (Prod.mk _) BitVec.or_zero

/-- The number is finite. -/
def Finite (n : FNum) : Prop := ∃ a m e, n = .fin a m e

theorem finite_of_match {n : FNum} (h : (match n with | .fin _ _ _ => true | _ => false) = true) : Finite n := by
  cases n with
  | nan => cases h
  | inf a => cases h
  | fin a m e => exact ⟨a, m, e, rfl⟩

section
variable (m : Nat) {x y z : BitVec 32} (hx : Finite (num32 x)) (hy : Finite (num32 y)) (hz : Finite (num32 z))

theorem snan32_of_finite (hx : Finite (num32 x)) : snan32 x = 0 := by
  obtain ⟨a, k, e, h⟩ := hx
  exact snan32_of_number (by rw [h]; rfl)

include hx hy

theorem fAdd_rounds : fAdd m x y = rnd32 m { x := ((num32 x).add m (num32 y)).1 } := by
  have hs := snan32_of_finite hx
  have ht := snan32_of_finite hy
  obtain ⟨a, k, e, ex⟩ := hx
  obtain ⟨b, n, f, ey⟩ := hy
  obtain ⟨d, l, h, hadd, -⟩ := add_exact m a b k n e f
  rw [← rnd32With_zero]
  unfold fAdd
  simp only [hs, ht, ex, ey, hadd]
  rfl

theorem fSub_rounds : fSub m x y = rnd32 m { x := ((num32 x).add m (num32 y).neg).1 } := by
  have hs := snan32_of_finite hx
  have ht := snan32_of_finite hy
  obtain ⟨a, k, e, ex⟩ := hx
  obtain ⟨b, n, f, ey⟩ := hy
  obtain ⟨d, l, h, hadd, -⟩ := add_exact m a (!b) k n e f
  rw [← rnd32With_zero]
  unfold fSub
  simp only [hs, ht, ex, ey, FNum.neg, hadd]
  rfl

theorem fMul_rounds : fMul m x y = rnd32 m { x := ((num32 x).mul (num32 y)).1 } := by
  have hs := snan32_of_finite hx
  have ht := snan32_of_finite hy
  obtain ⟨a, k, e, ex⟩ := hx
  obtain ⟨b, n, f, ey⟩ := hy
  rw [← rnd32With_zero]
  unfold fMul
  simp only [hs, ht, ex, ey, mul_exact]
  rfl

theorem fDiv_rounds (hx0 : (num32 x).rat ≠ 0) (hy0 : (num32 y).rat ≠ 0) :
    fDiv m x y = rnd32 m (FNum.div 24 (num32 x) (num32 y)).1 := by
  have hs := snan32_of_finite hx
  have ht := snan32_of_finite hy
  obtain ⟨a, k, e, ex⟩ := hx
  obtain ⟨b, n, f, ey⟩ := hy
  rw [ex, ne_eq, rat_eq_zero_iff] at hx0
  rw [ey, ne_eq, rat_eq_zero_iff] at hy0
  obtain ⟨q, h, st, hdiv, -⟩ := div_exact 24 a b e f hx0 hy0
  rw [← rnd32With_zero]
  unfold fDiv
  simp only [hs, ht, ex, ey, hdiv]
  rfl

include hz

theorem fFma_rounds : fFma m x y z = rnd32 m { x := (FNum.fma m (num32 x) (num32 y) (num32 z)).1 } := by
  have hs := snan32_of_finite hx
  have ht := snan32_of_finite hy
  have hu := snan32_of_finite hz
  obtain ⟨a, k, e, ex⟩ := hx
  obtain ⟨b, n, f, ey⟩ := hy
  obtain ⟨c, l, g, ez⟩ := hz
  obtain ⟨d, j, h, hfma, -⟩ := fma_exact m a b c k n l e f g
  rw [← rnd32With_zero]
  unfold fFma
  simp only [hs, ht, hu, ex, ey, ez, hfma]
  rfl

end

theorem fSqrt_rounds (m : Nat) {x : BitVec 32} (hx : Finite (num32 x)) (h0 : 0 < (num32 x).rat) :
    fSqrt m x = rnd32 m (FNum.sqrt 24 (num32 x)).1 := by
  have hs := snan32_of_finite hx
  obtain ⟨a, k, e, ex⟩ := hx
  have hk : k ≠ 0 := by rw [ne_eq, ← rat_eq_zero_iff a k e, ← ex]; exact h0.ne'
  have ha : a = false := by
    rw [← Bool.not_eq_true]
    rintro rfl
    have hneg : (FNum.fin true k e).rat ≤ 0 := by
      rw [rat_fin, mul_assoc]
      exact mul_nonpos_of_nonpos_of_nonneg (by norm_num [sgn]) (mul_nonneg (Nat.cast_nonneg _) (two_zpow_pos e).le)
    rw [ex] at h0
    exact absurd h0 (not_lt.mpr hneg)
  subst ha
  obtain ⟨q, h, st, hsqrt, -⟩ := sqrt_exact 24 e hk
  rw [← rnd32With_zero]
  unfold fSqrt
  simp only [hs, ex, hsqrt]
  rfl

/-! ### Rounding of variable-precision values (R93) -/

/-- Whether a number below the least gives the least instead of zero. -/
def leastOut (mode : Nat) (neg : Bool) : Bool :=
  match mode with
  | 2 => !neg
  | 3 => neg
  | 4 => true
  | _ => false

theorem leastOut_eq {mode : Nat} (h : mode ≤ 4) (neg : Bool) :
    leastOut mode neg = [(4, false), (4, true), (2, false), (3, true)].contains (mode, neg) := by
  interval_cases mode <;> cases neg <;> rfl

theorem overflowToMax_eq {mode : Nat} (h : mode ≤ 4) (neg : Bool) :
    overflowToMax mode neg = !([(0, false), (0, true), (2, false), (3, true)].contains (mode, neg)) := by
  interval_cases mode <;> cases neg <;> rfl

/-- R93: the count of the last of p bits that holds a number, and what becomes of one out of range. -/
theorem vfRound_number {p mode : Nat} (neg sticky : Bool) {m : Nat} (e : Int) (hmode : mode ≤ 4) (hp : 1 ≤ p) (hm : m ≠ 0) :
    let q : Int := e + bitLen m - p
    let c := quantize mode neg m e sticky q
    let r := vfRound p mode { x := .fin neg m e, sticky := sticky }
    let away (ms : List (Nat × Bool)) : Bool := ms.contains (mode, neg)
    ((2 : ℚ) ^ (-32766 : Int) ≤ c.1 * 2 ^ q → (c.1 : ℚ) * 2 ^ q < 2 ^ 32768 →
      r = (.fin neg c.1 q, if c.2 then vlNX else 0)) ∧
    ((2 : ℚ) ^ 32768 ≤ c.1 * 2 ^ q → r = (if away [(0, false), (0, true), (2, false), (3, true)] then .inf neg
      else .fin neg (2 ^ p - 1) (32768 - p), vlOF ||| vlNX)) ∧
    ((c.1 : ℚ) * 2 ^ q < 2 ^ (-32766 : Int) → r = (if away [(4, false), (4, true), (2, false), (3, true)] then .fin neg 1 (-32766)
      else .fin neg 0 0, vlUF ||| vlNX)) := by
  intro q c r away
  have hc0 : c.1 ≠ 0 := by
    have h : 2 ^ (p - 1) ≤ c.1 := pow_le_quantize mode neg sticky hm (by simp only [q]; omega)
    have := Nat.two_pow_pos (p - 1)
    omega
  have htop : (2 : ℚ) ^ 32768 = 2 ^ (32768 : Int) := (zpow_natCast 2 32768).symm
  have hr : r = if 32767 < q + bitLen c.1 - 1 then
        (if overflowToMax mode neg then .fin neg (2 ^ p - 1) (32768 - p) else .inf neg, vlOF ||| vlNX)
      else if q + bitLen c.1 - 1 < -32766 then
        (if leastOut mode neg then .fin neg 1 (-32766) else .fin neg 0 0, vlUF ||| vlNX)
      else (.fin neg c.1 q, if c.2 then vlNX else 0) := by
    simp only [r, vfRound, hm, if_false]
    rfl
  rw [htop, zpow_le_iff hc0, zpow_le_iff hc0, lt_zpow_iff hc0, lt_zpow_iff hc0]
  refine ⟨fun hlo hhi => ?_, fun hbig => ?_, fun hsmall => ?_⟩
  · rw [hr, if_neg (by omega), if_neg (by omega)]
  · rw [hr, if_pos (by omega), overflowToMax_eq hmode]
    simp only [away, Bool.not_eq_true', ← Bool.not_eq_true, ite_not]
  · rw [hr, if_neg (by omega), if_pos (by omega), leastOut_eq hmode]

/-- Settles O7: the order by the signed bits, NaN operands, exact arithmetic, and one rounding of every result. -/
theorem floatValues : Obligations.FloatValues := by
  unfold Obligations.FloatValues
  refine ⟨fun x y => ?_, fun m x y h => nan_results m h, fun m x y z h => ?_, fun f hf mode neg st e => ?_, fun x hx => rat_num32 hx,
    fun mode a b c m n l e f g => ⟨add_exact mode a b m n e f, add_zero_sum, ?_, fma_exact mode a b c m n l e f g,
      fun p hm hn => div_exact p a b e f hm hn, fun p hm ha => ?_⟩, fun m x y z _ _ _ => ?_,
    fun mode neg st m e q hmode => ⟨fun h => ?_, fun h => quantize_table neg st m hmode h⟩,
    fun f hf mode neg st m e hmode hm => round_number (binary_of_mem hf) neg st e hmode hm,
    fun p mode neg st m e hmode hp hm => vfRound_number neg st e hmode hp hm⟩
  · intro nan key
    have hnan (z : BitVec 32) : nan z = (num32 z).isNan := (isNan_fields z).symm
    rw [hnan, hnan]
    exact ⟨rfl, numEq_iff, numLt_iff, numLe_iff⟩
  · intro zeroInf
    rw [nan_fma m h]
    have hinv : ((num32 x).mul (num32 y)).2 = (zeroInf x y || zeroInf y x) := by
      rw [Bool.eq_iff_iff, mul_invalid_iff]
      simp [zeroInf, body]
    simp only [hinv, Bool.or_assoc]
  · have h := round_inf f mode neg st
    exact ⟨h.1, h.2, round_zero f mode neg st e, round_nan (binary_of_mem hf) mode st⟩
  · exact ⟨_, _, _, rfl, rfl, (rat_mul a b m n e f).symm⟩
  · subst ha
    exact sqrt_exact p e hm
  · intro X Y fin hX hY hZ
    have fx : Finite (num32 x) := finite_of_match hX
    have fy : Finite (num32 y) := finite_of_match hY
    have fz : Finite (num32 z) := finite_of_match hZ
    exact ⟨fAdd_rounds m fx fy, fSub_rounds m fx fy, fMul_rounds m fx fy, fFma_rounds m fx fy fz,
      fun h1 h2 => fDiv_rounds m fx fy h1 h2, fun h => fSqrt_rounds m fx h⟩
  · rw [quantize_exact h]
    exact ⟨rfl, rfl⟩

end Sys2Proof.Formats
end

