-- ==== Sys2Proof/Proofs/VectorFloats.lean ====
section
/-! SUPPORT. Sys2Proof/Proofs/VectorFloats.lean: the balanced tree of a sum over lanes, and the vector FP32 instructions (O12). -/

namespace Sys2Proof.Formats
open Sys2Proof.Machine Sys2Proof.Accesses

/-! ### The tree of a sum (R96) -/

/-- A tree over the nodes of the level above its leaves is the tree with one more level. -/
theorem treeNode_pairs {α : Type} (op : α → α → α) (leaf : Nat → α) : ∀ l i,
    treeNode op (fun j => op (leaf (2 * j)) (leaf (2 * j + 1))) l i = treeNode op leaf (l + 1) i
  | 0, i => rfl
  | l + 1, i => by
    rw [treeNode, treeNode_pairs op leaf l, treeNode_pairs op leaf l]
    rfl

/-- A tree reads the leaves under its node only. -/
theorem treeNode_congr {α : Type} (op : α → α → α) {f g : Nat → α} : ∀ {l i : Nat},
    (∀ j, i * 2 ^ l ≤ j → j < (i + 1) * 2 ^ l → f j = g j) → treeNode op f l i = treeNode op g l i
  | 0, i, h => h i (by omega) (by omega)
  | l + 1, i, h => by
    rw [treeNode, treeNode, treeNode_congr (l := l) op (fun j h1 h2 => h j ?_ ?_), treeNode_congr (l := l) op (fun j h1 h2 => h j ?_ ?_)]
    all_goals rw [Nat.pow_succ]
    all_goals nlinarith

section
variable (m : Nat)

theorem fPair_length : ∀ {n : Nat} {l : List (BitVec 32)}, l.length = 2 * n → (fPair m l).1.length = n
  | 0, [], _ => rfl
  | n + 1, x :: y :: t, h => by
    simp only [fPair, List.length_cons] at h ⊢
    rw [fPair_length (n := n) (by omega)]

/-- R96: an element of the next level is the sum of two adjacent ones. -/
theorem laneAt_fPair : ∀ {n : Nat} {l : List (BitVec 32)}, l.length = 2 * n → ∀ i < n,
    laneAt (fPair m l).1 i = (fAdd m (laneAt l (2 * i)) (laneAt l (2 * i + 1))).1
  | n + 1, x :: y :: t, _, 0, _ => rfl
  | n + 1, x :: y :: t, h, i + 1, hi => by
    simp only [List.length_cons] at h
    exact laneAt_fPair (n := n) (l := t) (by omega) i (by omega)

/-- R96: the flags of a level are those of its sums. -/
theorem flags_fPair (j : Nat) : ∀ {n : Nat} {l : List (BitVec 32)}, l.length = 2 * n → ((fPair m l).2.getLsbD j = true ↔
    ∃ i < n, (fAdd m (laneAt l (2 * i)) (laneAt l (2 * i + 1))).2.getLsbD j = true)
  | 0, [], _ => by simp [fPair]
  | n + 1, x :: y :: t, h => by
    simp only [List.length_cons] at h
    have ih := flags_fPair j (n := n) (l := t) (by omega)
    simp only [fPair, BitVec.getLsbD_or, Bool.or_eq_true, ih]
    constructor
    · rintro (h0 | ⟨i, hi, hb⟩)
      · exact ⟨0, by omega, h0⟩
      · exact ⟨i + 1, by omega, hb⟩
    · rintro ⟨i, hi, hb⟩
      cases i with
      | zero => exact .inl hb
      | succ i => exact .inr ⟨i, by omega, hb⟩

/-- The leaves of a level as the nodes of the lower one. -/
theorem treeNode_fPair {n : Nat} {l : List (BitVec 32)} (h : l.length = 2 ^ (n + 1)) {k i : Nat} (hi : (i + 1) * 2 ^ k ≤ 2 ^ n) :
    treeNode (fun x y => (fAdd m x y).1) (laneAt (fPair m l).1) k i = treeNode (fun x y => (fAdd m x y).1) (laneAt l) (k + 1) i := by
  rw [← treeNode_pairs]
  exact treeNode_congr _ (fun j _ h2 => laneAt_fPair m (n := 2 ^ n) (by rw [h, Nat.pow_succ']) j (by omega))

/-- R96: the sum is the root of the tree. -/
theorem fTree_value : ∀ (n : Nat) {l : List (BitVec 32)}, l.length = 2 ^ n →
    (fTree m n l).1 = treeNode (fun x y => (fAdd m x y).1) (laneAt l) n 0
  | 0, [x], _ => rfl
  | n + 1, l, h => by
    rw [fTree, fTree_value n (fPair_length m (by rw [h, Nat.pow_succ'])), treeNode_fPair m h (by omega)]

/-- R96: the flags of the sum are those of every node. -/
theorem fTree_flags (j : Nat) : ∀ (n : Nat) {l : List (BitVec 32)}, l.length = 2 ^ n → ((fTree m n l).2.getLsbD j = true ↔
    ∃ k < n, ∃ i < 2 ^ (n - 1 - k), (fAdd m (treeNode (fun x y => (fAdd m x y).1) (laneAt l) k (2 * i))
      (treeNode (fun x y => (fAdd m x y).1) (laneAt l) k (2 * i + 1))).2.getLsbD j = true)
  | 0, l, _ => by simp [fTree]
  | n + 1, l, h => by
    have hlen : l.length = 2 * 2 ^ n := by rw [h, Nat.pow_succ']
    have ih := fTree_flags j n (fPair_length m hlen)
    simp only [fTree, BitVec.getLsbD_or, Bool.or_eq_true, ih, flags_fPair m j hlen]
    have node {k i : Nat} (hk : k < n) (hi : i < 2 ^ (n - 1 - k)) (b : Nat) (hb : b < 2) :
        treeNode (fun x y => (fAdd m x y).1) (laneAt (fPair m l).1) k (2 * i + b)
          = treeNode (fun x y => (fAdd m x y).1) (laneAt l) (k + 1) (2 * i + b) := by
      refine treeNode_fPair m h ?_
      have hpow : 2 ^ n = 2 * 2 ^ (n - 1 - k) * 2 ^ k := by rw [← Nat.pow_succ', ← Nat.pow_add]; congr 1; omega
      rw [hpow]
      exact Nat.mul_le_mul_right _ (by omega)
    constructor
    · rintro (⟨i, hi, hb⟩ | ⟨k, hk, i, hi, hb⟩)
      · exact ⟨0, by omega, i, hi, hb⟩
      · rw [node hk hi 1 (by omega), show 2 * i = 2 * i + 0 from rfl, node hk hi 0 (by omega)] at hb
        exact ⟨k + 1, by omega, i, by rwa [show n + 1 - 1 - (k + 1) = n - 1 - k by omega], hb⟩
    · rintro ⟨k, hk, i, hi, hb⟩
      cases k with
      | zero => exact .inl ⟨i, hi, hb⟩
      | succ k =>
        rw [show n + 1 - 1 - (k + 1) = n - 1 - k by omega] at hi
        refine .inr ⟨k, by omega, i, hi, ?_⟩
        rw [node (by omega) hi 1 (by omega), show 2 * i = 2 * i + 0 from rfl, node (by omega) hi 0 (by omega)]
        exact hb

end

/-! ### The instructions (R261) -/

/-- R79, R261: a fused multiply-add of three vectors. -/
theorem vFma_lanes {s : State} {d a b : Name} (h : Ready (.vFmaF32 d a b) s) :
    let r := (((s.vec a).1.zip (s.vec b).1).zip (s.vec d).1).map
      (fun e => fFma (s.fctlNow.extractLsb' 0 3).toNat e.1.1 e.1.2 e.2)
    let fl := r.foldl (fun fl e => fl ||| e.2) 0
    (s.quiet fl → exec (.vFmaF32 d a b) s = .next (s.done ((s.orFctl fl).setGroup d
      (cellsOf (orTags (orTags (s.vec a).2 (s.vec b).2) (s.vec d).2) (r.map (·.1)))))) ∧
    (¬ s.quiet fl → ∀ g k, s.cur = .slot g k →
      exec (.vFmaF32 d a b) s = .next ((s.orFctl fl).trapped g k (.vFmaF32 d a b) cFPX (fl.setWidth 64))) := by
  intro r fl
  have hx : exec (.vFmaF32 d a b) s = issue (.vFmaF32 d a b) (vFmaOp d a b) s := rfl
  refine ⟨fun hq => ?_, fun hq g k hc => ?_⟩ <;>
    rw [hx, issue_of_ready h, vFmaOp, M.bind_ok (readVec_apply _ _), M.bind_ok (readVec_apply _ _), M.bind_ok (readVec_apply _ _),
      M.bind_ok (fctlMode_apply _)]
  · rw [M.bind_ok (raiseFl_quiet hq), M.bind_ok (writeVec_apply _ _ _ _), M.pure_apply, finish_next]
  · rw [M.bind_error (raiseFl_loud hq), finish_fpx hc]

/-- R79, R96, R261: the sum of sixteen lanes. -/
theorem vSum_lanes {s : State} {d a : Name} (h : Ready (.vSumF32 d a) s) :
    let r := fTree (s.fctlNow.extractLsb' 0 3).toNat 4 (s.vec a).1
    (s.quiet r.2 → exec (.vSumF32 d a) s = .next (s.done ((s.orFctl r.2).writeName d
      { v := r.1.setWidth 64, t := (s.vec a).2.any id }))) ∧
    (¬ s.quiet r.2 → ∀ g k, s.cur = .slot g k →
      exec (.vSumF32 d a) s = .next ((s.orFctl r.2).trapped g k (.vSumF32 d a) cFPX (r.2.setWidth 64))) := by
  intro r
  have hx : exec (.vSumF32 d a) s = issue (.vSumF32 d a) (sumFOp d a) s := rfl
  refine ⟨fun hq => ?_, fun hq g k hc => ?_⟩ <;>
    rw [hx, issue_of_ready h, sumFOp, M.bind_ok (readVec_apply _ _), M.bind_ok (fctlMode_apply _)]
  · rw [M.bind_ok (raiseFl_quiet hq), M.bind_ok (writeName_apply _ _ _), M.pure_apply, finish_next]
  · rw [M.bind_error (raiseFl_loud hq), finish_fpx hc]

/-- A value that is no NaN is above zero where its signed bits are. -/
theorem zero_lt_iff {x : BitVec 32} (h : (num32 x).isNan = false) :
    numLt (.fin false 0 0) (num32 x) = true ↔ x.getLsbD 31 = false ∧ body x ≠ 0 := by
  have hlt : numLt (.fin false 0 0) (num32 x) = decide ((FNum.fin false 0 0).cmp (num32 x) = 0) := by
    unfold numLt; rw [h]; rfl
  rw [hlt, decide_eq_true_eq]
  rcases num32_cases x with ⟨-, ex⟩ | ⟨hb, ex⟩ | ⟨-, m, e, ex, he, hm⟩
  · rw [ex] at h; cases h
  · rw [ex, hb]
    cases x.getLsbD 31 <;> simp [FNum.cmp]
  · have hz := zero_iff ex
    have hu := units_eq_iff (b := body x) (c := 0)
    rw [units_zero] at hu
    rw [ex, cmp_finite (by norm_num) he, hm, placeOf_eq_zero_iff]
    unfold signed
    cases x.getLsbD 31
    · simp only [Bool.false_eq_true, if_false, true_and]; omega
    · simp only [if_true, Bool.true_eq_false, false_and, iff_false]; simp

/-- R261: v.max0 keeps what is above zero. -/
theorem fMax0_eq (x : BitVec 32) : fMax0 x = if 0x7F800000 < x.toNat % 2 ^ 31 then (0x7FC00000, if x.getLsbD 22 then 0 else flNV)
    else (if x.getLsbD 31 then 0 else x, 0) := by
  have hbit : x.getLsbD 22 = decide (x.toNat / 2 ^ 22 % 2 = 1) := by rw [BitVec.getLsbD, Nat.testBit_eq_decide_div_mod_eq]
  have hx := x.isLt
  have hb : body x = x.toNat % 2 ^ 31 := rfl
  unfold fMax0
  by_cases hn : (num32 x).isNan = true
  · have hbody := (isNan_iff x).mp hn
    rw [if_pos hn, ← hb, if_pos hbody]
    refine Prod.ext rfl ?_
    show snan32 x = _
    unfold snan32
    rw [signals_eq, hbit]
    by_cases hs : x.toNat / 2 ^ 22 % 2 = 1
    · rw [if_neg, if_pos (by simpa using hs)]
      simp only [Bool.and_eq_true, decide_eq_true_eq]
      omega
    · rw [if_pos, if_neg (by simpa using hs)]
      simp only [Bool.and_eq_true, decide_eq_true_eq, ne_eq]
      omega
  · have hpos := zero_lt_iff (by simpa using hn)
    rw [isNan_iff] at hn
    rw [if_neg (by rwa [isNan_iff]), ← hb, if_neg hn]
    cases hs : x.getLsbD 31 with
    | true => rw [if_neg (by rw [hpos, hs]; simp)]; rfl
    | false =>
      by_cases h0 : body x = 0
      · have hx0 : x = 0 := by
          rw [← Bool.not_eq_true, ← sign_eq, decide_eq_true_eq] at hs
          exact BitVec.eq_of_toNat_eq (by simp; omega)
        rw [if_neg (by rw [hpos]; simp [h0]), hx0]
        rfl
      · rw [if_pos (hpos.mpr ⟨hs, h0⟩)]
        rfl

/-- Settles O12: lane by lane as the scalar operation, the tree of the sum, and v.max0. -/
theorem vectorFloats : Obligations.VectorFloats := by
  unfold Obligations.VectorFloats
  refine ⟨floatLanes2_of (fun _ _ _ _ => rfl), floatLanes2_of (fun _ _ _ _ => rfl), floatLanes2_of (fun _ _ _ _ => rfl),
    floatLanes2_of (fun _ _ _ _ => rfl), floatLanes2_of (fun _ _ _ _ => rfl), floatLanes2_of (fun _ _ _ _ => rfl),
    floatLanes1_of (fun _ _ _ => rfl), floatLanes1_of (fun _ _ _ => rfl), floatLanes1_of (fun _ _ _ => rfl),
    floatLanes1_of (fun _ _ _ => rfl), floatLanes1_of (fun _ _ _ => rfl), floatLanes1_of (fun _ _ _ => rfl),
    fun s d a b h => vFma_lanes h, fun s d a h => vSum_lanes h, fun m ls h => ⟨fTree_value m 4 h, fun j => fTree_flags m j 4 h⟩,
    fMax0_eq⟩

end Sys2Proof.Formats
end

