-- ==== Sys2Proof/Proofs/VfImages.lean ====
section
/-! SUPPORT. Sys2Proof/Proofs/VfImages.lean: the cells of a variable-precision value and the value of such cells (R90). -/

namespace Sys2Proof.Formats
open Sys2Proof.Machine Sys2Proof.Accesses

/-! ### The value of cells -/

/-- The significand that the low bits of a first cell and the cells after it hold. -/
def runOf (lead : Nat) (t : List Word) : Nat := t.foldl (fun a w => a * 2 ^ 64 + w.toNat) lead

theorem cell_exponent (c : Word) : (c.extractLsb' 47 16).toNat = c.toNat / 2 ^ 47 % 2 ^ 16 := by
  rw [BitVec.extractLsb'_toNat, Nat.shiftRight_eq_div_pow]

theorem cell_lead (c : Word) : (c.extractLsb' 0 40).toNat = c.toNat % 2 ^ 40 := by
  rw [BitVec.extractLsb'_toNat, Nat.shiftRight_zero]

/-- R90: the value of cells by the fields of the first. -/
theorem vfValue_cons (c : Word) (t : List Word) : vfValue (c :: t) =
    if c.toNat / 2 ^ 47 % 2 ^ 16 = 0xFFFF then (if runOf (c.toNat % 2 ^ 40) t = 0 then (.inf (c.getLsbD 63), 0) else (.nan, 0))
    else if c.toNat / 2 ^ 47 % 2 ^ 16 = 0 then
      (if runOf (c.toNat % 2 ^ 40) t = 0 then (.fin (c.getLsbD 63) 0 0, 0) else (.nan, vlNV))
    else if c.getLsbD 39 = false then (.nan, vlNV)
    else (.fin (c.getLsbD 63) (runOf (c.toNat % 2 ^ 40) t) ((c.toNat / 2 ^ 47 % 2 ^ 16 : Nat) - 32806 - 64 * t.length), 0) := by
  have he : Int.ofNat (c.toNat / 2 ^ 47 % 2 ^ 16) - 32767 - Int.ofNat (40 + 64 * t.length - 1)
      = ((c.toNat / 2 ^ 47 % 2 ^ 16 : Nat) : Int) - 32806 - 64 * t.length := by
    simp only [Int.ofNat_eq_natCast]; omega
  unfold vfValue
  simp only [cell_exponent, cell_lead, Bool.not_eq_true', ← he]
  rfl

/-! ### The cells of a value -/

/-- The first cell of an image of n more cells. -/
def headCell (neg : Bool) (ex n lead : Nat) : Word :=
  BitVec.ofNat 64 ((if neg then 2 ^ 63 else 0) + ex * 2 ^ 47 + n * 2 ^ 40 + lead)

/-- The n cells that hold the low bits of a significand. -/
def tailCells (n sig : Nat) : List Word := (List.range n).map (fun j => BitVec.ofNat 64 (sig / 2 ^ (64 * (n - 1 - j))))

section
variable (neg : Bool) {ex n lead : Nat} (he : ex < 2 ^ 16) (hn : n < 2 ^ 7) (hl : lead < 2 ^ 40)
include he hn hl

theorem headCell_toNat : (headCell neg ex n lead).toNat = neg.toNat * 2 ^ 63 + ex * 2 ^ 47 + n * 2 ^ 40 + lead := by
  unfold headCell
  rw [BitVec.toNat_ofNat, Nat.mod_eq_of_lt (by cases neg <;> simp <;> omega)]
  cases neg <;> simp

/-- The fields of a first cell read back. -/
theorem headCell_fields : (headCell neg ex n lead).getLsbD 63 = neg ∧ (headCell neg ex n lead).toNat / 2 ^ 47 % 2 ^ 16 = ex ∧
    moreOf (headCell neg ex n lead) = n ∧ (headCell neg ex n lead).toNat % 2 ^ 40 = lead ∧
    (headCell neg ex n lead).getLsbD 39 = decide (2 ^ 39 ≤ lead) := by
  have h := headCell_toNat neg he hn hl
  have hb := Bool.toNat_le neg
  have hneg : neg = decide (neg.toNat = 1) := by cases neg <;> rfl
  refine ⟨?_, by omega, ?_, by omega, ?_⟩
  · rw [BitVec.getLsbD, Nat.testBit_eq_decide_div_mod_eq, h]
    conv_rhs => rw [hneg]
    rw [decide_eq_decide]
    omega
  · unfold moreOf
    rw [BitVec.extractLsb'_toNat, Nat.shiftRight_eq_div_pow, h]
    omega
  · rw [BitVec.getLsbD, Nat.testBit_eq_decide_div_mod_eq, h, decide_eq_decide]
    omega

end

theorem tailCells_length (n sig : Nat) : (tailCells n sig).length = n := by simp [tailCells]

/-- The cells after the first append the low bits of the significand. -/
theorem runOf_tailCells (lead : Nat) : ∀ n sig, runOf lead (tailCells n sig) = lead * 2 ^ (64 * n) + sig % 2 ^ (64 * n)
  | 0, sig => by simp [runOf, tailCells, Nat.mod_one]
  | n + 1, sig => by
    have hcells : tailCells (n + 1) sig = tailCells n (sig / 2 ^ 64) ++ [BitVec.ofNat 64 sig] := by
      unfold tailCells
      rw [List.range_succ, List.map_append]
      congr 1
      · refine List.map_congr_left (fun j hj => ?_)
        have hj := List.mem_range.mp hj
        rw [Nat.div_div_eq_div_mul, ← Nat.pow_add, show 64 * (n + 1 - 1 - j) = 64 + 64 * (n - 1 - j) by omega]
      · simp
    have hfold := runOf_tailCells lead n (sig / 2 ^ 64)
    unfold runOf at hfold ⊢
    rw [hcells, List.foldl_append, hfold, List.foldl_cons, List.foldl_nil, BitVec.toNat_ofNat,
      show 64 * (n + 1) = 64 + 64 * n by omega, Nat.pow_add, Nat.mod_mul]
    ring

/-- R90: the value of a first cell and its tail. -/
theorem vfValue_cells (neg : Bool) {ex n lead : Nat} (sig : Nat) (he : ex < 2 ^ 16) (hn : n < 2 ^ 7) (hl : lead < 2 ^ 40) :
    vfValue (headCell neg ex n lead :: tailCells n sig) =
      let run := lead * 2 ^ (64 * n) + sig % 2 ^ (64 * n)
      if ex = 0xFFFF then (if run = 0 then (.inf neg, 0) else (.nan, 0))
      else if ex = 0 then (if run = 0 then (.fin neg 0 0, 0) else (.nan, vlNV))
      else if lead < 2 ^ 39 then (.nan, vlNV)
      else (.fin neg run (ex - 32806 - 64 * n), 0) := by
  obtain ⟨h1, h2, -, h4, h5⟩ := headCell_fields neg he hn hl
  rw [vfValue_cons, h1, h2, h4, h5, runOf_tailCells, tailCells_length]
  simp only [decide_eq_false_iff_not, not_le]

/-- R90: the image of each kind of value, in cells. -/
theorem vfImage_eq (k : Nat) (neg : Bool) (m : Nat) (e : Int) :
    vfImage .nan k = headCell false 0xFFFF (k - 1) (2 ^ (40 + 64 * (k - 1) - 1) / 2 ^ (64 * (k - 1)) % 2 ^ 40) :: tailCells (k - 1) 0 ∧
    vfImage (.inf neg) k = headCell neg 0xFFFF (k - 1) (0 / 2 ^ (64 * (k - 1)) % 2 ^ 40) :: tailCells (k - 1) 0 ∧
    vfImage (.fin neg 0 e) k = headCell neg 0 (k - 1) (0 / 2 ^ (64 * (k - 1)) % 2 ^ 40) :: tailCells (k - 1) 0 ∧
    (m ≠ 0 → vfImage (.fin neg m e) k = headCell neg (vfSig m e (40 + 64 * (k - 1))).2 (k - 1)
        ((vfSig m e (40 + 64 * (k - 1))).1 / 2 ^ (64 * (k - 1)) % 2 ^ 40) :: tailCells (k - 1) (vfSig m e (40 + 64 * (k - 1))).1) := by
  refine ⟨rfl, rfl, rfl, fun hm => ?_⟩
  unfold vfImage
  simp only [hm, if_false]
  rfl

theorem quiet_lead (n : Nat) : 2 ^ (40 + 64 * n - 1) / 2 ^ (64 * n) % 2 ^ 40 = 2 ^ 39 := by
  rw [show 40 + 64 * n - 1 = 39 + 64 * n by omega, Nat.pow_add, Nat.mul_div_cancel _ (Nat.two_pow_pos _)]
  decide

/-- R90: the images of the special values. -/
theorem vfImage_special {k : Nat} (h1 : 1 ≤ k) (h2 : k ≤ 128) (a : Bool) : ∀ q ∈ [FNum.nan, .inf a, .fin a 0 0],
    (vfImage q k).length = k ∧ moreOf ((vfImage q k).headD 0) = k - 1 ∧ vfValue (vfImage q k) = (q, 0) := by
  have hn : k - 1 < 2 ^ 7 := by omega
  obtain ⟨hnan, hinf, hzero, -⟩ := vfImage_eq k a 0 0
  rw [quiet_lead] at hnan
  rw [Nat.zero_div, Nat.zero_mod] at hinf hzero
  have hlen (c : Word) : (c :: tailCells (k - 1) 0).length = k := by rw [List.length_cons, tailCells_length]; omega
  intro q hq
  simp only [List.mem_cons, List.not_mem_nil, or_false] at hq
  rcases hq with rfl | rfl | rfl
  · rw [hnan]
    refine ⟨hlen _, (headCell_fields false (by norm_num) hn (by norm_num)).2.2.1, ?_⟩
    rw [vfValue_cells false 0 (by norm_num) hn (by norm_num)]
    simp
  · rw [hinf]
    refine ⟨hlen _, (headCell_fields a (by norm_num) hn (by norm_num)).2.2.1, ?_⟩
    rw [vfValue_cells a 0 (by norm_num) hn (by norm_num)]
    simp
  · rw [hzero]
    refine ⟨hlen _, (headCell_fields a (by norm_num) hn (by norm_num)).2.2.1, ?_⟩
    rw [vfValue_cells a 0 (by norm_num) hn (by norm_num)]
    simp

/-- R90: the image of a number that its bits and exponent field hold has its value. -/
theorem vfImage_number (n : Bool) {m : Nat} {e : Int} {k : Nat} (hm : m ≠ 0) (h1 : 1 ≤ k) (h2 : k ≤ 128)
    (hbits : bitLen m ≤ 40 + 64 * (k - 1)) (hlo : -32766 ≤ e + bitLen m - 1) (hhi : e + bitLen m - 1 ≤ 32767) :
    (vfImage (.fin n m e) k).length = k ∧ moreOf ((vfImage (.fin n m e) k).headD 0) = k - 1 ∧
      (vfValue (vfImage (.fin n m e) k)).2 = 0 ∧ (vfValue (vfImage (.fin n m e) k)).1.rat = (FNum.fin n m e).rat := by
  have hn : k - 1 < 2 ^ 7 := by omega
  obtain ⟨-, -, -, himage⟩ := vfImage_eq k n m e
  have hsig : vfSig m e (40 + 64 * (k - 1)) = (m * 2 ^ (40 + 64 * (k - 1) - bitLen m), (e + bitLen m - 1 + 32767).toNat) := by
    unfold vfSig
    simp only [hbits, if_true]
    rfl
  rw [himage hm, hsig]
  generalize hj : k - 1 = j at *
  generalize hd : 40 + 64 * j - bitLen m = d
  generalize hex : (e + bitLen m - 1 + 32767).toNat = ex
  simp only
  have hpos := bitLen_pos hm
  have hex16 : ex < 2 ^ 16 := by omega
  have hup : m * 2 ^ d < 2 ^ 40 * 2 ^ (64 * j) := by
    have hlt : m < 2 ^ bitLen m := (bitLen_le_iff m _).mp le_rfl
    calc m * 2 ^ d < 2 ^ bitLen m * 2 ^ d := Nat.mul_lt_mul_of_pos_right hlt (Nat.two_pow_pos _)
      _ = 2 ^ 40 * 2 ^ (64 * j) := by rw [← Nat.pow_add, ← Nat.pow_add]; congr 1; omega
  have hdown : 2 ^ 39 * 2 ^ (64 * j) ≤ m * 2 ^ d := by
    calc 2 ^ 39 * 2 ^ (64 * j) = 2 ^ (bitLen m - 1) * 2 ^ d := by rw [← Nat.pow_add, ← Nat.pow_add]; congr 1; omega
      _ ≤ m * 2 ^ d := Nat.mul_le_mul_right _ (pow_bitLen_le hm)
  have hlead : m * 2 ^ d / 2 ^ (64 * j) < 2 ^ 40 := (Nat.div_lt_iff_lt_mul (Nat.two_pow_pos _)).mpr hup
  have hlead' : 2 ^ 39 ≤ m * 2 ^ d / 2 ^ (64 * j) := (Nat.le_div_iff_mul_le (Nat.two_pow_pos _)).mpr hdown
  rw [Nat.mod_eq_of_lt hlead]
  refine ⟨by rw [List.length_cons, tailCells_length]; omega, (headCell_fields n hex16 hn hlead).2.2.1, ?_⟩
  rw [vfValue_cells n _ hex16 hn hlead]
  simp only
  rw [if_neg (by omega), if_neg (by omega), if_neg (by omega), Nat.div_add_mod']
  refine ⟨rfl, ?_⟩
  rw [rat_fin, rat_fin, mul_assoc, mul_assoc, Nat.cast_mul, Nat.cast_pow, Nat.cast_ofNat, mul_assoc (m : ℚ), ← zpow_natCast,
    ← zpow_add₀ (by norm_num)]
  congr 3
  omega

end Sys2Proof.Formats
end

