-- ==== Sys2Proof/Proofs/VfResults.lean ====
section
/-! SUPPORT. Sys2Proof/Proofs/VfResults.lean: arithmetic on infinities, NaNs and zeros, and the end of each variable-precision instruction
(O13). -/

namespace Sys2Proof.Formats
open Sys2Proof.Machine Sys2Proof.Accesses Sys2Proof.Organisation

/-! ### Special operands (R251) -/

/-- R251: a NaN operand gives a NaN. -/
theorem nan_operand (mode p : Nat) (x : FNum) : FNum.add mode .nan x = (.nan, false) ∧ x.add mode .nan = (.nan, false) ∧
    FNum.mul .nan x = (.nan, false) ∧ x.mul .nan = (.nan, false) ∧ FNum.div p .nan x = ({ x := .nan }, 0) ∧
    FNum.div p x .nan = ({ x := .nan }, 0) ∧ FNum.sqrt p .nan = ({ x := .nan }, false) ∧ FNum.neg .nan = .nan ∧ FNum.abs .nan = .nan := by
  have hl : (FNum.nan.isNan || x.isNan) = true := rfl
  have hr : (x.isNan || FNum.nan.isNan) = true := Bool.or_true _
  exact ⟨add_of_isNan hl mode, add_of_isNan hr mode, mul_of_isNan hl, mul_of_isNan hr, div_of_isNan hl p, div_of_isNan hr p, rfl, rfl, rfl⟩

/-- R251: a zero divisor. -/
theorem div_by_zero (p : Nat) (a b : Bool) (m : Nat) (e f : Int) : FNum.div p (.fin a m e) (.fin b 0 f) =
    if m = 0 then ({ x := .nan }, flNV) else ({ x := .inf (a ^^ b) }, flDZ) := rfl

theorem zero_div (p : Nat) (a b : Bool) {n : Nat} (e f : Int) (hn : n ≠ 0) :
    FNum.div p (.fin a 0 e) (.fin b n f) = ({ x := .fin (a ^^ b) 0 0 }, 0) := by
  unfold FNum.div
  simp only [hn, if_false, if_true]

theorem sqrt_negative (p : Nat) {m : Nat} (e : Int) (hm : m ≠ 0) : FNum.sqrt p (.fin true m e) = ({ x := .nan }, true) := by
  unfold FNum.sqrt
  simp only [hm, if_false, if_true]

/-- R250: vf.rnd rounds once, to p bits where the units bit lies below them and to an integer where it does not. -/
theorem vfRndInt_number (p mode : Nat) (n : Bool) {m : Nat} (e : Int) (hm : m ≠ 0) :
    vfRndInt p mode (.fin n m e) = if (p : Int) < e + bitLen m then vfRound p mode { x := .fin n m e }
      else (.fin n (quantize mode n m e false 0).1 0, if (quantize mode n m e false 0).2 then vlNX else 0) := by
  have hq : 0 < e + Int.ofNat (bitLen m) - Int.ofNat p ↔ (p : Int) < e + bitLen m := by simp only [Int.ofNat_eq_natCast]; omega
  unfold vfRndInt
  simp only [hm, if_false, hq]

/-! ### The end of an instruction (R252) -/

theorem vfIn_apply (n : Name) (s : State) : vfIn n s = .ok (s.vfVal n, s) := rfl

section
variable {s : State} {fl : Vl}

theorem raiseVl_passes (h : s.me.vctl.getLsbD 0 = false ∨ fl &&& 7 = 0) :
    raiseVl fl s = .ok ((), s.setMe { s.me with vctl := s.me.vctl ||| (fl.setWidth 64 <<< 8) }) := by
  refine if_neg (fun hc => ?_)
  rw [Bool.and_eq_true, decide_eq_true_eq] at hc
  rcases h with h | h
  · rw [h] at hc; exact absurd hc.1 (by decide)
  · exact hc.2 h

theorem raiseVl_traps (h1 : s.me.vctl.getLsbD 0 = true) (h2 : fl &&& 7 ≠ 0) : raiseVl fl s = .error (.trap cPXH (fl.setWidth 64) 0) :=
  if_pos (by rw [Bool.and_eq_true, decide_eq_true_eq]; exact ⟨h1, h2⟩)

end

@[simp] theorem setQueue_prec (x : Slot) (d : Nat) (q : List Tagged) : (x.setQueue d q).prec = x.prec := by
  unfold Slot.setQueue; split <;> rfl

@[simp] theorem setQueue_vctl (x : Slot) (d : Nat) (q : List Tagged) : (x.setQueue d q).vctl = x.vctl := by
  unfold Slot.setQueue; split <;> rfl

/-- A read leaves PREC and VCTL. -/
theorem vf_state_took (s : State) (n : Name) : (s.took n).me.prec = s.me.prec ∧ (s.took n).me.vctl = s.me.vctl := by
  obtain ⟨q, ws, h | h⟩ := me_took s n <;> rw [h]
  · exact ⟨setQueue_prec .., setQueue_vctl ..⟩
  · exact ⟨rfl, rfl⟩

section
variable {d : Name} {u : State} {r : Exact} {fl : Vl} {t : Bool} {p : Nat} {q : FNum × Vl} (hp : u.me.prec.toNat = p)
  (hq : vfRound p u.vctlMode r = q)
include hp hq

/-- R252: the result is written with its flags raised. -/
theorem vfOut_passes (h : u.me.vctl.getLsbD 0 = false ∨ (fl ||| q.2) &&& 7 = 0) : vfOut d r fl t u = .ok (.next,
    (u.setMe { u.me with vctl := u.me.vctl ||| ((fl ||| q.2).setWidth 64 <<< 8) }).setGroup d
      ((vfImage q.1 (vfCells p)).map (fun v => { v := v, t := t }))) := by
  subst hp hq
  rw [vfOut, M.bind_ok (M.get_apply _)]
  exact M.bind_ok (raiseVl_passes h)

/-- R252: in exact mode an inexact or out-of-range result traps. -/
theorem vfOut_traps (h1 : u.me.vctl.getLsbD 0 = true) (h2 : (fl ||| q.2) &&& 7 ≠ 0) :
    vfOut d r fl t u = .error (.trap cPXH ((fl ||| q.2).setWidth 64) 0) := by
  subst hp hq
  rw [vfOut, M.bind_ok (M.get_apply _)]
  exact M.bind_error (raiseVl_traps h1 h2)

end

/-- R252: what ends in vfout, once the fields are read. -/
theorem vfEnds_of_out {i : Instr} {d : Name} {s u : State} {r : Exact} {fl : Vl} {t : Bool} {body : M Ctl} (h : Ready i s)
    (hx : exec i s = issue i body s) (hb : body s = vfOut d r fl t u) (hp : u.me.prec = s.me.prec) (hv : u.me.vctl = s.me.vctl) :
    VfEnds i d s u r fl t := by
  have hm : u.vctlMode = s.vctlMode := by unfold State.vctlMode; rw [hv]
  have hp' : u.me.prec.toNat = s.me.prec.toNat := by rw [hp]
  refine ⟨fun hq => ?_, fun h1 h2 g k hc => ?_⟩
  · rw [hx, issue_of_ready h, hb, vfOut_passes hp' (by rw [hm]) (by rwa [hv]), finish_next]
  · rw [hx, issue_of_ready h, hb, vfOut_traps hp' (by rw [hm]) (by rwa [hv]) h2, finish_trap hc]

section
variable {i : Instr} {s : State} {d a b : Name} (h : Ready i s)
include h

/-- R250: an operation of two values. -/
theorem vfEnds_two {f : Nat → Nat → FNum → FNum → Exact × Vl} (hx : exec i s = issue i (vf2 d a b f) s) :
    VfEnds i d s s (f s.me.prec.toNat s.vctlMode (s.vfVal a).1 (s.vfVal b).1).1
      ((f s.me.prec.toNat s.vctlMode (s.vfVal a).1 (s.vfVal b).1).2 ||| (s.vfVal a).2.1 ||| (s.vfVal b).2.1)
      ((s.vfVal a).2.2 || (s.vfVal b).2.2) :=
  vfEnds_of_out h hx (by rw [vf2, M.bind_ok (vfIn_apply _ _), M.bind_ok (vfIn_apply _ _), M.bind_ok (M.get_apply _)]) rfl rfl

/-- R250: an operation of one value. -/
theorem vfEnds_one {f : Nat → FNum → Exact × Vl} (hx : exec i s = issue i (vf1 d a f) s) :
    VfEnds i d s s (f s.me.prec.toNat (s.vfVal a).1).1 ((f s.me.prec.toNat (s.vfVal a).1).2 ||| (s.vfVal a).2.1) (s.vfVal a).2.2 :=
  vfEnds_of_out h hx (by rw [vf1, M.bind_ok (vfIn_apply _ _), M.bind_ok (M.get_apply _)]) rfl rfl

/-- R250: an operation of one value that raises no flag of its own. -/
theorem vfEnds_plain {f : FNum → FNum} (hx : exec i s = issue i (vf1 d a (fun _ x => ({ x := f x }, 0))) s) :
    VfEnds i d s s { x := f (s.vfVal a).1 } (s.vfVal a).2.1 (s.vfVal a).2.2 := by
  have he : VfEnds i d s s { x := f (s.vfVal a).1 } (0#4 ||| (s.vfVal a).2.1) (s.vfVal a).2.2 :=
    vfEnds_one (f := fun _ x => ({ x := f x }, 0)) h hx
  rwa [BitVec.zero_or] at he

/-- R250: a conversion of a cell. -/
theorem vfEnds_from {f : Word → FNum × Vl} (hra : i.roles.ra = .src) (ha : i.roles.a = a) (hx : exec i s = issue i (vfFromOp d a f) s) :
    VfEnds i d s (s.took a) { x := (f (s.val a).v).1 } (f (s.val a).v).2 (s.val a).t := by
  have hr := readName_of_holds (holds_a h hra)
  rw [ha] at hr
  obtain ⟨hp, hv⟩ := vf_state_took s a
  exact vfEnds_of_out h hx (by rw [vfFromOp, M.bind_ok hr]) hp hv

/-- R250, R251: a conversion to a cell. -/
theorem vfTo_ends {g k : Nat} (hc : s.cur = .slot g k) {f : Nat → FNum → Word × Fl} (hx : exec i s = issue i (vfToOp d a f) s) :
    let r := f s.vctlMode (s.vfVal a).1
    let fl := (s.vfVal a).2.1 ||| vlOf r.2
    ((s.me.vctl.getLsbD 0 = false ∨ fl &&& 7 = 0) → exec i s = .next (s.done
      ((s.setMe { s.me with vctl := s.me.vctl ||| (fl.setWidth 64 <<< 8) }).writeName d { v := r.1, t := (s.vfVal a).2.2 }))) ∧
    (s.me.vctl.getLsbD 0 = true → fl &&& 7 ≠ 0 → exec i s = .next (s.trapped g k i cPXH (fl.setWidth 64))) := by
  intro r fl
  refine ⟨fun hq => ?_, fun h1 h2 => ?_⟩ <;>
    rw [hx, issue_of_ready h, vfToOp, M.bind_ok (vfIn_apply _ _), M.bind_ok (M.get_apply _)]
  · rw [M.bind_ok (raiseVl_passes hq), M.bind_ok (writeName_apply _ _ _), M.pure_apply, finish_next]
  · rw [M.bind_error (raiseVl_traps h1 h2), finish_trap hc]

/-- R250: vf.rnd. -/
theorem vfRnd_ends {g k : Nat} (hc : s.cur = .slot g k) (hx : exec i s = issue i (vfRndOp d a) s) :
    let q := vfRndInt s.me.prec.toNat s.vctlMode (s.vfVal a).1
    let fl := (s.vfVal a).2.1 ||| q.2
    ((s.me.vctl.getLsbD 0 = false ∨ fl &&& 7 = 0) → exec i s = .next (s.done
      ((s.setMe { s.me with vctl := s.me.vctl ||| (fl.setWidth 64 <<< 8) }).setGroup d
        ((vfImage q.1 (vfCells s.me.prec.toNat)).map (fun v => { v := v, t := (s.vfVal a).2.2 }))))) ∧
    (s.me.vctl.getLsbD 0 = true → fl &&& 7 ≠ 0 → exec i s = .next (s.trapped g k i cPXH (fl.setWidth 64))) := by
  intro q fl
  refine ⟨fun hq => ?_, fun h1 h2 => ?_⟩ <;>
    rw [hx, issue_of_ready h, vfRndOp, M.bind_ok (vfIn_apply _ _), M.bind_ok (M.get_apply _)]
  · rw [M.bind_ok (raiseVl_passes hq), M.bind_ok (M.modify_apply _ _), M.pure_apply, finish_next]
  · rw [M.bind_error (raiseVl_traps h1 h2), finish_trap hc]

/-- R250, R251: a fused multiply-add. -/
theorem vfFma_ends (hx : exec i s = issue i (vfFmaOp d a b) s) :
    VfEnds i d s s { x := (FNum.fma s.vctlMode (s.vfVal a).1 (s.vfVal b).1 (s.vfVal d).1).1 }
      (vlNvIf (FNum.fma s.vctlMode (s.vfVal a).1 (s.vfVal b).1 (s.vfVal d).1).2 ||| (s.vfVal a).2.1 ||| (s.vfVal b).2.1 |||
        (s.vfVal d).2.1) ((s.vfVal a).2.2 || (s.vfVal b).2.2 || (s.vfVal d).2.2) :=
  vfEnds_of_out h hx (by
    rw [vfFmaOp, M.bind_ok (vfIn_apply _ _), M.bind_ok (vfIn_apply _ _), M.bind_ok (vfIn_apply _ _), M.bind_ok (M.get_apply _)]) rfl rfl

end

/-- R250: vf.from.f is invalid for a signalling NaN. -/
theorem vlNvIf_snan32 (x : BitVec 32) : vlNvIf (snan32 x ≠ 0) = if fmt32.signals x.toNat then vlNV else 0 := by
  unfold snan32
  cases fmt32.signals x.toNat <;> rfl

/-- Settles O13: special operands, the value of cells, images, vf.rnd's one rounding, and the end of each instruction. -/
theorem vfResults : Obligations.VfResults := by
  unfold Obligations.VfResults
  refine ⟨fun mode p a b st m n k e f x y z => ?_, fun c t => ?_,
    fun n m e k hm h1 h2 hbits hlo hhi => vfImage_number n hm h1 h2 hbits hlo hhi, fun p mode n m e hm => vfRndInt_number p mode n e hm,
    fun s g k hc d a b => ?_⟩
  · refine ⟨nan_operand mode p x, rfl, rfl, rfl, rfl, rfl, rfl, rfl, rfl, rfl, rfl, ?_, fun hn hm => ?_, rfl, fun hm => ?_, fun hm ha => ?_,
      rfl, rfl, rfl, rfl, rfl, rfl, rfl, rfl, rfl, rfl, fun h1 h2 => vfImage_special h1 h2 a⟩
    · rintro rfl; exact div_by_zero p a b m e f
    · subst hm; exact zero_div p a b e f hn
    · subst hm; rfl
    · subst ha; exact sqrt_negative p e hm
  · intro neg ex sig r
    have hr : r = _ := vfValue_cons c t
    have hsig : runOf (c.toNat % 2 ^ 40) t = sig := rfl
    rw [hsig] at hr
    refine ⟨fun h => ?_, fun h => ?_, fun h1 h2 h39 => ?_, fun h1 h2 h39 => ?_⟩
    · rw [hr, if_pos h, apply_ite (Prod.mk · (0 : Vl))]
    · rw [hr, if_neg (by omega), if_pos h]
    · rw [hr, if_neg h2, if_neg h1, if_pos h39]
    · rw [hr, if_neg h2, if_neg h1, if_neg (by rw [h39]; decide)]
      exact ⟨rfl, ⟨_, _, _, rfl⟩, rfl⟩
  · refine ⟨fun h => vfEnds_two (f := fun _ m x y => vfSum m x y) h rfl, fun h => vfEnds_two (f := fun _ m x y => vfSum m x y.neg) h rfl,
      fun h => vfEnds_two (f := fun _ _ x y => ({ x := (x.mul y).1 }, vlNvIf (x.mul y).2)) h rfl,
      fun h => vfEnds_two (f := fun p _ x y => ((FNum.div p x y).1, vlNvIf ((FNum.div p x y).2 &&& flNV ≠ 0))) h rfl,
      fun h => vfEnds_one (f := fun p x => ((FNum.sqrt p x).1, vlNvIf (FNum.sqrt p x).2)) h rfl, fun h => vfFma_ends h rfl,
      fun h => vfEnds_plain (f := FNum.neg) h rfl, fun h => vfEnds_plain (f := FNum.abs) h rfl, fun h => vfEnds_plain (f := id) h rfl,
      fun h => ?_, fun h => vfEnds_from (f := fun v => (numOfInt v.toInt, 0)) h rfl rfl rfl, fun h => vfRnd_ends h hc rfl, fun e he h => ?_⟩
    · have hend := vfEnds_from (d := d) (a := a) (f := fun v => (num32 (v.extractLsb' 0 32), vlNvIf (snan32 (v.extractLsb' 0 32) ≠ 0))) h
        rfl rfl rfl
      rwa [vlNvIf_snan32] at hend
    · simp only [List.mem_cons, List.not_mem_nil, or_false] at he
      rcases he with rfl | rfl
      · exact vfTo_ends (f := fun m x => ((rnd32 m { x := x }).1.setWidth 64, (rnd32 m { x := x }).2)) h hc rfl
      · exact vfTo_ends (f := fun m x => (BitVec.ofInt 64 (numToInt m 64 { x := x }).1, (numToInt m 64 { x := x }).2)) h hc rfl

end Sys2Proof.Formats
end


-- ==== Sys2Proof/Proofs/MatrixEngine.lean ====
section
/-! SUPPORT. Sys2Proof/Proofs/MatrixEngine.lean: an acc.rd that has begun by what it has found, of which a lane is written while a
publish waits (refutes O46). -/

namespace Sys2Proof.Formats
open Sys2Proof.Machine

/-- An acc.rd of core 0, of one row of 16 entries to 0x1000, that lists a word among those found and has neither read ahead nor
written a lane. The engines note found words for an isect only, so no run is known to come to it; O46 speaks of every state. -/
def foundRead : Op :=
  { id := 0, g := 0, k := 1, live := true, cls := some .tiles, seq := 0, major := 0, fn := 0, ptroot := 0, level := .user,
    kind := .eng .accRd 0x100000000 0x1000 0 0 none, found := [(0x200, 0)] }

/-- The engine is to write lane 0 of `foundRead`, while slot 0 of core 0 waits at a publish. -/
def waitedLane : State :=
  { cores := [(0, { slots := [(0, { bound := true, blocked := some .begun })] })], ops := [foundRead],
    ev := { id := 0, opt := some 0 } }

/-- What the statement takes for an acc.rd that stands still. -/
theorem waitedLane_stands :
    InFlight waitedLane foundRead ∧ waitedLane.oldestOf foundRead OpKind.isMatrix = true ∧
      (waitedLane.core foundRead.g).acc.Pairwise (fun x y => x.1 < y.1) ∧ waitedLane.ev.opt = some 0 ∧
      foundRead.early = [] ∧ foundRead.parts = [] ∧ waitedLane.publishWaits foundRead.g = true := by
  unfold InFlight
  decide +kernel

/-- The model lets it write: the lane stands among its parts afterwards. -/
theorem waitedLane_writes :
    ∃ u, exec .accRdComplete waitedLane = .next u ∧ u.ops.map Op.parts = [[0]] :=
  ⟨_, rfl, by decide +kernel⟩

/-- Refutes O46: its clause on an acc.rd that has not begun reads that off the words read ahead and the lanes written, and the
engine off the words found as well; in `waitedLane` it writes lane 0. -/
theorem not_matrixEngine : ¬ Obligations.MatrixEngine := by
  unfold Obligations.MatrixEngine
  intro h
  obtain ⟨-, hevents, -⟩ := h
  obtain ⟨hflight, holdest, hrising, hopt, hearly, hparts, hwaits⟩ := waitedLane_stands
  obtain ⟨-, -, -, hread⟩ := hevents waitedLane foundRead 0x1000 0 0 none hflight holdest hrising
  obtain ⟨-, -, hlane⟩ := hread 0x100000000 rfl
  have hstill := (hlane 0 hopt).2 (.inr (.inr ⟨hearly, hparts, hwaits⟩))
  obtain ⟨u, hexec, hwritten⟩ := waitedLane_writes
  obtain rfl : waitedLane = u := Host.Outcome.next.inj (hstill.symm.trans hexec)
  exact absurd hwritten (by decide)

end Sys2Proof.Formats
end

