-- ==== Sys2Proof/Proofs/RelationalReads.lean ====
section
/-! SUPPORT. Sys2Proof/Proofs/RelationalReads.lean: how the computations of the relational unit run in sequence, what of the unit's state they
leave as it is, and what its reads, checks and writes answer. -/

namespace Sys2Proof.Relations
open Sys2Proof.Machine

/-! ### Computations in sequence -/

section
variable {α β : Type} {m : RM α} {f : α → RM β} {r r' : RelSt} {x : α} {y : β} {e : EngErr}

theorem bind_of_ok (h : m r = (.ok x, r')) : (m >>= f) r = f x r' := by
  show (ExceptT.bind m f).run r = _
  unfold ExceptT.bind ExceptT.mk ExceptT.run
  show (match m r with | (a, r) => ExceptT.bindCont f a r) = _
  rw [h]; rfl

theorem bind_of_error (h : m r = (.error e, r')) : (m >>= f) r = (.error e, r') := by
  show (ExceptT.bind m f).run r = _
  unfold ExceptT.bind ExceptT.mk ExceptT.run
  show (match m r with | (a, r) => ExceptT.bindCont f a r) = _
  rw [h]; rfl

/-- A sequence answers when both of its parts do. -/
theorem bind_eq_ok (h : (m >>= f) r = (.ok y, r')) : ∃ x r1, m r = (.ok x, r1) ∧ f x r1 = (.ok y, r') := by
  cases hm : m r with
  | mk a r1 =>
    cases a with
    | ok x => exact ⟨x, r1, rfl, by rw [bind_of_ok hm] at h; exact h⟩
    | error e => rw [bind_of_error hm] at h; cases h

/-- What a computation that changes nothing answers goes to the next. -/
theorem bind_of_reads (h : Reads m r x) : (m >>= f) r = f x r := bind_of_ok h

theorem reads_pure (x : α) (r : RelSt) : Reads (pure x) r x := rfl

theorem reads_bind (h : Reads m r x) (h' : Reads (f x) r y) : Reads (m >>= f) r y := (bind_of_ok h).trans h'

/-- What follows computations that agree agrees. -/
theorem bind_left_congr {m' : RM α} (h : m r = m' r) : (m >>= f) r = (m' >>= f) r := by
  cases hm : m r with
  | mk a r1 =>
    cases a with
    | ok x => rw [bind_of_ok hm, bind_of_ok (h ▸ hm)]
    | error e => rw [bind_of_error hm, bind_of_error (h ▸ hm)]

/-- Computations that begin alike and agree afterwards agree. -/
theorem bind_apply_congr {g : α → RM β} (h : ∀ x r', m r = (.ok x, r') → f x r' = g x r') : (m >>= f) r = (m >>= g) r := by
  cases hm : m r with
  | mk a r1 =>
    cases a with
    | ok x => rw [bind_of_ok hm, bind_of_ok hm, h x r1 hm]
    | error e => rw [bind_of_error hm, bind_of_error hm]

end

@[simp] theorem relGet_apply (r : RelSt) : (get : RM RelSt) r = (.ok r, r) := rfl

@[simp] theorem relSet_apply (r r' : RelSt) : (set r' : RM PUnit) r = (.ok ⟨⟩, r') := rfl

@[simp] theorem relModify_apply (f : RelSt → RelSt) (r : RelSt) : (modify f : RM PUnit) r = (.ok ⟨⟩, f r) := rfl

/-! ### Checks -/

theorem need_of {b : Bool} (h : b = true) (n : Nat) : need b n = pure () := if_pos h

theorem need_of_not {b : Bool} (h : b = false) (n : Nat) (r : RelSt) : need b n r = (.error (cRUF, n), r) := by
  rw [need, if_neg (by simp [h])]; rfl

theorem of_need {b : Bool} {n : Nat} {r r' : RelSt} {x : Unit} (h : need b n r = (.ok x, r')) : b = true := by
  cases b with
  | true => rfl
  | false => rw [need_of_not rfl] at h; cases h

theorem needRoom_of {b : Bool} (h : b = true) (n : Nat) : needRoom b n = pure () := if_pos h

theorem needRoom_of_not {b : Bool} (h : b = false) (n : Nat) (r : RelSt) :
    needRoom b n r = (.error (cRUF, n), { r with slots := (0, 0, 0) }) := by
  rw [needRoom, if_neg (by simp [h])]; rfl

theorem aligned_of {va : Word} {n : Nat} (h : va.toNat % n = 0) : aligned va n = pure () := need_of (by simpa using h) 9

theorem aligned_of_not {va : Word} {n : Nat} (h : va.toNat % n ≠ 0) (r : RelSt) : aligned va n r = (.error (cRUF, 9), r) :=
  need_of_not (by simpa using h) 9 r

/-! ### What a computation leaves as it is -/

/-- A part of the unit's state that a computation leaves as it is, whether it answers or fails. -/
def Keeps {α γ : Type} (p : RelSt → γ) (m : RM α) : Prop := ∀ r, p (m r).2 = p r

section
variable {α β γ : Type} {p : RelSt → γ} {m : RM α} {f : α → RM β}

theorem Keeps.after (h : Keeps p m) {r r' : RelSt} {x : Except EngErr α} (hm : m r = (x, r')) : p r' = p r := by
  have hr := h r
  rwa [hm] at hr

theorem keeps_pure (p : RelSt → γ) (x : α) : Keeps p (pure x : RM α) := fun _ => rfl

theorem keeps_throw (p : RelSt → γ) (e : EngErr) : Keeps p (throw e : RM α) := fun _ => rfl

theorem keeps_get (p : RelSt → γ) : Keeps p (get : RM RelSt) := fun _ => rfl

theorem Keeps.bind (h : Keeps p m) (hf : ∀ x, Keeps p (f x)) : Keeps p (m >>= f) := fun r => by
  cases hm : m r with
  | mk a r1 =>
    cases a with
    | ok x => rw [bind_of_ok hm, hf x r1, h.after hm]
    | error e => rw [bind_of_error hm, h.after hm]

/-- The continuation of a read of the unit's state need only keep that state. -/
theorem keeps_getBind {g : RelSt → RM β} (h : ∀ r, p (g r r).2 = p r) : Keeps p (get >>= g) := fun r => by
  rw [bind_of_ok (relGet_apply r)]; exact h r

theorem keeps_modify {g : RelSt → RelSt} (h : ∀ r, p (g r) = p r) : Keeps p (modify g : RM PUnit) := h

theorem Keeps.of_id (h : Keeps id m) : Keeps p m := fun r => congrArg p (h r)

theorem keeps_ite {c : Prop} [Decidable c] {n : RM α} (h : Keeps p m) (h' : Keeps p n) : Keeps p (if c then m else n) := by
  split
  · exact h
  · exact h'

theorem keeps_mapM {g : α → RM β} (h : ∀ x, Keeps p (g x)) : ∀ l : List α, Keeps p (l.mapM g)
  | [] => by rw [List.mapM_nil]; exact keeps_pure p _
  | x :: l => by
    rw [List.mapM_cons]
    exact (h x).bind fun _ => (keeps_mapM h l).bind fun _ => keeps_pure p _

theorem keeps_forM {g : α → RM Unit} (h : ∀ x, Keeps p (g x)) : ∀ l : List α, Keeps p (l.forM g)
  | [] => keeps_pure p _
  | x :: l => (h x).bind fun _ => keeps_forM h l

theorem keeps_need (b : Bool) (n : Nat) : Keeps p (need b n) := keeps_ite (keeps_pure p _) (keeps_throw p _)

theorem keeps_aligned (va : Word) (n : Nat) : Keeps p (aligned va n) := keeps_need _ _

end

/-- A sequence that answers and changes nothing, whose first part changes nothing, is two such parts. -/
theorem reads_of_bind {α β : Type} {m : RM α} {f : α → RM β} {r : RelSt} {y : β} (hm : Keeps id m) (h : Reads (m >>= f) r y) :
    ∃ x, Reads m r x ∧ Reads (f x) r y := by
  obtain ⟨x, r1, h1, h2⟩ := bind_eq_ok h
  obtain rfl : r1 = r := hm.after h1
  exact ⟨x, h1, h2⟩

/-- A read of memory changes nothing. -/
theorem rdN_keeps {γ : Type} (p : RelSt → γ) (va : Word) (n : Nat) : Keeps p (rdN va n) :=
  Keeps.of_id (keeps_getBind fun r => by
    cases r.st.engReach r.c va n .copyRead .relUnit with
    | error e => rfl
    | ok t =>
      cases hb : r.st.badWord t.pa n with
      | some a => simp only [hb]; rfl
      | none => simp only [hb]; split <;> rfl)

theorem rd8_keeps {γ : Type} (p : RelSt → γ) (va : Word) (off : Nat) : Keeps p (rd8 va off) :=
  (rdN_keeps p _ _).bind fun _ => (keeps_get p).bind fun _ => keeps_pure p _

theorem rdWords_keeps {γ : Type} (p : RelSt → γ) (va : Word) (n : Nat) : Keeps p (rdWords va n) :=
  keeps_mapM (fun _ => rd8_keeps p _ _) _

theorem mayWrite_keeps {γ : Type} (p : RelSt → γ) (va : Word) (n : Nat) : Keeps p (mayWrite va n) :=
  Keeps.of_id (keeps_getBind fun r => keeps_forM (p := id) (fun j => by
    cases r.st.engReach r.c (va + BitVec.ofNat 64 (8 * j)) 8 .copyWrite .relUnit with
    | error e => exact keeps_throw id e
    | ok t => exact keeps_pure id ()) _ r)

/-- A write changes nothing but the machine. -/
theorem wrN_keeps {γ : Type} {p : RelSt → γ} (hp : ∀ r b w h, p { r with st := r.st.write b w h } = p r) (va : Word) (n v : Nat) :
    Keeps p (wrN va n v) :=
  keeps_getBind fun r => by
    cases r.st.engReach r.c va n .copyWrite .relUnit with
    | error e => rfl
    | ok t => exact hp r none _ _

/-- What the unit looks at to name its slots changes nothing and never fails. -/
theorem peekN_reads (va : Word) (n : Nat) (r : RelSt) : ∃ v, Reads (peekN va n) r v := by
  unfold Reads peekN
  rw [bind_of_ok (relGet_apply r)]
  cases r.st.engReach r.c va n .copyRead .relUnit with
  | error e => exact ⟨0, rfl⟩
  | ok t => exact ⟨_, rfl⟩

/-- The naming of the slots of an output changes nothing but the unit's note of them, and never fails. -/
theorem counts_spec (va : Word) (cap first size : Nat) (r : RelSt) : ∃ c t, counts va cap first size r =
    (.ok (), { r with cnt := c, slots := t }) := by
  obtain ⟨v, hv⟩ := peekN_reads (va + BitVec.ofNat 64 cap) 4 r
  exact ⟨_, _, bind_of_reads hv⟩

theorem counts_apply (va : Word) (cap first size : Nat) (r : RelSt) :
    counts va cap first size r = (.ok (), (counts va cap first size r).2) := by
  obtain ⟨c, t, h⟩ := counts_spec va cap first size r
  rw [h]

/-- What follows the naming of the slots runs on the state that has them. -/
theorem counts_then {α : Type} (va : Word) (cap first size : Nat) (m : RM α) (r : RelSt) :
    (counts va cap first size >>= fun _ => m) r = m (counts va cap first size r).2 := bind_of_ok (counts_apply ..)

theorem rowsAt_then {α : Type} (va : Word) (size n : Nat) (m : RM α) (r : RelSt) :
    (rowsAt va size n >>= fun _ => m) r = m (rowsAt va size n r).2 := bind_of_ok rfl

/-! ### Lists -/

section
variable {α β : Type} {r : RelSt}

/-- A list of reads answers the list of what each reads. -/
theorem reads_mapM {f : α → RM β} {g : α → β} : ∀ {l : List α}, (∀ x ∈ l, Reads (f x) r (g x)) → Reads (l.mapM f) r (l.map g)
  | [], _ => by rw [List.mapM_nil]; exact reads_pure _ _
  | x :: l, h => by
    rw [List.mapM_cons]
    exact reads_bind (h x (List.mem_cons_self ..)) (reads_bind (reads_mapM fun y hy => h y (List.mem_cons_of_mem _ hy)) (reads_pure _ _))

/-- A list of reads answers what each reads, in order. -/
theorem reads_mapM_getElem {f : α → RM β} : ∀ {l : List α} {g : Nat → β}, (∀ i (h : i < l.length), Reads (f l[i]) r (g i)) →
    Reads (l.mapM f) r ((List.range l.length).map g)
  | [], _, _ => by rw [List.mapM_nil]; exact reads_pure _ _
  | x :: l, g, h => by
    have hrest := reads_mapM_getElem (l := l) (g := fun i => g (i + 1)) fun i hi => h (i + 1) (Nat.succ_lt_succ hi)
    rw [List.mapM_cons, List.length_cons, List.range_succ_eq_map, List.map_cons, List.map_map]
    exact reads_bind (h 0 (Nat.succ_pos _)) (reads_bind hrest (reads_pure _ _))

theorem map_getD_range (l : List α) (d : α) : (List.range l.length).map (fun i => l.getD i d) = l := by
  apply List.ext_getElem
  · simp
  · intro i h1 h2
    simp [List.getD_eq_getElem?_getD, h2]

theorem zip_range (l : List α) (d : α) : (List.range l.length).zip l = (List.range l.length).map (fun i => (i, l.getD i d)) := by
  apply List.ext_getElem
  · simp
  · intro i h1 h2
    simp at h2
    simp [List.getD_eq_getElem?_getD, h2]

/-- The list that reads of its places give. -/
theorem reads_mapM_range {f : Nat → RM β} {l : List β} (d : β) (h : ∀ i < l.length, Reads (f i) r (l.getD i d)) :
    Reads ((List.range l.length).mapM f) r l := by
  have hm := reads_mapM (f := f) (g := fun i => l.getD i d) (l := List.range l.length) (r := r) fun i hi => h i (List.mem_range.mp hi)
  rwa [map_getD_range] at hm

theorem reads_mapM_places {f : Nat → RM β} {l : List β} (h : ∀ i (h : i < l.length), Reads (f i) r l[i]) :
    Reads ((List.range l.length).mapM f) r l := by
  cases hl : l with
  | nil => exact reads_pure _ _
  | cons d t =>
    rw [← hl]
    refine reads_mapM_range d fun i hi => ?_
    rw [List.getD_eq_getElem _ _ hi]
    exact h i hi

/-- A list of reads that answers gives as many values. -/
theorem mapM_length {f : α → RM β} : ∀ {l : List α} {r r' : RelSt} {ys : List β}, l.mapM f r = (.ok ys, r') → ys.length = l.length
  | [], r, r', ys, h => by rw [List.mapM_nil] at h; cases h; rfl
  | x :: l, r, r', ys, h => by
    rw [List.mapM_cons] at h
    obtain ⟨y, r1, -, h⟩ := bind_eq_ok h
    obtain ⟨zs, r2, hl, h⟩ := bind_eq_ok h
    cases h
    rw [List.length_cons, List.length_cons, mapM_length hl]

theorem rdWords_length {va : Word} {n : Nat} {ws : List Word} (h : Reads (rdWords va n) r ws) : ws.length = n := by
  rw [mapM_length h, List.length_range]

theorem forM_zip_range (l : List α) (d : α) (f : Nat × α → RM Unit) :
    ((List.range l.length).zip l).forM f = (List.range l.length).forM (fun i => f (i, l.getD i d)) := by
  rw [zip_range l d, List.forM_eq_forM, List.forM_map, List.forM_eq_forM]

end

end Sys2Proof.Relations
end

