-- ==== Sys2Proof/Proofs/RelationalLookups.lean ====
section
/-! SUPPORT. Sys2Proof/Proofs/RelationalLookups.lean: what lookups, rows, groups and shards answer (R101, R102, R107, R111, R126, R127, R301). -/

namespace Sys2Proof.Relations
open Sys2Proof.Machine

/-! ### Lookups (R107, R301) -/

section
variable {t : Table} {r : RelSt} {ks : Nat → Word} {em : Nat → Bool}
  (hhead : ∀ i < t.entries, Reads (t.head i) r (ks i, em i))
include hhead

/-- A lookup that has passed the entries before one whose keys rise looks at that one. -/
theorem find_step {i n : Nat} {last : Option Word} (hi : i < t.entries) (hlast : ∀ p, last = some p → p.toNat < (ks i).toNat) (k : Word) :
    t.find k (n + 1) i last r =
      (if ks i = k then pure (some i) else if k.toNat < (ks i).toNat then pure none else t.find k n (i + 1) (some (ks i)) : RM (Option Nat)) r := by
  have hrises : last.all (fun p => decide (p.toNat < (ks i).toNat)) = true := by
    cases last with
    | none => rfl
    | some p => simpa using hlast p rfl
  rw [Table.find, bind_of_reads (hhead i hi), need_of hrises]
  rfl

theorem elem_of_empty (sq : Bool) {i : Nat} (hi : i < t.entries) (he : em i = true) : Reads (t.elem sq i) r (Elem.zero t.h) := by
  have hread := hhead i hi
  rw [he] at hread
  rw [Reads, Table.elem, bind_of_reads hread]
  rfl

theorem elem_of_full (sq : Bool) {i : Nat} (hi : i < t.entries) (he : em i = false) {c q : Word} {ss : List Word}
    (hc : Reads (rd8 (t.entry i) 8) r c) (hq : Reads (rd8 (t.entry i) 16) r q) (hs : Reads (rdWords (t.entry i + 32) (t.h / 2)) r ss) :
    Reads (t.elem sq i) r { c := c, s := (unpack32 ss).map dOf32, q := if sq then dOf32 (q.extractLsb' 0 32) else 0 } := by
  have hread := hhead i hi
  rw [he] at hread
  exact reads_bind hread (reads_bind hc (reads_bind hq (reads_bind hs (reads_pure _ _))))

variable (hrise : ∀ i j, i < j → j < t.entries → (ks i).toNat < (ks j).toNat)
include hrise

theorem find_present {j : Nat} (hj : j < t.entries) : ∀ {n i : Nat} {last : Option Word}, i ≤ j → j < i + n →
    (∀ p, last = some p → p.toNat < (ks i).toNat) → Reads (t.find (ks j) n i last) r (some j)
  | 0, _, _, h1, h2, _ => absurd h2 (by omega)
  | n + 1, i, last, h1, h2, hlast => by
    unfold Reads
    rw [find_step hhead (by omega) hlast]
    rcases Nat.eq_or_lt_of_le h1 with rfl | hlt
    · rw [if_pos rfl]; rfl
    · have hbelow := hrise i j hlt hj
      rw [if_neg (fun h => by rw [h] at hbelow; omega), if_neg (by omega)]
      exact find_present hj hlt (by omega) fun p hp => by cases hp; exact hrise i (i + 1) (by omega) (by omega)

theorem find_absent {k : Word} (hk : ∀ i < t.entries, ks i ≠ k) : ∀ {n i : Nat} {last : Option Word}, i + n = t.entries →
    (∀ p, last = some p → i < t.entries → p.toNat < (ks i).toNat) → Reads (t.find k n i last) r none
  | 0, _, _, _, _ => reads_pure _ _
  | n + 1, i, last, h1, hlast => by
    have hi : i < t.entries := by omega
    unfold Reads
    rw [find_step hhead hi (fun p hp => hlast p hp hi), if_neg (hk i hi)]
    split
    · rfl
    · exact find_absent hk (by omega) fun p hp h => by cases hp; exact hrise i (i + 1) (by omega) h

theorem find_of_key {i : Nat} (hi : i < t.entries) {k : Word} (hk : ks i = k) : Reads (t.find k t.entries 0 none) r (some i) :=
  hk ▸ find_present hhead hrise hi (Nat.zero_le i) (by omega) nofun

theorem lookup_present (sq : Bool) {i : Nat} (hi : i < t.entries) {k : Word} (hk : ks i = k) : t.lookup sq k r = t.elem sq i r :=
  bind_of_reads (find_of_key hhead hrise hi hk)

theorem lookup_absent (sq : Bool) {k : Word} (hk : ∀ i < t.entries, ks i ≠ k) : Reads (t.lookup sq k) r (Elem.zero t.h) :=
  reads_bind (find_absent hhead hrise hk (Nat.zero_add _) nofun) (reads_pure _ _)

variable {dst table key : Word} (hdst : dst.toNat % 32 = 0) (htable : Reads (readTable table none none none) r t)
include hdst htable

omit hhead hrise in
/-- R301: jlk of a key that the table has. -/
theorem jlkBody_of_some {i : Nat} (hfind : Reads (t.find key t.entries 0 none) r (some i)) : jlkBody dst table key r = (do
    let e ← t.head i
    if e.2 then wrWords dst ([key, 0, 0x100000000, 0] ++ List.replicate (t.h / 2) 0)
    else do
      let ws ← rdWords (t.entry i) (t.esize / 8)
      wrWords dst ws) r := by
  rw [jlkBody, need_of (by simpa using hdst), pure_bind, bind_of_reads htable]
  exact bind_of_reads hfind

omit hhead hrise in
/-- R301: jlk of a key that the table does not have. -/
theorem jlkBody_of_none (hfind : Reads (t.find key t.entries 0 none) r none) : jlkBody dst table key r =
    wrWords dst ([key, 0, 0x100000000, 0] ++ List.replicate (t.h / 2) 0) r := by
  rw [jlkBody, need_of (by simpa using hdst), pure_bind, bind_of_reads htable]
  exact bind_of_reads hfind

theorem jlkBody_full {i : Nat} (hi : i < t.entries) (hk : ks i = key) (he : em i = false) {ws : List Word}
    (hws : Reads (rdWords (t.entry i) (t.esize / 8)) r ws) : jlkBody dst table key r = wrWords dst ws r := by
  have hread := hhead i hi
  rw [he] at hread
  rw [jlkBody_of_some hdst htable (find_of_key hhead hrise hi hk), bind_of_reads hread, if_neg Bool.false_ne_true, bind_of_reads hws]

theorem jlkBody_empty (hempty : ∀ i < t.entries, ks i = key → em i = true) : jlkBody dst table key r =
    wrWords dst ([key, 0, 0x100000000, 0] ++ List.replicate (t.h / 2) 0) r := by
  by_cases hkey : ∃ i, i < t.entries ∧ ks i = key
  · obtain ⟨i, hi, hk⟩ := hkey
    have hread := hhead i hi
    rw [hempty i hi hk] at hread
    rw [jlkBody_of_some hdst htable (find_of_key hhead hrise hi hk), bind_of_reads hread, if_pos rfl]
  · have hnone : ∀ i < t.entries, ks i ≠ key := fun i hi h => hkey ⟨i, hi, h⟩
    exact jlkBody_of_none hdst htable (find_absent hhead hrise hnone (Nat.zero_add _) nofun)

end

/-! ### Rows (R101, R102, R111) -/

section
variable {x : Relation} {i : Nat} {r : RelSt} {k p : Word}

theorem visit_apply (hk : Reads (x.key i x.skc) r k) (hp : 0 < i → Reads (x.key (i - 1) x.skc) r p) : x.visit i r =
    (if 0 < i then need (decide (p.toNat ≤ k.toNat) && !(x.uniq && decide (p = k))) 6 else pure () : RM Unit) r := by
  rw [Relation.visit, bind_of_reads hk]
  split
  · rename_i h; exact bind_of_reads (hp h)
  · rfl

theorem visit_in_order (hk : Reads (x.key i x.skc) r k) (hp : 0 < i → Reads (x.key (i - 1) x.skc) r p)
    (h : 0 < i → p.toNat ≤ k.toNat ∧ (x.uniq = true → p ≠ k)) : Reads (x.visit i) r () := by
  unfold Reads
  rw [visit_apply hk hp]
  split
  · rename_i h0
    obtain ⟨hle, hne⟩ := h h0
    have hok : (decide (p.toNat ≤ k.toNat) && !(x.uniq && decide (p = k))) = true := by
      cases hu : x.uniq with
      | false => simpa using hle
      | true => simpa using ⟨hle, hne hu⟩
    rw [need_of hok]; rfl
  · rfl

theorem visit_out_of_order (hk : Reads (x.key i x.skc) r k) (hp : 0 < i → Reads (x.key (i - 1) x.skc) r p) (h0 : 0 < i)
    (h : k.toNat < p.toNat ∨ (x.uniq = true ∧ p = k)) : x.visit i r = (.error (cRUF, 6), r) := by
  rw [visit_apply hk hp, if_pos h0]
  refine need_of_not ?_ 6 r
  rcases h with hlt | ⟨hu, he⟩
  · rw [decide_eq_false (by omega)]; rfl
  · rw [hu, decide_eq_true he]; simp

end

/-- R107, R111: the lookups of a row multiply in the order of the children. -/
theorem mulLookups_reads {sq : Bool} {x : Relation} {i : Nat} {r : RelSt} : ∀ {kids : List (Nat × Table)} {e : Elem} {k : Nat → Word}
    {l : Nat → Elem},
    (∀ j (h : j < kids.length), Reads (x.key i kids[j].1) r (k j) ∧ Reads (kids[j].2.lookup sq (k j)) r (l j)) →
    Reads (mulLookups sq x i kids e) r ((List.range kids.length).foldl (fun a j => a.mul sq (l j)) e)
  | [], _, _, _, _ => reads_pure _ _
  | (col, t) :: rest, e, k, l, h => by
    obtain ⟨hkey, hlook⟩ := h 0 (Nat.zero_lt_succ _)
    have hrest := mulLookups_reads (kids := rest) (e := e.mul sq (l 0)) (k := fun j => k (j + 1)) (l := fun j => l (j + 1))
      fun j hj => h (j + 1) (Nat.succ_lt_succ hj)
    rw [List.length_cons, List.range_succ_eq_map, List.foldl_cons, List.foldl_map]
    exact reads_bind hkey (reads_bind hlook hrest)

theorem upElem_reads {u : UpSrc} {i : Nat} {r : RelSt} {p : List Word} {e : Elem} (hv : Reads (u.x.visit i) r ()) (hp : Reads (u.x.part i) r p)
    (hm : Reads (mulLookups u.tr.sq u.x i u.kids (Elem.leaf u.tr.sq p)) r e) : Reads (u.elem i) r e :=
  reads_bind hv (reads_bind hp hm)

/-! ### Groups (R126) -/

/-- A list of groups, the last one first, that makes up the first n rows with their keys. -/
structure Grouped (k : Nat → Word) (n : Nat) (gs : List Shard) : Prop where
  pos : ∀ g ∈ gs, 0 < g.count
  rows : gs.reverse.flatMap (fun g => List.range' g.first g.count) = List.range n
  keys : gs.reverse.flatMap (fun g => List.replicate g.count g.key) = (List.range n).map k
  apart : gs.IsChain (fun g h => g.key ≠ h.key)

section
variable {k : Nat → Word} {n : Nat} {g : Shard} {gs : List Shard}

/-- The group that a row opens. -/
theorem Grouped.start (h : Grouped k n gs) (hk : ∀ g ∈ gs.head?, k n ≠ g.key) : Grouped k (n + 1) ({ key := k n, first := n, count := 1 } :: gs) where
  pos := by simpa using h.pos
  rows := by rw [List.reverse_cons, List.flatMap_append, h.rows, List.range_succ]; rfl
  keys := by rw [List.reverse_cons, List.flatMap_append, h.keys, List.range_succ, List.map_append]; rfl
  apart := by
    rw [List.isChain_cons]
    exact ⟨hk, h.apart⟩

/-- The first row after the groups that there are. -/
theorem Grouped.next (h : Grouped k n (g :: gs)) : g.first + g.count = n := by
  have hpos := h.pos g (List.mem_cons_self ..)
  have hrows := h.rows
  rw [List.reverse_cons, List.flatMap_append] at hrows
  have hlast := congrArg List.getLast? hrows
  have hn : n ≠ 0 := by
    rintro rfl
    have := congrArg List.length hrows
    simp at this
    omega
  obtain ⟨c, hc⟩ : ∃ c, g.count = c + 1 := ⟨g.count - 1, by omega⟩
  obtain ⟨m, rfl⟩ : ∃ m, n = m + 1 := ⟨n - 1, by omega⟩
  simp only [List.flatMap_singleton, hc, List.range'_concat, List.range_succ, List.getLast?_concat, ← List.append_assoc] at hlast
  simp at hlast
  omega

/-- A row whose key is that of the last group joins it. -/
theorem Grouped.extend (h : Grouped k n (g :: gs)) (hk : g.key = k n) : Grouped k (n + 1) ({ g with count := g.count + 1 } :: gs) where
  pos := by
    intro x hx
    rcases List.mem_cons.mp hx with rfl | hx
    · exact Nat.succ_pos _
    · exact h.pos x (List.mem_cons_of_mem _ hx)
  rows := by
    have hrows := h.rows
    simp only [List.reverse_cons, List.flatMap_append, List.flatMap_singleton] at hrows ⊢
    rw [List.range'_concat, ← List.append_assoc, hrows, Nat.one_mul, h.next, List.range_succ]
  keys := by
    have hkeys := h.keys
    simp only [List.reverse_cons, List.flatMap_append, List.flatMap_singleton] at hkeys ⊢
    rw [List.replicate_succ', ← List.append_assoc, hkeys, hk, List.range_succ, List.map_append]
    rfl
  apart := by
    have happart := h.apart
    rw [List.isChain_cons] at happart ⊢
    exact happart

end

/-- What a row of a key makes of the groups before it, the last one first. -/
def addRow (k : Word) (n : Nat) : List Shard → List Shard
  | [] => [{ key := k, first := n, count := 1 }]
  | g :: gs => if g.key = k then { g with count := g.count + 1 } :: gs else { key := k, first := n, count := 1 } :: g :: gs

theorem Grouped.addRow {k : Nat → Word} {n : Nat} {gs : List Shard} (h : Grouped k n gs) : Grouped k (n + 1) (addRow (k n) n gs) := by
  cases gs with
  | nil => exact h.start (by simp)
  | cons g gs =>
    rw [Relations.addRow]
    split
    · rename_i hk; exact h.extend hk
    · rename_i hk; exact h.start (by simpa using fun e => hk e.symm)

section
variable {x : Relation} {root : Bool} {ckc : Nat} {r : RelSt} {k : Nat → Word}
  (h : ∀ i < x.rows, if root then k i = 0 else Reads (x.visit i) r () ∧ Reads (x.key i ckc) r (k i))
include h

theorem groupsFrom_step {n : Nat} (hn : n < x.rows) (m : Nat) (gs : List Shard) :
    groupsFrom x root ckc (m + 1) n gs r = groupsFrom x root ckc m (n + 1) (addRow (k n) n gs) r := by
  have hrow := h n hn
  have hadd (w : Word) : (match gs with
      | g :: rest =>
        if g.key = w then groupsFrom x root ckc m (n + 1) ({ g with count := g.count + 1 } :: rest)
        else groupsFrom x root ckc m (n + 1) ({ key := w, first := n, count := 1 } :: gs)
      | [] => groupsFrom x root ckc m (n + 1) [{ key := w, first := n, count := 1 }]) =
      groupsFrom x root ckc m (n + 1) (addRow w n gs) := by
    cases gs with
    | nil => rfl
    | cons g gs => exact (apply_ite (groupsFrom x root ckc m (n + 1)) _ _ _).symm
  rw [groupsFrom]
  cases root with
  | true =>
    rw [show k n = 0 from hrow, if_pos rfl, pure_bind]
    exact congrFun (hadd 0) r
  | false =>
    rw [if_neg Bool.false_ne_true, bind_of_reads hrow.1, bind_of_reads hrow.2]
    exact congrFun (hadd (k n)) r

/-- The rows from one on join the groups of those before it. -/
theorem groupsFrom_reads : ∀ {m n : Nat} {gs : List Shard}, n + m = x.rows → Grouped k n gs →
    ∃ gs', Reads (groupsFrom x root ckc m n gs) r gs'.reverse ∧ Grouped k x.rows gs'
  | 0, n, gs, hn, hg => ⟨gs, reads_pure _ _, by rwa [← hn]⟩
  | m + 1, n, gs, hn, hg => by
    unfold Reads
    rw [groupsFrom_step h (by omega)]
    exact groupsFrom_reads (by omega) hg.addRow

/-- R126: the groups of a node's rows. -/
theorem groups_spec :
    ∃ gs, Reads (groupsFrom x root ckc x.rows 0 []) r gs ∧ (∀ g ∈ gs, 0 < g.count) ∧
      gs.flatMap (fun g => List.range' g.first g.count) = List.range x.rows ∧
      gs.flatMap (fun g => List.replicate g.count g.key) = (List.range x.rows).map k ∧
      (∀ i, i + 1 < gs.length → (gs.map (·.key)).getD i 0 ≠ (gs.map (·.key)).getD (i + 1) 0) := by
  obtain ⟨gs, hread, hg⟩ := groupsFrom_reads h (Nat.zero_add _) (gs := []) ⟨by simp, rfl, rfl, .nil⟩
  refine ⟨gs.reverse, hread, fun g hm => hg.pos g (List.mem_reverse.mp hm), hg.rows, hg.keys, fun i hi => ?_⟩
  have happart : gs.reverse.IsChain (fun g h => g.key ≠ h.key) :=
    List.isChain_reverse.mpr (hg.apart.imp fun _ _ h => h.symm)
  have hne := List.isChain_iff_getElem.mp happart i hi
  simpa [List.getD_eq_getElem?_getD, show i < gs.length by simp at hi; omega, show i + 1 < gs.length by simpa using hi] using hne

end

/-! ### Shards (R126, R127) -/

section
variable {n : Nat} (hn : 0 < n) (g : Shard)
include hn

theorem split_length_le {i : Nat} (hi : i < (Shard.split n g).length) : n * i < g.count := by
  rw [Shard.split, List.length_map, List.length_range] at hi
  have hmul := (Nat.lt_div_iff_mul_lt hn).mp hi
  rw [Nat.mul_comm]; omega

omit hn in
theorem split_getElem {i : Nat} (hi : i < (Shard.split n g).length) :
    (Shard.split n g)[i] = { key := g.key, first := g.first + n * i, count := Nat.min n (g.count - n * i) } := by
  simp [Shard.split]

omit hn in
/-- The rows of the first shards of a group. -/
theorem split_rows_upto : ∀ m, (List.range m).flatMap (fun i => List.range' (g.first + n * i) (min n (g.count - n * i))) =
    List.range' g.first (min (n * m) g.count)
  | 0 => by simp
  | m + 1 => by
    rw [List.range_succ, List.flatMap_append, split_rows_upto m, List.flatMap_singleton]
    rcases Nat.le_total (n * m) g.count with h | h
    · rw [Nat.min_eq_left h, show List.range' (g.first + n * m) (min n (g.count - n * m)) =
        List.range' (g.first + 1 * (n * m)) (min n (g.count - n * m)) by rw [Nat.one_mul], List.range'_append, Nat.mul_succ]
      congr 1
      omega
    · rw [Nat.min_eq_right h, Nat.sub_eq_zero_of_le h, Nat.min_eq_right (Nat.zero_le n), Nat.min_eq_right (by rw [Nat.mul_succ]; omega)]
      simp

theorem split_rows : (Shard.split n g).flatMap (fun p => List.range' p.first p.count) = List.range' g.first g.count := by
  have hup : g.count ≤ n * ((g.count + n - 1) / n) := by
    have := Nat.div_add_mod (g.count + n - 1) n
    have := Nat.mod_lt (g.count + n - 1) hn
    omega
  rw [Shard.split, List.flatMap_map]
  exact (split_rows_upto g _).trans (by rw [Nat.min_eq_right hup])

theorem split_shard {i : Nat} (h : i < (Shard.split n g).length) : (Shard.split n g)[i].key = g.key ∧ 0 < (Shard.split n g)[i].count ∧
    (Shard.split n g)[i].count ≤ n ∧ (i + 1 < (Shard.split n g).length → (Shard.split n g)[i].count = n) := by
  have hlt := split_length_le hn g h
  rw [split_getElem g h]
  refine ⟨rfl, ?_, Nat.min_le_left _ _, fun hnext => ?_⟩
  · show 0 < min n (g.count - n * i)
    omega
  · have hlt' := split_length_le hn g hnext
    rw [Nat.mul_succ] at hlt'
    exact Nat.min_eq_left (by omega)

end

section
variable {u : UpSrc} {r : RelSt} {gs : List Shard}
  (hgs : Reads (groupsFrom u.x (u.n = u.tr.root) (u.tr.node u.n).ckc u.x.rows 0 []) r gs) (hcleave : (u.tr.node u.n).cleave ≠ 0)
include hgs hcleave

theorem shards_apply : u.shards r = (do
    need ((gs.flatMap (Shard.split (u.tr.node u.n).cleave)).length = (u.tr.node u.n).shards) 0x0F
    pure (gs.flatMap (Shard.split (u.tr.node u.n).cleave)) : RM (List Shard)) r := by
  rw [UpSrc.shards, need_of (by simpa using hcleave), pure_bind, bind_of_reads hgs]

theorem shards_agree (h : (gs.flatMap (Shard.split (u.tr.node u.n).cleave)).length = (u.tr.node u.n).shards) :
    Reads u.shards r (gs.flatMap (Shard.split (u.tr.node u.n).cleave)) := by
  unfold Reads
  rw [shards_apply hgs hcleave, need_of (by simpa using h)]
  rfl

theorem shards_disagree (h : (gs.flatMap (Shard.split (u.tr.node u.n).cleave)).length ≠ (u.tr.node u.n).shards) :
    u.shards r = (.error (cRUF, 0x0F), r) := by
  rw [shards_apply hgs hcleave]
  exact bind_of_error (need_of_not (by simpa using h) _ _)

end

/-- R127: a shard's element is the sum of its rows' elements, rounded once. -/
theorem shard_reads {u : UpSrc} {p : Shard} {r : RelSt} {e : Nat → Elem} (hp : 0 < p.count)
    (h : ∀ i < p.count, Reads (u.elem (p.first + i)) r (e i)) :
    Reads (u.shard p) r ((List.range (p.count - 1)).foldl (fun a i => a.add (e (i + 1))) (e 0)).round32 := by
  obtain ⟨c, hc⟩ : ∃ c, p.count = c + 1 := ⟨p.count - 1, by omega⟩
  have hes := reads_mapM (f := fun i => u.elem (p.first + i)) (g := e) (l := List.range p.count) (r := r) fun i hi => h i (List.mem_range.mp hi)
  unfold Reads
  rw [UpSrc.shard, bind_of_reads hes, hc, List.range_succ_eq_map, List.map_cons, List.map_map]
  show (Except.ok (((List.range c).map (e ∘ Nat.succ)).foldl Elem.add (e 0)).round32, r) = _
  rw [List.foldl_map]
  rfl

theorem relDesc_aligned {desc : Word} (h : desc.toNat % 32 = 0) (r : RelSt) : relDesc desc r = rdWords desc 4 r := by
  rw [relDesc, aligned_of h]; rfl

theorem relDesc_misaligned {desc : Word} (h : desc.toNat % 32 ≠ 0) (r : RelSt) : relDesc desc r = (.error (cRUF, 9), r) :=
  bind_of_error (aligned_of_not h r)

end Sys2Proof.Relations
end

