-- ==== Sys2Proof/Proofs/RelationalBuilds.lean ====
section
/-! SUPPORT. Sys2Proof/Proofs/RelationalBuilds.lean: tables under construction, and the sums by key that they hold (R111). -/

namespace Sys2Proof.Relations
open Sys2Proof.Machine

/-! ### Tables by number -/

section
variable {α : Type} {b : Sparse α} {n : Nat} {x : α}

/-- The entry that a search by number finds. -/
def entryOf (b : Sparse α) (key : Nat) : Option α := (b.find? (fun z => z.1 = key)).map (·.2)

theorem entryOf_cons (e : Nat × α) (b : Sparse α) (key : Nat) : entryOf (e :: b) key = if e.1 = key then some e.2 else entryOf b key := by
  unfold entryOf
  rw [List.find?_cons]
  by_cases h : e.1 = key <;> simp [h]

/-- A search after a write finds what was written, and every other entry as before. -/
theorem entryOf_put (n : Nat) (x : α) (key : Nat) : ∀ b : Sparse α, entryOf (Sparse.put b n x) key = if key = n then some x else entryOf b key
  | [] => by
    rw [Sparse.put, entryOf_cons]
    simp only [eq_comm (a := n)]
  | (m, y) :: t => by
    rw [Sparse.put]
    split
    · subst_vars
      simp only [entryOf_cons, eq_comm (a := m)]
      split <;> rfl
    · split
      · simp only [entryOf_cons, eq_comm (a := n)]
      · rename_i hne hlt
        rw [entryOf_cons, entryOf_cons, entryOf_put n x key t]
        by_cases h : m = key
        · simp only [h, if_true, if_neg (show ¬ key = n by omega)]
        · simp only [h, if_false]

theorem mem_put {e : Nat × α} : ∀ {b : Sparse α}, e ∈ Sparse.put b n x → e = (n, x) ∨ e ∈ b
  | [], h => .inl (by simpa [Sparse.put] using h)
  | (m, y) :: t, h => by
    rw [Sparse.put] at h
    split at h
    · exact (List.mem_cons.mp h).imp_right (List.mem_cons_of_mem _)
    · split at h
      · exact List.mem_cons.mp h
      · rcases List.mem_cons.mp h with rfl | h
        · exact .inr (List.mem_cons_self ..)
        · exact (mem_put h).imp_right (List.mem_cons_of_mem _)

theorem ascending_put : ∀ {b : Sparse α}, b.Pairwise (fun x y => x.1 < y.1) → (Sparse.put b n x).Pairwise (fun x y => x.1 < y.1)
  | [], _ => List.pairwise_singleton ..
  | (m, y) :: t, h => by
    obtain ⟨habove, hrest⟩ := List.pairwise_cons.mp h
    rw [Sparse.put]
    split
    · subst_vars; exact List.pairwise_cons.mpr ⟨habove, hrest⟩
    · split
      · refine List.pairwise_cons.mpr ⟨fun e he => ?_, h⟩
        rcases List.mem_cons.mp he with rfl | he
        · assumption
        · exact Nat.lt_trans ‹_› (habove e he)
      · refine List.pairwise_cons.mpr ⟨fun e he => ?_, ascending_put hrest⟩
        rcases mem_put he with rfl | he
        · show m < n; omega
        · exact habove e he

theorem entryOf_below {key : Nat} (hb : ∀ e ∈ b, key < e.1) : entryOf b key = none := by
  have hf : b.find? (fun z => z.1 = key) = none := List.find?_eq_none.mpr fun e he => by
    have := hb e he
    simp only [decide_eq_true_eq]; omega
  rw [entryOf, hf]; rfl

/-- The reads of an ascending table are searches. -/
theorem get_eq_entryOf (d : α) (key : Nat) : ∀ {b : Sparse α}, b.Pairwise (fun x y => x.1 < y.1) → Sparse.get d b key = (entryOf b key).getD d
  | [], _ => rfl
  | (m, y) :: t, h => by
    obtain ⟨habove, hrest⟩ := List.pairwise_cons.mp h
    rw [Sparse.get, entryOf_cons]
    simp only [eq_comm (a := key)]
    split
    · rfl
    · split
      · rw [entryOf_below fun e he => Nat.lt_trans ‹_› (habove e he)]; rfl
      · exact get_eq_entryOf d key hrest

theorem has_eq_entryOf (key : Nat) : ∀ {b : Sparse α}, b.Pairwise (fun x y => x.1 < y.1) → Sparse.has b key = (entryOf b key).isSome
  | [], _ => rfl
  | (m, y) :: t, h => by
    obtain ⟨habove, hrest⟩ := List.pairwise_cons.mp h
    rw [Sparse.has, entryOf_cons]
    simp only [eq_comm (a := key)]
    split
    · rfl
    · split
      · rw [entryOf_below fun e he => Nat.lt_trans ‹_› (habove e he)]; rfl
      · exact has_eq_entryOf key hrest

end

/-! ### What a table under construction holds -/

section
variable {α : Type} {b : Sparse α} {f g : Nat → Option α}

theorem holds_iff : Holds b f ↔ b.Pairwise (fun x y => x.1 < y.1) ∧ ∀ key, entryOf b key = f key := Iff.rfl

theorem holds_nil : Holds ([] : Sparse α) (fun _ => none) := ⟨.nil, fun _ => rfl⟩

theorem holds_congr (h : Holds b f) (hfg : ∀ key, f key = g key) : Holds b g := (funext hfg : f = g) ▸ h

theorem holds_has (h : Holds b f) (key : Nat) : Sparse.has b key = (f key).isSome := by
  rw [has_eq_entryOf key h.1, (holds_iff.mp h).2]

theorem holds_get (h : Holds b f) (d : α) (key : Nat) : Sparse.get d b key = (f key).getD d := by
  rw [get_eq_entryOf d key h.1, (holds_iff.mp h).2]

theorem holds_put (h : Holds b f) (n : Nat) (x : α) : Holds (Sparse.put b n x) (fun key => if key = n then some x else f key) :=
  holds_iff.mpr ⟨ascending_put h.1, fun key => by rw [entryOf_put, (holds_iff.mp h).2]⟩

end

/-! ### Sums by key (R111) -/

/-- A sum with one more element. -/
def plus (o : Option Elem) (e : Elem) : Option Elem := some ((o.map (·.add e)).getD e)

theorem holds_join {b : Build} {f : Nat → Option Elem} (h : Holds b f) (k : Word) (e : Elem) :
    Holds (b.join k e) (fun key => if key = k.toNat then plus (f key) e else f key) := by
  unfold Build.join
  rw [holds_has h, holds_get h]
  cases hf : f k.toNat with
  | none =>
    refine holds_congr (holds_put h k.toNat e) fun key => ?_
    split
    · rename_i hk; rw [hk, hf]; rfl
    · rfl
  | some y =>
    refine holds_congr (holds_put h k.toNat (y.add e)) fun key => ?_
    split
    · rename_i hk; rw [hk, hf]; rfl
    · rfl

/-- A place after the others adds its element to the sum of its key. -/
theorem groupSum_concat (places : List Nat) (i : Nat) (k : Nat → Word) (e : Nat → Elem) (key : Nat) :
    groupSum (places ++ [i]) k e key = if key = (k i).toNat then plus (groupSum places k e key) (e i) else groupSum places k e key := by
  unfold groupSum
  rw [List.filter_append, List.filter_singleton]
  by_cases h : (k i).toNat = key
  · rw [if_pos h.symm, decide_eq_true h]
    cases places.filter (fun j => (k j).toNat = key) with
    | nil => rfl
    | cons j js =>
      show some ((js ++ [i]).foldl (fun a l => a.add (e l)) (e j)) = _
      rw [List.foldl_append]
      rfl
  · rw [if_neg (Ne.symm h), decide_eq_false h]
    simp

/-- The table to which the elements of some places are joined in order. -/
def joinAll (k : Nat → Word) (e : Nat → Elem) (places : List Nat) (b : Build) : Build := places.foldl (fun b i => b.join (k i) (e i)) b

theorem joinAll_holds (k : Nat → Word) (e : Nat → Elem) (places : List Nat) : Holds (joinAll k e places []) (groupSum places k e) := by
  induction places using List.reverseRecOn with
  | nil => exact holds_nil
  | append_singleton places i ih =>
    rw [joinAll, List.foldl_append]
    exact holds_congr (holds_join ih (k i) (e i)) fun key => (groupSum_concat places i k e key).symm

/-- The combination of the elements of some places holds their sums by key. -/
theorem combine_holds (n : Nat) (k : Nat → Word) (e : Nat → Elem) :
    Holds (combine ((List.range n).map (fun i => (k i, e i)))) (groupSum (List.range n) k e) := by
  rw [combine, List.foldl_map]
  exact joinAll_holds k e (List.range n)

/-- The combination of the entries of a table holds their sums by key. -/
theorem combine_entries_holds (es : List (Word × Bool × Elem)) (z : Elem) : Holds (combine (es.map (fun e => (e.1, e.2.2))))
    (groupSum (List.range es.length) (fun i => (es.map (·.1)).getD i 0) (fun i => (es.map (·.2.2)).getD i z)) := by
  have hes : es.map (fun e => (e.1, e.2.2)) = (List.range es.length).map (fun i => ((es.map (·.1)).getD i 0, (es.map (·.2.2)).getD i z)) := by
    apply List.ext_getElem
    · simp
    · intro i h1 h2
      have hi : i < es.length := by simpa using h1
      simp [List.getD_eq_getElem?_getD, hi]
  rw [hes]
  exact combine_holds es.length _ _

end Sys2Proof.Relations
end

