-- ==== Sys2Proof/Proofs/RelationalTables.lean ====
section
/-! SUPPORT. Sys2Proof/Proofs/RelationalTables.lean: up tables, shard elements, down tables, contexts and gradients (R111, R118 to R120, R126,
R127, R302, R303). -/

namespace Sys2Proof.Relations
open Sys2Proof.Machine

/-! ### Fields of a control cell (R289) -/

theorem node_field (c : Word) : (c.extractLsb' 0 8).toNat = c.toNat % 256 := by simp [BitVec.extractLsb'_toNat]

theorem mode_field (c : Word) : (c.extractLsb' 8 2).toNat = c.toNat / 256 % 4 := by
  simp [BitVec.extractLsb'_toNat, Nat.shiftRight_eq_div_pow]

/-! ### Rows that join their elements (R111, R118) -/

section
variable {r : RelSt} {k : Nat → Word} {e : Nat → Elem}

theorem build_reads {u : UpSrc} : ∀ {n i : Nat} (b : Build), (∀ j, i ≤ j → j < i + n → Reads (u.elem j) r (e j) ∧ Reads (u.key j) r (k j)) →
    Reads (u.build n i b) r (joinAll k e (List.range' i n) b)
  | 0, _, _, _ => reads_pure _ _
  | n + 1, i, b, h => by
    obtain ⟨he, hk⟩ := h i (Nat.le_refl i) (by omega)
    exact reads_bind he (reads_bind hk (build_reads (b.join (k i) (e i)) fun j h1 h2 => h j (by omega) (by omega)))

theorem downBuild_reads {t : Tree} {x : Relation} {up : List (Nat × Table)} {pkc : Nat} {p : Nat → List Word} : ∀ {n i : Nat} (b : Build),
    (∀ j, i ≤ j → j < i + n → Reads (x.visit j) r () ∧ Reads (x.part j) r (p j) ∧
      Reads (mulLookups t.sq x j up (Elem.leaf t.sq (p j))) r (e j) ∧ Reads (x.key j pkc) r (k j)) →
    Reads (downBuild t x up pkc n i b) r (joinAll k e (List.range' i n) b)
  | 0, _, _, _ => reads_pure _ _
  | n + 1, i, b, h => by
    obtain ⟨hv, hp, he, hk⟩ := h i (Nat.le_refl i) (by omega)
    exact reads_bind hv (reads_bind hp (reads_bind he (reads_bind hk
      (downBuild_reads (b.join (k i) (e i)) fun j h1 h2 => h j (by omega) (by omega)))))

end

/-! ### jmul (R111, R126, R127, R302) -/

theorem jmulBody_of_tree {c tree desc : Word} {r : RelSt} {t : Tree}
    (h : Reads (readTree tree (fun nodes => c.toNat % 256 < nodes && c.toNat / 256 % 4 ≠ 3) 0x12) r t) : jmulBody c tree desc r =
    (if c.toNat / 256 % 4 = 0 then jmulWhole t (c.toNat % 256) else if c.toNat / 256 % 4 = 1 then jmulShards t (c.toNat % 256) desc
      else jmulCombine t (c.toNat % 256) desc) r := by
  unfold jmulBody
  simp only [node_field, mode_field]
  exact bind_of_reads h

section
variable {t : Tree} {n : Nat} {r r1 : RelSt} (hr1 : r1 = (counts (t.node n).upt 12 32 (32 + 4 * t.h) r).2)
include hr1

section
variable {u : UpSrc} {out : Table} (hu : Reads (upSrc t n) r1 u) (hout : Reads (t.output (t.node n).upt) r1 out)
include hu hout

/-- R302, mode 0 of a node that is not cleaved. -/
theorem jmulWhole_rows (hc : (t.node n).cleaved = false) {k : Nat → Word} {e : Nat → Elem}
    (h : ∀ i < u.x.rows, Reads (u.elem i) r1 (e i) ∧ Reads (u.key i) r1 (k i)) :
    jmulWhole t n r = out.store t false written (joinAll k e (List.range u.x.rows) []) r1 := by
  have hb := build_reads (u := u) (n := u.x.rows) (i := 0) [] fun j _ h2 => h j (by omega)
  rw [← List.range_eq_range'] at hb
  subst hr1
  unfold jmulWhole
  rw [counts_then, bind_of_reads hu, bind_of_reads hout, hc, if_neg Bool.false_ne_true, bind_of_reads hb]

/-- R302, mode 0 of a cleaved node. -/
theorem jmulWhole_shards (hc : (t.node n).cleaved = true) {ss : List Shard} {e : Nat → Elem} (hss : Reads u.shards r1 ss)
    (h : ∀ i (h : i < ss.length), Reads (u.shard ss[i]) r1 (e i)) :
    jmulWhole t n r = out.store t false written (combine ((List.range ss.length).map (fun i => ((ss.map (·.key)).getD i 0, e i)))) r1 := by
  have hes : Reads (ss.mapM (fun s => do
      let e ← u.shard s
      pure (s.key, e))) r1 ((List.range ss.length).map (fun i => ((ss.map (·.key)).getD i 0, e i))) := by
    refine reads_mapM_getElem fun i hi => reads_bind (h i hi) ?_
    rw [List.getD_eq_getElem?_getD, List.getElem?_map, List.getElem?_eq_getElem hi]
    exact reads_pure _ _
  subst hr1
  unfold jmulWhole
  rw [counts_then, bind_of_reads hu, bind_of_reads hout, hc, if_pos rfl, bind_of_reads hss, bind_of_reads hes]

end

/-- R302, mode 2. -/
theorem jmulCombine_spec (hc : (t.node n).cleaved = true) {desc : Word} {ws : List Word} {x : Relation} {set out : Table} {ss : List Shard}
    {es : List (Word × Bool × Elem)} (hws : Reads (relDesc desc) r1 ws) (hx : Reads (readTile t n) r1 x)
    (hset : Reads (t.table (ws.getD 1 0)) r1 set) (hcap : (t.node n).shards ≤ set.cap) (hout : Reads (t.output (t.node n).upt) r1 out)
    (hss : Reads (UpSrc.shards { tr := t, n := n, x := x, kids := [] }) r1 ss) (hes : Reads (set.all t.sq true (t.node n).shards) r1 es) :
    jmulCombine t n desc r = out.store t false written (combine (es.map (fun e => (e.1, e.2.2)))) r1 := by
  subst hr1
  unfold jmulCombine
  rw [counts_then, bind_of_reads hws, need_of hc, pure_bind, bind_of_reads hx, bind_of_reads hset, needRoom_of (by simpa using hcap), pure_bind,
    bind_of_reads hout, bind_of_reads hss, bind_of_reads hes]

end

/-- R302, mode 1: the element of place j of the shards asked for. -/
def shardStep (t : Tree) (u : UpSrc) (list : Word) (set : Table) (first j : Nat) : RM Unit := do
  let s ← readShard list (first + j)
  need (s.first + s.count ≤ u.x.rows) 0x0F
  let e ← u.shard s
  wrWords (set.entry (first + j)) (e.words t.sq s.key)
  written

theorem shardStep_apply {t : Tree} {u : UpSrc} {list : Word} {set : Table} {first j : Nat} {r : RelSt} {p : Shard} {e : Elem}
    (hp : Reads (readShard list (first + j)) r p) (hrows : p.first + p.count ≤ u.x.rows) (he : Reads (u.shard p) r e) :
    shardStep t u list set first j r = (do wrWords (set.entry (first + j)) (e.words t.sq p.key); written) r := by
  rw [shardStep, bind_of_reads hp, need_of (by simpa using hrows), pure_bind, bind_of_reads he]

theorem low_half (ws : List Word) (j : Nat) : fieldAt ws (8 * j) 4 = (ws.getD j 0).toNat % 2 ^ 32 := by
  unfold fieldAt
  rw [Nat.mul_div_cancel_left j (by decide), Nat.mul_mod_right, Nat.pow_zero, Nat.div_one]
  rfl

theorem high_half (ws : List Word) (j : Nat) : fieldAt ws (8 * j + 4) 4 = (ws.getD j 0).toNat / 2 ^ 32 := by
  unfold fieldAt
  rw [show (8 * j + 4) / 8 = j by omega, show (8 * j + 4) % 8 = 4 by omega]
  have := (ws.getD j 0).isLt
  omega

/-- R302, mode 1. -/
theorem jmulShards_spec {t : Tree} {n : Nat} {desc : Word} {r : RelSt} (hc : (t.node n).cleaved = true) {ws : List Word} {u : UpSrc}
    {lh : Nat × Nat} {set : Table} {ss : List Shard} (hws : Reads (relDesc desc) r ws) (hu : Reads (upSrc t n) r u)
    (hlh : Reads (readListHead (ws.getD 0 0)) r lh) (hset : Reads (t.output (ws.getD 1 0)) r set) (hss : Reads u.shards r ss)
    (hfit : (ws.getD 2 0).toNat % 2 ^ 32 + (ws.getD 2 0).toNat / 2 ^ 32 ≤ (t.node n).shards) (hcap : (t.node n).shards ≤ set.cap) :
    jmulShards t n desc r = (List.range ((ws.getD 2 0).toNat / 2 ^ 32)).forM
      (shardStep t u (ws.getD 0 0) set ((ws.getD 2 0).toNat % 2 ^ 32))
      (rowsAt (set.entry ((ws.getD 2 0).toNat % 2 ^ 32)) set.esize ((ws.getD 2 0).toNat / 2 ^ 32) r).2 := by
  unfold jmulShards
  rw [bind_of_reads hws]
  simp only [show fieldAt ws 16 4 = _ from low_half ws 2, show fieldAt ws 20 4 = _ from high_half ws 2]
  rw [need_of (by simpa using ⟨hc, hfit⟩), pure_bind, bind_of_reads hu, bind_of_reads hlh, bind_of_reads hset,
    needRoom_of (by simpa using hcap), pure_bind, bind_of_reads hss, rowsAt_then]
  rfl

/-! ### Down tables (R118, R303) -/

theorem jexpBody_of_tree {c tree : Word} {r : RelSt} {t : Tree} (h : Reads (readTree tree (fun nodes => c.toNat % 256 < nodes) 0x12) r t) :
    jexpBody c tree r = (if c.toNat / 256 % 4 = 0 then jexpDown t (c.toNat % 256) else if c.toNat / 256 % 4 = 1 then jexpContext t (c.toNat % 256)
      else if c.toNat / 256 % 4 = 2 then jexpGradient t (c.toNat % 256)
      else do
        jexpContext t (c.toNat % 256)
        jexpGradient t (c.toNat % 256)) r := by
  unfold jexpBody
  simp only [node_field, mode_field]
  exact bind_of_reads h

theorem jexpDown_root {t : Tree} {n : Nat} (hn : n = t.root) (r : RelSt) : jexpDown t n r = (.error (cRUF, 0x0B), r) :=
  bind_of_error (need_of_not (by simpa using hn) _ _)

/-- R303, mode 0. -/
theorem jexpDown_spec {t : Tree} {n : Nat} (hn : n ≠ t.root) {r r1 : RelSt} (hr1 : r1 = (counts (t.node n).dnt 12 32 (32 + 4 * t.h) r).2)
    {x : Relation} {own sibs : List (Nat × Table)} {out : Table} {p : Nat → List Word} {k : Nat → Word} {e : Nat → Elem}
    (hx : Reads (readTile t (t.node n).parent) r1 x) (hroot : (t.node n).parent = t.root → own = [])
    (hown : (t.node n).parent ≠ t.root → ∃ d, Reads (t.table (t.node (t.node n).parent).dnt) r1 d ∧
      own = [((t.node (t.node n).parent).ckc, d)])
    (hsibs : Reads (t.childTables ((t.children (t.node n).parent).filter (fun m => m ≠ n))) r1 sibs)
    (hout : Reads (t.output (t.node n).dnt) r1 out)
    (h : ∀ i < x.rows, Reads (x.visit i) r1 () ∧ Reads (x.part i) r1 (p i) ∧
      Reads (mulLookups t.sq x i (own ++ sibs) (Elem.leaf t.sq (p i))) r1 (e i) ∧ Reads (x.key i (t.node n).pkc) r1 (k i)) :
    jexpDown t n r = out.store t false written (joinAll k e (List.range x.rows) []) r1 := by
  have hb := downBuild_reads (t := t) (x := x) (up := own ++ sibs) (n := x.rows) (i := 0) [] fun j _ h2 => h j (by omega)
  rw [← List.range_eq_range'] at hb
  subst hr1
  unfold jexpDown
  rw [need_of (by simpa using hn), pure_bind, counts_then, bind_of_reads hx]
  by_cases hp : (t.node n).parent = t.root
  · rw [hroot hp] at hb
    simp only [if_pos hp]
    rw [pure_bind, bind_of_reads hsibs, bind_of_reads hout, bind_of_reads hb]
  · obtain ⟨d, hd, rfl⟩ := hown hp
    simp only [if_neg hp]
    rw [bind_of_reads hd, pure_bind, bind_of_reads hsibs, bind_of_reads hout, bind_of_reads hb]

/-! ### Contexts (R119, R303) -/

/-- R119: the context of a row. -/
def contextRow (t : Tree) (x : Relation) (down kids : List (Nat × Table)) (out : Table) (i : Nat) : RM Unit := do
  x.visit i
  let e0 ← match down with
    | (col, d) :: _ => do
      let k ← x.key i col
      d.lookup t.sq k
    | [] => pure (Elem.unit t.h)
  let e ← mulLookups t.sq x i kids e0
  wrWords (out.entry i) (e.words t.sq (BitVec.ofNat 64 i))
  written

theorem contextRows_eq (t : Tree) (x : Relation) (down kids : List (Nat × Table)) (out : Table) :
    ∀ n i, contextRows t x down kids out n i = (List.range' i n).forM (contextRow t x down kids out)
  | 0, _ => rfl
  | n + 1, i => by
    rw [contextRows, contextRows_eq t x down kids out n (i + 1)]
    show _ = (contextRow t x down kids out i >>= fun _ => _)
    cases down <;> simp only [contextRow, bind_assoc]

theorem contextRow_apply {t : Tree} {x : Relation} {down kids : List (Nat × Table)} {out : Table} {i : Nat} {r : RelSt} {e0 e : Elem}
    (hv : Reads (x.visit i) r ()) (hnone : down = [] → e0 = Elem.unit t.h)
    (hdown : ∀ a ∈ down, ∃ k, Reads (x.key i a.1) r k ∧ Reads (a.2.lookup t.sq k) r e0) (hm : Reads (mulLookups t.sq x i kids e0) r e) :
    contextRow t x down kids out i r = (do wrWords (out.entry i) (e.words t.sq (BitVec.ofNat 64 i)); written) r := by
  unfold contextRow
  rw [bind_of_reads hv]
  cases down with
  | nil =>
    rw [hnone rfl] at hm
    exact bind_of_reads hm
  | cons a rest =>
    obtain ⟨k, hk, hl⟩ := hdown a (List.mem_cons_self ..)
    simp only
    rw [bind_of_reads hk, bind_of_reads hl, bind_of_reads hm]

theorem readTable_keeps {γ : Type} (p : RelSt → γ) (va : Word) (h : Option Nat) (kind1 delta : Option Bool) :
    Keeps p (readTable va h kind1 delta) :=
  (keeps_aligned _ _).bind fun _ => (rdWords_keeps p _ _).bind fun _ => (keeps_need _ _).bind fun _ => (keeps_need _ _).bind fun _ =>
    (keeps_need _ _).bind fun _ => (keeps_need _ _).bind fun _ => keeps_pure p _

theorem childTables_keeps {γ : Type} (p : RelSt → γ) (t : Tree) (ms : List Nat) : Keeps p (t.childTables ms) :=
  keeps_mapM (fun _ => (readTable_keeps p _ _ _ _).bind fun _ => keeps_pure p _) _

/-- The tables of all children are those of some and of the rest. -/
theorem childTables_split {t : Tree} {ms ms' : List Nat} {r : RelSt} {kids : List (Nat × Table)}
    (h : Reads (t.childTables (ms ++ ms')) r kids) : ∃ a b, Reads (t.childTables ms) r a ∧ Reads (t.childTables ms') r b ∧ kids = a ++ b := by
  have happend : t.childTables (ms ++ ms') = (do
      let a ← t.childTables ms
      let b ← t.childTables ms'
      pure (a ++ b)) := List.mapM_append
  rw [happend] at h
  obtain ⟨a, ha, h⟩ := reads_of_bind (childTables_keeps id t ms) h
  obtain ⟨b, hb, h⟩ := reads_of_bind (childTables_keeps id t ms') h
  exact ⟨a, b, ha, hb, by cases h; rfl⟩

/-- R303, mode 1. -/
theorem jexpContext_spec {t : Tree} {n : Nat} {r r1 : RelSt} (hr1 : r1 = (counts (t.node n).ctxt 12 32 (32 + 4 * t.h) r).2)
    {x : Relation} {down kids : List (Nat × Table)} {out : Table} (hx : Reads (readTile t n) r1 x) (hroot : n = t.root → down = [])
    (hdown : n ≠ t.root → ∃ d, Reads (t.table (t.node n).dnt) r1 d ∧ down = [((t.node n).ckc, d)])
    (hkids : Reads (t.childTables (t.children n)) r1 kids) (hout : Reads (t.output (t.node n).ctxt) r1 out) (hrows : x.rows ≤ out.cap) :
    jexpContext t n r = (do
      wrN (out.va + 10) 2 t.ring
      (List.range x.rows).forM (contextRow t x down kids out)
      wrN out.va 4 x.rows) r1 := by
  obtain ⟨a, b, ha, hb, rfl⟩ := childTables_split
    (show Reads (t.childTables ((t.children n).take (if n = t.root then 1 else 0) ++ (t.children n).drop (if n = t.root then 1 else 0))) r1 kids
      by rwa [List.take_append_drop])
  subst hr1
  unfold jexpContext
  simp only [contextRows_eq, ← List.range_eq_range']
  rw [counts_then]
  by_cases hn : n = t.root
  · rw [hroot hn]
    simp only [if_pos hn] at ha hb ⊢
    rw [pure_bind, bind_of_reads ha, bind_of_reads hx, bind_of_reads hb, bind_of_reads hout, need_of (by simpa using hrows), pure_bind]
  · obtain ⟨d, hd, rfl⟩ := hdown hn
    simp only [if_neg hn] at ha hb ⊢
    rw [bind_of_reads hd, pure_bind, bind_of_reads ha, bind_of_reads hx, bind_of_reads hb, bind_of_reads hout, need_of (by simpa using hrows),
      pure_bind]

/-! ### Gradients (R120, R303) -/

/-- R120: the gradient of a row of a relation. -/
def gradientRow (t : Tree) (x : Relation) (ctx : Table) (out : Word) (i : Nat) : RM Unit := do
  let e ← ctx.lookup t.sq (BitVec.ofNat 64 i)
  let p ← x.part i
  wrWords (out + BitVec.ofNat 64 (4 * t.h * i)) (pack32 (gradient e.c p e.s))
  written

theorem gradientRows_eq (t : Tree) (x : Relation) (ctx : Table) (out : Word) :
    ∀ n i, gradientRows t x ctx out n i = (List.range' i n).forM (gradientRow t x ctx out)
  | 0, _ => rfl
  | n + 1, i => by
    rw [gradientRows, gradientRows_eq t x ctx out n (i + 1)]
    show _ = (gradientRow t x ctx out i >>= fun _ => _)
    simp only [gradientRow, bind_assoc]

theorem gradientRow_apply {t : Tree} {x : Relation} {ctx : Table} {out : Word} {i : Nat} {r : RelSt} {e : Elem} {p : List Word}
    (he : Reads (ctx.lookup t.sq (BitVec.ofNat 64 i)) r e) (hp : Reads (x.part i) r p) : gradientRow t x ctx out i r = (do
      wrWords (out + BitVec.ofNat 64 (4 * t.h * i)) (pack32 (gradient e.c p e.s))
      written) r := by
  rw [gradientRow, bind_of_reads he, bind_of_reads hp]

/-- R303, mode 2. -/
theorem jexpGradient_spec {t : Tree} {n : Nat} {r r1 : RelSt} (hr1 : r1 = { r with cnt := none, res := 0, slots := (0, 0, 0) })
    {x : Relation} {ctx : Table} (hx : Reads (readTile t n) r1 x) (hctx : Reads (t.table (t.node n).ctxt) r1 ctx) (hrows : x.rows ≤ ctx.cap)
    (hgrad : (t.node n).grad.toNat % 64 = 0) : jexpGradient t n r =
    (List.range x.rows).forM (gradientRow t x ctx (t.node n).grad) (rowsAt (t.node n).grad (4 * t.h) x.rows r1).2 := by
  subst hr1
  unfold jexpGradient
  rw [bind_of_ok (relModify_apply _ r), bind_of_reads hctx, bind_of_reads hx, need_of (by simpa using hrows), pure_bind, aligned_of hgrad,
    pure_bind, rowsAt_then, gradientRows_eq, List.range_eq_range']

end Sys2Proof.Relations
end

