-- ==== Sys2Proof/Proofs/RelationalTuples.lean ====
section
/-! SUPPORT. Sys2Proof/Proofs/RelationalTuples.lean: the tuples of a join in their order, what jenum writes of them, and the rows into which jgs groups
gradients (R124, R125, R304, R305). -/

namespace Sys2Proof.Relations
open Sys2Proof.Machine

/-! ### Tuples (R124) -/

theorem allTuples_concat (t : Tree) (keys : Sparse (List (List Word))) (order : List Nat) (n : Nat) : allTuples t keys (order ++ [n]) =
    (allTuples t keys order).flatMap (fun p => (tupleRows t keys n p).map (Sparse.put p n)) := by
  rw [allTuples, List.foldl_append]; rfl

/-- Every node of an order but the root comes after its parent. -/
def Parented (t : Tree) (order : List Nat) : Prop := ∀ pre n post, order = pre ++ n :: post → n ≠ t.root → (t.node n).parent ∈ pre

theorem Parented.init {t : Tree} {order : List Nat} {n : Nat} (h : Parented t (order ++ [n])) : Parented t order := fun pre m post he =>
  h pre m (post ++ [n]) (by rw [he, List.append_assoc]; rfl)

theorem Parented.last {t : Tree} {order : List Nat} {n : Nat} (h : Parented t (order ++ [n])) (hn : n ≠ t.root) : (t.node n).parent ∈ order :=
  h order n [] rfl hn

section
variable {t : Tree} {keys : Sparse (List (List Word))}

/-- The key of row i of node n in column c. -/
def keyAt (keys : Sparse (List (List Word))) (n i c : Nat) : Word := ((Sparse.get [] keys n).getD i []).getD c 0

theorem mem_tupleRows {n i : Nat} {p : Sparse Nat} : i ∈ tupleRows t keys n p ↔ i < (Sparse.get [] keys n).length ∧
    (n ≠ t.root → keyAt keys n i (t.node n).ckc = keyAt keys (t.node n).parent (Sparse.get 0 p (t.node n).parent) (t.node n).pkc) := by
  unfold tupleRows
  by_cases hn : n = t.root
  · simp [hn]
  · simp only [hn, if_false, List.mem_filter, List.mem_range, decide_eq_true_eq, ne_eq, not_false_eq_true, true_implies]
    rfl

theorem tupleRows_ascending (n : Nat) (p : Sparse Nat) : (tupleRows t keys n p).Pairwise (· < ·) := by
  unfold tupleRows
  split
  · exact List.pairwise_lt_range
  · exact List.Pairwise.filter _ List.pairwise_lt_range

/-- R124: the tuples of the join are the choices of a row of each node whose keys agree. -/
theorem allTuples_iff (f : Nat → Nat) {order : List Nat} (hnodup : order.Nodup) (hparent : Parented t order) :
    (∃ p ∈ allTuples t keys order, ∀ n ∈ order, Sparse.get 0 p n = f n) ↔ ∀ n ∈ order, f n < (Sparse.get [] keys n).length ∧
      (n ≠ t.root → keyAt keys n (f n) (t.node n).ckc = keyAt keys (t.node n).parent (f (t.node n).parent) (t.node n).pkc) := by
  induction order using List.reverseRecOn with
  | nil => simp [allTuples]
  | append_singleton order n ih =>
    obtain ⟨hnd, -, hnot⟩ := List.nodup_append.mp hnodup
    have hnot : n ∉ order := fun h => hnot n h n (List.mem_singleton.mpr rfl) rfl
    have hih := ih hnd hparent.init
    have hrows {p : Sparse Nat} (hp : ∀ m ∈ order, Sparse.get 0 p m = f m) : f n ∈ tupleRows t keys n p ↔
        f n < (Sparse.get [] keys n).length ∧
        (n ≠ t.root → keyAt keys n (f n) (t.node n).ckc = keyAt keys (t.node n).parent (f (t.node n).parent) (t.node n).pkc) := by
      rw [mem_tupleRows]
      refine and_congr_right fun _ => imp_congr_right fun hn => ?_
      rw [hp _ (hparent.last hn)]
    have hget {p : Sparse Nat} {i m : Nat} (hm : m ∈ order) : Sparse.get 0 (Sparse.put p n i) m = Sparse.get 0 p m := by
      rw [Sparse.get_put, if_neg (ne_of_mem_of_not_mem hm hnot)]
    rw [List.forall_mem_append, List.forall_mem_singleton, ← hih, allTuples_concat]
    constructor
    · rintro ⟨q, hq, hval⟩
      obtain ⟨p, hp, hq⟩ := List.mem_flatMap.mp hq
      obtain ⟨i, hi, rfl⟩ := List.mem_map.mp hq
      have hold : ∀ m ∈ order, Sparse.get 0 p m = f m := fun m hm => by rw [← hval m (List.mem_append_left _ hm), hget hm]
      have hnew : i = f n := by
        have := hval n (List.mem_append_right _ (List.mem_singleton.mpr rfl))
        rwa [Sparse.get_put, if_pos rfl] at this
      exact ⟨⟨p, hp, hold⟩, (hrows hold).mp (hnew ▸ hi)⟩
    · rintro ⟨⟨p, hp, hold⟩, hn⟩
      refine ⟨Sparse.put p n (f n), List.mem_flatMap.mpr ⟨p, hp, List.mem_map.mpr ⟨f n, (hrows hold).mpr hn, rfl⟩⟩, fun m hm => ?_⟩
      rcases List.mem_append.mp hm with hm | hm
      · rw [hget hm, hold m hm]
      · rw [List.mem_singleton.mp hm, Sparse.get_put, if_pos rfl]

/-- Lists of one length that are in order are so with anything after them. -/
theorem append_lt_append {x y : Nat} : ∀ {l l' : List Nat}, l.length = l'.length → l < l' → l ++ [x] < l' ++ [y]
  | [], [], _, h => absurd h (List.lt_irrefl _)
  | a :: l, b :: l', hlen, h => by
    rw [List.cons_append, List.cons_append, List.cons_lt_cons_iff]
    rcases List.cons_lt_cons_iff.mp h with hab | ⟨rfl, hl⟩
    · exact .inl hab
    · exact .inr ⟨rfl, append_lt_append (Nat.succ_injective hlen) hl⟩

theorem append_lt_append_last {x y : Nat} (h : x < y) : ∀ l : List Nat, l ++ [x] < l ++ [y]
  | [] => List.cons_lt_cons_iff.mpr (.inl h)
  | _ :: l => List.cons_lt_cons_iff.mpr (.inr ⟨rfl, append_lt_append_last h l⟩)

/-- R124: the tuples are in the order of their rows, node by node. -/
theorem allTuples_ascending {order : List Nat} (hnodup : order.Nodup) :
    (allTuples t keys order).Pairwise (fun p q => order.map (Sparse.get 0 p) < order.map (Sparse.get 0 q)) := by
  induction order using List.reverseRecOn with
  | nil => exact List.pairwise_singleton ..
  | append_singleton order n ih =>
    obtain ⟨hnd, -, hnot⟩ := List.nodup_append.mp hnodup
    have hnot : n ∉ order := fun h => hnot n h n (List.mem_singleton.mpr rfl) rfl
    have hmap (p : Sparse Nat) (i : Nat) : (order ++ [n]).map (Sparse.get 0 (Sparse.put p n i)) = order.map (Sparse.get 0 p) ++ [i] := by
      rw [List.map_append, List.map_singleton, Sparse.get_put, if_pos rfl]
      congr 1
      exact List.map_congr_left fun m hm => by rw [Sparse.get_put, if_neg (ne_of_mem_of_not_mem hm hnot)]
    rw [allTuples_concat, List.pairwise_flatMap]
    refine ⟨fun p _ => List.pairwise_map.mpr ((tupleRows_ascending n p).imp fun hlt => ?_), (ih hnd).imp fun hlt q hq q' hq' => ?_⟩
    · rw [hmap, hmap]
      exact append_lt_append_last hlt _
    · obtain ⟨i, -, rfl⟩ := List.mem_map.mp hq
      obtain ⟨i', -, rfl⟩ := List.mem_map.mp hq'
      rw [hmap, hmap]
      exact append_lt_append (by rw [List.length_map, List.length_map]) hlt

end

/-! ### jenum (R304) -/

/-- R304: tuple i of those that are written. -/
def tupleStep (tuples : Word) (nodes : Nat) (out : List (Sparse Nat)) (i : Nat) : RM Unit := do
  (List.range nodes).forM (fun j => wrN (tuples + BitVec.ofNat 64 (0x20 + 4 * nodes * i + 4 * j)) 4 (Sparse.get 0 (out.getD i []) j))
  written

/-- R304: the tuples that fit from the cursor on are written, then NEXT and TUPLES. -/
theorem jenum_spec (tuples tree : Word) (r : RelSt) : ∃ r1 : RelSt, r1.st = r.st ∧ r1.c = r.c ∧ r1.res = r.res ∧ r1.fl = r.fl ∧
    ∀ (t : Tree) (d : TupleTile) (x : Nat → Relation) (k : Nat → List (List Word)), Reads (readTree tree (fun _ => true) 0x12) r1 t →
      let order := t.preorder t.nodes.length t.root
      Reads (readTuples tuples t.nodes.length) r1 d → (∀ n ∈ order, Reads (readTile t n) r1 (x n) ∧ Reads (x n).keys r1 (k n)) →
      let rest := (allTuples t (order.foldl (fun m n => Sparse.put m n (k n)) []) order).drop d.cursor.toNat
      let out := rest.take d.cap
      jenumBody tuples tree r = (do
        (List.range out.length).forM (tupleStep tuples t.nodes.length out)
        wr8 tuples 0x18 (if out = [] ∨ rest.length = out.length then BitVec.allOnes 64 else d.cursor + BitVec.ofNat 64 out.length)
        wrN tuples 4 out.length) r1 := by
  obtain ⟨m, hm⟩ := peekN_reads (tuples + 4) 2 r
  obtain ⟨c, u, hc⟩ := counts_spec tuples 8 0x20 (4 * m) r
  refine ⟨{ r with cnt := c, slots := u, tuples := true }, rfl, rfl, rfl, rfl, ?_⟩
  intro t d x k ht order hd h rest out
  have hxs := reads_mapM (f := fun n => do
      let x ← readTile t n
      pure (n, x)) (g := fun n => (n, x n)) (l := order) fun n hn => reads_bind (h n hn).1 (reads_pure _ _)
  have hks := reads_mapM (f := fun e : Nat × Relation => do
      let k ← e.2.keys
      pure (e.1, k)) (g := fun e => (e.1, k e.1)) (l := order.map (fun n => (n, x n))) fun e he => by
    obtain ⟨n, hn, rfl⟩ := List.mem_map.mp he
    exact reads_bind (h n hn).2 (reads_pure _ _)
  unfold jenumBody
  rw [bind_of_reads hm, bind_of_ok hc, bind_of_ok (relModify_apply _ _), bind_of_reads ht, bind_of_reads hd, bind_of_reads hxs,
    bind_of_reads hks]
  simp only [forM_zip_range _ ([] : Sparse Nat), Bool.or_eq_true, List.isEmpty_iff, decide_eq_true_eq, List.foldl_map]
  rfl

/-! ### jgs (R125, R305) -/

section
variable {c tree desc : Word} {r : RelSt} {t : Tree} {ws : List Word} {x : Relation}
  (ht : Reads (readTree tree (fun nodes => c.toNat % 256 < nodes && windowExpOk (c.extractLsb' 32 32).toInt) 0x0E) r t)
  (hws : Reads (relDesc desc) r ws) (hgrp : (ws.getD 2 0).toNat % 8 = 0) (hx : Reads (readTile t (c.toNat % 256)) r x)
include ht hws hgrp hx

/-- R305: jgs of the tuples of a tile. -/
theorem jgsBody_tuples (hc : c.getLsbD 10 = false) (hgb : (ws.getD 1 0).toNat % 4 = 0) {d : TupleTile}
    (hd : Reads (readTuples (ws.getD 0 0) t.nodes.length) r d) : jgsBody c tree desc r = (List.range d.tuples).forM
      (jgsTuple t x.rows (c.toNat % 256) (c.extractLsb' 32 32).toInt (ws.getD 0 0) (ws.getD 1 0) (ws.getD 2 0)) r := by
  unfold jgsBody
  simp only [node_field]
  rw [bind_of_reads ht, bind_of_reads hws, hc, if_neg Bool.false_ne_true, bind_of_reads hd, aligned_of hgb, pure_bind, aligned_of hgrp,
    pure_bind, bind_of_reads hx]

/-- R305: the finishing form. -/
theorem jgsBody_finish (hc : c.getLsbD 10 = true) (hgrad : (t.node (c.toNat % 256)).grad.toNat % 64 = 0) : jgsBody c tree desc r =
    (List.range x.rows).forM (jgsRow t (c.extractLsb' 32 32).toInt (t.node (c.toNat % 256)).grad (ws.getD 2 0))
      (rowsAt (t.node (c.toNat % 256)).grad (4 * t.h) x.rows r).2 := by
  unfold jgsBody
  simp only [node_field]
  rw [bind_of_reads ht, bind_of_reads hws, hc, if_pos rfl, bind_of_reads hx, aligned_of hgrad, pure_bind, aligned_of hgrp, pure_bind,
    rowsAt_then]

end

section
variable {t : Tree} {rows n : Nat} {e : Int} {tt gb grp : Word} {i m : Nat} {r : RelSt}
  (hm : Reads (rdN (tt + BitVec.ofNat 64 (0x20 + 4 * t.nodes.length * i + 4 * n)) 4) r m)
include hm

theorem jgsTuple_outside (h : rows ≤ m) : jgsTuple t rows n e tt gb grp i r = (.error (cRUF, 0x0E), r) := by
  unfold jgsTuple
  rw [bind_of_reads hm]
  exact bind_of_error (need_of_not (by simpa using h) _ _)

/-- R125: the gradients of a tuple join its row, and raise the flags of their conversions. -/
theorem jgsTuple_inside (h : m < rows) {gs : List Nat} {old : List Word} (hlen : gs.length = t.h)
    (hgs : ∀ j < t.h, Reads (rdN (gb + BitVec.ofNat 64 (4 * t.h * i + 4 * j)) 4) r (gs.getD j 0))
    (hold : Reads (rdWords (grp + BitVec.ofNat 64 (8 * t.h * m)) t.h) r old) : jgsTuple t rows n e tt gb grp i r = (do
      wrWords (grp + BitVec.ofNat 64 (8 * t.h * m))
        ((List.range t.h).map (fun j => old.getD j 0 + BitVec.ofInt 64 (windowOf 64 e (num32 (BitVec.ofNat 32 (gs.getD j 0)))).1))
      gs.forM (fun g => raiseRel (windowOf 64 e (num32 (BitVec.ofNat 32 g))).2)
      written) r := by
  have hread := reads_mapM_range (f := fun j => rdN (gb + BitVec.ofNat 64 (4 * t.h * i + 4 * j)) 4) (r := r) 0 (l := gs) fun j hj => hgs j (hlen ▸ hj)
  rw [hlen] at hread
  have hsum : ((old.zip (gs.map (fun g => windowOf 64 e (num32 (BitVec.ofNat 32 g))))).map (fun p => p.1 + BitVec.ofInt 64 p.2.1)) =
      (List.range t.h).map (fun j => old.getD j 0 + BitVec.ofInt 64 (windowOf 64 e (num32 (BitVec.ofNat 32 (gs.getD j 0)))).1) := by
    have holen := rdWords_length hold
    apply List.ext_getElem
    · simp [holen, hlen]
    · intro j h1 h2
      have hj : j < t.h := by simpa using h2
      simp [List.getD_eq_getElem?_getD, holen, hlen, hj]
  unfold jgsTuple
  rw [bind_of_reads hm, need_of (by simpa using h), pure_bind]
  simp only
  rw [bind_of_reads hread, bind_of_reads hold, hsum]
  simp only [List.forM_eq_forM, List.forM_map]

end

/-- R89, R305: a row of exact windows becomes a row of gradients. -/
theorem jgsRow_apply {t : Tree} {e : Int} {grad grp : Word} {i : Nat} {r : RelSt} {vs : List Word}
    (h : Reads (rdWords (grp + BitVec.ofNat 64 (8 * t.h * i)) t.h) r vs) : jgsRow t e grad grp i r = (do
      wrWords (grad + BitVec.ofNat 64 (4 * t.h * i)) (pack32 (vs.map (fun (v : Word) => (windowOut 0 v.toInt e).1)))
      vs.forM (fun (v : Word) => raiseRel (windowOut 0 v.toInt e).2)
      written) r := by
  unfold jgsRow
  rw [bind_of_reads h]
  simp only [List.forM_eq_forM, List.forM_map, List.map_map]
  rfl

end Sys2Proof.Relations
end

