-- ==== Sys2Proof/Proofs/RelationalDeltas.lean ====
section
/-! SUPPORT. Sys2Proof/Proofs/RelationalDeltas.lean: what the levels of a delta add to the up tables and pass upward (R128, R306, R389). -/

namespace Sys2Proof.Relations
open Sys2Proof.Machine

/-! ### The entries of an up table that a delta meets (R128) -/

/-- An entry, or none, after a delta, or none, for its key. -/
def merged (o : Option UpEntry) : Option Elem → Option UpEntry
  | none => o
  | some e => some ((o.map (fun y => y.1.add e)).getD e, none)

/-- The delta that a list of them has for a key. -/
def deltaOf (live : List (Word × Elem)) (key : Nat) : Option Elem := (live.find? (fun z => z.1.toNat = key)).map (·.2)

theorem deltaOf_cons (a : Word × Elem) (live : List (Word × Elem)) (key : Nat) :
    deltaOf (a :: live) key = if a.1.toNat = key then some a.2 else deltaOf live key := by
  unfold deltaOf
  rw [List.find?_cons]
  by_cases h : a.1.toNat = key <;> simp [h]

theorem addDelta_holds {b : Sparse UpEntry} {f : Nat → Option UpEntry} (h : Holds b f) (k : Word) (e : Elem) (lanes : Nat) :
    Holds (addDelta b k e lanes) (fun key => if key = k.toNat then merged (f key) (some e) else f key) := by
  unfold addDelta
  rw [holds_has h, holds_get h]
  cases hf : f k.toNat with
  | none =>
    refine holds_congr (holds_put h k.toNat (e, none)) fun key => ?_
    split
    · rename_i hk; rw [hk, hf]; rfl
    · rfl
  | some y =>
    refine holds_congr (holds_put h k.toNat (y.1.add e, none)) fun key => ?_
    split
    · rename_i hk; rw [hk, hf]; rfl
    · rfl

/-- Deltas of different keys each meet the entry of their own. -/
theorem addDeltas_holds (lanes : Nat) : ∀ {live : List (Word × Elem)} {b : Sparse UpEntry} {f : Nat → Option UpEntry},
    live.Pairwise (fun x y => x.1.toNat < y.1.toNat) → Holds b f →
    Holds (live.foldl (fun b e => addDelta b e.1 e.2 lanes) b) (fun key => merged (f key) (deltaOf live key))
  | [], _, _, _, h => h
  | a :: live, b, f, hl, h => by
    obtain ⟨habove, hrest⟩ := List.pairwise_cons.mp hl
    refine holds_congr (addDeltas_holds lanes (live := live) hrest (addDelta_holds h a.1 a.2 lanes)) fun key => ?_
    rw [deltaOf_cons]
    by_cases hk : key = a.1.toNat
    · have hnone : deltaOf live key = none := by
        rw [deltaOf, List.find?_eq_none.mpr (fun e he => ?_)]
        · rfl
        · have := habove e he
          simp only [decide_eq_true_eq]
          omega
      rw [if_pos hk, if_pos hk.symm, hnone]
      rfl
    · rw [if_neg hk, if_neg (Ne.symm hk)]

/-! ### The deltas of a level (R128) -/

/-- The entries of a delta table that are not EMPTY. -/
def liveOf (ds : List (Word × Bool × Elem)) : List (Word × Elem) := ds.filterMap (fun e => if e.2.1 then none else some (e.1, e.2.2))

theorem liveOf_ascending {ds : List (Word × Bool × Elem)} (h : ds.Pairwise (fun x y => x.1.toNat < y.1.toNat)) :
    (liveOf ds).Pairwise (fun x y => x.1.toNat < y.1.toNat) := by
  refine List.Pairwise.filterMap _ (fun x y hxy u hu v hv => ?_) h
  simp only [Option.ite_none_left_eq_some, Option.some.injEq] at hu hv
  rw [← hu.2, ← hv.2]
  exact hxy

theorem deltaOf_liveOf (key : Nat) : ∀ ds : List (Word × Bool × Elem),
    deltaOf (liveOf ds) key = (ds.find? (fun z => z.1.toNat = key && !z.2.1)).map (·.2.2)
  | [] => rfl
  | (k, em, e) :: ds => by
    have ih := deltaOf_liveOf key ds
    rw [List.find?_cons]
    cases em with
    | true =>
      rw [Bool.not_true, Bool.and_false]
      exact ih
    | false =>
      rw [show liveOf ((k, false, e) :: ds) = (k, e) :: liveOf ds from rfl, deltaOf_cons, ih]
      by_cases hk : k.toNat = key <;> simp [hk]

/-- The deltas of a level as a table by number. -/
theorem deltas_hold {live : List (Word × Elem)} (h : live.Pairwise (fun x y => x.1.toNat < y.1.toNat)) :
    Holds (live.map (fun e => (e.1.toNat, e.2))) (deltaOf live) := by
  refine ⟨List.pairwise_map.mpr h, fun key => ?_⟩
  rw [List.find?_map, Option.map_map]
  rfl

/-! ### The entries before the deltas (R128, R389) -/

/-- The entries of an up table with the words that they hold. -/
def upMap (us : List (Word × Bool × Elem)) (kept : List (List Word)) : Sparse UpEntry :=
  (us.zip kept).map (fun z => (z.1.1.toNat, (z.1.2.2, some z.2)))

section
variable {us : List (Word × Bool × Elem)} {kept : List (List Word)} (hlen : kept.length = us.length)
include hlen

theorem upMap_keys : (upMap us kept).map (·.1) = us.map (fun z => z.1.toNat) := by
  have hfst := List.map_fst_zip (l₁ := us) (l₂ := kept) (by omega)
  rw [upMap, List.map_map]
  conv_rhs => rw [← hfst, List.map_map]
  rfl

theorem upMap_holds (h : us.Pairwise (fun x y => x.1.toNat < y.1.toNat)) : Holds (upMap us kept) (fun key =>
    (((us.zip kept).find? (fun z => z.1.1.toNat = key)).map (fun z => (z.1.2.2, z.2))).map (fun x => (x.1, some x.2))) := by
  refine ⟨?_, fun key => ?_⟩
  · refine (List.pairwise_map (f := fun z : Nat × UpEntry => z.1) (R := (· < ·))).mp ?_
    rw [upMap_keys hlen]
    exact List.pairwise_map.mpr h
  · rw [upMap, List.find?_map, Option.map_map]
    beta_reduce
    rw [Option.map_map]
    rfl

theorem upEntries_reads {up : Table} {sq : Bool} {r : RelSt} (hus : Reads (up.all sq false up.entries) r us)
    (hkept : ∀ i (h : i < us.length), Reads (up.kept i us[i].1 us[i].2.1) r (kept.getD i [])) :
    Reads (up.upEntries sq) r (upMap us kept) := by
  have hall := reads_mapM (r := r) (f := fun e : Nat × Word × Bool × Elem => do
      let ws ← up.kept e.1 e.2.1 e.2.2.1
      pure (e.2.1.toNat, (e.2.2.2, some ws))) (g := fun e => (e.2.1.toNat, (e.2.2.2, some (kept.getD e.1 []))))
    (l := (List.range us.length).zip us) fun e he => by
      obtain ⟨i, hi, rfl⟩ := List.getElem_of_mem he
      have hi : i < us.length := by simpa using hi
      simp only [List.getElem_zip, List.getElem_range]
      exact reads_bind (hkept i hi) (reads_pure _ _)
  have hmap : upMap us kept = ((List.range us.length).zip us).map (fun e => (e.2.1.toNat, (e.2.2.2, some (kept.getD e.1 [])))) := by
    apply List.ext_getElem
    · simp [upMap, hlen]
    · intro i h1 h2
      have hi : i < us.length := by simpa using h2
      simp [upMap, List.getD_eq_getElem?_getD, hlen, hi]
  rw [hmap]
  exact reads_bind hus hall

end

/-! ### The delta of the parent's level (R128) -/

theorem reads_foldlM {α β : Type} {r : RelSt} {f : β → α → RM β} {g : β → α → β} : ∀ {l : List α} {b : β},
    (∀ a ∈ l, ∀ b, Reads (f b a) r (g b a)) → Reads (l.foldlM f b) r (l.foldl g b)
  | [], _, _ => reads_pure _ _
  | a :: l, b, h => by
    rw [List.foldlM_cons]
    exact reads_bind (h a (List.mem_cons_self ..) b) (reads_foldlM fun c hc => h c (List.mem_cons_of_mem _ hc))

section
variable {t : Tree} {n : Nat} {x : Relation} {r : RelSt} {d : Table} {dm : Build} {del : Nat → Option Elem} {kt : Nat → Table}
  {p : Nat → List Word} {k k' : Nat → Word} {l : Nat → Nat → Elem} (hdm : Holds dm del)

/-- The element that a row passes upward: that of its own part times the delta and the lookups of the other children. -/
def passed (t : Tree) (n : Nat) (del : Nat → Option Elem) (p : Nat → List Word) (k : Nat → Word) (l : Nat → Nat → Elem) (i : Nat) : Elem :=
  (t.children (t.node n).parent).foldl (fun a m =>
    a.mul t.sq (if m = n then (del (k i).toNat).getD (Elem.zero t.h) else l m i)) (Elem.leaf t.sq (p i))

/-- What the rows of the parent's relation answer. -/
structure ParentRow (t : Tree) (n : Nat) (x : Relation) (r : RelSt) (del : Nat → Option Elem) (kt : Nat → Table) (p : Nat → List Word)
    (k k' : Nat → Word) (l : Nat → Nat → Elem) (i : Nat) : Prop where
  visit : Reads (x.visit i) r ()
  key : Reads (x.key i (t.node n).pkc) r (k i)
  part : (del (k i).toNat).isSome = true → Reads (x.part i) r (p i)
  up : (del (k i).toNat).isSome = true →
    if (t.node n).parent = t.root then k' i = 0 else Reads (x.key i (t.node (t.node n).parent).ckc) r (k' i)
  look : (del (k i).toNat).isSome = true → ∀ m ∈ t.children (t.node n).parent, m ≠ n →
    ∃ c, Reads (x.key i (t.node m).pkc) r c ∧ Reads ((kt m).lookup t.sq c) r (l m i)

include hdm

theorem deltaBuild_step {i : Nat} (h : ParentRow t n x r del kt p k k' l i) {kids : List (Nat × Nat × Table)}
    (hkids : kids = (t.children (t.node n).parent).map (fun m => (m, (t.node m).pkc, kt m))) (m : Nat) (b : Build) :
    deltaBuild t x n d (t.node n).pkc dm kids (m + 1) i b r = deltaBuild t x n d (t.node n).pkc dm kids m (i + 1)
      (if (del (k i).toNat).isSome then b.join (k' i) (passed t n del p k l i) else b) r := by
  rw [deltaBuild, bind_of_reads h.visit, bind_of_reads h.key, holds_has hdm]
  cases hdel : (del (k i).toNat).isSome with
  | false => rfl
  | true =>
    have hfold : Reads (kids.foldlM (fun e m' => do
        if m'.1 = n then pure (e.mul t.sq (Sparse.get (Elem.zero t.h) dm (k i).toNat))
        else do
          let key ← x.key i m'.2.1
          let u ← m'.2.2.lookup t.sq key
          pure (e.mul t.sq u)) (Elem.leaf t.sq (p i))) r (passed t n del p k l i) := by
      have hall := reads_foldlM (r := r) (l := kids) (b := Elem.leaf t.sq (p i)) (f := fun e m' => do
          if m'.1 = n then pure (e.mul t.sq (Sparse.get (Elem.zero t.h) dm (k i).toNat))
          else do
            let key ← x.key i m'.2.1
            let u ← m'.2.2.lookup t.sq key
            pure (e.mul t.sq u)) (g := fun a m' => a.mul t.sq (if m'.1 = n then (del (k i).toNat).getD (Elem.zero t.h) else l m'.1 i))
        fun m' hm e => by
          rw [hkids] at hm
          obtain ⟨m, hmem, rfl⟩ := List.mem_map.mp hm
          by_cases hn : m = n
          · simp only [hn, if_true, holds_get hdm]
            exact reads_pure _ _
          · obtain ⟨c, hc, hl⟩ := h.look hdel m hmem hn
            simp only [hn, if_false]
            exact reads_bind hc (reads_bind hl (reads_pure _ _))
      rw [hkids, List.foldl_map] at hall
      rw [hkids]
      exact hall
    rw [Bool.not_true, if_neg Bool.false_ne_true, bind_of_reads (h.part hdel), bind_of_reads hfold]
    have hup := h.up hdel
    split
    · rename_i hp
      rw [if_pos hp] at hup
      rw [hup]; rfl
    · rename_i hp
      rw [if_neg hp] at hup
      rw [bind_of_reads hup]; rfl

theorem deltaBuild_reads {kids : List (Nat × Nat × Table)}
    (hkids : kids = (t.children (t.node n).parent).map (fun m => (m, (t.node m).pkc, kt m))) : ∀ {m i : Nat} (b : Build),
    (∀ j, i ≤ j → j < i + m → ParentRow t n x r del kt p k k' l j) → Reads (deltaBuild t x n d (t.node n).pkc dm kids m i b) r
      (joinAll k' (passed t n del p k l) ((List.range' i m).filter (fun j => (del (k j).toNat).isSome)) b)
  | 0, _, _, _ => reads_pure _ _
  | m + 1, i, b, h => by
    have hrest := deltaBuild_reads hkids (m := m) (i := i + 1) (if (del (k i).toNat).isSome then b.join (k' i) (passed t n del p k l i) else b)
      fun j h1 h2 => h j (by omega) (by omega)
    unfold Reads
    rw [deltaBuild_step hdm (h i (Nat.le_refl i) (by omega)) hkids, hrest, List.range'_succ, List.filter_cons]
    split <;> rfl

end

/-! ### A level (R128, R389) -/

theorem readTable_lanes {va : Word} {h : Nat} {kind1 delta : Option Bool} {r r' : RelSt} {t : Table}
    (hread : readTable va (some h) kind1 delta r = (.ok t, r')) : t.h = h := by
  obtain ⟨_, _, -, hread⟩ := bind_eq_ok hread
  obtain ⟨ws, _, -, hread⟩ := bind_eq_ok hread
  obtain ⟨_, _, -, hread⟩ := bind_eq_ok hread
  obtain ⟨_, _, hneed, hread⟩ := bind_eq_ok hread
  obtain ⟨_, _, -, hread⟩ := bind_eq_ok hread
  obtain ⟨_, _, -, hread⟩ := bind_eq_ok hread
  have hlanes := of_need hneed
  simp only [Option.all_some, Bool.and_eq_true, decide_eq_true_eq] at hlanes
  cases hread
  exact hlanes.1.1.1.1.symm

theorem kept_reads {up : Table} {r : RelSt} {i : Nat} {key : Word} {empty : Bool} {ws : List Word}
    (h : if empty then ws = [key, 0, 0x100000000, 0] ++ List.replicate (up.h / 2) 0 else Reads (rdWords (up.entry i) (up.esize / 8)) r ws) :
    Reads (up.kept i key empty) r ws := by
  unfold Table.kept
  cases empty with
  | true => rw [if_pos rfl] at h ⊢; rw [h]; exact reads_pure _ _
  | false => rw [if_neg Bool.false_ne_true] at h ⊢; exact h

section
variable {t : Tree} {n : Nat} {d up : Table} {w : Word} {r : RelSt} {ds us : List (Word × Bool × Elem)} {kept : List (List Word)}
  {other : Option Word} (hup : Reads (t.table (t.node n).upt) r up) (hds : Reads (d.all t.sq false d.entries) r ds)
  (hus : Reads (up.upEntries t.sq) r (upMap us kept)) (hlen : kept.length = us.length)

/-- The entries of the up table after the deltas of a level. -/
def afterDeltas (t : Tree) (ds us : List (Word × Bool × Elem)) (kept : List (List Word)) : Sparse UpEntry :=
  (liveOf ds).foldl (fun b e => addDelta b e.1 e.2 t.h) (upMap us kept)

include hup hds hus hlen

theorem deltaLevel_root (hn : n = t.root) (hcap : (afterDeltas t ds us kept).length ≤ up.cap) : deltaLevel t n d w other r = (do
    storeUp t up (us.map (fun z : Word × Bool × Elem => z.1.toNat)) (afterDeltas t ds us kept)
    written
    pure none) r := by
  unfold deltaLevel
  rw [bind_of_reads hup, if_pos hn, pure_bind]
  beta_reduce
  rw [bind_of_reads hds, bind_of_reads hus]
  rw [needRoom_of (by simpa [afterDeltas, liveOf] using hcap), pure_bind, upMap_keys hlen]
  rfl

theorem deltaLevel_inner (hn : n ≠ t.root) (hcap : (afterDeltas t ds us kept).length ≤ up.cap)
    (hapart : ∀ w', other = some w' → Reads (disjointTables t d w w') r ()) {x : Relation} {wt : Table} {kt : Nat → Table} {nb : Build}
    (hx : Reads (readTile t (t.node n).parent) r x)
    (hkt : ∀ m ∈ t.children (t.node n).parent, Reads (if m = n then pure up else t.table (t.node m).upt) r (kt m))
    (hwt : Reads (t.output w) r wt)
    (hnb : Reads (deltaBuild t x n d (t.node n).pkc ((liveOf ds).map (fun e => (e.1.toNat, e.2)))
      ((t.children (t.node n).parent).map (fun m => (m, (t.node m).pkc, kt m))) x.rows 0 []) r nb) : deltaLevel t n d w other r = (do
    wt.store t true (pure ()) nb
    storeUp t up (us.map (fun z : Word × Bool × Elem => z.1.toNat)) (afterDeltas t ds us kept)
    written
    let w' ← t.table w true
    pure (some ((t.node n).parent, w'))) r := by
  have hkids := reads_mapM (r := r) (l := t.children (t.node n).parent) (f := fun m => do
      let u ← if m = n then pure up else t.table (t.node m).upt
      pure (m, (t.node m).pkc, u)) (g := fun m => (m, (t.node m).pkc, kt m)) fun m hm => by
    have hread := hkt m hm
    by_cases h : m = n
    · simp only [if_pos h] at hread ⊢
      exact reads_bind hread (reads_pure _ _)
    · simp only [if_neg h] at hread ⊢
      exact reads_bind hread (reads_pure _ _)
  have hcheck (f : Unit → RM (Option (Nat × Table))) : (match other with
      | some w' => disjointTables t d w w' >>= f
      | none => f ()) r = f () r := by
    cases other with
    | none => rfl
    | some w' => exact bind_of_reads (hapart w' rfl)
  unfold deltaLevel
  rw [bind_of_reads hup, if_neg hn, bind_of_reads hx, bind_of_reads hkids]
  refine (hcheck _).trans ((bind_of_reads hwt).trans ?_)
  rw [pure_bind]
  beta_reduce
  rw [bind_of_reads hds, bind_of_reads hus]
  rw [needRoom_of (by simpa [afterDeltas, liveOf] using hcap), pure_bind, upMap_keys hlen]
  exact bind_of_reads hnb

end

/-! ### A level and the rows above it (R128, R389) -/

section
variable {t : Tree} {n : Nat} {d up : Table} {w : Word} {r : RelSt} {ds us : List (Word × Bool × Elem)} {kept : List (List Word)}
  {other : Option Word}

/-- R128, R389: an entry that meets a delta is the sum, and forgets the words that it held. -/
theorem afterDeltas_holds (t : Tree) (hds : ds.Pairwise (fun x y => x.1.toNat < y.1.toNat))
    (hus : us.Pairwise (fun x y => x.1.toNat < y.1.toNat)) (hlen : kept.length = us.length) : Holds (afterDeltas t ds us kept) (fun key =>
      merged ((((us.zip kept).find? (fun z => z.1.1.toNat = key)).map (fun z => (z.1.2.2, z.2))).map (fun x => (x.1, some x.2)))
        ((ds.find? (fun z => z.1.toNat = key && !z.2.1)).map (·.2.2))) :=
  holds_congr (addDeltas_holds t.h (liveOf_ascending hds) (upMap_holds hlen hus)) fun key => by rw [deltaOf_liveOf]

/-- An up table's words as the delta leaves those that it does not meet. -/
theorem upMap_reads (hup : Reads (t.table (t.node n).upt) r up) (hus : Reads (up.all t.sq false up.entries) r us)
    (hlen : kept.length = us.length) (hkept : ∀ i (h : i < us.length), if us[i].2.1
      then kept.getD i [] = [us[i].1, 0, 0x100000000, 0] ++ List.replicate (t.h / 2) 0
      else Reads (rdWords (up.entry i) (up.esize / 8)) r (kept.getD i [])) : Reads (up.upEntries t.sq) r (upMap us kept) :=
  upEntries_reads hlen hus fun i hi => kept_reads (by rw [readTable_lanes hup]; exact hkept i hi)

/-- R128: a level below the root passes the products of the rows that a delta meets upward. -/
theorem deltaLevel_rows (hup : Reads (t.table (t.node n).upt) r up) (hds : Reads (d.all t.sq false d.entries) r ds)
    (hus : Reads (up.upEntries t.sq) r (upMap us kept)) (hlen : kept.length = us.length)
    (hsort : ds.Pairwise (fun x y => x.1.toNat < y.1.toNat)) (hn : n ≠ t.root) (hcap : (afterDeltas t ds us kept).length ≤ up.cap)
    (hapart : ∀ w', other = some w' → Reads (disjointTables t d w w') r ()) {x : Relation} {wt : Table} {kt : Nat → Table}
    {p : Nat → List Word} {k k' : Nat → Word} {l : Nat → Nat → Elem} (hx : Reads (readTile t (t.node n).parent) r x)
    (hkt : ∀ m ∈ t.children (t.node n).parent, m ≠ n → Reads (t.table (t.node m).upt) r (kt m)) (hwt : Reads (t.output w) r wt)
    (hrows : ∀ i < x.rows, ParentRow t n x r (deltaOf (liveOf ds)) kt p k k' l i) : deltaLevel t n d w other r = (do
      wt.store t true (pure ()) (joinAll k' (passed t n (deltaOf (liveOf ds)) p k l)
        ((List.range x.rows).filter (fun i => (deltaOf (liveOf ds) (k i).toNat).isSome)) [])
      storeUp t up (us.map (fun z : Word × Bool × Elem => z.1.toNat)) (afterDeltas t ds us kept)
      written
      let w' ← t.table w true
      pure (some ((t.node n).parent, w'))) r := by
  have hkids : ∀ m ∈ t.children (t.node n).parent, Reads (if m = n then pure up else t.table (t.node m).upt) r (if m = n then up else kt m) :=
    fun m hm => by
      split
      · exact reads_pure _ _
      · exact hkt m hm ‹_›
  have hbuild := deltaBuild_reads (d := d) (deltas_hold (liveOf_ascending hsort)) (kt := fun m => if m = n then up else kt m) rfl (m := x.rows)
    (i := 0) [] fun j _ hj => { hrows j (by omega) with
      look := fun hd m hm hne => by
        rw [if_neg hne]
        exact (hrows j (by omega)).look hd m hm hne }
  rw [List.range_eq_range']
  exact deltaLevel_inner hup hds hus hlen hn hcap hapart hx hkids hwt hbuild

end

/-! ### Disjoint tables, levels and jdelta (R306) -/

/-- One of two tables ends where the other begins, or before. -/
def Apart (a b : Table) : Prop := b.va.toNat + 32 + (32 + 4 * b.h) * b.cap ≤ a.va.toNat ∨ a.va.toNat + 32 + (32 + 4 * a.h) * a.cap ≤ b.va.toNat

theorem not_tablesOverlap_iff (a b : Table) : (!tablesOverlap a b) = true ↔ Apart a b := by
  unfold tablesOverlap Apart Table.esize
  rw [Bool.not_eq_true', Bool.and_eq_false_iff, decide_eq_false_iff_not, decide_eq_false_iff_not, Nat.not_lt, Nat.not_lt]

section
variable {t : Tree} {d x y : Table} {w w' : Word} {r : RelSt} (hx : Reads (t.output w) r x) (hy : Reads (t.output w') r y)
include hx hy

theorem disjointTables_apply : disjointTables t d w w' r = need (!tablesOverlap d x && !tablesOverlap d y && !tablesOverlap x y) 9 r := by
  rw [disjointTables, bind_of_reads hx, bind_of_reads hy]

theorem disjointTables_apart (h : Apart d x ∧ Apart d y ∧ Apart x y) : Reads (disjointTables t d w w') r () := by
  unfold Reads
  rw [disjointTables_apply hx hy, need_of]
  · rfl
  · simpa only [Bool.and_eq_true, not_tablesOverlap_iff, and_assoc] using h

theorem disjointTables_overlap (h : ¬ (Apart d x ∧ Apart d y ∧ Apart x y)) : disjointTables t d w w' r = (.error (cRUF, 9), r) := by
  rw [disjointTables_apply hx hy]
  refine need_of_not ?_ 9 r
  rw [← Bool.not_eq_true]
  simpa only [Bool.and_eq_true, not_tablesOverlap_iff, and_assoc] using h

end

section
variable {t : Tree} {n : Nat} {d : Table} {w w' : Word} {first : Bool} {r r' : RelSt}

/-- The root is the last level. -/
theorem deltaLevels_last (f : Nat) (h : deltaLevel t n d w (if first then some w' else none) r = (.ok none, r')) :
    deltaLevels t (f + 1) n d w w' first r = (.ok (), r') := by
  rw [deltaLevels, bind_of_ok h]; rfl

/-- The work tables are taken in turn. -/
theorem deltaLevels_next (f : Nat) {q : Nat} {d' : Table}
    (h : deltaLevel t n d w (if first then some w' else none) r = (.ok (some (q, d')), r')) :
    deltaLevels t (f + 1) n d w w' first r = deltaLevels t f q d' w' w false r' := by
  rw [deltaLevels, bind_of_ok h]

end

section
variable {c tree desc : Word} {r : RelSt} {t : Tree} (ht : Reads (readTree tree (fun nodes => c.toNat % 256 < nodes) 0x12) r t)
include ht

theorem jdeltaBody_of_tree : jdeltaBody c tree desc r = (do
    need (!(t.node (c.toNat % 256)).bag) 0x0C
    let ws ← relDesc desc
    let d ← t.table (ws.getD 0 0) true
    deltaLevels t (t.nodes.length + 1) (c.toNat % 256) d (ws.getD 1 0) (ws.getD 2 0) true) r := by
  unfold jdeltaBody
  simp only [node_field]
  exact bind_of_reads ht

theorem jdeltaBody_bag (h : (t.node (c.toNat % 256)).bag = true) : jdeltaBody c tree desc r = (.error (cRUF, 0x0C), r) := by
  rw [jdeltaBody_of_tree ht]
  exact bind_of_error (need_of_not (by simpa using h) _ _)

theorem jdeltaBody_levels (h : (t.node (c.toNat % 256)).bag = false) {ws : List Word} {d : Table} (hws : Reads (relDesc desc) r ws)
    (hd : Reads (t.table (ws.getD 0 0) true) r d) : jdeltaBody c tree desc r =
    deltaLevels t (t.nodes.length + 1) (c.toNat % 256) d (ws.getD 1 0) (ws.getD 2 0) true r := by
  rw [jdeltaBody_of_tree ht, need_of (by simpa using h), pure_bind, bind_of_reads hws, bind_of_reads hd]

end

end Sys2Proof.Relations
end

