-- ==== Sys2Proof/Proofs/RelationalIntersection.lean ====
section
/-! SUPPORT. Sys2Proof/Proofs/RelationalIntersection.lean: the shard list of cleave, and the records of isect (R126, R307, R308, R325). -/

namespace Sys2Proof.Relations
open Sys2Proof.Machine

/-! ### cleave (R126, R307) -/

section
variable {c tree list : Word} {r r1 : RelSt} {t : Tree} (ht : Reads (readTree tree (fun nodes => c.toNat % 256 < nodes) 0x12) r t)
include ht

theorem cleaveBody_whole (h : (t.node (c.toNat % 256)).cleave = 0) : cleaveBody c tree list r = (do
    wrN (t.va + BitVec.ofNat 64 (64 * (c.toNat % 256 + 1)) + 0x34) 4 0
    wrN (t.va + BitVec.ofNat 64 (64 * (c.toNat % 256 + 1)) + 0x0C) 2 ((t.node (c.toNat % 256)).flags % 2)) r := by
  unfold cleaveBody
  simp only [node_field]
  rw [bind_of_reads ht, if_pos h]

variable (hcl : (t.node (c.toNat % 256)).cleave ≠ 0) (hr1 : r1 = (counts list 4 16 16 r).2) {x : Relation} {l : Nat × Nat} {gs : List Shard}
  (hx : Reads (readTile t (c.toNat % 256)) r1 x) (hl : Reads (readListHead list) r1 l)
  (hgs : Reads (groupsFrom x (c.toNat % 256 = t.root) (t.node (c.toNat % 256)).ckc x.rows 0 []) r1 gs)
include hcl hr1 hx hl hgs

/-- R126: entry i of a shard list. -/
def shardEntry (list : Word) (ss : List Shard) (i : Nat) : RM Unit := do
  wrWords (list + BitVec.ofNat 64 (16 + 16 * i)) [(ss.getD i { key := 0, first := 0, count := 0 }).key,
    BitVec.ofNat 64 ((ss.getD i { key := 0, first := 0, count := 0 }).first % 2 ^ 32 +
      (ss.getD i { key := 0, first := 0, count := 0 }).count % 2 ^ 32 * 2 ^ 32)]
  written

theorem cleaveBody_divided : cleaveBody c tree list r = (do
    needRoom ((gs.flatMap (Shard.split (t.node (c.toNat % 256)).cleave)).length ≤ l.2) 0x0F
    (List.range (gs.flatMap (Shard.split (t.node (c.toNat % 256)).cleave)).length).forM
      (shardEntry list (gs.flatMap (Shard.split (t.node (c.toNat % 256)).cleave)))
    wrN list 4 (gs.flatMap (Shard.split (t.node (c.toNat % 256)).cleave)).length
    wrN (t.va + BitVec.ofNat 64 (64 * (c.toNat % 256 + 1)) + 0x34) 4 (gs.flatMap (Shard.split (t.node (c.toNat % 256)).cleave)).length
    wrN (t.va + BitVec.ofNat 64 (64 * (c.toNat % 256 + 1)) + 0x0C) 2 ((t.node (c.toNat % 256)).flags % 2 + 2)) r1 := by
  subst hr1
  unfold cleaveBody
  simp only [node_field]
  rw [bind_of_reads ht, if_neg hcl, counts_then, bind_of_reads hx, bind_of_reads hl, bind_of_reads hgs]
  simp only [forM_zip_range _ ({ key := 0, first := 0, count := 0 } : Shard)]
  rfl

theorem cleaveBody_full (hfull : l.2 < (gs.flatMap (Shard.split (t.node (c.toNat % 256)).cleave)).length) :
    cleaveBody c tree list r = (.error (cRUF, 0x0F), { r1 with slots := (0, 0, 0) }) := by
  rw [cleaveBody_divided ht hcl hr1 hx hl hgs]
  exact bind_of_error (needRoom_of_not (by simpa using hfull) _ _)

theorem cleaveBody_fits (hfit : (gs.flatMap (Shard.split (t.node (c.toNat % 256)).cleave)).length ≤ l.2) :
    cleaveBody c tree list r = (do
      (List.range (gs.flatMap (Shard.split (t.node (c.toNat % 256)).cleave)).length).forM
        (shardEntry list (gs.flatMap (Shard.split (t.node (c.toNat % 256)).cleave)))
      wrN list 4 (gs.flatMap (Shard.split (t.node (c.toNat % 256)).cleave)).length
      wrN (t.va + BitVec.ofNat 64 (64 * (c.toNat % 256 + 1)) + 0x34) 4 (gs.flatMap (Shard.split (t.node (c.toNat % 256)).cleave)).length
      wrN (t.va + BitVec.ofNat 64 (64 * (c.toNat % 256 + 1)) + 0x0C) 2 ((t.node (c.toNat % 256)).flags % 2 + 2)) r1 := by
  rw [cleaveBody_divided ht hcl hr1 hx hl hgs, needRoom_of (by simpa using hfit), pure_bind]

end

theorem shardEntry_getElem (list : Word) {ss : List Shard} {i : Nat} (h : i < ss.length) : shardEntry list ss i = (do
    wrWords (list + BitVec.ofNat 64 (16 + 16 * i)) [ss[i].key, BitVec.ofNat 64 (ss[i].first % 2 ^ 32 + ss[i].count % 2 ^ 32 * 2 ^ 32)]
    written) := by
  rw [shardEntry, List.getD_eq_getElem _ _ h]

/-- What a list answers for those of its values that pass a test. -/
theorem filterMap_of_test {α β : Type} {g : α → Option β} {p : α → Bool} {f : α → β} (h : ∀ x, g x = if p x then some (f x) else none) :
    ∀ l : List α, l.filterMap g = (l.filter p).map f
  | [] => rfl
  | x :: l => by
    have ih := filterMap_of_test h l
    rw [List.filterMap_cons, List.filter_cons, h x]
    cases p x with
    | true => exact congrArg (f x :: ·) ih
    | false => exact ih

/-! ### Common keys (R308, mode 0) -/

section
variable {ws : List Word} {k : Word}

theorem indexIn_isSome : (indexIn k ws).isSome = ws.contains k := by
  rw [indexIn, List.findIdx?_isSome, Bool.eq_iff_iff]
  simp

theorem getD_indexIn {i : Nat} (h : indexIn k ws = some i) : i < ws.length ∧ ws.getD i 0 = k := by
  obtain ⟨hi, hk, -⟩ := List.findIdx?_eq_some_iff_getElem.mp h
  refine ⟨hi, ?_⟩
  rw [List.getD_eq_getElem?_getD, List.getElem?_eq_getElem hi]
  simpa using hk

end

/-- Where a key stands in the lists that hold it. -/
def indices (lists : List (List Word)) (k : Word) : List Nat := lists.map (fun l => (indexIn k l).getD 0)

theorem keyRecords_eq (lists : List (List Word)) : keyRecords lists =
    ((lists.headD []).filter (fun k => lists.all (fun l => l.contains k))).map (fun k => isectRecord k (indices lists k) 0) := by
  refine filterMap_of_test (fun k => ?_) (lists.headD [])
  have hall : (lists.map (indexIn k)).all Option.isSome = lists.all (fun l => l.contains k) := by
    rw [List.all_map]
    congr 1
    funext l
    exact indexIn_isSome
  simp only [hall, indices, List.map_map, Function.comp_def]

theorem keyRecords_keys (lists : List (List Word)) : (keyRecords lists).map (fun w => w.getD 0 0) =
    (lists.headD []).filter (fun k => lists.all (fun l => l.contains k)) := by
  rw [keyRecords_eq, List.map_map]
  exact List.map_id' _

/-- R308: a record of a common key gives its place in each list. -/
theorem keyRecords_places {lists : List (List Word)} {w : List Word} (hw : w ∈ keyRecords lists) : ∃ ix : Nat → Nat,
    (∀ j (h : j < lists.length), ix j < lists[j].length ∧ lists[j].getD (ix j) 0 = w.getD 0 0) ∧ (∀ j, lists.length ≤ j → ix j = 0) ∧
      w = [w.getD 0 0, BitVec.ofNat 64 (ix 0 % 2 ^ 32 + 2 ^ 32 * (ix 1 % 2 ^ 32)),
        BitVec.ofNat 64 (ix 2 % 2 ^ 32 + 2 ^ 32 * (ix 3 % 2 ^ 32)), 0] := by
  rw [keyRecords_eq] at hw
  obtain ⟨k, hk, rfl⟩ := List.mem_map.mp hw
  have hall := (List.mem_filter.mp hk).2
  refine ⟨fun j => (indices lists k).getD j 0, fun j h => ?_, fun j h => ?_, rfl⟩
  · have hin := List.all_eq_true.mp hall lists[j] (List.getElem_mem h)
    rw [← indexIn_isSome] at hin
    obtain ⟨i, hi⟩ := Option.isSome_iff_exists.mp hin
    have hix : (indices lists k).getD j 0 = i := by
      simp [indices, List.getD_eq_getElem?_getD, h, hi]
    beta_reduce
    rw [hix]
    exact getD_indexIn hi
  · simp [indices, List.getD_eq_getElem?_getD, h]

/-! ### Common bits (R308, mode 1) -/

/-- The AND of word w of some lists. -/
def common (lists : List (List Word)) (w : Nat) : Word := lists.foldl (fun a l => a &&& l.getD w 0) (BitVec.allOnes 64)

theorem getLsbD_foldl_and (w j : Nat) : ∀ (lists : List (List Word)) (a : Word),
    (lists.foldl (fun a l => a &&& l.getD w 0) a).getLsbD j = (a.getLsbD j && lists.all (fun l => (l.getD w 0).getLsbD j))
  | [], a => by simp
  | l :: lists, a => by
    rw [List.foldl_cons, getLsbD_foldl_and w j lists, BitVec.getLsbD_and, List.all_cons, Bool.and_assoc]

theorem common_bit (lists : List (List Word)) (w : Nat) {j : Nat} (hj : j < 64) :
    (common lists w).getLsbD j = lists.all (fun l => (l.getD w 0).getLsbD j) := by
  rw [common, getLsbD_foldl_and, BitVec.getLsbD_allOnes, decide_eq_true hj, Bool.true_and]

theorem onesOf_eq (w : Word) : onesOf w = bitsBelow w 64 := List.countP_eq_length_filter ..

/-- The ones before word w of a list of sums. -/
theorem rank_eq (sums : List (List Word)) (w i : Nat) :
    (sums.map (fun l => ((l.take w).map onesOf).foldl (· + ·) 0)).getD i 0 = (((sums.getD i []).take w).map (fun x => bitsBelow x 64)).sum := by
  have hones : onesOf = fun x => bitsBelow x 64 := funext onesOf_eq
  by_cases hi : i < sums.length
  · simp [List.getD_eq_getElem?_getD, hi, hones, List.sum_eq_foldl]
  · simp [List.getD_eq_getElem?_getD, hi]

theorem bitmapRecords_eq (lists sums : List (List Word)) (len : Nat) :
    let rank (w i : Nat) : Nat := (((sums.getD i []).take w).map (fun x => bitsBelow x 64)).sum % 2 ^ 32
    bitmapRecords lists sums len = ((List.range len).filter (fun w => common lists w ≠ 0)).map (fun w =>
      [common lists w, BitVec.ofNat 64 (rank w 0 + 2 ^ 32 * rank w 1), BitVec.ofNat 64 (rank w 2 + 2 ^ 32 * rank w 3), BitVec.ofNat 64 w]) := by
  intro rank
  have hrec (w : Nat) : isectRecord (common lists w) (sums.map (fun l => ((l.take w).map onesOf).foldl (· + ·) 0)) w =
      [common lists w, BitVec.ofNat 64 (rank w 0 + 2 ^ 32 * rank w 1), BitVec.ofNat 64 (rank w 2 + 2 ^ 32 * rank w 3), BitVec.ofNat 64 w] := by
    simp only [isectRecord, rank_eq, rank]
  refine filterMap_of_test (fun w => ?_) (List.range len)
  rw [← hrec, common]
  by_cases h : lists.foldl (fun a l => a &&& l.getD w 0) (BitVec.allOnes 64) = 0
  · rw [if_pos h, if_neg (by rw [decide_eq_true_eq]; exact fun h' => h' h)]
  · rw [if_neg h, if_pos (decide_eq_true h)]

/-- Every record has four words. -/
theorem record_length {lists sums : List (List Word)} {len : Nat} {mode : Nat} {w : List Word}
    (h : w ∈ if mode = 0 then keyRecords lists else bitmapRecords lists sums len) : w.length = 4 := by
  split at h
  · rw [keyRecords_eq] at h
    obtain ⟨_, -, rfl⟩ := List.mem_map.mp h
    rfl
  · rw [bitmapRecords_eq] at h
    obtain ⟨_, -, rfl⟩ := List.mem_map.mp h
    rfl

/-! ### What isect finds (R308, R325) -/

/-- A computation that reads words as a list has them, and changes nothing, answers what it reads so. -/
theorem readingAs_reads {α : Type} {ws : List (Word × Word)} {m : RM α} {r : RelSt} {x : α} (h : Reads m { r with early := ws } x) :
    Reads (readingAs ws m) r x := by
  unfold Reads readingAs
  rw [bind_of_ok (relGet_apply r), bind_of_ok (relSet_apply r _), bind_of_reads h, bind_of_ok (relModify_apply _ _)]
  rfl

/-- The length of list i that a descriptor gives. -/
theorem length_field (ws : List Word) (i : Nat) : fieldAt ws (0x28 + 4 * i) 4 = (ws.getD (5 + i / 2) 0).toNat / 2 ^ (32 * (i % 2)) % 2 ^ 32 := by
  unfold fieldAt
  rw [show (0x28 + 4 * i) / 8 = 5 + i / 2 by omega, show (0x28 + 4 * i) % 8 = 4 * (i % 2) by omega,
    show (256 : Nat) = 2 ^ 8 from rfl, ← Nat.pow_mul, ← Nat.pow_mul, show 8 * (4 * (i % 2)) = 32 * (i % 2) by omega]

theorem byte_field (ws : List Word) {j : Nat} (hj : j < 8) : fieldAt ws j 1 = (ws.getD 0 0).toNat / 2 ^ (8 * j) % 2 ^ 8 := by
  unfold fieldAt
  rw [Nat.div_eq_of_lt hj, Nat.mod_eq_of_lt hj, show (256 : Nat) = 2 ^ 8 from rfl, ← Nat.pow_mul, Nat.pow_one]

section
variable (out desc : Word) (r : RelSt) (ws hd : List Word) (lists sums : List (List Word))

/-- Where an isect has named its slots. -/
def isectStart : RelSt := (counts out 4 32 32 r).2

/-- The number of lists, the mode and the lengths that a descriptor gives. -/
def listCount : Nat := (ws.getD 0 0).toNat % 2 ^ 8
def listMode : Nat := (ws.getD 0 0).toNat / 2 ^ 8 % 2 ^ 8
def listLen (i : Nat) : Nat := (ws.getD (5 + i / 2) 0).toNat / 2 ^ (32 * (i % 2)) % 2 ^ 32

/-- R308: the descriptor, the header and the lists of an isect pass their checks. -/
structure IsectReads : Prop where
  desc64 : desc.toNat % 64 = 0
  out32 : out.toNat % 32 = 0
  descriptor : Reads (rdWords desc 8) { isectStart out r with early := r.found } ws
  header : Reads (rdWords out 4) { isectStart out r with early := r.found } hd
  two : 2 ≤ listCount ws
  four : listCount ws ≤ 4
  mode : listMode ws < 2
  unused : ∀ i < 4, listCount ws ≤ i → ws.getD (1 + i) 0 = 0 ∧ listLen ws i = 0
  alike : listMode ws = 1 → ∀ i < listCount ws, listLen ws i = listLen ws 0
  reserved : ∀ i, 1 ≤ i → i < 4 → hd.getD i 0 = 0
  count : lists.length = listCount ws
  records : ∀ i (h : i < lists.length), Reads (readList (ws.getD (1 + i) 0) (listLen ws i) (listMode ws = 0))
    { isectStart out r with early := r.found } lists[i]
  sums : listMode ws = 1 → sums.length = listCount ws ∧
    ∀ i (h : i < sums.length), Reads (readList (ws.getD (1 + i) 0) (listLen ws i) false) (isectStart out r) sums[i]

/-- R308: the records of an isect. -/
def isectRecords : List (List Word) := if listMode ws = 0 then keyRecords lists else bitmapRecords lists sums (listLen ws 0)

/-- The words from which an isect has its records. -/
def isectWords : List (Word × Word) := wordsFrom desc ws ++ wordsFrom out hd ++
  ((List.range (listCount ws)).zip lists).flatMap (fun e => wordsFrom (ws.getD (1 + e.1) 0) e.2)

end

section
variable {out desc : Word} {r : RelSt} {ws hd : List Word} {lists sums : List (List Word)} (h : IsectReads out desc r ws hd lists sums)
include h

theorem isectFind_of_reads : isectFind out desc r = (do
    needRoom ((isectRecords ws lists sums).length ≤ (hd.getD 0 0).toNat / 2 ^ 32) 8
    pure (isectRecords ws lists sums, isectWords out desc ws hd lists)) (isectStart out r) := by
  have hlists : Reads ((List.range (listCount ws)).mapM (fun i => readList (ws.getD (1 + i) 0) (listLen ws i) (listMode ws = 0)))
      { isectStart out r with early := r.found } lists := by
    rw [← h.count]
    exact reads_mapM_places h.records
  have hsums (hm : listMode ws = 1) : Reads ((List.range (listCount ws)).mapM (fun i => readList (ws.getD (1 + i) 0) (listLen ws i) false))
      (isectStart out r) sums := by
    obtain ⟨hlen, hread⟩ := h.sums hm
    rw [← hlen]
    exact reads_mapM_places hread
  have hfound : (isectStart out r).found = r.found := by
    obtain ⟨c, t, hc⟩ := counts_spec out 4 32 32 r
    rw [isectStart, hc]
  have hk : fieldAt ws 0 1 = listCount ws := (byte_field ws (j := 0) (by decide)).trans (by rw [listCount, Nat.mul_zero, Nat.pow_zero, Nat.div_one])
  have hmode : fieldAt ws 1 1 = listMode ws := byte_field ws (j := 1) (by decide)
  have hlen (i : Nat) : fieldAt ws (0x28 + 4 * i) 4 = listLen ws i := length_field ws i
  have hcap : fieldAt hd 4 4 = (hd.getD 0 0).toNat / 2 ^ 32 := high_half hd 0
  have hzero : zeroWords hd 8 24 = true := by
    rw [zeroWords, List.all_eq_true]
    intro j hj
    exact decide_eq_true (h.reserved (1 + j) (by omega) (by have := List.mem_range.mp hj; omega))
  have hgood : (2 ≤ listCount ws && listCount ws ≤ 4 && listMode ws < 2
      && (List.range 4).all (fun i => i < listCount ws || (ws.getD (1 + i) 0 = 0 && listLen ws i = 0))
      && (listMode ws = 0 || (List.range (listCount ws)).all (fun i => listLen ws i = listLen ws 0))) = true := by
    simp only [Bool.and_eq_true, Bool.or_eq_true, decide_eq_true_eq, List.all_eq_true, List.mem_range]
    refine ⟨⟨⟨⟨h.two, h.four⟩, h.mode⟩, fun i hi => ?_⟩, ?_⟩
    · by_cases hik : i < listCount ws
      · exact .inl hik
      · exact .inr (h.unused i hi (by omega))
    · by_cases hm : listMode ws = 0
      · exact .inl hm
      · exact .inr (h.alike (by have := h.mode; omega))
  unfold isectFind
  rw [counts_then]
  rw [aligned_of h.desc64, pure_bind, bind_of_ok (relGet_apply _)]
  rw [show (counts out 4 32 32 r).2 = isectStart out r from rfl, hfound, bind_of_reads (readingAs_reads h.descriptor)]
  simp only [hk, hmode, hlen]
  rw [need_of hgood, pure_bind, aligned_of h.out32, pure_bind, bind_of_reads (readingAs_reads h.header), need_of hzero, pure_bind,
    bind_of_reads (readingAs_reads hlists)]
  unfold isectRecords
  by_cases hm : listMode ws = 0
  · simp only [if_pos hm, hcap]
    rw [pure_bind]
    rfl
  · have hm1 : listMode ws = 1 := by have := h.mode; omega
    simp only [if_neg hm, hcap]
    rw [bind_of_reads (hsums hm1)]
    rfl

theorem isectFind_fits (hfit : (isectRecords ws lists sums).length ≤ (hd.getD 0 0).toNat / 2 ^ 32) :
    isectFind out desc r = (.ok (isectRecords ws lists sums, isectWords out desc ws hd lists), isectStart out r) := by
  rw [isectFind_of_reads h, needRoom_of (by simpa using hfit)]
  rfl

theorem isectBody_full (hfull : (hd.getD 0 0).toNat / 2 ^ 32 < (isectRecords ws lists sums).length) :
    isectBody out desc r = (.error (cRUF, 8), { isectStart out r with slots := (0, 0, 0) }) := by
  refine bind_of_error ?_
  rw [isectFind_of_reads h]
  exact bind_of_error (needRoom_of_not (by simpa using hfull) _ _)

end

/-! ### What isect writes (R308, R325) -/

/-- Computations that agree where a part of the state is as it was agree along a list. -/
theorem forM_apply_congr {α γ : Type} {p : RelSt → γ} {v : γ} {f g : α → RM Unit} (hkeep : ∀ a, Keeps p (f a)) : ∀ {l : List α},
    (∀ a ∈ l, ∀ r, p r = v → f a r = g a r) → ∀ {r}, p r = v → l.forM f r = l.forM g r
  | [], _, _, _ => rfl
  | a :: l, h, r, hr => by
    have htail : (f a >>= fun _ => l.forM f) r = (f a >>= fun _ => l.forM g) r := bind_apply_congr fun _ _ hm =>
      forM_apply_congr hkeep (fun b hb => h b (List.mem_cons_of_mem _ hb)) (((hkeep a).after hm).trans hr)
    exact htail.trans (bind_left_congr (h a (List.mem_cons_self ..) r hr))

theorem wrN_toNat (va : Word) (n v : Nat) : wrN va n (BitVec.ofNat 64 v).toNat = wrN va n v := by
  unfold wrN
  simp only [BitVec.ofNat_toNat, BitVec.setWidth_eq]

theorem isectPut_apply (out : Word) (n : Nat) (v : Word) (r : RelSt) : isectPut out n v r =
    (if n ∈ r.parts then pure () else if n = 0 then wrN out 4 v.toNat else wr8 out (32 + 8 * (n - 1)) v : RM Unit) r := by
  unfold isectPut
  rw [bind_of_ok (relGet_apply r)]
  simp only [List.contains_iff_mem]

section
variable {γ : Type} {p : RelSt → γ} (hwrite : ∀ r b w h, p { r with st := r.st.write b w h } = p r)
include hwrite

theorem isectPut_keeps (out : Word) (n : Nat) (v : Word) : Keeps p (isectPut out n v) := fun r => by
  rw [isectPut_apply]
  exact keeps_ite (keeps_pure p _) (keeps_ite (wrN_keeps hwrite _ _ _) (wrN_keeps hwrite _ _ _)) r

end

/-- R308: record i of those that are written. -/
def isectStep (out : Word) (rs : List (List Word)) (i : Nat) : RM Unit := do
  mayWrite (out + BitVec.ofNat 64 (32 + 32 * i)) 4
  ((List.range 4).zip (rs.getD i [])).forM (fun w => isectPut out (4 * i + w.1 + 1) w.2)
  written

theorem isectStep_keeps (out : Word) (rs : List (List Word)) (i : Nat) : Keeps RelSt.parts (isectStep out rs i) :=
  (mayWrite_keeps _ _ _).bind fun _ => (keeps_forM (fun _ => isectPut_keeps (fun _ _ _ _ => rfl) _ _ _) _).bind fun _ =>
    keeps_modify fun _ => rfl

/-- The words of a record that were not written ahead. -/
theorem isectStep_apply {out : Word} {rs : List (List Word)} {i : Nat} (hlen : (rs.getD i []).length = 4) {r : RelSt} {parts : List Nat}
    (hr : r.parts = parts) : isectStep out rs i r = (do
      mayWrite (out + BitVec.ofNat 64 (32 + 32 * i)) 4
      (List.range 4).forM (fun j =>
        if 4 * i + j + 1 ∈ parts then pure () else wr8 out (32 + 32 * i + 8 * j) ((rs.getD i []).getD j 0))
      written) r := by
  refine bind_apply_congr fun _ r1 hm => ?_
  have hr1 : r1.parts = parts := ((mayWrite_keeps RelSt.parts _ _).after hm).trans hr
  have hzip := forM_zip_range (rs.getD i []) 0 (fun w => isectPut out (4 * i + w.1 + 1) w.2)
  rw [hlen] at hzip
  rw [hzip]
  exact bind_left_congr (forM_apply_congr (p := RelSt.parts) (fun j => isectPut_keeps (fun _ _ _ _ => rfl) _ _ _) (fun j _ r' hr' => by
    rw [isectPut_apply, hr', if_neg (Nat.succ_ne_zero _), show 32 + 8 * (4 * i + j + 1 - 1) = 32 + 32 * i + 8 * j by omega]) hr1)

theorem parts_isectStart (out : Word) (r : RelSt) : (isectStart out r).parts = r.parts := by
  obtain ⟨c, t, hc⟩ := counts_spec out 4 32 32 r
  rw [isectStart, hc]

/-- R308: the records and then their number are written, but for what was written ahead. -/
theorem isectBody_fits {out desc : Word} {r : RelSt} {ws hd : List Word} {lists sums : List (List Word)}
    (h : IsectReads out desc r ws hd lists sums) (hfit : (isectRecords ws lists sums).length ≤ (hd.getD 0 0).toNat / 2 ^ 32) :
    isectBody out desc r = (do
      (List.range (isectRecords ws lists sums).length).forM (isectStep out (isectRecords ws lists sums))
      if 0 ∈ r.parts then pure () else wrN out 4 (isectRecords ws lists sums).length) (isectStart out r) := by
  unfold isectBody
  rw [bind_of_ok (isectFind_fits h hfit)]
  simp only [forM_zip_range _ ([] : List Word)]
  refine bind_apply_congr fun _ r1 hm => ?_
  have hparts : r1.parts = r.parts := ((keeps_forM (isectStep_keeps out _) _).after hm).trans (parts_isectStart out r)
  rw [isectPut_apply, hparts, if_pos rfl, wrN_toNat]

/-! ### What isect leaves while it looks for its records (R325) -/

section
variable {γ : Type} {p : RelSt → γ} (hnote : ∀ r c t, p { r with cnt := c, slots := t } = p r) (hearly : ∀ r e, p { r with early := e } = p r)

include hnote in
theorem counts_keeps (va : Word) (cap first size : Nat) : Keeps p (counts va cap first size) := fun r => by
  obtain ⟨c, t, h⟩ := counts_spec va cap first size r
  rw [h]
  exact hnote r c t

include hnote in
theorem needRoom_keeps (b : Bool) (n : Nat) : Keeps p (needRoom b n) :=
  keeps_ite (keeps_pure p _) ((keeps_modify fun r => hnote r r.cnt (0, 0, 0)).bind fun _ => keeps_throw p _)

include hearly in
theorem readingAs_keeps {α : Type} (ws : List (Word × Word)) {m : RM α} (hm : Keeps p m) : Keeps p (readingAs ws m) :=
  keeps_getBind fun r => by
    rw [bind_of_ok (relSet_apply r _)]
    exact ((hm.bind fun _ => (keeps_modify fun t => hearly t r.early).bind fun _ => keeps_pure p _) _).trans (hearly r ws)

theorem readList_keeps (va : Word) (len : Nat) (keys : Bool) : Keeps p (readList va len keys) :=
  (keeps_aligned _ _).bind fun _ => (rdWords_keeps p _ _).bind fun _ => (keeps_need _ _).bind fun _ => keeps_pure p _

include hnote hearly in
theorem isectFind_keeps (out desc : Word) : Keeps p (isectFind out desc) :=
  (counts_keeps hnote _ _ _ _).bind fun _ => (keeps_aligned _ _).bind fun _ => (keeps_get p).bind fun _ =>
    (readingAs_keeps hearly _ (rdWords_keeps p _ _)).bind fun _ => (keeps_need _ _).bind fun _ => (keeps_aligned _ _).bind fun _ =>
    (readingAs_keeps hearly _ (rdWords_keeps p _ _)).bind fun _ => (keeps_need _ _).bind fun _ =>
    (readingAs_keeps hearly _ (keeps_mapM (fun _ => readList_keeps _ _ _) _)).bind fun _ =>
    keeps_ite ((keeps_pure p _).bind fun _ => (needRoom_keeps hnote _ _).bind fun _ => keeps_pure p _)
      ((keeps_mapM (fun _ => readList_keeps _ _ _) _).bind fun _ => (needRoom_keeps hnote _ _).bind fun _ => keeps_pure p _)

end

/-- R325: a word of the output of an isect whose records are found. -/
theorem isectWrite_of_found {out desc : Word} {n : Nat} {r r1 : RelSt} {rs : List (List Word)} {ws : List (Word × Word)}
    (h : isectFind out desc r = (.ok (rs, ws), r1)) : isectWrite out desc n r = (if 4 * rs.length < n then pure none else do
      isectPut out n (if n = 0 then BitVec.ofNat 64 rs.length else rs.flatten.getD (n - 1) 0)
      pure (some ws) : RM (Option (List (Word × Word)))) r1 := by
  unfold isectWrite
  rw [bind_of_ok h]

end Sys2Proof.Relations
end

