-- ==== Sys2Proof/Proofs/RelationalUnit.lean ====
section
/-! SUPPORT. Sys2Proof/Proofs/RelationalUnit.lean: the issue of relational instructions, the turns of the unit, and the statement of the relational
unit (O48). -/

namespace Sys2Proof.Relations
open Sys2Proof.Machine Sys2Proof.Organisation Sys2Proof.Threads Sys2Proof.Accesses

/-! ### Issue (R115, R289, R299) -/

/-- With room in the queue the unit accepts an operation. -/
theorem relSend_of_room {t : State} {g k : Nat} (hc : t.cur = .slot g k) (hroom : t.room OpKind.isRel = true) (i : Instr) (f : Eng)
    (d a b : Word) (dst : Option Nat) : relSend i f d a b dst t = .ok (.next, t.accept i .tiles (.eng f d a b 0 dst)) := by
  unfold State.room at hroom
  simp only [Bool.and_eq_true, decide_eq_true_eq] at hroom
  have hacc : accept OpKind.isRel 8 t = .ok ((), t) := if_neg (by omega)
  rw [relSend, M.bind_ok hacc, M.bind_ok (emit_of_room hc (c := .tiles) hroom.2 _ _)]
  rfl

section
variable {i : Instr} {f : Eng} {d a b : Name} {x y c : Word} {s s1 s2 t : State} {g k : Nat} (hr : Ready i s)
  (ra : ctlOperand a s = .ok (x, s1)) (rb : ctlOperand b s1 = .ok (y, s2)) (rd : ctlOperand d s2 = .ok (c, t))
  (hc : t.cur = .slot g k) (hroom : t.room OpKind.isRel = true)
include hr ra rb rd hc hroom

/-- R301, R304, R308: an instruction of addresses. -/
theorem relAddr_accepted : issue i (relAddrOp i f d a b) s = .next (s.done (t.accept i .tiles (.eng f c x y 0 none))) :=
  done_of_issued hr (by rw [relAddrOp, M.bind_ok ra, M.bind_ok rb, M.bind_ok rd, relSend_of_room hc hroom])

/-- R289, R299: an instruction whose control cell passes its checks. -/
theorem relCtl_accepted {mode fin : Bool} (hbad : relCtlBad c mode fin = false) :
    issue i (relCtlOp i f d a b mode fin) s = .next (s.done (t.accept i .tiles (.eng f c x y 0 none))) :=
  done_of_issued hr (by
    rw [relCtlOp, M.bind_ok ra, M.bind_ok rb, M.bind_ok rd]
    simp only [hbad, Bool.false_eq_true, if_false]
    exact relSend_of_room hc hroom ..)

end

/-- Bits that a mask leaves out are clear. -/
theorem clear_bit {c mask : Word} (h : c &&& ~~~mask = 0) {j : Nat} (hj : j < 64) (hm : mask.getLsbD j = false) : c.getLsbD j = false := by
  have hbit := congrArg (fun w : Word => w.getLsbD j) h
  rw [BitVec.getLsbD_and, BitVec.getLsbD_not, decide_eq_true hj, hm] at hbit
  simpa using hbit

theorem clear_run {c mask : Word} (h : c &&& ~~~mask = 0) {p n : Nat} (hm : ∀ j < n, p + j < 64 ∧ mask.getLsbD (p + j) = false) :
    c.extractLsb' p n = 0 := by
  refine BitVec.eq_of_getLsbD_eq fun j hj => ?_
  obtain ⟨hlt, hclear⟩ := hm j hj
  rw [BitVec.getLsbD_extractLsb', clear_bit h hlt hclear]
  simp

/-- R299: a control cell is good when the mask of its form has only bits that the form reads. -/
theorem relCtlBad_of_mask {c mask : Word} {mode fin : Bool} (h : c &&& ~~~mask = 0)
    (h11 : ∀ j < 21, 11 + j < 64 ∧ mask.getLsbD (11 + j) = false)
    (h10 : fin = false → mask.getLsbD 10 = false ∧ ∀ j < 32, 32 + j < 64 ∧ mask.getLsbD (32 + j) = false)
    (h8 : mode = false → ∀ j < 2, 8 + j < 64 ∧ mask.getLsbD (8 + j) = false) : relCtlBad c mode fin = false := by
  have hfin : (!fin && (c.getLsbD 10 || decide (c.extractLsb' 32 32 ≠ 0))) = false := by
    cases fin with
    | true => rfl
    | false =>
      rw [clear_bit h (by decide) (h10 rfl).1, clear_run h (h10 rfl).2]
      rfl
  have hmode : (!mode && decide (c.extractLsb' 8 2 ≠ 0)) = false := by
    cases mode with
    | true => rfl
    | false =>
      rw [clear_run h (h8 rfl)]
      rfl
  rw [relCtlBad, hfin, hmode, clear_run h h11]
  rfl

theorem ctl_of_node {c : Word} (h : c &&& ~~~0xFF = 0) : relCtlBad c false false = false :=
  relCtlBad_of_mask h (by decide) (by decide) (by decide)

theorem ctl_of_mode {c : Word} (h : c &&& ~~~0x3FF = 0) : relCtlBad c true false = false :=
  relCtlBad_of_mask h (by decide) (by decide) (by decide)

theorem ctl_of_finish {c : Word} (h : c &&& ~~~0xFFFFFFFF000004FF = 0) : relCtlBad c false true = false :=
  relCtlBad_of_mask h (by decide) (by decide) (by decide)

/-- The last of two sources finds its word after the other has been read. -/
theorem holds_last {i : Instr} {s : State} {g k : Nat} (hc : s.cur = .slot g k) (h : Ready i s) (ha : i.roles.ra = .src)
    (hb : i.roles.rb = .none) (hd : i.roles.rd = .src) : (s.took i.roles.a).holds i.roles.d := by
  unfold State.holds
  simp only [took_cur, hc]
  intro hp hq
  have he := (isPort_iff i.roles.d).1 hp
  have hcnt := portCheck_counts (h.onSlot hc).2.2.2.1 hp (ro := .src) rfl (by simp [hd])
  have hreads : ((([(i.roles.a, Role.src), (i.roles.b, .none), (i.roles.d, .src)].filter
      (fun e => e.1.isPort && e.2 ≠ .none && e.2 ≠ .late && e.2 ≠ .lateInOut)).filter (fun e => readsPort e.2)).map
        (fun e => e.1.toNat)).count i.roles.d.toNat = takes i.roles.a i.roles.d.toNat + takes i.roles.d i.roles.d.toNat := by
    unfold takes
    cases ha : i.roles.a.isPort <;> cases hd : i.roles.d.isPort <;>
      simp [ha, hd, readsPort, List.count_cons, Nat.add_comm]
  rw [ha, hb, hd, hreads, me_of_slot hc] at hcnt
  have hlen := congrArg List.length hq
  rw [length_queue_took hc _ he, List.length_nil] at hlen
  have hone : takes i.roles.d i.roles.d.toNat = 1 := if_pos ⟨hp, rfl⟩
  omega

/-- Name zero reads as zero. -/
theorem ctlOperand_zero {s : State} {g k : Nat} (hc : s.cur = .slot g k) : ctlOperand 0 s = .ok (0, s) := by
  have hv : s.val 0 = {} := by unfold State.val; rw [hc]; rfl
  have h := ctlOperand_of_clear (readName_of_notPort (s := s) (a := 0) rfl) (by rw [hv])
  rwa [hv] at h

/-- R115, R299: the forms of two addresses or control cells and one more. -/
theorem threeForms_accepted {s : State} {g k : Nat} {d a b : Name} (hc : s.cur = .slot g k) (hroom : s.room OpKind.isRel = true)
    (hta : (s.val a).t = false) (htb : ((s.took a).val b).t = false) (htd : (((s.took a).took b).val d).t = false) :
    (Ready (.jlk d a b) s → exec (.jlk d a b) s = .next (s.done ((((s.took a).took b).took d).accept (.jlk d a b) .tiles
      (.eng .jlk (((s.took a).took b).val d).v (s.val a).v ((s.took a).val b).v 0 none)))) ∧
    (∀ e ∈ [(Instr.jgs d a b, Eng.jgs, (0xFFFFFFFF000004FF : Word)), (.jdelta d a b, .jdelta, 0xFF), (.cleave d a b, .cleave, 0xFF),
        (.jmul d a b, .jmul, 0x3FF)], Ready e.1 s → (((s.took a).took b).val d).v &&& ~~~e.2.2 = 0 →
      exec e.1 s = .next (s.done ((((s.took a).took b).took d).accept e.1 .tiles
        (.eng e.2.1 (((s.took a).took b).val d).v (s.val a).v ((s.took a).val b).v 0 none)))) := by
  have hcur : (((s.took a).took b).took d).cur = .slot g k := by simp only [took_cur, hc]
  have hr : (((s.took a).took b).took d).room OpKind.isRel = true := by simpa only [room_took] using hroom
  have ctl (i : Instr) (h : Ready i s) (ha : i.roles.ra = .src) (hb : i.roles.rb = .src) (hd : i.roles.rd = .ctl) (ea : i.roles.a = a)
      (eb : i.roles.b = b) (ed : i.roles.d = d) (f : Eng) {mode fin : Bool} (hbad : relCtlBad (((s.took a).took b).val d).v mode fin = false) :
      issue i (relCtlOp i f d a b mode fin) s = .next (s.done ((((s.took a).took b).took d).accept i .tiles
        (.eng f (((s.took a).took b).val d).v (s.val a).v ((s.took a).val b).v 0 none))) := by
    obtain ⟨ra, rb⟩ := reads_two h ha hb ea eb
    have rd := readName_of_holds (s := (s.took a).took b) (holds_of_notPort (notPort_of_ctl h hd ed))
    exact relCtl_accepted h (ctlOperand_of_clear ra hta) (ctlOperand_of_clear rb htb) (ctlOperand_of_clear rd htd) hcur hr hbad
  refine ⟨fun h => ?_, fun e he h hmask => ?_⟩
  · obtain ⟨ra, rb⟩ := reads_two (a := a) (b := b) h rfl rfl rfl rfl
    have rd := readName_of_holds (holds_third (i := .jlk d a b) hc h rfl rfl rfl)
    exact relAddr_accepted h (ctlOperand_of_clear ra hta) (ctlOperand_of_clear rb htb) (ctlOperand_of_clear rd htd) hcur hr
  · fin_cases he
    · exact ctl _ h rfl rfl rfl rfl rfl rfl _ (ctl_of_finish hmask)
    · exact ctl _ h rfl rfl rfl rfl rfl rfl _ (ctl_of_node hmask)
    · exact ctl _ h rfl rfl rfl rfl rfl rfl _ (ctl_of_node hmask)
    · exact ctl _ h rfl rfl rfl rfl rfl rfl _ (ctl_of_mode hmask)

/-- R115, R299: the forms of two operands. -/
theorem twoForms_accepted {s : State} {g k : Nat} {d a : Name} (hc : s.cur = .slot g k) (hroom : s.room OpKind.isRel = true)
    (hta : (s.val a).t = false) (htd : ((s.took a).val d).t = false) :
    (∀ e ∈ [(Instr.jenum d a, Eng.jenum), (.isect d a, .isect)], Ready e.1 s → exec e.1 s = .next (s.done
      (((s.took a).took d).accept e.1 .tiles (.eng e.2 ((s.took a).val d).v (s.val a).v 0 0 none)))) ∧
    (Ready (.jexp d a) s → ((s.took a).val d).v &&& ~~~0x3FF = 0 → exec (.jexp d a) s = .next (s.done
      (((s.took a).took d).accept (.jexp d a) .tiles (.eng .jexp ((s.took a).val d).v (s.val a).v 0 0 none)))) := by
  have hcur : ((s.took a).took d).cur = .slot g k := by simp only [took_cur, hc]
  have hr : ((s.took a).took d).room OpKind.isRel = true := by simpa only [room_took] using hroom
  have rz : ctlOperand 0 (s.took a) = .ok (0, s.took a) := ctlOperand_zero (g := g) (k := k) (by rw [took_cur, hc])
  have addr (i : Instr) (h : Ready i s) (ha : i.roles.ra = .src) (hb : i.roles.rb = .none) (hd : i.roles.rd = .src) (ea : i.roles.a = a)
      (ed : i.roles.d = d) (f : Eng) : issue i (relAddrOp i f d a 0) s = .next (s.done (((s.took a).took d).accept i .tiles
        (.eng f ((s.took a).val d).v (s.val a).v 0 0 none))) := by
    subst ea ed
    exact relAddr_accepted h (ctlOperand_of_clear (readName_of_holds (holds_a h ha)) hta) rz
      (ctlOperand_of_clear (readName_of_holds (holds_last hc h ha hb hd)) htd) hcur hr
  refine ⟨fun e he h => ?_, fun h hmask => ?_⟩
  · fin_cases he <;> exact addr _ h rfl rfl rfl rfl rfl _
  · have ra := readName_of_holds (holds_a (i := .jexp d a) h rfl)
    have rd := readName_of_holds (s := s.took a) (holds_of_notPort (notPort_of_ctl (i := .jexp d a) h rfl rfl))
    exact relCtl_accepted h (ctlOperand_of_clear ra hta) rz (ctlOperand_of_clear rd htd) hcur hr (ctl_of_mode hmask)

theorem jstat_accepted {s : State} {g k : Nat} {d : Name} (hc : s.cur = .slot g k) (hroom : s.room OpKind.isRel = true)
    (h : Ready (.jstat d) s) : exec (.jstat d) s = .next (s.done (s.accept (.jstat d) .tiles (.eng .jstat 0 0 0 0 (s.lateDst d)))) :=
  done_of_issued h (by rw [jstatOp, M.bind_ok (M.get_apply _), relSend_of_room hc hroom])

/-! ### Turns of the unit (R115, R299, R309, R378) -/

/-- R299, R309: the state in which an operation of the unit has left its status bits in its slot. -/
def noted (o : Op) (r : RelSt) : State :=
  if o.live then r.st.setSlot o.g o.k { r.st.slot o.g o.k with relBits := (r.st.slot o.g o.k).relBits ||| r.fl } else r.st

section
variable {s : State} {o : Op} {body : RM Unit}

theorem runRel_ends {r : RelSt} (h : body (s.relStart o) = (.ok (), r)) : s.runRel o body = (noted o r).endOp o := by
  unfold State.runRel
  rw [h]; rfl

theorem runRel_fails {x : EngErr} {r : RelSt} (h : body (s.relStart o) = (.error x, r)) (hx : x.1 ≠ 0) :
    s.runRel o body = (noted o (countResidue r).2).failOp o x.1 (BitVec.ofNat 64 r.res) x.2 := by
  unfold State.runRel
  rw [h]
  exact if_neg hx

end

section
variable {s : State} {o : Op} {d a b z : Word} {dst : Option Nat} (h : InFlight s o) (ho : s.oldestOf o OpKind.isRel = true)
include h ho

omit h in
theorem relTurn_oldest (run : State) : s.relTurn o run = run := by
  unfold State.relTurn; rw [ho]; rfl

/-- The event of the oldest operation of the unit is its turn. -/
theorem exec_of_turn {i : Instr} {f : Op → State} {run : State} (hx : exec i s = s.onOp f) (hf : f o = s.relTurn o run) :
    exec i s = .next run := by
  rw [hx, onOp_of_inFlight h, hf, relTurn_oldest ho]

/-- R115, R299: the unit runs its oldest operation. -/
theorem relComplete_runs : ∀ e ∈ [(Instr.jlkComplete, Eng.jlk, jlkBody d a b), (.jgsComplete, .jgs, jgsBody d a b),
    (.jmulComplete, .jmul, jmulBody d a b), (.jexpComplete, .jexp, jexpBody d a), (.jenumComplete, .jenum, jenumBody d a),
    (.jdeltaComplete, .jdelta, jdeltaBody d a b), (.cleaveComplete, .cleave, cleaveBody d a b), (.isectComplete, .isect, isectBody d a)],
    o.kind = .eng e.2.1 d a b z dst → (e.2.1 = .isect → s.ev.opt = none) → exec e.1 s = .next (s.runRel o e.2.2) := by
  intro e he hk hopt
  fin_cases he <;> refine exec_of_turn h ho rfl ?_ <;> simp only [hk]
  rw [hopt rfl]

/-- R325: a turn of an isect that names a part performs it alone. -/
theorem isectPart_runs {n : Nat} (hk : o.kind = .eng .isect d a b z dst) (hopt : s.ev.opt = some n) :
    exec .isectComplete s = .next (s.isectPart o d a s.ev.v n) :=
  exec_of_turn h ho rfl (by simp only [hk, hopt])

theorem jstatComplete_runs (hk : o.kind = .eng .jstat d a b z dst) : exec .jstatComplete s = .next (s.runJstat o dst) :=
  exec_of_turn h ho rfl (by simp only [hk])

end

/-- R309: jstat reads the status bits of its slot and clears them. -/
theorem runJstat_live {s : State} {o : Op} {c : Nat} (hl : o.live = true) (hc : c < numCells o.g) :
    (s.runJstat o (some c)).cell o.g c = { v := (s.slot o.g o.k).relBits.setWidth 64, t := false } ∧
      ((s.runJstat o (some c)).slot o.g o.k).relBits = 0 ∧ (s.runJstat o (some c)).op? o.id = none ∧ (s.runJstat o (some c)).mem = s.mem := by
  have hrun : s.runJstat o (some c) = ((s.setSlot o.g o.k { s.slot o.g o.k with relBits := 0 }).endOp o).setCell o.g c
      { v := (s.slot o.g o.k).relBits.setWidth 64, t := false } := by
    unfold State.runJstat State.arrive
    simp only [hl, Bool.not_true, Bool.false_eq_true, if_false, if_true]
    exact setCells_one _ _ _ _ hc
  have hbits (x : Slot) (c : CClass) (n : Nat) : (x.setCount c n).relBits = x.relBits := by cases c <;> rfl
  rw [hrun]
  refine ⟨by rw [cell_setCell, if_pos ⟨rfl, rfl⟩], ?_, ?_, ?_⟩
  · rw [slot_setCell]
    rcases slot_endOp_apart (s.setSlot o.g o.k { s.slot o.g o.k with relBits := 0 }) o o.g o.k with h | ⟨c', -, -, -, -, h⟩ <;>
      rw [h]
    · rw [slot_setSlot, if_pos ⟨rfl, rfl⟩]
    · rw [hbits, slot_setSlot, if_pos ⟨rfl, rfl⟩]
  · exact op?_endOp _ o
  · exact State.endOp_mem _ o

/-! ### Parts of an isect under way (R68, R325) -/

theorem begun_iff (o : Op) : o.begun = false ↔ o.early = [] ∧ o.found = [] ∧ o.parts = [] := by
  simp [Op.begun, and_assoc]

theorem publishWaits_iff (s : State) (g : Nat) : s.publishWaits g = true ↔
    ∃ e ∈ s.cores, s.partOf e.1 = s.partOf g ∧ ∃ x ∈ e.2.slots, x.2.blocked = some .begun := by
  simp [State.publishWaits]

section
variable {s : State} {o : Op} {d a va : Word}

/-- R68: none begins while a publish waits. -/
theorem isectPart_stands (hb : o.begun = false) (hw : s.publishWaits o.g = true) (n : Nat) : s.isectPart o d a va n = s := by
  unfold State.isectPart; rw [hb, hw]; rfl

variable (hgo : (!o.begun && s.publishWaits o.g) = false)
include hgo

theorem isectPart_sums {v : Word} (hv : Reads (rd8 va 0) { s.relStart o with early := [] } v) :
    s.isectPart o d a va 0 = s.mapOp o.id (fun p => { p with early := (va, v) :: p.early }) := by
  unfold State.isectPart
  rw [hgo, hv]; rfl

theorem isectPart_known (hf : o.found.lookup va ≠ none) : s.isectPart o d a va 1 = s := by
  unfold State.isectPart
  rw [hgo]
  exact if_pos (Option.isSome_iff_ne_none.mpr hf)

theorem isectPart_finds (hf : o.found.lookup va = none) {v : Word} (hv : Reads (rd8 va 0) { s.relStart o with early := [] } v) :
    s.isectPart o d a va 1 = s.mapOp o.id (fun p => { p with found := (va, v) :: p.found }) := by
  unfold State.isectPart
  rw [hgo, hf, hv]; rfl

theorem isectPart_done {m : Nat} (hm : m ∈ o.parts) : s.isectPart o d a va (m + 2) = s := by
  unfold State.isectPart
  rw [hgo]
  exact if_pos (List.contains_iff_mem.mpr hm)

section
variable {m : Nat} (hm : m ∉ o.parts)
include hm

theorem isectPart_none {r : RelSt} (hw : isectWrite d a m (s.relStart o) = (.ok none, r)) : s.isectPart o d a va (m + 2) = s := by
  simp only [State.isectPart, hgo, Bool.false_eq_true, if_false, List.contains_iff_mem, hm, hw]

theorem isectPart_writes {ws : List (Word × Word)} {r : RelSt} (hw : isectWrite d a m (s.relStart o) = (.ok (some ws), r)) :
    s.isectPart o d a va (m + 2) = r.st.mapOp o.id (fun p => { p with parts := m :: p.parts, found := ws }) := by
  simp only [State.isectPart, hgo, Bool.false_eq_true, if_false, List.contains_iff_mem, hm, hw]

end

end

/-! ### Words of an isect ahead (R325) -/

/-- One that has begun, or that no publish holds back, goes on. -/
theorem isectPart_free {s : State} {o : Op} (h : o.early ≠ [] ∨ o.found ≠ [] ∨ o.parts ≠ [] ∨ s.publishWaits o.g = false) :
    (!o.begun && s.publishWaits o.g) = false := by
  cases hb : o.begun with
  | true => rfl
  | false =>
    obtain ⟨he, hf, hp⟩ := (begun_iff o).mp hb
    simpa [he, hf, hp] using h

/-- A note on an operation in flight is found under its number. -/
theorem op?_mapOp_of_inFlight {s : State} {o : Op} (h : InFlight s o) (f : Op → Op) (hf : ∀ p, (f p).id = p.id) :
    (s.mapOp o.id f).op? o.id = some (f o) :=
  op?_mapOp hf (inFlight_op? h)

section
variable {s : State} {o : Op} {d a va : Word}

/-- What a computation of an isect leaves as it was, the operations with it. -/
theorem isectFind_leaves {rs : List (List Word)} {ws : List (Word × Word)} {r : RelSt}
    (h : isectFind d a (s.relStart o) = (.ok (rs, ws), r)) : r.parts = o.parts ∧ r.st.ops = s.ops :=
  ⟨(isectFind_keeps (p := RelSt.parts) (fun _ _ _ => rfl) (fun _ _ => rfl) d a).after h,
    (isectFind_keeps (p := fun r => r.st.ops) (fun _ _ _ => rfl) (fun _ _ => rfl) d a).after h⟩

/-- R325: the state after a part of an isect has been performed. -/
structure PartDone (o : Op) (m : Nat) (ws : List (Word × Word)) (r : RelSt) (t : State) : Prop where
  op : t.op? o.id = some { o with parts := m :: o.parts, found := ws }
  mem : t.mem = r.st.mem
  tags : t.tags = r.st.tags
  bad : t.bad = r.st.bad
  cores : t.cores = r.st.cores

variable (hgo : (!o.begun && s.publishWaits o.g) = false) {m : Nat} (hm : m ∉ o.parts) {rs : List (List Word)} {ws : List (Word × Word)}
  {r r' : RelSt} (hfind : isectFind d a (s.relStart o) = (.ok (rs, ws), r))
include hgo hm hfind

theorem isectPart_beyond (hlt : 4 * rs.length < m) : s.isectPart o d a va (m + 2) = s :=
  isectPart_none hgo hm (by rw [isectWrite_of_found hfind, if_pos hlt]; rfl)

variable (h : InFlight s o)
include h

/-- R325: a word of the output that is written ahead. -/
theorem isectPart_puts (hle : m ≤ 4 * rs.length) (hput : (if m = 0 then wrN d 4 rs.length else
    wr8 d (32 + 8 * (m - 1)) (rs.flatten.getD (m - 1) 0) : RM Unit) r = (.ok (), r')) :
    PartDone o m ws r' (s.isectPart o d a va (m + 2)) := by
  obtain ⟨hparts, hops⟩ := isectFind_leaves hfind
  have hkeep : Keeps (fun r => r.st.ops) (if m = 0 then wrN d 4 rs.length else
      wr8 d (32 + 8 * (m - 1)) (rs.flatten.getD (m - 1) 0) : RM Unit) :=
    keeps_ite (wrN_keeps (fun _ _ _ _ => State.write_ops ..) _ _ _) (wrN_keeps (fun _ _ _ _ => State.write_ops ..) _ _ _)
  have hops' : r'.st.op? o.id = some o := by
    rw [← inFlight_op? h]
    exact congrArg (List.find? (fun p : Op => p.id = o.id)) ((hkeep.after hput).trans hops)
  have hwrite : isectPut d m (if m = 0 then BitVec.ofNat 64 rs.length else rs.flatten.getD (m - 1) 0) r = (.ok (), r') := by
    rw [isectPut_apply, hparts, if_neg hm, ← hput]
    split
    · rw [wrN_toNat]
    · rfl
  rw [isectPart_writes hgo hm (r := r') (ws := ws)]
  · exact { op := op?_mapOp (f := fun p => { p with parts := m :: p.parts, found := ws }) (fun _ => rfl) hops'
            mem := rfl, tags := rfl, bad := rfl, cores := rfl }
  · rw [isectWrite_of_found hfind, if_neg (by omega), bind_of_ok hwrite]
    rfl

end

/-! ### The relational unit (O48) -/

/-- Settles O48, clause by clause: the issue of each form, a turn of the unit as the run of the body of its operation, and each body
by what it reads. -/
theorem relationalUnit : Obligations.RelationalUnit := by
  unfold Obligations.RelationalUnit
  refine ⟨?accept, fun s g k d hc hroom h => jstat_accepted hc hroom h, ?turns, ?lookups,
    fun x i r k p hk hp => ⟨visit_in_order hk hp, visit_out_of_order hk hp⟩, fun sq x i kids e r k l h => mulLookups_reads h,
    fun u i r p e => upElem_reads, fun x root ckc r k h => groups_spec h,
    fun g n hn => ⟨split_rows hn g, fun i hi => split_shard hn g hi⟩, ?shards,
    fun u p r e hp h => shard_reads hp h, fun desc r => ⟨fun h => relDesc_aligned h r, fun h => relDesc_misaligned h r⟩,
    ?jmul, ?jexp, ?contexts, ?gradients, ?tuples, ?jenum, ?jgs, ?level, ?jdelta, ?levels, ?disjoint, ?cleave,
    fun lists _ _ _ => ⟨keyRecords_keys lists, fun w hw => keyRecords_places hw⟩,
    fun lists sums len => ⟨common lists, fun w j hj => common_bit lists w hj, bitmapRecords_eq lists sums len⟩, ?isect⟩
  case accept =>
    intro s g k d a b hc hroom x u y v hta
    refine ⟨fun h htb htd => ?_, fun e he h htd => ?_, fun h htd hm => ?_, fun e he h htb htd hm => ?_⟩
    · exact (threeForms_accepted hc hroom hta htb htd).1 h
    · exact (twoForms_accepted hc hroom hta htd).1 e he h
    · exact (twoForms_accepted hc hroom hta htd).2 h hm
    · exact (threeForms_accepted hc hroom hta htb htd).2 e he h hm
  case turns =>
    intro s o d a b z dst h ho start mark
    refine ⟨fun e he hk hopt => ?_, ?_, fun c hk hl hc => ?_⟩
    · have hrun := relComplete_runs h ho e he hk hopt
      refine ⟨fun r hr => ?_, fun x r hr hx => ?_⟩
      · rw [hrun, runRel_ends (s := s) hr]; rfl
      · rw [hrun, runRel_fails (s := s) hr hx]; rfl
    · intro n hk hopt
      rw [isectPart_runs h ho hk hopt]
      intro run kept part
      refine ⟨fun he hf hp hw => congrArg _ (isectPart_stands ((begun_iff o).mpr ⟨he, hf, hp⟩) hw n), fun hfree => ?_, publishWaits_iff s o.g⟩
      have hgo : (!o.begun && s.publishWaits o.g) = false := isectPart_free hfree
      refine ⟨?_, ?_, ?_⟩
      · rintro rfl v hv
        exact ⟨_, congrArg _ (isectPart_sums hgo hv), op?_mapOp_of_inFlight h _ (fun _ => rfl), rfl, rfl, rfl⟩
      · rintro rfl
        exact ⟨fun hf => congrArg _ (isectPart_known hgo hf), fun hf v hv =>
          ⟨_, congrArg _ (isectPart_finds hgo hf hv), op?_mapOp_of_inFlight h _ (fun _ => rfl), rfl, rfl, rfl⟩⟩
      · rintro m rfl
        refine ⟨fun hm => congrArg _ (isectPart_done hgo hm), fun hm rs ws r r' hfind =>
          ⟨fun hlt => congrArg _ (isectPart_beyond hgo hm hfind hlt), fun h0 hput => ?_, fun h1 hle hput => ?_⟩⟩
        · obtain ⟨hop, hmem, htags, hbad, hcores⟩ := isectPart_puts hgo hm hfind h (by omega) (by rwa [if_pos h0])
          exact ⟨_, rfl, hop, hmem, htags, hbad, hcores⟩
        · obtain ⟨hop, hmem, htags, hbad, hcores⟩ := isectPart_puts hgo hm hfind h hle (by rwa [if_neg (by omega)])
          exact ⟨_, rfl, hop, hmem, htags, hbad, hcores⟩
    · exact ⟨_, jstatComplete_runs h ho hk, runJstat_live hl hc⟩
  case lookups =>
    intro t r ks em hhead hrise
    refine ⟨fun sq k => ⟨fun i hi hk => lookup_present hhead hrise sq hi hk, lookup_absent hhead hrise sq,
      fun i hi he => elem_of_empty hhead sq hi he, fun i hi he c q ss => elem_of_full hhead sq hi he⟩, fun dst table key hdst ht => ?_⟩
    exact ⟨fun i hi hk he ws hws => jlkBody_full hhead hrise hdst ht hi hk he hws, jlkBody_empty hhead hrise hdst ht⟩
  case shards =>
    intro u r gs nd hgs hcl ss
    exact ⟨shards_agree hgs hcl, shards_disagree hgs hcl⟩
  case jmul =>
    intro c tree desc r t n mode nd r1 ht
    have hbody := jmulBody_of_tree (desc := desc) ht
    refine ⟨fun hm u out hu hout => ⟨fun hcl k e he => ?_, fun hcl ss e hss he => ?_⟩, ?_,
      fun hm hcl ws x set out ss es hws hx hset hcap hout hss hes => ?_⟩
    · rw [hbody, if_pos hm]
      exact ⟨_, jmulWhole_rows rfl hu hout hcl he, joinAll_holds ..⟩
    · rw [hbody, if_pos hm]
      exact ⟨_, jmulWhole_shards rfl hu hout hcl hss he, combine_holds ss.length _ e⟩
    · intro hm hcl ws u lh set ss hws hu hlh hset hss first count hfit hcap
      rw [hbody, if_neg (by omega), if_pos hm]
      exact ⟨_, jmulShards_spec hcl hws hu hlh hset hss hfit hcap, fun j r' p e => shardStep_apply⟩
    · rw [hbody, if_neg (by omega), if_neg (by omega)]
      exact ⟨_, jmulCombine_spec rfl hcl hws hx hset hcap hout hss hes, combine_entries_holds es (Elem.zero t.h)⟩
  case jexp =>
    intro c tree r t n mode nd ht
    have hbody := jexpBody_of_tree ht
    refine ⟨fun hm => ?_, fun hm => ?_, fun hm => ?_, fun hm hn => ?_, ?_⟩
    · rw [hbody, if_neg (by omega), if_pos hm]
    · rw [hbody, if_neg (by omega), if_neg (by omega), if_pos hm]
    · rw [hbody, if_neg (by omega), if_neg (by omega), if_neg (by omega)]
    · rw [hbody, if_pos hm]; exact jexpDown_root hn r
    · intro hm hn x own sibs out p k e r1 hx hroot hown hsibs hout he
      rw [hbody, if_pos hm]
      exact ⟨_, jexpDown_spec hn rfl hx hroot hown hsibs hout he, joinAll_holds ..⟩
  case contexts =>
    intro t n r x down kids out nd r1 hx hroot hdown hkids hout hrows
    refine ⟨_, jexpContext_spec rfl hx hroot hdown hkids hout hrows, fun i r' e0 e hv he0 hd hm =>
      contextRow_apply hv (fun hnone => he0 (by_contra fun hn => ?_)) hd hm⟩
    obtain ⟨d, -, hcons⟩ := hdown hn
    cases hnone.symm.trans hcons
  case gradients =>
    intro t n r x ctx nd r1 hx hctx hrows hgrad
    exact ⟨_, jexpGradient_spec rfl hx hctx hrows hgrad, fun i r' e p => gradientRow_apply⟩
  case tuples =>
    intro t keys order hnodup hparent key
    exact ⟨fun f => allTuples_iff f hnodup hparent, allTuples_ascending hnodup⟩
  case jenum =>
    intro tuples tree r
    obtain ⟨r1, hst, hc, hres, hfl, hbody⟩ := jenum_spec tuples tree r
    refine ⟨r1, hst, hc, hres, hfl, ?_⟩
    intro t d x k ht nodes order hd h rest out
    exact ⟨_, hbody t d x k ht hd h, fun i _ => rfl⟩
  case jgs =>
    intro c tree desc r t ws n ex tt gb grp ht hws hgrp x hx
    refine ⟨fun hc hgb d hd => ⟨_, jgsBody_tuples ht hws hgrp hx hc hgb hd, fun i r' m hm => ⟨jgsTuple_outside hm, ?_⟩⟩,
      fun hc hgrad => ⟨_, jgsBody_finish ht hws hgrp hx hc hgrad, fun i r' vs => jgsRow_apply⟩⟩
    intro hlt gs old hlen hgs hold cv
    exact jgsTuple_inside hm hlt hlen hgs hold
  case level =>
    intro t n d up w r ds us kept other hup hds hus hsort hsortUs del hlen hkept hapart was old
    have hentries := upMap_reads hup hus hlen hkept
    refine ⟨afterDeltas t ds us kept, holds_congr (afterDeltas_holds t hsort hsortUs hlen) fun key => ?_,
      fun hn hcap => deltaLevel_root hup hds hentries hlen hn hcap, ?_⟩
    · show merged ((was key).map _) (del key) = _
      cases was key <;> cases del key <;> rfl
    · intro x wt kt p k k' l hn hcap q hx hkt hwt hrows e
      have hdel : del = deltaOf (liveOf ds) := funext fun key => (deltaOf_liveOf key ds).symm
      refine ⟨_, ?_, deltaLevel_rows hup hds hentries hlen hsort hn hcap (fun w' ho => hapart w' ho hn) hx hkt hwt (p := p) (k := k) (k' := k')
        (l := l) fun i hi => ?_⟩
      · rw [← hdel]
        exact joinAll_holds ..
      · obtain ⟨hv, hk, hpart⟩ := hrows i hi
        rw [← hdel]
        exact ⟨hv, hk, fun hd => (hpart hd).1, fun hd => (hpart hd).2.1, fun hd => (hpart hd).2.2⟩
  case jdelta =>
    intro c tree desc r t ws d n ht
    exact ⟨jdeltaBody_bag ht, fun hb hws hd => jdeltaBody_levels ht hb hws hd⟩
  case levels =>
    intro t f n d w w' first r level
    exact ⟨fun r' => deltaLevels_last f, fun q d' r' => deltaLevels_next f⟩
  case disjoint =>
    intro t d x y w w' r hx hy apart
    exact ⟨disjointTables_apart hx hy, disjointTables_overlap hx hy⟩
  case cleave =>
    intro c tree list r t n nd rec' r1 ht
    refine ⟨cleaveBody_whole ht, ?_⟩
    intro hcl x l gs hx hl hgs ss
    exact ⟨cleaveBody_full ht hcl rfl hx hl hgs, fun hfit =>
      ⟨_, cleaveBody_fits ht hcl rfl hx hl hgs hfit, fun i h => shardEntry_getElem list h⟩⟩
  case isect =>
    intro out desc r ws hd lists sums r1 q w0 k mode len h64 h32 hdesc hhead h2 h4 hmode hunused halike hzero hcount hlists hsums rs
    have h : IsectReads out desc r ws hd lists sums :=
      ⟨h64, h32, hdesc, hhead, h2, h4, hmode, hunused, halike, hzero, hcount, hlists, hsums⟩
    refine ⟨isectFind_fits h, isectBody_full h, fun hfit => ⟨_, isectBody_fits h hfit, fun i hi r' hr' => isectStep_apply ?_ hr'⟩⟩
    have hmem : rs.getD i [] ∈ rs := by
      rw [List.getD_eq_getElem _ _ hi]
      exact List.getElem_mem hi
    exact record_length hmem

end Sys2Proof.Relations
end
